-- ==== Sys2Proof/Word.lean ====
section
/-! DEFINITION. The word types of the A77 (00 R3) and their plainest arithmetic. -/
namespace Sys2Proof

/-- A byte: 8 bits (R3). -/
abbrev Byte := BitVec 8
/-- A dword: 64 bits (R3), the width of an s-register. -/
abbrev Dword := BitVec 64
/-- An instruction word: always 32 bits (R3). -/
abbrev IWord := BitVec 32
/-- A row of the associative store: 1,024 data columns (R22); bit c is column c. -/
abbrev Row := BitVec 1024

end Sys2Proof
end

