-- ==== Sys2Proof/Syntax.lean ====
section
/-! DEFINITION. The instructions of the A77: one constructor for each row of spec/opcode_table.json. The first 268 are
the instruction words of 09 Tables 9.5 and 9.6; the others are the steps of the other agents and of the outside world
that the table lists without a word. Registers are named by numbers of their class (Table 9.3); a field whose class has
fewer than 64 numbers carries only those. -/
namespace Sys2Proof

/-- The b operand of the V and C forms: R192, Table 9.4. -/
inductive BOp where
  /-- rep3 0b000: field vb. -/
  | field (v : BitVec 6)
  /-- rep3 0b001: broadcast s-register. -/
  | sreg (r : BitVec 6)
  /-- rep3 0b010: broadcast f-register. -/
  | freg (r : BitVec 5)
  /-- rep3 0b1ss: field vb replicated with segment length 4^ss. -/
  | rep (v : BitVec 6) (seg : BitVec 2)
  deriving DecidableEq, Repr

/-- The element types of Table 8.1. -/
inductive EType where
  | sint
  | uint
  | f16
  | f32
  | f64
  | bf16
  | narrow (i : BitVec 3)
  | pair (i : BitVec 2)
  | raw
  deriving DecidableEq, Repr

/-- The operands of TCLR and TDEP: Table 4.5. -/
inductive TaintName where
  | s (r : BitVec 6)
  | f (r : BitVec 5)
  | v (v : BitVec 6)
  | k (k : BitVec 4)
  | acc (n : BitVec 2)
  | ctl
  deriving DecidableEq, Repr

/-- A thread slot of a core: global core number (R9) and slot (R129). -/
structure Tid where
  core : BitVec 12
  slot : BitVec 3
  deriving DecidableEq, Repr

/-- A change of the MSI-X capability or table (R371). -/
inductive MsixCtl where
  | enable (on : Bool)
  | functionMask (on : Bool)
  | vectorMask (v : BitVec 8) (on : Bool)
  deriving DecidableEq, Repr

/-- A measurement of power (R364): of the package in milliwatts, and of matrix bands, by four times the core plus the band. -/
structure PowerReading where
  mw : Nat
  bands : List (Nat × Nat)
  deriving DecidableEq, Repr

/-- A host access to a register through BAR0 (R369). -/
inductive BarAccess where
  | write (v : BitVec 64)
  | read
  deriving DecidableEq, Repr

/-- An arrival that overran its word (R119): SUB, and the INDEX and COUNT that Table 16.1 reports. -/
structure Overrun where
  sub : BitVec 8
  index : Nat
  count : Nat
  deriving DecidableEq, Repr

/-- What a delivery receipt says of a frame (R320): its sequence number and the overrun that its arrival made (R119; log 70). -/
structure Delivery where
  seq : Nat
  ovr : Option Overrun
  deriving DecidableEq, Repr

/-- A line read from its stack, and whether its code finds an error that it cannot correct (R62; log 68). -/
structure LineRead where
  line : BitVec 41
  err : Bool
  deriving DecidableEq, Repr

/-- A copy data frame: Table 14.7. `arr` is the window and offset of the arrival word, when the copy names one. In every frame
`detour` says that the first of the remaining ports is the second hop of a detour (R309). -/
structure CopyFrame where
  destRank : BitVec 16
  window : BitVec 4
  offset : BitVec 44
  data : List Byte
  arr : Option (BitVec 48)
  origin : BitVec 16
  seq : Nat
  ports : List (BitVec 3)
  detour : Bool
  deriving DecidableEq, Repr

/-- A remote read request: Table 14.7. -/
structure ReadFrame where
  window : BitVec 4
  offset : BitVec 44
  len : BitVec 13
  origin : BitVec 16
  seq : Nat
  ports : List (BitVec 3)
  detour : Bool
  deriving DecidableEq, Repr

/-- Remote read data: Table 14.7. -/
structure ReadDataFrame where
  destRank : BitVec 16
  data : List Byte
  origin : BitVec 16
  seq : Nat
  ports : List (BitVec 3)
  detour : Bool
  deriving DecidableEq, Repr

/-- A collective data frame: Table 14.7. `kind` is the function code of Table 14.5, `count` E or the length of a COLROT,
`offset` the place of its bytes in the slot. -/
structure ColFrame where
  destRank : BitVec 16
  group : BitVec 6
  step : Nat
  segment : Nat
  kind : BitVec 2
  count : BitVec 28
  fmt : Bool
  offset : Nat
  data : List Byte
  origin : BitVec 16
  seq : Nat
  ports : List (BitVec 3)
  detour : Bool
  deriving DecidableEq, Repr

/-- The instructions. The letters of the operands are those of the field columns of spec/opcode_table.json. -/
inductive Instr where
  /-- TRAP (R210): Commits the strip and takes SWTRAP after completion, reporting s[a]. -/
  | trap (a : BitVec 6)
  /-- BOOST (R215): Requests a boost-voltage lease for named matrix bands and writes the microseconds granted. -/
  | boost (d : BitVec 6) (a : BitVec 6) (b : BitVec 6)
  /-- TLBINV (R57): Commits the strip and invalidates named translations in every TLB and walk cache of the package. -/
  | tlbinv (a : BitVec 6) (b : BitVec 6)
  /-- MODE (R196): Writes the M-form image into MODE, or into the ply's copy inside a block. -/
  | mode (m : BitVec 22)
  /-- SETVL_IMM (R216): Waits for earlier blocks, commits the strip, sets VL from an immediate and opens a new strip with its checkpoint. -/
  | setvlImm (d : BitVec 6) (i : BitVec 13)
  /-- SETVL_REG (R216): Waits for earlier blocks, commits the strip, sets VL from s[a] and opens a new strip with its checkpoint. -/
  | setvlReg (d : BitVec 6) (a : BitVec 6)
  /-- ADD (R217): Writes s[a] + s[b] mod 2^64. -/
  | add (d : BitVec 6) (a : BitVec 6) (b : BitVec 6)
  /-- SUB (R217): Writes s[a] - s[b] mod 2^64. -/
  | sub (d : BitVec 6) (a : BitVec 6) (b : BitVec 6)
  /-- AND (R217): Writes s[a] AND s[b]. -/
  | and (d : BitVec 6) (a : BitVec 6) (b : BitVec 6)
  /-- OR (R217): Writes s[a] OR s[b]. -/
  | or (d : BitVec 6) (a : BitVec 6) (b : BitVec 6)
  /-- XOR (R217): Writes s[a] XOR s[b]. -/
  | xor (d : BitVec 6) (a : BitVec 6) (b : BitVec 6)
  /-- ANDN (R217): Writes s[a] AND NOT s[b]. -/
  | andn (d : BitVec 6) (a : BitVec 6) (b : BitVec 6)
  /-- SLL (R217): Shifts s[a] left by s[b][5:0]. -/
  | sll (d : BitVec 6) (a : BitVec 6) (b : BitVec 6)
  /-- SRL (R217): Shifts s[a] right logically by s[b][5:0]. -/
  | srl (d : BitVec 6) (a : BitVec 6) (b : BitVec 6)
  /-- SRA (R217): Shifts s[a] right arithmetically by s[b][5:0]. -/
  | sra (d : BitVec 6) (a : BitVec 6) (b : BitVec 6)
  /-- ROR (R217): Rotates s[a] right by s[b][5:0]. -/
  | ror (d : BitVec 6) (a : BitVec 6) (b : BitVec 6)
  /-- MUL (R217): Writes the low 64 bits of s[a] x s[b]. -/
  | mul (d : BitVec 6) (a : BitVec 6) (b : BitVec 6)
  /-- MULH (R217): Writes the high 64 bits of the signed 128-bit product. -/
  | mulh (d : BitVec 6) (a : BitVec 6) (b : BitVec 6)
  /-- MULHN (R217): Writes the high 64 bits of the unsigned 128-bit product. -/
  | mulhn (d : BitVec 6) (a : BitVec 6) (b : BitVec 6)
  /-- DIV (R217): Signed quotient under R171, on the core's shared divider. -/
  | div (d : BitVec 6) (a : BitVec 6) (b : BitVec 6)
  /-- DIVN (R217): Unsigned quotient under R171. -/
  | divn (d : BitVec 6) (a : BitVec 6) (b : BitVec 6)
  /-- REM (R217): Signed remainder under R171. -/
  | rem (d : BitVec 6) (a : BitVec 6) (b : BitVec 6)
  /-- REMN (R217): Unsigned remainder under R171. -/
  | remn (d : BitVec 6) (a : BitVec 6) (b : BitVec 6)
  /-- MIN (R217): Writes the signed smaller of s[a] and s[b]. -/
  | min (d : BitVec 6) (a : BitVec 6) (b : BitVec 6)
  /-- MAX (R217): Writes the signed larger of s[a] and s[b]. -/
  | max (d : BitVec 6) (a : BitVec 6) (b : BitVec 6)
  /-- MINN (R217): Writes the unsigned smaller of s[a] and s[b]. -/
  | minn (d : BitVec 6) (a : BitVec 6) (b : BitVec 6)
  /-- MAXN (R217): Writes the unsigned larger of s[a] and s[b]. -/
  | maxn (d : BitVec 6) (a : BitVec 6) (b : BitVec 6)
  /-- SLT (R217): Writes 1 if s[a] < s[b] signed, else 0. -/
  | slt (d : BitVec 6) (a : BitVec 6) (b : BitVec 6)
  /-- SLTN (R217): Writes 1 if s[a] < s[b] unsigned, else 0. -/
  | sltn (d : BitVec 6) (a : BitVec 6) (b : BitVec 6)
  /-- SEQ (R217): Writes 1 if s[a] == s[b], else 0. -/
  | seq (d : BitVec 6) (a : BitVec 6) (b : BitVec 6)
  /-- CLZ (R217): Writes the leading-zero count of s[a]. -/
  | clz (d : BitVec 6) (a : BitVec 6)
  /-- CTZ (R217): Writes the trailing-zero count of s[a]. -/
  | ctz (d : BitVec 6) (a : BitVec 6)
  /-- POPC (R217): Writes the number of 1 bits in s[a]. -/
  | popc (d : BitVec 6) (a : BitVec 6)
  /-- SEXT (R217): Sign-extends s[a][w-1:0] with w from s[b][5:0]. -/
  | sext (d : BitVec 6) (a : BitVec 6) (b : BitVec 6)
  /-- ZEXT (R217): Zero-extends s[a][w-1:0] with w from s[b][5:0]. -/
  | zext (d : BitVec 6) (a : BitVec 6) (b : BitVec 6)
  /-- ADDI (R218): Writes s[a] + sext(imm14). -/
  | addi (d : BitVec 6) (a : BitVec 6) (i : BitVec 14)
  /-- ANDI (R218): Writes s[a] AND zext(imm14). -/
  | andi (d : BitVec 6) (a : BitVec 6) (i : BitVec 14)
  /-- ORI (R218): Writes s[a] OR zext(imm14). -/
  | ori (d : BitVec 6) (a : BitVec 6) (i : BitVec 14)
  /-- XORI (R218): Writes s[a] XOR zext(imm14). -/
  | xori (d : BitVec 6) (a : BitVec 6) (i : BitVec 14)
  /-- SLLI (R218): Shifts s[a] left by an immediate amount. -/
  | slli (d : BitVec 6) (a : BitVec 6) (s : BitVec 6)
  /-- SRLI (R218): Shifts s[a] right logically by an immediate amount. -/
  | srli (d : BitVec 6) (a : BitVec 6) (s : BitVec 6)
  /-- SRAI (R218): Shifts s[a] right arithmetically by an immediate amount. -/
  | srai (d : BitVec 6) (a : BitVec 6) (s : BitVec 6)
  /-- RORI (R218): Rotates s[a] right by an immediate amount. -/
  | rori (d : BitVec 6) (a : BitVec 6) (s : BitVec 6)
  /-- SLTI (R218): Writes 1 if s[a] < sext(imm14) signed, else 0. -/
  | slti (d : BitVec 6) (a : BitVec 6) (i : BitVec 14)
  /-- LI (R218): Writes sext(imm20) with no taint. -/
  | li (d : BitVec 6) (i : BitVec 20)
  /-- LIM (R218): Writes (s[d] << 20) OR imm20. -/
  | lim (d : BitVec 6) (i : BitVec 20)
  /-- LDB (R219): Loads a sign-extended byte. -/
  | ldb (d : BitVec 6) (a : BitVec 6) (i : BitVec 14)
  /-- LDH (R219): Loads a sign-extended half. -/
  | ldh (d : BitVec 6) (a : BitVec 6) (i : BitVec 14)
  /-- LDW (R219): Loads a sign-extended word. -/
  | ldw (d : BitVec 6) (a : BitVec 6) (i : BitVec 14)
  /-- LDD (R219): Loads a dword. -/
  | ldd (d : BitVec 6) (a : BitVec 6) (i : BitVec 14)
  /-- LDBN (R219): Loads a zero-extended byte. -/
  | ldbn (d : BitVec 6) (a : BitVec 6) (i : BitVec 14)
  /-- LDHN (R219): Loads a zero-extended half. -/
  | ldhn (d : BitVec 6) (a : BitVec 6) (i : BitVec 14)
  /-- LDWN (R219): Loads a zero-extended word. -/
  | ldwn (d : BitVec 6) (a : BitVec 6) (i : BitVec 14)
  /-- STB (R219): Stores the low byte of s[d] into the strip store buffer. -/
  | stb (d : BitVec 6) (a : BitVec 6) (i : BitVec 14)
  /-- STH (R219): Stores the low half of s[d]. -/
  | sth (d : BitVec 6) (a : BitVec 6) (i : BitVec 14)
  /-- STW (R219): Stores the low word of s[d]. -/
  | stw (d : BitVec 6) (a : BitVec 6) (i : BitVec 14)
  /-- STD (R219): Stores the dword s[d]. -/
  | std (d : BitVec 6) (a : BitVec 6) (i : BitVec 14)
  /-- LDACQ (R112): Acquire load of a dword at the object's point of coherence, with a fresh taint retiring after the L1 walk. -/
  | ldacq (d : BitVec 6) (a : BitVec 6)
  /-- STREL (R112): Release store: commits the strip, performs preceding bound writes, then writes the dword. -/
  | strel (a : BitVec 6) (b : BitVec 6)
  /-- AMOADD (R115): Atomically adds s[b] to memory and returns the old value. -/
  | amoadd (d : BitVec 6) (a : BitVec 6) (b : BitVec 6) (w : Bool)
  /-- AMOSWAP (R115): Atomically swaps s[b] into memory. -/
  | amoswap (d : BitVec 6) (a : BitVec 6) (b : BitVec 6) (w : Bool)
  /-- AMOCAS (R115): Atomically writes s[b] if memory equals s[d], returning the old value. -/
  | amocas (d : BitVec 6) (a : BitVec 6) (b : BitVec 6) (w : Bool)
  /-- AMOMIN (R115): Atomic signed minimum. -/
  | amomin (d : BitVec 6) (a : BitVec 6) (b : BitVec 6) (w : Bool)
  /-- AMOMAX (R115): Atomic signed maximum. -/
  | amomax (d : BitVec 6) (a : BitVec 6) (b : BitVec 6) (w : Bool)
  /-- AMOMINN (R115): Atomic unsigned minimum. -/
  | amominn (d : BitVec 6) (a : BitVec 6) (b : BitVec 6) (w : Bool)
  /-- AMOMAXN (R115): Atomic unsigned maximum. -/
  | amomaxn (d : BitVec 6) (a : BitVec 6) (b : BitVec 6) (w : Bool)
  /-- AMOAND (R115): Atomic AND. -/
  | amoand (d : BitVec 6) (a : BitVec 6) (b : BitVec 6) (w : Bool)
  /-- AMOOR (R115): Atomic OR. -/
  | amoor (d : BitVec 6) (a : BitVec 6) (b : BitVec 6) (w : Bool)
  /-- AMOXOR (R115): Atomic XOR. -/
  | amoxor (d : BitVec 6) (a : BitVec 6) (b : BitVec 6) (w : Bool)
  /-- TCLR (R100): Removes every identifier from the taint set of x. -/
  | tclr (x : TaintName)
  /-- TDEP (R100): Sets the taint set of x to the union of those of x and y. -/
  | tdep (x : TaintName) (y : TaintName)
  /-- BIND (R89): Reads a binding descriptor and installs a binding for the object. -/
  | bind (d : BitVec 6) (a : BitVec 6) (b : BitVec 6)
  /-- UNBIND (R90): Removes the binding entry of the object. -/
  | unbind (a : BitVec 6)
  /-- PGSHARE (R50): Shares pages copy-on-write into a destination range, incrementing share counts. -/
  | pgshare (d : BitVec 6) (a : BitVec 6) (b : BitVec 6)
  /-- PGDROP (R51): Clears leaves of a range, decrements counts and appends freed frames to the pool. -/
  | pgdrop (a : BitVec 6) (b : BitVec 6)
  /-- SPLOOK (R78): Looks up an address in the scratchpad tag table and returns a view address or a victim. -/
  | splook (d : BitVec 6) (a : BitVec 6)
  /-- SPSET (R79): Writes a scratchpad tag entry and returns its previous image. -/
  | spset (d : BitVec 6) (a : BitVec 6) (b : BitVec 6)
  /-- PREFETCH (R225): Brings the line holding s[a] into the L1 or home slice. -/
  | prefetch (a : BitVec 6)
  /-- BEQ (R220): Branches when s[a] == s[b]. -/
  | beq (a : BitVec 6) (b : BitVec 6) (o : BitVec 14)
  /-- BNE (R220): Branches when s[a] != s[b]. -/
  | bne (a : BitVec 6) (b : BitVec 6) (o : BitVec 14)
  /-- BLT (R220): Branches when s[a] < s[b] signed. -/
  | blt (a : BitVec 6) (b : BitVec 6) (o : BitVec 14)
  /-- BGE (R220): Branches when s[a] >= s[b] signed. -/
  | bge (a : BitVec 6) (b : BitVec 6) (o : BitVec 14)
  /-- BLTN (R220): Branches when s[a] < s[b] unsigned. -/
  | bltn (a : BitVec 6) (b : BitVec 6) (o : BitVec 14)
  /-- BGEN (R220): Branches when s[a] >= s[b] unsigned. -/
  | bgen (a : BitVec 6) (b : BitVec 6) (o : BitVec 14)
  /-- JAL (R221): Writes PC + 4 and jumps by a word offset. -/
  | jal (d : BitVec 6) (o : BitVec 20)
  /-- JALR (R221): Writes PC + 4 and jumps to s[a] + sext(imm14). -/
  | jalr (d : BitVec 6) (a : BitVec 6) (i : BitVec 14)
  /-- FADD (R222): Float add. -/
  | fadd (d : BitVec 5) (a : BitVec 5) (b : BitVec 5) (w : Bool)
  /-- FSUB (R222): Float subtract. -/
  | fsub (d : BitVec 5) (a : BitVec 5) (b : BitVec 5) (w : Bool)
  /-- FMUL (R222): Float multiply. -/
  | fmul (d : BitVec 5) (a : BitVec 5) (b : BitVec 5) (w : Bool)
  /-- FDIV (R222): Float divide. -/
  | fdiv (d : BitVec 5) (a : BitVec 5) (b : BitVec 5) (w : Bool)
  /-- FSQRT (R222): Float square root. -/
  | fsqrt (d : BitVec 5) (a : BitVec 5) (w : Bool)
  /-- FMIN (R222): Float minimum. -/
  | fmin (d : BitVec 5) (a : BitVec 5) (b : BitVec 5) (w : Bool)
  /-- FMAX (R222): Float maximum. -/
  | fmax (d : BitVec 5) (a : BitVec 5) (b : BitVec 5) (w : Bool)
  /-- FABS (R222): Clears the sign of f[a]. -/
  | fabs (d : BitVec 5) (a : BitVec 5) (w : Bool)
  /-- FNEG (R222): Inverts the sign of f[a]. -/
  | fneg (d : BitVec 5) (a : BitVec 5) (w : Bool)
  /-- FSIGNOF (R222): Writes the magnitude of a with the sign of b. -/
  | fsignof (d : BitVec 5) (a : BitVec 5) (b : BitVec 5) (w : Bool)
  /-- FEQ (R222): Writes 1 to s[d] if a == b. -/
  | feq (d : BitVec 6) (a : BitVec 5) (b : BitVec 5) (w : Bool)
  /-- FLT (R222): Writes 1 to s[d] if a < b. -/
  | flt (d : BitVec 6) (a : BitVec 5) (b : BitVec 5) (w : Bool)
  /-- FLE (R222): Writes 1 to s[d] if a <= b. -/
  | fle (d : BitVec 6) (a : BitVec 5) (b : BitVec 5) (w : Bool)
  /-- FCVTI (R222): Converts f[a] to a saturated signed 64-bit integer. -/
  | fcvti (d : BitVec 6) (a : BitVec 5) (w : Bool)
  /-- FCVTF (R222): Converts signed s[a] to the float format. -/
  | fcvtf (d : BitVec 5) (a : BitVec 6) (w : Bool)
  /-- FMVSF (R222): Copies the bits of f[a] to s[d]. -/
  | fmvsf (d : BitVec 6) (a : BitVec 5) (w : Bool)
  /-- FMVFS (R222): Copies the bits of s[a] to f[d]. -/
  | fmvfs (d : BitVec 5) (a : BitVec 6) (w : Bool)
  /-- FTRUST (R222): Writes the trust count of f[a] to s[d]. -/
  | ftrust (d : BitVec 6) (a : BitVec 5) (w : Bool)
  /-- FTRSET (R222): Writes f[a] with trust min(s[b], P). -/
  | ftrset (d : BitVec 5) (a : BitVec 5) (b : BitVec 6) (w : Bool)
  /-- FWIDEN (R222): Converts binary32 f[a] exactly to binary64. -/
  | fwiden (d : BitVec 5) (a : BitVec 5)
  /-- FNARROW (R222): Rounds binary64 f[a] to binary32. -/
  | fnarrow (d : BitVec 5) (a : BitVec 5)
  /-- FMA (R223): Fused a x b + c. -/
  | fma (d : BitVec 5) (a : BitVec 5) (b : BitVec 5) (c : BitVec 5) (w : Bool)
  /-- FMS (R223): Fused a x b - c. -/
  | fms (d : BitVec 5) (a : BitVec 5) (b : BitVec 5) (c : BitVec 5) (w : Bool)
  /-- FNMA (R223): Fused -(a x b) + c. -/
  | fnma (d : BitVec 5) (a : BitVec 5) (b : BitVec 5) (c : BitVec 5) (w : Bool)
  /-- FNMS (R223): Fused -(a x b) - c. -/
  | fnms (d : BitVec 5) (a : BitVec 5) (b : BitVec 5) (c : BitVec 5) (w : Bool)
  /-- FLDD (R224): Loads a binary64 value into f[d] at T = 53. -/
  | fldd (d : BitVec 5) (a : BitVec 6) (i : BitVec 14)
  /-- FLDW (R224): Loads a binary32 value into f[d] in binary32 form. -/
  | fldw (d : BitVec 5) (a : BitVec 6) (i : BitVec 14)
  /-- FSTD (R224): Stores the binary64 value of f[d]. -/
  | fstd (d : BitVec 5) (a : BitVec 6) (i : BitVec 14)
  /-- FSTW (R224): Stores the binary32 value of f[d]. -/
  | fstw (d : BitVec 5) (a : BitVec 6) (i : BitVec 14)
  /-- VFETCH (R134): Fetches and decodes a block and appends it to every owned ply's queue. -/
  | vfetch (a : BitVec 6) (i : BitVec 14)
  /-- PBR (R139): Ply branch on a tag condition over the ply's counted rows. -/
  | pbr (k : BitVec 4) (c : BitVec 2) (o : BitVec 16)
  /-- PFETCH (R140): Fetches a continuation block and replaces the ply's current block. -/
  | pfetch (o : BitVec 16)
  /-- VADD (R241): Element-wise integer add. -/
  | vadd (d : BitVec 6) (a : BitVec 6) (b : BOp)
  /-- VSUB (R241): Element-wise integer subtract a - b. -/
  | vsub (d : BitVec 6) (a : BitVec 6) (b : BOp)
  /-- VRSUB (R241): Element-wise reverse subtract b - a. -/
  | vrsub (d : BitVec 6) (a : BitVec 6) (b : BOp)
  /-- VNEG (R241): Element-wise negate. -/
  | vneg (d : BitVec 6) (a : BitVec 6)
  /-- VABS (R241): Element-wise absolute value. -/
  | vabs (d : BitVec 6) (a : BitVec 6)
  /-- VMUL (R241): Element-wise multiply. -/
  | vmul (d : BitVec 6) (a : BitVec 6) (b : BOp)
  /-- VMULH (R241): Element-wise high multiply. -/
  | vmulh (d : BitVec 6) (a : BitVec 6) (b : BOp)
  /-- VMAC (R241): Element-wise vd + a x b. -/
  | vmac (d : BitVec 6) (a : BitVec 6) (b : BOp)
  /-- VMACP (R242): Adds the two half-products of packed pairs into vd. -/
  | vmacp (d : BitVec 6) (a : BitVec 6) (b : BOp)
  /-- VDIV (R243): Element-wise quotient. -/
  | vdiv (d : BitVec 6) (a : BitVec 6) (b : BOp)
  /-- VREM (R243): Element-wise remainder. -/
  | vrem (d : BitVec 6) (a : BitVec 6) (b : BOp)
  /-- VMIN (R241): Element-wise minimum. -/
  | vmin (d : BitVec 6) (a : BitVec 6) (b : BOp)
  /-- VMAX (R241): Element-wise maximum. -/
  | vmax (d : BitVec 6) (a : BitVec 6) (b : BOp)
  /-- VSHL (R244): Element-wise shift left. -/
  | vshl (d : BitVec 6) (a : BitVec 6) (b : BOp)
  /-- VSHR (R244): Element-wise shift right. -/
  | vshr (d : BitVec 6) (a : BitVec 6) (b : BOp)
  /-- VRSHR (R244): Element-wise rounding shift right. -/
  | vrshr (d : BitVec 6) (a : BitVec 6) (b : BOp)
  /-- VSAT (R241): Element-wise saturating fit. -/
  | vsat (d : BitVec 6) (a : BitVec 6)
  /-- VMOV (R241): Element-wise move. -/
  | vmov (d : BitVec 6) (a : BitVec 6)
  /-- VCVT (R241): Element-wise conversion to the other integer class. -/
  | vcvt (d : BitVec 6) (a : BitVec 6)
  /-- VCLZ (R241): Element-wise leading zeros. -/
  | vclz (d : BitVec 6) (a : BitVec 6)
  /-- VPOPC (R241): Element-wise population count. -/
  | vpopc (d : BitVec 6) (a : BitVec 6)
  /-- VFADD (R245): Element-wise float add. -/
  | vfadd (d : BitVec 6) (a : BitVec 6) (b : BOp)
  /-- VFSUB (R245): Element-wise float subtract. -/
  | vfsub (d : BitVec 6) (a : BitVec 6) (b : BOp)
  /-- VFMUL (R245): Element-wise float multiply. -/
  | vfmul (d : BitVec 6) (a : BitVec 6) (b : BOp)
  /-- VFDIV (R245): Element-wise float divide. -/
  | vfdiv (d : BitVec 6) (a : BitVec 6) (b : BOp)
  /-- VFSQRT (R245): Element-wise float square root. -/
  | vfsqrt (d : BitVec 6) (a : BitVec 6)
  /-- VFMIN (R245): Element-wise float minimum. -/
  | vfmin (d : BitVec 6) (a : BitVec 6) (b : BOp)
  /-- VFMAX (R245): Element-wise float maximum. -/
  | vfmax (d : BitVec 6) (a : BitVec 6) (b : BOp)
  /-- VFABS (R245): Element-wise sign clear. -/
  | vfabs (d : BitVec 6) (a : BitVec 6)
  /-- VFNEG (R245): Element-wise sign inversion. -/
  | vfneg (d : BitVec 6) (a : BitVec 6)
  /-- VFCVT (R246): Converts elements from the MODE type to the type coded in vb. -/
  | vfcvt (d : BitVec 6) (a : BitVec 6) (t : EType)
  /-- VTRUST (R248): Writes each element's trust count into an integer field. -/
  | vtrust (d : BitVec 6) (a : BitVec 6)
  /-- VTRSET (R248): Writes va's values with trust min(b, P). -/
  | vtrset (d : BitVec 6) (a : BitVec 6) (b : BOp)
  /-- VFEXP2 (R247): Element-wise 2^a. -/
  | vfexp2 (d : BitVec 6) (a : BitVec 6)
  /-- VFLOG2 (R247): Element-wise log2 a. -/
  | vflog2 (d : BitVec 6) (a : BitVec 6)
  /-- VFRCP (R247): Element-wise reciprocal. -/
  | vfrcp (d : BitVec 6) (a : BitVec 6)
  /-- VFRSQ (R247): Element-wise reciprocal square root. -/
  | vfrsq (d : BitVec 6) (a : BitVec 6)
  /-- VFMA (R249): Element-wise fused a x b + c. -/
  | vfma (d : BitVec 6) (a : BitVec 6) (b : BitVec 6) (c : BitVec 6)
  /-- VFMS (R249): Element-wise fused a x b - c. -/
  | vfms (d : BitVec 6) (a : BitVec 6) (b : BitVec 6) (c : BitVec 6)
  /-- VFNMA (R249): Element-wise fused -(a x b) + c. -/
  | vfnma (d : BitVec 6) (a : BitVec 6) (b : BitVec 6) (c : BitVec 6)
  /-- VFNMS (R249): Element-wise fused -(a x b) - c. -/
  | vfnms (d : BitVec 6) (a : BitVec 6) (b : BitVec 6) (c : BitVec 6)
  /-- VAND (R250): Element-wise AND. -/
  | vand (d : BitVec 6) (a : BitVec 6) (b : BOp)
  /-- VOR (R250): Element-wise OR. -/
  | vor (d : BitVec 6) (a : BitVec 6) (b : BOp)
  /-- VXOR (R250): Element-wise XOR. -/
  | vxor (d : BitVec 6) (a : BitVec 6) (b : BOp)
  /-- VANDN (R250): Element-wise AND NOT. -/
  | vandn (d : BitVec 6) (a : BitVec 6) (b : BOp)
  /-- VNOT (R250): Element-wise NOT. -/
  | vnot (d : BitVec 6) (a : BitVec 6)
  /-- VSEL (R251): Writes va where the guard holds and vb elsewhere, in every row below VL. -/
  | vsel (d : BitVec 6) (a : BitVec 6) (b : BOp)
  /-- VCMP_EQ (R252): Compares for equality into a tag with a merge. -/
  | vcmpEq (k : BitVec 4) (m : BitVec 2) (a : BitVec 6) (b : BOp)
  /-- VCMP_NE (R252): Compares for inequality into a tag. -/
  | vcmpNe (k : BitVec 4) (m : BitVec 2) (a : BitVec 6) (b : BOp)
  /-- VCMP_LT (R252): Compares less-than into a tag. -/
  | vcmpLt (k : BitVec 4) (m : BitVec 2) (a : BitVec 6) (b : BOp)
  /-- VCMP_LE (R252): Compares less-or-equal into a tag. -/
  | vcmpLe (k : BitVec 4) (m : BitVec 2) (a : BitVec 6) (b : BOp)
  /-- VCMP_GT (R252): Compares greater-than into a tag. -/
  | vcmpGt (k : BitVec 4) (m : BitVec 2) (a : BitVec 6) (b : BOp)
  /-- VCMP_GE (R252): Compares greater-or-equal into a tag. -/
  | vcmpGe (k : BitVec 4) (m : BitVec 2) (a : BitVec 6) (b : BOp)
  /-- VCMP_TRLT (R253): Tags rows whose trust is below MODE.TMIN. -/
  | vcmpTrlt (k : BitVec 4) (m : BitVec 2) (a : BitVec 6)
  /-- VCMP_NAN (R253): Tags rows whose element is a NaN. -/
  | vcmpNan (k : BitVec 4) (m : BitVec 2) (a : BitVec 6)
  /-- VCMP_INF (R253): Tags rows whose element is an infinity. -/
  | vcmpInf (k : BitVec 4) (m : BitVec 2) (a : BitVec 6)
  /-- VSRCH (R239): Masked raw key search of a field into a tag. -/
  | vsrch (k : BitVec 4) (m : BitVec 2) (a : BitVec 6) (y : BitVec 6) (z : BitVec 6)
  /-- VWRT (R239): Masked raw write of key bits into a field in tagged rows. -/
  | vwrt (k : BitVec 4) (a : BitVec 6) (y : BitVec 6) (z : BitVec 6)
  /-- KAND (R254): Tag AND. -/
  | kand (d : BitVec 4) (a : BitVec 4) (b : BitVec 4)
  /-- KOR (R254): Tag OR. -/
  | kor (d : BitVec 4) (a : BitVec 4) (b : BitVec 4)
  /-- KXOR (R254): Tag XOR. -/
  | kxor (d : BitVec 4) (a : BitVec 4) (b : BitVec 4)
  /-- KANDN (R254): Tag AND NOT. -/
  | kandn (d : BitVec 4) (a : BitVec 4) (b : BitVec 4)
  /-- KNOT (R254): Tag NOT. -/
  | knot (d : BitVec 4) (a : BitVec 4)
  /-- KMOV (R254): Tag copy. -/
  | kmov (d : BitVec 4) (a : BitVec 4)
  /-- KSET (R254): Sets a tag in active rows. -/
  | kset (d : BitVec 4)
  /-- KCLR (R254): Clears a tag in active rows. -/
  | kclr (d : BitVec 4)
  /-- KPOP (R254): Counts active rows with the tag set into s[x]. -/
  | kpop (a : BitVec 4) (x : BitVec 6)
  /-- KFIRST (R254): Keeps only the lowest set row and writes its index. -/
  | kfirst (d : BitVec 4) (a : BitVec 4) (x : BitVec 6)
  /-- KONE (R254): Sets the tag only in row s[x]. -/
  | kone (d : BitVec 4) (x : BitVec 6)
  /-- KSHIFT (R254): Shifts a tag across rows by s[x]. -/
  | kshift (d : BitVec 4) (a : BitVec 4) (x : BitVec 6)
  /-- KFROM (R254): Sets a tag from the base column of a field. -/
  | kfrom (d : BitVec 4) (x : BitVec 6)
  /-- KTO (R254): Writes a tag into a field as 0 or 1. -/
  | kto (a : BitVec 4) (x : BitVec 6)
  /-- VRSUM (R256): Exact integer sum of active elements into s[d]. -/
  | vrsum (d : BitVec 6) (a : BitVec 6)
  /-- VRMIN (R255): Smallest active element. -/
  | vrmin (d : BitVec 6) (a : BitVec 6)
  /-- VRMAX (R255): Largest active element. -/
  | vrmax (d : BitVec 6) (a : BitVec 6)
  /-- VRAND (R255): Bitwise AND over active elements. -/
  | vrand (d : BitVec 6) (a : BitVec 6)
  /-- VROR (R255): Bitwise OR over active elements. -/
  | vror (d : BitVec 6) (a : BitVec 6)
  /-- VRXOR (R255): Bitwise XOR over active elements. -/
  | vrxor (d : BitVec 6) (a : BitVec 6)
  /-- VRFSUM (R261): Exact float sum rounded once into f[d]. -/
  | vrfsum (d : BitVec 5) (a : BitVec 6)
  /-- VRFMAX (R255): Largest float element, NaNs skipped. -/
  | vrfmax (d : BitVec 5) (a : BitVec 6)
  /-- VRFMIN (R255): Smallest float element, NaNs skipped. -/
  | vrfmin (d : BitVec 5) (a : BitVec 6)
  /-- VRARGMAX (R255): Lowest index holding the largest value. -/
  | vrargmax (d : BitVec 6) (a : BitVec 6)
  /-- VRARGMIN (R255): Lowest index holding the smallest value. -/
  | vrargmin (d : BitVec 6) (a : BitVec 6)
  /-- VEXTR (R255): Extracts element s[b] of va into s[d] or f[d]. -/
  | vextr (d : BitVec 6) (a : BitVec 6) (b : BitVec 6)
  /-- VTOPK (R258): Tags the k highest active rows. -/
  | vtopk (k : BitVec 4) (a : BitVec 6) (b : BitVec 6)
  /-- VBOTK (R258): Tags the k lowest active rows. -/
  | vbotk (k : BitVec 4) (a : BitVec 6) (b : BitVec 6)
  /-- VMAXT (R258): Tags rows holding the maximum. -/
  | vmaxt (k : BitVec 4) (a : BitVec 6)
  /-- VMINT (R258): Tags rows holding the minimum. -/
  | vmint (k : BitVec 4) (a : BitVec 6)
  /-- VCONF (R259): Tags rows repeating the bits of an earlier active row. -/
  | vconf (k : BitVec 4) (a : BitVec 6)
  /-- VNEARK (R260): Tags the k rows of least Hamming distance to a query. -/
  | vneark (k : BitVec 4) (a : BitVec 6) (b : BitVec 6)
  /-- VSLIDEUP (R275): Slides elements up by k. -/
  | vslideup (d : BitVec 6) (a : BitVec 6) (b : BitVec 6)
  /-- VSLIDEDN (R275): Slides elements down by k. -/
  | vslidedn (d : BitVec 6) (a : BitVec 6) (b : BitVec 6)
  /-- VSLIDEIN (R276): Slides elements down with a selected fill. -/
  | vslidein (d : BitVec 6) (a : BitVec 6) (b : BitVec 6)
  /-- VPERM (R275): Permutes elements by an index field. -/
  | vperm (d : BitVec 6) (a : BitVec 6) (b : BOp)
  /-- VCOMPACT (R277): Writes each active row's rank among active rows. -/
  | vcompact (d : BitVec 6)
  /-- VSCAN (R278): Inclusive prefix sum over active rows. -/
  | vscan (d : BitVec 6) (a : BitVec 6)
  /-- VIOTA (R275): Writes each element's index. -/
  | viota (d : BitVec 6)
  /-- VBCAST (R275): Broadcasts element s[b] of va. -/
  | vbcast (d : BitVec 6) (a : BitVec 6) (b : BitVec 6)
  /-- VLDU (R269): Unit-stride field load. -/
  | vldu (d : BitVec 6) (a : BitVec 6)
  /-- VLDS (R269): Strided field load. -/
  | vlds (d : BitVec 6) (a : BitVec 6) (b : BitVec 6)
  /-- VLDX (R269): Indexed field load (gather). -/
  | vldx (d : BitVec 6) (a : BitVec 6) (b : BOp)
  /-- VLDL (R274): Row-local load from each element's own row. -/
  | vldl (d : BitVec 6) (a : BitVec 6) (b : BOp)
  /-- VSTU (R269): Unit-stride field store. -/
  | vstu (d : BitVec 6) (a : BitVec 6)
  /-- VSTS (R269): Strided field store. -/
  | vsts (d : BitVec 6) (a : BitVec 6) (b : BitVec 6)
  /-- VSTX (R269): Indexed field store (scatter). -/
  | vstx (d : BitVec 6) (a : BitVec 6) (b : BOp)
  /-- VSTADD (R272): Scatter-add of active elements into memory. -/
  | vstadd (d : BitVec 6) (a : BitVec 6) (b : BOp)
  /-- VSTEF (R272): Converting store, with error feedback under EFB rounding. -/
  | vstef (d : BitVec 6) (a : BitVec 6) (t : EType)
  /-- VSTL (R274): Row-local store into each element's own row. -/
  | vstl (d : BitVec 6) (a : BitVec 6) (b : BOp)
  /-- VSOFT (R280): One strip of a running base-2 softmax. -/
  | vsoft (d : BitVec 6) (a : BitVec 6) (b : BitVec 5)
  /-- VCOLLAPSE (R279): Collapses one dimension of a shape laid over rows. -/
  | vcollapse (d : BitVec 6) (a : BitVec 6) (b : BitVec 6)
  /-- FMAP (R28): Sets or clears one field-map entry. -/
  | fmap (v : BitVec 6) (b : BitVec 10) (w : BitVec 7) (t : Bool)
  /-- MCFG (R284): Writes an accumulator's shape and invalidates its weights. -/
  | mcfg (a : BitVec 6) (n : BitVec 2)
  /-- MWLD (R286): Latches a dense weight tile and its checksum column. -/
  | mwld (a : BitVec 6) (b : BitVec 6) (n : BitVec 2)
  /-- MWLDS (R287): Latches a four-of-eight sparse weight tile using metadata from a field. -/
  | mwlds (a : BitVec 6) (b : BitVec 6) (c : BitVec 6) (n : BitVec 2)
  /-- MSTR (R289): Streams rows of A through the weights into accumulator rows. -/
  | mstr (a : BitVec 6) (b : BitVec 6) (n : BitVec 2)
  /-- MDRN (R291): Drains accumulator rows to memory as strided stores. -/
  | mdrn (a : BitVec 6) (b : BitVec 6) (n : BitVec 2)
  /-- MDRNV (R292): Drains one accumulator column into a field. -/
  | mdrnv (a : BitVec 6) (b : BitVec 6) (n : BitVec 2)
  /-- MZERO (R293): Zeros an accumulator with full trust. -/
  | mzero (n : BitVec 2)
  /-- MCHK (R296): Rechecks the plane's checksum and returns the count of checked rows. -/
  | mchk (a : BitVec 6) (n : BitVec 2)
  /-- SPCOMP (R288): Compresses a field to four-of-eight values and metadata. -/
  | spcomp (a : BitVec 6) (b : BitVec 6) (c : BitVec 6)
  /-- ARRINIT (R122): Sets an arrival word's TARGET and clears COUNT. -/
  | arrinit (d : BitVec 6) (a : BitVec 6) (b : BitVec 6)
  /-- ARRADD (R123): Releases and applies an arrival of B bytes to an arrival word. -/
  | arradd (d : BitVec 6) (a : BitVec 6) (b : BitVec 6)
  /-- ARRWAIT (R124): Commits the strip and sleeps until the word's GEN differs from g, then acquires. -/
  | arrwait (d : BitVec 6) (a : BitVec 6) (b : BitVec 6)
  /-- SRR (R226): Reads a system register by index. -/
  | srr (d : BitVec 6) (i : BitVec 12)
  /-- SRW (R226): Writes a system register by index under R6 and the register's rule. -/
  | srw (a : BitVec 6) (i : BitVec 12)
  /-- NOP (R209): Changes nothing but the PC. -/
  | nop
  /-- ERET (R339): Returns from a trap handler, restoring privilege, refetching and requeueing saved blocks and resuming at TEPC. -/
  | eret
  /-- WFE (R212): Sleeps until the thread's event flag is set, then clears it. -/
  | wfe
  /-- YIELD (R213): Makes the thread not ready for 8 cycles, lending its turns. -/
  | yield
  /-- HALT (R146): Ends the thread: completes blocks and vector accesses, commits the strip, arrives at the completion word and frees plies and slot. -/
  | halt
  /-- BKPT (R210): Takes BREAK before executing, with the saved PC on the BKPT word. -/
  | bkpt
  /-- SYNCI (R214): Commits the strip, performs earlier stores and discards the core's instruction-path contents. -/
  | synci
  /-- VJOIN (R145): Stalls until every earlier block has ended on every ply and joins their control taints. -/
  | vjoin
  /-- UNBOOST (R215): Ends the thread's lease at once and returns unused budget to the pool. -/
  | unboost
  /-- FENCE_SV (R102): Orders earlier scalar-stream accesses before vector accesses of later blocks. -/
  | fenceSv
  /-- FENCE_VS (R102): Stalls until every vector-stream access of earlier blocks has been performed. -/
  | fenceVs
  /-- TWAIT (R100): Waits until all 16 taint identifiers of the thread are free. -/
  | twait
  /-- PEND (R142): Ends the block on the ply and drops its control taint. -/
  | pend
  /-- PWAIT (R141): Waits at a splice until every ply has reached a PWAIT or ended the block. -/
  | pwait
  /-- CPYG2L (R303): Copies from a global or fabric address to a near-window destination. -/
  | cpyg2l (d : BitVec 6) (a : BitVec 6) (b : BitVec 6)
  /-- CPYL2G (R303): Copies from a near-window source to a global or fabric destination. -/
  | cpyl2g (d : BitVec 6) (a : BitVec 6) (b : BitVec 6)
  /-- CPYL2L (R303): Copies between near-window ranges. -/
  | cpyl2l (d : BitVec 6) (a : BitVec 6) (b : BitVec 6)
  /-- CPYG2G (R303): Copies between global or fabric ranges. -/
  | cpyg2g (d : BitVec 6) (a : BitVec 6) (b : BitVec 6)
  /-- CPYWAIT (R307): Waits for every earlier asynchronous copy and reports failures. -/
  | cpywait (d : BitVec 6)
  /-- COLRS (R314): Issues a reduce-scatter on a collective group. -/
  | colrs (d : BitVec 6) (a : BitVec 6) (b : BitVec 6)
  /-- COLAG (R314): Issues an all-gather on a collective group. -/
  | colag (d : BitVec 6) (a : BitVec 6) (b : BitVec 6)
  /-- COLAR (R314): Issues an all-reduce on a collective group. -/
  | colar (d : BitVec 6) (a : BitVec 6) (b : BitVec 6)
  /-- COLROT (R312): Sends bytes to the next rank's receive slot for one ring step. -/
  | colrot (d : BitVec 6) (a : BitVec 6) (b : BitVec 6)
  /-- COLWAIT (R316): Sends pending slot receipts and waits for the group's earlier operations. -/
  | colwait (d : BitVec 6) (a : BitVec 6)
  /-- COLSTAT (R318): Writes the group's failure record without waiting. -/
  | colstat (d : BitVec 6) (a : BitVec 6)
  /-- CTXCTL_MAKE_VALID (R59): Writing VALID = 1 reads the save list and makes the context valid or raises CTXBAD. -/
  | ctxctlMakeValid
  /-- CTXCTL_CLEAR_VALID (R166): Writing VALID = 0 to a context, refused with CTXBAD while it has threads. -/
  | ctxctlClearValid
  /-- CTXCTL_KILL (R166): Kills the selected context, its threads ending with no arrival. -/
  | ctxctlKill
  /-- COOL_DOWN (R361): THCMD 1 moves WARM-SERVICE to PURGE. -/
  | coolDown
  /-- GO (R361): THCMD 2 moves COLD-READY to ACTIVE when every die is COLD. -/
  | go
  /-- WARM_UP (R361): THCMD 3 moves ACTIVE to QUIESCE and saves every thread. -/
  | warmUp
  /-- ATTEST (R375): Mailbox OP 1 writes a signed attestation report over a nonce. -/
  | attest
  /-- ACTIVATE_STAGED_IMAGE (R374): Mailbox OP 4 starts the staged postmaster image. -/
  | activateStagedImage
  /-- POWER_ON (R374): Boot ROM starts the valid postmaster slot with the higher version. -/
  | powerOn
  /-- BOOT_SLOT_TIMEOUT (R374): A slot that does not start within 1 s is replaced by the other slot. -/
  | bootSlotTimeout
  /-- IMAGE_START_TIMEOUT (R374): A staged image not started within 1 s returns to the old slot with ERR 2. -/
  | imageStartTimeout
  /-- PACKAGE_RESET (R167): Takes every register to reset and clears plies, tiles and contexts. -/
  | packageReset
  /-- FUNCTION_LEVEL_RESET (R368): Stops queues, kills contexts and resets the package within 100 ms. -/
  | functionLevelReset
  /-- MICROCODE_LOAD_TIME_LIMIT (R376): OP 5 ends with ERR 7 when its time limit passes with plies still to load. -/
  | microcodeLoadTimeLimit
  /-- PURGE_COMPLETE (R359): Flow held 120 s moves PURGE to DESCEND. -/
  | purgeComplete
  /-- SOAK_COMPLETE (R359): 600 s cold and even moves SOAK to COLD-READY with rails on. -/
  | soakComplete
  /-- CRITICAL_SAVE_DEADLINE (R363): At 400 µs unfinished saves are abandoned. -/
  | criticalSaveDeadline
  /-- CRITICAL_RAILS_OFF (R363): At 500 µs the compute rails are off and the state is ASCEND. -/
  | criticalRailsOff
  /-- REFRESH_OFF (R362): Every stack at 95 K or below for 10 ms switches refresh off. -/
  | refreshOff
  /-- POWER_STEP_UNDO (R364): After 1 ms below 90 % of the cap, capping steps are undone. -/
  | powerStepUndo
  /-- MAILBOX_COMMAND_DONE (R372): A mailbox command ends: BUSY clears, ERR and RESULT are written, vector 67 is raised, and for OP 4 a successful start raises the anti-rollback count. -/
  | mailboxCommandDone
  /-- REGISTER_WRITE (R6): A write by SRW, supervisor MMIO or host BAR0 to a register with no behaviour of its own. -/
  | registerWrite (o : BitVec 26) (wide : Bool) (a : BarAccess)
  /-- FLAGS_WRITE (R162): W1C write of FLAGS after earlier blocks end and scatter-adds are acknowledged. -/
  | flagsWrite (v : BitVec 64)
  /-- FPHEAD_WRITE (R52): Supervisor advances FPHEAD, refused with ILLOP at L or above. -/
  | fpheadWrite (v : BitVec 64)
  /-- CHECKED_MODE_SET (R348): Write of THRCTL.CHECKED taking effect once earlier blocks end. -/
  | checkedModeSet (on : Bool)
  /-- DBGSEL_WRITE (R355): Copies a debug ring entry into DBGE0-DBGE2. -/
  | dbgselWrite (v : BitVec 64)
  /-- ROWSEL_WRITE (R356): Debugger selects a physical row, snapshotted at its next instruction boundary. -/
  | rowselWrite (t : Tid) (v : BitVec 64)
  /-- QTAIL_DOORBELL (R322): Write of a queue's TAIL, making new start records available. -/
  | qtailDoorbell (q : BitVec 6) (v : BitVec 32)
  /-- QSTAT_HALTED_CLEAR (R324): Writing 1 to QSTAT.HALTED skips the refused record and resumes the queue. -/
  | qstatHaltedClear (q : BitVec 6)
  /-- QUEUE_DISABLE (R322): Writing QCTL.EN = 0 withdraws a waiting head. -/
  | queueDisable (q : BitVec 6)
  /-- PREEMPT_REQUEST (R330): PRECTL.GO pre-empts the named threads. -/
  | preemptRequest (v : BitVec 64)
  /-- RESTORE_REQUEST (R351): RESCTL.GO restores named saved threads. -/
  | restoreRequest (v : BitVec 64)
  /-- MIGRATION_REQUEST (R151): Supervisor or postmaster request to migrate a thread through the die control block. -/
  | migrationRequest (t : Tid) (dst : BitVec 12)
  /-- GROUP_ENABLE (R310): Writing VALID = 1 to a collective group entry, clearing its step counter when newly valid or failed. -/
  | groupEnable (g : BitVec 6) (v : BitVec 64)
  /-- GROUP_WITHDRAW (R310): Writing VALID = 0 abandons the group's work with failure cause 6. -/
  | groupWithdraw (g : BitVec 6) (v : BitVec 64)
  /-- READ_CERTIFICATE_CHAIN (R375): Mailbox OP 2 returns one part of the certificate chain. -/
  | readCertificateChain (arg : BitVec 32)
  /-- STAGE_IMAGE_PART (R373): Mailbox OP 3 stages an image part into the inactive slot. -/
  | stageImagePart (arg : BitVec 32)
  /-- LOAD_MICROCODE_TABLE (R376): Mailbox OP 5 loads a new microcode table into each ply while unowned. -/
  | loadMicrocodeTable (arg : BitVec 32)
  /-- RETRAIN_PEER_PORT (R377): Mailbox OP 6 takes a peer port out of service and retrains it. -/
  | retrainPeerPort (arg : BitVec 32)
  /-- RECALIBRATE_HBM_CHANNEL (R378): Mailbox OP 7 recalibrates one HBM channel in short slots. -/
  | recalibrateHbmChannel (arg : BitVec 32)
  /-- SUBSTITUTE_SPARE_CORE (R379): Mailbox OP 8 substitutes a spare for the named core. -/
  | substituteSpareCore (arg : BitVec 32)
  /-- MAILBOX_UNKNOWN_OP (R372): An MBCMD with an unlisted OP ends with ERR 5. -/
  | mailboxUnknownOp (op : BitVec 8)
  /-- MSIRQ_WRITE (R371): Supervisor write raising MSI-X vector 68-255. -/
  | msirqWrite (v : BitVec 64)
  /-- MSIX_UNMASK (R371): Enabling or unmasking MSI-X sends pending vectors. -/
  | msixUnmask (c : MsixCtl)
  /-- HOST_BAR2_WRITE (R370): Host write through BAR2 performed at the home slice. -/
  | hostBar2Write (o : BitVec 48) (bytes : List (BitVec 8))
  /-- HOST_BAR2_READ (R370): Host read through BAR2 served at the home slice. -/
  | hostBar2Read (o : BitVec 48) (n : BitVec 13)
  /-- HOST_COMPLETION (R17): A completion from the host for a device request arrives, errors reported as PHYSHOLE. -/
  | hostCompletion (pa : BitVec 48) (bytes : List (BitVec 8)) (err : Bool)
  /-- LAUNCH_HEAD_SERVICE (R325): A launch engine reads, checks and places the head record of a queue. -/
  | launchHeadService (die : BitVec 3)
  /-- LAUNCH_RETRY (R326): A waiting head is tried again when a slot, ply, tile or page is freed. -/
  | launchRetry (q : BitVec 6)
  /-- HELD_START (R326): A head waiting 100 µs becomes the die's held start with a fixed instance. -/
  | heldStart (q : BitVec 6)
  /-- THREAD_START (R325): A reserved thread of a group starts with the registers of Table 6.1. -/
  | threadStart (t : Tid)
  /-- RESUME_LIST_RESTORE (R331): A pre-empted group on the resume list is restored whole. -/
  | resumeListRestore (die : BitVec 3)
  /-- THREAD_AGED (R327): A thread ready for 64 cycles without issuing becomes aged. -/
  | threadAged (t : Tid)
  /-- YIELD_EXPIRY (R213): The 8 cycles of a YIELD end and the thread becomes ready. -/
  | yieldExpiry (t : Tid)
  /-- WFE_WAKE (R212): An event sets the thread's event flag, waking WFE. -/
  | wfeWake (t : Tid)
  /-- WFE_TIMEOUT (R212): 65,536 cycles after WFE issued the event flag is set. -/
  | wfeTimeout (t : Tid)
  /-- PLY_BLOCK_START (R135): A ply starts the next block in its queue. -/
  | plyBlockStart (t : Tid) (j : BitVec 4)
  /-- MATRIX_OPERATION_START (R328): The core's matrix engine takes the next queued operation. -/
  | matrixOperationStart (core : BitVec 12)
  /-- MATRIX_CHECK_RESULT (R294): A streamed row's check ends, reporting any matrix check error. -/
  | matrixCheckResult (t : Tid) (fail : Bool)
  /-- CHECKED_MODE_CHECK_RESULT (R348): A checked-mode verification ends, reporting any mismatch. -/
  | checkedModeCheckResult (t : Tid) (fail : Bool)
  /-- COMMITTED_STORE_PERFORM (R345): The background drain performs committed stores at their rows, slices or devices. -/
  | committedStorePerform (t : Tid)
  /-- STRIP_ERROR_DETECTED (R347): An ECC, parity, matrix or checked-mode error marks the strip in error. -/
  | stripErrorDetected (t : Tid) (src : BitVec 3) (addr : BitVec 64)
  /-- STRIP_SETTLE (R347): A strip in error is rewound and replayed, or settled by STRIPERR. -/
  | stripSettle (t : Tid)
  /-- TRAP_DELIVERY (R335): Stops the thread, saves blocks and ply state, writes trap registers and enters the handler. -/
  | trapDelivery (t : Tid)
  /-- CONTEXT_SAVE (R349): Saves a stopped thread's image into its context's save frames and frees its resources. -/
  | contextSave (t : Tid)
  /-- CONTEXT_RESTORE (R351): Loads a saved thread image and resumes it as ERET does. -/
  | contextRestore (ctx : BitVec 16) (entry : BitVec 8)
  /-- STREAM_COMPLETE (R151): Migration streaming ends and the thread is restored on the new core. -/
  | streamComplete (t : Tid)
  /-- FORWARDING_ENTRY_EXPIRY (R152): The old core's 64 µs forwarding entry expires. -/
  | forwardingEntryExpiry (t : Tid)
  /-- LOAD_DATA_ARRIVAL (R95): A load's last byte arrives and its taint identifier retires. -/
  | loadDataArrival (t : Tid) (id : BitVec 4)
  /-- ACQUIRE_RETIRE (R92): An acquire's L1 walk and write-backs end and its taint retires. -/
  | acquireRetire (t : Tid) (id : BitVec 4)
  /-- SLICE_OPERATION (R62): A request arriving at a home slice is applied in arrival order. -/
  | sliceOperation (k : Nat)
  /-- CAS_TURN_EXPIRY (R107): A 256-cycle turn on a line expires. -/
  | casTurnExpiry (line : BitVec 41)
  /-- HBM_FILL (R62): A line read from HBM for an L2 miss arrives at its slice. -/
  | hbmFill (r : LineRead)
  /-- REPLICA_LOCK (R71): The coordinator locks the line in every replica. -/
  | replicaLock (k : Nat)
  /-- REPLICA_UPDATE (R71): With every lock acknowledged, the coordinator sends new bytes to every replica. -/
  | replicaUpdate (k : Nat)
  /-- PAGE_WALK (R56): A walker walks the tables for a miss and installs the translation. -/
  | pageWalk (t : Tid) (va : BitVec 64)
  /-- INVALIDATION_COMPLETE (R57): A TLB invalidation broadcast completes on every die. -/
  | invalidationComplete (k : Nat)
  /-- ARRWAIT_WAKE (R124): A write to the word wakes a sleeping ARRWAIT to re-read it. -/
  | arrwaitWake (t : Tid)
  /-- ARRWAIT_REREAD (R124): A waiter without a record re-reads the word every 256 cycles. -/
  | arrwaitReread (t : Tid)
  /-- COPY_CHUNK (R304): A copy chunk's bytes are performed at the destination and its arrival applied. -/
  | copyChunk (k : Nat)
  /-- COPY_CHUNK_FAIL (R305): A chunk fails, making no arrival, and COPYERR is raised. -/
  | copyChunkFail (k : Nat) (code : BitVec 8)
  /-- COPY_DATA_FRAME_RX (R320): A copy data frame's header arrives, is forwarded or checked and applied once. -/
  | copyDataFrameRx (port : BitVec 3) (f : CopyFrame)
  /-- REMOTE_READ_REQUEST_RX (R320): A remote read request arrives and is answered with data or a refusal. -/
  | remoteReadRequestRx (port : BitVec 3) (f : ReadFrame)
  /-- REMOTE_READ_DATA_RX (R320): Remote read data arrives for a copy. -/
  | remoteReadDataRx (port : BitVec 3) (f : ReadDataFrame)
  /-- COLLECTIVE_DATA_FRAME_RX (R315): A collective data frame arrives and its segment is reduced, stored or forwarded. -/
  | collectiveDataFrameRx (port : BitVec 3) (f : ColFrame)
  /-- HOP_RECEIPT_RX (R320): A hop receipt frees a port buffer. -/
  | hopReceiptRx (port : BitVec 3)
  /-- DELIVERY_RECEIPT_RX (R320): A delivery receipt completes a frame at its origin. -/
  | deliveryReceiptRx (origin : BitVec 16) (r : Delivery)
  /-- SLOT_RECEIPT_RX (R313): A slot receipt lets the sender reuse a receive slot. -/
  | slotReceiptRx (g : BitVec 6) (step : Nat)
  /-- REFUSAL_RX (R21): A refusal is reported as FABWIN for the chunk or group. -/
  | refusalRx (origin : BitVec 16) (seq : Nat) (code : BitVec 8)
  /-- LINK_TIMEOUT (R317): 20 µs without a hop receipt marks the link dead and resends through the detour. -/
  | linkTimeout (port : BitVec 3)
  /-- LINK_DOWN (R317): A PCIe peer link leaves the active state and is treated as dead. -/
  | linkDown (port : BitVec 3)
  /-- LINK_TRAINED (R319): A peer link completes training and returns to service. -/
  | linkTrained (port : BitVec 3)
  /-- PATH_TIMEOUT (R317): A frame without a delivery receipt for 100 µs fails the group at level path. -/
  | pathTimeout (seq : Nat)
  /-- GROUP_TIMEOUT (R317): An operation waiting 1 ms with GTO = 1 fails the group. -/
  | groupTimeout (g : BitVec 6)
  /-- SENSOR_SAMPLE (R357): A sensor sample updates TEMP, bands and temperature-driven state transitions. -/
  | sensorSample (die : BitVec 3) (temp : BitVec 10) (stack0 : BitVec 10) (stack1 : BitVec 10) (flow : BitVec 16) (ratex : Bool)
  /-- CRITICAL_MARK (R363): Flow loss for 50 ms or 160 K enters CRITICAL and starts the save sequence. -/
  | criticalMark (cause : BitVec 2)
  /-- REFRESH_BURST_COMPLETE (R362): A stack's refresh burst ends and demand regains full service. -/
  | refreshBurstComplete (stack : BitVec 4)
  /-- POWER_MEASUREMENT (R364): Every 10 µs package power is measured and capping steps taken. -/
  | powerMeasurement (p : PowerReading)
  /-- LEASE_EXPIRY (R365): A boost lease's duration ends and its bands return to nominal voltage. -/
  | leaseExpiry (t : Tid)
  /-- BAND_READY (R365): A band switched on becomes usable 2 µs later. -/
  | bandReady (core : BitVec 12) (band : BitVec 2)
  /-- REGULATOR_HEADROOM_LOW (R366): Regulator headroom below 10 % clears CHAINP bits in order. -/
  | regulatorHeadroomLow (die : BitVec 3)
  /-- CHAINP_RESTORE (R366): After 1 ms above 20 % headroom CHAINP bits are set again. -/
  | chainpRestore (die : BitVec 3)
  /-- FREQUENCY_TRANSITION_SETTLE (R354): A cluster's frequency change settles and latched traps are delivered. -/
  | frequencyTransitionSettle (cluster : BitVec 10)
  /-- PLY_DROWSY (R353): The postmaster makes an owned ply drowsy at a boundary. -/
  | plyDrowsy (core : BitVec 12) (ply : BitVec 4)
  /-- PLY_WAKE (R353): A drowsy ply finishes waking and serves the waiting access. -/
  | plyWake (core : BitVec 12) (ply : BitVec 4)
  /-- BACKGROUND_SCRUB (R329): A background scrub read checks parity and ECC. -/
  | backgroundScrub (core : BitVec 12) (row : BitVec 12)
  /-- WORD_NOT_AN_INSTRUCTION (R197): A control-stream word that the tables do not make an instruction raises ILLOP at issue, with the PC left on the word. -/
  | wordNotAnInstruction (w : BitVec 32)
  /-- INSTRUCTION_FETCH_FAULT (R221): A control-stream fetch whose word cannot be fetched (translation fault, missing EX, NEARRANGE, PRIVSPACE) raises the fault precisely at that word. -/
  | instructionFetchFault (va : BitVec 64)
  /-- MICROCODE_PLY_LOADED (R376): One ply finishes its 20 µs microcode load, can be granted again under the table-separation rule, and RESULT counts down. -/
  | microcodePlyLoaded (core : BitVec 12) (ply : BitVec 4)
  /-- BOOST_ANSWER (R215): The postmaster answers a BOOST, writing the microseconds granted (or 0) into s[d] and reserving the pool budget. -/
  | boostAnswer (t : Tid) (granted : BitVec 10)
  /-- RESIZABLE_BAR_WRITE (R370): The host sets BAR2's size through the Resizable BAR capability, which changes the range BAR2 reaches and clears BAR2BASE bits below that size. -/
  | resizableBarWrite (log2GiB : BitVec 4)
  deriving DecidableEq, Repr

end Sys2Proof
end

