-- ==== Sys2Proof/Machine/Float.lean ====
section
/-! DEFINITION. Numbers: the formats of 08 (R173, R175), exact values, the one rounding every float result goes through
(R174, R176, R177), and trust counts (R183 to R185). -/
namespace Sys2Proof.Machine

/-! ### Flags: the bits of R162 -/

abbrev Flags := BitVec 8
def fNX : Flags := 0x80
def fUF : Flags := 0x40
def fOF : Flags := 0x20
def fFDZ : Flags := 0x10
def fNV : Flags := 0x08
def fOV : Flags := 0x04
def fDZ : Flags := 0x02
def fSAT : Flags := 0x01

/-! ### Formats -/

/-- A binary float format (Table 8.2, R175). `bias` already takes SCALE in: a normal code with exponent field x has the
exponent x - bias. `policy` is the specials policy of Table 8.3; the IEEE formats follow policy 0 and have signalling
NaNs. -/
structure Fmt where
  sign : Bool
  ebits : Nat
  mbits : Nat
  bias : Int
  policy : Nat
  snan : Bool
  deriving DecidableEq, Repr

def Fmt.b16 : Fmt := ⟨true, 5, 10, 15, 0, true⟩
def Fmt.b32 : Fmt := ⟨true, 8, 23, 127, 0, true⟩
def Fmt.b64 : Fmt := ⟨true, 11, 52, 1023, 0, true⟩
def Fmt.bf16 : Fmt := ⟨true, 8, 7, 127, 0, true⟩

/-- Width in bits: S + E + M. -/
def Fmt.width (f : Fmt) : Nat := (if f.sign then 1 else 0) + f.ebits + f.mbits
/-- Precision P, counting the leading bit. -/
def Fmt.prec (f : Fmt) : Nat := f.mbits + 1
/-- The exponent of the smallest normal value. -/
def Fmt.emin (f : Fmt) : Int := 1 - f.bias

/-- Whether an nf image names a format: R158. -/
def nfValid (img : BitVec 64) : Bool :=
  let s := (img.extractLsb' 0 1).toNat
  let e := (img.extractLsb' 1 3).toNat
  let m := (img.extractLsb' 4 3).toNat
  decide (2 ≤ s + e + m) && decide (s + e + m ≤ 8) && !(img.extractLsb' 8 2 == 3#2)

/-- The format of an nf image (Table 7.2, R175); POLICY 0 with E = 0 is read and written as POLICY 2 (R176). -/
def Fmt.ofNf (img : BitVec 64) : Fmt :=
  let e := (img.extractLsb' 1 3).toNat
  let pol := (img.extractLsb' 8 2).toNat
  { sign := img.extractLsb' 0 1 == 1#1, ebits := e, mbits := (img.extractLsb' 4 3).toNat,
    bias := (img.extractLsb' 16 8).toInt - (img.extractLsb' 24 8).toInt,
    policy := if pol = 0 ∧ e = 0 then 2 else pol, snan := false }

/-! ### Values -/

/-- What a code stands for; a finite value is (-1)^neg × m × 2^e. -/
inductive FVal where
  | nan (signalling : Bool)
  | inf (neg : Bool)
  | fin (neg : Bool) (m : Nat) (e : Int)
  deriving DecidableEq, Repr

def FVal.isNan : FVal → Bool
  | .nan _ => true
  | .inf _ => false
  | .fin .. => false
def FVal.isSnan : FVal → Bool
  | .nan s => s
  | .inf _ => false
  | .fin .. => false
def FVal.isInf : FVal → Bool
  | .inf _ => true
  | .nan _ => false
  | .fin .. => false
def FVal.isZero : FVal → Bool
  | .fin _ m _ => m == 0
  | .nan _ => false
  | .inf _ => false
def FVal.neg : FVal → Bool
  | .nan _ => false
  | .inf n => n
  | .fin n _ _ => n
/-- The value with its sign replaced. -/
def FVal.withSign (n : Bool) : FVal → FVal
  | .nan s => .nan s
  | .inf _ => .inf n
  | .fin _ m e => .fin n m e

/-- The value of a code: R173, R175, R176. -/
def Fmt.read (f : Fmt) (bits : Nat) : FVal :=
  let m := bits % 2 ^ f.mbits
  let x := bits / 2 ^ f.mbits % 2 ^ f.ebits
  let neg := f.sign && bits.testBit (f.ebits + f.mbits)
  let ones := x = 2 ^ f.ebits - 1
  let fin : FVal :=
    if x = 0 then .fin neg m (1 - f.bias - f.mbits) else .fin neg (2 ^ f.mbits + m) ((x : Int) - f.bias - f.mbits)
  if f.policy = 0 then
    (if ones then (if m = 0 then .inf neg else .nan (f.snan && !m.testBit (f.mbits - 1))) else fin)
  else if f.policy = 1 then (if ones ∧ m = 2 ^ f.mbits - 1 then .nan false else fin)
  else fin

/-- The exponent of the leading 1 bit of a finite non-zero magnitude (R183). -/
def leadExp (m : Nat) (e : Int) : Int := e + (m.log2 : Int)

/-- a × 2^ea compared with b × 2^eb. -/
def dyCompare (a : Nat) (ea : Int) (b : Nat) (eb : Int) : Ordering :=
  let e := min ea eb
  compare (a <<< (ea - e).toNat) (b <<< (eb - e).toNat)

/-- The magnitude code of the largest finite value: Table 8.3. -/
def Fmt.maxCode (f : Fmt) : Nat :=
  if f.policy = 0 then (2 ^ f.ebits - 2) * 2 ^ f.mbits + (2 ^ f.mbits - 1)
  else if f.policy = 1 then 2 ^ (f.ebits + f.mbits) - 2
  else 2 ^ (f.ebits + f.mbits) - 1

/-- The code of a sign and a magnitude code. -/
def Fmt.code (f : Fmt) (neg : Bool) (mag : Nat) : Nat :=
  if f.sign && neg then 2 ^ (f.ebits + f.mbits) + mag else mag

/-- A result as it is written: its code, the flags it raises, its value as read back, whether it was rounded. -/
structure FRes where
  bits : Nat
  flags : Flags
  val : FVal
  rounded : Bool
  deriving DecidableEq, Repr

/-- A code written with flags. -/
def Fmt.res (f : Fmt) (bits : Nat) (fl : Flags) (rounded : Bool) : FRes := ⟨bits, fl, f.read bits, rounded⟩

/-- A NaN written: Table 8.2's quiet NaN, Table 8.3's code NaN; +0 with NV where the format has none. -/
def Fmt.writeNan (f : Fmt) (fl : Flags) : FRes :=
  if f.policy = 0 then
    (if f.mbits = 0 then f.res 0 (fl ||| fNV) false
     else if f.snan then f.res ((2 ^ f.ebits - 1) * 2 ^ f.mbits + 2 ^ (f.mbits - 1)) fl false
     else f.res (2 ^ (f.ebits + f.mbits) - 1) fl false)
  else if f.policy = 1 then f.res (2 ^ (f.ebits + f.mbits) - 1) fl false
  else f.res 0 (fl ||| fNV) false

/-- An infinity written: Table 8.3. A negative one into a format without sign is a negative non-zero result. -/
def Fmt.writeInf (f : Fmt) (neg : Bool) (fl : Flags) : FRes :=
  if neg && !f.sign then f.writeNan (fl ||| fNV)
  else if f.policy = 0 then f.res (f.code neg ((2 ^ f.ebits - 1) * 2 ^ f.mbits)) fl false
  else if f.policy = 1 then f.writeNan (fl ||| fNV)
  else f.res (f.code neg f.maxCode) (fl ||| fOF ||| fNX) true

/-- Whether a magnitude whose discarded part is `lost` (of `2^sh`, with `sticky` below it) rounds up: R177. -/
def roundsUp (rm : BitVec 3) (neg odd : Bool) (lost half : Nat) (inexact aboveHalf : Bool) : Bool :=
  if rm == 1#3 then false
  else if rm == 2#3 then neg && inexact
  else if rm == 3#3 then !neg && inexact
  else if rm == 4#3 then decide (half ≤ lost) && decide (0 < half)
  else (decide (half < lost) || (decide (half = lost) && decide (0 < half) && (aboveHalf || odd)))

/-- A magnitude m × 2^e (with something non-zero below 2^e when `sticky`) as a multiple of 2^q, rounded: the multiple and
whether the rounding changed the value. -/
def roundAt (rm : BitVec 3) (neg : Bool) (m : Nat) (e : Int) (sticky : Bool) (q : Int) : Nat × Bool :=
  if q ≤ e then (m <<< (e - q).toNat, sticky)
  else
    let sh := (q - e).toNat
    let n := m >>> sh
    let lost := m - n <<< sh
    let half := 1 <<< (sh - 1)
    let inexact := decide (lost ≠ 0) || sticky
    (if roundsUp rm neg (n % 2 == 1) lost half inexact sticky then n + 1 else n, inexact)

/-- An overflowed result gives infinity (true) or the largest finite value (false), as IEEE gives for the mode (R174). -/
def overflowsToInf (rm : BitVec 3) (neg : Bool) : Bool :=
  if rm == 1#3 then false else if rm == 2#3 then neg else if rm == 3#3 then !neg else true

/-- The magnitude code of n × 2^q, a multiple of the last place that fits the format. -/
def Fmt.pack (f : Fmt) (n : Nat) (q : Int) : Nat :=
  if n < 2 ^ f.mbits then n
  else if n < 2 ^ (f.mbits + 1) then ((q + f.mbits + f.bias).toNat) * 2 ^ f.mbits + (n - 2 ^ f.mbits)
  else ((q + 1 + f.mbits + f.bias).toNat) * 2 ^ f.mbits

/-- The one rounding of a finite non-zero exact result into a format: R174, R176, R177. Code 5 (`efb`) acts as RNE. -/
def Fmt.round (f : Fmt) (rm : BitVec 3) (neg : Bool) (m : Nat) (e : Int) (sticky : Bool) : FRes :=
  let er := leadExp m e
  let q := max er f.emin - f.mbits
  let (n, inexact) := roundAt rm neg m e sticky q
  let (n', _) := roundAt rm neg m e sticky (er - f.mbits)
  let tiny := decide (er < f.emin) && decide (dyCompare n' (er - f.mbits) 1 f.emin = .lt)
  let fl : Flags := (if inexact then fNX else 0) ||| (if tiny && inexact then fUF else 0)
  let big := f.read f.maxCode
  let tooBig : Bool := match big with
    | .fin _ bm be => decide (dyCompare n q bm be = .gt)
    | .nan _ => false
    | .inf _ => false
  if neg && !f.sign then (if n = 0 then f.res 0 fl inexact else f.writeNan fNV)
  else if tooBig then
    let fl := fOF ||| fNX
    if f.policy = 2 then f.res (f.code neg f.maxCode) fl true
    else if overflowsToInf rm neg then
      (if f.policy = 0 then f.res (f.code neg ((2 ^ f.ebits - 1) * 2 ^ f.mbits)) fl true
       else { f.writeNan fl with rounded := true })
    else f.res (f.code neg f.maxCode) fl true
  else f.res (f.code neg (f.pack n q)) fl inexact

/-- A zero written; -0 into a format without sign is +0 (Table 8.3). -/
def Fmt.writeZero (f : Fmt) (neg : Bool) (fl : Flags) : FRes := f.res (f.code neg 0) fl false

/-! ### Exact results -/

/-- The exact result of an operation, before its one rounding, with the flags the operation raises by itself. -/
inductive Exact where
  | nan (fl : Flags)
  | inf (neg : Bool) (fl : Flags)
  | num (neg : Bool) (m : Nat) (e : Int) (sticky : Bool) (fl : Flags)
  deriving DecidableEq, Repr

/-- An exact result rounded and written. -/
def Fmt.finish (f : Fmt) (rm : BitVec 3) : Exact → FRes
  | .nan fl => f.writeNan fl
  | .inf neg fl => f.writeInf neg fl
  | .num neg m e sticky fl =>
    let r := if m = 0 ∧ ¬ sticky then f.writeZero neg 0 else f.round rm neg m e sticky
    { r with flags := r.flags ||| fl }

/-- NV when an operand is a signalling NaN (R174). -/
def snanFlag (vs : List FVal) : Flags := if vs.any (·.isSnan) then fNV else 0

/-- A value as an exact result. -/
def Exact.ofVal : FVal → Exact
  | .nan s => .nan (if s then fNV else 0)
  | .inf n => .inf n 0
  | .fin n m e => .num n m e false 0

/-- The exact sum of two signed magnitudes; an exact zero sum of opposite signs is -0 only under `rdn` (R177). -/
def addFin (rm : BitVec 3) (n1 : Bool) (m1 : Nat) (e1 : Int) (n2 : Bool) (m2 : Nat) (e2 : Int) : Bool × Nat × Int :=
  let e := min e1 e2
  let a := m1 <<< (e1 - e).toNat
  let b := m2 <<< (e2 - e).toNat
  if n1 = n2 then (n1, a + b, e)
  else if a = b then (rm == 2#3, 0, e)
  else if b < a then (n1, a - b, e)
  else (n2, b - a, e)

/-- a + b: R174. -/
def fAdd (rm : BitVec 3) (a b : FVal) : Exact :=
  let s := snanFlag [a, b]
  match a, b with
  | .nan _, _ => .nan s
  | _, .nan _ => .nan s
  | .inf x, .inf y => if x = y then .inf x 0 else .nan fNV
  | .inf x, .fin .. => .inf x 0
  | .fin .., .inf y => .inf y 0
  | .fin n1 m1 e1, .fin n2 m2 e2 =>
    let (n, m, e) := addFin rm n1 m1 e1 n2 m2 e2
    .num n m e false 0

/-- -a, with NaNs as they are. -/
def fNegate (a : FVal) : FVal := a.withSign (!a.neg)

/-- a × b: R174. -/
def fMul (a b : FVal) : Exact :=
  let s := snanFlag [a, b]
  let neg := a.neg != b.neg
  match a, b with
  | .nan _, _ => .nan s
  | _, .nan _ => .nan s
  | .inf _, .inf _ => .inf neg 0
  | .inf _, .fin _ m _ => if m = 0 then .nan fNV else .inf neg 0
  | .fin _ m _, .inf _ => if m = 0 then .nan fNV else .inf neg 0
  | .fin _ m1 e1, .fin _ m2 e2 => .num neg (m1 * m2) (e1 + e2) false 0

/-- Bits kept beyond what any format needs when a quotient or a root is not exact. -/
def guardBits : Nat := 130

/-- m1 × 2^e1 ÷ m2 × 2^e2, to `guardBits` significant bits and a sticky bit. -/
def divFin (m1 : Nat) (e1 : Int) (m2 : Nat) (e2 : Int) : Nat × Int × Bool :=
  let k := guardBits + m2.log2
  let n := m1 <<< k
  (n / m2, e1 - e2 - k, decide (n % m2 ≠ 0))

/-- a ÷ b: R174. -/
def fDiv (a b : FVal) : Exact :=
  let s := snanFlag [a, b]
  let neg := a.neg != b.neg
  match a, b with
  | .nan _, _ => .nan s
  | _, .nan _ => .nan s
  | .inf _, .inf _ => .nan fNV
  | .inf _, .fin .. => .inf neg 0
  | .fin .., .inf _ => .num neg 0 0 false 0
  | .fin _ m1 e1, .fin _ m2 e2 =>
    if m2 = 0 then (if m1 = 0 then .nan fNV else .inf neg fFDZ)
    else if m1 = 0 then .num neg 0 0 false 0
    else
      let (m, e, st) := divFin m1 e1 m2 e2
      .num neg m e st 0

/-- The largest r with r × r ≤ n, found bit by bit below 2^k from `r`. -/
def isqrtFrom (n : Nat) : Nat → Nat → Nat
  | 0, r => r
  | k + 1, r => isqrtFrom n k (if (r + 2 ^ k) * (r + 2 ^ k) ≤ n then r + 2 ^ k else r)

/-- The integer square root. -/
def isqrt (n : Nat) : Nat := isqrtFrom n (n.log2 / 2 + 1) 0

/-- √a: R174. -/
def fSqrt (a : FVal) : Exact :=
  match a with
  | .nan s => .nan (if s then fNV else 0)
  | .inf n => if n then .nan fNV else .inf false 0
  | .fin n m e =>
    if m = 0 then .num n 0 0 false 0
    else if n then .nan fNV
    else
      let k := 2 * guardBits + (if (e - 2 * guardBits) % 2 = 0 then 0 else 1)
      let x := m <<< k
      let r := isqrt x
      .num false r ((e - k) / 2) (decide (r * r ≠ x)) 0

/-- a × b + c with the product exact and one rounding; 0 × ∞ is NaN with NV whatever c is (R174, R223). -/
def fFma (rm : BitVec 3) (a b c : FVal) : Exact :=
  match fMul a b with
  | .nan fl => .nan (fl ||| snanFlag [c])
  | .inf n _ =>
    (match c with
     | .nan s => .nan (if s then fNV else 0)
     | .inf n' => if n = n' then .inf n 0 else .nan fNV
     | .fin .. => .inf n 0)
  | .num n m e _ _ => fAdd rm (.fin n m e) c

/-! ### Order -/

/-- A finite or infinite value against another: R174; zeros compare equal. NaNs are not given. -/
def fCompare (a b : FVal) : Ordering :=
  match a, b with
  | .inf x, .inf y => if x = y then .eq else if x then .lt else .gt
  | .inf x, _ => if x then .lt else .gt
  | _, .inf y => if y then .gt else .lt
  | .fin n1 m1 e1, .fin n2 m2 e2 =>
    if m1 = 0 ∧ m2 = 0 then .eq
    else if m1 = 0 then (if n2 then .gt else .lt)
    else if m2 = 0 then (if n1 then .lt else .gt)
    else if n1 ∧ ¬ n2 then .lt
    else if ¬ n1 ∧ n2 then .gt
    else if n1 then dyCompare m2 e2 m1 e1
    else dyCompare m1 e1 m2 e2
  | .nan _, _ => .eq
  | _, .nan _ => .eq

/-- The total order of R258: as `fCompare`, with -0 below +0. -/
def fTotal (a b : FVal) : Ordering :=
  match fCompare a b with
  | .eq => if a.isZero ∧ b.isZero then (if a.neg = b.neg then .eq else if a.neg then .lt else .gt) else .eq
  | .lt => .lt
  | .gt => .gt

/-! ### 2^a, log2 a, 1/√a: correctly rounded (R247) -/

/-- Working precision of the first attempt; each further attempt doubles it. -/
def tryBits : Nat := 320

/-- The interval of 2^f for f = F / 2^w, 0 ≤ F < 2^w, as multiples of 2^-p: the roots 2^(1/2), 2^(1/4), … of the bits of F
are multiplied, downwards and upwards. `rl`, `ru` bound the present root. -/
def exp2Bits (p : Nat) : Nat → Nat → Nat → Nat → Nat → Nat → Nat × Nat
  | 0, _, _, _, lo, hi => (lo, hi)
  | w + 1, F, rl, ru, lo, hi =>
    let rl' := isqrt (rl <<< p)
    let ru' := isqrt (ru <<< p) + 1
    if F.testBit w then exp2Bits p w F rl' ru' ((lo * rl') >>> p) (((hi * ru') >>> p) + 1)
    else exp2Bits p w F rl' ru' lo hi

/-- The first k bits of 2^(F / 2^w), which is irrational or 1, with more attempts while the interval does not settle
them. -/
def exp2Mant (k w F : Nat) : Nat → Nat → Nat
  | 0, p => (exp2Bits p w F (2 <<< p) (2 <<< p) (1 <<< p) (1 <<< p)).1 >>> (p - k)
  | fuel + 1, p =>
    let (lo, hi) := exp2Bits p w F (2 <<< p) (2 <<< p) (1 <<< p) (1 <<< p)
    if lo >>> (p - k) = hi >>> (p - k) then lo >>> (p - k) else exp2Mant k w F fuel (2 * p)

/-- 2^a. Beyond ±2^20 the exact value lies outside every format; below 2^-100 it lies within 2^-100 of 1. -/
def fExp2 (a : FVal) : Exact :=
  match a with
  | .nan s => .nan (if s then fNV else 0)
  | .inf n => if n then .num false 0 0 false 0 else .inf false 0
  | .fin n m e =>
    if m = 0 then .num false 1 0 false 0
    else if 20 < leadExp m e then (if n then .num false 1 (-2000000) true 0 else .num false 1 2000000 true 0)
    else if leadExp m e < -100 then
      (if n then .num false (2 ^ guardBits - 1) (-guardBits) true 0 else .num false (2 ^ guardBits) (-guardBits) true 0)
    else
      let w := (-e).toNat
      let x : Int := (if n then -1 else 1) * ((m <<< e.toNat : Nat) : Int)
      let i := x / (2 ^ w : Nat)
      let F := (x % (2 ^ w : Nat)).toNat
      if F = 0 then .num false 1 i false 0
      else .num false (exp2Mant guardBits w F 6 tryBits) (i - guardBits) true 0

/-- The bits of log2 y for 1 < y < 2, y between `lo` and `hi` (multiples of 2^-p), most significant first: the square of y
passes 2 exactly where a bit is 1. `none` when the interval no longer tells. -/
def log2Bits (p : Nat) : Nat → Nat → Nat → Nat → Option Nat
  | 0, _, _, acc => some acc
  | k + 1, lo, hi, acc =>
    let l := (lo * lo) >>> p
    let h := ((hi * hi) >>> p) + 1
    if 2 <<< p ≤ l then log2Bits p k (l >>> 1) ((h + 1) >>> 1) (2 * acc + 1)
    else if h < 2 <<< p then log2Bits p k l h (2 * acc)
    else none

/-- The first k bits of log2 of m / 2^m.log2, with more attempts while the interval does not settle them. -/
def log2Mant (k m : Nat) : Nat → Nat → Nat
  | 0, _ => 0
  | fuel + 1, p =>
    let y := (m <<< p) >>> m.log2
    match log2Bits p k y (if y <<< m.log2 = m <<< p then y else y + 1) 0 with
    | some r => r
    | none => log2Mant k m fuel (2 * p)

/-- log2 a. A power of two gives its exponent exactly; every other logarithm is irrational. -/
def fLog2 (a : FVal) : Exact :=
  match a with
  | .nan s => .nan (if s then fNV else 0)
  | .inf n => if n then .nan fNV else .inf false 0
  | .fin n m e =>
    if m = 0 then .inf true fFDZ
    else if n then .nan fNV
    else
      let i := leadExp m e
      if m = 2 ^ m.log2 then .num (decide (i < 0)) i.natAbs 0 false 0
      else
        let r := log2Mant guardBits m 6 (2 * tryBits)
        if 0 ≤ i then .num false (i.toNat <<< guardBits + r) (-guardBits) true 0
        else .num true (i.natAbs <<< guardBits - r - 1) (-guardBits) true 0

/-- 1 ÷ a. -/
def fRcp (a : FVal) : Exact := fDiv (.fin false 1 0) a

/-- 1 ÷ √a: R247. -/
def fRsq (a : FVal) : Exact :=
  match a with
  | .nan s => .nan (if s then fNV else 0)
  | .inf n => if n then .nan fNV else .num false 0 0 false 0
  | .fin n m e =>
    if m = 0 then .inf n fFDZ
    else if n then .nan fNV
    else
      let k := 2 * guardBits + 2 * m.log2 + (if e % 2 = 0 then 0 else 1)
      let t := 1 <<< k
      let r := isqrt (t / m)
      .num false r ((-e - k) / 2) (decide (r * r * m ≠ t)) 0

/-! ### Trust: R183 to R185 -/

/-- The error exponent E of a value with its count; `none` is -∞ (R183). -/
def errExp (v : FVal) (t : Nat) : Option Int :=
  match v with
  | .fin _ m e => if m = 0 then none else some (leadExp m e - t + 1)
  | .nan _ => none
  | .inf _ => none

/-- The greater of two error exponents. -/
def maxExp : Option Int → Option Int → Option Int
  | none, y => y
  | x, none => x
  | some x, some y => some (max x y)

/-- u(r): the place of the last bit of a result in the format (R183). -/
def lastPlace (f : Fmt) (m : Nat) (e : Int) : Int := max (leadExp m e) f.emin - f.mbits

/-- Rules 1, 2 and 4 of R185 and the final clamp around an operation's own rule `t`. `full` says that every operand had T
equal to its own format's P. The +0 that stands for a NaN or a negative value in a format that holds none (R178) is counted as an exact
zero here: P under `full`, else 0 (log 51). -/
def trustOf (f : Fmt) (r : FRes) (full : Bool) (t : Int) : Nat :=
  match r.val with
  | .nan _ => 0
  | .inf _ => 0
  | .fin _ m e =>
    if m = 0 then (if full && !r.rounded then f.prec else 0)
    else
      let t := if r.rounded then min t (leadExp m e - lastPlace f m e + 1) else t
      (max 0 (min t (f.prec : Int))).toNat

/-- The add row of Table 8.7 from the error exponent of the operands. -/
def addTrust (f : Fmt) (r : FRes) (ex : Option Int) : Int :=
  match r.val, ex with
  | .fin _ m e, some x => leadExp m e - (if r.rounded then max x (lastPlace f m e) else x) + 1
  | _, _ => f.prec

/-- The multiply row of Table 8.7: counts with the precisions of their own formats. -/
def mulTrust (ta pa tb pb : Nat) : Int :=
  (min ta tb : Nat) - (if ta = tb ∧ ta < pa ∧ tb < pb then 1 else 0)

/-- The product's error exponent in a fused multiply-add: Table 8.7. -/
def prodExp (a b : FVal) (ta pa tb pb : Nat) : Option Int :=
  match fMul a b with
  | .num _ m e _ _ => if m = 0 then none else some (leadExp m e - mulTrust ta pa tb pb + 1)
  | .nan _ => none
  | .inf _ _ => none

end Sys2Proof.Machine
end

