-- ==== Sys2Proof/Config.lean ====
section
/-! DEFINITION. The values the specification leaves open. Every one is an opaque constant without a body: nothing in
Lean can compute it or prove a value of it, so a statement that holds, holds for every choice. -/
namespace Sys2Proof.Config

/-- Which of the agents that can move at a step moves: applied to `State.tick` (log 2). -/
opaque pick : Nat → Nat
/-- Which of several that are equally placed is taken: applied to `State.tick` and to an index within the step (log 72). -/
opaque choose : Nat → Nat → Nat
/-- How many 700 MHz reference periods a step takes: applied to `State.tick` (log 4). -/
opaque elapsed : Nat → Nat
/-- Bits that the manual says may hold any value (the work field of R237, check columns of R33, memory after power-off):
applied to `State.tick` and to an index within the instruction (log 6). -/
opaque freeBits : Nat → Nat → BitVec 1024
/-- The outcome of a case the manual settles by one of two named values (R39, R47, R305): applied to `State.tick` and
to an index within the instruction (log 7). -/
opaque coin : Nat → Nat → Bool
/-- The set of its home slice that a line belongs to (R62, log 73). -/
opaque sliceSet : Nat → Nat
/-- The microseconds the postmaster grants a BOOST within the limits of R215 and R365, applied to `State.tick` (log 8). -/
opaque boostGrant : Nat → Nat
/-- The identity key's P-384 signature over a message (R375): 96 bytes (log 9). -/
opaque signature : List (BitVec 8) → List (BitVec 8)
/-- The SHA-384 digest of a message (R373, R375): 48 bytes (log 9). -/
opaque sha384 : List (BitVec 8) → List (BitVec 8)
/-- The certificate chain from the identity key to Theby's root (R375; log 9). -/
opaque certificateChain : List (BitVec 8)
/-- The boot ROM's bytes, as measured (R375; log 9). -/
opaque romBytes : List (BitVec 8)
/-- The SHA-384 digests of the four signing keys fused in the package (R373; log 9). -/
opaque fusedKey : Nat → List (BitVec 8)
/-- Whether one of the four fused key hashes is revoked (R373; log 9). -/
opaque keyRevoked : Nat → Bool
/-- Whether an ECDSA P-384 signature over a digest verifies under a key (R373; log 9). -/
opaque ecdsaVerifies : List (BitVec 8) → List (BitVec 8) → List (BitVec 8) → Bool
end Sys2Proof.Config
end

