-- ==== Sys2Proof/WellFormed.lean ====
section
/-! DEFINITION. Which instructions of `Instr` are instructions of the A77: the checks of R191, R192, R196, R197 that
stand beyond the widths of the fields. -/
namespace Sys2Proof

/-- The type of a type code: Table 8.1; class 5 and unlisted subclasses are reserved (R168). -/
def EType.ofCode (c : BitVec 6) : Option EType :=
  let cl := c.extractLsb' 3 3
  let sub := c.extractLsb' 0 3
  if cl == 0#3 then (if sub == 0#3 then some .sint else none)
  else if cl == 1#3 then (if sub == 0#3 then some .uint else none)
  else if cl == 2#3 then
    (if sub == 0#3 then some .f16 else if sub == 1#3 then some .f32 else if sub == 2#3 then some .f64 else none)
  else if cl == 3#3 then (if sub == 0#3 then some .bf16 else none)
  else if cl == 4#3 then some (.narrow sub)
  else if cl == 6#3 then (if sub.extractLsb' 2 1 == 0#1 then some (.pair (sub.extractLsb' 0 2)) else none)
  else if cl == 7#3 then (if sub == 0#3 then some .raw else none)
  else none

/-- The type code of a type: Table 8.1. -/
def EType.code : EType → BitVec 6
  | .sint => 0#6
  | .uint => 0x08#6
  | .f16 => 0x10#6
  | .f32 => 0x11#6
  | .f64 => 0x12#6
  | .bf16 => 0x18#6
  | .narrow i => 4#3 ++ i
  | .pair i => 6#3 ++ (0#1 ++ i)
  | .raw => 0x38#6

/-- The image checks of R196 on bits [21:0]: a legal type code, a rounding code below 6, and no GUARD 0 with SENSE 1. -/
def modeImageOk (m : BitVec 22) : Bool :=
  (EType.ofCode (m.extractLsb' 5 6)).isSome && decide ((m.extractLsb' 11 3).toNat < 6)
    && !(m.extractLsb' 0 4 == 0#4 && m.extractLsb' 4 1 == 1#1)

/-- The checks that FMAP makes at decode: R28. -/
def fmapOk (base : BitVec 10) (width : BitVec 7) (trust : Bool) : Bool :=
  if width == 0#7 then base == 0#10 && !trust
  else decide (width.toNat ≤ 64) && decide (base.toNat + width.toNat + (if trust then 6 else 0) ≤ 1024)

/-- The indices of Table 7.5, of Table 16.2 and of R355; every other index is reserved (R163, R334). -/
def sysIndexOk (x : BitVec 12) : Bool :=
  let n := x.toNat
  decide (n ≤ 0x0D) || (decide (0x10 ≤ n) && decide (n ≤ 0x17)) || (decide (0x20 ≤ n) && decide (n ≤ 0xBF))
    || (decide (0x100 ≤ n) && decide (n ≤ 0x10A)) || (decide (0x200 ≤ n) && decide (n ≤ 0x20B))
    || (decide (0x210 ≤ n) && decide (n ≤ 0x217)) || (decide (0x220 ≤ n) && decide (n ≤ 0x24F))
    || (decide (0x280 ≤ n) && decide (n ≤ 0x284))

/-- A b operand that is a field, an s-register or a segment: the integer forms (R241, R274). -/
def BOp.noFreg : BOp → Bool
  | .freg _ => false
  | .field _ => true
  | .sreg _ => true
  | .rep _ _ => true

/-- A b operand that is a field or a segment: index fields (Tables 12.2, 12.4). -/
def BOp.isField : BOp → Bool
  | .field _ => true
  | .rep _ _ => true
  | .sreg _ => false
  | .freg _ => false

/-- The checks at decode beyond the fields' widths and classes. VTRSET takes no f-register: R248 lists its b operands without one, and
is taken over R245's list for all binary VFLT forms (log 81). -/
def Instr.wellFormed : Instr → Bool
  | .trap _ => true
  | .boost _ _ _ => true
  | .tlbinv _ _ => true
  | .mode m => modeImageOk m
  | .setvlImm _ _ => true
  | .setvlReg _ a => a != 0#6
  | .add _ _ _ => true
  | .sub _ _ _ => true
  | .and _ _ _ => true
  | .or _ _ _ => true
  | .xor _ _ _ => true
  | .andn _ _ _ => true
  | .sll _ _ _ => true
  | .srl _ _ _ => true
  | .sra _ _ _ => true
  | .ror _ _ _ => true
  | .mul _ _ _ => true
  | .mulh _ _ _ => true
  | .mulhn _ _ _ => true
  | .div _ _ _ => true
  | .divn _ _ _ => true
  | .rem _ _ _ => true
  | .remn _ _ _ => true
  | .min _ _ _ => true
  | .max _ _ _ => true
  | .minn _ _ _ => true
  | .maxn _ _ _ => true
  | .slt _ _ _ => true
  | .sltn _ _ _ => true
  | .seq _ _ _ => true
  | .clz _ _ => true
  | .ctz _ _ => true
  | .popc _ _ => true
  | .sext _ _ _ => true
  | .zext _ _ _ => true
  | .addi _ _ _ => true
  | .andi _ _ _ => true
  | .ori _ _ _ => true
  | .xori _ _ _ => true
  | .slli _ _ _ => true
  | .srli _ _ _ => true
  | .srai _ _ _ => true
  | .rori _ _ _ => true
  | .slti _ _ _ => true
  | .li _ _ => true
  | .lim _ _ => true
  | .ldb _ _ _ => true
  | .ldh _ _ _ => true
  | .ldw _ _ _ => true
  | .ldd _ _ _ => true
  | .ldbn _ _ _ => true
  | .ldhn _ _ _ => true
  | .ldwn _ _ _ => true
  | .stb _ _ _ => true
  | .sth _ _ _ => true
  | .stw _ _ _ => true
  | .std _ _ _ => true
  | .ldacq _ _ => true
  | .strel _ _ => true
  | .amoadd _ _ _ _ => true
  | .amoswap _ _ _ _ => true
  | .amocas _ _ _ _ => true
  | .amomin _ _ _ _ => true
  | .amomax _ _ _ _ => true
  | .amominn _ _ _ _ => true
  | .amomaxn _ _ _ _ => true
  | .amoand _ _ _ _ => true
  | .amoor _ _ _ _ => true
  | .amoxor _ _ _ _ => true
  | .tclr _ => true
  | .tdep _ _ => true
  | .bind _ _ _ => true
  | .unbind _ => true
  | .pgshare _ _ _ => true
  | .pgdrop _ _ => true
  | .splook _ _ => true
  | .spset _ _ _ => true
  | .prefetch _ => true
  | .beq _ _ _ => true
  | .bne _ _ _ => true
  | .blt _ _ _ => true
  | .bge _ _ _ => true
  | .bltn _ _ _ => true
  | .bgen _ _ _ => true
  | .jal _ _ => true
  | .jalr _ _ _ => true
  | .fadd _ _ _ _ => true
  | .fsub _ _ _ _ => true
  | .fmul _ _ _ _ => true
  | .fdiv _ _ _ _ => true
  | .fsqrt _ _ _ => true
  | .fmin _ _ _ _ => true
  | .fmax _ _ _ _ => true
  | .fabs _ _ _ => true
  | .fneg _ _ _ => true
  | .fsignof _ _ _ _ => true
  | .feq _ _ _ _ => true
  | .flt _ _ _ _ => true
  | .fle _ _ _ _ => true
  | .fcvti _ _ _ => true
  | .fcvtf _ _ _ => true
  | .fmvsf _ _ _ => true
  | .fmvfs _ _ _ => true
  | .ftrust _ _ _ => true
  | .ftrset _ _ _ _ => true
  | .fwiden _ _ => true
  | .fnarrow _ _ => true
  | .fma _ _ _ _ _ => true
  | .fms _ _ _ _ _ => true
  | .fnma _ _ _ _ _ => true
  | .fnms _ _ _ _ _ => true
  | .fldd _ _ _ => true
  | .fldw _ _ _ => true
  | .fstd _ _ _ => true
  | .fstw _ _ _ => true
  | .vfetch _ _ => true
  | .pbr k c _ => c != 0#2 || k == 0#4
  | .pfetch _ => true
  | .vadd _ _ b => b.noFreg
  | .vsub _ _ b => b.noFreg
  | .vrsub _ _ b => b.noFreg
  | .vneg _ _ => true
  | .vabs _ _ => true
  | .vmul _ _ b => b.noFreg
  | .vmulh _ _ b => b.noFreg
  | .vmac _ _ b => b.noFreg
  | .vmacp _ _ b => b.noFreg
  | .vdiv _ _ b => b.noFreg
  | .vrem _ _ b => b.noFreg
  | .vmin _ _ b => b.noFreg
  | .vmax _ _ b => b.noFreg
  | .vshl _ _ b => b.noFreg
  | .vshr _ _ b => b.noFreg
  | .vrshr _ _ b => b.noFreg
  | .vsat _ _ => true
  | .vmov _ _ => true
  | .vcvt _ _ => true
  | .vclz _ _ => true
  | .vpopc _ _ => true
  | .vfadd _ _ _ => true
  | .vfsub _ _ _ => true
  | .vfmul _ _ _ => true
  | .vfdiv _ _ _ => true
  | .vfsqrt _ _ => true
  | .vfmin _ _ _ => true
  | .vfmax _ _ _ => true
  | .vfabs _ _ => true
  | .vfneg _ _ => true
  | .vfcvt _ _ _ => true
  | .vtrust _ _ => true
  | .vtrset _ _ b => b.noFreg
  | .vfexp2 _ _ => true
  | .vflog2 _ _ => true
  | .vfrcp _ _ => true
  | .vfrsq _ _ => true
  | .vfma _ _ _ _ => true
  | .vfms _ _ _ _ => true
  | .vfnma _ _ _ _ => true
  | .vfnms _ _ _ _ => true
  | .vand _ _ _ => true
  | .vor _ _ _ => true
  | .vxor _ _ _ => true
  | .vandn _ _ _ => true
  | .vnot _ _ => true
  | .vsel _ _ _ => true
  | .vcmpEq _ _ _ _ => true
  | .vcmpNe _ _ _ _ => true
  | .vcmpLt _ _ _ _ => true
  | .vcmpLe _ _ _ _ => true
  | .vcmpGt _ _ _ _ => true
  | .vcmpGe _ _ _ _ => true
  | .vcmpTrlt _ _ _ => true
  | .vcmpNan _ _ _ => true
  | .vcmpInf _ _ _ => true
  | .vsrch _ _ _ _ _ => true
  | .vwrt _ _ _ _ => true
  | .kand _ _ _ => true
  | .kor _ _ _ => true
  | .kxor _ _ _ => true
  | .kandn _ _ _ => true
  | .knot _ _ => true
  | .kmov _ _ => true
  | .kset _ => true
  | .kclr _ => true
  | .kpop _ _ => true
  | .kfirst _ _ _ => true
  | .kone _ _ => true
  | .kshift _ _ _ => true
  | .kfrom _ _ => true
  | .kto _ _ => true
  | .vrsum _ _ => true
  | .vrmin _ _ => true
  | .vrmax _ _ => true
  | .vrand _ _ => true
  | .vror _ _ => true
  | .vrxor _ _ => true
  | .vrfsum _ _ => true
  | .vrfmax _ _ => true
  | .vrfmin _ _ => true
  | .vrargmax _ _ => true
  | .vrargmin _ _ => true
  | .vextr _ _ _ => true
  | .vtopk _ _ _ => true
  | .vbotk _ _ _ => true
  | .vmaxt _ _ => true
  | .vmint _ _ => true
  | .vconf _ _ => true
  | .vneark _ _ b => b != 63#6
  | .vslideup _ _ _ => true
  | .vslidedn _ _ _ => true
  | .vslidein _ _ b => b != 63#6
  | .vperm _ _ b => b.isField
  | .vcompact _ => true
  | .vscan _ _ => true
  | .viota _ => true
  | .vbcast _ _ _ => true
  | .vldu _ _ => true
  | .vlds _ _ _ => true
  | .vldx _ _ b => b.isField
  | .vldl _ _ b => b.noFreg
  | .vstu _ _ => true
  | .vsts _ _ _ => true
  | .vstx _ _ b => b.isField
  | .vstadd _ _ b => b.isField
  | .vstef _ _ _ => true
  | .vstl _ _ b => b.noFreg
  | .vsoft _ _ b => decide (b.toNat ≤ 29)
  | .vcollapse _ _ _ => true
  | .fmap _ b w t => fmapOk b w t
  | .mcfg _ _ => true
  | .mwld _ _ _ => true
  | .mwlds _ _ _ _ => true
  | .mstr _ _ _ => true
  | .mdrn _ _ _ => true
  | .mdrnv _ _ _ => true
  | .mzero _ => true
  | .mchk _ _ => true
  | .spcomp _ _ _ => true
  | .arrinit _ _ _ => true
  | .arradd _ _ _ => true
  | .arrwait _ _ _ => true
  | .srr _ i => sysIndexOk i
  | .srw _ i => sysIndexOk i
  | .nop => true
  | .eret => true
  | .wfe => true
  | .yield => true
  | .halt => true
  | .bkpt => true
  | .synci => true
  | .vjoin => true
  | .unboost => true
  | .fenceSv => true
  | .fenceVs => true
  | .twait => true
  | .pend => true
  | .pwait => true
  | .cpyg2l _ _ _ => true
  | .cpyl2g _ _ _ => true
  | .cpyl2l _ _ _ => true
  | .cpyg2g _ _ _ => true
  | .cpywait _ => true
  | .colrs _ _ _ => true
  | .colag _ _ _ => true
  | .colar _ _ _ => true
  | .colrot _ _ _ => true
  | .colwait _ _ => true
  | .colstat _ _ => true
  | .ctxctlMakeValid => true
  | .ctxctlClearValid => true
  | .ctxctlKill => true
  | .coolDown => true
  | .go => true
  | .warmUp => true
  | .attest => true
  | .activateStagedImage => true
  | .powerOn => true
  | .bootSlotTimeout => true
  | .imageStartTimeout => true
  | .packageReset => true
  | .functionLevelReset => true
  | .microcodeLoadTimeLimit => true
  | .purgeComplete => true
  | .soakComplete => true
  | .criticalSaveDeadline => true
  | .criticalRailsOff => true
  | .refreshOff => true
  | .powerStepUndo => true
  | .mailboxCommandDone => true
  | .registerWrite _ _ _ => true
  | .flagsWrite _ => true
  | .fpheadWrite _ => true
  | .checkedModeSet _ => true
  | .dbgselWrite _ => true
  | .rowselWrite _ _ => true
  | .qtailDoorbell _ _ => true
  | .qstatHaltedClear _ => true
  | .queueDisable _ => true
  | .preemptRequest _ => true
  | .restoreRequest _ => true
  | .migrationRequest _ _ => true
  | .groupEnable _ _ => true
  | .groupWithdraw _ _ => true
  | .readCertificateChain _ => true
  | .stageImagePart _ => true
  | .loadMicrocodeTable _ => true
  | .retrainPeerPort _ => true
  | .recalibrateHbmChannel _ => true
  | .substituteSpareCore _ => true
  | .mailboxUnknownOp _ => true
  | .msirqWrite _ => true
  | .msixUnmask _ => true
  | .hostBar2Write _ _ => true
  | .hostBar2Read _ _ => true
  | .hostCompletion _ _ _ => true
  | .launchHeadService _ => true
  | .launchRetry _ => true
  | .heldStart _ => true
  | .threadStart _ => true
  | .resumeListRestore _ => true
  | .threadAged _ => true
  | .yieldExpiry _ => true
  | .wfeWake _ => true
  | .wfeTimeout _ => true
  | .plyBlockStart _ _ => true
  | .matrixOperationStart _ => true
  | .matrixCheckResult _ _ => true
  | .checkedModeCheckResult _ _ => true
  | .committedStorePerform _ => true
  | .stripErrorDetected _ _ _ => true
  | .stripSettle _ => true
  | .trapDelivery _ => true
  | .contextSave _ => true
  | .contextRestore _ _ => true
  | .streamComplete _ => true
  | .forwardingEntryExpiry _ => true
  | .loadDataArrival _ _ => true
  | .acquireRetire _ _ => true
  | .sliceOperation _ => true
  | .casTurnExpiry _ => true
  | .hbmFill _ => true
  | .replicaLock _ => true
  | .replicaUpdate _ => true
  | .pageWalk _ _ => true
  | .invalidationComplete _ => true
  | .arrwaitWake _ => true
  | .arrwaitReread _ => true
  | .copyChunk _ => true
  | .copyChunkFail _ _ => true
  | .copyDataFrameRx _ _ => true
  | .remoteReadRequestRx _ _ => true
  | .remoteReadDataRx _ _ => true
  | .collectiveDataFrameRx _ _ => true
  | .hopReceiptRx _ => true
  | .deliveryReceiptRx _ _ => true
  | .slotReceiptRx _ _ => true
  | .refusalRx _ _ _ => true
  | .linkTimeout _ => true
  | .linkDown _ => true
  | .linkTrained _ => true
  | .pathTimeout _ => true
  | .groupTimeout _ => true
  | .sensorSample _ _ _ _ _ _ => true
  | .criticalMark _ => true
  | .refreshBurstComplete _ => true
  | .powerMeasurement _ => true
  | .leaseExpiry _ => true
  | .bandReady _ _ => true
  | .regulatorHeadroomLow _ => true
  | .chainpRestore _ => true
  | .frequencyTransitionSettle _ => true
  | .plyDrowsy _ _ => true
  | .plyWake _ _ => true
  | .backgroundScrub _ _ => true
  | .wordNotAnInstruction _ => true
  | .instructionFetchFault _ => true
  | .microcodePlyLoaded _ _ => true
  | .boostAnswer _ _ => true
  | .resizableBarWrite _ => true

end Sys2Proof
end

