-- ==== Sys2Proof/Decode.lean ====
section
/-! DEFINITION. From instruction words to instructions and back: R188 to R197. A word the tables do not make an
instruction is `none`; what becomes of it is said where it is met (`WORD_NOT_AN_INSTRUCTION`, R197, and R133). -/
namespace Sys2Proof

/-- A word cut at the bits where the fields of Table 9.1 begin: major [31:26], [25:20], [19:14], [13:8], [7:0]. -/
structure Fields where
  maj : BitVec 6
  d : BitVec 6
  a : BitVec 6
  b : BitVec 6
  f : BitVec 8
  deriving DecidableEq, Repr

/-- The fields of a word (R188, R189). -/
def Fields.ofWord (w : IWord) : Fields :=
  ⟨w.extractLsb' 26 6, w.extractLsb' 20 6, w.extractLsb' 14 6, w.extractLsb' 8 6, w.extractLsb' 0 8⟩

/-- The word of the fields (R189). -/
def Fields.toWord (x : Fields) : IWord := x.maj ++ x.d ++ x.a ++ x.b ++ x.f

/-- The b operand that rep3 and the b field name: Table 9.4. -/
def bop (r : BitVec 3) (b : BitVec 6) : Option BOp :=
  if r == 0#3 then some (.field b)
  else if r == 1#3 then some (.sreg b)
  else if r == 2#3 then (if b.extractLsb' 5 1 == 0#1 then some (.freg (b.extractLsb' 0 5)) else none)
  else if r == 3#3 then none
  else some (.rep b (r.extractLsb' 0 2))

/-- The operand that a class code and a number name: Table 4.5. -/
def taintName (c : BitVec 3) (x : BitVec 6) : Option TaintName :=
  if c == 0#3 then some (.s x)
  else if c == 1#3 then (if x.extractLsb' 5 1 == 0#1 then some (.f (x.extractLsb' 0 5)) else none)
  else if c == 2#3 then some (.v x)
  else if c == 3#3 then (if x.extractLsb' 4 2 == 0#2 then some (.k (x.extractLsb' 0 4)) else none)
  else if c == 4#3 then (if x.extractLsb' 2 4 == 0#4 then some (.acc (x.extractLsb' 0 2)) else none)
  else if c == 5#3 then (if x == 0#6 then some .ctl else none)
  else none

/-- Major 0x01: the function codes of Table 9.6. -/
def decodeSys (d a b : BitVec 6) (f : BitVec 8) : Option Instr :=
  if d == 0x0#6 && b == 0x0#6 && f == 0x1#8 then some (.trap a)
  else if f == 0x9#8 then some (.boost d a b)
  else if d == 0x0#6 && f == 0xb#8 then some (.tlbinv a b)
  else if d == 0x0#6 && a == 0x0#6 && b == 0x0#6 && f == 0x0#8 then some .nop
  else if d == 0x0#6 && a == 0x0#6 && b == 0x0#6 && f == 0x2#8 then some .eret
  else if d == 0x0#6 && a == 0x0#6 && b == 0x0#6 && f == 0x3#8 then some .wfe
  else if d == 0x0#6 && a == 0x0#6 && b == 0x0#6 && f == 0x4#8 then some .yield
  else if d == 0x0#6 && a == 0x0#6 && b == 0x0#6 && f == 0x5#8 then some .halt
  else if d == 0x0#6 && a == 0x0#6 && b == 0x0#6 && f == 0x6#8 then some .bkpt
  else if d == 0x0#6 && a == 0x0#6 && b == 0x0#6 && f == 0x7#8 then some .synci
  else if d == 0x0#6 && a == 0x0#6 && b == 0x0#6 && f == 0x8#8 then some .vjoin
  else if d == 0x0#6 && a == 0x0#6 && b == 0x0#6 && f == 0xa#8 then some .unboost
  else none

/-- Major 0x03: the function codes of Table 9.6. -/
def decodeSetvl (d a b : BitVec 6) (f : BitVec 8) : Option Instr :=
  if a == 0x0#6 && b.extractLsb' 5 1 == 0x0#1 then some (.setvlImm d (b.extractLsb' 0 5 ++ f))
  else if b == 0x0#6 && f == 0x0#8 then some (.setvlReg d a)
  else none

/-- Major 0x04: the function codes of Table 9.6. -/
def decodeAlu (d a b : BitVec 6) (f : BitVec 8) : Option Instr :=
  if f == 0x0#8 then some (.add d a b)
  else if f == 0x1#8 then some (.sub d a b)
  else if f == 0x2#8 then some (.and d a b)
  else if f == 0x3#8 then some (.or d a b)
  else if f == 0x4#8 then some (.xor d a b)
  else if f == 0x5#8 then some (.andn d a b)
  else if f == 0x6#8 then some (.sll d a b)
  else if f == 0x7#8 then some (.srl d a b)
  else if f == 0x8#8 then some (.sra d a b)
  else if f == 0x9#8 then some (.ror d a b)
  else if f == 0xa#8 then some (.mul d a b)
  else if f == 0xb#8 then some (.mulh d a b)
  else if f == 0xc#8 then some (.mulhn d a b)
  else if f == 0xd#8 then some (.div d a b)
  else if f == 0xe#8 then some (.divn d a b)
  else if f == 0xf#8 then some (.rem d a b)
  else if f == 0x10#8 then some (.remn d a b)
  else if f == 0x11#8 then some (.min d a b)
  else if f == 0x12#8 then some (.max d a b)
  else if f == 0x13#8 then some (.minn d a b)
  else if f == 0x14#8 then some (.maxn d a b)
  else if f == 0x15#8 then some (.slt d a b)
  else if f == 0x16#8 then some (.sltn d a b)
  else if f == 0x17#8 then some (.seq d a b)
  else if b == 0x0#6 && f == 0x18#8 then some (.clz d a)
  else if b == 0x0#6 && f == 0x19#8 then some (.ctz d a)
  else if b == 0x0#6 && f == 0x1a#8 then some (.popc d a)
  else if f == 0x1b#8 then some (.sext d a b)
  else if f == 0x1c#8 then some (.zext d a b)
  else none

/-- Major 0x09: the function codes of Table 9.6. -/
def decodeShi (d a b : BitVec 6) (f : BitVec 8) : Option Instr :=
  if b == 0x0#6 && f.extractLsb' 6 2 == 0x0#2 then some (.slli d a (f.extractLsb' 0 6))
  else if b == 0x10#6 && f.extractLsb' 6 2 == 0x0#2 then some (.srli d a (f.extractLsb' 0 6))
  else if b == 0x20#6 && f.extractLsb' 6 2 == 0x0#2 then some (.srai d a (f.extractLsb' 0 6))
  else if b == 0x30#6 && f.extractLsb' 6 2 == 0x0#2 then some (.rori d a (f.extractLsb' 0 6))
  else none

/-- Major 0x18: the function codes of Table 9.6. -/
def decodeMemx (d a b : BitVec 6) (f : BitVec 8) : Option Instr :=
  if b == 0x0#6 && f == 0x0#8 then some (.ldacq d a)
  else if d == 0x0#6 && f == 0x1#8 then some (.strel a b)
  else if f.extractLsb' 0 7 == 0x2#7 then some (.amoadd d a b (f.extractLsb' 7 1 == 1#1))
  else if f.extractLsb' 0 7 == 0x3#7 then some (.amoswap d a b (f.extractLsb' 7 1 == 1#1))
  else if f.extractLsb' 0 7 == 0x4#7 then some (.amocas d a b (f.extractLsb' 7 1 == 1#1))
  else if f.extractLsb' 0 7 == 0x5#7 then some (.amomin d a b (f.extractLsb' 7 1 == 1#1))
  else if f.extractLsb' 0 7 == 0x6#7 then some (.amomax d a b (f.extractLsb' 7 1 == 1#1))
  else if f.extractLsb' 0 7 == 0x7#7 then some (.amominn d a b (f.extractLsb' 7 1 == 1#1))
  else if f.extractLsb' 0 7 == 0x8#7 then some (.amomaxn d a b (f.extractLsb' 7 1 == 1#1))
  else if f.extractLsb' 0 7 == 0x9#7 then some (.amoand d a b (f.extractLsb' 7 1 == 1#1))
  else if f.extractLsb' 0 7 == 0xa#7 then some (.amoor d a b (f.extractLsb' 7 1 == 1#1))
  else if f.extractLsb' 0 7 == 0xb#7 then some (.amoxor d a b (f.extractLsb' 7 1 == 1#1))
  else if a == 0x0#6 && b.extractLsb' 0 3 == 0x0#3 && f == 0xe#8 then (taintName (b.extractLsb' 3 3) d).map fun x => .tclr x
  else if f == 0xf#8 then (match taintName (b.extractLsb' 3 3) d, taintName (b.extractLsb' 0 3) a with | some x, some y => some (.tdep x y) | _, _ => none)
  else if f == 0x11#8 then some (.bind d a b)
  else if d == 0x0#6 && b == 0x0#6 && f == 0x12#8 then some (.unbind a)
  else if f == 0x13#8 then some (.pgshare d a b)
  else if d == 0x0#6 && f == 0x14#8 then some (.pgdrop a b)
  else if b == 0x0#6 && f == 0x15#8 then some (.splook d a)
  else if f == 0x16#8 then some (.spset d a b)
  else if d == 0x0#6 && b == 0x0#6 && f == 0x17#8 then some (.prefetch a)
  else if d == 0x0#6 && a == 0x0#6 && b == 0x0#6 && f == 0xc#8 then some .fenceSv
  else if d == 0x0#6 && a == 0x0#6 && b == 0x0#6 && f == 0xd#8 then some .fenceVs
  else if d == 0x0#6 && a == 0x0#6 && b == 0x0#6 && f == 0x10#8 then some .twait
  else none

/-- Major 0x21: the function codes of Table 9.6. -/
def decodeFop (d a b : BitVec 6) (f : BitVec 8) : Option Instr :=
  if d.extractLsb' 5 1 == 0x0#1 && a.extractLsb' 5 1 == 0x0#1 && b.extractLsb' 5 1 == 0x0#1 && f.extractLsb' 0 7 == 0x0#7 then some (.fadd (d.extractLsb' 0 5) (a.extractLsb' 0 5) (b.extractLsb' 0 5) (f.extractLsb' 7 1 == 1#1))
  else if d.extractLsb' 5 1 == 0x0#1 && a.extractLsb' 5 1 == 0x0#1 && b.extractLsb' 5 1 == 0x0#1 && f.extractLsb' 0 7 == 0x1#7 then some (.fsub (d.extractLsb' 0 5) (a.extractLsb' 0 5) (b.extractLsb' 0 5) (f.extractLsb' 7 1 == 1#1))
  else if d.extractLsb' 5 1 == 0x0#1 && a.extractLsb' 5 1 == 0x0#1 && b.extractLsb' 5 1 == 0x0#1 && f.extractLsb' 0 7 == 0x2#7 then some (.fmul (d.extractLsb' 0 5) (a.extractLsb' 0 5) (b.extractLsb' 0 5) (f.extractLsb' 7 1 == 1#1))
  else if d.extractLsb' 5 1 == 0x0#1 && a.extractLsb' 5 1 == 0x0#1 && b.extractLsb' 5 1 == 0x0#1 && f.extractLsb' 0 7 == 0x3#7 then some (.fdiv (d.extractLsb' 0 5) (a.extractLsb' 0 5) (b.extractLsb' 0 5) (f.extractLsb' 7 1 == 1#1))
  else if d.extractLsb' 5 1 == 0x0#1 && a.extractLsb' 5 1 == 0x0#1 && b == 0x0#6 && f.extractLsb' 0 7 == 0x4#7 then some (.fsqrt (d.extractLsb' 0 5) (a.extractLsb' 0 5) (f.extractLsb' 7 1 == 1#1))
  else if d.extractLsb' 5 1 == 0x0#1 && a.extractLsb' 5 1 == 0x0#1 && b.extractLsb' 5 1 == 0x0#1 && f.extractLsb' 0 7 == 0x5#7 then some (.fmin (d.extractLsb' 0 5) (a.extractLsb' 0 5) (b.extractLsb' 0 5) (f.extractLsb' 7 1 == 1#1))
  else if d.extractLsb' 5 1 == 0x0#1 && a.extractLsb' 5 1 == 0x0#1 && b.extractLsb' 5 1 == 0x0#1 && f.extractLsb' 0 7 == 0x6#7 then some (.fmax (d.extractLsb' 0 5) (a.extractLsb' 0 5) (b.extractLsb' 0 5) (f.extractLsb' 7 1 == 1#1))
  else if d.extractLsb' 5 1 == 0x0#1 && a.extractLsb' 5 1 == 0x0#1 && b == 0x0#6 && f.extractLsb' 0 7 == 0x7#7 then some (.fabs (d.extractLsb' 0 5) (a.extractLsb' 0 5) (f.extractLsb' 7 1 == 1#1))
  else if d.extractLsb' 5 1 == 0x0#1 && a.extractLsb' 5 1 == 0x0#1 && b == 0x0#6 && f.extractLsb' 0 7 == 0x8#7 then some (.fneg (d.extractLsb' 0 5) (a.extractLsb' 0 5) (f.extractLsb' 7 1 == 1#1))
  else if d.extractLsb' 5 1 == 0x0#1 && a.extractLsb' 5 1 == 0x0#1 && b.extractLsb' 5 1 == 0x0#1 && f.extractLsb' 0 7 == 0x9#7 then some (.fsignof (d.extractLsb' 0 5) (a.extractLsb' 0 5) (b.extractLsb' 0 5) (f.extractLsb' 7 1 == 1#1))
  else if a.extractLsb' 5 1 == 0x0#1 && b.extractLsb' 5 1 == 0x0#1 && f.extractLsb' 0 7 == 0xa#7 then some (.feq d (a.extractLsb' 0 5) (b.extractLsb' 0 5) (f.extractLsb' 7 1 == 1#1))
  else if a.extractLsb' 5 1 == 0x0#1 && b.extractLsb' 5 1 == 0x0#1 && f.extractLsb' 0 7 == 0xb#7 then some (.flt d (a.extractLsb' 0 5) (b.extractLsb' 0 5) (f.extractLsb' 7 1 == 1#1))
  else if a.extractLsb' 5 1 == 0x0#1 && b.extractLsb' 5 1 == 0x0#1 && f.extractLsb' 0 7 == 0xc#7 then some (.fle d (a.extractLsb' 0 5) (b.extractLsb' 0 5) (f.extractLsb' 7 1 == 1#1))
  else if a.extractLsb' 5 1 == 0x0#1 && b == 0x0#6 && f.extractLsb' 0 7 == 0xd#7 then some (.fcvti d (a.extractLsb' 0 5) (f.extractLsb' 7 1 == 1#1))
  else if d.extractLsb' 5 1 == 0x0#1 && b == 0x0#6 && f.extractLsb' 0 7 == 0xe#7 then some (.fcvtf (d.extractLsb' 0 5) a (f.extractLsb' 7 1 == 1#1))
  else if a.extractLsb' 5 1 == 0x0#1 && b == 0x0#6 && f.extractLsb' 0 7 == 0xf#7 then some (.fmvsf d (a.extractLsb' 0 5) (f.extractLsb' 7 1 == 1#1))
  else if d.extractLsb' 5 1 == 0x0#1 && b == 0x0#6 && f.extractLsb' 0 7 == 0x10#7 then some (.fmvfs (d.extractLsb' 0 5) a (f.extractLsb' 7 1 == 1#1))
  else if a.extractLsb' 5 1 == 0x0#1 && b == 0x0#6 && f.extractLsb' 0 7 == 0x11#7 then some (.ftrust d (a.extractLsb' 0 5) (f.extractLsb' 7 1 == 1#1))
  else if d.extractLsb' 5 1 == 0x0#1 && a.extractLsb' 5 1 == 0x0#1 && f.extractLsb' 0 7 == 0x12#7 then some (.ftrset (d.extractLsb' 0 5) (a.extractLsb' 0 5) b (f.extractLsb' 7 1 == 1#1))
  else if d.extractLsb' 5 1 == 0x0#1 && a.extractLsb' 5 1 == 0x0#1 && b == 0x0#6 && f == 0x13#8 then some (.fwiden (d.extractLsb' 0 5) (a.extractLsb' 0 5))
  else if d.extractLsb' 5 1 == 0x0#1 && a.extractLsb' 5 1 == 0x0#1 && b == 0x0#6 && f == 0x14#8 then some (.fnarrow (d.extractLsb' 0 5) (a.extractLsb' 0 5))
  else none

/-- Major 0x22: the function codes of Table 9.6. -/
def decodeFfma (d a b : BitVec 6) (f : BitVec 8) : Option Instr :=
  if d.extractLsb' 5 1 == 0x0#1 && a.extractLsb' 5 1 == 0x0#1 && b.extractLsb' 5 1 == 0x0#1 && f.extractLsb' 0 2 == 0x0#2 then some (.fma (d.extractLsb' 0 5) (a.extractLsb' 0 5) (b.extractLsb' 0 5) (f.extractLsb' 3 5) (f.extractLsb' 2 1 == 1#1))
  else if d.extractLsb' 5 1 == 0x0#1 && a.extractLsb' 5 1 == 0x0#1 && b.extractLsb' 5 1 == 0x0#1 && f.extractLsb' 0 2 == 0x1#2 then some (.fms (d.extractLsb' 0 5) (a.extractLsb' 0 5) (b.extractLsb' 0 5) (f.extractLsb' 3 5) (f.extractLsb' 2 1 == 1#1))
  else if d.extractLsb' 5 1 == 0x0#1 && a.extractLsb' 5 1 == 0x0#1 && b.extractLsb' 5 1 == 0x0#1 && f.extractLsb' 0 2 == 0x2#2 then some (.fnma (d.extractLsb' 0 5) (a.extractLsb' 0 5) (b.extractLsb' 0 5) (f.extractLsb' 3 5) (f.extractLsb' 2 1 == 1#1))
  else if d.extractLsb' 5 1 == 0x0#1 && a.extractLsb' 5 1 == 0x0#1 && b.extractLsb' 5 1 == 0x0#1 && f.extractLsb' 0 2 == 0x3#2 then some (.fnms (d.extractLsb' 0 5) (a.extractLsb' 0 5) (b.extractLsb' 0 5) (f.extractLsb' 3 5) (f.extractLsb' 2 1 == 1#1))
  else none

/-- Major 0x28: the function codes of Table 9.6. -/
def decodePctl (d a b : BitVec 6) (f : BitVec 8) : Option Instr :=
  if a.extractLsb' 2 4 == 0x0#4 then some (.pbr (d.extractLsb' 2 4) (d.extractLsb' 0 2) (a.extractLsb' 0 2 ++ b ++ f))
  else if d == 0x0#6 && a.extractLsb' 2 4 == 0x2#4 then some (.pfetch (a.extractLsb' 0 2 ++ b ++ f))
  else if d == 0x0#6 && a == 0x4#6 && b == 0x0#6 && f == 0x0#8 then some .pend
  else if d == 0x0#6 && a == 0xc#6 && b == 0x0#6 && f == 0x0#8 then some .pwait
  else none

/-- Major 0x2a: the function codes of Table 9.6. -/
def decodeVint (d a b : BitVec 6) (f : BitVec 8) : Option Instr :=
  if f.extractLsb' 3 5 == 0x0#5 then (bop (f.extractLsb' 0 3) b).map fun o => .vadd d a o
  else if f.extractLsb' 3 5 == 0x1#5 then (bop (f.extractLsb' 0 3) b).map fun o => .vsub d a o
  else if f.extractLsb' 3 5 == 0x2#5 then (bop (f.extractLsb' 0 3) b).map fun o => .vrsub d a o
  else if b == 0x0#6 && f == 0x18#8 then some (.vneg d a)
  else if b == 0x0#6 && f == 0x20#8 then some (.vabs d a)
  else if f.extractLsb' 3 5 == 0x5#5 then (bop (f.extractLsb' 0 3) b).map fun o => .vmul d a o
  else if f.extractLsb' 3 5 == 0x6#5 then (bop (f.extractLsb' 0 3) b).map fun o => .vmulh d a o
  else if f.extractLsb' 3 5 == 0x7#5 then (bop (f.extractLsb' 0 3) b).map fun o => .vmac d a o
  else if f.extractLsb' 3 5 == 0x8#5 then (bop (f.extractLsb' 0 3) b).map fun o => .vmacp d a o
  else if f.extractLsb' 3 5 == 0x9#5 then (bop (f.extractLsb' 0 3) b).map fun o => .vdiv d a o
  else if f.extractLsb' 3 5 == 0xa#5 then (bop (f.extractLsb' 0 3) b).map fun o => .vrem d a o
  else if f.extractLsb' 3 5 == 0xb#5 then (bop (f.extractLsb' 0 3) b).map fun o => .vmin d a o
  else if f.extractLsb' 3 5 == 0xc#5 then (bop (f.extractLsb' 0 3) b).map fun o => .vmax d a o
  else if f.extractLsb' 3 5 == 0xd#5 then (bop (f.extractLsb' 0 3) b).map fun o => .vshl d a o
  else if f.extractLsb' 3 5 == 0xe#5 then (bop (f.extractLsb' 0 3) b).map fun o => .vshr d a o
  else if f.extractLsb' 3 5 == 0xf#5 then (bop (f.extractLsb' 0 3) b).map fun o => .vrshr d a o
  else if b == 0x0#6 && f == 0x80#8 then some (.vsat d a)
  else if b == 0x0#6 && f == 0x88#8 then some (.vmov d a)
  else if b == 0x0#6 && f == 0x90#8 then some (.vcvt d a)
  else if b == 0x0#6 && f == 0x98#8 then some (.vclz d a)
  else if b == 0x0#6 && f == 0xa0#8 then some (.vpopc d a)
  else none

/-- Major 0x2b: the function codes of Table 9.6. -/
def decodeVflt (d a b : BitVec 6) (f : BitVec 8) : Option Instr :=
  if f.extractLsb' 3 5 == 0x0#5 then (bop (f.extractLsb' 0 3) b).map fun o => .vfadd d a o
  else if f.extractLsb' 3 5 == 0x1#5 then (bop (f.extractLsb' 0 3) b).map fun o => .vfsub d a o
  else if f.extractLsb' 3 5 == 0x2#5 then (bop (f.extractLsb' 0 3) b).map fun o => .vfmul d a o
  else if f.extractLsb' 3 5 == 0x3#5 then (bop (f.extractLsb' 0 3) b).map fun o => .vfdiv d a o
  else if b == 0x0#6 && f == 0x20#8 then some (.vfsqrt d a)
  else if f.extractLsb' 3 5 == 0x5#5 then (bop (f.extractLsb' 0 3) b).map fun o => .vfmin d a o
  else if f.extractLsb' 3 5 == 0x6#5 then (bop (f.extractLsb' 0 3) b).map fun o => .vfmax d a o
  else if b == 0x0#6 && f == 0x38#8 then some (.vfabs d a)
  else if b == 0x0#6 && f == 0x40#8 then some (.vfneg d a)
  else if f == 0x48#8 then (EType.ofCode b).map fun o => .vfcvt d a o
  else if b == 0x0#6 && f == 0x50#8 then some (.vtrust d a)
  else if f.extractLsb' 3 5 == 0xb#5 then (bop (f.extractLsb' 0 3) b).map fun o => .vtrset d a o
  else if b == 0x0#6 && f == 0x60#8 then some (.vfexp2 d a)
  else if b == 0x0#6 && f == 0x68#8 then some (.vflog2 d a)
  else if b == 0x0#6 && f == 0x70#8 then some (.vfrcp d a)
  else if b == 0x0#6 && f == 0x78#8 then some (.vfrsq d a)
  else none

/-- Major 0x2c: the function codes of Table 9.6. -/
def decodeVfma (d a b : BitVec 6) (f : BitVec 8) : Option Instr :=
  if f.extractLsb' 0 2 == 0x0#2 then some (.vfma d a b (f.extractLsb' 2 6))
  else if f.extractLsb' 0 2 == 0x1#2 then some (.vfms d a b (f.extractLsb' 2 6))
  else if f.extractLsb' 0 2 == 0x2#2 then some (.vfnma d a b (f.extractLsb' 2 6))
  else if f.extractLsb' 0 2 == 0x3#2 then some (.vfnms d a b (f.extractLsb' 2 6))
  else none

/-- Major 0x2d: the function codes of Table 9.6. -/
def decodeVbit (d a b : BitVec 6) (f : BitVec 8) : Option Instr :=
  if f.extractLsb' 3 5 == 0x0#5 then (bop (f.extractLsb' 0 3) b).map fun o => .vand d a o
  else if f.extractLsb' 3 5 == 0x1#5 then (bop (f.extractLsb' 0 3) b).map fun o => .vor d a o
  else if f.extractLsb' 3 5 == 0x2#5 then (bop (f.extractLsb' 0 3) b).map fun o => .vxor d a o
  else if f.extractLsb' 3 5 == 0x3#5 then (bop (f.extractLsb' 0 3) b).map fun o => .vandn d a o
  else if b == 0x0#6 && f == 0x20#8 then some (.vnot d a)
  else if f.extractLsb' 3 5 == 0x5#5 then (bop (f.extractLsb' 0 3) b).map fun o => .vsel d a o
  else none

/-- Major 0x2e: the function codes of Table 9.6. -/
def decodeVcmp (d a b : BitVec 6) (f : BitVec 8) : Option Instr :=
  if f.extractLsb' 3 5 == 0x0#5 then (bop (f.extractLsb' 0 3) b).map fun o => .vcmpEq (d.extractLsb' 2 4) (d.extractLsb' 0 2) a o
  else if f.extractLsb' 3 5 == 0x1#5 then (bop (f.extractLsb' 0 3) b).map fun o => .vcmpNe (d.extractLsb' 2 4) (d.extractLsb' 0 2) a o
  else if f.extractLsb' 3 5 == 0x2#5 then (bop (f.extractLsb' 0 3) b).map fun o => .vcmpLt (d.extractLsb' 2 4) (d.extractLsb' 0 2) a o
  else if f.extractLsb' 3 5 == 0x3#5 then (bop (f.extractLsb' 0 3) b).map fun o => .vcmpLe (d.extractLsb' 2 4) (d.extractLsb' 0 2) a o
  else if f.extractLsb' 3 5 == 0x4#5 then (bop (f.extractLsb' 0 3) b).map fun o => .vcmpGt (d.extractLsb' 2 4) (d.extractLsb' 0 2) a o
  else if f.extractLsb' 3 5 == 0x5#5 then (bop (f.extractLsb' 0 3) b).map fun o => .vcmpGe (d.extractLsb' 2 4) (d.extractLsb' 0 2) a o
  else if b == 0x0#6 && f == 0x30#8 then some (.vcmpTrlt (d.extractLsb' 2 4) (d.extractLsb' 0 2) a)
  else if b == 0x0#6 && f == 0x38#8 then some (.vcmpNan (d.extractLsb' 2 4) (d.extractLsb' 0 2) a)
  else if b == 0x0#6 && f == 0x40#8 then some (.vcmpInf (d.extractLsb' 2 4) (d.extractLsb' 0 2) a)
  else none

/-- Major 0x2f: the function codes of Table 9.6. -/
def decodeVsrch (d a b : BitVec 6) (f : BitVec 8) : Option Instr :=
  if f.extractLsb' 0 2 == 0x0#2 then some (.vsrch (d.extractLsb' 2 4) (d.extractLsb' 0 2) a b (f.extractLsb' 2 6))
  else if d.extractLsb' 0 2 == 0x0#2 && f.extractLsb' 0 2 == 0x1#2 then some (.vwrt (d.extractLsb' 2 4) a b (f.extractLsb' 2 6))
  else none

/-- Major 0x30: the function codes of Table 9.6. -/
def decodeKop (d a b : BitVec 6) (f : BitVec 8) : Option Instr :=
  if b == 0x0#6 && f == 0x0#8 then some (.kand (d.extractLsb' 2 4) (d.extractLsb' 0 2 ++ a.extractLsb' 4 2) (a.extractLsb' 0 4))
  else if b == 0x0#6 && f == 0x1#8 then some (.kor (d.extractLsb' 2 4) (d.extractLsb' 0 2 ++ a.extractLsb' 4 2) (a.extractLsb' 0 4))
  else if b == 0x0#6 && f == 0x2#8 then some (.kxor (d.extractLsb' 2 4) (d.extractLsb' 0 2 ++ a.extractLsb' 4 2) (a.extractLsb' 0 4))
  else if b == 0x0#6 && f == 0x3#8 then some (.kandn (d.extractLsb' 2 4) (d.extractLsb' 0 2 ++ a.extractLsb' 4 2) (a.extractLsb' 0 4))
  else if a.extractLsb' 0 4 == 0x0#4 && b == 0x0#6 && f == 0x4#8 then some (.knot (d.extractLsb' 2 4) (d.extractLsb' 0 2 ++ a.extractLsb' 4 2))
  else if a.extractLsb' 0 4 == 0x0#4 && b == 0x0#6 && f == 0x5#8 then some (.kmov (d.extractLsb' 2 4) (d.extractLsb' 0 2 ++ a.extractLsb' 4 2))
  else if d.extractLsb' 0 2 == 0x0#2 && a == 0x0#6 && b == 0x0#6 && f == 0x6#8 then some (.kset (d.extractLsb' 2 4))
  else if d.extractLsb' 0 2 == 0x0#2 && a == 0x0#6 && b == 0x0#6 && f == 0x7#8 then some (.kclr (d.extractLsb' 2 4))
  else if d.extractLsb' 2 4 == 0x0#4 && a.extractLsb' 0 4 == 0x0#4 && f == 0x8#8 then some (.kpop (d.extractLsb' 0 2 ++ a.extractLsb' 4 2) b)
  else if a.extractLsb' 0 4 == 0x0#4 && f == 0x9#8 then some (.kfirst (d.extractLsb' 2 4) (d.extractLsb' 0 2 ++ a.extractLsb' 4 2) b)
  else if d.extractLsb' 0 2 == 0x0#2 && a == 0x0#6 && f == 0xa#8 then some (.kone (d.extractLsb' 2 4) b)
  else if a.extractLsb' 0 4 == 0x0#4 && f == 0xb#8 then some (.kshift (d.extractLsb' 2 4) (d.extractLsb' 0 2 ++ a.extractLsb' 4 2) b)
  else if d.extractLsb' 0 2 == 0x0#2 && a == 0x0#6 && f == 0xc#8 then some (.kfrom (d.extractLsb' 2 4) b)
  else if d.extractLsb' 2 4 == 0x0#4 && a.extractLsb' 0 4 == 0x0#4 && f == 0xd#8 then some (.kto (d.extractLsb' 0 2 ++ a.extractLsb' 4 2) b)
  else none

/-- Major 0x31: the function codes of Table 9.6. -/
def decodeVred (d a b : BitVec 6) (f : BitVec 8) : Option Instr :=
  if b == 0x0#6 && f == 0x0#8 then some (.vrsum d a)
  else if b == 0x0#6 && f == 0x8#8 then some (.vrmin d a)
  else if b == 0x0#6 && f == 0x10#8 then some (.vrmax d a)
  else if b == 0x0#6 && f == 0x18#8 then some (.vrand d a)
  else if b == 0x0#6 && f == 0x20#8 then some (.vror d a)
  else if b == 0x0#6 && f == 0x28#8 then some (.vrxor d a)
  else if d.extractLsb' 5 1 == 0x0#1 && b == 0x0#6 && f == 0x30#8 then some (.vrfsum (d.extractLsb' 0 5) a)
  else if d.extractLsb' 5 1 == 0x0#1 && b == 0x0#6 && f == 0x38#8 then some (.vrfmax (d.extractLsb' 0 5) a)
  else if d.extractLsb' 5 1 == 0x0#1 && b == 0x0#6 && f == 0x40#8 then some (.vrfmin (d.extractLsb' 0 5) a)
  else if b == 0x0#6 && f == 0x48#8 then some (.vrargmax d a)
  else if b == 0x0#6 && f == 0x50#8 then some (.vrargmin d a)
  else if f == 0x59#8 then some (.vextr d a b)
  else none

/-- Major 0x32: the function codes of Table 9.6. -/
def decodeSearch (d a b : BitVec 6) (f : BitVec 8) : Option Instr :=
  if d.extractLsb' 0 2 == 0x0#2 && f == 0x1#8 then some (.vtopk (d.extractLsb' 2 4) a b)
  else if d.extractLsb' 0 2 == 0x0#2 && f == 0x9#8 then some (.vbotk (d.extractLsb' 2 4) a b)
  else if d.extractLsb' 0 2 == 0x0#2 && b == 0x0#6 && f == 0x10#8 then some (.vmaxt (d.extractLsb' 2 4) a)
  else if d.extractLsb' 0 2 == 0x0#2 && b == 0x0#6 && f == 0x18#8 then some (.vmint (d.extractLsb' 2 4) a)
  else if d.extractLsb' 0 2 == 0x0#2 && b == 0x0#6 && f == 0x20#8 then some (.vconf (d.extractLsb' 2 4) a)
  else if d.extractLsb' 0 2 == 0x0#2 && f == 0x29#8 then some (.vneark (d.extractLsb' 2 4) a b)
  else none

/-- Major 0x33: the function codes of Table 9.6. -/
def decodeVmove (d a b : BitVec 6) (f : BitVec 8) : Option Instr :=
  if f == 0x1#8 then some (.vslideup d a b)
  else if f == 0x9#8 then some (.vslidedn d a b)
  else if f == 0x11#8 then some (.vslidein d a b)
  else if f.extractLsb' 3 5 == 0x3#5 then (bop (f.extractLsb' 0 3) b).map fun o => .vperm d a o
  else if a == 0x0#6 && b == 0x0#6 && f == 0x20#8 then some (.vcompact d)
  else if b == 0x0#6 && f == 0x28#8 then some (.vscan d a)
  else if a == 0x0#6 && b == 0x0#6 && f == 0x30#8 then some (.viota d)
  else if f == 0x39#8 then some (.vbcast d a b)
  else none

/-- Major 0x34: the function codes of Table 9.6. -/
def decodeVld (d a b : BitVec 6) (f : BitVec 8) : Option Instr :=
  if b == 0x0#6 && f == 0x0#8 then some (.vldu d a)
  else if f == 0x9#8 then some (.vlds d a b)
  else if f.extractLsb' 3 5 == 0x2#5 then (bop (f.extractLsb' 0 3) b).map fun o => .vldx d a o
  else if f.extractLsb' 3 5 == 0x3#5 then (bop (f.extractLsb' 0 3) b).map fun o => .vldl d a o
  else none

/-- Major 0x35: the function codes of Table 9.6. -/
def decodeVst (d a b : BitVec 6) (f : BitVec 8) : Option Instr :=
  if b == 0x0#6 && f == 0x0#8 then some (.vstu d a)
  else if f == 0x9#8 then some (.vsts d a b)
  else if f.extractLsb' 3 5 == 0x2#5 then (bop (f.extractLsb' 0 3) b).map fun o => .vstx d a o
  else if f.extractLsb' 3 5 == 0x3#5 then (bop (f.extractLsb' 0 3) b).map fun o => .vstadd d a o
  else if f == 0x20#8 then (EType.ofCode b).map fun o => .vstef d a o
  else if f.extractLsb' 3 5 == 0x5#5 then (bop (f.extractLsb' 0 3) b).map fun o => .vstl d a o
  else none

/-- Major 0x36: the function codes of Table 9.6. -/
def decodeVspec (d a b : BitVec 6) (f : BitVec 8) : Option Instr :=
  if b.extractLsb' 5 1 == 0x0#1 && f == 0x2#8 then some (.vsoft d a (b.extractLsb' 0 5))
  else if f == 0x9#8 then some (.vcollapse d a b)
  else none

/-- Major 0x38: the function codes of Table 9.6. -/
def decodeMat (d a b : BitVec 6) (f : BitVec 8) : Option Instr :=
  if a == 0x0#6 && b == 0x0#6 && f.extractLsb' 0 6 == 0x0#6 then some (.mcfg d (f.extractLsb' 6 2))
  else if b == 0x0#6 && f.extractLsb' 0 6 == 0x1#6 then some (.mwld d a (f.extractLsb' 6 2))
  else if f.extractLsb' 0 6 == 0x2#6 then some (.mwlds d a b (f.extractLsb' 6 2))
  else if b == 0x0#6 && f.extractLsb' 0 6 == 0x3#6 then some (.mstr d a (f.extractLsb' 6 2))
  else if b == 0x0#6 && f.extractLsb' 0 6 == 0x4#6 then some (.mdrn d a (f.extractLsb' 6 2))
  else if b == 0x0#6 && f.extractLsb' 0 6 == 0x5#6 then some (.mdrnv d a (f.extractLsb' 6 2))
  else if d == 0x0#6 && a == 0x0#6 && b == 0x0#6 && f.extractLsb' 0 6 == 0x6#6 then some (.mzero (f.extractLsb' 6 2))
  else if a == 0x0#6 && b == 0x0#6 && f.extractLsb' 0 6 == 0x7#6 then some (.mchk d (f.extractLsb' 6 2))
  else if f == 0x8#8 then some (.spcomp d a b)
  else none

/-- Major 0x39: the function codes of Table 9.6. -/
noncomputable def decodeCpy (d a b : BitVec 6) (f : BitVec 8) : Option Instr :=
  if f == 0x4#8 then some (.arrinit d a b)
  else if f == 0x5#8 then some (.arradd d a b)
  else if f == 0x6#8 then some (.arrwait d a b)
  else if f == 0x0#8 then some (.cpyg2l d a b)
  else if f == 0x1#8 then some (.cpyl2g d a b)
  else if f == 0x2#8 then some (.cpyl2l d a b)
  else if f == 0x3#8 then some (.cpyg2g d a b)
  else if a == 0x0#6 && b == 0x0#6 && f == 0x7#8 then some (.cpywait d)
  else none

/-- Major 0x3a: the function codes of Table 9.6. -/
noncomputable def decodeCol (d a b : BitVec 6) (f : BitVec 8) : Option Instr :=
  if f == 0x0#8 then some (.colrs d a b)
  else if f == 0x1#8 then some (.colag d a b)
  else if f == 0x2#8 then some (.colar d a b)
  else if f == 0x3#8 then some (.colrot d a b)
  else if b == 0x0#6 && f == 0x4#8 then some (.colwait d a)
  else if b == 0x0#6 && f == 0x5#8 then some (.colstat d a)
  else none

/-- The instruction that the fields name, before the checks of `Instr.wellFormed`: Table 9.5. A word with no unused
field set and no number outside its class. -/
noncomputable def decodeFields : Fields → Option Instr
  | ⟨m, d, a, b, f⟩ =>
    if m == 0x1#6 then decodeSys d a b f
    else if m == 0x2#6 then (if d.extractLsb' 2 4 == 0x0#4 then some (.mode (d.extractLsb' 0 2 ++ a ++ b ++ f)) else none)
    else if m == 0x3#6 then decodeSetvl d a b f
    else if m == 0x4#6 then decodeAlu d a b f
    else if m == 0x5#6 then some (.addi d a (b ++ f))
    else if m == 0x6#6 then some (.andi d a (b ++ f))
    else if m == 0x7#6 then some (.ori d a (b ++ f))
    else if m == 0x8#6 then some (.xori d a (b ++ f))
    else if m == 0x9#6 then decodeShi d a b f
    else if m == 0xa#6 then some (.slti d a (b ++ f))
    else if m == 0xb#6 then some (.li d (a ++ b ++ f))
    else if m == 0xc#6 then some (.lim d (a ++ b ++ f))
    else if m == 0xd#6 then some (.ldb d a (b ++ f))
    else if m == 0xe#6 then some (.ldh d a (b ++ f))
    else if m == 0xf#6 then some (.ldw d a (b ++ f))
    else if m == 0x10#6 then some (.ldd d a (b ++ f))
    else if m == 0x11#6 then some (.ldbn d a (b ++ f))
    else if m == 0x12#6 then some (.ldhn d a (b ++ f))
    else if m == 0x13#6 then some (.ldwn d a (b ++ f))
    else if m == 0x14#6 then some (.stb d a (b ++ f))
    else if m == 0x15#6 then some (.sth d a (b ++ f))
    else if m == 0x16#6 then some (.stw d a (b ++ f))
    else if m == 0x17#6 then some (.std d a (b ++ f))
    else if m == 0x18#6 then decodeMemx d a b f
    else if m == 0x19#6 then some (.beq d a (b ++ f))
    else if m == 0x1a#6 then some (.bne d a (b ++ f))
    else if m == 0x1b#6 then some (.blt d a (b ++ f))
    else if m == 0x1c#6 then some (.bge d a (b ++ f))
    else if m == 0x1d#6 then some (.bltn d a (b ++ f))
    else if m == 0x1e#6 then some (.bgen d a (b ++ f))
    else if m == 0x1f#6 then some (.jal d (a ++ b ++ f))
    else if m == 0x20#6 then some (.jalr d a (b ++ f))
    else if m == 0x21#6 then decodeFop d a b f
    else if m == 0x22#6 then decodeFfma d a b f
    else if m == 0x23#6 then (if d.extractLsb' 5 1 == 0x0#1 then some (.fldd (d.extractLsb' 0 5) a (b ++ f)) else none)
    else if m == 0x24#6 then (if d.extractLsb' 5 1 == 0x0#1 then some (.fldw (d.extractLsb' 0 5) a (b ++ f)) else none)
    else if m == 0x25#6 then (if d.extractLsb' 5 1 == 0x0#1 then some (.fstd (d.extractLsb' 0 5) a (b ++ f)) else none)
    else if m == 0x26#6 then (if d.extractLsb' 5 1 == 0x0#1 then some (.fstw (d.extractLsb' 0 5) a (b ++ f)) else none)
    else if m == 0x27#6 then (if d == 0x0#6 then some (.vfetch a (b ++ f)) else none)
    else if m == 0x28#6 then decodePctl d a b f
    else if m == 0x2a#6 then decodeVint d a b f
    else if m == 0x2b#6 then decodeVflt d a b f
    else if m == 0x2c#6 then decodeVfma d a b f
    else if m == 0x2d#6 then decodeVbit d a b f
    else if m == 0x2e#6 then decodeVcmp d a b f
    else if m == 0x2f#6 then decodeVsrch d a b f
    else if m == 0x30#6 then decodeKop d a b f
    else if m == 0x31#6 then decodeVred d a b f
    else if m == 0x32#6 then decodeSearch d a b f
    else if m == 0x33#6 then decodeVmove d a b f
    else if m == 0x34#6 then decodeVld d a b f
    else if m == 0x35#6 then decodeVst d a b f
    else if m == 0x36#6 then decodeVspec d a b f
    else if m == 0x37#6 then (if f.extractLsb' 1 2 == 0x0#2 then some (.fmap d (a ++ b.extractLsb' 2 4) (b.extractLsb' 0 2 ++ f.extractLsb' 3 5) (f.extractLsb' 0 1 == 1#1)) else none)
    else if m == 0x38#6 then decodeMat d a b f
    else if m == 0x39#6 then decodeCpy d a b f
    else if m == 0x3a#6 then decodeCol d a b f
    else if m == 0x3b#6 then (if a == 0x0#6 && b.extractLsb' 4 2 == 0x0#2 then some (.srr d (b.extractLsb' 0 4 ++ f)) else none)
    else if m == 0x3c#6 then (if d == 0x0#6 && b.extractLsb' 4 2 == 0x0#2 then some (.srw a (b.extractLsb' 0 4 ++ f)) else none)
    else none

/-- The instruction of a word, or `none` when the word is not an instruction (R197). -/
noncomputable def decode (w : IWord) : Option Instr :=
  match decodeFields (Fields.ofWord w) with
  | some i => if i.wellFormed then some i else none
  | none => none

/-- The word that four bytes in address order hold (R188: little-endian). -/
def wordOfBytes (b0 b1 b2 b3 : Byte) : IWord := b3 ++ b2 ++ b1 ++ b0

/-- The byte of a natural number at place k, the least significant first. -/
def byteAt (w k : Nat) : Byte := BitVec.ofNat 8 (w >>> (8 * k))

/-- What this decoder reads from the bytes of an opcode-table word, laid out as the hardware stores them. -/
noncomputable def decodeTableWord (_nbits w : Nat) : Option Instr :=
  decode (wordOfBytes (byteAt w 0) (byteAt w 1) (byteAt w 2) (byteAt w 3))

/-- rep3 of a b operand: Table 9.4. -/
def BOp.rep3 : BOp → BitVec 3
  | .field _ => 0#3
  | .sreg _ => 1#3
  | .freg _ => 2#3
  | .rep _ s => 1#1 ++ s

/-- The b field of a b operand: Table 9.4. -/
def BOp.num : BOp → BitVec 6
  | .field v => v
  | .sreg r => r
  | .freg r => 0#1 ++ r
  | .rep v _ => v

/-- The class code of a taint operand: Table 4.5. -/
def TaintName.cls : TaintName → BitVec 3
  | .s _ => 0#3
  | .f _ => 1#3
  | .v _ => 2#3
  | .k _ => 3#3
  | .acc _ => 4#3
  | .ctl => 5#3

/-- The number of a taint operand: Table 4.5. -/
def TaintName.num : TaintName → BitVec 6
  | .s x => x
  | .f x => 0#1 ++ x
  | .v x => x
  | .k x => 0#2 ++ x
  | .acc x => 0#4 ++ x
  | .ctl => 0#6

/-- The fields of an instruction's word (Tables 9.1, 9.5, 9.6); `none` for a step that has no word. -/
def encodeFields : Instr → Option Fields
  | .trap a => some ⟨0x1#6, 0x0#6, a, 0x0#6, 0x1#8⟩
  | .boost d a b => some ⟨0x1#6, d, a, b, 0x9#8⟩
  | .tlbinv a b => some ⟨0x1#6, 0x0#6, a, b, 0xb#8⟩
  | .mode m => some ⟨0x2#6, (0x0#4 ++ (m.extractLsb' 20 2)), (m.extractLsb' 14 6), (m.extractLsb' 8 6), (m.extractLsb' 0 8)⟩
  | .setvlImm d i => some ⟨0x3#6, d, 0x0#6, (0x0#1 ++ (i.extractLsb' 8 5)), (i.extractLsb' 0 8)⟩
  | .setvlReg d a => some ⟨0x3#6, d, a, 0x0#6, 0x0#8⟩
  | .add d a b => some ⟨0x4#6, d, a, b, 0x0#8⟩
  | .sub d a b => some ⟨0x4#6, d, a, b, 0x1#8⟩
  | .and d a b => some ⟨0x4#6, d, a, b, 0x2#8⟩
  | .or d a b => some ⟨0x4#6, d, a, b, 0x3#8⟩
  | .xor d a b => some ⟨0x4#6, d, a, b, 0x4#8⟩
  | .andn d a b => some ⟨0x4#6, d, a, b, 0x5#8⟩
  | .sll d a b => some ⟨0x4#6, d, a, b, 0x6#8⟩
  | .srl d a b => some ⟨0x4#6, d, a, b, 0x7#8⟩
  | .sra d a b => some ⟨0x4#6, d, a, b, 0x8#8⟩
  | .ror d a b => some ⟨0x4#6, d, a, b, 0x9#8⟩
  | .mul d a b => some ⟨0x4#6, d, a, b, 0xa#8⟩
  | .mulh d a b => some ⟨0x4#6, d, a, b, 0xb#8⟩
  | .mulhn d a b => some ⟨0x4#6, d, a, b, 0xc#8⟩
  | .div d a b => some ⟨0x4#6, d, a, b, 0xd#8⟩
  | .divn d a b => some ⟨0x4#6, d, a, b, 0xe#8⟩
  | .rem d a b => some ⟨0x4#6, d, a, b, 0xf#8⟩
  | .remn d a b => some ⟨0x4#6, d, a, b, 0x10#8⟩
  | .min d a b => some ⟨0x4#6, d, a, b, 0x11#8⟩
  | .max d a b => some ⟨0x4#6, d, a, b, 0x12#8⟩
  | .minn d a b => some ⟨0x4#6, d, a, b, 0x13#8⟩
  | .maxn d a b => some ⟨0x4#6, d, a, b, 0x14#8⟩
  | .slt d a b => some ⟨0x4#6, d, a, b, 0x15#8⟩
  | .sltn d a b => some ⟨0x4#6, d, a, b, 0x16#8⟩
  | .seq d a b => some ⟨0x4#6, d, a, b, 0x17#8⟩
  | .clz d a => some ⟨0x4#6, d, a, 0x0#6, 0x18#8⟩
  | .ctz d a => some ⟨0x4#6, d, a, 0x0#6, 0x19#8⟩
  | .popc d a => some ⟨0x4#6, d, a, 0x0#6, 0x1a#8⟩
  | .sext d a b => some ⟨0x4#6, d, a, b, 0x1b#8⟩
  | .zext d a b => some ⟨0x4#6, d, a, b, 0x1c#8⟩
  | .addi d a i => some ⟨0x5#6, d, a, (i.extractLsb' 8 6), (i.extractLsb' 0 8)⟩
  | .andi d a i => some ⟨0x6#6, d, a, (i.extractLsb' 8 6), (i.extractLsb' 0 8)⟩
  | .ori d a i => some ⟨0x7#6, d, a, (i.extractLsb' 8 6), (i.extractLsb' 0 8)⟩
  | .xori d a i => some ⟨0x8#6, d, a, (i.extractLsb' 8 6), (i.extractLsb' 0 8)⟩
  | .slli d a s => some ⟨0x9#6, d, a, 0x0#6, (0x0#2 ++ s)⟩
  | .srli d a s => some ⟨0x9#6, d, a, 0x10#6, (0x0#2 ++ s)⟩
  | .srai d a s => some ⟨0x9#6, d, a, 0x20#6, (0x0#2 ++ s)⟩
  | .rori d a s => some ⟨0x9#6, d, a, 0x30#6, (0x0#2 ++ s)⟩
  | .slti d a i => some ⟨0xa#6, d, a, (i.extractLsb' 8 6), (i.extractLsb' 0 8)⟩
  | .li d i => some ⟨0xb#6, d, (i.extractLsb' 14 6), (i.extractLsb' 8 6), (i.extractLsb' 0 8)⟩
  | .lim d i => some ⟨0xc#6, d, (i.extractLsb' 14 6), (i.extractLsb' 8 6), (i.extractLsb' 0 8)⟩
  | .ldb d a i => some ⟨0xd#6, d, a, (i.extractLsb' 8 6), (i.extractLsb' 0 8)⟩
  | .ldh d a i => some ⟨0xe#6, d, a, (i.extractLsb' 8 6), (i.extractLsb' 0 8)⟩
  | .ldw d a i => some ⟨0xf#6, d, a, (i.extractLsb' 8 6), (i.extractLsb' 0 8)⟩
  | .ldd d a i => some ⟨0x10#6, d, a, (i.extractLsb' 8 6), (i.extractLsb' 0 8)⟩
  | .ldbn d a i => some ⟨0x11#6, d, a, (i.extractLsb' 8 6), (i.extractLsb' 0 8)⟩
  | .ldhn d a i => some ⟨0x12#6, d, a, (i.extractLsb' 8 6), (i.extractLsb' 0 8)⟩
  | .ldwn d a i => some ⟨0x13#6, d, a, (i.extractLsb' 8 6), (i.extractLsb' 0 8)⟩
  | .stb d a i => some ⟨0x14#6, d, a, (i.extractLsb' 8 6), (i.extractLsb' 0 8)⟩
  | .sth d a i => some ⟨0x15#6, d, a, (i.extractLsb' 8 6), (i.extractLsb' 0 8)⟩
  | .stw d a i => some ⟨0x16#6, d, a, (i.extractLsb' 8 6), (i.extractLsb' 0 8)⟩
  | .std d a i => some ⟨0x17#6, d, a, (i.extractLsb' 8 6), (i.extractLsb' 0 8)⟩
  | .ldacq d a => some ⟨0x18#6, d, a, 0x0#6, 0x0#8⟩
  | .strel a b => some ⟨0x18#6, 0x0#6, a, b, 0x1#8⟩
  | .amoadd d a b w => some ⟨0x18#6, d, a, b, ((BitVec.ofBool w) ++ 0x2#7)⟩
  | .amoswap d a b w => some ⟨0x18#6, d, a, b, ((BitVec.ofBool w) ++ 0x3#7)⟩
  | .amocas d a b w => some ⟨0x18#6, d, a, b, ((BitVec.ofBool w) ++ 0x4#7)⟩
  | .amomin d a b w => some ⟨0x18#6, d, a, b, ((BitVec.ofBool w) ++ 0x5#7)⟩
  | .amomax d a b w => some ⟨0x18#6, d, a, b, ((BitVec.ofBool w) ++ 0x6#7)⟩
  | .amominn d a b w => some ⟨0x18#6, d, a, b, ((BitVec.ofBool w) ++ 0x7#7)⟩
  | .amomaxn d a b w => some ⟨0x18#6, d, a, b, ((BitVec.ofBool w) ++ 0x8#7)⟩
  | .amoand d a b w => some ⟨0x18#6, d, a, b, ((BitVec.ofBool w) ++ 0x9#7)⟩
  | .amoor d a b w => some ⟨0x18#6, d, a, b, ((BitVec.ofBool w) ++ 0xa#7)⟩
  | .amoxor d a b w => some ⟨0x18#6, d, a, b, ((BitVec.ofBool w) ++ 0xb#7)⟩
  | .tclr x => some ⟨0x18#6, x.num, 0x0#6, (x.cls ++ 0x0#3), 0xe#8⟩
  | .tdep x y => some ⟨0x18#6, x.num, y.num, (x.cls ++ y.cls), 0xf#8⟩
  | .bind d a b => some ⟨0x18#6, d, a, b, 0x11#8⟩
  | .unbind a => some ⟨0x18#6, 0x0#6, a, 0x0#6, 0x12#8⟩
  | .pgshare d a b => some ⟨0x18#6, d, a, b, 0x13#8⟩
  | .pgdrop a b => some ⟨0x18#6, 0x0#6, a, b, 0x14#8⟩
  | .splook d a => some ⟨0x18#6, d, a, 0x0#6, 0x15#8⟩
  | .spset d a b => some ⟨0x18#6, d, a, b, 0x16#8⟩
  | .prefetch a => some ⟨0x18#6, 0x0#6, a, 0x0#6, 0x17#8⟩
  | .beq a b o => some ⟨0x19#6, a, b, (o.extractLsb' 8 6), (o.extractLsb' 0 8)⟩
  | .bne a b o => some ⟨0x1a#6, a, b, (o.extractLsb' 8 6), (o.extractLsb' 0 8)⟩
  | .blt a b o => some ⟨0x1b#6, a, b, (o.extractLsb' 8 6), (o.extractLsb' 0 8)⟩
  | .bge a b o => some ⟨0x1c#6, a, b, (o.extractLsb' 8 6), (o.extractLsb' 0 8)⟩
  | .bltn a b o => some ⟨0x1d#6, a, b, (o.extractLsb' 8 6), (o.extractLsb' 0 8)⟩
  | .bgen a b o => some ⟨0x1e#6, a, b, (o.extractLsb' 8 6), (o.extractLsb' 0 8)⟩
  | .jal d o => some ⟨0x1f#6, d, (o.extractLsb' 14 6), (o.extractLsb' 8 6), (o.extractLsb' 0 8)⟩
  | .jalr d a i => some ⟨0x20#6, d, a, (i.extractLsb' 8 6), (i.extractLsb' 0 8)⟩
  | .fadd d a b w => some ⟨0x21#6, (0x0#1 ++ d), (0x0#1 ++ a), (0x0#1 ++ b), ((BitVec.ofBool w) ++ 0x0#7)⟩
  | .fsub d a b w => some ⟨0x21#6, (0x0#1 ++ d), (0x0#1 ++ a), (0x0#1 ++ b), ((BitVec.ofBool w) ++ 0x1#7)⟩
  | .fmul d a b w => some ⟨0x21#6, (0x0#1 ++ d), (0x0#1 ++ a), (0x0#1 ++ b), ((BitVec.ofBool w) ++ 0x2#7)⟩
  | .fdiv d a b w => some ⟨0x21#6, (0x0#1 ++ d), (0x0#1 ++ a), (0x0#1 ++ b), ((BitVec.ofBool w) ++ 0x3#7)⟩
  | .fsqrt d a w => some ⟨0x21#6, (0x0#1 ++ d), (0x0#1 ++ a), 0x0#6, ((BitVec.ofBool w) ++ 0x4#7)⟩
  | .fmin d a b w => some ⟨0x21#6, (0x0#1 ++ d), (0x0#1 ++ a), (0x0#1 ++ b), ((BitVec.ofBool w) ++ 0x5#7)⟩
  | .fmax d a b w => some ⟨0x21#6, (0x0#1 ++ d), (0x0#1 ++ a), (0x0#1 ++ b), ((BitVec.ofBool w) ++ 0x6#7)⟩
  | .fabs d a w => some ⟨0x21#6, (0x0#1 ++ d), (0x0#1 ++ a), 0x0#6, ((BitVec.ofBool w) ++ 0x7#7)⟩
  | .fneg d a w => some ⟨0x21#6, (0x0#1 ++ d), (0x0#1 ++ a), 0x0#6, ((BitVec.ofBool w) ++ 0x8#7)⟩
  | .fsignof d a b w => some ⟨0x21#6, (0x0#1 ++ d), (0x0#1 ++ a), (0x0#1 ++ b), ((BitVec.ofBool w) ++ 0x9#7)⟩
  | .feq d a b w => some ⟨0x21#6, d, (0x0#1 ++ a), (0x0#1 ++ b), ((BitVec.ofBool w) ++ 0xa#7)⟩
  | .flt d a b w => some ⟨0x21#6, d, (0x0#1 ++ a), (0x0#1 ++ b), ((BitVec.ofBool w) ++ 0xb#7)⟩
  | .fle d a b w => some ⟨0x21#6, d, (0x0#1 ++ a), (0x0#1 ++ b), ((BitVec.ofBool w) ++ 0xc#7)⟩
  | .fcvti d a w => some ⟨0x21#6, d, (0x0#1 ++ a), 0x0#6, ((BitVec.ofBool w) ++ 0xd#7)⟩
  | .fcvtf d a w => some ⟨0x21#6, (0x0#1 ++ d), a, 0x0#6, ((BitVec.ofBool w) ++ 0xe#7)⟩
  | .fmvsf d a w => some ⟨0x21#6, d, (0x0#1 ++ a), 0x0#6, ((BitVec.ofBool w) ++ 0xf#7)⟩
  | .fmvfs d a w => some ⟨0x21#6, (0x0#1 ++ d), a, 0x0#6, ((BitVec.ofBool w) ++ 0x10#7)⟩
  | .ftrust d a w => some ⟨0x21#6, d, (0x0#1 ++ a), 0x0#6, ((BitVec.ofBool w) ++ 0x11#7)⟩
  | .ftrset d a b w => some ⟨0x21#6, (0x0#1 ++ d), (0x0#1 ++ a), b, ((BitVec.ofBool w) ++ 0x12#7)⟩
  | .fwiden d a => some ⟨0x21#6, (0x0#1 ++ d), (0x0#1 ++ a), 0x0#6, 0x13#8⟩
  | .fnarrow d a => some ⟨0x21#6, (0x0#1 ++ d), (0x0#1 ++ a), 0x0#6, 0x14#8⟩
  | .fma d a b c w => some ⟨0x22#6, (0x0#1 ++ d), (0x0#1 ++ a), (0x0#1 ++ b), (c ++ (BitVec.ofBool w) ++ 0x0#2)⟩
  | .fms d a b c w => some ⟨0x22#6, (0x0#1 ++ d), (0x0#1 ++ a), (0x0#1 ++ b), (c ++ (BitVec.ofBool w) ++ 0x1#2)⟩
  | .fnma d a b c w => some ⟨0x22#6, (0x0#1 ++ d), (0x0#1 ++ a), (0x0#1 ++ b), (c ++ (BitVec.ofBool w) ++ 0x2#2)⟩
  | .fnms d a b c w => some ⟨0x22#6, (0x0#1 ++ d), (0x0#1 ++ a), (0x0#1 ++ b), (c ++ (BitVec.ofBool w) ++ 0x3#2)⟩
  | .fldd d a i => some ⟨0x23#6, (0x0#1 ++ d), a, (i.extractLsb' 8 6), (i.extractLsb' 0 8)⟩
  | .fldw d a i => some ⟨0x24#6, (0x0#1 ++ d), a, (i.extractLsb' 8 6), (i.extractLsb' 0 8)⟩
  | .fstd d a i => some ⟨0x25#6, (0x0#1 ++ d), a, (i.extractLsb' 8 6), (i.extractLsb' 0 8)⟩
  | .fstw d a i => some ⟨0x26#6, (0x0#1 ++ d), a, (i.extractLsb' 8 6), (i.extractLsb' 0 8)⟩
  | .vfetch a i => some ⟨0x27#6, 0x0#6, a, (i.extractLsb' 8 6), (i.extractLsb' 0 8)⟩
  | .pbr k c o => some ⟨0x28#6, (k ++ c), (0x0#4 ++ (o.extractLsb' 14 2)), (o.extractLsb' 8 6), (o.extractLsb' 0 8)⟩
  | .pfetch o => some ⟨0x28#6, 0x0#6, (0x2#4 ++ (o.extractLsb' 14 2)), (o.extractLsb' 8 6), (o.extractLsb' 0 8)⟩
  | .vadd d a b => some ⟨0x2a#6, d, a, b.num, (0x0#5 ++ b.rep3)⟩
  | .vsub d a b => some ⟨0x2a#6, d, a, b.num, (0x1#5 ++ b.rep3)⟩
  | .vrsub d a b => some ⟨0x2a#6, d, a, b.num, (0x2#5 ++ b.rep3)⟩
  | .vneg d a => some ⟨0x2a#6, d, a, 0x0#6, 0x18#8⟩
  | .vabs d a => some ⟨0x2a#6, d, a, 0x0#6, 0x20#8⟩
  | .vmul d a b => some ⟨0x2a#6, d, a, b.num, (0x5#5 ++ b.rep3)⟩
  | .vmulh d a b => some ⟨0x2a#6, d, a, b.num, (0x6#5 ++ b.rep3)⟩
  | .vmac d a b => some ⟨0x2a#6, d, a, b.num, (0x7#5 ++ b.rep3)⟩
  | .vmacp d a b => some ⟨0x2a#6, d, a, b.num, (0x8#5 ++ b.rep3)⟩
  | .vdiv d a b => some ⟨0x2a#6, d, a, b.num, (0x9#5 ++ b.rep3)⟩
  | .vrem d a b => some ⟨0x2a#6, d, a, b.num, (0xa#5 ++ b.rep3)⟩
  | .vmin d a b => some ⟨0x2a#6, d, a, b.num, (0xb#5 ++ b.rep3)⟩
  | .vmax d a b => some ⟨0x2a#6, d, a, b.num, (0xc#5 ++ b.rep3)⟩
  | .vshl d a b => some ⟨0x2a#6, d, a, b.num, (0xd#5 ++ b.rep3)⟩
  | .vshr d a b => some ⟨0x2a#6, d, a, b.num, (0xe#5 ++ b.rep3)⟩
  | .vrshr d a b => some ⟨0x2a#6, d, a, b.num, (0xf#5 ++ b.rep3)⟩
  | .vsat d a => some ⟨0x2a#6, d, a, 0x0#6, 0x80#8⟩
  | .vmov d a => some ⟨0x2a#6, d, a, 0x0#6, 0x88#8⟩
  | .vcvt d a => some ⟨0x2a#6, d, a, 0x0#6, 0x90#8⟩
  | .vclz d a => some ⟨0x2a#6, d, a, 0x0#6, 0x98#8⟩
  | .vpopc d a => some ⟨0x2a#6, d, a, 0x0#6, 0xa0#8⟩
  | .vfadd d a b => some ⟨0x2b#6, d, a, b.num, (0x0#5 ++ b.rep3)⟩
  | .vfsub d a b => some ⟨0x2b#6, d, a, b.num, (0x1#5 ++ b.rep3)⟩
  | .vfmul d a b => some ⟨0x2b#6, d, a, b.num, (0x2#5 ++ b.rep3)⟩
  | .vfdiv d a b => some ⟨0x2b#6, d, a, b.num, (0x3#5 ++ b.rep3)⟩
  | .vfsqrt d a => some ⟨0x2b#6, d, a, 0x0#6, 0x20#8⟩
  | .vfmin d a b => some ⟨0x2b#6, d, a, b.num, (0x5#5 ++ b.rep3)⟩
  | .vfmax d a b => some ⟨0x2b#6, d, a, b.num, (0x6#5 ++ b.rep3)⟩
  | .vfabs d a => some ⟨0x2b#6, d, a, 0x0#6, 0x38#8⟩
  | .vfneg d a => some ⟨0x2b#6, d, a, 0x0#6, 0x40#8⟩
  | .vfcvt d a t => some ⟨0x2b#6, d, a, t.code, 0x48#8⟩
  | .vtrust d a => some ⟨0x2b#6, d, a, 0x0#6, 0x50#8⟩
  | .vtrset d a b => some ⟨0x2b#6, d, a, b.num, (0xb#5 ++ b.rep3)⟩
  | .vfexp2 d a => some ⟨0x2b#6, d, a, 0x0#6, 0x60#8⟩
  | .vflog2 d a => some ⟨0x2b#6, d, a, 0x0#6, 0x68#8⟩
  | .vfrcp d a => some ⟨0x2b#6, d, a, 0x0#6, 0x70#8⟩
  | .vfrsq d a => some ⟨0x2b#6, d, a, 0x0#6, 0x78#8⟩
  | .vfma d a b c => some ⟨0x2c#6, d, a, b, (c ++ 0x0#2)⟩
  | .vfms d a b c => some ⟨0x2c#6, d, a, b, (c ++ 0x1#2)⟩
  | .vfnma d a b c => some ⟨0x2c#6, d, a, b, (c ++ 0x2#2)⟩
  | .vfnms d a b c => some ⟨0x2c#6, d, a, b, (c ++ 0x3#2)⟩
  | .vand d a b => some ⟨0x2d#6, d, a, b.num, (0x0#5 ++ b.rep3)⟩
  | .vor d a b => some ⟨0x2d#6, d, a, b.num, (0x1#5 ++ b.rep3)⟩
  | .vxor d a b => some ⟨0x2d#6, d, a, b.num, (0x2#5 ++ b.rep3)⟩
  | .vandn d a b => some ⟨0x2d#6, d, a, b.num, (0x3#5 ++ b.rep3)⟩
  | .vnot d a => some ⟨0x2d#6, d, a, 0x0#6, 0x20#8⟩
  | .vsel d a b => some ⟨0x2d#6, d, a, b.num, (0x5#5 ++ b.rep3)⟩
  | .vcmpEq k m a b => some ⟨0x2e#6, (k ++ m), a, b.num, (0x0#5 ++ b.rep3)⟩
  | .vcmpNe k m a b => some ⟨0x2e#6, (k ++ m), a, b.num, (0x1#5 ++ b.rep3)⟩
  | .vcmpLt k m a b => some ⟨0x2e#6, (k ++ m), a, b.num, (0x2#5 ++ b.rep3)⟩
  | .vcmpLe k m a b => some ⟨0x2e#6, (k ++ m), a, b.num, (0x3#5 ++ b.rep3)⟩
  | .vcmpGt k m a b => some ⟨0x2e#6, (k ++ m), a, b.num, (0x4#5 ++ b.rep3)⟩
  | .vcmpGe k m a b => some ⟨0x2e#6, (k ++ m), a, b.num, (0x5#5 ++ b.rep3)⟩
  | .vcmpTrlt k m a => some ⟨0x2e#6, (k ++ m), a, 0x0#6, 0x30#8⟩
  | .vcmpNan k m a => some ⟨0x2e#6, (k ++ m), a, 0x0#6, 0x38#8⟩
  | .vcmpInf k m a => some ⟨0x2e#6, (k ++ m), a, 0x0#6, 0x40#8⟩
  | .vsrch k m a y z => some ⟨0x2f#6, (k ++ m), a, y, (z ++ 0x0#2)⟩
  | .vwrt k a y z => some ⟨0x2f#6, (k ++ 0x0#2), a, y, (z ++ 0x1#2)⟩
  | .kand d a b => some ⟨0x30#6, (d ++ (a.extractLsb' 2 2)), ((a.extractLsb' 0 2) ++ b), 0x0#6, 0x0#8⟩
  | .kor d a b => some ⟨0x30#6, (d ++ (a.extractLsb' 2 2)), ((a.extractLsb' 0 2) ++ b), 0x0#6, 0x1#8⟩
  | .kxor d a b => some ⟨0x30#6, (d ++ (a.extractLsb' 2 2)), ((a.extractLsb' 0 2) ++ b), 0x0#6, 0x2#8⟩
  | .kandn d a b => some ⟨0x30#6, (d ++ (a.extractLsb' 2 2)), ((a.extractLsb' 0 2) ++ b), 0x0#6, 0x3#8⟩
  | .knot d a => some ⟨0x30#6, (d ++ (a.extractLsb' 2 2)), ((a.extractLsb' 0 2) ++ 0x0#4), 0x0#6, 0x4#8⟩
  | .kmov d a => some ⟨0x30#6, (d ++ (a.extractLsb' 2 2)), ((a.extractLsb' 0 2) ++ 0x0#4), 0x0#6, 0x5#8⟩
  | .kset d => some ⟨0x30#6, (d ++ 0x0#2), 0x0#6, 0x0#6, 0x6#8⟩
  | .kclr d => some ⟨0x30#6, (d ++ 0x0#2), 0x0#6, 0x0#6, 0x7#8⟩
  | .kpop a x => some ⟨0x30#6, (0x0#4 ++ (a.extractLsb' 2 2)), ((a.extractLsb' 0 2) ++ 0x0#4), x, 0x8#8⟩
  | .kfirst d a x => some ⟨0x30#6, (d ++ (a.extractLsb' 2 2)), ((a.extractLsb' 0 2) ++ 0x0#4), x, 0x9#8⟩
  | .kone d x => some ⟨0x30#6, (d ++ 0x0#2), 0x0#6, x, 0xa#8⟩
  | .kshift d a x => some ⟨0x30#6, (d ++ (a.extractLsb' 2 2)), ((a.extractLsb' 0 2) ++ 0x0#4), x, 0xb#8⟩
  | .kfrom d x => some ⟨0x30#6, (d ++ 0x0#2), 0x0#6, x, 0xc#8⟩
  | .kto a x => some ⟨0x30#6, (0x0#4 ++ (a.extractLsb' 2 2)), ((a.extractLsb' 0 2) ++ 0x0#4), x, 0xd#8⟩
  | .vrsum d a => some ⟨0x31#6, d, a, 0x0#6, 0x0#8⟩
  | .vrmin d a => some ⟨0x31#6, d, a, 0x0#6, 0x8#8⟩
  | .vrmax d a => some ⟨0x31#6, d, a, 0x0#6, 0x10#8⟩
  | .vrand d a => some ⟨0x31#6, d, a, 0x0#6, 0x18#8⟩
  | .vror d a => some ⟨0x31#6, d, a, 0x0#6, 0x20#8⟩
  | .vrxor d a => some ⟨0x31#6, d, a, 0x0#6, 0x28#8⟩
  | .vrfsum d a => some ⟨0x31#6, (0x0#1 ++ d), a, 0x0#6, 0x30#8⟩
  | .vrfmax d a => some ⟨0x31#6, (0x0#1 ++ d), a, 0x0#6, 0x38#8⟩
  | .vrfmin d a => some ⟨0x31#6, (0x0#1 ++ d), a, 0x0#6, 0x40#8⟩
  | .vrargmax d a => some ⟨0x31#6, d, a, 0x0#6, 0x48#8⟩
  | .vrargmin d a => some ⟨0x31#6, d, a, 0x0#6, 0x50#8⟩
  | .vextr d a b => some ⟨0x31#6, d, a, b, 0x59#8⟩
  | .vtopk k a b => some ⟨0x32#6, (k ++ 0x0#2), a, b, 0x1#8⟩
  | .vbotk k a b => some ⟨0x32#6, (k ++ 0x0#2), a, b, 0x9#8⟩
  | .vmaxt k a => some ⟨0x32#6, (k ++ 0x0#2), a, 0x0#6, 0x10#8⟩
  | .vmint k a => some ⟨0x32#6, (k ++ 0x0#2), a, 0x0#6, 0x18#8⟩
  | .vconf k a => some ⟨0x32#6, (k ++ 0x0#2), a, 0x0#6, 0x20#8⟩
  | .vneark k a b => some ⟨0x32#6, (k ++ 0x0#2), a, b, 0x29#8⟩
  | .vslideup d a b => some ⟨0x33#6, d, a, b, 0x1#8⟩
  | .vslidedn d a b => some ⟨0x33#6, d, a, b, 0x9#8⟩
  | .vslidein d a b => some ⟨0x33#6, d, a, b, 0x11#8⟩
  | .vperm d a b => some ⟨0x33#6, d, a, b.num, (0x3#5 ++ b.rep3)⟩
  | .vcompact d => some ⟨0x33#6, d, 0x0#6, 0x0#6, 0x20#8⟩
  | .vscan d a => some ⟨0x33#6, d, a, 0x0#6, 0x28#8⟩
  | .viota d => some ⟨0x33#6, d, 0x0#6, 0x0#6, 0x30#8⟩
  | .vbcast d a b => some ⟨0x33#6, d, a, b, 0x39#8⟩
  | .vldu d a => some ⟨0x34#6, d, a, 0x0#6, 0x0#8⟩
  | .vlds d a b => some ⟨0x34#6, d, a, b, 0x9#8⟩
  | .vldx d a b => some ⟨0x34#6, d, a, b.num, (0x2#5 ++ b.rep3)⟩
  | .vldl d a b => some ⟨0x34#6, d, a, b.num, (0x3#5 ++ b.rep3)⟩
  | .vstu d a => some ⟨0x35#6, d, a, 0x0#6, 0x0#8⟩
  | .vsts d a b => some ⟨0x35#6, d, a, b, 0x9#8⟩
  | .vstx d a b => some ⟨0x35#6, d, a, b.num, (0x2#5 ++ b.rep3)⟩
  | .vstadd d a b => some ⟨0x35#6, d, a, b.num, (0x3#5 ++ b.rep3)⟩
  | .vstef d a t => some ⟨0x35#6, d, a, t.code, 0x20#8⟩
  | .vstl d a b => some ⟨0x35#6, d, a, b.num, (0x5#5 ++ b.rep3)⟩
  | .vsoft d a b => some ⟨0x36#6, d, a, (0x0#1 ++ b), 0x2#8⟩
  | .vcollapse d a b => some ⟨0x36#6, d, a, b, 0x9#8⟩
  | .fmap v b w t => some ⟨0x37#6, v, (b.extractLsb' 4 6), ((b.extractLsb' 0 4) ++ (w.extractLsb' 5 2)), ((w.extractLsb' 0 5) ++ 0x0#2 ++ (BitVec.ofBool t))⟩
  | .mcfg a n => some ⟨0x38#6, a, 0x0#6, 0x0#6, (n ++ 0x0#6)⟩
  | .mwld a b n => some ⟨0x38#6, a, b, 0x0#6, (n ++ 0x1#6)⟩
  | .mwlds a b c n => some ⟨0x38#6, a, b, c, (n ++ 0x2#6)⟩
  | .mstr a b n => some ⟨0x38#6, a, b, 0x0#6, (n ++ 0x3#6)⟩
  | .mdrn a b n => some ⟨0x38#6, a, b, 0x0#6, (n ++ 0x4#6)⟩
  | .mdrnv a b n => some ⟨0x38#6, a, b, 0x0#6, (n ++ 0x5#6)⟩
  | .mzero n => some ⟨0x38#6, 0x0#6, 0x0#6, 0x0#6, (n ++ 0x6#6)⟩
  | .mchk a n => some ⟨0x38#6, a, 0x0#6, 0x0#6, (n ++ 0x7#6)⟩
  | .spcomp a b c => some ⟨0x38#6, a, b, c, 0x8#8⟩
  | .arrinit d a b => some ⟨0x39#6, d, a, b, 0x4#8⟩
  | .arradd d a b => some ⟨0x39#6, d, a, b, 0x5#8⟩
  | .arrwait d a b => some ⟨0x39#6, d, a, b, 0x6#8⟩
  | .srr d i => some ⟨0x3b#6, d, 0x0#6, (0x0#2 ++ (i.extractLsb' 8 4)), (i.extractLsb' 0 8)⟩
  | .srw a i => some ⟨0x3c#6, 0x0#6, a, (0x0#2 ++ (i.extractLsb' 8 4)), (i.extractLsb' 0 8)⟩
  | .nop => some ⟨0x1#6, 0x0#6, 0x0#6, 0x0#6, 0x0#8⟩
  | .eret => some ⟨0x1#6, 0x0#6, 0x0#6, 0x0#6, 0x2#8⟩
  | .wfe => some ⟨0x1#6, 0x0#6, 0x0#6, 0x0#6, 0x3#8⟩
  | .yield => some ⟨0x1#6, 0x0#6, 0x0#6, 0x0#6, 0x4#8⟩
  | .halt => some ⟨0x1#6, 0x0#6, 0x0#6, 0x0#6, 0x5#8⟩
  | .bkpt => some ⟨0x1#6, 0x0#6, 0x0#6, 0x0#6, 0x6#8⟩
  | .synci => some ⟨0x1#6, 0x0#6, 0x0#6, 0x0#6, 0x7#8⟩
  | .vjoin => some ⟨0x1#6, 0x0#6, 0x0#6, 0x0#6, 0x8#8⟩
  | .unboost => some ⟨0x1#6, 0x0#6, 0x0#6, 0x0#6, 0xa#8⟩
  | .fenceSv => some ⟨0x18#6, 0x0#6, 0x0#6, 0x0#6, 0xc#8⟩
  | .fenceVs => some ⟨0x18#6, 0x0#6, 0x0#6, 0x0#6, 0xd#8⟩
  | .twait => some ⟨0x18#6, 0x0#6, 0x0#6, 0x0#6, 0x10#8⟩
  | .pend => some ⟨0x28#6, 0x0#6, 0x4#6, 0x0#6, 0x0#8⟩
  | .pwait => some ⟨0x28#6, 0x0#6, 0xc#6, 0x0#6, 0x0#8⟩
  | .cpyg2l d a b => some ⟨0x39#6, d, a, b, 0x0#8⟩
  | .cpyl2g d a b => some ⟨0x39#6, d, a, b, 0x1#8⟩
  | .cpyl2l d a b => some ⟨0x39#6, d, a, b, 0x2#8⟩
  | .cpyg2g d a b => some ⟨0x39#6, d, a, b, 0x3#8⟩
  | .cpywait d => some ⟨0x39#6, d, 0x0#6, 0x0#6, 0x7#8⟩
  | .colrs d a b => some ⟨0x3a#6, d, a, b, 0x0#8⟩
  | .colag d a b => some ⟨0x3a#6, d, a, b, 0x1#8⟩
  | .colar d a b => some ⟨0x3a#6, d, a, b, 0x2#8⟩
  | .colrot d a b => some ⟨0x3a#6, d, a, b, 0x3#8⟩
  | .colwait d a => some ⟨0x3a#6, d, a, 0x0#6, 0x4#8⟩
  | .colstat d a => some ⟨0x3a#6, d, a, 0x0#6, 0x5#8⟩
  | .ctxctlMakeValid => none
  | .ctxctlClearValid => none
  | .ctxctlKill => none
  | .coolDown => none
  | .go => none
  | .warmUp => none
  | .attest => none
  | .activateStagedImage => none
  | .powerOn => none
  | .bootSlotTimeout => none
  | .imageStartTimeout => none
  | .packageReset => none
  | .functionLevelReset => none
  | .microcodeLoadTimeLimit => none
  | .purgeComplete => none
  | .soakComplete => none
  | .criticalSaveDeadline => none
  | .criticalRailsOff => none
  | .refreshOff => none
  | .powerStepUndo => none
  | .mailboxCommandDone => none
  | .registerWrite _ _ _ => none
  | .flagsWrite _ => none
  | .fpheadWrite _ => none
  | .checkedModeSet _ => none
  | .dbgselWrite _ => none
  | .rowselWrite _ _ => none
  | .qtailDoorbell _ _ => none
  | .qstatHaltedClear _ => none
  | .queueDisable _ => none
  | .preemptRequest _ => none
  | .restoreRequest _ => none
  | .migrationRequest _ _ => none
  | .groupEnable _ _ => none
  | .groupWithdraw _ _ => none
  | .readCertificateChain _ => none
  | .stageImagePart _ => none
  | .loadMicrocodeTable _ => none
  | .retrainPeerPort _ => none
  | .recalibrateHbmChannel _ => none
  | .substituteSpareCore _ => none
  | .mailboxUnknownOp _ => none
  | .msirqWrite _ => none
  | .msixUnmask _ => none
  | .hostBar2Write _ _ => none
  | .hostBar2Read _ _ => none
  | .hostCompletion _ _ _ => none
  | .launchHeadService _ => none
  | .launchRetry _ => none
  | .heldStart _ => none
  | .threadStart _ => none
  | .resumeListRestore _ => none
  | .threadAged _ => none
  | .yieldExpiry _ => none
  | .wfeWake _ => none
  | .wfeTimeout _ => none
  | .plyBlockStart _ _ => none
  | .matrixOperationStart _ => none
  | .matrixCheckResult _ _ => none
  | .checkedModeCheckResult _ _ => none
  | .committedStorePerform _ => none
  | .stripErrorDetected _ _ _ => none
  | .stripSettle _ => none
  | .trapDelivery _ => none
  | .contextSave _ => none
  | .contextRestore _ _ => none
  | .streamComplete _ => none
  | .forwardingEntryExpiry _ => none
  | .loadDataArrival _ _ => none
  | .acquireRetire _ _ => none
  | .sliceOperation _ => none
  | .casTurnExpiry _ => none
  | .hbmFill _ => none
  | .replicaLock _ => none
  | .replicaUpdate _ => none
  | .pageWalk _ _ => none
  | .invalidationComplete _ => none
  | .arrwaitWake _ => none
  | .arrwaitReread _ => none
  | .copyChunk _ => none
  | .copyChunkFail _ _ => none
  | .copyDataFrameRx _ _ => none
  | .remoteReadRequestRx _ _ => none
  | .remoteReadDataRx _ _ => none
  | .collectiveDataFrameRx _ _ => none
  | .hopReceiptRx _ => none
  | .deliveryReceiptRx _ _ => none
  | .slotReceiptRx _ _ => none
  | .refusalRx _ _ _ => none
  | .linkTimeout _ => none
  | .linkDown _ => none
  | .linkTrained _ => none
  | .pathTimeout _ => none
  | .groupTimeout _ => none
  | .sensorSample _ _ _ _ _ _ => none
  | .criticalMark _ => none
  | .refreshBurstComplete _ => none
  | .powerMeasurement _ => none
  | .leaseExpiry _ => none
  | .bandReady _ _ => none
  | .regulatorHeadroomLow _ => none
  | .chainpRestore _ => none
  | .frequencyTransitionSettle _ => none
  | .plyDrowsy _ _ => none
  | .plyWake _ _ => none
  | .backgroundScrub _ _ => none
  | .wordNotAnInstruction _ => none
  | .instructionFetchFault _ => none
  | .microcodePlyLoaded _ _ => none
  | .boostAnswer _ _ => none
  | .resizableBarWrite _ => none

/-- The word of an instruction: the sum of R189. -/
def encode (i : Instr) : Option IWord := (encodeFields i).map Fields.toWord

/-- The word of an instruction, 0 for a step that has no word: what TVAL reports (Table 16.1). -/
def wordOf (i : Instr) : IWord := (encode i).getD 0

end Sys2Proof
end

