-- ==== Sys2Proof/Machine/Sparse.lean ====
section
/-! DEFINITION. Sparse collections: lists of (key, value) pairs with keys strictly rising and no value equal to the one an
unlisted key reads as. Memory, rows, tags, caches and tables are held this way. -/
namespace Sys2Proof.Machine

/-- The value at a key; `d` where the key is not listed. -/
def look {α : Type} (d : α) : List (Nat × α) → Nat → α
  | [], _ => d
  | (k, v) :: m, x => if x = k then v else if x < k then d else look d m x

/-- The pairs with a key above `k`, once those at or below it are left out of the front. -/
def skip {α : Type} (k : Nat) : List (Nat × α) → List (Nat × α)
  | [] => []
  | (k', v') :: m => if k' ≤ k then skip k m else (k', v') :: m

/-- Give a key a value; the value of an unlisted key removes the entry. -/
def put {α : Type} [DecidableEq α] (d : α) : List (Nat × α) → Nat → α → List (Nat × α)
  | [], k, v => if v = d then [] else [(k, v)]
  | (k', v') :: m, k, v =>
    if k < k' then (if v = d then (k', v') :: m else (k, v) :: (k', v') :: m)
    else if k = k' then (if v = d then skip k m else (k, v) :: skip k m)
    else (k', v') :: put d m k v

/-- The canonical form: keys strictly rising above `lo`, no value equal to `d`. -/
def canonFrom {α : Type} [DecidableEq α] (d : α) : Option Nat → List (Nat × α) → Bool
  | _, [] => true
  | lo, (k, v) :: m =>
    (match lo with | none => true | some l => decide (l < k)) && decide (v ≠ d) && canonFrom d (some k) m

/-- The canonical form of a sparse collection. -/
def canon {α : Type} [DecidableEq α] (d : α) (m : List (Nat × α)) : Bool := canonFrom d none m

end Sys2Proof.Machine
end

