-- ==== Sys2Proof/Machine/State.lean ====
section
/-! DEFINITION. Everything the specification lets a program, a supervisor, a debugger, the host or a peer read, write or
see take effect: the state of threads, plies, cores, contexts, dies and the package (07 R155, Table 7.1), with the work
the agents of the package have still to do. Plain data throughout. Sparse collections are lists of (key, value) pairs in
one canonical form: keys strictly rising, no value equal to what an unlisted key reads as. -/
namespace Sys2Proof.Machine
open Sys2Proof

/-- Why the machine stops. -/
inductive Fault where
  /-- A word of the control stream or of a block is executed while no thread is in focus: raised by every word's meaning.
  No step raises it. Safe. -/
  | noThread
  deriving DecidableEq, Repr

/-- Why an instruction has no meaning. -/
inductive Refusal where
  /-- The arm of an instruction that is not modelled yet. Safe. -/
  | notModelled (mnemonic : String)
  deriving DecidableEq, Repr

/-- A set of taint identifiers (R95). -/
abbrev Taint := BitVec 16

/-- An f-register: 64 bits, trust count T, format tag FT (R156). -/
structure FReg where
  bits : Dword
  trust : BitVec 6
  ft : Bool
  deriving DecidableEq, Repr

/-- A mapped field-map entry: base column, width 1 to 64, trust flag (R27). -/
structure FieldEnt where
  base : BitVec 10
  width : BitVec 7
  trust : Bool
  deriving DecidableEq, Repr

/-- The weight plane, shape and count of an accumulator (R282, R286, R296). Weights are keyed 64k + n. `sums` is the hidden checksum
column, in units of 2^-1074 for float formats: c[k] by k, `none` where the sum is not finite. -/
structure Plane where
  valid : Bool
  damaged : Bool
  weights : List (Nat × Dword)
  k : BitVec 7
  n : BitVec 7
  fmt : BitVec 4
  nf : Dword
  sums : List (Nat × Option Int)
  sparse : Bool
  atype : BitVec 2
  bands : BitVec 4
  count : BitVec 32
  deriving DecidableEq, Repr

/-- An accumulator tile: elements and trust keyed 64 row + column (R157), with its plane. -/
structure Tile where
  el : List (Nat × BitVec 32)
  tr : List (Nat × BitVec 6)
  plane : Plane
  deriving DecidableEq, Repr

/-- A block as it was dispatched (R134): its words, the address of its first word, the copies it captured, its number in
dispatch order, and whether it is one word of the control stream (R137). -/
structure Block where
  seq : Nat
  words : List IWord
  addr : Dword
  one : Bool
  mode : BitVec 26
  vl : BitVec 13
  ctl : Taint
  nf : Vector Dword 8
  deriving DecidableEq, Repr

/-- Where a ply that runs a block waits (R141, R143); `held` where it stands at a restart point of its word (R238, R340). -/
inductive PlyWait where
  | running
  | splice
  | crossing
  | held
  deriving DecidableEq, Repr

/-- A trap to be reported (R332): code, sub-cause, operand position, value, index and count. -/
structure TrapInfo where
  code : BitVec 8
  sub : BitVec 8
  opnd : BitVec 4
  val : Dword
  index : BitVec 32
  count : BitVec 32
  deriving DecidableEq, Repr

/-- The block a ply runs, with the ply's own PC and copies (R135); `blk` is the present link of a PFETCH chain and
`origin` the dispatched block it continues. -/
structure Running where
  origin : Nat
  blk : Block
  pc : Dword
  mode : BitVec 26
  vl : BitVec 13
  ctl : Taint
  wait : PlyWait
  deriving DecidableEq, Repr

/-- An owned ply (R134, R135, R144, R353): queue without the running block, running block, the fault that stopped it with
CYCLES at its detection, whether it is drowsy. -/
structure Ply where
  queue : List Block
  run : Option Running
  stopped : Option (TrapInfo × Dword)
  drowsy : Bool
  deriving DecidableEq, Repr

/-- Where a buffered store is performed (R345). -/
inductive Place where
  /-- Memory, by the physical address of replica 0; `cached` tells class "cached" from "L2-only", `repl` is REPL. -/
  | mem (pa : Nat) (cached : Bool) (repl : BitVec 2)
  /-- A device-class access to MMIO or host memory. -/
  | dev (pa : Nat)
  /-- A byte of a physical row of a core's store. -/
  | row (core : BitVec 12) (p : BitVec 12) (byte : BitVec 7)
  /-- A word of an arrival-word page, by its key in `State.arr`. Stores never reach one (R15). -/
  | arr (key : Nat)
  deriving DecidableEq, Repr

/-- The addition a scatter-add update makes (Table 3.6): element type, element bytes, saturation, rounding. -/
structure AddOp where
  ty : EType
  bytes : BitVec 4
  sat : Bool
  round : BitVec 3
  deriving DecidableEq, Repr

/-- What a buffered store does at its place: it writes bytes there, or it is the update of one line that carries the partial
of each element that it addresses, by the element's physical address at replica 0 (R80). -/
inductive StoreOp where
  | write (bytes : List Byte)
  | add (op : AddOp) (parts : List (Nat × Dword))
  deriving DecidableEq, Repr

/-- The translation an access used (R56): CTXID tag, page number of 64 KiB, whether the entry maps 512 MiB. -/
structure TlbKey where
  tag : BitVec 16
  page : BitVec 40
  big : Bool
  deriving DecidableEq, Repr

/-- A store or update in the strip store buffer, or committed and not yet performed (R82, R345). `vec` marks the
vector stream, `seen` that the thread's other stream is ordered after it (R102), `via` names its translation (R57). -/
structure Buffered where
  vec : Bool
  seen : Bool
  via : Option TlbKey
  place : Place
  op : StoreOp
  deriving DecidableEq, Repr

/-- The items R344 tracks: one bit for each s-register, f-register, column group, tag and accumulator. The nf registers need
none: only SRW writes them, and it marks the strip itself (R343). -/
structure Marks where
  s : BitVec 64
  f : BitVec 32
  g : BitVec 16
  k : BitVec 16
  acc : BitVec 4
  deriving DecidableEq, Repr

/-- A strip's checkpoint (R341), with the blocks the plies held where it opened: those that an ERET has taken up again (R340).
`long` is present when the strip opened at trap entry or at ERET. -/
structure Checkpoint where
  pc : Dword
  vl : BitVec 13
  mode : BitVec 26
  scm : Dword
  s : Vector Dword 64
  efr : Vector Dword 32
  plies : Vector Ply 16
  long : Option (Bool × Vector Dword 64 × Dword × Dword × Dword × BitVec 10)
  deriving DecidableEq, Repr

/-- A matrix check that has not ended (R294, R296): its accumulator, the address of its row of A, whether its sums differ. -/
structure MatCheck where
  acc : BitVec 2
  addr : Dword
  differs : Bool
  deriving DecidableEq, Repr

/-- The open strip (R341 to R348). `checks` counts the checked-mode checks that have not ended, `mchecks` lists the matrix checks
that have not (R294, R348). -/
structure Strip where
  buf : List Buffered
  ckpt : Checkpoint
  rewindable : Bool
  readFirst : Marks
  written : Marks
  pins : List Nat
  error : Option (BitVec 3 × Dword)
  checks : Nat
  mchecks : List MatCheck
  rewinds : Nat
  deriving DecidableEq, Repr

/-- The trap registers of Table 16.2. -/
structure TrapRegs where
  vbase : Dword
  cause : Dword
  epc : Dword
  val : Dword
  info : Dword
  ppriv : Bool
  svc : Bool
  inh : Bool
  stamp : Dword
  pcause : Dword
  pval : Dword
  pinfo : Dword
  pstamp : Dword
  lease : Dword
  tbqa : Vector Dword 4
  tbqm : Vector Dword 4
  tppc : Vector Dword 16
  tpbs : Vector Dword 16
  tpmd : Vector Dword 16
  deriving DecidableEq, Repr

/-- Why a thread sleeps or waits for an answer (R212, R213, R215, R124). -/
inductive Sleep where
  | awake
  | wfe
  | arrwait
  | arrread
  | yield
  /-- waits in a COLWAIT that has sent its receipts: the group -/
  | colwait (g : BitVec 6)
  /-- waits for the answer to a BOOST: destination, bands, microseconds asked for -/
  | boost (d : BitVec 6) (bands : BitVec 4) (us : BitVec 10)
  deriving DecidableEq, Repr

/-- One to four bound ranges and a scope (R87): the ranges an acquire's walk covers. -/
structure Binding where
  object : Dword
  scope : BitVec 3
  ranges : List (Dword × Dword)
  deriving DecidableEq, Repr

/-- An outstanding taint identifier (R95) and, for an acquire, the walk that retires it (R92): `none` for an ordinary
load, the binding (or none of its own: all memory, package scope) for an acquire. -/
structure Outstanding where
  id : BitVec 4
  vec : Bool
  acquire : Option (Option Binding)
  deriving DecidableEq, Repr

/-- A debug ring entry (R355). -/
structure DbgEntry where
  e0 : Dword
  e1 : Dword
  e2 : Dword
  deriving DecidableEq, Repr

/-- The taint sets of a thread (R96). -/
structure Taints where
  s : Vector Taint 64
  f : Vector Taint 32
  v : Vector Taint 64
  k : Vector Taint 16
  acc : Vector Taint 4
  plane : Vector Taint 4
  ctl : Taint
  /-- control taints that ended blocks brought to PEND since the last VJOIN (R97) -/
  ended : Taint
  deriving DecidableEq, Repr

/-- The debug registers of R355 and the row snapshot of R356. -/
structure Debug where
  ring : List (Nat × DbgEntry)
  head : BitVec 8
  wrap : Bool
  en : Bool
  sel : BitVec 8
  e0 : Dword
  e1 : Dword
  e2 : Dword
  rowsel : BitVec 12
  rowstat : BitVec 2
  row : Row
  rowtags : BitVec 16
  /-- the newest entry: its block and word, the plies that share it, CYCLES at its retirement -/
  last : Option (Nat × Dword × List Nat × Dword)
  deriving DecidableEq, Repr

/-- The rows of a replicated operand that an owning ply has posted for a sibling that has still to come to the word (R192): the
sibling, the owner, the block and the word; `taken` instead where the sibling has read them while the owner stood at the word. -/
structure SegPost where
  reader : Nat
  owner : Nat
  block : Nat
  pc : Dword
  taken : Bool
  elts : List (Nat × Nat × Nat)
  deriving DecidableEq, Repr

/-- A control thread with everything that belongs to it: Table 7.1. -/
structure Thread where
  live : Bool
  /-- the thread has ended, and its registers stand as it left them until its slot is given again (R25, R146) -/
  ended : Bool
  tid : Tid
  ctx : BitVec 16
  prio : BitVec 3
  tier : BitVec 3
  group : Nat
  rank : BitVec 16
  gsize : BitVec 17
  done : Dword
  base : BitVec 4
  log2n : BitVec 3
  /-- the number of the grant of its plies -/
  grant : Nat
  tiles : BitVec 3
  ceiling : BitVec 13
  pc : Dword
  s : Vector Dword 64
  f : Vector FReg 32
  fmap : Vector (Option FieldEnt) 64
  nf : Vector Dword 8
  mode : BitVec 26
  vl : BitVec 13
  flags : BitVec 8
  scm : Dword
  priv : Bool
  checked : Bool
  spfoot : BitVec 13
  mrow : BitVec 10
  pidx : Dword
  redlo : Dword
  redhi : Dword
  armed : Bool
  fmask : Vector Dword 64
  efr : Vector Dword 32
  sptab : Vector Dword 256
  sporder : List (BitVec 8)
  acc : Vector Tile 4
  taints : Taints
  out : List Outstanding
  trap : TrapRegs
  /-- a trap of the control thread that waits for delivery, with CYCLES at its detection (R335) -/
  pend : Option (TrapInfo × Dword)
  dbg : Debug
  plies : Vector Ply 16
  nextSeq : Nat
  segs : List SegPost
  strip : Strip
  sleep : Sleep
  event : Bool
  line : Option Nat
  copyFails : BitVec 32
  copyCode : BitVec 8
  /-- a running boost lease: its bands and the CYCLES at which it ends -/
  lease : Option (BitVec 4 × Dword)
  aged : Bool
  saveReq : Bool
  migrate : Option (BitVec 12)
  deriving DecidableEq, Repr

/-- Which agent of the thread in focus executes a word: the control thread, or the ply at offset j. -/
inductive Who where
  | control
  | ply (j : BitVec 4)
  deriving DecidableEq, Repr

/-- A context (07 R155, R166; 02 R58, R88). `save` lists (frame, run less 1). -/
structure Ctx where
  valid : Bool
  svfail : Bool
  taskroot : Dword
  xfra : Dword
  savePtr : Dword
  save : List (BitVec 32 × BitVec 8)
  bindings : List (Nat × Binding)
  /-- the header of the save area holds the context's roots and bindings as they stood when its last running thread was saved (R349) -/
  stored : Bool
  lastCore : Option (BitVec 12)
  deriving DecidableEq, Repr

/-- A thread whose image stands in its context's save area (R349, R350), with the recency of its scratchpad table
(log 28), its copies' failures since the last CPYWAIT, the events that have come for it since it was saved (R305,
R307), the flags of its collectives since then (R315), the traps that its save met untaken: its own, and those of its plies by
offset (R336), and the plies of a handler as they stood (log 29). -/
structure Saved where
  ctx : BitVec 16
  entry : BitVec 8
  tid : Tid
  group : Nat
  tier : BitVec 3
  prio : BitVec 3
  gsize : BitVec 17
  rank : BitVec 16
  done : Dword
  ceiling : BitVec 13
  log2n : BitVec 3
  tiles : BitVec 3
  resume : Bool
  restore : Bool
  sporder : List (BitVec 8)
  copyFails : BitVec 32
  copyCode : BitVec 8
  events : List TrapInfo
  flags : BitVec 8
  pend : Option (TrapInfo × Dword)
  stopped : List (Nat × TrapInfo × Dword)
  plies : List Ply
  deriving DecidableEq, Repr

/-- One way of an L1 set (R65, R66). `home` is the line's address at replica 0 and `repl` its page's REPL (R70, R71). -/
structure L1Way where
  tag : BitVec 33
  valid : BitVec 128
  dirty : BitVec 128
  writer : BitVec 8
  home : Nat
  repl : BitVec 2
  data : Row
  deriving DecidableEq, Repr

/-- The replacement state of an L1 set (R65): the tree bits and each group's ways, most recent first. -/
structure L1Lru where
  tree : BitVec 3
  order : Vector (List (BitVec 2)) 4
  deriving DecidableEq, Repr

/-- A translation held by the L1 TLB of a core or by the TLB of a cluster, whose number `unit` is (R56): its key, its leaf without
SW, and the leaf's address. -/
structure TlbEnt where
  unit : BitVec 12
  key : TlbKey
  leaf : Dword
  at_ : Nat
  deriving DecidableEq, Repr

/-- A table pointer of level 1 or 2 held by the walk cache of a die (R56): CTXID tag, level, the address bits that index the
levels down to it, the entry. -/
structure WalkEnt where
  die : BitVec 3
  tag : BitVec 16
  level : BitVec 2
  index : BitVec 27
  entry : Dword
  deriving DecidableEq, Repr

/-- A line of a home slice (R62). The bytes of HBM stand in `State.mem`, which only slices reach; of a host-memory line the
slice holds its own copy, with the bytes that device writes changed (R63). -/
structure L2Line where
  held : Bool
  dirty : BitVec 128
  data : Row
  deriving DecidableEq, Repr

/-- A scatter-add update of one line on its way to its home slice (R80, R81). -/
structure SliceReq where
  tid : Tid
  repl : BitVec 2
  via : Option TlbKey
  op : AddOp
  parts : List (Nat × Dword)
  deriving DecidableEq, Repr

/-- A write to a replicated line at its coordinator (R71). -/
structure RepReq where
  tid : Option Tid
  via : Option TlbKey
  pa : Nat
  repl : BitVec 2
  bytes : List Byte
  locked : Bool
  deriving DecidableEq, Repr

/-- What an invalidation broadcast is part of (R50, R51, R57). -/
inductive InvalWork where
  | tlbinv
  /-- PGSHARE: the destination leaf's address, the shared leaf, whether it maps 512 MiB, the count that it has left -/
  | share (dst : Nat) (leaf : Dword) (big : Bool) (count : Nat)
  /-- PGDROP: the cleared leaf's address, the leaf as it was, whether it maps 512 MiB, the count that it has found -/
  | drop (at_ : Nat) (leaf : Dword) (big : Bool) (count : Nat)
  deriving DecidableEq, Repr

/-- A TLB invalidation on its way (R57): its thread, the tag (`none` names all), the first page of 64 KiB, the number of
pages (0 names all), and the operand registers of the instruction. -/
structure Inval where
  tid : Tid
  tag : Option (BitVec 16)
  page : BitVec 40
  count : Nat
  work : InvalWork
  d : BitVec 6
  a : BitVec 6
  b : BitVec 6
  deriving DecidableEq, Repr

/-- The age count of a thread that retries an AMOCAS on a location (R107). -/
structure CasAge where
  tid : Tid
  pa : Nat
  age : BitVec 4
  deriving DecidableEq, Repr

/-- Consecutive bytes of a copy or collective operand, at one place: the translation they used, their offset within the operand
and, for rows, the grant under which their ply was owned at issue (R305). -/
structure Run where
  via : Option TlbKey
  place : Place
  len : Nat
  off : Nat
  owner : Option Nat
  deriving DecidableEq, Repr

/-- A side of a copy chunk (R301, R304): bytes of this package as they were translated at issue, a fabric address, or an offset past the
largest window (R21). -/
inductive CopySide where
  | runs (l : List Run)
  | fabric (addr : Dword)
  | beyond
  deriving DecidableEq, Repr

/-- The arrival word a copy names (R117, R302). -/
inductive ArrPlace where
  | page (ctx : BitVec 16) (cluster : BitVec 10) (word : BitVec 9)
  | mem (pa : Nat)
  | fabric (addr : Dword)
  deriving DecidableEq, Repr

/-- What a chunk waits for: nothing, the data of the remote read it sent, the receipt of the frame it sent. -/
inductive ChunkPhase where
  | ready
  | reading (seq : Nat)
  | sent (seq : Nat)
  deriving DecidableEq, Repr

/-- A copy chunk not yet performed (R304): its copy, its issuer, whether the copy is synchronous, the destination address
for reports, its sides, its length, the arrival word with its address, PKRANK and FRTBASE as they stood at issue (R308), the bytes
once they have been read, and the translation that the arrival word used (R57). -/
structure Chunk where
  copy : Nat
  tid : Tid
  group : Nat
  rank : BitVec 16
  ctx : BitVec 16
  sync : Bool
  dstVa : Dword
  src : CopySide
  dst : CopySide
  len : Nat
  arr : Option (ArrPlace × Dword)
  pkrank : BitVec 16
  frtbase : Dword
  data : Option (List Byte)
  phase : ChunkPhase
  arrVia : Option TlbKey
  deriving DecidableEq, Repr

/-- A forwarding entry of a migrated thread's old plies (R152), with the grants of both; `live` until it expires. -/
structure Forward where
  old : Tid
  oldBase : BitVec 4
  oldGrant : Nat
  new : Tid
  newBase : BitVec 4
  newGrant : Nat
  log2n : BitVec 3
  live : Bool
  deriving DecidableEq, Repr

/-- A collective operation not yet carried out at this rank (R311 to R315): its thread, its kind (the function code of
Table 14.5), its operands, E or the length, FMT, the number of slot steps it has sent and of ring steps it has received
with their results, and the bytes of the ring step under way. `begun` says that the group has come to it (R311). A COLROT holds its
step number; `owed` says that the step of the previous rank that belongs to it has not arrived. `tid` is its issuer's slot at issue, whose core names the replicas it reads (R70). -/
structure ColOp where
  group : Nat
  rank : BitVec 16
  ctx : BitVec 16
  kind : BitVec 2
  src : List Run
  dst : List Run
  count : BitVec 28
  fmt : Bool
  tid : Tid
  begun : Bool
  step : Nat
  sent : Nat
  owed : Bool
  holds : List (List Byte)
  acc : List Byte
  deriving DecidableEq, Repr

/-- A collective group: its registers (Table 14.4) and what its engine holds: the slot steps sent and received, the slot
receipts sent and got, the bytes of the step being received, steps of COLROT received before this rank issued its own, the
failure record, the operations in issue order, the frames waiting for their step. -/
structure Group where
  dw : Vector Dword 8
  step : Nat
  received : Nat
  receiptsSent : Nat
  receiptsGot : Nat
  slotBytes : Nat
  early : Nat
  failure : Dword
  ops : List ColOp
  pendingFrames : List ColFrame
  deriving DecidableEq, Repr

/-- A frame this package sent or forwarded, kept until its receipts come (R320). -/
inductive Frame where
  | copy (f : CopyFrame)
  | readReq (f : ReadFrame)
  | readData (f : ReadDataFrame)
  | col (f : ColFrame)
  deriving DecidableEq, Repr

/-- A frame with the port it leaves by; whether this package is its origin; its group and the thread (group, rank, context, slot) that
issued its operation; whether its hop receipt and its delivery receipt are missing; whether it goes by a detour (R309, R320). The
oldest 64 of a port are on the wire. -/
structure Sent where
  port : BitVec 3
  frame : Frame
  own : Bool
  seq : Nat
  group : Option (BitVec 6)
  issuer : Option (Nat × BitVec 16 × BitVec 16 × Tid)
  hop : Bool
  due : Bool
  detoured : Bool
  deriving DecidableEq, Repr

/-- A message this package has sent to another (Table 14.7). -/
inductive Message where
  | delivery (origin : BitVec 16) (seq : Nat) (ovr : Option Overrun)
  | slot (group : BitVec 6) (dest : BitVec 16) (step : Nat)
  | refusal (origin : BitVec 16) (seq : Nat) (code : BitVec 8)
  | hop (port : BitVec 3)
  deriving DecidableEq, Repr

/-- A host queue: Table 15.1 and QSTAT; `part` holds the dwords of its head's record that have been read, by number (R322), `waiting`
its head once it has been read and waits to be placed, `since` the step at which it began to wait (R326). -/
structure Queue where
  base : Dword
  en : Bool
  die : BitVec 3
  log2n : BitVec 5
  head : BitVec 32
  tail : BitVec 32
  halted : Bool
  cause : BitVec 8
  index : BitVec 32
  part : List (Nat × Dword)
  waiting : Option (Vector Dword 8)
  since : Nat
  deriving DecidableEq, Repr

/-- A held start (R326): its queue, its tier and the instance fixed for it, and what has been freed there since and is kept for it: slots and plies
by 8 and 16 times the core, tiles by core, arrival-word pages by cluster. -/
structure Hold where
  queue : BitVec 6
  tier : BitVec 3
  inst : Nat
  slots : List Nat
  plies : List Nat
  tiles : List (Nat × Nat)
  pages : List (Nat × Nat)
  deriving DecidableEq, Repr

/-- A thread reserved and not yet started (R325). -/
structure Reserved where
  tid : Tid
  queue : BitVec 6
  record : Vector Dword 8
  group : Nat
  rank : BitVec 16
  base : BitVec 4
  log2n : BitVec 3
  deriving DecidableEq, Repr

/-- The states of Table 17.3, with the postmaster recovery of R374. -/
inductive PkState where
  | warmService
  | purge
  | descend
  | soak
  | coldReady
  | active
  | quiesce
  | ascend
  | critical
  deriving DecidableEq, Repr

/-- A step taken to lower the package's power (R364), for its undoing. -/
inductive PowerStep where
  | lease
  | bands (core : BitVec 12) (mask : BitVec 4)
  | clock (die : BitVec 3) (old : BitVec 10)
  deriving DecidableEq, Repr

/-- The temperature and power state of the package (17): `temp` is each compute die's sensor, `leases` lists the threads
with a boost lease, oldest first, `capClock` is each die's clock as capping leaves it, `power` and `bandPower` are the last measurements
in milliwatts (R364). -/
structure Thermal where
  temp : Vector (BitVec 10) 8
  stack : Vector (BitVec 10) 16
  band : Vector (BitVec 2) 8
  flow : BitVec 16
  state : PkState
  cmderr : Bool
  ratex : Bool
  crit : BitVec 2
  refresh : Bool
  bursts : BitVec 16
  chainp : Vector (BitVec 6) 8
  bandOff : List (Nat × BitVec 4)
  bandWaking : List (Nat × BitVec 4)
  boosted : List (Nat × BitVec 4)
  pool : Nat
  clock : Vector (BitVec 10) 8
  capClock : Vector (BitVec 10) 8
  settling : List (BitVec 10)
  steps : List PowerStep
  leases : List Tid
  cap : Nat
  power : Nat
  bandPower : List (Nat × Nat)
  deriving DecidableEq, Repr

/-- The host port and the MSI-X function (18). `table` holds the address and data words of the MSI-X table, by their place in it; the mask
bits of its vector control words are `unmasked` (R371). -/
structure HostPort where
  diesel : BitVec 7
  bar2base : BitVec 10
  bar2log : BitVec 4
  msixEnable : Bool
  functionMask : Bool
  unmasked : BitVec 256
  table : List (Nat × BitVec 32)
  pending : BitVec 256
  sent : List (BitVec 8)
  readData : List Byte
  unsupported : Bool
  errors : List (Nat × Bool)
  deriving DecidableEq, Repr

/-- The postmaster: mailbox, firmware slots, microcode (18 R372 to R379). `plyTable` gives the microcode table that a ply
holds, by its number in `tables`, keyed 16 × core + ply; `target` is the number of the table that OP 5 loads. `second` says that the other
slot is being started after one that did not (R374), `since` is CYCLES as the command in progress was written, and `late` that another
write came together with it (R372). -/
structure Postmaster where
  busy : Bool
  op : BitVec 8
  arg : BitVec 32
  err : BitVec 8
  result : BitVec 32
  buffer : List (Nat × Byte)
  slotA : List Byte
  slotB : List Byte
  runsB : Bool
  recovery : Bool
  starting : Bool
  second : Bool
  since : Dword
  late : Bool
  staged : List Byte
  rollbackPm : BitVec 16
  rollbackMc : BitVec 16
  tables : List (List Byte)
  plyTable : List (Nat × Nat)
  target : Nat
  spares : Vector (BitVec 5) 8
  deriving DecidableEq, Repr

/-- The package registers reached by SRR, SRW and MMIO (02, 07, 14, 15, 16). -/
structure Regs where
  suproot : Dword
  altroot : Dword
  fstbase : Dword
  fpbase : Dword
  fptail : BitVec 32
  fphead : BitVec 32
  ctxsel : BitVec 16
  exports : Vector Dword 32
  pkrank : BitVec 16
  frtbase : Dword
  detour : Vector (BitVec 8) 8
  prectl : BitVec 33
  preJob : Option (BitVec 33)
  resctl : BitVec 33
  resJob : Option (BitVec 33)
  sevbase : Dword
  sevhead : BitVec 32
  sevtail : BitVec 32
  sevlost : BitVec 32
  deriving DecidableEq, Repr

/-- The fabric ports (14). -/
structure Fabric where
  alive : BitVec 8
  sent : List Sent
  messages : List Message
  applied : List (BitVec 16 × Nat × Option Overrun)
  seq : Nat
  deriving DecidableEq, Repr

/-- An operation in a core's matrix queue (R328): its thread, the word that issued it by its block and address, the thread's priority
and the tick at issue, the accumulator it names, whether it is an MCHK, and whether the engine has started it. -/
structure MatOp where
  tid : Tid
  word : Nat × Dword
  prio : BitVec 3
  seq : Nat
  acc : BitVec 2
  mchk : Bool
  started : Bool
  deriving DecidableEq, Repr

/-- An active row of a stopped word: its index, and the fields and tags of the word in it, as they were before the word began and as the
stop left them. -/
structure StopRow where
  e : Nat
  before : List Nat
  after : List Nat
  deriving DecidableEq, Repr

/-- A restart point at which a word was stopped (R238), numbered by its passes, of which the passes left are known to give the word's
uninterrupted results from the rows as they stood: the word, its MODE and VL, the point, its other operands and the places of its
fields, its rows (log 53). -/
structure StopPoint where
  word : IWord
  mode : BitVec 26
  vl : Nat
  pass : Nat
  inputs : List Nat
  rows : List StopRow
  deriving DecidableEq, Repr

/-- The machine. The thread in focus is `th`; all other threads are `parked`, in ascending (core, slot). -/
structure State where
  who : Who
  th : Thread
  parked : List Thread
  /-- at which of its restart points the word that executes now is stopped: of the model, set within one step only (log 53) -/
  stopAt : Option Nat
  /-- the slot of each core that issued last (R327) -/
  lastIssue : List (Nat × BitVec 3)
  tick : Nat
  inputs : List Instr
  cycles : Dword
  mem : List Host.Cell
  rows : List (Nat × Row)
  tags : List (Nat × BitVec 16)
  /-- the groups of 64 columns whose parity bit disagrees with the row (R22, R24), by row -/
  badCols : List (Nat × BitVec 16)
  l1 : List (Nat × L1Way)
  l1lru : List (Nat × L1Lru)
  /-- the lines of HBM that hold an uncorrectable error (R62), by line address -/
  eccBad : List (Nat × Bool)
  /-- the lines held by the home slices (R62), by line address -/
  l2 : List (Nat × L2Line)
  /-- lines on the instruction paths of the cores (R214), keyed 2^41 × core + line -/
  ipath : List (Nat × Row)
  tlb : List TlbEnt
  ctlb : List TlbEnt
  wcache : List WalkEnt
  ctxs : List (Nat × Ctx)
  saved : List Saved
  arr : List (Nat × Dword)
  drain : List (Tid × Buffered)
  sliceQ : List SliceReq
  repQ : List RepReq
  ages : List CasAge
  turns : List (Nat × Tid)
  inval : List Inval
  chunks : List Chunk
  nextCopy : Nat
  forwards : List Forward
  groups : List (Nat × Group)
  mq : List MatOp
  /-- what is known of the passes of stopped words, the newest first: of the model (log 53) -/
  points : List StopPoint
  fabric : Fabric
  queues : List (Nat × Queue)
  reserved : List Reserved
  held : List Hold
  resumes : List (Nat × BitVec 3)
  nextGroup : Nat
  nextGrant : Nat
  lastQueue : Vector (BitVec 6) 8
  /-- package-tier heads in their order of arrival at the package block (R326) -/
  packageQ : List (BitVec 6)
  regs : Regs
  thermal : Thermal
  host : HostPort
  pm : Postmaster
  deriving DecidableEq, Repr

/-- An accumulator's plane when its tile is granted (R282, Table 13.2). -/
def Plane.fresh : Plane :=
  { valid := false, damaged := false, weights := [], k := 0, n := 0, fmt := 0, nf := 0, sums := [], sparse := false, atype := 0,
    bands := 0b1111, count := 0 }

/-- A tile when it is granted: zero with T = 0 (R157). -/
def Tile.fresh : Tile := { el := [], tr := [], plane := .fresh }

/-- A ply with no block. -/
def Ply.idle : Ply := { queue := [], run := none, stopped := none, drowsy := false }

/-- No item marked. -/
def Marks.none : Marks := { s := 0, f := 0, g := 0, k := 0, acc := 0 }

/-- Every taint set empty. -/
def Taints.empty : Taints :=
  { s := .replicate 64 0, f := .replicate 32 0, v := .replicate 64 0, k := .replicate 16 0, acc := .replicate 4 0,
    plane := .replicate 4 0, ctl := 0, ended := 0 }

/-- The trap registers at reset: Table 16.2. -/
def TrapRegs.reset : TrapRegs :=
  { vbase := 0x0080000000000000, cause := 0, epc := 0, val := 0, info := 0, ppriv := false, svc := false, inh := false,
    stamp := 0, pcause := 0, pval := 0, pinfo := 0, pstamp := 0, lease := 0, tbqa := .replicate 4 0,
    tbqm := .replicate 4 0, tppc := .replicate 16 0, tpbs := .replicate 16 0, tpmd := .replicate 16 0 }

/-- The debug registers at thread start: R355. -/
def Debug.reset : Debug :=
  { ring := [], head := 0, wrap := false, en := true, sel := 0, e0 := 0, e1 := 0, e2 := 0, rowsel := 0, rowstat := 0,
    row := 0, rowtags := 0, last := none }

/-- A checkpoint of a thread's start. -/
def Checkpoint.fresh : Checkpoint :=
  { pc := 0, vl := 0, mode := 0, scm := 0, s := .replicate 64 0, efr := .replicate 32 0, plies := .replicate 16 .idle,
    long := none }

/-- A strip just opened. -/
def Strip.fresh : Strip :=
  { buf := [], ckpt := .fresh, rewindable := true, readFirst := .none, written := .none, pins := [], error := none,
    checks := 0, mchecks := [], rewinds := 0 }

/-- A slot without a thread; its registers hold what R167 gives a starting thread. -/
def Thread.blank : Thread :=
  { live := false, ended := false, tid := ⟨0, 0⟩, ctx := 0, prio := 0, tier := 0, group := 0, rank := 0, gsize := 1, done := 0, base := 0,
    log2n := 0, grant := 0, tiles := 0, ceiling := 0, pc := 0, s := .replicate 64 0, f := .replicate 32 ⟨0, 0, false⟩,
    fmap := .replicate 64 none, nf := .replicate 8 0, mode := 0, vl := 0, flags := 0, scm := 0, priv := false,
    checked := false, spfoot := 0, mrow := 0, pidx := 0, redlo := 0, redhi := 0, armed := false,
    fmask := .replicate 64 0, efr := .replicate 32 0, sptab := .replicate 256 0,
    sporder := (List.range 256).map (BitVec.ofNat 8), acc := .replicate 4 .fresh, taints := .empty, out := [],
    trap := .reset, pend := none, dbg := .reset, plies := .replicate 16 .idle, nextSeq := 0, segs := [], strip := .fresh,
    sleep := .awake, event := false, line := none, copyFails := 0, copyCode := 0, lease := none, aged := false, saveReq := false, migrate := none }

/-- The package registers at reset: their Reset columns. -/
def Regs.reset : Regs :=
  { suproot := 0, altroot := 0, fstbase := 0, fpbase := 0, fptail := 0, fphead := 0, ctxsel := 0,
    exports := .replicate 32 0, pkrank := 0, frtbase := 0, detour := .replicate 8 0, prectl := 0, preJob := none,
    resctl := 0, resJob := none, sevbase := 0, sevhead := 0, sevtail := 0, sevlost := 0 }

/-- Temperature and power at reset: Tables 17.1 to 17.3, with the first samples of log 20. -/
def Thermal.reset : Thermal :=
  { temp := .replicate 8 80, stack := .replicate 16 80, band := .replicate 8 0, flow := 1000, state := .coldReady,
    cmderr := false, ratex := false, crit := 0, refresh := false, bursts := 0, chainp := .replicate 8 0b111111,
    bandOff := [], bandWaking := [], boosted := [], pool := 100000, clock := .replicate 8 700,
    capClock := .replicate 8 700, settling := [], steps := [], leases := [], cap := 2000000, power := 0, bandPower := [] }

/-- The host port at reset (R369 to R371; log 21). -/
def HostPort.reset : HostPort :=
  { diesel := 0, bar2base := 0, bar2log := 0, msixEnable := false, functionMask := false, unmasked := 0, table := [], pending := 0,
    sent := [], readData := [], unsupported := false, errors := [] }

/-- The postmaster at reset (R372 to R379; log 21). -/
def Postmaster.reset : Postmaster :=
  { busy := false, op := 0, arg := 0, err := 0, result := 0, buffer := [], slotA := [], slotB := [], runsB := false,
    recovery := false, starting := false, second := false, since := 0, late := false, staged := [], rollbackPm := 0, rollbackMc := 0,
    tables := [[]], plyTable := [], target := 0,
    spares := .replicate 8 16 }

/-- The fabric ports at reset. -/
def Fabric.reset : Fabric := { alive := 0xFF, sent := [], messages := [], applied := [], seq := 0 }

/-- The machine right after reset (R167): no thread, no context, every register at its Reset value, nothing listed in
memory. -/
def State.reset : State :=
  { who := .control, th := .blank, parked := [], stopAt := none, lastIssue := [], tick := 0, inputs := [], cycles := 0, mem := [],
    rows := [], tags := [],
    badCols := [], l1 := [], l1lru := [], eccBad := [], l2 := [], ipath := [], tlb := [], ctlb := [], wcache := [], ctxs := [],
    saved := [], arr := [], drain := [], sliceQ := [], repQ := [],
    ages := [], turns := [], inval := [], chunks := [], nextCopy := 0, forwards := [], groups := [], mq := [], points := [],
    fabric := .reset, queues := [], reserved := [], held := [], resumes := [], nextGroup := 0, nextGrant := 0,
    lastQueue := .replicate 8 0, packageQ := [], regs := .reset, thermal := .reset, host := .reset, pm := .reset }

end Sys2Proof.Machine
end

