-- ==== Sys2Proof/Machine/Mem.lean ====
section
/-! DEFINITION. Memory: physical bytes, home slices, the L1 of each core, the stores, translation, and the resolution of a
virtual access into pieces that lie in one line or one row (01, 02, 03). -/
namespace Sys2Proof.Machine
open Sys2Proof

/-! ### Bytes -/

/-- The little-endian value of bytes (R2). -/
def leVal : List Byte → Nat
  | [] => 0
  | b :: bs => b.toNat + 256 * leVal bs

/-- The n low bytes of a value, the least significant first (R2). -/
def leBytes : Nat → Nat → List Byte
  | 0, _ => []
  | n + 1, v => BitVec.ofNat 8 v :: leBytes n (v / 256)

/-- A byte of memory at its home: an unlisted byte reads 0 (log 5). -/
def memByte (m : List Host.Cell) (pa : Nat) : Byte := look 0 m pa

/-- Bytes of memory in address order. -/
def memBytes (m : List Host.Cell) (pa : Nat) : Nat → List Byte
  | 0 => []
  | n + 1 => memByte m pa :: memBytes m (pa + 1) n

/-- Bytes written to memory in address order. -/
def memWrite (m : List Host.Cell) (pa : Nat) : List Byte → List Host.Cell
  | [] => m
  | b :: bs => memWrite (put 0 m pa b) (pa + 1) bs

/-- Memory in canonical form (the interface's requirement on `State.mem`). -/
def Memory.wf (m : List Host.Cell) : Bool := canon 0 m

/-- A dword of memory at its home. -/
def memDword (m : List Host.Cell) (pa : Nat) : Dword := BitVec.ofNat 64 (leVal (memBytes m pa 8))

/-- A dword written to memory at its home. -/
def memPutDword (m : List Host.Cell) (pa : Nat) (v : Dword) : List Host.Cell := memWrite m pa (leBytes 8 v.toNat)

/-- Whether a physical address lies in HBM: Table 1.3. -/
def isHbm (pa : Nat) : Bool := decide (pa < 0x10000000000)
/-- Whether it lies in host memory: Table 1.3. -/
def isHost (pa : Nat) : Bool := decide (0x800000000000 ≤ pa) && decide (pa < 0xF00000000000)
/-- Whether it lies in the MMIO range: Table 1.3. -/
def isMmio (pa : Nat) : Bool := decide (0xF00000000000 ≤ pa) && decide (pa < 0x1000000000000)

/-- Whether an MMIO address is not reserved: Table 1.4. -/
def mmioExists (pa : Nat) : Bool :=
  let o := pa - 0xF00000000000
  isMmio pa && (decide (o < 0x80000000) || (decide (0x80000000 ≤ o) && decide (o < 0xA0000000)))

/-! ### Geometry: R9, R29 -/

/-- The stack group of a core (R9). -/
def stackGroup (core : BitVec 12) : Nat := core.toNat / 256
/-- The die of a core (R9). -/
def dieOf (core : BitVec 12) : Nat := core.toNat / 512
/-- The cluster of a core within the package: core div 4. -/
def clusterOf (core : BitVec 12) : BitVec 10 := core.extractLsb' 2 10

/-- The number of plies a thread owns. -/
def Thread.n (t : Thread) : Nat := 2 ^ t.log2n.toNat

/-- The physical row of a logical row: R29. -/
def physRow (base : BitVec 4) (n e : Nat) : Nat :=
  let s := e / n
  let j := (e % n) ^^^ (s % n)
  256 * (base.toNat + j) + s

/-- The logical row of slot s of the ply at offset j: R29. -/
def logRow (n j s : Nat) : Nat := s * n + (j ^^^ (s % n))

/-- The key of a physical row of a core in `State.rows` and `State.tags`. -/
def rowKey (core : BitVec 12) (p : Nat) : Nat := 4096 * core.toNat + p

/-- The key of a thread's logical row. -/
def Thread.rowKey (t : Thread) (e : Nat) : Nat := Machine.rowKey t.tid.core (physRow t.base t.n e)

/-! ### Home slices: R61 -/

/-- The index of a line of HBM within the slices of its stack group. -/
def sliceHash (pa : Nat) : Nat :=
  (pa / 2 ^ 7 % 64) ^^^ (pa / 2 ^ 13 % 64) ^^^ (pa / 2 ^ 19 % 64) ^^^ (pa / 2 ^ 25 % 64) ^^^ (pa / 2 ^ 31 % 32)

/-- The die-local slice of a line of HBM: 0 to 127. -/
def dieSlice (pa : Nat) : Nat := 64 * (pa / 2 ^ 36 % 2) + sliceHash pa

/-- The slice of die 0 that is the home of a line of host memory. -/
def hostSlice (pa : Nat) : Nat :=
  (pa / 2 ^ 7 % 128) ^^^ (pa / 2 ^ 14 % 128) ^^^ (pa / 2 ^ 21 % 128) ^^^ (pa / 2 ^ 28 % 128) ^^^ (pa / 2 ^ 35 % 128)
    ^^^ (pa / 2 ^ 42 % 32)

/-- The global number of the home slice of an address in HBM or host memory. -/
def sliceOf (pa : Nat) : Nat := if isHost pa then hostSlice pa else 128 * (pa / 2 ^ 37 % 8) + dieSlice pa

/-! ### Replicas and interleaving: R41, R42, R70 -/

/-- The address of replica i of a line of replica 0. -/
def replicaAddr (pa : Nat) (repl : BitVec 2) (i : Nat) : Nat :=
  let home := pa / 2 ^ 36 % 16
  let st := (home + i * (16 / 2 ^ repl.toNat)) % 16
  st * 2 ^ 36 + pa % 2 ^ 36

/-- The replica that a core reads: R70. -/
def replicaFor (core : BitVec 12) (pa : Nat) (repl : BitVec 2) : Nat :=
  if repl = 0 then pa
  else
    let g := stackGroup core
    let all := (List.range (2 ^ repl.toNat)).map (replicaAddr pa repl)
    let st := fun (a : Nat) => a / 2 ^ 36
    match all.find? (fun a => st a = g) with
    | some a => a
    | none =>
      match all.find? (fun a => st a / 2 = g / 2) with
      | some a => a
      | none =>
        match (List.range 16).findSome? (fun k => all.find? (fun a => (st a + 16 - g) % 16 = k)) with
        | some a => a
        | none => pa

/-! ### Homes -/

/-- The threads of the machine with a change made to each. -/
def State.mapThreads (s : State) (f : Thread → Thread) : State := { s with th := f s.th, parked := s.parked.map f }

/-- Every live thread. -/
def State.threads (s : State) : List Thread := (s.th :: s.parked).filter (·.live)

/-- The event flag set, which wakes a thread from WFE (R212). -/
def Thread.signal (t : Thread) : Thread := { t with event := true, sleep := if t.sleep = .wfe then .awake else t.sleep }

/-- A write applied at its place wakes the threads that watch it: it sets the event flag of a thread whose most recent
LDACQ, AMO or ARRWAIT was on the line (R212), and a thread asleep in ARRWAIT reads its word again (R124). -/
def Thread.notify (line : Nat) (t : Thread) : Thread :=
  if t.line = some line then
    { t with
      event := true, sleep := (match t.sleep with
        | .arrwait => .arrread
        | .wfe => .awake
        | .awake => .awake
        | .arrread => .arrread
        | .yield => .yield
        | .colwait g => .colwait g
        | .boost d b u => .boost d b u) }
  else t

/-- The notification key of a memory line. -/
def memLine (pa : Nat) : Nat := pa / 128
/-- The notification key of a line of a store. -/
def rowLine (core : BitVec 12) (p : Nat) : Nat := 2 ^ 48 + rowKey core p
/-- The notification key of an arrival-word page's line. -/
def arrLine (key : Nat) : Nat := 2 ^ 49 + key / 16

/-- A write of n bytes applied at memory: the threads that watch one of its lines are told (R212). -/
def State.notifyMem (s : State) (pa n : Nat) : State := s.mapThreads fun t =>
  match t.line with
  | none => t
  | some l => if memLine pa ≤ l ∧ l ≤ memLine (pa + n - 1) then t.notify l else t

/-! ### Bits of a row -/

/-- A row with w bits from column c replaced. -/
def rowSet (r : Row) (c w v : Nat) : Row :=
  let mask := BitVec.ofNat 1024 ((2 ^ w - 1) <<< c)
  (r &&& ~~~ mask) ||| (BitVec.ofNat 1024 ((v % 2 ^ w) <<< c) &&& mask)

/-! ### The lines of the home slices: R62, R63 -/

/-- A line that no slice holds. -/
def L2Line.absent : L2Line := { held := false, dirty := 0, data := 0 }
def State.l2At (s : State) (line : Nat) : L2Line := look L2Line.absent s.l2 line

/-- The set of its home slice that a line belongs to: 24,576 lines in 16 ways are 1,536 sets (R62). Which lines share one is free
(log 73). -/
def lineSet (line : Nat) : Nat × Nat := (sliceOf (128 * line), Config.sliceSet line % 1536)

/-- A line allocated by its home slice: of host memory the slice takes a copy. A set that holds more than its 16 lines drops one before
any other step (`State.crowded`, log 73). -/
def State.l2Touch (s : State) (pa : Nat) : State :=
  let line := pa / 128
  if (s.l2At line).held then s
  else
    let x : L2Line :=
      { held := true, dirty := 0,
        data := if isHost pa then BitVec.ofNat 1024 (leVal (memBytes s.mem (128 * line) 128)) else 0 }
    { s with l2 := put L2Line.absent s.l2 line x }

/-- A byte as its home slice reads it: of host memory the slice's own copy where it holds the line (R63). -/
def State.homeByte (s : State) (pa : Nat) : Byte :=
  if isHost pa && (s.l2At (pa / 128)).held then (s.l2At (pa / 128)).data.extractLsb' (8 * (pa % 128)) 8 else memByte s.mem pa

/-- Bytes of one line or region as their home slices read them. -/
def State.homeBytes (s : State) (pa n : Nat) : List Byte :=
  if isHost pa then (List.range n).map fun i => s.homeByte (pa + i) else memBytes s.mem pa n

/-- A byte of host memory written at its home slice, into the line that the slice holds. -/
def State.hostByteWrite (s : State) (pa : Nat) (b : Byte) : State :=
  let s := s.l2Touch pa
  let x := s.l2At (pa / 128)
  let x : L2Line := { x with dirty := x.dirty ||| (1 <<< (pa % 128)), data := rowSet x.data (8 * (pa % 128)) 8 b.toNat }
  { s with l2 := put L2Line.absent s.l2 (pa / 128) x }

/-- Lines that n bytes fill whole hold no error of the bytes they held: they are not read from HBM (R62). -/
def State.cleanse (s : State) (pa n : Nat) : State :=
  if s.eccBad.isEmpty then s
  else { s with eccBad := s.eccBad.filter fun (l, _) => !(decide (pa ≤ 128 * l) && decide (128 * l + 128 ≤ pa + n)) }

/-- Bytes written at their home slices. -/
def State.sliceWrite (s : State) (pa : Nat) (bs : List Byte) : State :=
  let s := s.cleanse pa bs.length
  if isHost pa then bs.zipIdx.foldl (fun s (b, i) => s.hostByteWrite (pa + i) b) s
  else ((List.range (memLine (pa + bs.length - 1) + 1 - memLine pa)).foldl (fun s i => s.l2Touch (pa + 128 * i))
    { s with mem := memWrite s.mem pa bs })

/-- A line leaves its slice: of host memory the bytes that device writes changed are written back over what the host wrote
there (R63). -/
def State.l2Evict (s : State) (line : Nat) : State :=
  let x := s.l2At line
  { s with
    mem := if isHost (128 * line) then (List.range 128).foldl (fun m i =>
        if x.dirty.getLsbD i then put 0 m (128 * line + i) (x.data.extractLsb' (8 * i) 8) else m) s.mem
      else s.mem,
    l2 := put L2Line.absent s.l2 line L2Line.absent }

/-- Whether a line has a scatter-add or a commit pending, so that it is not chosen for eviction (R62). -/
def State.l2Pinned (s : State) (line : Nat) : Bool :=
  (s.sliceQ.any fun r => r.parts.any fun (a, _) => a / 128 = line)
    || (s.repQ.any fun r => (List.range (2 ^ r.repl.toNat)).any fun i => replicaAddr r.pa r.repl i / 128 = line)

/-- The lines of sets that hold more than their 16 ways: one of them leaves before any other step. Which, is not architectural
(R62, log 73). -/
def State.crowded (s : State) : List Nat :=
  if s.l2.length ≤ 16 then []
  else (s.l2.filter fun (l, _) => !s.l2Pinned l
    && decide (16 < (s.l2.filter fun (m, _) => lineSet m == lineSet l).length)).map (·.1)

/-- Bytes given to every replica of a line at replica 0 (R71). -/
def State.replicaWrite (s : State) (pa : Nat) (repl : BitVec 2) (bs : List Byte) : State :=
  ((List.range (2 ^ repl.toNat)).foldl (fun s i => s.sliceWrite (replicaAddr pa repl i) bs) s).notifyMem pa bs.length

/-- The writes that the coordinator of replica 0's lines took before now, of the lines that n bytes reach, performed in its order
(R71). -/
def State.repFlush (s : State) (pa n : Nat) : State :=
  let here (r : RepReq) : Bool := decide (memLine pa ≤ memLine r.pa) && decide (memLine r.pa ≤ memLine (pa + n - 1))
  (s.repQ.filter here).foldl (fun s r => s.replicaWrite r.pa r.repl r.bytes) { s with repQ := s.repQ.filter fun r => !here r }

/-- Bytes performed at their home slices (R62); at a replicated page, at every replica, after the writes that the coordinator of
the line has taken before (R71). -/
def State.homeWrite (s : State) (pa : Nat) (repl : BitVec 2) (bs : List Byte) : State :=
  if repl = 0 then (s.sliceWrite pa bs).notifyMem pa bs.length
  else (s.repFlush pa bs.length).replicaWrite pa repl bs

/-- The locked updates of replicated lines that a read of n bytes reaches at any of their replicas: the read waits for them and returns
the new bytes (R72). -/
def State.settleLocked (s : State) (pa n : Nat) : State :=
  let at_ (l : Nat) : Bool := decide (memLine pa ≤ l) && decide (l ≤ memLine (pa + n - 1))
  let here (r : RepReq) : Bool :=
    r.locked && (List.range (2 ^ r.repl.toNat)).any fun i => at_ (memLine (replicaAddr r.pa r.repl i))
  (s.repQ.filter here).foldl (fun s r => s.replicaWrite r.pa r.repl r.bytes) { s with repQ := s.repQ.filter fun r => !here r }

/-- Bytes of one line read at the home slice, for a core the slice of its replica (R62, R70, R72). -/
def State.homeRead (s : State) (core : BitVec 12) (pa : Nat) (repl : BitVec 2) (n : Nat) : State × List Byte :=
  let s := if repl = 0 then s else s.settleLocked pa n
  let at_ := replicaFor core pa repl
  (s.l2Touch at_, s.homeBytes at_ n)

/-! ### The associative store -/

/-- The data columns of a physical row. -/
def State.rowAt (s : State) (key : Nat) : Row := look 0 s.rows key
/-- The tag latches of a physical row; k0 reads 1 (R23). -/
def State.tagsAt (s : State) (key : Nat) : BitVec 16 := look 0 s.tags key ||| 1

/-- The bytes of a row from a byte on (R26). -/
def rowBytes (r : Row) (byte n : Nat) : List Byte := (List.range n).map fun i => r.extractLsb' (8 * (byte + i)) 8

/-- A row with bytes replaced (R26). -/
def rowSetBytes (r : Row) (byte : Nat) (bs : List Byte) : Row := rowSet r (8 * byte) (8 * bs.length) (leVal bs)

/-- The groups of 64 columns that w columns from column c reach (R22). -/
def parityMask (c w : Nat) : BitVec 16 :=
  BitVec.ofNat 16 (2 ^ ((c + w + 63) / 64) - 2 ^ (c / 64))

/-- Columns c to c + w - 1 of a row written: the parity bit of each group that they reach is rewritten (R24). -/
def State.putRow (s : State) (key c w : Nat) (r : Row) : State :=
  { s with rows := put 0 s.rows key r, badCols := put 0 s.badCols key (look 0 s.badCols key &&& ~~~ parityMask c w) }

/-- Bytes performed in a row. -/
def State.rowWrite (s : State) (core : BitVec 12) (p byte : Nat) (bs : List Byte) : State :=
  let key := rowKey core p
  State.mapThreads (s.putRow key (8 * byte) (8 * bs.length) (rowSetBytes (s.rowAt key) byte bs)) (Thread.notify (rowLine core p))

/-! ### Arrival-word pages: R15 -/

/-- The key of word w of a context's page on a cluster. -/
def arrKey (ctx : BitVec 16) (cluster : BitVec 10) (w : BitVec 9) : Nat :=
  (ctx.toNat * 1024 + cluster.toNat) * 512 + w.toNat

/-- A word written in arrival-word storage. -/
def State.arrPut (s : State) (key : Nat) (v : Dword) : State :=
  State.mapThreads { s with arr := put 0 s.arr key v } (Thread.notify (arrLine key))

/-! ### The L1: R65, R66 -/

/-- A way that holds nothing. -/
def L1Way.empty : L1Way := { tag := 0, valid := 0, dirty := 0, writer := 0, home := 0, repl := 0, data := 0 }
/-- The replacement state of an untouched set. -/
def L1Lru.fresh : L1Lru := { tree := 0, order := .replicate 4 [0, 1, 2] }

/-- A way newly given to a line. -/
def L1Way.ofLine (pa pa0 : Nat) (repl : BitVec 2) : L1Way :=
  { L1Way.empty with tag := BitVec.ofNat 33 (pa / 2 ^ 15), home := pa0 / 128 * 128, repl := repl }

def l1Key (core : BitVec 12) (set way : Nat) : Nat := (core.toNat * 256 + set) * 12 + way
def State.l1At (s : State) (core : BitVec 12) (set way : Nat) : L1Way := look L1Way.empty s.l1 (l1Key core set way)
def State.l1Put (s : State) (core : BitVec 12) (set way : Nat) (w : L1Way) : State :=
  { s with l1 := put L1Way.empty s.l1 (l1Key core set way) (if w.valid = 0 then L1Way.empty else w) }

/-- The physical address of the line a way holds. -/
def l1Addr (set : Nat) (w : L1Way) : Nat := w.tag.toNat * 2 ^ 15 + set * 128

/-- The way that holds a line. -/
def State.l1Find (s : State) (core : BitVec 12) (pa : Nat) : Option Nat :=
  let set := pa / 128 % 256
  (List.range 12).find? fun w =>
    let x := s.l1At core set w
    decide (x.valid ≠ 0) && decide (x.tag.toNat = pa / 2 ^ 15)

/-- The group's order with a way made the most recent. -/
def touchOrder (l : List (BitVec 2)) (w : BitVec 2) : List (BitVec 2) := w :: l.filter (· ≠ w)

/-- The replacement state after a hit or fill of a way (R65): tree bit 0 is the root, bits 1 and 2 the pairs; a bit points
to the half to be replaced next. -/
def L1Lru.touch (l : L1Lru) (way : Nat) : L1Lru :=
  let g := way / 3 % 4
  let root : BitVec 3 := if g < 2 then (l.tree ||| 1) else (l.tree &&& 6)
  let bit : BitVec 3 := if g < 2 then 2 else 4
  let tree := if g % 2 = 0 then root ||| bit else root &&& ~~~ bit
  { tree := tree,
    order := Vector.ofFn fun (i : Fin 4) => if i.val = g then touchOrder l.order[i] (BitVec.ofNat 2 (way % 3)) else l.order[i] }

/-- The way a fill replaces when no way is free (R65). -/
def L1Lru.victim (l : L1Lru) : Nat :=
  let right := l.tree.getLsbD 0
  let g := if right then (if l.tree.getLsbD 2 then 3 else 2) else (if l.tree.getLsbD 1 then 1 else 0)
  3 * g + ((l.order.toList.getD g []).getLast?.getD 0).toNat

def State.l1Touch (s : State) (core : BitVec 12) (set way : Nat) : State :=
  let k := core.toNat * 256 + set
  { s with l1lru := put L1Lru.fresh s.l1lru k ((look L1Lru.fresh s.l1lru k).touch way) }

/-- The dirty bytes of a line merged into its home, byte by byte under the dirty mask (R66). -/
def State.writeDirty (s : State) (addr : Nat) (w : L1Way) : State :=
  let s := if w.dirty = BitVec.allOnes 128 then s.cleanse addr 128 else s
  (List.range 128).foldl (fun s i =>
    if w.dirty.getLsbD i then s.sliceWrite (addr + i) [w.data.extractLsb' (8 * i) 8] else s) s

/-- A way's dirty bytes written back; the masks are cleared (R66). A line of a replicated page goes to every replica, after the
writes its coordinator has taken (R71). -/
def State.l1WriteBack (s : State) (core : BitVec 12) (set way : Nat) (inval : Bool) : State :=
  let w := s.l1At core set way
  if w.valid = 0 then s
  else
    let addr := l1Addr set w
    let s := if w.dirty = 0 then s
      else
        (if w.repl = 0 then s.writeDirty addr w
          else (List.range (2 ^ w.repl.toNat)).foldl (fun s i => s.writeDirty (replicaAddr w.home w.repl i) w)
            (s.repFlush w.home 128)).notifyMem w.home 128
    s.l1Put core set way (if inval then L1Way.empty else { w with dirty := 0, writer := 0 })

/-- Every way of a core's L1 that holds a line for which `p` holds is written back, and invalidated when `inval`. -/
def State.l1Walk (s : State) (core : BitVec 12) (p : Nat → L1Way → Bool) (inval : Bool) : State :=
  (s.l1.filter fun (k, _) => decide (k / 3072 = core.toNat)).foldl (fun s (k, w) =>
    let set := k / 12 % 256
    if p (l1Addr set w) w then s.l1WriteBack core set (k % 12) inval else s) s

/-- One line of one core's L1 written back and invalidated: AMO, scatter-add (Table 3.1). -/
def State.l1Drop (s : State) (core : BitVec 12) (pa : Nat) : State :=
  s.l1Walk core (fun a _ => decide (a / 128 = pa / 128)) true

/-- A way for a line: its own, else a free one, else the victim's after its write-back (R65). -/
def State.l1Alloc (s : State) (core : BitVec 12) (pa : Nat) : State × Nat :=
  let set := pa / 128 % 256
  match s.l1Find core pa with
  | some w => (s, w)
  | none =>
    match (List.range 12).find? (fun w => decide ((s.l1At core set w).valid = 0)) with
    | some w => (s, w)
    | none =>
      let w := (look L1Lru.fresh s.l1lru (core.toNat * 256 + set)).victim
      (s.l1WriteBack core set w true, w)

/-- A mask of n bytes from byte o. -/
def byteMask (o n : Nat) : BitVec 128 := BitVec.ofNat 128 ((2 ^ n - 1) <<< o)

/-- Whether a line of HBM holds an uncorrectable error (R62). -/
def State.poisoned (s : State) (pa : Nat) : Bool := look false s.eccBad (memLine pa)

/-- Whether the L1 of a core holds n bytes of a line, so that a read of them asks nothing of the home slice (R66). -/
def State.l1Holds (s : State) (core : BitVec 12) (pa n : Nat) : Bool :=
  match s.l1Find core pa with
  | none => false
  | some way => byteMask (pa % 128) n &&& ~~~ (s.l1At core (pa / 128 % 256) way).valid = 0

/-- A read of n bytes of one line through the L1: where a byte is not valid, the bytes that are not are fetched from the home
slice (R66). A fetched line with an uncorrectable error is not kept: every read of it meets the error (R62, log 73). -/
def State.l1Read (s : State) (core : BitVec 12) (pa0 : Nat) (repl : BitVec 2) (n : Nat) : State × List Byte :=
  let pa := replicaFor core pa0 repl
  let set := pa / 128 % 256
  let o := pa % 128
  let (s, way) := s.l1Alloc core pa
  let w := s.l1At core set way
  let w : L1Way := if w.valid = 0 then L1Way.ofLine pa pa0 repl else w
  if byteMask o n &&& ~~~ w.valid = 0 then ((s.l1Put core set way w).l1Touch core set way, rowBytes w.data o n)
  else
    let (s, line) := s.homeRead core (pa0 / 128 * 128) repl 128
    let w : L1Way := { w with
      data := (List.range 128).foldl (fun d i =>
        if w.valid.getLsbD i then d else rowSet d (8 * i) 8 (line.getD i 0).toNat) w.data,
      valid := BitVec.allOnes 128 }
    if s.poisoned pa then (s, rowBytes w.data o n)
    else ((s.l1Put core set way w).l1Touch core set way, rowBytes w.data o n)

/-- The clean bytes of a line that a core's L1 holds made those of its home (R101): a later read of the core never returns a
write older than one it has read there. -/
def State.l1Refresh (s : State) (core : BitVec 12) (pa0 : Nat) (repl : BitVec 2) : State :=
  let pa := replicaFor core pa0 repl
  let set := pa / 128 % 256
  match s.l1Find core pa with
  | none => s
  | some way =>
    let w := s.l1At core set way
    let line := s.homeBytes (pa / 128 * 128) 128
    s.l1Put core set way { w with
      data := (List.range 128).foldl (fun d i =>
        if w.dirty.getLsbD i then d else rowSet d (8 * i) 8 (line.getD i 0).toNat) w.data }

/-- Bytes of one line with the dirty bytes of a core's L1 laid over them. -/
def State.l1Dirty (s : State) (core : BitVec 12) (pa0 : Nat) (repl : BitVec 2) (bs : List Byte) : List Byte :=
  let pa := replicaFor core pa0 repl
  match s.l1Find core pa with
  | none => bs
  | some way =>
    let w := s.l1At core (pa / 128 % 256) way
    bs.zipIdx.map fun (b, i) =>
      if w.dirty.getLsbD (pa % 128 + i) then w.data.extractLsb' (8 * (pa % 128 + i)) 8 else b

/-- A store of bytes of one line into the L1: only the stored bytes become valid and dirty (R66). -/
def State.l1Write (s : State) (core : BitVec 12) (slot : BitVec 3) (pa0 : Nat) (repl : BitVec 2) (bs : List Byte) :
    State :=
  let pa := replicaFor core pa0 repl
  let set := pa / 128 % 256
  let o := pa % 128
  let (s, way) := s.l1Alloc core pa
  let w := s.l1At core set way
  let w : L1Way := if w.valid = 0 then L1Way.ofLine pa pa0 repl else w
  let m := byteMask o bs.length
  let w : L1Way := { w with
    data := rowSetBytes w.data o bs, valid := w.valid ||| m, dirty := w.dirty ||| m,
    writer := w.writer ||| (1 <<< slot.toNat) }
  State.mapThreads ((s.l1Put core set way w).l1Touch core set way)
    fun t => if t.tid.core = core then t.notify (memLine pa0) else t

/-! ### Contexts -/

/-- An entry of the context table that holds nothing. -/
def Ctx.blank : Ctx :=
  { valid := false, svfail := false, taskroot := 0, xfra := 0, savePtr := 0, save := [], bindings := [], stored := false, lastCore := none }

def State.ctxAt (s : State) (c : BitVec 16) : Ctx := look Ctx.blank s.ctxs c.toNat
def State.ctxPut (s : State) (c : BitVec 16) (x : Ctx) : State := { s with ctxs := put Ctx.blank s.ctxs c.toNat x }

/-! ### Trap codes: Table 16.1 -/

def cILLOP : BitVec 8 := 0x01
def cPRIVOP : BitVec 8 := 0x02
def cBREAK : BitVec 8 := 0x03
def cBLKFORM : BitVec 8 := 0x04
def cPLYDIV : BitVec 8 := 0x05
def cFMTBAD : BitVec 8 := 0x08
def cFUNMAP : BitVec 8 := 0x09
def cCHKCOL : BitVec 8 := 0x0A
def cFWIDTH : BitVec 8 := 0x0B
def cFOVL : BitVec 8 := 0x0C
def cACCOWN : BitVec 8 := 0x0D
def cPLYOWN : BitVec 8 := 0x0E
def cMSHAPE : BitVec 8 := 0x0F
def cADDRFORM : BitVec 8 := 0x10
def cPRIVSPACE : BitVec 8 := 0x11
def cNEARRANGE : BitVec 8 := 0x12
def cADDRALIGN : BitVec 8 := 0x13
def cPHYSHOLE : BitVec 8 := 0x14
def cPGMISS : BitVec 8 := 0x15
def cPGPERM : BitVec 8 := 0x16
def cPGCOW : BitVec 8 := 0x17
def cPGWALK : BitVec 8 := 0x18
def cPGSHR : BitVec 8 := 0x19
def cFSTOVF : BitVec 8 := 0x1A
def cPOOLFULL : BitVec 8 := 0x1B
def cBINDBAD : BitVec 8 := 0x20
def cBINDFULL : BitVec 8 := 0x21
def cSPDUP : BitVec 8 := 0x22
def cARRPLACE : BitVec 8 := 0x23
def cCPYBAD : BitVec 8 := 0x24
def cCPYOVL : BitVec 8 := 0x25
def cFABROUTE : BitVec 8 := 0x26
def cCOLBAD : BitVec 8 := 0x27
def cSPMETA : BitVec 8 := 0x28
def cCMPOVF : BitVec 8 := 0x29
def cCTXBAD : BitVec 8 := 0x2A
def cSWTRAP : BitVec 8 := 0x30
def cSIGLOSS : BitVec 8 := 0x31
def cARROVR : BitVec 8 := 0x32
def cCOPYERR : BitVec 8 := 0x38
def cSTRIPERR : BitVec 8 := 0x39
def cUNCSTATE : BitVec 8 := 0x3A
def cSAVEFAIL : BitVec 8 := 0x3C
def cDOUBLE : BitVec 8 := 0x3D
def cSAVEROOM : BitVec 8 := 0x3E

/-! ### Translation: R35 to R45, R53, R56 -/

/-- The access kinds of R54's records. -/
inductive Kind where
  | read
  | write
  | amo
  | fetch
  deriving DecidableEq, Repr

def Kind.code : Kind → Nat
  | .read => 0
  | .write => 1
  | .amo => 2
  | .fetch => 3

/-- Whether the kind writes (R44). -/
def Kind.writes : Kind → Bool
  | .read => false
  | .write => true
  | .amo => true
  | .fetch => false

/-- A fault of one address: trap code, address, and for a translation fault the level and cause of its record; `big` where it was met
in a page of 512 MiB. -/
structure XFault where
  code : BitVec 8
  va : Dword
  level : Nat
  cause : Nat
  detail : Nat
  kind : Nat
  big : Bool
  deriving DecidableEq, Repr

/-- An address fault without a record (R10 to R15). -/
def XFault.plain (code : BitVec 8) (va : Dword) : XFault := ⟨code, va, 0, 0, 0, 0, false⟩

/-- A translated address: physical, class, replication. `leafAt` is the entry's address, `key` names the translation. -/
structure Xl where
  pa : Nat
  cls : BitVec 2
  repl : BitVec 2
  leafAt : Nat
  big : Bool
  leaf : Dword
  key : TlbKey
  deriving DecidableEq, Repr

def pteV (x : Dword) : Bool := x.getLsbD 0
def pteRD (x : Dword) : Bool := x.getLsbD 1
def pteWR (x : Dword) : Bool := x.getLsbD 2
def pteEX (x : Dword) : Bool := x.getLsbD 3
def pteCOW (x : Dword) : Bool := x.getLsbD 4
def pteDIRTY (x : Dword) : Bool := x.getLsbD 6
def pteLEAF (x : Dword) : Bool := x.getLsbD 7
def pteCLASS (x : Dword) : BitVec 2 := x.extractLsb' 8 2
def pteREPL (x : Dword) : BitVec 2 := x.extractLsb' 10 2
def pteIL (x : Dword) : Bool := x.getLsbD 12
def pteFRAME (x : Dword) : BitVec 32 := x.extractLsb' 16 32
def pteHOME (x : Dword) : BitVec 4 := x.extractLsb' 48 4

/-- Whether a frame lies in a reserved physical region (R16). -/
def frameHole (fr : BitVec 32) : Bool :=
  let pa := fr.toNat * 65536
  !(isHbm pa || isHost pa || mmioExists pa)

/-- The checks of R40 and R41 on a valid leaf. -/
def leafOk (x : Dword) (big : Bool) : Bool :=
  let pa := (pteFRAME x).toNat * 65536
  pteCLASS x != 3#2
    && (if isHbm pa then (pteHOME x).toNat == pa / 2 ^ 36 % 16 else pteHOME x == 0#4)
    && !(big && (pteFRAME x).extractLsb' 0 13 != 0#13)
    && !(pteIL x && (pteREPL x != 0#2 || big))
    && (if pteCLASS x == 2#2 then isHost pa || isMmio pa else isHbm pa || isHost pa)
    && (pteREPL x == 0#2 || isHbm pa)

/-- The physical address that a leaf gives an address: R37, R42. An interleaved leaf whose frame is host memory names the HBM bytes
that R42's rule gives (log 60). -/
def leafAddr (x : Dword) (big : Bool) (va : Nat) : Nat :=
  let fr := (pteFRAME x).toNat * 65536
  if big then fr + va % 2 ^ 29
  else if pteIL x then
    let q := va % 65536 / 4096
    ((((pteHOME x).toNat + q) % 16) * 2 ^ 36) + fr % 2 ^ 36 + va % 65536
  else fr + va % 65536

/-- A fault of a walk: code, level and cause. -/
def walkFault (va : Dword) (kind : Nat) (c : BitVec 8) (lv cause : Nat) : XFault := ⟨c, va, lv, cause, 0, kind, false⟩

/-- The fault of a table pointer that names a node outside HBM (R40). -/
def nodeFault (va : Dword) (kind : Nat) (e : Dword) (lv : Nat) : XFault :=
  if frameHole (pteFRAME e) then walkFault va kind cPHYSHOLE lv 5 else walkFault va kind cPGWALK lv 4

/-- The end of a walk at a valid leaf (R40): a frame in a reserved region goes before the other checks (log 60). -/
def leafEnd (va : Dword) (kind : Nat) (e : Dword) (at_ : Nat) (big : Bool) : Except XFault (Dword × Nat × Bool) :=
  let lv := if big then 2 else 3
  if leafOk e big then .ok (e, at_, big) else .error { nodeFault va kind e lv with big := big }

/-- The walk's last level, from a table pointer of level 2. -/
def walkLow (m : List Host.Cell) (e2 : Dword) (va : Dword) (kind : Nat) : Except XFault (Dword × Nat × Bool) :=
  let n3 := (pteFRAME e2).toNat * 65536
  if !isHbm n3 then .error (nodeFault va kind e2 2)
  else
    let a3 := n3 + 8 * (va.extractLsb' 16 13).toNat
    let e3 := memDword m a3
    if !pteV e3 then .error (walkFault va kind cPGMISS 3 1)
    else if !pteLEAF e3 then .error (walkFault va kind cPGWALK 3 4)
    else leafEnd va kind e3 a3 false

/-- The walk from a table pointer of level 1. -/
def walkMid (m : List Host.Cell) (e1 : Dword) (va : Dword) (kind : Nat) : Except XFault (Dword × Nat × Bool) :=
  let n2 := (pteFRAME e1).toNat * 65536
  if !isHbm n2 then .error (nodeFault va kind e1 1)
  else
    let a2 := n2 + 8 * (va.extractLsb' 29 13).toNat
    let e2 := memDword m a2
    if !pteV e2 then .error (walkFault va kind cPGMISS 2 1)
    else if pteLEAF e2 then leafEnd va kind e2 a2 true
    else walkLow m e2 va kind

/-- The entry of a root's top node for an address (R35, R37): a node in host memory or MMIO is PGWALK at level 1, as a table
pointer outside HBM is (log 60). -/
def topEntry (m : List Host.Cell) (root : Dword) (va : Dword) (kind : Nat) : Except XFault Dword :=
  let n1 := (root.extractLsb' 17 31).toNat * 2 ^ 17
  if !root.getLsbD 0 then .error (walkFault va kind cPGMISS 1 1)
  else if !isHbm n1 then
    .error (if isHost n1 || mmioExists n1 then walkFault va kind cPGWALK 1 4 else walkFault va kind cPHYSHOLE 1 5)
  else
    let e1 := memDword m (n1 + 8 * (va.extractLsb' 42 14).toNat)
    if !pteV e1 then .error (walkFault va kind cPGMISS 1 1)
    else if pteLEAF e1 then .error (walkFault va kind cPGWALK 1 4)
    else .ok e1

/-- A walk from a root register (R35, R37, R40): the leaf, its address and whether it maps 512 MiB, or the fault. Entries are
read at their home slices (R38). -/
def walk (m : List Host.Cell) (root : Dword) (va : Dword) (kind : Nat) : Except XFault (Dword × Nat × Bool) :=
  match topEntry m root va kind with
  | .error f => .error f
  | .ok e1 => walkMid m e1 va kind

/-- The root and the TLB tag of an address for a thread: R35, R36. -/
def State.rootFor (s : State) (ctx : BitVec 16) (va : Dword) : Dword × BitVec 16 :=
  if va.getLsbD 55 then (s.regs.suproot, 0xFFFF)
  else
    let r := (s.ctxAt ctx).taskroot
    (r, r.extractLsb' 48 16)

/-- The key of a translation of an address. -/
def keyFor (tag : BitVec 16) (va : Dword) (big : Bool) : TlbKey :=
  ⟨tag, if big then va.extractLsb' 29 27 ++ 0#13 else va.extractLsb' 16 40, big⟩

/-- The first page of 64 KiB and the number of pages of a translation. -/
def TlbKey.pages (k : TlbKey) : Nat × Nat := (k.page.toNat, if k.big then 8192 else 1)

/-- The virtual address that a translation led from to a physical one. -/
def TlbKey.va (k : TlbKey) (pa : Nat) : Dword :=
  BitVec.ofNat 64 (k.page.toNat * 65536 + pa % (if k.big then 2 ^ 29 else 65536))

/-- The number of a core's cluster. -/
def clusterUnit (core : BitVec 12) : BitVec 12 := (clusterOf core).setWidth 12

/-- The entry of a TLB for an address. -/
def tlbLookup (l : List TlbEnt) (unit : BitVec 12) (tag : BitVec 16) (va : Dword) : Option TlbEnt :=
  l.find? fun t => t.unit = unit && t.key == keyFor tag va t.key.big

/-- The entry of a core's L1 TLB for an address. -/
def State.tlbFind (s : State) (core : BitVec 12) (tag : BitVec 16) (va : Dword) : Option TlbEnt := tlbLookup s.tlb core tag va
/-- The entry of a core's L1 TLB, or else of its cluster's TLB, for an address (R56). -/
def State.tlbHit (s : State) (core : BitVec 12) (tag : BitVec 16) (va : Dword) : Option TlbEnt :=
  s.tlbFind core tag va <|> tlbLookup s.ctlb (clusterUnit core) tag va

/-- The die of a core as the walk caches name it. -/
def dieUnit (core : BitVec 12) : BitVec 3 := BitVec.ofNat 3 (dieOf core)
/-- The address bits that index the levels down to one. -/
def walkIndex (va : Dword) (level : BitVec 2) : BitVec 27 :=
  if level = 2 then va.extractLsb' 29 27 else (va.extractLsb' 42 14).setWidth 27
/-- A table pointer held by a die's walk cache. -/
def State.walkHit (s : State) (core : BitVec 12) (tag : BitVec 16) (va : Dword) (level : BitVec 2) : Option Dword :=
  (s.wcache.find? fun w => w.die = dieUnit core && w.tag = tag && w.level = level && w.index = walkIndex va level).map (·.entry)

/-- A walk for a miss, from the lowest table pointer that the die's walk cache holds (R56). It reads nothing above that pointer: a root
that has been changed, or put out of service, meanwhile does not stop it (log 74). -/
def State.missWalk (s : State) (core : BitVec 12) (tag : BitVec 16) (root : Dword) (va : Dword) (kind : Nat) :
    Except XFault (Dword × Nat × Bool) :=
  match s.walkHit core tag va 2 with
  | some e2 => walkLow s.mem e2 va kind
  | none => match s.walkHit core tag va 1 with
    | some e1 => walkMid s.mem e1 va kind
    | none => walk s.mem root va kind

/-- The share count of a frame (R46). -/
def shareAddr (fstbase : Dword) (frame : BitVec 32) : Nat :=
  (fstbase.extractLsb' 25 23).toNat * 2 ^ 25 + 2 * frame.toNat
def State.shareCount (s : State) (frame : BitVec 32) : Nat := leVal (s.homeBytes (shareAddr s.regs.fstbase frame) 2)

/-- A leaf as it stands in a TLB entry or as a walk finds it. -/
def State.leafFor (s : State) (core : BitVec 12) (ctx : BitVec 16) (kind : Nat) (va : Dword) :
    Except XFault (Dword × Nat × Bool) :=
  let (root, tag) := s.rootFor ctx va
  match s.tlbHit core tag va with
  | some t => .ok (t.leaf, t.at_, t.key.big)
  | none => s.missWalk core tag root va kind

/-- The permission check of Table 2.5. -/
def permitted (k : Kind) (leaf : Dword) : Bool :=
  match k with
  | .read => pteRD leaf
  | .write => pteWR leaf
  | .amo => pteRD leaf && pteWR leaf
  | .fetch => pteEX leaf

/-- The copy-on-write check of R44 with FSTBASE.EN of Table 2.6. A frame outside HBM has no count (R46): its COW is cleared and the
write proceeds (log 60). -/
def State.cowFault (s : State) (leaf : Dword) (va : Dword) (big : Bool) (k : Kind) : Option XFault :=
  let lv := if big then 2 else 3
  if k.writes && pteCOW leaf then
    let pa := (pteFRAME leaf).toNat * 65536
    if !s.regs.fstbase.getLsbD 0 then some ⟨cPGCOW, va, lv, 3, 0, k.code, big⟩
    else if !isHbm pa then none
    else
      let c := s.shareCount (pteFRAME leaf)
      if c = 0 then some ⟨cPGSHR, va, lv, 6, 7, k.code, big⟩
      else if 1 < c then some ⟨cPGCOW, va, lv, 3, 0, k.code, big⟩
      else none
  else none

/-- Translate one address for a core and a context (R43 to R45). A fault changes nothing. A fault met on a TLB hit, where no walk takes
place, carries the level of the leaf (log 74). -/
def State.translate (s : State) (core : BitVec 12) (ctx : BitVec 16) (k : Kind) (va : Dword) : Except XFault Xl :=
  match s.leafFor core ctx k.code va with
  | .error f => .error f
  | .ok (leaf, at_, big) =>
    let lv := if big then 2 else 3
    if !permitted k leaf then .error ⟨cPGPERM, va, lv, 2, 0, k.code, big⟩
    else
      let pa := leafAddr leaf big va.toNat
      if !(isHbm pa || isHost pa || mmioExists pa) then .error ⟨cPHYSHOLE, va, lv, 5, 0, k.code, big⟩
      else match s.cowFault leaf va big k with
        | some f => .error f
        | none => .ok ⟨pa, pteCLASS leaf, pteREPL leaf, at_, big, leaf, keyFor (s.rootFor ctx va).2 va big⟩

/-- Entries of a leaf that no TLB carries: SW (R56). -/
def noSw (leaf : Dword) : Dword := leaf &&& 0xF00FFFFFFFFFFFFF

/-- An element of a list left out: the one that a free value names, of those that satisfy a condition (log 61). -/
def dropOne {α : Type} (p : α → Bool) (x : Nat) (l : List α) : List α :=
  let n := (l.filter p).length
  ((l.foldl (fun (acc, k) a => if p a then (if k = x % n then (acc, k + 1) else (acc ++ [a], k + 1)) else (acc ++ [a], k))
    (([] : List α), 0))).1

/-- An entry put into a TLB in place of the one with its key; where the entries that `peer` names fill their places, one of them
makes room. -/
def tlbPut (l : List TlbEnt) (e : TlbEnt) (peer : TlbEnt → Bool) (room x : Nat) : List TlbEnt :=
  let l := l.filter fun t => !(t.unit == e.unit && t.key == e.key)
  e :: if (l.filter peer).length < room then l else dropOne peer x l

/-- The set of a cluster's TLB that an entry belongs to: 512 sets of 8 ways, indexed by the page number (log 61). -/
def TlbKey.set (k : TlbKey) : Nat := (if k.big then k.page.toNat / 8192 else k.page.toNat) % 512

/-- An entry in the L1 TLB of a core: 128 entries (R56). -/
def State.tlbFill (s : State) (core : BitVec 12) (k : TlbKey) (leaf : Dword) (at_ : Nat) : State :=
  { s with tlb := tlbPut s.tlb ⟨core, k, leaf, at_⟩ (fun t => t.unit == core) 128 (Config.choose s.tick (4 * k.page.toNat)) }

/-- An entry in the TLB of a core's cluster: 4,096 entries in sets of 8 (R56). -/
def State.ctlbFill (s : State) (core : BitVec 12) (k : TlbKey) (leaf : Dword) (at_ : Nat) : State :=
  let peer (t : TlbEnt) : Bool := t.unit == clusterUnit core && t.key.set == k.set
  { s with ctlb := tlbPut s.ctlb ⟨clusterUnit core, k, leaf, at_⟩ peer 8 (Config.choose s.tick (4 * k.page.toNat + 1)) }

/-- A table pointer in the walk cache of a die: 512 entries (R56). -/
def State.walkFill (s : State) (core : BitVec 12) (tag : BitVec 16) (va : Dword) (level : BitVec 2) (e : Dword) : State :=
  if (s.walkHit core tag va level).isSome then s
  else
    let peer (w : WalkEnt) : Bool := w.die == dieUnit core
    let l := if (s.wcache.filter peer).length < 512 then s.wcache else dropOne peer (Config.choose s.tick (4 * (walkIndex va level).toNat + level.toNat + 1)) s.wcache
    { s with wcache := ⟨dieUnit core, tag, level, walkIndex va level, e⟩ :: l }

/-- The table pointers that a walk from a root has read, held by the die's walk cache. -/
def State.walkCached (s : State) (core : BitVec 12) (tag : BitVec 16) (root : Dword) (va : Dword) (big : Bool) : State :=
  let e1 := (s.walkHit core tag va 1).getD
    (memDword s.mem ((root.extractLsb' 17 31).toNat * 2 ^ 17 + 8 * (va.extractLsb' 42 14).toNat))
  let e2 := memDword s.mem ((pteFRAME e1).toNat * 65536 + 8 * (va.extractLsb' 29 13).toNat)
  if (s.walkHit core tag va 2).isSome then s
  else
    let s := s.walkFill core tag va 1 e1
    if big then s else s.walkFill core tag va 2 e2

/-- The bits that an access sets in its leaf: ACC where it walked, DIRTY where it writes (R45). -/
def leafOn (walked : Bool) (k : Kind) : Dword := (if walked then 0x20 else 0) ||| (if k.writes then 0x40 else 0)
/-- The bits that it clears: COW, of a write that has passed the copy-on-write check (R44). -/
def Xl.off (x : Xl) (k : Kind) : Dword := if k.writes && pteCOW x.leaf then 0x10 else 0
/-- The leaf as the access leaves it. -/
def Xl.after (x : Xl) (walked : Bool) (k : Kind) : Dword := (x.leaf ||| leafOn walked k) &&& ~~~ x.off k

/-- Those bits set and cleared in the leaf as it stands in memory, a write that tells who watches its line (R212). -/
def State.markLeaf (s : State) (walked : Bool) (k : Kind) (x : Xl) : State :=
  if x.after walked k = x.leaf then s
  else State.notifyMem
    { s with mem := memPutDword s.mem x.leafAt ((memDword s.mem x.leafAt ||| leafOn walked k) &&& ~~~ x.off k) } x.leafAt 8

/-- What a translated access does to its leaf before it is performed. A walk sets ACC and leaves the translation with the core's
and the cluster's TLB and its pointers with the walk cache (R45, R56); the first write through an entry sets DIRTY; a write that
has passed the copy-on-write check of an entry with COW clears COW (R44). -/
def State.install (s : State) (core : BitVec 12) (ctx : BitVec 16) (k : Kind) (va : Dword) (x : Xl) : State :=
  let r := s.rootFor ctx va
  let walked := (s.tlbHit core r.2 va).isNone
  if (s.tlbFind core r.2 va).isSome && x.after walked k == x.leaf then s
  else
    let s := (if walked then s.walkCached core r.2 r.1 va x.big else s).markLeaf walked k x
    let s := if walked || x.after walked k != x.leaf then s.ctlbFill core x.key (noSw (x.after walked k)) x.leafAt else s
    s.tlbFill core x.key (noSw (x.after walked k)) x.leafAt

end Sys2Proof.Machine
end

