-- ==== Sys2Proof/Machine/Mmio.lean ====
section
/-! DEFINITION. What a read of a memory-mapped register returns: Table 1.4 and the register tables of 01, 14 to 18.
An offset of a block at which no register is described reads 0 (log 24). -/
namespace Sys2Proof.Machine
open Sys2Proof

def dieBlock : Nat := 0xF00000000000
def packageBlock : Nat := 0xF00080000000
def postBlock : Nat := 0xF00090000000

/-- A dword assembled from fields (value, width, lowest bit). -/
def packFields (fs : List (Nat × Nat × Nat)) : Dword :=
  BitVec.ofNat 64 (fs.foldl (fun a (v, w, lo) => a + (v % 2 ^ w) * 2 ^ lo) 0)

def Queue.blank : Queue :=
  { base := 0, en := false, die := 0, log2n := 0, head := 0, tail := 0, halted := false, cause := 0, index := 0,
    part := [], waiting := none, since := 0 }
def State.queueAt (s : State) (q : BitVec 6) : Queue := look Queue.blank s.queues q.toNat
def State.queuePut (s : State) (q : BitVec 6) (x : Queue) : State :=
  { s with queues := put Queue.blank s.queues q.toNat x }

def Group.blank : Group :=
  { dw := .replicate 8 0, step := 0, received := 0, receiptsSent := 0, receiptsGot := 0, slotBytes := 0, early := 0,
    failure := 0, ops := [],
    pendingFrames := [] }
def State.groupAt (s : State) (g : BitVec 6) : Group := look Group.blank s.groups g.toNat
def State.groupPut (s : State) (g : BitVec 6) (x : Group) : State :=
  { s with groups := put Group.blank s.groups g.toNat x }

/-- The live thread of a slot. -/
def State.threadAt (s : State) (t : Tid) : Option Thread := s.threads.find? fun x => x.tid = t

/-- QSTAT: R324. -/
def Queue.stat (q : Queue) : Dword :=
  packFields [(if q.halted then 1 else 0, 1, 63), (q.cause.toNat, 8, 32), (q.index.toNat, 32, 0)]

/-- QCTL: Table 15.1. -/
def Queue.ctl (q : Queue) : Dword :=
  packFields [(if q.en then 1 else 0, 1, 63), (q.die.toNat, 3, 8), (q.log2n.toNat, 5, 0)]

/-- State codes of Table 17.3. -/
def PkState.code : PkState → Nat
  | .warmService => 0
  | .purge => 1
  | .descend => 2
  | .soak => 3
  | .coldReady => 4
  | .active => 5
  | .quiesce => 6
  | .ascend => 7
  | .critical => 8

/-- The hottest sensor of the package, the hottest stack sensor, the package band: Tables 17.1, 17.2. -/
def Thermal.smax (t : Thermal) : Nat := t.stack.toList.foldl (fun a x => Nat.max a x.toNat) 0
def Thermal.tmax (t : Thermal) : Nat := t.temp.toList.foldl (fun a x => Nat.max a x.toNat) t.smax
def Thermal.pkband (t : Thermal) : Nat := t.band.toList.foldl (fun a x => Nat.max a x.toNat) 0

/-- THSTAT: Table 17.2. -/
def Thermal.thstat (t : Thermal) : Dword :=
  packFields [(t.flow.toNat, 16, 48), (t.tmax, 10, 28), (t.smax, 10, 18), (if t.cmderr then 1 else 0, 1, 11),
    (if t.ratex then 1 else 0, 1, 10), (t.crit.toNat, 2, 8), (if t.refresh then 1 else 0, 1, 7), (t.pkband, 2, 4),
    (t.state.code, 4, 0)]

/-- MBSTAT: Table 18.3. -/
def Postmaster.mbstat (p : Postmaster) : Dword :=
  packFields [(if p.busy then 1 else 0, 1, 63), (p.err.toNat, 8, 48), (p.result.toNat, 32, 0)]

/-- PWRCORE: R365. -/
def Thermal.pwrcore (t : Thermal) (core : Nat) : Dword :=
  packFields [((look 0 t.boosted core).toNat, 4, 8), (15 - (look 0 t.bandOff core).toNat, 4, 0)]

/-- DBGCTL: R355. -/
def Debug.ctl (d : Debug) : Dword :=
  packFields [(d.head.toNat, 8, 8), (if d.wrap then 1 else 0, 1, 1), (if d.en then 1 else 0, 1, 0)]

/-- PRECTL and RESCTL: R330, R351. -/
def jobCtl (img : BitVec 33) (busy : Bool) : Dword := packFields [(if busy then 1 else 0, 1, 62), (img.toNat, 33, 0)]

/-- The debugger's window of a thread: R356. -/
def Debug.window (d : Debug) (o : Nat) : Dword :=
  if o = 0 then d.ctl
  else if o = 8 then d.sel.setWidth 64
  else if o = 0x10 then d.e0
  else if o = 0x18 then d.e1
  else if o = 0x20 then d.e2
  else if o = 0x40 then d.rowsel.setWidth 64
  else if o = 0x48 then d.rowstat.setWidth 64
  else if 0x80 ≤ o ∧ o < 0x100 then d.row.extractLsb' (8 * (o - 0x80)) 64
  else if o = 0x100 then d.rowtags.setWidth 64
  else 0

/-- VALID of an export window reads 0 while its range leaves HBM: R21. -/
def exportDw0 (d0 d1 : Dword) : Dword :=
  let base := (d0.extractLsb' 16 32).toNat
  let limit := (d1.extractLsb' 16 28).toNat
  if base + limit + 1 ≤ 0x1000000 then d0 else d0 &&& 0x7FFFFFFFFFFFFFFF

/-- Whether slots and words of a group lie in HBM; if one does not, VALID reads 0: R310. -/
def groupInHbm (dw : Vector Dword 8) : Bool :=
  let rx := (dw[4].extractLsb' 16 32).toNat * 65536
  let sz := ((dw[6].extractLsb' 0 8).toNat + 1) * 65536
  let ar := (dw[5].extractLsb' 3 45).toNat * 8
  decide (rx + 2 * sz ≤ 0x10000000000) && decide (ar + 16 ≤ 0x10000000000)

def groupDw0 (dw : Vector Dword 8) : Dword := if groupInHbm dw then dw[0] else dw[0] &&& 0x7FFFFFFFFFFFFFFF

/-- The dword of the register at an 8-byte-aligned MMIO address. -/
def State.regRead (s : State) (pa : Nat) : Dword :=
  if pa < packageBlock then
    let die := (pa - dieBlock) / 0x10000000
    let o := (pa - dieBlock) % 0x10000000
    if 0x1000000 ≤ o ∧ o < 0x2000000 then
      let w := (o - 0x1000000) / 0x1000
      match s.threadAt ⟨BitVec.ofNat 12 (512 * die + w / 8), BitVec.ofNat 3 (w % 8)⟩ with
      | some t => t.dbg.window (o % 0x1000)
      | none => 0
    else if 0x2000000 ≤ o ∧ o < 0x2001000 then s.thermal.pwrcore (512 * die + (o - 0x2000000) / 8)
    else 0
  else if pa < postBlock then
    let o := pa - packageBlock
    if 0x10000 ≤ o ∧ o < 0x10100 then
      let i := (o - 0x10000) / 8
      (if i % 2 = 0 then exportDw0 (s.regs.exports.toList.getD i 0) (s.regs.exports.toList.getD (i + 1) 0)
       else s.regs.exports.toList.getD i 0)
    else if 0x20000 ≤ o ∧ o < 0x21000 then
      let g := s.groupAt (BitVec.ofNat 6 ((o - 0x20000) / 64))
      (if o % 64 = 0 then groupDw0 g.dw else g.dw.toList.getD (o % 64 / 8) 0)
    else if o = 0x30000 then s.regs.pkrank.setWidth 64
    else if o = 0x30008 then s.regs.frtbase
    else if 0x30010 ≤ o ∧ o < 0x30050 then (s.regs.detour.toList.getD ((o - 0x30010) / 8) 0).setWidth 64
    else if 0x40000 ≤ o ∧ o < 0x40800 then
      let q := s.queueAt (BitVec.ofNat 6 ((o - 0x40000) / 32))
      (if o % 32 = 0 then q.base else if o % 32 = 8 then q.ctl else if o % 32 = 16 then q.head.setWidth 64
       else q.tail.setWidth 64)
    else if 0x40800 ≤ o ∧ o < 0x41000 then
      (if o % 32 = 0 then (s.queueAt (BitVec.ofNat 6 ((o - 0x40800) / 32))).stat else 0)
    else if o = 0x41000 then jobCtl s.regs.prectl s.regs.preJob.isSome
    else if o = 0x41008 then jobCtl s.regs.resctl s.regs.resJob.isSome
    else if o = 0x42000 then s.regs.sevbase
    else if o = 0x42008 then s.regs.sevhead.setWidth 64
    else if o = 0x42010 then s.regs.sevlost ++ s.regs.sevtail
    else 0
  else
    let o := pa - postBlock
    if o = 8 then s.pm.mbstat
    else if o = 0x100 then s.thermal.thstat
    else if o = 0x200 then s.host.diesel.setWidth 64
    else if o = 0x208 then packFields [(s.host.bar2base.toNat, 10, 30)]
    else if 0x1000 ≤ o ∧ o < 0x2000 then
      BitVec.ofNat 64 (leVal ((List.range 8).map fun i => look 0 s.pm.buffer (o - 0x1000 + i)))
    else 0

/-- The bytes of a naturally aligned 4-byte or 8-byte read (R18). -/
def State.mmioBytes (s : State) (pa n : Nat) : List Byte :=
  let d := s.regRead (pa / 8 * 8)
  (leBytes 8 d.toNat).drop (pa % 8) |>.take n

end Sys2Proof.Machine
end

