-- ==== Sys2Proof/Machine/Ops.lean ====
section
/-! DEFINITION. The named operations every meaning is built from: registers and their taints, the mode, strips, the event
ring, the end of a thread, taking a trap and returning from one. -/
namespace Sys2Proof.Machine
open Sys2Proof

/-- The three outcomes of the machine. -/
abbrev Out := Host.Outcome State Fault Refusal

/-! ### Registers -/

/-- s-register r; s0 reads 0 (R156). -/
def Thread.sr (t : Thread) (r : BitVec 6) : Dword := if r = 0 then 0 else t.s[r.toFin]
/-- The taint set of an s-register; s0's is always empty (R96). -/
def Thread.sTaint (t : Thread) (r : BitVec 6) : Taint := if r = 0 then 0 else t.taints.s[r.toFin]
/-- A write to s-register r with its taint set; a write to s0 is discarded (R156). -/
def Thread.setS (t : Thread) (r : BitVec 6) (v : Dword) (tn : Taint) : Thread :=
  if r = 0 then t
  else { t with s := t.s.set r.toFin v, taints := { t.taints with s := t.taints.s.set r.toFin tn } }

/-- f-register r (R156). -/
def Thread.fr (t : Thread) (r : BitVec 5) : FReg := t.f[r.toFin]
def Thread.fTaint (t : Thread) (r : BitVec 5) : Taint := t.taints.f[r.toFin]
def Thread.setF (t : Thread) (r : BitVec 5) (v : FReg) (tn : Taint) : Thread :=
  { t with f := t.f.set r.toFin v, taints := { t.taints with f := t.taints.f.set r.toFin tn } }

/-- Field-map entry v (R27). -/
def Thread.fent (t : Thread) (v : BitVec 6) : Option FieldEnt := t.fmap[v.toFin]
def Thread.vTaint (t : Thread) (v : BitVec 6) : Taint := t.taints.v[v.toFin]
def Thread.setVTaint (t : Thread) (v : BitVec 6) (tn : Taint) : Thread :=
  { t with taints := { t.taints with v := t.taints.v.set v.toFin tn } }

/-- The taint set of a tag; k0's is always empty (R96). -/
def Thread.kTaint (t : Thread) (k : BitVec 4) : Taint := if k = 0 then 0 else t.taints.k[k.toFin]
def Thread.setKTaint (t : Thread) (k : BitVec 4) (tn : Taint) : Thread :=
  if k = 0 then t else { t with taints := { t.taints with k := t.taints.k.set k.toFin tn } }
def Thread.accTaint (t : Thread) (n : BitVec 2) : Taint := t.taints.acc[n.toFin]
def Thread.setAccTaint (t : Thread) (n : BitVec 2) (tn : Taint) : Thread :=
  { t with taints := { t.taints with acc := t.taints.acc.set n.toFin tn } }
/-- The control taint of the control stream with identifiers added (R97). -/
def Thread.addCtl (t : Thread) (tn : Taint) : Thread := { t with taints := { t.taints with ctl := t.taints.ctl ||| tn } }

/-- The PC of the next word. -/
def Thread.advance (t : Thread) : Thread := { t with pc := t.pc + 4 }
/-- Sticky flags set (R162). -/
def Thread.raiseFlags (t : Thread) (fl : Flags) : Thread := { t with flags := t.flags ||| fl }

/-- A ply changed. -/
def Thread.setPly (t : Thread) (j : Nat) (p : Ply) : Thread := { t with plies := t.plies.set! j p }
def Thread.plyAt (t : Thread) (j : Nat) : Ply := t.plies.toList.getD j .idle

/-! ### The mode: Table 7.3 -/

def modeGuard (m : BitVec 26) : BitVec 4 := m.extractLsb' 0 4
def modeSense (m : BitVec 26) : Bool := m.getLsbD 4
def modeTypeCode (m : BitVec 26) : BitVec 6 := m.extractLsb' 5 6
/-- The element type in MODE; MODE never holds a reserved code (R159). -/
def modeType (m : BitVec 26) : EType := (EType.ofCode (modeTypeCode m)).getD .sint
def modeRound (m : BitVec 26) : BitVec 3 := m.extractLsb' 11 3
/-- The rounding of everything but VSTEF: EFB acts as RNE (R177). -/
def modeRnd (m : BitVec 26) : BitVec 3 := if modeRound m = 5 then 0 else modeRound m
def modeSat (m : BitVec 26) : Bool := m.getLsbD 14
def modeTtrap (m : BitVec 26) : Bool := m.getLsbD 15
def modeTmin (m : BitVec 26) : BitVec 6 := m.extractLsb' 16 6

/-! ### Taint identifiers: R95 -/

/-- The identifiers that are outstanding. -/
def Thread.busyIds (t : Thread) : Taint := t.out.foldl (fun a o => a ||| (1 <<< o.id.toNat)) 0
/-- The lowest free identifier. -/
def Thread.freeId (t : Thread) : Option (BitVec 4) :=
  (List.range 16).findSome? fun i => if t.busyIds.getLsbD i then none else some (BitVec.ofNat 4 i)
/-- The set that holds one identifier. -/
def idSet (i : BitVec 4) : Taint := 1 <<< i.toNat
/-- An identifier removed from every set of the thread (R95). -/
def Thread.retire (t : Thread) (i : BitVec 4) : Thread :=
  let c (x : Taint) : Taint := x &&& ~~~ idSet i
  { t with
    out := t.out.filter (·.id ≠ i),
    taints := { s := t.taints.s.map c, f := t.taints.f.map c, v := t.taints.v.map c, k := t.taints.k.map c,
                acc := t.taints.acc.map c, plane := t.taints.plane.map c, ctl := c t.taints.ctl, ended := c t.taints.ended },
    plies := t.plies.map fun p => { p with
      queue := p.queue.map (fun b => { b with ctl := c b.ctl }),
      run := p.run.map (fun r => { r with ctl := c r.ctl, blk := { r.blk with ctl := c r.blk.ctl } }) } }

/-- An identifier taken by an access of a stream (R95). -/
def Thread.take (t : Thread) (i : BitVec 4) (vec : Bool) (acq : Option (Option Binding)) : Thread :=
  { t with out := t.out ++ [⟨i, vec, acq⟩] }

/-! ### MSI-X and the event ring: R338, R371 -/

/-- A vector whose event occurs: sent, or pending while something masks it. -/
def State.raiseVector (s : State) (v : BitVec 8) : State :=
  if s.host.msixEnable && !s.host.functionMask && s.host.unmasked.getLsbD v.toNat then
    { s with host := { s.host with sent := s.host.sent ++ [v] } }
  else { s with host := { s.host with pending := s.host.pending ||| (1 <<< v.toNat) } }

/-- The number of entries of the event ring. -/
def ringLen (sevbase : Dword) : Nat := ((sevbase.extractLsb' 0 8).toNat + 1) * 128

/-- An event with its stamp appended to the supervisor event ring, which raises vector 65, or counted as lost when the ring is full
(R338). -/
def State.eventAt (s : State) (i : TrapInfo) (ctx : BitVec 16) (tid : Tid) (stamp : Dword) : State :=
  let len := ringLen s.regs.sevbase
  let tail := s.regs.sevtail.toNat
  let next := (tail + 1) % len
  if next = s.regs.sevhead.toNat then
      { s with regs := { s.regs with sevlost := if s.regs.sevlost = 0xFFFFFFFF then s.regs.sevlost else s.regs.sevlost + 1 } }
    else
      let a := (s.regs.sevbase.extractLsb' 12 36).toNat * 4096 + 32 * tail
      let d0 := packFields [(i.code.toNat, 8, 0), (i.sub.toNat, 8, 16), (ctx.toNat, 16, 32), (tid.slot.toNat, 3, 48),
        (tid.core.toNat, 13, 51)]
      let s := s.homeWrite a 0 (leBytes 8 d0.toNat ++ leBytes 8 i.val.toNat ++ leBytes 8 (i.count ++ i.index).toNat
        ++ leBytes 8 stamp.toNat)
      State.raiseVector { s with regs := { s.regs with sevtail := BitVec.ofNat 32 next } } 65

/-- An event of now. -/
def State.event (s : State) (i : TrapInfo) (ctx : BitVec 16) (tid : Tid) : State := s.eventAt i ctx tid s.cycles

/-- A trap record without operands. -/
def TrapInfo.mk0 (code : BitVec 8) (val : Dword) : TrapInfo := ⟨code, 0, 15, val, 0, 0⟩

/-! ### Strips: R341 to R346 -/

/-- The checkpoint of a strip that opens now at the present PC (R341). -/
def Thread.checkpoint (t : Thread) (long : Bool) : Checkpoint :=
  { pc := t.pc, vl := t.vl, mode := t.mode, scm := t.scm, s := t.s, efr := t.efr, plies := t.plies,
    long := if long then some (t.armed, t.fmask, t.pidx, t.redlo, t.redhi, t.mrow) else none }

/-- A new strip opened at the present PC. -/
def Thread.openStrip (t : Thread) (long : Bool) : Thread :=
  { t with strip := { Strip.fresh with ckpt := t.checkpoint long } }

/-- The open strip committed: its stores leave the buffer in program order for the background drain, its pins are
released (R342, R345, R346). The strip stays open and is not rewindable. -/
def State.commit (s : State) : State :=
  { s with
    drain := s.drain ++ s.th.strip.buf.map (fun b => (s.th.tid, b)),
    th := { s.th with strip := { s.th.strip with buf := [], rewindable := false, pins := [], rewinds := 0 } } }

/-- The open strip marked not rewindable without a commit (R343). -/
def Thread.noRewind (t : Thread) : Thread := { t with strip := { t.strip with rewindable := false } }

/-- The bytes the strip store buffer holds (R345): a scatter-add update counts the bytes of its elements. -/
def Buffered.size (b : Buffered) : Nat :=
  match b.op with
  | .write bs => bs.length
  | .add op parts => op.bytes.toNat * parts.length
def Strip.held (x : Strip) : Nat := x.buf.foldl (fun a b => a + b.size) 0

/-- Whether a buffered entry is a scatter-add update. -/
def Buffered.isAdd (b : Buffered) : Bool :=
  match b.op with
  | .write _ => false
  | .add _ _ => true

/-! ### The thread in focus -/

/-- A thread's place in the order of parked threads. -/
def tidKey (t : Tid) : Nat := t.core.toNat * 8 + t.slot.toNat

/-- A thread put among the parked ones. -/
def park (t : Thread) : List Thread → List Thread
  | [] => [t]
  | x :: xs => if tidKey t.tid < tidKey x.tid then t :: x :: xs else x :: park t xs

/-- Whether a slot holds a thread, or the registers of one that has ended. -/
def Thread.kept (t : Thread) : Bool := t.live || t.ended

/-- The thread of a slot brought into focus, its control thread acting; unchanged when no thread lives there. -/
def State.focus (s : State) (t : Tid) : State :=
  if s.th.live && s.th.tid = t then { s with who := .control }
  else match s.parked.find? fun x => x.live && x.tid = t with
    | none => s
    | some x =>
      let rest := s.parked.filter fun y => y.tid ≠ t
      { s with who := .control, th := x, parked := if s.th.kept then park s.th rest else rest }

/-- Whether the thread of a slot is in focus. -/
def State.focused (s : State) (t : Tid) : Bool := s.th.live && s.th.tid = t

/-- A thread placed in its slot, parked; what a thread that ended there left behind is gone. -/
def State.addThread (s : State) (t : Thread) : State :=
  { s with
    th := if s.th.ended && s.th.tid = t.tid then .blank else s.th, parked := park t (s.parked.filter fun x => x.tid ≠ t.tid) }

/-! ### The end of a thread -/

/-- The keys of the rows of a thread's plies. -/
def Thread.rowKeys (t : Thread) : List Nat :=
  (List.range (256 * t.n)).map fun i => Machine.rowKey t.tid.core (256 * t.base.toNat + i)

/-- Rows and tags cleared, with correct parity (R25). -/
def State.clearRows (s : State) (keys : List Nat) : State :=
  { s with
    rows := keys.foldl (fun m k => put 0 m k 0) s.rows,
    tags := keys.foldl (fun m k => put 0 m k 0) s.tags,
    badCols := keys.foldl (fun m k => put 0 m k 0) s.badCols }

/-- A boost lease's budget returned to the pool and its bands returned to nominal voltage (R215, R352, R365). -/
def State.dropLease (s : State) (t : Thread) : State :=
  match t.lease with
  | none => s
  | some (bands, _) =>
    let k := t.tid.core.toNat
    let n := (List.range 4).foldl (fun a i => if bands.getLsbD i then a + 1 else a) 0
    { s with thermal := { s.thermal with
        pool := s.thermal.pool + 33 * n, leases := s.thermal.leases.filter (· ≠ t.tid),
        boosted := put 0 s.thermal.boosted k (look 0 s.thermal.boosted k &&& ~~~ bands) } }

/-- Whether a core's rails are on: in the states of Table 17.3 that have them on, on a die that is not HOT (Table 17.1). -/
def State.railsOn (s : State) (core : BitVec 12) : Bool :=
  (s.thermal.state == .coldReady || s.thermal.state == .active || s.thermal.state == .quiesce || s.thermal.state == .critical)
    && s.thermal.band.toList.getD (dieOf core) 0 != 3#2

/-- The package in another state of Table 17.3; each change raises vector 66 (R359). -/
def State.setPk (s : State) (p : PkState) : State :=
  State.raiseVector { s with thermal := { s.thermal with state := p } } 66

/-- QUIESCE ends when no thread is left to save (R359). -/
def State.quiesced (s : State) : State :=
  if s.thermal.state = .quiesce && s.threads.isEmpty && s.reserved.isEmpty then s.setPk .ascend else s

/-- Whether a PRECTL or RESCTL image names a thread (R330). -/
def jobNames (img : BitVec 33) (ctx : BitVec 16) (t : Tid) : Bool :=
  img.extractLsb' 0 16 == ctx &&
    (img.getLsbD 32 || ((img.extractLsb' 16 13).toNat == t.core.toNat && img.extractLsb' 29 3 == t.slot))

/-- The jobs of PRECTL and RESCTL that have ended: no named thread has still to be saved or restored; vector 64 is
raised for each (R330, R351). -/
def State.jobsDone (s : State) : State :=
  let s := match s.regs.preJob with
    | none => s
    | some i =>
      if s.threads.any fun t => t.saveReq && jobNames i t.ctx t.tid then s
      else State.raiseVector { s with regs := { s.regs with preJob := none } } 64
  match s.regs.resJob with
  | none => s
  | some i =>
    if s.saved.any fun x => x.restore && jobNames i x.ctx x.tid then s
    else State.raiseVector { s with regs := { s.regs with resJob := none } } 64

/-- Whether a context still has a running or saved thread on a cluster, so that its arrival-word page stays (R15). -/
def State.pageHeld (s : State) (ctx : BitVec 16) (cl : BitVec 10) : Bool :=
  s.threads.any (fun t => t.ctx == ctx && clusterOf t.tid.core == cl)
    || s.saved.any (fun t => t.ctx == ctx && clusterOf t.tid.core == cl)

/-- The number of cores of an instance of a tier. -/
def tierCores (t : BitVec 3) : Nat :=
  if t = 0 then 1 else if t = 1 then 1 else if t = 2 then 4 else if t = 3 then 256 else 4096

/-- Whether a core lies in the instance of a held start. -/
def Hold.has (h : Hold) (core : BitVec 12) : Bool := decide (core.toNat / tierCores h.tier = h.inst)
/-- Whether a cluster has a core in the instance of a held start. -/
def Hold.hasCluster (h : Hold) (cl : BitVec 10) : Bool := (List.range 4).any fun i => h.has (cl ++ BitVec.ofNat 2 i)

/-- Slot, plies and tiles that a thread gives back, kept for the held start of the instance they lie in (R326). -/
def Hold.keep (h : Hold) (t : Thread) : Hold :=
  if !h.has t.tid.core then h
  else
    let c := t.tid.core.toNat
    { h with
      slots := tidKey t.tid :: h.slots,
      plies := (List.range t.n).map (fun i => 16 * c + t.base.toNat + i) ++ h.plies,
      tiles := put 0 h.tiles c (look 0 h.tiles c + t.tiles.toNat) }

/-- A page's words cleared once its context no longer holds it; the page is kept for a held start there (R15, R326). -/
def State.freePage (s : State) (ctx : BitVec 16) (cl : BitVec 10) : State :=
  if s.pageHeld ctx cl then s
  else { s with
    arr := s.arr.filter fun (k, _) => !(k / 512 == ctx.toNat * 1024 + cl.toNat),
    held := s.held.map fun (h : Hold) =>
      if h.hasCluster cl then { h with pages := put 0 h.pages cl.toNat (look 0 h.pages cl.toNat + 1) } else h }

/-- Whether a place is a row of a thread's plies. -/
def Thread.holdsPlace (t : Thread) (q : Place) : Bool :=
  match q with
  | .row c p _ => c = t.tid.core && decide (t.base.toNat ≤ p.toNat / 256) && decide (p.toNat / 256 < t.base.toNat + t.n)
  | .mem _ _ _ => false
  | .dev _ => false
  | .arr _ => false

/-- A thread taken out of its slot: its plies, tiles, lease and slot freed (R130, R146). `t` is the thread as it stands, `left` what the slot
holds then, where it is in focus. -/
def State.vacate (s : State) (t left : Thread) : State :=
  let s := s.dropLease t
  let s := { s with
    th := if s.th.live && s.th.tid = t.tid then left else s.th,
    parked := s.parked.filter (fun x => x.tid ≠ t.tid),
    held := s.held.map (fun (h : Hold) => h.keep t),
    mq := s.mq.filter (fun m => m.tid ≠ t.tid),
    ages := s.ages.filter (fun a => a.tid ≠ t.tid),
    turns := s.turns.filter (fun a => a.2 ≠ t.tid) }
  (s.freePage t.ctx (clusterOf t.tid.core)).quiesced.jobsDone

/-- A thread taken out of its slot, its plies returned cleared (R25, R166, R349): its committed stores to them are gone with the rows. -/
def State.removeThread (s : State) (t : Thread) : State :=
  State.vacate { s.clearRows t.rowKeys with drain := s.drain.filter fun (x, b) => !(x = t.tid && t.holdsPlace b.place) } t
    { Thread.blank with tid := t.tid }

/-- The thread in focus at its end (R146): its plies go back to the allocator, which clears them as it grants them again (R25); its registers
stand as they are. -/
def State.endThread (s : State) : State :=
  s.vacate s.th { s.th with live := false, ended := true, plies := .replicate 16 .idle, lease := none, strip := .fresh }

/-- A context killed (R166): its threads end with no arrival, its saved images and save list are released, and its entry
ends not valid. SVFAIL keeps its value. -/
def State.killContext (s : State) (c : BitVec 16) : State :=
  let s := (s.threads.filter (·.ctx = c)).foldl (fun s t => s.removeThread t) s
  let gone := (s.saved.filter (·.ctx = c)).foldl (fun l x =>
    if l.contains (clusterOf x.tid.core) then l else clusterOf x.tid.core :: l) []
  let s := { s with
    saved := s.saved.filter (·.ctx ≠ c),
    reserved := s.reserved.filter (fun r => r.record[3].extractLsb' 0 16 ≠ c) }
  let s := gone.foldl (fun s cl => s.freePage c cl) s
  (s.ctxPut c { s.ctxAt c with valid := false, save := [], stored := false }).quiesced.jobsDone

/-! ### Taking a trap: R332 to R337, R144 -/

/-- The blocks that some ply of the thread still holds queued and unstarted, in dispatch order. -/
def insertBlock (b : Block) : List Block → List Block
  | [] => [b]
  | x :: xs => if b.seq = x.seq then x :: xs else if b.seq < x.seq then b :: x :: xs else x :: insertBlock b xs

/-- The owned plies, lowest offset first. -/
def Thread.owned (t : Thread) : List (Nat × Ply) := (List.range t.n).map fun j => (j, t.plies.toList.getD j .idle)

def Thread.queued (t : Thread) : List Block :=
  t.owned.foldl (fun acc (_, p) => p.queue.foldl (fun acc b => insertBlock b acc) acc) []

/-- Whether ply p no longer holds block `seq` queued: it has ended it or stands in it. -/
def Ply.past (p : Ply) (seq : Nat) : Bool := !(p.queue.any (·.seq = seq))

/-- TBQA and TBQM of a block: Table 16.2. -/
def Thread.tbq (t : Thread) (b : Block) : Dword × Dword :=
  let done := t.owned.foldl (fun a (j, p) => if p.past b.seq then a + 2 ^ j else a) 0
  (packFields [(1, 1, 63), (b.addr.toNat / 4, 54, 2), (if b.one then 1 else 0, 1, 0)],
   packFields [(done, 16, 48), (b.vl.toNat, 13, 32), (b.mode.toNat, 26, 0)])

/-- TPPC, TPBS, TPMD of a ply: Table 16.2. -/
def Ply.saved (p : Ply) : Dword × Dword × Dword :=
  match p.run with
  | none => (0, 0, 0)
  | some r =>
    (packFields [(r.pc.toNat / 4, 54, 2), (1, 1, 0)],
     packFields [(r.blk.addr.toNat / 4, 54, 2), (if r.blk.one then 1 else 0, 1, 0)],
     packFields [(r.vl.toNat, 13, 32), (r.mode.toNat, 26, 0)])

/-- The plies with their state moved into TBQ, TPPC, TPBS and TPMD (R335). -/
def Thread.saveBlocks (t : Thread) : Thread :=
  let qs := t.queued.map t.tbq
  let ps := t.plies.map Ply.saved
  { t with
    trap := { t.trap with
      tbqa := Vector.ofFn fun (i : Fin 4) => (qs.getD i.val (0, 0)).1,
      tbqm := Vector.ofFn fun (i : Fin 4) => (qs.getD i.val (0, 0)).2,
      tppc := ps.map (·.1), tpbs := ps.map (·.2.1), tpmd := ps.map (·.2.2) },
    segs := [], plies := t.plies.map fun p => { Ply.idle with drowsy := p.drowsy } }

/-- Whether no ply of the thread can go on: each has no running block, or waits, or stands stopped (R144). -/
def Thread.pliesStand (t : Thread) : Bool :=
  t.owned.all fun (_, p) =>
    p.stopped.isSome ||
      (match p.run with
       | none => true
       | some r => (match r.wait with | .running => false | .splice => true | .crossing => true | .held => true))

/-- Plies that stand at a restart point go on with their word: nothing asks them any longer to stop (R340). -/
def Thread.unhold (t : Thread) : Thread :=
  { t with plies := t.plies.map fun p => { p with run := p.run.map fun r =>
      { r with wait := if r.wait = .held then .running else r.wait } } }

/-- The lowest-numbered ply that stands stopped by a fault (R144). -/
def Thread.plyFault (t : Thread) : Option (TrapInfo × Dword × Nat) :=
  t.owned.findSome? fun (j, p) => p.stopped.map fun (i, stamp) => (i, stamp, j)

/-- Whether an invalidation of the thread is on its way: it issues nothing until the end (R57). -/
def State.awaitsInval (s : State) (t : Tid) : Bool := s.inval.any fun x => x.tid = t

/-- Whether a thread issued a chunk. -/
def Chunk.of (c : Chunk) (t : Thread) : Bool := t.group == c.group && t.rank == c.rank && t.ctx == c.ctx

/-- Whether a synchronous copy of the thread is under way: the thread issues nothing (R306). -/
def State.awaitsCopy (s : State) (t : Thread) : Bool := s.chunks.any fun c => c.sync && c.of t

/-- Whether a thread stands in the middle of a word of the control stream: in a page of PGSHARE or PGDROP, a TLBINV or a
synchronous copy that has not completed (R50, R57, R306). No trap is taken and no save is made there. -/
def State.midWord (s : State) (t : Thread) : Bool := s.awaitsInval t.tid || s.awaitsCopy t

/-- Whether every check of the open strip has ended (R295, R348). -/
def Strip.checked (x : Strip) : Bool := x.checks == 0 && x.mchecks.isEmpty

/-- Whether every condition of R335 before the trap registers are written is met: plies stand, taints have retired, the
strip is not in error and its checks have ended. -/
def Thread.quiet (t : Thread) : Bool :=
  t.pliesStand && t.out.isEmpty && t.strip.error.isNone && t.strip.checked

/-- Address bits [55:2] of an image. -/
def wordAddr (x : Dword) : Dword := x &&& 0x00FFFFFFFFFFFFFC

/-- TCAUSE: Table 16.2. -/
def causeImage (i : TrapInfo) (ply : Option Nat) : Dword :=
  packFields [(if ply.isSome then 1 else 0, 1, 24), (i.sub.toNat, 8, 16), (i.opnd.toNat, 4, 12), (ply.getD 0, 4, 8),
    (i.code.toNat, 8, 0)]

/-- A trap delivered to the thread in focus (R335): the open strip is committed, the trap registers and the ply state are
written, the handler begins at TVBASE + 16 × code as supervisor, with every taint set empty and a new strip open. A trap
that arises while INH = 1 is a double trap: DOUBLE goes to the event ring and the context is killed (R337). -/
def State.deliver (s : State) (i : TrapInfo) (ply : Option Nat) (stamp : Dword) : State :=
  let s := s.commit
  let t := s.th
  if t.trap.inh then
    (s.eventAt (TrapInfo.mk0 cDOUBLE (i.code.setWidth 64)) t.ctx t.tid stamp).killContext t.ctx
  else
    let t := t.saveBlocks
    let trap := { t.trap with
      cause := causeImage i ply, epc := wordAddr t.pc, val := i.val, info := i.count ++ i.index, stamp := stamp,
      ppriv := t.priv, svc := true, inh := true }
    let t := { t with
      trap := trap, priv := true, taints := .empty, pend := none, sleep := .awake,
      pc := trap.vbase + 16 * i.code.setWidth 64 }
    { s with who := .control, th := t.openStrip true, mq := s.mq.filter fun m => m.tid ≠ t.tid }

/-- A trap asked for by the control thread in focus: it is delivered at once when nothing has to be awaited, and is held
until then otherwise (R335, `TRAP_DELIVERY`). -/
def State.raise (s : State) (i : TrapInfo) : State :=
  if s.th.quiet then s.deliver i none s.cycles else { s with th := { s.th with pend := some (i, s.cycles) } }

/-- A fault of the ply at offset j: the ply stops (R144). -/
def Thread.stopPly (t : Thread) (j : BitVec 4) (i : TrapInfo) (stamp : Dword) : Thread :=
  { t with plies := t.plies.set j.toFin { t.plies[j.toFin] with stopped := some (i, stamp) } }

/-- A precise fault of the agent that executes: the control thread traps, a ply stops at the word (R144, R332). -/
def State.fault (s : State) (i : TrapInfo) : State :=
  match s.who with
  | .control => s.raise i
  | .ply j => { s with th := s.th.stopPly j i s.cycles }

/-- ILLOP reports the word (Table 16.1). -/
def illop (w : IWord) : TrapInfo := TrapInfo.mk0 cILLOP (w.setWidth 64)
/-- PRIVOP reports the word (Table 16.1). -/
def privop (w : IWord) : TrapInfo := TrapInfo.mk0 cPRIVOP (w.setWidth 64)

/-- An asynchronous event of class S for a thread: it fills the pending slot, raises the count of the code held there, or
goes to the event ring (R336, R337). A vanished thread's event goes to the ring. -/
def State.async (s : State) (tid : Tid) (ctx : BitVec 16) (i : TrapInfo) : State :=
  match s.threadAt tid with
  | none => s.event i ctx tid
  | some t =>
    if t.ctx ≠ ctx then s.event i ctx tid
    else
      let held := t.trap.pcause.extractLsb' 0 8
      let upd (tr : TrapRegs) : State :=
        s.mapThreads fun x => if x.live && x.tid = tid then { x with trap := tr } else x
      if held = 0 then
        upd { t.trap with pcause := causeImage i none, pval := i.val, pinfo := i.count ++ i.index, pstamp := s.cycles }
      else if held = i.code then upd { t.trap with pinfo := t.trap.pinfo + 0x100000000 }
      else s.event i ctx tid

/-! ### A meaning in its place -/

/-- A control-stream instruction: it executes in the control thread in focus; in a block it is ILLOP (R133, R193). -/
def ctl (w : IWord) (s : State) (f : State → State) : Out :=
  if !s.th.live then .fault .noThread
  else match s.who with
    | .control => .next (f s)
    | .ply _ => .next (s.fault (illop w))

/-- The thread in focus changed. -/
def State.upd (s : State) (f : Thread → Thread) : State := { s with th := f s.th }

/-- An error of a thread's open strip, with its source of R347; the first one stands. -/
def Thread.strike (t : Thread) (src : BitVec 3) (addr : Dword) : Thread :=
  { t with strip := { t.strip with error := t.strip.error <|> some (src, addr) } }

/-- The end of a step of another agent: the state it leaves. -/
def agent (s : State) : Out := .next s

end Sys2Proof.Machine
end

