-- ==== Sys2Proof/Machine/Launch.lean ====
section
/-! DEFINITION. Queues, start records, the launch engines, ply and tile grants, the start of a thread: 06 R129 to R132,
R147, R148, 15 R321 to R326, R331. -/
namespace Sys2Proof.Machine
open Sys2Proof

/-! ### Start records: Table 15.2 -/

abbrev Record := Vector Dword 8
def recEntry (r : Record) : Dword := r[0].extractLsb' 0 56 |>.setWidth 64
def recArg (r : Record) : Dword := r[1]
def recDone (r : Record) : Dword := r[2].extractLsb' 0 56 |>.setWidth 64
def recCtx (r : Record) : BitVec 16 := r[3].extractLsb' 0 16
def recPrio (r : Record) : BitVec 3 := r[3].extractLsb' 16 3
def recTier (r : Record) : BitVec 3 := r[3].extractLsb' 19 3
def recPmin (r : Record) : Nat := (r[3].extractLsb' 22 3).toNat
def recPmax (r : Record) : Nat := (r[3].extractLsb' 25 3).toNat
def recAcc (r : Record) : BitVec 3 := r[3].extractLsb' 28 3
def recPreempt (r : Record) : Bool := r[3].getLsbD 31
/-- The number of threads of the group. -/
def recSize (r : Record) : Nat := (r[3].extractLsb' 32 16).toNat + 1
def recVlmax (r : Record) : BitVec 13 := r[4].extractLsb' 0 13
def recFoot (r : Record) : BitVec 13 := r[4].extractLsb' 16 13
def recInst (r : Record) : Nat := (r[4].extractLsb' 32 16).toNat
def recPin (r : Record) : Bool := r[4].getLsbD 48

/-! ### What a core has left -/

/-- The held starts that keep what is freed in their instances from a start of queue q; `none` stands for a restore (R326). -/
def State.others (s : State) (q : Option (BitVec 6)) : List Hold := s.held.filter fun h => q != some h.queue

/-- Whether a slot of a core holds no thread, none is reserved for it, and it is not kept for another start (R129, R326). -/
def State.slotFree (s : State) (q : Option (BitVec 6)) (core : BitVec 12) (slot : BitVec 3) : Bool :=
  !(s.threads.any fun t => t.tid = ⟨core, slot⟩) && !(s.reserved.any fun r => r.tid = ⟨core, slot⟩)
    && !((s.others q).any fun h => h.slots.contains (tidKey ⟨core, slot⟩))

/-- The lowest free slot. -/
def State.freeSlot (s : State) (q : Option (BitVec 6)) (core : BitVec 12) : Option (BitVec 3) :=
  ((List.range 8).map (BitVec.ofNat 3)).find? (s.slotFree q core)

/-- Whether a ply of a core is owned, or granted to a thread that has still to start. -/
def State.plyTaken (s : State) (core : BitVec 12) (p : Nat) : Bool :=
  (s.threads.any fun t => t.tid.core = core && decide (t.base.toNat ≤ p) && decide (p < t.base.toNat + t.n))
    || (s.reserved.any fun r => r.tid.core = core && decide (r.base.toNat ≤ p) && decide (p < r.base.toNat + 2 ^ r.log2n.toNat))

/-- The tiles of a core in use (R157). -/
def State.tilesUsed (s : State) (core : BitVec 12) : Nat :=
  (s.threads.filter fun t => t.tid.core = core).foldl (fun a t => a + t.tiles.toNat) 0
    + (s.reserved.filter fun r => r.tid.core = core).foldl (fun a r => a + (recAcc r.record).toNat) 0

/-- Whether a ply of a core cannot be granted to a start: it is taken, or kept for another (R326). -/
def State.plyBarred (s : State) (q : Option (BitVec 6)) (core : BitVec 12) (p : Nat) : Bool :=
  s.plyTaken core p || (s.others q).any fun h => h.plies.contains (16 * core.toNat + p)

/-- The tiles of a core that a start cannot have: those in use, and those kept for another (R326). -/
def State.tilesBarred (s : State) (q : Option (BitVec 6)) (core : BitVec 12) : Nat :=
  (s.others q).foldl (fun a h => a + look 0 h.tiles core.toNat) (s.tilesUsed core)

/-- The contexts that hold an arrival-word page on a cluster (R15). -/
def State.pagesOn (s : State) (cl : BitVec 10) : List (BitVec 16) :=
  let cs := (s.threads.filter fun t => clusterOf t.tid.core = cl).map (·.ctx)
    ++ (s.saved.filter fun t => clusterOf t.tid.core = cl).map (·.ctx)
    ++ (s.reserved.filter fun r => clusterOf r.tid.core = cl).map fun r => recCtx r.record
  cs.foldl (fun l c => if l.contains c then l else c :: l) []

/-- Whether a context has a page on a cluster or can be given one that is not kept for another start (R15, R326). -/
def State.pageFor (s : State) (q : Option (BitVec 6)) (ctx : BitVec 16) (cl : BitVec 10) : Bool :=
  let l := s.pagesOn cl
  l.contains ctx || decide ((s.others q).foldl (fun a h => a + look 0 h.pages cl.toNat) l.length < 8)

/-! ### Ply grants: R130 -/

/-- Whether the aligned set of 2^k plies with number i is free. -/
def setFree (free : Nat → Bool) (k i : Nat) : Bool := (List.range (2 ^ k)).all fun x => free (i * 2 ^ k + x)

/-- The size exponent of the free block that a free aligned set lies in. -/
def blockOf (free : Nat → Bool) (k b : Nat) : Nat :=
  (List.range 5).foldl (fun m j => if k ≤ j && setFree free j (b / 2 ^ j) then Nat.max m j else m) k

/-- The free set of 2^k plies in the smallest block, the lowest of them. -/
def grantAt (free : Nat → Bool) (same : Nat → Nat → Bool) (k : Nat) : Option Nat :=
  let sets := ((List.range (16 / 2 ^ k)).map (· * 2 ^ k)).filter fun b => setFree free k (b / 2 ^ k) && same b (2 ^ k)
  match sets with
  | [] => none
  | b :: bs => some (bs.foldl (fun best x => if blockOf free k x < blockOf free k best then x else best) b)

/-- The largest grant from 2^lo to 2^(lo + d) plies: base and exponent. -/
def grantPlies (free : Nat → Bool) (same : Nat → Nat → Bool) (lo : Nat) : Nat → Option (Nat × Nat)
  | 0 => (grantAt free same lo).map fun b => (b, lo)
  | d + 1 =>
    match grantAt free same (lo + d + 1) with
    | some b => some (b, lo + d + 1)
    | none => grantPlies free same lo d

/-- Whether the plies of a set hold one microcode table (R376). -/
def State.sameTable (s : State) (core : BitVec 12) (b n : Nat) : Bool :=
  let k := core.toNat * 16
  (List.range n).all fun i => look 0 s.pm.plyTable (k + b + i) == look 0 s.pm.plyTable (k + b)

/-- A grant on a core. -/
def State.grant (s : State) (q : Option (BitVec 6)) (core : BitVec 12) (lo hi : Nat) : Option (Nat × Nat) :=
  if hi < lo then none else grantPlies (fun p => !s.plyBarred q core p) (s.sameTable core) lo (hi - lo)

/-- A grant of exactly 2^k plies, for a thread that is restored or moved (R151, R351). -/
def State.regrant (s : State) (core : BitVec 12) (k : Nat) : Option Nat := (s.grant none core k k).map (·.1)

/-! ### Placement: R325, R148 -/

/-- The limit of a group's size on one package: Table 6.4. -/
def tierLimit (t : BitVec 3) : Nat :=
  if t = 0 then 1 else if t = 1 then 8 else if t = 2 then 32 else if t = 3 then 2048 else 32768

/-- The instances of a tier on a die. -/
def tierInstances (t : BitVec 3) (die : BitVec 3) : List Nat :=
  if t = 4 ∨ t = 5 then [0]
  else
    let k := 512 / tierCores t
    (List.range k).map fun i => die.toNat * k + i

/-- The cores of an instance, in ascending order. -/
def instanceCores (t : BitVec 3) (i : Nat) : List (BitVec 12) :=
  (List.range (tierCores t)).map fun c => BitVec.ofNat 12 (i * tierCores t + c)

/-- The free plies of an instance. -/
def State.freePlies (s : State) (t : BitVec 3) (i : Nat) : Nat :=
  (instanceCores t i).foldl (fun a c => a + ((List.range 16).filter fun p => !s.plyTaken c p).length) 0

/-- The threads a core can hold when empty: cause 2 of Table 15.3. -/
def coreCapacity (r : Record) : Nat :=
  Nat.min 8 (Nat.min (16 / 2 ^ recPmin r) (if recAcc r = 0 then 8 else 4 / (recAcc r).toNat))

/-- One thread reserved on a core, if it can take one. -/
def State.reserveOn (s : State) (q : BitVec 6) (r : Record) (group : Nat) (core : BitVec 12) : Option Reserved :=
  if !s.pageFor (some q) (recCtx r) (clusterOf core) then none
  else if 4 < s.tilesBarred (some q) core + (recAcc r).toNat then none
  else match s.freeSlot (some q) core, s.grant (some q) core (recPmin r) (recPmax r) with
    | some sl, some (b, k) =>
      some { tid := ⟨core, sl⟩, queue := q, record := r, group := group, rank := 0, base := BitVec.ofNat 4 b,
             log2n := BitVec.ofNat 3 k }
    | _, _ => none

/-- One round over the cores: at most one thread on each. -/
def State.reserveRound (s : State) (q : BitVec 6) (r : Record) (group : Nat) :
    List (BitVec 12) → Nat → State × List Reserved
  | [], _ => (s, [])
  | _, 0 => (s, [])
  | c :: cs, need + 1 =>
    match s.reserveOn q r group c with
    | none => s.reserveRound q r group cs (need + 1)
    | some x =>
      let (s', l) := State.reserveRound { s with reserved := s.reserved ++ [x] } q r group cs need
      (s', x :: l)

/-- Rounds until every thread is reserved; at most one round for each slot of a core. -/
def State.reserveRounds (s : State) (q : BitVec 6) (r : Record) (group : Nat) (cores : List (BitVec 12)) :
    Nat → Nat → List Reserved
  | 0, _ => []
  | fuel + 1, need =>
    if need = 0 then []
    else
      let (s', l) := s.reserveRound q r group cores need
      l ++ s'.reserveRounds q r group cores fuel (need - l.length)

/-- Ranks in ascending order of core and slot (R148). -/
def ranked (l : List Reserved) : List Reserved :=
  let ins (x : Reserved) (xs : List Reserved) : List Reserved :=
    xs.takeWhile (fun y => tidKey y.tid < tidKey x.tid) ++ [x] ++ xs.dropWhile (fun y => tidKey y.tid < tidKey x.tid)
  (l.foldl (fun a x => ins x a) []).zipIdx.map fun (x, i) => { x with rank := BitVec.ofNat 16 i }

/-- A whole group reserved in an instance, or nothing. -/
def State.reserveIn (s : State) (q : BitVec 6) (r : Record) (inst : Nat) : Option (List Reserved) :=
  let l := s.reserveRounds q r s.nextGroup (instanceCores (recTier r) inst) 8 (recSize r)
  if l.length = recSize r then some (ranked l) else none

/-- The instances a head may take: the pinned one, the one fixed for a held start, or all of the tier on the die. -/
def State.candidates (s : State) (q : BitVec 6) (r : Record) : List Nat :=
  match s.held.find? fun h => h.queue = q with
  | some h => [h.inst]
  | none => if recPin r then [recInst r] else tierInstances (recTier r) (s.queueAt q).die

/-- The placement of a head: among the instances that can take the group the one with the most free plies, the lowest
among equals. -/
def State.placement (s : State) (q : BitVec 6) (r : Record) : Option (List Reserved) :=
  let good := (s.candidates q r).filterMap fun i => (s.reserveIn q r i).map fun l => (s.freePlies (recTier r) i, l)
  match good with
  | [] => none
  | x :: xs => some (xs.foldl (fun b y => if b.1 < y.1 then y else b) x).2

/-! ### Checks and refusals: R324 -/

/-- The cause of Table 15.3 for which a record is refused, the lowest of those that hold. -/
def State.recordCause (s : State) (die : BitVec 3) (r : Record) : Option (BitVec 8) :=
  let t := recTier r
  if 6 ≤ t.toNat ∨ recPmax r < recPmin r ∨ 4 < recPmin r ∨ 4 < recPmax r ∨ 4 < (recAcc r).toNat then some 1
  else if tierLimit t < recSize r ∨ tierCores t * coreCapacity r < recSize r then some 2
  else if !(s.ctxAt (recCtx r)).valid then some 3
  else if recEntry r &&& 3 ≠ 0 ∨ recDone r &&& 7 ≠ 0 then some 4
  else if recPin r ∧ (4 ≤ t.toNat ∨ !(tierInstances t die).contains (recInst r)) then some 5
  else none

/-- A queue's head no longer held, nor among the package's starts. -/
def State.unheld (s : State) (q : BitVec 6) : State :=
  { s with held := s.held.filter (·.queue ≠ q), packageQ := s.packageQ.filter (· ≠ q) }

/-- The queue stopped with a cause and an index; vector q is raised (R324). A cause-6 stop refuses no record: the head that it has
read stays as it was read (R322). -/
def State.haltQueue (s : State) (q : BitVec 6) (cause : BitVec 8) (index : BitVec 32) : State :=
  let x := s.queueAt q
  let x := { x with halted := true, cause := cause, index := index }
  ((s.queuePut q (if cause = 6 then x else { x with waiting := none, part := [] })).unheld q).raiseVector (q.setWidth 8)

/-- The number of records a queue holds (R321). -/
def Queue.count (x : Queue) : Nat := (x.tail - x.head).toNat
def Queue.capacity (x : Queue) : Nat := 2 ^ x.log2n.toNat

/-- A queue that holds more records than it has entries stops with cause 6 (R322). -/
def State.queueOverrun (s : State) (q : BitVec 6) : State :=
  let x := s.queueAt q
  if x.capacity < x.count then s.haltQueue q 6 (x.head + BitVec.ofNat 32 x.capacity) else s

/-! ### Register writes of a queue: Table 15.1, R324 -/

/-- A write of QTAIL: the doorbell. -/
def State.doorbell (s : State) (q : BitVec 6) (v : BitVec 32) : State :=
  (s.queuePut q { s.queueAt q with tail := v }).queueOverrun q

/-- A write of 1 to QSTAT.HALTED: the refused record is skipped and the queue resumes; a cause-6 stop skips nothing and
stops again while the count exceeds the capacity. -/
def State.haltedClear (s : State) (q : BitVec 6) : State :=
  let x := s.queueAt q
  if !x.halted then s
  else
    let x := if x.cause = 6 then { x with halted := false } else { x with halted := false, head := x.head + 1 }
    (s.queuePut q x).queueOverrun q

/-- A write of QCTL. EN = 0 withdraws a head that waits (R322). -/
def State.queueControl (s : State) (q : BitVec 6) (v : Dword) : State :=
  let l := (v.extractLsb' 0 5).toNat
  let x := { s.queueAt q with
    en := v.getLsbD 63, die := v.extractLsb' 8 3, log2n := BitVec.ofNat 5 (Nat.min l 16) }
  let s := if x.en then s.queuePut q x else (s.queuePut q { x with waiting := none, part := [] }).unheld q
  s.queueOverrun q

/-! ### Serving heads: R325, R326 -/

/-- Where the record at a queue's head lies. -/
def Queue.recordAt (x : Queue) : Nat := (x.base.extractLsb' 6 42).toNat * 64 + 64 * (x.head.toNat % x.capacity)

/-- Whether the read of a dword of a record fails: an address in neither HBM nor host memory, a host error, an uncorrectable error of
its line (cause 7). -/
def State.recordFails (s : State) (a : Nat) : Bool :=
  !(isHbm a || isHost a) || look false s.host.errors (a / 8) || (isHbm a && look false s.eccBad (a / 128))

/-- The record at a queue's head: what has been read of it, the rest as it stands in memory (R322); `none` when the read fails. -/
def State.readRecord (s : State) (x : Queue) : Option Record :=
  let a := x.recordAt
  if (List.range 8).any fun i => s.recordFails (a + 8 * i) then none
  else some (Vector.ofFn fun (i : Fin 8) => match x.part.find? fun p => p.1 = i.val with
    | some (_, v) => v
    | none => memDword s.mem (a + 8 * i.val))

/-- Whether a queue has a head to serve: none of its group is still to start (starts within a queue are in order). -/
def State.hasHead (s : State) (q : BitVec 6) : Bool :=
  let x := s.queueAt q
  x.en && !x.halted && x.tail != x.head && !(s.reserved.any fun r => r.queue = q)

/-- One dword of the record at a queue's head read before the others: a host that writes the record meanwhile leaves it old (R322). -/
def State.readDword (s : State) (q : BitVec 6) (i : Nat) : State :=
  let x := s.queueAt q
  if !s.hasHead q || x.waiting.isSome || 8 ≤ i || (x.part.any fun p => p.1 = i) || s.recordFails (x.recordAt + 8 * i) then s
  else s.queuePut q { x with part := x.part ++ [(i, memDword s.mem (x.recordAt + 8 * i))] }

/-- The queues of a die with a head, each with its record as it was read when it became the head. -/
def State.heads (s : State) (die : BitVec 3) : List (BitVec 6 × Option Record) :=
  (((List.range 64).map (BitVec.ofNat 6)).filter fun q => decide ((s.queueAt q).die = die) && s.hasHead q).map fun q =>
    (q, match (s.queueAt q).waiting with
      | some r => some r
      | none => s.readRecord (s.queueAt q))

/-- The urgency of a head. -/
def headPrio (x : BitVec 6 × Option Record) : Nat := (x.2.map fun r => (recPrio r).toNat).getD 0

/-- The place of a queue in the round that begins after the queue served last. -/
def turnOf (last q : BitVec 6) : Nat := (q - last - 1).toNat

/-- Heads in the order in which a die's engine takes them. -/
def inOrder (last : BitVec 6) (l : List (BitVec 6 × Option Record)) : List (BitVec 6 × Option Record) :=
  let before (x y : BitVec 6 × Option Record) : Bool :=
    decide (headPrio y < headPrio x) || (headPrio x == headPrio y && decide (turnOf last x.1 < turnOf last y.1))
  l.foldl (fun a x => a.takeWhile (before · x) ++ [x] ++ a.dropWhile (before · x)) []

/-- Whether a head may be placed now with respect to the order of package-tier starts (R326). -/
def State.packageTurn (s : State) (q : BitVec 6) (r : Record) : Bool :=
  if recTier r = 4 ∨ recTier r = 5 then s.packageQ.head?.all (· = q) else true

/-- A group reserved: its threads wait to start. -/
def State.reserveGroup (s : State) (q : BitVec 6) (l : List Reserved) : State :=
  State.unheld { s.queuePut q { s.queueAt q with waiting := none, part := [] } with
    reserved := s.reserved ++ l, nextGroup := s.nextGroup + 1 } q

/-- A head kept as it was read, and since when it waits. -/
def State.latch (s : State) (q : BitVec 6) (r : Record) : State :=
  let x := s.queueAt q
  if x.waiting.isSome then s else s.queuePut q { x with waiting := some r, since := s.tick }

/-- What the engine does with one head: refuse it, place it, or leave it waiting (`none`). -/
def State.serveHead (s : State) (q : BitVec 6) (h : Option Record) : Option State :=
  let x := s.queueAt q
  if x.capacity < x.count then some (s.queueOverrun q)
  else match h with
    | none => some (s.haltQueue q 7 x.head)
    | some r =>
      match s.recordCause x.die r with
      | some c => some (s.haltQueue q c x.head)
      | none =>
        if !s.packageTurn q r then none
        else (s.placement q r).map fun l => s.reserveGroup q l

/-- Whether a die's engine takes heads: ACTIVE, and no critical mark has stopped it (R325, R361, R363). -/
def State.launching (s : State) : Bool := s.thermal.state = .active

/-- The first head of an order that can be refused or placed: its queue, its urgency, and the state once it is served. -/
def State.serveFirst (s : State) (die : BitVec 3) : List (BitVec 6 × Option Record) → Option (BitVec 6 × Nat × State)
  | [] => none
  | (q, h) :: l =>
    match s.serveHead q h with
    | none => s.serveFirst die l
    | some s' => some (q, headPrio (q, h), { s' with lastQueue := s'.lastQueue.set die.toFin q })

/-- Heads that must wait are kept as they were read; package-tier ones take their place in the package's order. -/
def State.latchAll (s : State) (l : List (BitVec 6 × Option Record)) : State :=
  l.foldl (fun s (q, h) => match h with
    | none => s
    | some r =>
      let s := s.latch q r
      if (recTier r = 4 ∨ recTier r = 5) ∧ !s.packageQ.contains q then { s with packageQ := s.packageQ ++ [q] } else s) s

/-- What a die's launch engine does next, its heads having been read (R325). -/
def State.launchNext (s : State) (die : BitVec 3) : Option (BitVec 6 × Nat × State) :=
  if !s.launching then none
  else
    let l := inOrder s.lastQueue[die.toFin] (s.heads die)
    (s.latchAll l).serveFirst die l

/-- The heads of a die read and kept (R322, R326). -/
def State.launchRead (s : State) (die : BitVec 3) : State :=
  if s.launching then s.latchAll (inOrder s.lastQueue[die.toFin] (s.heads die)) else s

/-! ### Held starts: R326, R331 -/

/-- The groups of running threads in an instance with a priority below a bound, as victims are taken: lowest priority
first, the most recently started among equals. -/
def State.victims (s : State) (r : Record) (inst : Nat) : List Nat :=
  let ts := s.threads.filter fun t =>
    decide (t.tid.core.toNat / tierCores (recTier r) = inst) && decide (t.prio.toNat < (recPrio r).toNat)
  let key (t : Thread) : Nat × Nat := (t.prio.toNat, t.group)
  let before (x y : Nat × Nat) : Bool := decide (x.1 < y.1) || (x.1 == y.1 && decide (y.2 < x.2))
  let l := ts.foldl (fun a t => if a.contains (key t) then a
    else a.takeWhile (before · (key t)) ++ [key t] ++ a.dropWhile (before · (key t))) []
  l.map (·.2)

/-- The entry the machine keeps of a thread once it is saved. -/
def Thread.asSaved (t : Thread) (entry : Nat) : Saved :=
  { ctx := t.ctx, entry := BitVec.ofNat 8 entry, tid := t.tid, group := t.group, tier := t.tier, prio := t.prio,
    gsize := t.gsize, rank := t.rank, done := t.done, ceiling := t.ceiling, log2n := t.log2n, tiles := t.tiles,
    resume := false, restore := false, sporder := t.sporder, copyFails := t.copyFails, copyCode := t.copyCode, events := [], flags := 0,
    pend := t.pend, stopped := [], plies := [] }

/-- The machine as it would stand with the threads of some groups saved: their contexts keep their arrival-word pages (R15). -/
def State.without (s : State) (gs : List Nat) : State :=
  { s with
    saved := s.saved ++ (s.threads.filter fun t => gs.contains t.group).map fun t => t.asSaved 0
    th := if gs.contains s.th.group then { s.th with live := false } else s.th,
    parked := s.parked.filter fun t => !gs.contains t.group }

/-- The victims a held start needs: as few as let it be placed, in order, and none where it can be placed as things stand; none when
even all do not suffice. -/
def State.neededVictims (s : State) (q : BitVec 6) (r : Record) : List Nat → List Nat → List Nat
  | taken, [] => if ((s.without taken).placement q r).isSome then taken else []
  | taken, g :: gs =>
    if ((s.without taken).placement q r).isSome then taken else s.neededVictims q r (taken ++ [g]) gs

/-- Threads asked to stop and be saved (R330); the request sets the event flag (R212). -/
def State.askSave (s : State) (p : Thread → Bool) : State :=
  s.mapThreads fun t => if t.live && p t then { t.signal with saveReq := true } else t

/-- Whether a waiting head is the one that its die would hold: the oldest among the most urgent (R326). -/
def State.foremost (s : State) (q : BitVec 6) : Bool :=
  let x := s.queueAt q
  match x.waiting with
  | none => false
  | some r => s.queues.all fun (i, y) =>
    i = q.toNat || y.die != x.die || !s.hasHead (BitVec.ofNat 6 i) || (match y.waiting with
      | none => true
      | some r' => decide ((recPrio r').toNat < (recPrio r).toNat)
        || (recPrio r' == recPrio r && (decide (x.since < y.since) || (x.since == y.since && decide (q.toNat < i)))))

/-- Whether a head can become its die's held start now (R326). -/
def State.mayHold (s : State) (q : BitVec 6) : Bool :=
  s.launching && s.hasHead q && s.foremost q && !(s.held.any fun h => (s.queueAt h.queue).die = (s.queueAt q).die)

/-- A head becomes its die's held start: an instance is fixed for it, and with PREEMPT groups of lower priority in that
instance are pre-empted (R326, R331). -/
def State.heldStart (s : State) (q : BitVec 6) : State :=
  let die := (s.queueAt q).die
  match (s.queueAt q).waiting with
  | none => s
  | some r =>
    if !s.mayHold q then s
    else
      let insts := if recPin r then [recInst r] else tierInstances (recTier r) die
      let inst := insts.foldl (fun b i => if s.freePlies (recTier r) b < s.freePlies (recTier r) i then i else b)
        (insts.headD 0)
      let s := { s with held := s.held ++ [⟨q, recTier r, inst, [], [], [], []⟩] }
      if !recPreempt r then s
      else
        let gs := s.neededVictims q r [] (s.victims r inst)
        { s.askSave (fun t => gs.contains t.group) with resumes := s.resumes ++ gs.map fun g => (g, die) }

/-! ### The start of a thread: R132, R167, Table 6.1 -/

/-- The thread of a reservation, with the number of its grant. -/
def Reserved.thread (r : Reserved) (grant : Nat) : Thread :=
  let n := 2 ^ r.log2n.toNat
  let t := { Thread.blank with
    live := true, tid := r.tid, ctx := recCtx r.record, prio := recPrio r.record, tier := recTier r.record,
    group := r.group, rank := r.rank, gsize := BitVec.ofNat 17 (recSize r.record), done := recDone r.record,
    base := r.base, log2n := r.log2n, grant := grant, tiles := recAcc r.record,
    ceiling := if recVlmax r.record = 0 then 4096 else recVlmax r.record,
    pc := recEntry r.record,
    s := ((((Vector.replicate 64 (0 : Dword)).set 1 (recArg r.record)).set 2 (r.rank.setWidth 64)).set 3
      (BitVec.ofNat 64 (recSize r.record)) |>.set 4 (r.tid.core.setWidth 64)).set 5 (BitVec.ofNat 64 n),
    spfoot := BitVec.ofNat 13 (Nat.min (recFoot r.record).toNat (256 * n)) }
  t.openStrip false

/-- Whether the stores of a slot's earlier thread have all been performed. -/
def State.slotDrained (s : State) (t : Tid) : Bool :=
  !(s.drain.any fun (x, _) => x = t) && !(s.sliceQ.any fun x => x.tid = t) && !(s.inval.any fun x => x.tid = t)

/-- The core a thread of a group goes to when one of its threads is asked to go to `dst` (R153). -/
def moveTo (tier : BitVec 3) (core dst : BitVec 12) : BitVec 12 :=
  if tier = 2 then dst.extractLsb' 2 10 ++ core.extractLsb' 0 2 else dst

/-- Where a thread that starts in a group of core or cluster tier is asked to go, when its group is (R153). -/
def State.groupMove (s : State) (tier : BitVec 3) (group : Nat) (core : BitVec 12) : Option (BitVec 12) :=
  if tier = 1 || tier = 2 then
    (s.threads.filter fun y => y.group = group).findSome? fun y => y.migrate.map fun dst => moveTo tier core dst
  else none

/-- Whether reserved threads start: in ACTIVE, and in QUIESCE, where they are saved at once. The critical mark stops the launch engines, and
rails that are off start nothing (R361, R363; log 78). -/
def State.starting (s : State) : Bool := s.thermal.state == .active || s.thermal.state == .quiesce

/-- A reserved thread starts, in rank order within its group; with the last one HEAD advances (R322, R325). From then on the context's own
items are what its running threads leave, and no header stored before is loaded over them (R349, R351). -/
def State.startThread (s : State) (t : Tid) : State :=
  match s.reserved.find? fun r => r.tid = t with
  | none => s
  | some r =>
    if !s.starting || !s.slotDrained t || (s.reserved.any fun x => x.group = r.group && decide (x.rank.toNat < r.rank.toNat)) then s
    else
      let th := { r.thread s.nextGrant with
        saveReq := s.thermal.state ≠ .active, migrate := s.groupMove (recTier r.record) r.group r.tid.core }
      let s := { s with reserved := s.reserved.filter (fun x => x.tid ≠ t), nextGrant := s.nextGrant + 1 }
      let s := (s.clearRows th.rowKeys).addThread th
      let s := if (s.ctxAt th.ctx).stored then s.ctxPut th.ctx { s.ctxAt th.ctx with stored := false } else s
      if s.reserved.any fun x => x.group = r.group then s
      else
        let x := s.queueAt r.queue
        s.queuePut r.queue { x with head := x.head + 1, part := [] }

end Sys2Proof.Machine
end

