-- ==== Sys2Proof/Machine/Package.lean ====
section
/-! DEFINITION. Temperature, power and the package state (17), resets (07 R167, 18 R368), the mailbox and firmware (18 R372
to R379). -/
namespace Sys2Proof.Machine
open Sys2Proof

/-! ### Kills and memory loss -/

/-- The bytes of HBM lost: every byte that had been written holds any value (R361, log 6). -/
def State.loseHbm (s : State) : State :=
  { s with mem := s.mem.foldl (fun m (a, _) =>
      if isHbm a then put 0 m a ((Config.freeBits s.tick a).extractLsb' 0 8) else m) s.mem }

/-- A context marked SAVE-FAILED and killed; the supervisor is told of the frame (R60). -/
def State.saveFailed (s : State) (c : BitVec 16) (tid : Tid) (frame : Nat) : State :=
  let s := s.event (TrapInfo.mk0 cSAVEFAIL (BitVec.ofNat 64 frame)) c tid
  let s := s.killContext c
  s.ctxPut c { s.ctxAt c with svfail := true }

/-! ### Boost leases and bands: R352, R364, R365 -/

/-- A thread's lease ended: its bands return to 0.45 V and its budget to the pool. -/
def State.endLease (s : State) (t : Tid) : State :=
  match s.threadAt t with
  | none => s
  | some x =>
    (s.dropLease x).mapThreads fun y => if y.live && y.tid = t then { y with lease := none } else y

/-- Every lease for which `p` holds ended. -/
def State.endLeases (s : State) (p : Thread → Bool) : State :=
  (s.threads.filter fun t => t.lease.isSome && p t).foldl (fun s t => s.endLease t.tid) s

/-- The bands of a core named by a queued or running matrix operation (R298). -/
def State.busyBands (s : State) (core : BitVec 12) : BitVec 4 :=
  (s.mq.filter fun m => m.tid.core = core).foldl (fun a m => match s.threadAt m.tid with
    | none => a
    | some t => a ||| t.acc[m.acc.toFin].plane.bands) 0

/-- The powered, idle bands of a core that the postmaster may switch off. -/
def State.idleBands (s : State) (core : BitVec 12) : BitVec 4 :=
  15 &&& ~~~ (look 0 s.thermal.bandOff core.toNat) &&& ~~~ s.busyBands core &&& ~~~ (look 0 s.thermal.boosted core.toNat)

/-- The cap in force, in milliwatts (R357, R364). A die that is HOT has passed the bound of WARM too, and keeps the lower cap (log 78). -/
def Thermal.capNow (t : Thermal) : Nat := if t.band.toList.any fun b => 2 ≤ b.toNat then 900000 else 2000000

/-- The clusters of a die. -/
def dieClusters (die : BitVec 3) : List (BitVec 10) := (List.range 128).map fun i => BitVec.ofNat 10 (die.toNat * 128 + i)

/-- A die's core clock changed: a frequency transition of each of its clusters (R354, R358). -/
def State.setClock (s : State) (die : BitVec 3) (mhz : BitVec 10) : State :=
  if s.thermal.clock[die.toFin] = mhz then s
  else { s with thermal := { s.thermal with
    clock := s.thermal.clock.set die.toFin mhz,
    settling := (dieClusters die) ++ s.thermal.settling.filter fun c => !(dieClusters die).contains c } }

/-- The hottest sensor of a die (TBAND.TEMP). -/
def Thermal.dieTemp (t : Thermal) (die : BitVec 3) : Nat :=
  let k := die.toNat
  Nat.max (t.temp.toList.getD k 0).toNat
    (Nat.max (t.stack.toList.getD (2 * k) 0).toNat (t.stack.toList.getD (2 * k + 1) 0).toNat)

/-- The hottest die, the lowest-numbered among equals. -/
def Thermal.hottest (t : Thermal) : BitVec 3 :=
  BitVec.ofNat 3 ((List.range 8).foldl (fun b d =>
    if t.dieTemp (BitVec.ofNat 3 b) < t.dieTemp (BitVec.ofNat 3 d) then d else b) 0)

/-- A die's clock made what its band and capping leave: 350 MHz in WARM and above (R357), else what the steps of R364 have left. -/
def State.reclock (s : State) (die : BitVec 3) : State :=
  s.setClock die (if 2 ≤ (s.thermal.band[die.toFin]).toNat then 350 else s.thermal.capClock[die.toFin])

/-- A step of R364 noted, for its undoing. -/
def State.noteStep (s : State) (x : PowerStep) : State := { s with thermal := { s.thermal with steps := x :: s.thermal.steps } }

/-- Bands of a core switched off. -/
def State.bandsOff (s : State) (core : BitVec 12) (m : BitVec 4) : State :=
  State.noteStep { s with thermal := { s.thermal with
    bandOff := put 0 s.thermal.bandOff core.toNat (look 0 s.thermal.bandOff core.toNat ||| m) } } (.bands core m)

/-- A die's clock lowered by 100 MHz, no lower than 350 MHz. -/
def State.lowerClock (s : State) (d : BitVec 3) : State :=
  let f := s.thermal.capClock[d.toFin]
  if (s.thermal.clock[d.toFin]).toNat ≤ 350 ∨ f.toNat ≤ 350 then s
  else (State.reclock { s with thermal := { s.thermal with
    capClock := s.thermal.capClock.set d.toFin (if f.toNat < 450 then 350 else f - 100) } } d).noteStep (.clock d f)

/-- The next capping step of R364: the oldest lease, idle matrix bands, the clock of the hottest die. -/
def State.capStep (s : State) : State :=
  match s.thermal.leases.head? with
  | some t => (s.endLease t).noteStep .lease
  | none =>
    match (List.range 4096).find? fun c => s.idleBands (BitVec.ofNat 12 c) != 0 with
    | some c => s.bandsOff (BitVec.ofNat 12 c) (s.idleBands (BitVec.ofNat 12 c))
    | none => s.lowerClock s.thermal.hottest

/-- The same means applied to one matrix band that takes more than 85 mW: the lease that boosts it, the band itself when it is idle, the
clock of its die (R364). -/
def State.bandStep (s : State) (k : Nat) : State :=
  let core := BitVec.ofNat 12 (k / 4)
  let m : BitVec 4 := 1 <<< (k % 4)
  match s.threads.find? fun t => t.tid.core = core && (t.lease.any fun (b, _) => b &&& m != 0) with
  | some t => (s.endLease t.tid).noteStep .lease
  | none => if s.idleBands core &&& m != 0 then s.bandsOff core m else s.lowerClock (BitVec.ofNat 3 (dieOf core))

/-- A power measurement: above the cap the next capping step of R364 is taken, and a step for each band above 85 mW. -/
def State.powerMeasured (s : State) (p : PowerReading) : State :=
  let s := { s with thermal := { s.thermal with
    power := p.mw, bandPower := p.bands.foldl (fun l (k, mw) => put 0 l k mw) s.thermal.bandPower } }
  let s := if p.mw ≤ s.thermal.capNow then s else s.capStep
  (s.thermal.bandPower.filter fun (_, mw) => decide (85 < mw)).foldl (fun s (k, _) => s.bandStep k) s

/-- Whether the power was measured below 90 % of the cap, and that of every band below 90 % of its limit. -/
def Thermal.below (t : Thermal) : Bool :=
  decide (10 * t.power < 9 * t.capNow) && t.bandPower.all fun (_, mw) => decide (10 * mw < 9 * 85)

/-- The last capping step undone, when the power is below 90 % of the cap (R364). A band switched on again is usable 2 µs later (R365);
in CRITICAL none is switched back on (R363). -/
def State.powerUndo (s : State) : State :=
  if !s.thermal.below then s
  else match s.thermal.steps with
  | [] => s
  | x :: xs =>
    let s' := { s with thermal := { s.thermal with steps := xs } }
    match x with
    | .lease => s'
    | .bands c m =>
      if s.thermal.state = .critical then s
      else
        let k := c.toNat
        { s' with thermal := { s'.thermal with bandWaking := put 0 s.thermal.bandWaking k (look 0 s.thermal.bandWaking k ||| m) } }
    | .clock d f => State.reclock { s' with thermal := { s'.thermal with capClock := s.thermal.capClock.set d.toFin f } } d

/-- A band switched on becomes usable. -/
def State.bandReady (s : State) (core : BitVec 12) (band : BitVec 2) : State :=
  let k := core.toNat
  let m : BitVec 4 := 1 <<< band.toNat
  if look 0 s.thermal.bandWaking k &&& m = 0 then s
  else { s with thermal := { s.thermal with
    bandWaking := put 0 s.thermal.bandWaking k (look 0 s.thermal.bandWaking k &&& ~~~ m),
    bandOff := put 0 s.thermal.bandOff k (look 0 s.thermal.bandOff k &&& ~~~ m) } }

/-! ### CHAINP: R366, Table 17.5 -/

/-- The bits in their order of clearing. -/
def chainOrder : List Nat := [5, 2, 4, 3, 0, 1]

/-- Headroom low on a die: the next bit is cleared. -/
def State.headroomLow (s : State) (die : BitVec 3) : State :=
  let x := s.thermal.chainp[die.toFin]
  match chainOrder.find? (x.getLsbD ·) with
  | none => s
  | some i => { s with thermal := { s.thermal with chainp := s.thermal.chainp.set die.toFin (x &&& ~~~ (1#6 <<< i)) } }

/-- Headroom regained: the bit cleared last is set again. -/
def State.chainRestore (s : State) (die : BitVec 3) : State :=
  let x := s.thermal.chainp[die.toFin]
  match chainOrder.reverse.find? (fun i => !x.getLsbD i) with
  | none => s
  | some i =>
    if s.thermal.state = .critical then s
    else { s with thermal := { s.thermal with chainp := s.thermal.chainp.set die.toFin (x ||| (1#6 <<< i)) } }

/-! ### The package state: R359, R361, R363 -/

/-- A command refused (R361). -/
def State.cmdErr (s : State) : State := { s with thermal := { s.thermal with cmderr := true } }

/-- THCMD 1. In postmaster recovery the package stays in WARM-SERVICE (R374). -/
def State.coolDown (s : State) : State :=
  if s.thermal.state = .warmService && !s.pm.recovery then s.setPk .purge else s.cmdErr
/-- THCMD 2: with every die COLD. -/
def State.go (s : State) : State :=
  if s.thermal.state = .coldReady && s.thermal.band.toList.all (· = 0) then s.setPk .active else s.cmdErr
/-- THCMD 3: every thread is pre-empted and saved. -/
def State.warmUp (s : State) : State :=
  if s.thermal.state = .active then ((s.askSave fun _ => true).setPk .quiesce).quiesced else s.cmdErr

/-- A write of THCMD. -/
def State.thcmd (s : State) (c : BitVec 2) : State :=
  if c = 1 then s.coolDown else if c = 2 then s.go else if c = 3 then s.warmUp else s

/-- A mailbox command ended: BUSY clears, ERR and RESULT are written, vector 67 is raised. A write that came together with the command's
sets ERR = 1 now (R372). -/
def State.mailboxEnd (s : State) (err : BitVec 8) (result : BitVec 32) : State :=
  State.raiseVector { s with pm := { s.pm with
    busy := false, err := if s.pm.late then 1 else err, late := false, result := result } } 67

/-- The number of plies that do not hold the table that OP 5 loads (R376). -/
def Postmaster.toLoad (p : Postmaster) : Nat :=
  if p.target = 0 then p.plyTable.length else 65536 - (p.plyTable.filter fun (_, t) => t = p.target).length

/-- What a critical mark leaves of a command in progress: only OP 1 and OP 2 complete (R372, R376). -/
def State.mailboxCritical (s : State) : State :=
  if !s.pm.busy || s.pm.op = 1 || s.pm.op = 2 then s
  else State.mailboxEnd { s with pm := { s.pm with starting := s.pm.starting && s.pm.op != 4 } } 4
    (if s.pm.op = 5 then BitVec.ofNat 32 s.pm.toLoad else 0)

/-- The critical mark (R363): in service it begins the sequence of Table 17.4; in the states with rails off a flow loss
returns the package to WARM-SERVICE (R361). -/
def State.criticalMark (s : State) (cause : BitVec 2) : State :=
  let crit (s : State) (c : BitVec 2) : State := { s with thermal := { s.thermal with crit := c } }
  let enter (_ : Unit) : State :=
    let s := (crit s cause).endLeases fun _ => true
    let s := { s with thermal := { s.thermal with
      chainp := .replicate 8 0, bandWaking := [],
      steps := (s.thermal.bandWaking.map fun (c, m) => PowerStep.bands (BitVec.ofNat 12 c) m) ++ s.thermal.steps } }
    ((s.askSave fun _ => true).setPk .critical).mailboxCritical
  let dropped (_ : Unit) : State := if cause.getLsbD 0 then (crit s 1).loseHbm.setPk .warmService else s
  match s.thermal.state with
  | .coldReady => enter ()
  | .active => enter ()
  | .quiesce => enter ()
  | .critical => crit s (s.thermal.crit ||| cause)
  | .purge => dropped ()
  | .descend => dropped ()
  | .soak => dropped ()
  | .warmService => s
  | .ascend => s

/-- 400 µs after the mark: saves not finished are abandoned as R60 states. -/
def State.criticalDeadline (s : State) : State :=
  if s.thermal.state ≠ .critical then s
  else s.threads.foldl (fun s t =>
    if (s.threadAt t.tid).isNone then s
    else
      let c := s.ctxAt t.ctx
      s.saveFailed t.ctx t.tid ((c.save.head?.map fun (f, _) => f.toNat * 65536).getD 0)) s

/-- 500 µs after the mark: the rails are off. -/
def State.criticalRailsOff (s : State) : State :=
  if s.thermal.state = .critical && s.threads.isEmpty then s.setPk .ascend else s

/-- PURGE ends (R359). -/
def State.purgeComplete (s : State) : State :=
  if s.thermal.state = .purge && 800 ≤ s.thermal.flow.toNat then s.setPk .descend else s

/-- The coolest sensor. -/
def Thermal.tmin (t : Thermal) : Nat :=
  t.temp.toList.foldl (fun a x => Nat.min a x.toNat) (t.stack.toList.foldl (fun a x => Nat.min a x.toNat) 1023)

/-- SOAK ends (R359). -/
def State.soakComplete (s : State) : State :=
  if s.thermal.state = .soak && decide (s.thermal.tmax ≤ 95) && decide (s.thermal.tmax - s.thermal.tmin ≤ 5) then
    State.setPk { s with thermal := { s.thermal with refresh := false, bursts := 0 } } .coldReady
  else s

/-! ### Sensor samples: R357, R360, R362 -/

/-- The band whose rising bounds contain a temperature: Table 17.1. -/
def risingBand (t : Nat) : BitVec 2 := if 230 < t then 3 else if 140 < t then 2 else if 100 < t then 1 else 0

/-- The band after a sample: warmer at once, cooler only 5 K below the lower bound of each band left. -/
def nextBand (b : BitVec 2) (t : Nat) : BitVec 2 :=
  if b.toNat < (risingBand t).toNat then risingBand t
  else
    let b := if b = 3 ∧ t ≤ 225 then 2 else b
    let b := if b = 2 ∧ t ≤ 135 then 1 else b
    if b = 1 ∧ t ≤ 95 then 0 else b

/-- The leases that end and the clock that holds in a die's band (R357, R365). -/
def State.bandEffects (s : State) (die : BitVec 3) (b : BitVec 2) : State :=
  if b.toNat < 2 then s.reclock die else (s.endLeases fun t => dieOf t.tid.core == die.toNat).reclock die

/-- A die in the band of its present temperature. -/
def State.rebandDie (s : State) (die : BitVec 3) : State :=
  let b := nextBand s.thermal.band[die.toFin] (s.thermal.dieTemp die)
  let s := State.bandEffects { s with thermal := { s.thermal with band := s.thermal.band.set die.toFin b } } die b
  { s with thermal := { s.thermal with cap := s.thermal.capNow } }

/-- Refresh goes on for every stack, beginning with a burst, once a stack passes 100 K (R362). -/
def State.refreshOn (s : State) : State :=
  if s.thermal.smax ≤ 100 || s.thermal.refresh then s
  else { s with thermal := { s.thermal with refresh := true, bursts := 0xFFFF } }

/-- Refresh goes off again once every stack reads 95 K or below. -/
def State.refreshOff (s : State) : State :=
  if s.thermal.smax ≤ 95 then { s with thermal := { s.thermal with refresh := false, bursts := 0 } } else s

/-- A sample of a die's sensors and of the flow (R357): bands, refresh, RATEX, the temperature-driven changes of Table
17.3, and the 160 K mark, which in CRITICAL changes nothing but CRIT (R363). -/
def State.sample (s : State) (die : BitVec 3) (temp st0 st1 : BitVec 10) (flow : BitVec 16) (ratex : Bool) : State :=
  let k := die.toNat
  let s := { s with thermal := { s.thermal with
    temp := s.thermal.temp.set die.toFin temp,
    stack := (s.thermal.stack.set! (2 * k) st0).set! (2 * k + 1) st1,
    flow := flow, ratex := s.thermal.ratex || ratex } }
  let s := (s.rebandDie die).refreshOn
  let t := s.thermal.tmax
  match s.thermal.state with
  | .descend => if t ≤ 95 then s.setPk .soak else s
  | .ascend => if 230 < t then s.loseHbm.setPk .warmService else s
  | .coldReady => if 160 ≤ t then s.criticalMark 2 else s
  | .active => if 160 ≤ t then s.criticalMark 2 else s
  | .quiesce => if 160 ≤ t then s.criticalMark 2 else s
  | .critical => if 160 ≤ t then s.criticalMark 2 else s
  | .warmService => s
  | .purge => s
  | .soak => s

/-! ### Resets: R167, R368 -/

/-- The postmaster after a package reset: the slots, the fused counts, the plies' tables and the spares stay. -/
def Postmaster.kept (p : Postmaster) : Postmaster :=
  { Postmaster.reset with
    slotA := p.slotA, slotB := p.slotB, runsB := p.runsB, recovery := p.recovery, rollbackPm := p.rollbackPm,
    rollbackMc := p.rollbackMc, tables := p.tables, plyTable := p.plyTable, target := p.target, spares := p.spares }

/-- The state in which a package reset leaves the package: by its sensors (Table 17.2), and WARM-SERVICE in recovery (R374). -/
def Thermal.firstState (t : Thermal) (recovery : Bool) : PkState := if t.tmax ≤ 95 ∧ !recovery then .coldReady else .warmService

/-- Temperature and power after a package reset: every sensor has been sampled, and each die is in the band and at the clock of its
first reading (R357). -/
def Thermal.first (t : Thermal) (recovery : Bool) : Thermal :=
  let band := Vector.ofFn fun (i : Fin 8) => risingBand (t.dieTemp (BitVec.ofNat 3 i.val))
  let r := { Thermal.reset with
    temp := t.temp, stack := t.stack, flow := t.flow, band := band,
    clock := Vector.ofFn fun (i : Fin 8) => if 2 ≤ (band[i]).toNat then 350 else 700, state := t.firstState recovery }
  { r with cap := r.capNow }

/-- The package taken to its reset values with a postmaster (R167). What lies outside it stays: host memory, the inputs still to come,
the sensors' readings. A change of the package state raises its vector (R359). -/
def State.resetWith (s : State) (pm : Postmaster) : State :=
  let th := s.thermal.first pm.recovery
  let r := { State.reset with tick := s.tick, inputs := s.inputs, mem := s.mem, thermal := th, pm := pm }
  let r := if th.state = .warmService then r.loseHbm else r
  if th.state = s.thermal.state then r else r.raiseVector 66

/-- Temperature and power after a Function Level Reset: the leases are gone, CHAINP and the bands at their reset values unless the
critical mark holds them (R363, R368). -/
def Thermal.functionReset (t : Thermal) : Thermal :=
  let t := { t with leases := [], boosted := [], pool := 100000 }
  if t.state = .critical then t
  else { t with
    chainp := .replicate 8 0b111111, bandOff := [], bandWaking := [],
    steps := t.steps.filter fun x => match x with
      | .clock _ _ => true
      | .lease => false
      | .bands _ _ => false }

/-- The peer ports after a Function Level Reset: one that OP 6 retrains stays dead (R377). -/
def Postmaster.ports (p : Postmaster) : Fabric :=
  if p.busy && p.op = 6 then { Fabric.reset with alive := 0xFF &&& ~~~ (1#8 <<< (p.arg.toNat % 8)) } else .reset

/-- A package reset (R167), or a Function Level Reset (R368): queues stopped, contexts killed, every register at its reset value; the
postmaster, the package state, HBM and the firmware slots stay, and a QUIESCE has no thread left to save. -/
def State.resetPackage (s : State) (whole : Bool) : State :=
  if whole then s.resetWith s.pm.kept
  else State.quiesced { State.reset with
    tick := s.tick, inputs := s.inputs, mem := s.mem, thermal := s.thermal.functionReset, pm := s.pm, fabric := s.pm.ports }

/-- A Function Level Reset (R368). -/
def State.functionReset (s : State) : State := s.resetPackage false

/-! ### Images: R373, R374 -/

/-- A field of an image header, little-endian. -/
def imgField (i : List Byte) (o n : Nat) : Nat := leVal ((i.drop o).take n)
def imgKind (i : List Byte) : Nat := imgField i 0 4
def imgVersion (i : List Byte) : Nat := imgField i 4 4
def imgSvn (i : List Byte) : Nat := imgField i 8 2
/-- The length of an image: header and body. -/
def imgLen (i : List Byte) : Nat := 512 + imgField i 10 6
/-- Whether all of an image is there. -/
def imgWhole (i : List Byte) : Bool := decide (512 ≤ i.length) && decide (imgLen i ≤ i.length)

/-- The signing key of an image, an uncompressed P-384 point. -/
def imgKey (i : List Byte) : List Byte := (i.drop 16).take 97

/-- Whether the digest of a key is one of the four fused ones and not revoked (R373). -/
def keyTrusted (key : List Byte) : Bool :=
  (List.range 4).any fun k => Config.fusedKey k == Config.sha384 key && !Config.keyRevoked k

/-- Whether key, signature over bytes 0 to 255, and digest of the body of an image are good (R373). -/
def imgGood (i : List Byte) : Bool :=
  imgWhole i && keyTrusted (imgKey i) && Config.ecdsaVerifies (imgKey i) (Config.sha384 (i.take 256)) ((i.drop 256).take 96)
    && (i.drop 113).take 48 == Config.sha384 ((i.take (imgLen i)).drop 512)

/-- The error of an image for the use of a kind: 2 bad digest or signature, 3 rollback refused. -/
def Postmaster.imgError (p : Postmaster) (i : List Byte) (kind : Nat) : BitVec 8 :=
  if !imgGood i || imgKind i != kind then 2
  else if imgSvn i < (if kind = 1 then p.rollbackPm else p.rollbackMc).toNat then 3
  else 0

/-- A valid postmaster image. -/
def Postmaster.bootable (p : Postmaster) (i : List Byte) : Bool := p.imgError i 1 == 0

/-- Boot from a slot, or recovery when none is valid (R374). `last` is a slot that has just failed to start. -/
def Postmaster.boot (p : Postmaster) (last : Option Bool) : Postmaster :=
  let a := p.bootable p.slotA && last != some false
  let b := p.bootable p.slotB && last != some true
  if !a && !b then { p with recovery := true, starting := false }
  else
    let useB := b && (!a || decide (imgVersion p.slotA < imgVersion p.slotB))
    { p with recovery := false, runsB := useB, starting := true }

/-- Power applied: the package at reset, HBM lost, the boot ROM at work (R374). -/
def State.powerOn (s : State) : State :=
  s.loseHbm.resetWith { s.pm.kept.boot none with tables := [[]], plyTable := [], target := 0 }

/-- The postmaster when a slot has not started in time: the other slot if it is valid, and recovery where that one has not started
either (log 79). -/
def Postmaster.next (p : Postmaster) : Postmaster :=
  if p.second then { p with recovery := true, starting := false, second := false }
  else { p.boot (some p.runsB) with second := true }

/-- A slot that has not started in time is replaced by the other (R374). -/
def State.bootTimeout (s : State) : State :=
  if s.pm.starting && !s.pm.busy then
    let s := { s with pm := s.pm.next }
    if s.pm.recovery && s.thermal.state ≠ .warmService then s.setPk .warmService else s
  else s

/-- A slot that the boot ROM starts has started (R374). -/
def State.bootStarted (s : State) : State :=
  if s.pm.starting && !s.pm.busy then { s with pm := { s.pm with starting := false, second := false } } else s

/-! ### The mailbox: R372, Table 18.4 -/

/-- Whether the state allows a command. -/
def opAllowed (op : BitVec 8) (p : PkState) : Bool :=
  if op = 1 ∨ op = 2 ∨ op = 3 then true
  else if op = 4 then p != .critical
  else if op = 8 then p == .active
  else p == .coldReady || p == .active

/-- Bytes of the mailbox buffer. -/
def Postmaster.bufBytes (p : Postmaster) (o n : Nat) : List Byte := (List.range n).map fun i => look 0 p.buffer (o + i)
/-- Bytes written to the mailbox buffer, at most its 4,096. -/
def Postmaster.bufPut (p : Postmaster) (o : Nat) (bs : List Byte) : Postmaster :=
  { p with buffer := (bs.take (4096 - o)).zipIdx.foldl (fun b (x, i) => put 0 b (o + i) x) p.buffer }

/-- A RESULT whose value the manual does not state (log 25). -/
def State.freeResult (s : State) : BitVec 32 := (Config.freeBits s.tick 65536).extractLsb' 0 32

/-- Whether an argument is one the command takes; R379 settles OP 8's. -/
def argOk (op : BitVec 8) (arg : BitVec 32) : Bool :=
  if op = 1 ∨ op = 4 then arg == 0
  else if op = 6 then decide (arg.toNat < 8)
  else if op = 7 then decide (arg.toNat < 512)
  else if op = 8 then decide (arg.toNat < 4096)
  else true

/-- A peer port out of service (R317, R377). -/
def State.portDead (s : State) (p : BitVec 3) : State :=
  { s with fabric := { s.fabric with alive := s.fabric.alive &&& ~~~ (1#8 <<< p.toNat) } }

/-- A spare core brought into service for a core: its threads are moved, slot for slot (R154). -/
def State.substitute (s : State) (core : BitVec 12) : State :=
  let d := Fin.ofNat 8 (dieOf core)
  let s := { s with pm := { s.pm with spares := s.pm.spares.set d (s.pm.spares[d] - 1) } }
  s.mapThreads fun t => if t.live && t.tid.core = core then { t with migrate := some core } else t

/-- The table staged by OP 3 made the one to load: one that some plies hold already keeps its number (R376). -/
def Postmaster.aim (p : Postmaster) : Postmaster :=
  let body := (p.staged.take (imgLen p.staged)).drop 512
  match p.tables.findIdx? (· == body) with
  | some i => { p with target := i }
  | none => { p with tables := p.tables ++ [body], target := p.tables.length }

/-- A command written to MBCMD (R372): refused while another is in progress, at once or, where it comes in the same cycle, when that
one ends; ended at once where it cannot be done; else begun. -/
def State.mailboxCmd (s : State) (op : BitVec 8) (arg : BitVec 32) : State :=
  if s.pm.busy then
    (if s.cycles = s.pm.since then { s with pm := { s.pm with late := true } } else { s with pm := { s.pm with err := 1 } })
  else if op = 0 ∨ 8 < op.toNat then s.mailboxEnd 5 s.freeResult
  else if !opAllowed op s.thermal.state || (s.pm.recovery && 4 < op.toNat) then s.mailboxEnd 4 s.freeResult
  else if !argOk op arg then s.mailboxEnd 5 s.freeResult
  else
    let s := { s with pm := { s.pm with busy := true, op := op, arg := arg, starting := false, second := false, since := s.cycles, late := false } }
    if op = 4 then
      let e := s.pm.imgError s.pm.staged 1
      if e ≠ 0 then s.mailboxEnd e s.freeResult else { s with pm := { s.pm with starting := true } }
    else if op = 5 then
      let e := s.pm.imgError s.pm.staged 2
      if e ≠ 0 then s.mailboxEnd e s.freeResult
      else { s with pm := s.pm.aim }
    else if op = 6 then s.portDead (arg.extractLsb' 0 3)
    else if op = 8 then
      let core := arg.extractLsb' 0 12
      if s.pm.spares[Fin.ofNat 8 (dieOf core)] = 0 then s.mailboxEnd 6 s.freeResult else s.substitute core
    else s

/-- The table a ply holds. -/
def Postmaster.tableOf (p : Postmaster) (ply : Nat) : List Byte := p.tables.getD (look 0 p.plyTable ply) []

/-- The attestation report over the nonce in the buffer (R375). -/
def State.report (s : State) : List Byte :=
  let p := s.pm
  let plies := (List.range 65536).flatMap fun i => Config.sha384 (p.tableOf i)
  let body := p.bufBytes 0 48 ++ Config.sha384 Config.romBytes
    ++ Config.sha384 (if p.runsB then p.slotB else p.slotA) ++ Config.sha384 plies
    ++ leBytes 2 p.rollbackPm.toNat ++ leBytes 2 p.rollbackMc.toNat ++ leBytes 2 s.regs.pkrank.toNat
  body ++ Config.signature body

/-- The staged image with one more part of 4,096 bytes laid in (log 26). -/
def Postmaster.stage (p : Postmaster) (part : Nat) : Option (List Byte) :=
  let o := 4096 * part
  if part = 0 then some (p.bufBytes 0 4096)
  else if o ≤ p.staged.length then some (p.staged.take o ++ p.bufBytes 0 4096)
  else none

/-- OP 3: the part is laid in; a whole image is checked, and a good firmware image fills the slot that does not run. -/
def State.stagePart (s : State) (part : Nat) : State :=
  match s.pm.stage part with
  | none => s.mailboxEnd 5 s.freeResult
  | some i =>
    let pm := { s.pm with staged := i }
    let e : BitVec 8 := if !imgWhole i then 0 else pm.imgError i (if imgKind i = 2 then 2 else 1)
    let pm := if e = 0 ∧ imgWhole i ∧ imgKind i = 1 then
        (if pm.runsB then { pm with slotA := i } else { pm with slotB := i }) else pm
    State.mailboxEnd { s with pm := pm } e s.freeResult

/-- The tables when every ply holds the one that OP 5 loads. -/
def Postmaster.settle (p : Postmaster) : Postmaster :=
  if p.toLoad = 0 then { p with tables := [p.tables.getD p.target []], plyTable := [], target := 0 } else p

/-- Whether a dead port still keeps frames that wait for a hop receipt: they are sent again by a detour, or fail, before the port is
trained again (R319, R377). -/
def State.stranded (s : State) (p : BitVec 3) : Bool :=
  !s.fabric.alive.getLsbD p.toNat && s.fabric.sent.any fun x => x.port = p && x.hop

/-- The command in progress ends (R372). OP 5 ends only when no ply is left to load, OP 6 when the frames that the port kept have been
dealt with, OP 8 when the core's threads have moved. -/
def State.mailboxDone (s : State) : State :=
  if !s.pm.busy then s
  else
    let op := s.pm.op
    if op = 1 then
      let r := s.report
      State.mailboxEnd { s with pm := s.pm.bufPut 0 r } 0 s.freeResult
    else if op = 2 then
      let c := (Config.certificateChain.drop (4096 * s.pm.arg.toNat)).take 4096
      State.mailboxEnd { s with pm := s.pm.bufPut 0 c } 0 (BitVec.ofNat 32 c.length)
    else if op = 3 then s.stagePart s.pm.arg.toNat
    else if op = 4 then
      let i := s.pm.staged
      let svn := BitVec.ofNat 16 (imgSvn i)
      State.mailboxEnd { s with pm := { s.pm with
        starting := false, recovery := false, runsB := !s.pm.runsB,
        slotA := if s.pm.runsB then i else s.pm.slotA, slotB := if s.pm.runsB then s.pm.slotB else i,
        rollbackPm := if s.pm.rollbackPm.toNat < svn.toNat then svn else s.pm.rollbackPm } } 0 s.freeResult
    else if op = 5 then
      if s.pm.toLoad = 0 then State.mailboxEnd { s with pm := s.pm.settle } 0 0 else s
    else if op = 6 then
      let p := s.pm.arg.extractLsb' 0 3
      if s.stranded p then s
      else State.mailboxEnd { s with fabric := { s.fabric with alive := s.fabric.alive ||| (1#8 <<< p.toNat) } } 0 s.freeResult
    else if op = 8 then
      (if s.threads.any fun t => t.tid.core.toNat = s.pm.arg.toNat && t.migrate.isSome then s
       else s.mailboxEnd 0 s.freeResult)
    else s.mailboxEnd 0 s.freeResult

/-- A staged image that has not started within its time: the old slot again, with ERR 2 (R374). -/
def State.imageTimeout (s : State) : State :=
  if s.pm.busy && s.pm.op = 4 then
    State.mailboxEnd { s with pm := { s.pm with starting := false } } 2 s.freeResult
  else s

/-- One ply loaded with the table of OP 5 while it is unowned (R376). -/
def State.plyLoaded (s : State) (core : BitVec 12) (ply : BitVec 4) : State :=
  let k := core.toNat * 16 + ply.toNat
  let target := s.pm.target
  if !(s.pm.busy && s.pm.op = 5) || s.plyTaken core ply.toNat || look 0 s.pm.plyTable k = target then s
  else { s with pm := { s.pm with plyTable := put 0 s.pm.plyTable k target } }

/-- OP 5's time limit passed with plies still to load (R376). -/
def State.loadLimit (s : State) : State :=
  if s.pm.busy && s.pm.op = 5 && s.pm.arg ≠ 0 && s.pm.toLoad ≠ 0 then s.mailboxEnd 7 (BitVec.ofNat 32 s.pm.toLoad) else s

/-! ### MSI-X: R371 -/

/-- Every pending vector that nothing masks is sent. -/
def State.sendPending (s : State) : State :=
  if s.host.msixEnable && !s.host.functionMask then
    let vs := (List.range 256).filter fun v => s.host.pending.getLsbD v && s.host.unmasked.getLsbD v
    { s with host := { s.host with
      sent := s.host.sent ++ vs.map (BitVec.ofNat 8), pending := s.host.pending &&& ~~~ s.host.unmasked } }
  else s

/-- A vector masked or not, by its own mask. -/
def HostPort.maskVector (h : HostPort) (v : BitVec 8) (on : Bool) : HostPort :=
  let m : BitVec 256 := 1 <<< v.toNat
  { h with unmasked := if on then h.unmasked &&& ~~~ m else h.unmasked ||| m }

/-- A 32-bit word of the range that holds the MSI-X table (16 bytes for each vector: address, data, vector control with the mask in bit 0) and
the pending-bit array; other offsets of the range read 0 (R369, R371). -/
def HostPort.msixWord (h : HostPort) (j : Nat) : BitVec 32 :=
  if j < 1024 then (if j % 4 = 3 then (if h.unmasked.getLsbD (j / 4) then 0 else 1) else look 0 h.table j)
  else if j < 1032 then h.pending.extractLsb' (32 * (j - 1024)) 32
  else 0

/-- A word of that range written: the pending bits and the other offsets keep what they hold. -/
def HostPort.msixPut (h : HostPort) (j : Nat) (v : BitVec 32) : HostPort :=
  if 1024 ≤ j then h
  else if j % 4 = 3 then h.maskVector (BitVec.ofNat 8 (j / 4)) (v.getLsbD 0)
  else { h with table := put 0 h.table j v }

/-- A write of MSIRQ: vectors 68 to 255. -/
def State.msirq (s : State) (v : Dword) : State :=
  let n : BitVec 8 := v.extractLsb' 0 8
  if 68 ≤ n.toNat then s.raiseVector n else s

end Sys2Proof.Machine
end

