-- ==== Sys2Proof/Machine/MmioWrite.lean ====
section
/-! DEFINITION. What a write of a memory-mapped register does: Table 1.4 and the register tables of 01 and 14 to 18. A
4-byte write changes its half of the register; the fields of the other half of a write-only or W1C register are taken as 0
(log 27). -/
namespace Sys2Proof.Machine
open Sys2Proof

/-! ### The debugger's window: R355, R356 -/

/-- DBGSEL written: the entry is copied into DBGE0 to DBGE2. -/
def Debug.select (d : Debug) (v : BitVec 8) : Debug :=
  let e := look ⟨0, 0, 0⟩ d.ring v.toNat
  { d with sel := v, e0 := e.e0, e1 := e.e1, e2 := e.e2 }

/-- ROWSEL written: the row is read at once and held; a drowsy ply wakes (R353). -/
def State.rowSelect (s : State) (t : Tid) (v : Dword) : State :=
  let p : BitVec 12 := v.extractLsb' 0 12
  let ply := p.toNat / 256
  let owned := s.plyTaken t.core ply
  let key := rowKey t.core p.toNat
  let bad := look 0 s.badCols key != 0
  s.mapThreads fun x =>
    let x := if x.live && x.tid.core = t.core && decide (x.base.toNat ≤ ply) && decide (ply < x.base.toNat + x.n) then
        x.setPly (ply - x.base.toNat) { x.plyAt (ply - x.base.toNat) with drowsy := false } else x
    if x.live && x.tid = t then
      { x with dbg := { x.dbg with
        rowsel := p, rowstat := if !owned then 1 else if bad then 2 else 0, row := if owned then s.rowAt key else 0,
        rowtags := if owned then s.tagsAt key else 0 } }
    else x

/-- A write in a thread's window. -/
def State.windowWrite (s : State) (t : Tid) (o : Nat) (mask v : Dword) : State :=
  let on (f : Debug → Debug) : State :=
    s.mapThreads fun x => if x.live && x.tid = t then { x with dbg := f x.dbg } else x
  if o = 0 then (if mask.getLsbD 0 then on fun d => { d with en := v.getLsbD 0 } else s)
  else if o = 8 then (if mask.getLsbD 0 then on fun d => d.select (v.extractLsb' 0 8) else s)
  else if o = 0x40 then (if mask.getLsbD 0 then s.rowSelect t v else s)
  else s

/-! ### Collective groups: R310 -/

/-- The failure record of Table 14.6. -/
def failRecord (level cause : Nat) (port : BitVec 3) (rerouted : Bool) (rank : BitVec 16) (step : Nat) : Dword :=
  packFields [(level, 2, 62), (cause, 4, 58), (port.toNat, 3, 55), (if rerouted then 1 else 0, 1, 54), (rank.toNat, 16, 32),
    (step, 32, 0)]

/-- Whether a group has failed. -/
def Group.failed (g : Group) : Bool := g.failure.extractLsb' 62 2 != 0

/-- The threads whose operations end have their event flags set (R212). -/
def State.colSignal (s : State) (l : List ColOp) : State :=
  s.mapThreads fun t =>
    if t.live && l.any fun o => o.group == t.group && o.rank == t.rank && o.ctx == t.ctx then t.signal else t

/-- A group fails at a level; its work ends, and its frames are not kept. A group that has failed keeps its first record (R316). -/
def State.failGroup (s : State) (g : BitVec 6) (level cause : Nat) (port : BitVec 3) (rank : BitVec 16) (step : Nat) : State :=
  let x := s.groupAt g
  if x.failed then s
  else State.groupPut { s.colSignal x.ops with fabric := { s.fabric with
      sent := s.fabric.sent.filter fun f => !(f.group = some g && f.own) } } g { x with
    failure := failRecord level cause port (x.failure.getLsbD 54) rank step, ops := [], pendingFrames := [] }

/-- The bits of a group entry's dwords that are kept. -/
def groupMask (i : Nat) : Dword :=
  if i = 0 then 0xC000FFFF0000FFFF
  else if i = 1 then 0xFFFFFFFF00000000
  else if i = 2 then 0xFFFFFFFFFFFFFFFF
  else if i = 3 then 0xFFFFFFFFFFFFFFFF
  else if i = 4 then 0x0000FFFFFFFF0000
  else if i = 5 then 0x0000FFFFFFFFFFF8
  else if i = 6 then 0xFF
  else 0

/-- Dword 0 written with VALID = 1: an entry that reads 0, or a failed group, starts afresh. -/
def State.groupEnable (s : State) (g : BitVec 6) (v : Dword) : State :=
  let x := s.groupAt g
  let d := (v &&& groupMask 0) ||| 0x8000000000000000
  if !(groupDw0 x.dw).getLsbD 63 || x.failed then
    s.groupPut g { Group.blank with dw := x.dw.set 0 d }
  else s.groupPut g { x with dw := x.dw.set 0 d }

/-- Dword 0 written with VALID = 0: work in flight is abandoned. -/
def State.groupWithdraw (s : State) (g : BitVec 6) (v : Dword) : State :=
  let x := s.groupAt g
  let s := if x.ops.isEmpty && !(s.fabric.sent.any fun f => f.group = some g && f.due) then s
    else s.failGroup g 3 6 0 s.regs.pkrank x.step
  let x := s.groupAt g
  s.groupPut g { x with dw := x.dw.set 0 (v &&& groupMask 0 &&& 0x7FFFFFFFFFFFFFFF) }

/-- A dword of a group entry written. -/
def State.groupWrite (s : State) (g : BitVec 6) (i : Nat) (v : Dword) : State :=
  if i = 0 then (if v.getLsbD 63 then s.groupEnable g v else s.groupWithdraw g v)
  else
    let x := s.groupAt g
    s.groupPut g { x with dw := x.dw.set! i (v &&& groupMask i) }

/-! ### PRECTL and RESCTL: R330, R351 -/

/-- PRECTL written; GO starts a request unless one is in progress. -/
def State.preemptWrite (s : State) (v : Dword) : State :=
  let img : BitVec 33 := v.extractLsb' 0 33
  let s := { s with regs := { s.regs with prectl := img } }
  if !v.getLsbD 63 || s.regs.preJob.isSome then s
  else ({ s with regs := { s.regs with preJob := some img } }.askSave fun t => jobNames img t.ctx t.tid).jobsDone

/-- A restore asked for of a context that is marked SAVE-FAILED: SAVEFAIL goes to the event ring (R60); the frame it reports
is not stated (log 30). -/
def State.restoreRefused (s : State) (img : BitVec 33) : State :=
  let s := s.event (TrapInfo.mk0 cSAVEFAIL ((Config.freeBits s.tick 65537).extractLsb' 0 64)) (img.extractLsb' 0 16)
    ⟨img.extractLsb' 16 12, img.extractLsb' 29 3⟩
  State.jobsDone { s with regs := { s.regs with resJob := some img } }

/-- RESCTL written; GO asks for the named saved threads, with the whole group of one of core or cluster tier (R351). -/
def State.restoreWrite (s : State) (v : Dword) : State :=
  let img : BitVec 33 := v.extractLsb' 0 33
  let s := { s with regs := { s.regs with resctl := img } }
  if !v.getLsbD 63 || s.regs.resJob.isSome then s
  else if (s.ctxAt (img.extractLsb' 0 16)).svfail then s.restoreRefused img
  else
    let named (x : Saved) : Bool := jobNames img x.ctx x.tid
    let gs := (s.saved.filter fun x => named x && decide (x.tier.toNat ≤ 2)).map (·.group)
    State.jobsDone { s with
      regs := { s.regs with resJob := some img },
      saved := s.saved.map fun x => if named x || (decide (x.tier.toNat ≤ 2) && gs.contains x.group) then
        { x with restore := true } else x }

/-! ### The dispatcher -/

/-- A register of the package block. -/
def State.packageWrite (s : State) (o : Nat) (mask v : Dword) : State :=
  let mix (old rw : Dword) : Dword := (old &&& ~~~ mask) ||| (v &&& mask) &&& rw
  let regs (f : Regs → Regs) : State := { s with regs := f s.regs }
  if 0x10000 ≤ o ∧ o < 0x10100 then
    let i := (o - 0x10000) / 8
    let rw : Dword := if i % 2 = 0 then 0xE000FFFFFFFF0000 else 0x00000FFFFFFF0000
    regs fun r => { r with exports := r.exports.set! i (mix (r.exports.toList.getD i 0) rw) }
  else if 0x20000 ≤ o ∧ o < 0x21000 then
    let g := BitVec.ofNat 6 ((o - 0x20000) / 64)
    let i := o % 64 / 8
    s.groupWrite g i (mix ((s.groupAt g).dw.toList.getD i 0) (groupMask i))
  else if o = 0x30000 then regs fun r => { r with pkrank := (mix (r.pkrank.setWidth 64) 0xFFFF).extractLsb' 0 16 }
  else if o = 0x30008 then regs fun r => { r with frtbase := mix r.frtbase 0x0000FFFFFFF80000 }
  else if 0x30010 ≤ o ∧ o < 0x30050 then
    let p := (o - 0x30010) / 8
    regs fun r => { r with detour := r.detour.set! p ((mix ((r.detour.toList.getD p 0).setWidth 64) 0xBF).extractLsb' 0 8) }
  else if 0x40000 ≤ o ∧ o < 0x40800 then
    let q := BitVec.ofNat 6 ((o - 0x40000) / 32)
    let x := s.queueAt q
    if o % 32 = 0 then s.queuePut q { x with base := mix x.base 0x0000FFFFFFFFFFC0 }
    else if o % 32 = 8 then s.queueControl q (mix x.ctl 0x800000000000071F)
    else if o % 32 = 0x18 ∧ mask.getLsbD 0 then s.doorbell q (v.extractLsb' 0 32)
    else s
  else if 0x40800 ≤ o ∧ o < 0x41000 then
    (if o % 32 = 0 ∧ (v &&& mask).getLsbD 63 then s.haltedClear (BitVec.ofNat 6 ((o - 0x40800) / 32)) else s)
  else if o = 0x41000 then
    s.preemptWrite (mix (s.regs.prectl.setWidth 64) 0x00000001FFFFFFFF ||| (v &&& mask &&& 0x8000000000000000))
  else if o = 0x41008 then
    s.restoreWrite (mix (s.regs.resctl.setWidth 64) 0x00000001FFFFFFFF ||| (v &&& mask &&& 0x8000000000000000))
  else if o = 0x42000 then regs fun r => { r with sevbase := mix r.sevbase 0x0000FFFFFFFFF0FF }
  else if o = 0x42008 then regs fun r => { r with sevhead := (mix (r.sevhead.setWidth 64) 0xFFFFFFFF).extractLsb' 0 32 }
  else s

/-- A register of the postmaster block. -/
def State.postWrite (s : State) (o : Nat) (mask v : Dword) : State :=
  let w := v &&& mask
  let mix (old rw : Dword) : Dword := (old &&& ~~~ mask) ||| w &&& rw
  if o = 0 then s.mailboxCmd (w.extractLsb' 32 8) (w.extractLsb' 0 32)
  else if o = 0x100 then
    { s with thermal := { s.thermal with
      cmderr := s.thermal.cmderr && !w.getLsbD 11, ratex := s.thermal.ratex && !w.getLsbD 10 } }
  else if o = 0x108 then s.thcmd (w.extractLsb' 0 2)
  else if o = 0x200 then { s with host := { s.host with
    diesel := (mix (s.host.diesel.setWidth 64) 0x77).extractLsb' 0 7 } }
  else if o = 0x208 then
    let b := (mix (packFields [(s.host.bar2base.toNat, 10, 30)]) 0x000000FFC0000000).extractLsb' 30 10
    { s with host := { s.host with bar2base := b >>> s.host.bar2log.toNat <<< s.host.bar2log.toNat } }
  else if o = 0x210 then (if mask.getLsbD 0 then s.msirq w else s)
  else if 0x1000 ≤ o ∧ o < 0x2000 then
    let bs := leBytes 8 v.toNat
    let pm := if mask.getLsbD 0 then s.pm.bufPut (o - 0x1000) (bs.take 4) else s.pm
    { s with pm := if mask.getLsbD 63 then pm.bufPut (o - 0x1000 + 4) (bs.drop 4) else pm }
  else s

/-- The register at an 8-byte-aligned MMIO address written under a mask. Reserved offsets and read-only registers are left
as they are. -/
def State.regWrite (s : State) (pa : Nat) (mask v : Dword) : State :=
  if pa < packageBlock then
    let die := (pa - dieBlock) / 0x10000000
    let o := (pa - dieBlock) % 0x10000000
    if 0x1000000 ≤ o ∧ o < 0x2000000 ∧ die < 8 then
      let w := (o - 0x1000000) / 0x1000
      s.windowWrite ⟨BitVec.ofNat 12 (512 * die + w / 8), BitVec.ofNat 3 (w % 8)⟩ (o % 0x1000) mask v
    else s
  else if pa < postBlock then s.packageWrite (pa - packageBlock) mask v
  else s.postWrite (pa - postBlock) mask v

/-- A naturally aligned store of 4 or 8 bytes to MMIO (R18); it tells who watches its line (R212). -/
def State.mmioWrite (s : State) (pa : Nat) (wide : Bool) (v : Dword) : State :=
  State.notifyMem (if wide then s.regWrite pa 0xFFFFFFFFFFFFFFFF v
    else if pa % 8 = 0 then s.regWrite pa 0xFFFFFFFF v
    else s.regWrite (pa / 8 * 8) 0xFFFFFFFF00000000 (v <<< 32)) pa (if wide then 8 else 4)

end Sys2Proof.Machine
end

