-- ==== Sys2Proof/Machine/Group.lean ====
section
/-! DEFINITION. Collective groups and their operations as they stand: the registers of a group (Table 14.4), the segments and ring
steps of an operation and the slot steps that carry them (14 R312 to R315), and whether an operation is carried out. -/
namespace Sys2Proof.Machine
open Sys2Proof

/-! ### The registers of a group: Table 14.4 -/

/-- Whether the group is in service. -/
def Group.valid (g : Group) : Bool := (groupDw0 g.dw).getLsbD 63
/-- N. -/
def Group.n (g : Group) : Nat := (g.dw[0].extractLsb' 32 16).toNat + 1
/-- This package's group rank. -/
def Group.me (g : Group) : Nat := (g.dw[0].extractLsb' 0 16).toNat
def Group.gto (g : Group) : Bool := g.dw[0].getLsbD 62
def Group.nextPk (g : Group) : BitVec 16 := g.dw[1].extractLsb' 48 16
def Group.prevPk (g : Group) : BitVec 16 := g.dw[1].extractLsb' 32 16
/-- The slot size in bytes. -/
def Group.slotSize (g : Group) : Nat := ((g.dw[6].extractLsb' 0 8).toNat + 1) * 65536
/-- Where the slot of a step begins. -/
def Group.slotAt (g : Group) (step : Nat) : Nat := (g.dw[4].extractLsb' 16 32).toNat * 65536 + step % 2 * g.slotSize
/-- The arrival word of the slot of a step. -/
def Group.slotWord (g : Group) (step : Nat) : Nat := (g.dw[5].extractLsb' 3 45).toNat * 8 + 8 * (step % 2)

/-! ### Segments and ring steps: R314, R315 -/

/-- The bytes of an element. -/
def ColOp.m (o : ColOp) : Nat := if o.kind = 3 then 1 else if o.fmt then 4 else 2
/-- S. -/
def segLen (e n : Nat) : Nat := (e + n - 1) / n
/-- The first byte of segment c and its bytes. -/
def segAt (e n m c : Nat) : Nat × Nat :=
  let lo := Nat.min (c * segLen e n) e
  (m * lo, m * (Nat.min ((c + 1) * segLen e n) e - lo))

/-- The number of ring steps. -/
def ColOp.rings (o : ColOp) (n : Nat) : Nat := if o.kind = 2 then 2 * (n - 1) else if o.kind = 3 then 1 else n - 1
/-- Whether ring step i reduces. -/
def ColOp.reduces (o : ColOp) (n i : Nat) : Bool := o.kind == 0 || (o.kind == 2 && decide (i < n - 1))
/-- The segment this rank sends in ring step i. -/
def ColOp.sends (o : ColOp) (n me i : Nat) : Nat :=
  if o.reduces n i then (me + 2 * n - 1 - i) % n
  else (me + 2 * n - (if o.kind = 2 then i - (n - 1) else i)) % n
/-- The segment this rank receives in ring step i: what the rank before it sends. -/
def ColOp.gets (o : ColOp) (n me i : Nat) : Nat := o.sends n ((me + n - 1) % n) i

/-- The slot steps of a ring step of some bytes. -/
def slotSteps (slot bytes : Nat) : Nat := Nat.max 1 ((bytes + slot - 1) / slot)

/-- The bytes that a ring step carries: the segment, or the whole of a COLROT. -/
def ColOp.bytesOf (o : ColOp) (n c : Nat) : Nat := if o.kind = 3 then o.count.toNat else (segAt o.count.toNat n o.m c).2

/-- The ring step and the part of it that slot step k of the operation is, by the bytes of each ring step. -/
def slotStep (slot : Nat) : List Nat → Nat → Nat → Option (Nat × Nat × Nat)
  | [], _, _ => none
  | b :: bs, k, i => if k < slotSteps slot b then some (i, k * slot, Nat.min slot (b - k * slot))
    else slotStep slot bs (k - slotSteps slot b) (i + 1)

/-- The bytes of each ring step that this rank sends. -/
def ColOp.sendSizes (o : ColOp) (g : Group) : List Nat :=
  (List.range (o.rings g.n)).map fun i => o.bytesOf g.n (o.sends g.n g.me i)

/-! ### Whether an operation is carried out -/

/-- Whether every slot step of an operation has been sent. -/
def ColOp.allSent (o : ColOp) (g : Group) : Bool := o.begun && (slotStep g.slotSize (o.sendSizes g) o.sent 0).isNone

/-- Whether every ring step of an operation has been received. -/
def ColOp.allReceived (o : ColOp) (g : Group) : Bool :=
  if o.kind = 3 then !o.owed else o.begun && decide (o.rings g.n ≤ o.holds.length)

/-- Whether an operation's work at this rank is done, so that the next of its group may begin (R311): a COLROT only sends (R316). -/
def ColOp.over (o : ColOp) (g : Group) : Bool := o.allSent g && (o.kind == 3 || o.allReceived g)

/-- The operation whose turn it is (R311). -/
def Group.turn (g : Group) : Option Nat := g.ops.findIdx? fun o => !o.over g

/-- Whether a thread issued an operation. -/
def ColOp.of (o : ColOp) (t : Thread) : Bool := o.group == t.group && o.rank == t.rank && o.ctx == t.ctx

/-- Whether a thread issued the operation that a frame belongs to. -/
def Sent.of (f : Sent) (t : Thread) : Bool := f.issuer.any fun (g, r, c, _) => g == t.group && r == t.rank && c == t.ctx

/-- Whether a release of a scope has to wait for an earlier collective of the thread: a domain-scope release follows the delivery of
what they send to other packages. A synchronous copy holds its thread until its own end (R91, R112). -/
def State.releaseWaits (s : State) (t : Thread) (scope : BitVec 3) : Bool :=
  scope == 4 &&
    ((s.groups.any fun (_, g) => !g.failed && g.n != 1 && g.ops.any fun o => o.of t && !o.allSent g)
      || s.fabric.sent.any fun f => f.of t && f.group.isSome && f.own && f.due)

end Sys2Proof.Machine
end

