-- ==== Sys2Proof/Machine/Access.lean ====
section
/-! DEFINITION. Accesses of threads: the regions of an address, its resolution into pieces that lie in one line, one row
or one arrival word, reads that see the thread's own unperformed stores, buffered stores and their performance, releases
and acquires, and what the supervisor is told of a fault (01 to 04, 16 R345). -/
namespace Sys2Proof.Machine
open Sys2Proof

/-! ### Regions: R10 to R15 -/

/-- The first address of the near window (Table 1.1). -/
def nearBase : Nat := 0x007FFFFF00000000

/-- The regions of Table 1.1. -/
inductive Region where
  | task
  | near
  | sup
  deriving DecidableEq, Repr

/-- The region of an address below 2^56. -/
def regionOf (a : Nat) : Region :=
  if a < nearBase then .task else if a < 0x0080000000000000 then .near else .sup

/-- A part of an access that lies in one line, one row or one arrival word. -/
structure Piece where
  place : Place
  len : Nat
  va : Dword
  xl : Option Xl
  deriving DecidableEq, Repr

/-- The sizes of the parts of a run of n bytes cut where the address is a multiple of `g`. -/
def cutAt (g : Nat) : Nat → Nat → Nat → List (Nat × Nat)
  | 0, _, _ => []
  | fuel + 1, a, n =>
    if n = 0 then []
    else
      let k := Nat.min n (g - a % g)
      (a, k) :: cutAt g fuel (a + k) (n - k)

/-- The parts of a run of n bytes, each within an aligned unit of `g` bytes. -/
def cuts (g a n : Nat) : List (Nat × Nat) := cutAt g (n / g + 2) a n

/-- The live thread that owns a physical row of a core. -/
def State.ownerOf (s : State) (core : BitVec 12) (p : Nat) : Option Thread :=
  s.threads.find? fun x => x.tid.core = core && decide (x.base.toNat ≤ p / 256) && decide (p / 256 < x.base.toNat + x.n)

/-- The check columns of a row are reached by n bytes from a byte on (R33). -/
def inCheckBytes (byte n : Nat) : Bool := decide (104 < byte + n)

/-- The pieces of a near-window access of n bytes, or its fault: R12 to R15, R33. `word` says that the access may use the
arrival-word page: an aligned 8-byte load, a 64-bit AMO, an arrival instruction. -/
def State.nearPieces (s : State) (t : Thread) (k : Kind) (va : Dword) (n : Nat) (word : Bool) : Except XFault (List Piece) :=
  let o := va.toNat - nearBase
  if o + n ≤ 256 * t.n * 128 then
    let ps := (cuts 128 o n).map fun (a, len) =>
      (⟨.row t.tid.core (BitVec.ofNat 12 (physRow t.base t.n (a / 128))) (BitVec.ofNat 7 (a % 128)), len,
        BitVec.ofNat 64 (nearBase + a), none⟩ : Piece)
    if t.checked && k.writes && (cuts 128 o n).any (fun (a, len) => inCheckBytes (a % 128) len) then
      .error (XFault.plain cCHKCOL va)
    else .ok ps
  else if 0x100000 ≤ o ∧ o + n ≤ 0x300000 then
    let rows := (cuts 128 (o - 0x100000) n).map fun (a, len) =>
      (BitVec.ofNat 12 (t.tid.core.toNat / 4 * 4 + a / 0x80000), a % 0x80000 / 128, a % 128, len, a)
    if rows.any (fun (c, p, _, _, _) => match s.ownerOf c p with | none => true | some x => x.ctx != t.ctx) then
      .error (XFault.plain cPLYOWN va)
    else if k.writes && rows.any (fun (c, p, b, len, _) =>
        (match s.ownerOf c p with | none => false | some x => x.checked) && inCheckBytes b len) then
      .error (XFault.plain cCHKCOL va)
    else .ok (rows.map fun (c, p, b, len, a) =>
      ⟨.row c (BitVec.ofNat 12 p) (BitVec.ofNat 7 b), len, BitVec.ofNat 64 (nearBase + 0x100000 + a), none⟩)
  else if word && decide (0x300000 ≤ o) && decide (o + 8 ≤ 0x301000) && o % 8 == 0 && n == 8 then
    .ok [⟨.arr (arrKey t.ctx (clusterOf t.tid.core) (BitVec.ofNat 9 ((o - 0x300000) / 8))), 8, va, none⟩]
  else .error (XFault.plain cNEARRANGE va)

/-- Whether a physical address is reached through a device-class page or lies in MMIO. -/
def Xl.device (x : Xl) : Bool := x.cls == 2#2

/-- The translated parts of an access, one for each line, and the faults of its pages in address order. -/
def State.pageParts (s : State) (t : Thread) (k : Kind) (va : Dword) (n : Nat) :
    List (Dword × Nat × Except XFault Xl) :=
  (cuts 65536 va.toNat n).flatMap fun (a, len) =>
    match s.translate t.tid.core t.ctx k (BitVec.ofNat 64 a) with
    | .error f => [(BitVec.ofNat 64 a, len, .error f)]
    | .ok _ => (cuts 128 a len).map fun (b, m) =>
        (BitVec.ofNat 64 b, m, s.translate t.tid.core t.ctx k (BitVec.ofNat 64 b))

/-- Where a translated part is performed. -/
def Xl.place (x : Xl) : Place := if x.device then .dev x.pa else .mem x.pa (x.cls == 0#2) x.repl

/-- Whether the host has completed a request for one of n bytes with an error (R17). -/
def State.hostFails (s : State) (pa n : Nat) : Bool :=
  isHost pa && (List.range ((pa + n - 1) / 8 + 1 - pa / 8)).any fun i => look false s.host.errors (pa / 8 + i)

/-- Whether a read of n bytes of one line meets such an error: one that the home slice holds asks nothing of the host. -/
def State.readFails (s : State) (pa n : Nat) : Bool := !(s.l2At (pa / 128)).held && s.hostFails pa n

/-- Whether a load meets such an error: bytes that its core's L1 holds ask nothing of the slice. -/
def State.loadFails (s : State) (core : BitVec 12) (x : Xl) (n : Nat) : Bool :=
  s.readFails x.pa n && !(x.cls == 0#2 && s.l1Holds core x.pa n)

/-- The pieces of an access of n bytes to a virtual address by a thread, or its faults in address order; nothing has been
performed (R10 to R15, R17, R18, R43, R44, R63, R113, R219). An access that starts below 2^56 and runs past it raises ADDRFORM with
its lowest address (log 60). -/
def State.resolve (s : State) (t : Thread) (k : Kind) (va : Dword) (n : Nat) (word : Bool) :
    Except (List XFault) (List Piece) :=
  let a := va.toNat
  let z := a + n - 1
  if 2 ^ 56 ≤ a then .error [XFault.plain cADDRFORM va]
  else if regionOf a = .sup ∧ !t.priv then .error [XFault.plain cPRIVSPACE va]
  else if 2 ^ 56 ≤ z then .error [XFault.plain cADDRFORM va]
  else if regionOf a ≠ regionOf z then .error [XFault.plain cNEARRANGE va]
  else if regionOf a = .near then
    match s.nearPieces t k va n word with
    | .error f => .error [f]
    | .ok ps => .ok ps
  else
    let parts := s.pageParts t k va n
    let faults := parts.filterMap fun (_, _, r) => match r with | .error f => some f | .ok _ => none
    if faults ≠ [] then .error faults
    else
      let ok : List Piece := parts.filterMap fun (b, m, r) => match r with
        | .error _ => none
        | .ok x => some (⟨x.place, m, b, some x⟩ : Piece)
      if ok.any (fun p => match p.xl with | none => false | some x => x.device) then
        match ok with
        | [⟨.dev pa, _, _, some x⟩] =>
          if k = .amo then
            (if isMmio pa then .error [XFault.plain cPHYSHOLE va]
             else .error [⟨cPGPERM, va, if x.big then 2 else 3, 2, 0, k.code, x.big⟩])
          else if !((n == 4 || n == 8) && pa % n == 0) then .error [XFault.plain cPHYSHOLE va]
          else if s.hostFails pa n then .error [XFault.plain cPHYSHOLE va]
          else .ok ok
        | _ => .error [if k = .amo then ⟨cPGPERM, va, 3, 2, 0, k.code, false⟩ else XFault.plain cPHYSHOLE va]
      else match (if k = .write then none else ok.find? fun p => match p.xl with
          | none => false
          | some x => if k = .read then s.loadFails t.tid.core x p.len else s.readFails x.pa p.len) with
        | some p => .error [XFault.plain cPHYSHOLE p.va]
        | none => .ok ok

/-! ### Fault records: R54 -/

/-- The virtual address bits [55:16] that a fault lists. -/
def XFault.page (f : XFault) : Nat := f.va.toNat / 65536

/-- The page in which a fault was met, by its first page of 64 KiB. -/
def XFault.base (f : XFault) : Nat := if f.big then f.page / 8192 * 8192 else f.page

/-- The faults that R54 records, one for each distinct page, in order; a page of 512 MiB is listed by the address of its first
fault (log 60). -/
def recorded (fs : List XFault) : List XFault :=
  (fs.filter (·.cause ≠ 0)).foldl (fun acc f => if acc.any (·.base = f.base) then acc else acc ++ [f]) []

/-- The detail code of a record: that of the first PGSHR among the faults it lists (Table 2.8, R54). -/
def recordDetail (l : List XFault) : Nat := ((l.find? fun f => f.cause = 6).map (·.detail)).getD 0

/-- The translation fault record written at XFRA (R54). -/
def State.record (s : State) (ctx : BitVec 16) (fs : List XFault) (vec : Bool) : State :=
  let l := recorded fs
  if l = [] then s
  else
    let at_ := (s.ctxAt ctx).xfra.toNat / 512 * 512
    let kept := l.take 32
    let d0 := packFields [(kept.length, 6, 0), (if 32 < l.length then 1 else 0, 1, 6), (if vec then 1 else 0, 1, 7),
      (recordDetail kept, 8, 8)]
    let ds := d0 :: kept.map fun f =>
      packFields [(f.page, 40, 16), (f.level, 3, 8), (f.kind, 3, 5), (f.cause, 3, 0)]
    s.homeWrite at_ 0 (ds.flatMap fun d => leBytes 8 d.toNat)

/-- The precise trap of an access that faults: the first fault's code and address (Table 16.1), its record written. -/
def State.accessFault (s : State) (fs : List XFault) (vec : Bool) : State :=
  match fs with
  | [] => s
  | f :: _ =>
    (s.record s.th.ctx fs vec).fault
      { TrapInfo.mk0 f.code f.va with sub := if f.code = cPGSHR then BitVec.ofNat 8 f.detail else 0 }

/-! ### The thread's own unperformed stores: R101, R345 -/

/-- The byte of a place that a buffered write gives the byte at offset i of another place, when both name it. -/
def Buffered.byteFor (b : Buffered) (q : Place) (i : Nat) : Option Byte :=
  match b.op with
  | .add _ _ => none
  | .write bs =>
    match b.place, q with
    | .mem pa _ _, .mem qa _ _ => if pa ≤ qa + i then bs[qa + i - pa]? else none
    | .dev pa, .dev qa => if pa ≤ qa + i then bs[qa + i - pa]? else none
    | .row c p y, .row c' p' y' =>
      if c = c' ∧ p = p' ∧ y.toNat ≤ y'.toNat + i then bs[y'.toNat + i - y.toNat]? else none
    | _, _ => none

/-- The writes of a thread that are not yet performed, oldest first. -/
def State.own (s : State) (t : Thread) : List Buffered :=
  (s.repQ.filterMap fun r =>
    if r.tid = some t.tid then some (⟨false, true, r.via, .mem r.pa false r.repl, .write r.bytes⟩ : Buffered) else none)
    ++ (s.drain.filterMap fun (x, b) => if x = t.tid then some b else none) ++ t.strip.buf

/-- Whether the reads of a stream return an unperformed write of its thread: one of its own, or one of the other stream that it is
ordered after (R101, R102). -/
def Buffered.visible (b : Buffered) (vec : Bool) : Bool := b.vec == vec || b.seen

/-- The unperformed writes of a thread that the reads of one of its streams return. -/
def State.ownOf (s : State) (t : Thread) (vec : Bool) : List Buffered := (s.own t).filter (·.visible vec)

/-- A list with the first k elements that satisfy a condition changed, and what is left of k. -/
def changeFirst {α : Type} (p : α → Bool) (f : α → α) : Nat → List α → Nat × List α
  | k, [] => (k, [])
  | k, a :: l =>
    if p a && k != 0 then
      let r := changeFirst p f (k - 1) l
      (r.1, f a :: r.2)
    else
      let r := changeFirst p f k l
      (r.1, a :: r.2)

/-- Whether an unperformed write of the thread in focus is one of the other stream that a stream has not seen yet. -/
def Buffered.hidden (b : Buffered) (vec : Bool) : Bool := !b.visible vec

/-- The oldest k such writes now seen by the stream: its later accesses are ordered after them (R102). -/
def State.reveal (s : State) (vec : Bool) (k : Nat) : State :=
  let seen (b : Buffered) : Buffered := { b with seen := true }
  let (k, d) := changeFirst (fun (t, b) => t == s.th.tid && b.hidden vec) (fun (t, b) => (t, seen b)) k s.drain
  let (_, l) := changeFirst (fun b => b.hidden vec) seen k s.th.strip.buf
  { s with drain := d, th := { s.th with strip := { s.th.strip with buf := l } } }

/-- The number of writes of the thread in focus that a stream has not seen. -/
def State.hiddenFrom (s : State) (vec : Bool) : Nat := ((s.own s.th).filter (·.hidden vec)).length

/-- Every write of the other stream seen by a stream: what a fence does (R102). -/
def State.revealAll (s : State) (vec : Bool) : State := s.reveal vec (s.hiddenFrom vec)

/-- Before a word of a stream: a free number of the other stream's oldest unseen writes become seen, for nothing but taints and
fences orders the streams (R102, log 62). -/
def State.revealSome (s : State) (vec : Bool) : State :=
  let n := s.hiddenFrom vec
  if n = 0 then s else s.reveal vec (Config.choose s.tick 0 % (n + 1))

/-- Bytes with the thread's own unperformed writes laid over them. -/
def overlay (own : List Buffered) (q : Place) (bs : List Byte) : List Byte :=
  if own.isEmpty then bs
  else bs.zipIdx.map fun (x, i) => own.foldl (fun x b => (b.byteFor q i).getD x) x

/-- The row of the thread in focus as its instructions read it: with the view stores that the vector stream is ordered after laid
over it (R102). -/
def State.seen (s : State) (e : Nat) : Row :=
  let r := s.rowAt (s.th.rowKey e)
  let q : Place := .row s.th.tid.core (BitVec.ofNat 12 (physRow s.th.base s.th.n e)) 0
  let own := (s.ownOf s.th true).filter fun b => match b.place with
    | .row c p _ => c == s.th.tid.core && p == BitVec.ofNat 12 (physRow s.th.base s.th.n e)
    | .mem _ _ _ => false
    | .dev _ => false
    | .arr _ => false
  if own.isEmpty then r else rowSetBytes r 0 (overlay own q (rowBytes r 0 128))

/-- A buffered write with bits of a row replaced in the bytes it holds. -/
def Buffered.patch (b : Buffered) (core : BitVec 12) (p : BitVec 12) (c w v : Nat) : Buffered :=
  match b.op, b.place with
  | .write bs, .row c' p' y =>
    if c' = core ∧ p' = p then
      let r := rowSetBytes 0 y.toNat bs
      { b with op := .write (rowBytes (rowSet r c w v) y.toNat bs.length) }
    else b
  | _, _ => b

/-- w bits of a logical row of the thread in focus written from column c, over those of its unperformed view stores that the
vector stream is ordered after too (R101, R102). -/
def State.setBits (s : State) (e c w v : Nat) : State :=
  let key := s.th.rowKey e
  let p := BitVec.ofNat 12 (physRow s.th.base s.th.n e)
  let s' := s.putRow key c w (rowSet (s.rowAt key) c w v)
  let patch (b : Buffered) : Buffered := if b.visible true then b.patch s.th.tid.core p c w v else b
  if (s.own s.th).isEmpty then s'
  else { s' with
    drain := s'.drain.map fun (t, b) => if t = s.th.tid then (t, patch b) else (t, b),
    th := { s'.th with strip := { s'.th.strip with buf := s'.th.strip.buf.map patch } } }

/-! ### Reads -/

/-- The translation of a piece installed (R44, R45, R56). -/
def State.installPiece (s : State) (k : Kind) (p : Piece) : State :=
  match p.xl with
  | none => s
  | some x => s.install s.th.tid.core s.th.ctx k p.va x

/-- A ply that an access reaches wakes (R14, R353). -/
def State.wakePly (s : State) (core : BitVec 12) (p : Nat) : State :=
  s.mapThreads fun x =>
    let j := p / 256 - x.base.toNat
    if x.live && x.tid.core = core && decide (x.base.toNat ≤ p / 256) && decide (p / 256 < x.base.toNat + x.n)
        && (x.plyAt j).drowsy then x.setPly j { x.plyAt j with drowsy := false } else x

/-- A read of w columns from column c of a row, for the thread in focus: its strip is in error where the parity of a group that the
read reaches disagrees (R24, R347). -/
def State.parityRead (s : State) (core : BitVec 12) (p c w : Nat) : State :=
  if look 0 s.badCols (rowKey core p) &&& parityMask c w = 0 then s
  else s.upd fun t => t.strike 2 (BitVec.ofNat 64 p)

/-- A read of n bytes of a line by the thread in focus: its strip is in error where the line, read at its home slice, holds an
uncorrectable error (R62, R347). `l1` says that the core's L1 answers where it holds the bytes. -/
def State.eccRead (s : State) (l1 : Bool) (pa : Nat) (repl : BitVec 2) (n : Nat) : State :=
  let at_ := replicaFor s.th.tid.core pa repl
  if s.eccBad.isEmpty || !s.poisoned at_ || (l1 && s.l1Holds s.th.tid.core at_ n) then s
  else s.upd fun t => t.strike 1 (BitVec.ofNat 64 (at_ / 128 * 128))

/-- The bytes at a place as a read of the thread in focus finds them there, before its own unperformed stores. -/
def State.placeRead (s : State) (q : Place) (n : Nat) : State × List Byte :=
  match q with
  | .mem pa cached repl =>
    let s := s.eccRead cached pa repl n
    if cached then s.l1Read s.th.tid.core pa repl n else s.homeRead s.th.tid.core pa repl n
  | .dev pa => (s, if isMmio pa then s.mmioBytes pa n else memBytes s.mem pa n)
  | .row c p b =>
    let s := (s.wakePly c p.toNat).parityRead c p.toNat (8 * b.toNat) (8 * n)
    (s, rowBytes (s.rowAt (rowKey c p.toNat)) b.toNat n)
  | .arr key => (s, leBytes 8 (look 0 s.arr key).toNat)

/-- A resolved read of a stream performed: its bytes in address order. -/
def State.readPieces (s : State) (vec : Bool) (k : Kind) : List Piece → State × List Byte
  | [] => (s, [])
  | p :: ps =>
    let s := s.installPiece k p
    let (s, bs) := s.placeRead p.place p.len
    let bs := overlay (s.ownOf s.th vec) p.place bs
    let (s, rest) := s.readPieces vec k ps
    (s, bs ++ rest)

/-- Whether a resolved access is device class (R63). -/
def anyDevice (ps : List Piece) : Bool := ps.any fun p => match p.place with
  | .dev _ => true
  | .mem _ _ _ => false
  | .row _ _ _ => false
  | .arr _ => false

/-- The logical row of a physical row of the thread in focus. -/
def Thread.ownRow (t : Thread) (c : BitVec 12) (p : BitVec 12) : Option Nat :=
  if c = t.tid.core ∧ t.base.toNat ≤ p.toNat / 256 ∧ p.toNat / 256 < t.base.toNat + t.n then
    some (logRow t.n (p.toNat / 256 - t.base.toNat) (p.toNat % 256))
  else none

/-- Rows pinned by the open strip (R346). -/
def Thread.pin (t : Thread) (es : List Nat) : Thread :=
  { t with strip := { t.strip with pins := es.foldl (fun l e => if l.contains e then l else e :: l) t.strip.pins } }

/-- Whether an address lies in the offsets of the scratchpad view (Table 1.2). -/
def inView (va : Dword) : Bool := decide (nearBase ≤ va.toNat) && decide (va.toNat < nearBase + 0x100000)

/-- The rows that a resolved access reaches through the view. -/
def Thread.viewRows (t : Thread) (ps : List Piece) : List Nat := ps.filterMap fun p => match p.place with
  | .row c q _ => if inView p.va then t.ownRow c q else none
  | .mem _ _ _ => none
  | .dev _ => none
  | .arr _ => none

/-! ### Stores -/

/-- The block of the view that a row lies in marked dirty in the scratchpad tag table (Table 3.5). -/
def Thread.markDirty (t : Thread) (e : Nat) : Thread :=
  let i := Fin.ofNat 256 (e / t.n)
  { t with sptab := t.sptab.set i (t.sptab[i] ||| 2) }

/-- Resolved store pieces put into the strip store buffer (R345). Too little free space commits the open strip first
(R342). -/
def State.bufferStore (s : State) (vec : Bool) (ps : List Piece) (bs : List Byte) : State :=
  let s := ps.foldl (fun s p => s.installPiece .write p) s
  let s := if 32768 < s.th.strip.held + bs.length then s.commit else s
  let (buf, _) := ps.foldl (fun (acc, rest) (p : Piece) =>
    (acc ++ [(⟨vec, false, p.xl.map (·.key), p.place, .write (rest.take p.len)⟩ : Buffered)], rest.drop p.len))
      (([] : List Buffered), bs)
  let t := { s.th with strip := { s.th.strip with buf := s.th.strip.buf ++ buf } }
  { s with th := (t.viewRows ps).foldl (fun t e => t.markDirty e) t }

end Sys2Proof.Machine
end

