-- ==== Sys2Proof/Machine/Flags.lean ====
section
/-! DEFINITION. Every computation that raises a flag or sets a trust count: the integer fit and division of 08 R170 and
R171, the float operations of R174, R177, R178 with the trust of R183 to R185. -/
namespace Sys2Proof.Machine
open Sys2Proof

/-! ### Integers -/

/-- The smallest and largest value of an integer of w bits (R170). -/
def intMin (w : Nat) (signed : Bool) : Int := if signed then -(2 ^ (w - 1) : Nat) else 0
def intMax (w : Nat) (signed : Bool) : Int := if signed then (2 ^ (w - 1) : Nat) - 1 else (2 ^ w : Nat) - 1

/-- The low w bits of an exact integer. -/
def lowBits (w : Nat) (x : Int) : Nat := (x % (2 ^ w : Nat)).toNat

/-- The value of w bits as a signed or unsigned integer. -/
def intOf (w : Nat) (signed : Bool) (n : Nat) : Int :=
  let m := n % 2 ^ w
  if signed && decide (0 < w) && m.testBit (w - 1) then (m : Int) - (2 ^ w : Nat) else m

/-- An exact result fitted to w bits, with SAT when saturation changed it (R170). -/
def fit (w : Nat) (signed sat : Bool) (x : Int) : Nat × Flags :=
  if sat && decide (x < intMin w signed) then (lowBits w (intMin w signed), fSAT)
  else if sat && decide (intMax w signed < x) then (lowBits w (intMax w signed), fSAT)
  else (lowBits w x, 0)

/-- The quotient of R171 and R243 for width w, with its flag. -/
def quot (w : Nat) (signed : Bool) (x y : Int) : Int × Flags :=
  if y = 0 then (-1, fDZ)
  else if signed && decide (x = intMin w true) && decide (y = -1) then (x, fOV)
  else (x.tdiv y, 0)

/-- The remainder of R171 and R243 for width w, with its flag. -/
def remd (w : Nat) (signed : Bool) (x y : Int) : Int × Flags :=
  if y = 0 then (x, fDZ)
  else if signed && decide (x = intMin w true) && decide (y = -1) then (0, fOV)
  else (x.tmod y, 0)

/-! ### Float operands and results -/

/-- A float operand: its bits in the format of the operation, its value, its trust, and the precision of the format it
comes from (R185). -/
structure FOpd where
  bits : Nat
  val : FVal
  t : Nat
  p : Nat
  deriving DecidableEq, Repr

/-- A float result: its bits, its trust, its flags. -/
structure FOut where
  bits : Nat
  t : Nat
  flags : Flags
  deriving DecidableEq, Repr

/-- An operand at its own format's full count. -/
def FOpd.full (a : FOpd) : Bool := a.t == a.p

/-- An operand read from bits of a format. -/
def Fmt.opd (f : Fmt) (bits t : Nat) : FOpd := ⟨bits, f.read bits, Nat.min t f.prec, f.prec⟩

/-- A rounded result with the trust rule `t` of its operation. -/
def FOut.of (f : Fmt) (r : FRes) (full : Bool) (t : Int) : FOut := ⟨r.bits, trustOf f r full t, r.flags⟩

/-- The count of bits that an instruction moves unchanged, its own rule giving `t`: rules 1 and 2 of R185. -/
def Fmt.plainTrust (f : Fmt) (bits : Nat) (full : Bool) (t : Nat) : Nat := trustOf f (f.res bits 0 false) full t

/-- a + b. -/
def opAdd (f : Fmt) (rm : BitVec 3) (a b : FOpd) : FOut :=
  let r := f.finish rm (fAdd rm a.val b.val)
  .of f r (a.full && b.full) (addTrust f r (maxExp (errExp a.val a.t) (errExp b.val b.t)))
/-- An operand with its sign inverted. -/
def FOpd.neg (a : FOpd) : FOpd := { a with val := fNegate a.val }
/-- a - b. -/
def opSub (f : Fmt) (rm : BitVec 3) (a b : FOpd) : FOut := opAdd f rm a b.neg
/-- a × b. -/
def opMul (f : Fmt) (rm : BitVec 3) (a b : FOpd) : FOut :=
  .of f (f.finish rm (fMul a.val b.val)) (a.full && b.full) (mulTrust a.t a.p b.t b.p)
/-- a ÷ b. -/
def opDiv (f : Fmt) (rm : BitVec 3) (a b : FOpd) : FOut :=
  .of f (f.finish rm (fDiv a.val b.val)) (a.full && b.full) (mulTrust a.t a.p b.t b.p)
/-- √a. -/
def opSqrt (f : Fmt) (rm : BitVec 3) (a : FOpd) : FOut :=
  .of f (f.finish rm (fSqrt a.val)) a.full ((a.t : Int) + 1)
/-- ±(a × b) ± c with one rounding: R223, R249 and the fused row of Table 8.7. -/
def opFma (f : Fmt) (rm : BitVec 3) (negP negC : Bool) (a b c : FOpd) : FOut :=
  let a' := if negP then a.neg else a
  let c' := if negC then c.neg else c
  let r := f.finish rm (fFma rm a'.val b.val c'.val)
  .of f r (a.full && b.full && c.full)
    (addTrust f r (maxExp (prodExp a.val b.val a.t a.p b.t b.p) (errExp c.val c.t)))
/-- A special function (R247). -/
def opSpecial (f : Fmt) (rm : BitVec 3) (g : FVal → Exact) (a : FOpd) : FOut :=
  .of f (f.finish rm (g a.val)) a.full ((Nat.min a.t f.prec : Int) - 1)

/-- The operand chosen by FMIN (`lower`) or FMAX: Table 10.6, and the lower count of equal values (Table 8.7). -/
def opMinMax (f : Fmt) (lower : Bool) (a b : FOpd) : FOut :=
  let nv := snanFlag [a.val, b.val]
  let q : FOut := ⟨(f.writeNan nv).bits, 0, (f.writeNan nv).flags⟩
  if a.val.isSnan || b.val.isSnan then q
  else if a.val.isNan && b.val.isNan then q
  else
    let t (x : FOpd) (n : Nat) : Nat :=
      if x.val.isInf then 0 else if x.val.isZero then (if a.full && b.full then f.prec else 0) else n
    if a.val.isNan then ⟨b.bits, t b b.t, 0⟩
    else if b.val.isNan then ⟨a.bits, t a a.t, 0⟩
    else
      let o := fTotal a.val b.val
      if o = .eq then ⟨a.bits, t a (Nat.min a.t b.t), 0⟩
      else if (o = .lt) = lower then ⟨a.bits, t a a.t, 0⟩ else ⟨b.bits, t b b.t, 0⟩

/-- The sign bit of a code, where the format has one. -/
def Fmt.signBit (f : Fmt) : Nat := if f.sign then 2 ^ (f.ebits + f.mbits) else 0

/-- a's magnitude with a given sign; a NaN gives the quiet NaN, no flag, T = 0 (Tables 10.6, 11.6). A negative sign on a
format without one is a negative result (Table 8.3). -/
def opSign (f : Fmt) (neg : Bool) (a : FOpd) : FOut :=
  match a.val with
  | .nan _ => ⟨(f.writeNan 0).bits, 0, 0⟩
  | .inf _ => if neg && !f.sign then (let r := f.writeInf neg 0; ⟨r.bits, trustOf f r a.full a.t, r.flags⟩)
      else ⟨a.bits &&& (2 ^ f.width - 1 - f.signBit) ||| (if neg then f.signBit else 0), 0, 0⟩
  | .fin _ m e =>
    if neg && !f.sign && m ≠ 0 then (let r := f.round 0 neg m e false; ⟨r.bits, trustOf f r a.full a.t, r.flags⟩)
    else
      ⟨a.bits &&& (2 ^ f.width - 1 - f.signBit) ||| (if neg then f.signBit else 0),
        if m = 0 then (if a.full then f.prec else 0) else a.t, 0⟩

/-- A float converted to another float format: R178, Table 8.7 (narrower and wider rows). -/
def opConv (g : Fmt) (rm : BitVec 3) (a : FOpd) : FOut :=
  .of g (g.finish rm (Exact.ofVal a.val)) a.full (Nat.min a.t g.prec : Int)

/-- An integer converted to a float format, T = P (R178). -/
def opOfInt (g : Fmt) (rm : BitVec 3) (x : Int) : FOut :=
  .of g (g.finish rm (.num (decide (x < 0)) x.natAbs 0 false 0)) true g.prec

/-- A float rounded to an integer by the mode (R177): the integer and whether rounding changed the value. -/
def roundToInt (rm : BitVec 3) (neg : Bool) (m : Nat) (e : Int) : Int × Bool :=
  let (n, x) := roundAt rm neg m e false 0
  (if neg then -(n : Int) else n, x)

/-- A float converted to an integer of w bits: saturating, NaN to 0, NV and NX of R178. Whether a value
lies outside the range is judged after rounding (log 51). -/
def opToInt (w : Nat) (signed : Bool) (rm : BitVec 3) (v : FVal) : Nat × Flags :=
  match v with
  | .nan _ => (0, fNV)
  | .inf n => (lowBits w (if n then intMin w signed else intMax w signed), fNV)
  | .fin n m e =>
    if m ≠ 0 ∧ 2000 < leadExp m e then (lowBits w (if n then intMin w signed else intMax w signed), fNV)
    else
      let (x, inexact) := roundToInt rm n m e
      if x < intMin w signed then (lowBits w (intMin w signed), fNV)
      else if intMax w signed < x then (lowBits w (intMax w signed), fNV)
      else (lowBits w x, if inexact then fNX else 0)

/-- The conditions of FEQ, FLT, FLE and of VCMP's float compares. -/
inductive FCond where
  | eq
  | ne
  | lt
  | le
  | gt
  | ge
  deriving DecidableEq, Repr

/-- The outcome and flags of a float compare: Tables 10.6 and 11.7. -/
def opCompare (c : FCond) (a b : FVal) : Bool × Flags :=
  if a.isNan || b.isNan then
    match c with
    | .eq => (false, snanFlag [a, b])
    | .ne => (true, snanFlag [a, b])
    | .lt => (false, fNV)
    | .le => (false, fNV)
    | .gt => (false, fNV)
    | .ge => (false, fNV)
  else
    let o := fCompare a b
    match c with
    | .eq => (o == .eq, 0)
    | .ne => (o != .eq, 0)
    | .lt => (o == .lt, 0)
    | .le => (o != .gt, 0)
    | .gt => (o == .gt, 0)
    | .ge => (o != .lt, 0)

/-! ### The trust trap: R187 -/

/-- Whether a count fails the threshold of a mode whose trap is on. -/
def trustFails (mode : BitVec 26) (t : Nat) : Bool := modeTtrap mode && decide (t < (modeTmin mode).toNat)

/-- The SIGLOSS of the failing element indices, lowest first; `none` when there is none. -/
def sigloss (fails : List Nat) : Option TrapInfo :=
  match fails with
  | [] => none
  | e :: es => some { TrapInfo.mk0 cSIGLOSS 0 with
      index := BitVec.ofNat 32 e, count := BitVec.ofNat 32 (es.length + 1) }

end Sys2Proof.Machine
end

