-- ==== Sys2Proof/Machine/Operands.lean ====
section
/-! DEFINITION. Every operand form: element types and widths, field-map footprints and the operand faults of 09 R197 to
R201, the b operand of R192, elements of fields, active rows, f-registers as operands (R156). -/
namespace Sys2Proof
open Sys2Proof.Machine

/-! ### Element types: Table 8.1 -/

def EType.isInt : EType → Bool
  | .sint => true
  | .uint => true
  | .f16 => false
  | .f32 => false
  | .f64 => false
  | .bf16 => false
  | .narrow _ => false
  | .pair _ => false
  | .raw => false

def EType.isFloat : EType → Bool
  | .sint => false
  | .uint => false
  | .f16 => true
  | .f32 => true
  | .f64 => true
  | .bf16 => true
  | .narrow _ => true
  | .pair _ => false
  | .raw => false

def EType.isRaw (t : EType) : Bool := t == .raw
def EType.isPair : EType → Bool
  | .sint => false
  | .uint => false
  | .f16 => false
  | .f32 => false
  | .f64 => false
  | .bf16 => false
  | .narrow _ => false
  | .pair _ => true
  | .raw => false
def EType.signed (t : EType) : Bool := t == .sint

/-- The width of half a pair (R172). -/
def EType.half : EType → Nat
  | .pair i => 4 * 2 ^ i.toNat
  | _ => 0

/-- The format of a float type; narrow formats by the captured nf images (R158). -/
def EType.fmt (t : EType) (nf : Vector Dword 8) : Fmt :=
  match t with
  | .f16 => .b16
  | .f32 => .b32
  | .f64 => .b64
  | .bf16 => .bf16
  | .narrow i => .ofNf nf[i.toFin]
  | _ => .b64

/-- The width Table 8.1 gives the type; `none` where the field's own width counts. -/
def EType.width (t : EType) (nf : Vector Dword 8) : Option Nat :=
  match t with
  | .sint => none
  | .uint => none
  | .raw => none
  | .pair i => some (2 * (4 * 2 ^ i.toNat))
  | t => some (t.fmt nf).width

/-- The nf registers that an element type names. -/
def EType.nfs : EType → List (BitVec 3)
  | .narrow i => [i]
  | _ => []

/-- The field entry of a b operand that names one. -/
def BOp.vfield : BOp → List (BitVec 6)
  | .field v => [v]
  | .sreg _ => []
  | .freg _ => []
  | .rep v _ => [v]

/-- The field that a b operand reads in each row the word works on. -/
def BOp.rowField : BOp → List (BitVec 6)
  | .field v => [v]
  | .sreg _ => []
  | .freg _ => []
  | .rep _ _ => []

/-- The segment length of a replicated operand. -/
def BOp.segLen : BOp → Nat
  | .field _ => 0
  | .sreg _ => 0
  | .freg _ => 0
  | .rep _ g => 4 ^ g.toNat

end Sys2Proof

namespace Sys2Proof.Machine
open Sys2Proof

/-! ### What a vector word runs under -/

/-- The copies a vector word runs under and the plies that take part: R135, R143. -/
structure VCtx where
  mode : BitVec 26
  vl : Nat
  nf : Vector Dword 8
  ctl : Taint
  plies : List Nat
  one : Bool
  key : Nat × Dword
  deriving DecidableEq, Repr

def VCtx.ty (c : VCtx) : EType := modeType c.mode
def VCtx.rnd (c : VCtx) : BitVec 3 := modeRnd c.mode
def VCtx.sat (c : VCtx) : Bool := modeSat c.mode
def VCtx.fmt (c : VCtx) : Fmt := c.ty.fmt c.nf

/-- The owned ply, by its offset, that holds a logical row (R29). -/
def plyOf (n e : Nat) : Nat := (e % n) ^^^ (e / n % n)

/-- A tag bit of a logical row of the thread in focus. -/
def State.tagBit (s : State) (e : Nat) (k : BitVec 4) : Bool := (s.tagsAt (s.th.rowKey e)).getLsbD k.toNat

/-- A tag bit written; k0 is left (R23). -/
def State.setTag (s : State) (e : Nat) (k : BitVec 4) (b : Bool) : State :=
  if k = 0 then s
  else
    let key := s.th.rowKey e
    let t := look 0 s.tags key
    let m : BitVec 16 := 1 <<< k.toNat
    { s with tags := put 0 s.tags key (if b then t ||| m else t &&& ~~~ m) }

/-- Whether the guard holds for a row (Table 7.3). -/
def State.guardHolds (s : State) (mode : BitVec 26) (e : Nat) : Bool :=
  if modeGuard mode = 0 then true else s.tagBit e (modeGuard mode) != modeSense mode

/-- The rows below VL of the plies that take part, in ascending order. -/
def State.counted (s : State) (c : VCtx) : List Nat :=
  (List.range c.vl).filter fun e => c.plies.contains (plyOf s.th.n e)

/-- active(e): the rows an instruction works on, in ascending order. -/
def State.active (s : State) (c : VCtx) : List Nat := (s.counted c).filter fun e => s.guardHolds c.mode e

/-! ### Operand faults: Table 9.7 -/

/-- The widths a field operand may have. -/
inductive WidthReq where
  | any
  | exact (w : Nat)
  | range (lo hi : Nat)
  deriving DecidableEq, Repr

def WidthReq.ok (q : WidthReq) (w : Nat) : Bool :=
  match q with
  | .any => true
  | .exact x => w == x
  | .range lo hi => decide (lo ≤ w) && decide (w ≤ hi)

/-- What an operand field is to the instruction. `fixed` is a source that no destination may meet, even as an exact alias
(R200, fault-capable forms). -/
inductive Role where
  | dst
  | src
  | fixed
  | work
  deriving DecidableEq, Repr

/-- A field operand: its position code (Table 16.2, OPND), entry, width rule and role. -/
structure Opnd where
  pos : Nat
  v : BitVec 6
  width : WidthReq
  role : Role
  deriving DecidableEq, Repr

/-- The columns of a footprint: first and one past the last (R27). -/
def FieldEnt.cols (f : FieldEnt) : Nat × Nat :=
  (f.base.toNat, f.base.toNat + f.width.toNat + (if f.trust then 6 else 0))

/-- Whether two footprints share a column. -/
def FieldEnt.meets (f g : FieldEnt) : Bool := decide (f.cols.1 < g.cols.2) && decide (g.cols.1 < f.cols.2)

/-- An operand fault: code, operand position, number (R199). -/
def opFault (code : BitVec 8) (pos num : Nat) : TrapInfo :=
  { TrapInfo.mk0 code (BitVec.ofNat 64 num) with opnd := BitVec.ofNat 4 pos }

/-- Entry of an operand; an unmapped one has been refused before this is used. -/
def Thread.ent (t : Thread) (v : BitVec 6) : FieldEnt := (t.fent v).getD ⟨0, 0, false⟩

/-- Whether two operands overlap as R200 and R237 forbid; the fault belongs to `x`. -/
def Thread.overlaps (t : Thread) (x y : Opnd) : Bool :=
  (t.ent x.v).meets (t.ent y.v) &&
    match x.role, y.role with
    | .dst, .dst => true
    | .dst, .src => t.ent x.v != t.ent y.v
    | .dst, .fixed => true
    | .work, _ => true
    | _, _ => false

/-- The first operand fault of Table 9.7's orders 1 to 5. `fmts` lists the nf registers whose images must be valid. Of two
overlapping destinations, and of v63 and another operand, FOVL names the later (log 81). -/
def Thread.operandFault (t : Thread) (nf : Vector Dword 8) (fmts : List (BitVec 3)) (ops : List Opnd) : Option TrapInfo :=
  let num (o : Opnd) := o.v.toNat
  ((fmts.find? fun i => !nfValid nf[i.toFin]).map fun i => opFault cFMTBAD 15 i.toNat)
  <|> ((ops.find? fun o => (t.fent o.v).isNone).map fun o => opFault cFUNMAP o.pos (num o))
  <|> ((ops.find? fun o => t.checked && decide (832 < (t.ent o.v).cols.2)).map fun o => opFault cCHKCOL o.pos (num o))
  <|> ((ops.find? fun o => !o.width.ok (t.ent o.v).width.toNat).map fun o => opFault cFWIDTH o.pos (num o))
  <|> ((ops.zipIdx.find? fun (o, i) =>
        ops.zipIdx.any fun (q, k) => (match o.role, q.role with
          | .dst, .dst => decide (k < i)
          | .work, _ => decide (k ≠ i)
          | _, _ => true) && t.overlaps o q).map fun (o, _) => opFault cFOVL o.pos (num o))

/-- ACCOWN: R157. -/
def Thread.accFault (t : Thread) (n : BitVec 2) : Option TrapInfo :=
  if n.toNat < t.tiles.toNat then none else some (opFault cACCOWN 4 n.toNat)

/-! ### Elements -/

/-- An element: its bits and its trust count. -/
structure Elt where
  bits : Nat
  t : Nat
  deriving DecidableEq, Repr

/-- The raw value of a field in a row. -/
def fieldBits (r : Row) (f : FieldEnt) : Nat := (r.toNat >>> f.base.toNat) % 2 ^ f.width.toNat

/-- The element of a row for a precision P (R184): the stored count, or P without a subfield. -/
def readElt (r : Row) (f : FieldEnt) (p : Nat) : Elt :=
  ⟨fieldBits r f, if f.trust then Nat.min ((r.toNat >>> (f.base.toNat + f.width.toNat)) % 64) p else p⟩

/-- Element e of a field. -/
def State.elt (s : State) (v : BitVec 6) (p e : Nat) : Elt := readElt (s.seen e) (s.th.ent v) p

/-- A write of an element's bits. -/
def State.putBits (s : State) (v : BitVec 6) (e x : Nat) : State :=
  let f := s.th.ent v
  s.setBits e f.base.toNat f.width.toNat x

/-- A write of an element and, where the field keeps trust, its count (R184, R235). -/
def State.putElt (s : State) (v : BitVec 6) (e : Nat) (x : Elt) : State :=
  let f := s.th.ent v
  let s := s.setBits e f.base.toNat f.width.toNat x.bits
  if f.trust then s.setBits e (f.base.toNat + f.width.toNat) 6 x.t else s

/-! ### Float registers as operands: R156 -/

/-- The operand an f-register gives a binary64 (w = false) or binary32 operation, with the flags of its rounding. -/
def FReg.opd (r : FReg) (wide : Bool) (rm : BitVec 3) : FOpd × Flags :=
  let lo := r.bits.toNat % 2 ^ 32
  match r.ft, wide with
  | true, true =>
    let v := Fmt.b32.read lo
    let bits := match v with
      | .nan _ => (Fmt.b64.writeNan 0).bits
      | .inf n => (Fmt.b64.writeInf n 0).bits
      | .fin n m e => (Fmt.b64.finish 0 (.num n m e false 0)).bits
    (⟨bits, v, r.trust.toNat, 24⟩, 0)
  | true, false => (⟨lo, Fmt.b32.read lo, r.trust.toNat, 24⟩, 0)
  | false, true => (⟨r.bits.toNat, Fmt.b64.read r.bits.toNat, r.trust.toNat, 53⟩, 0)
  | false, false =>
    let x := Fmt.b32.finish rm (Exact.ofVal (Fmt.b64.read r.bits.toNat))
    (⟨x.bits, x.val, Nat.min r.trust.toNat 24, 24⟩, x.flags)

/-- The f-register a float result of the operation's width makes (R156). -/
def FReg.ofOut (o : FOut) (wide : Bool) : FReg := ⟨BitVec.ofNat 64 o.bits, BitVec.ofNat 6 o.t, !wide⟩

/-! ### The b operand: R192 -/

/-- The b operand as it stands when the instruction begins. -/
inductive BVal where
  | perRow (v : BitVec 6)
  | const (x : Nat) (t : Nat)
  | seg (xs : List Elt)
  deriving DecidableEq, Repr

/-- The segment of a replicated operand: L elements (R192). A ply that reaches the word after a sibling reads the segment
as the sibling read it. -/
def State.segment (s : State) (v : BitVec 6) (p : Nat) (L : Nat) : List Elt := (List.range L).map fun e => s.elt v p e

/-- The b operand prepared, with the flags of a broadcast f-register's conversion. For integer types a broadcast is the
64-bit value (R170). -/
def State.bval (s : State) (c : VCtx) (b : BOp) (segs : List Elt) : BVal × Flags :=
  let p := c.fmt.prec
  match b with
  | .field v => (.perRow v, 0)
  | .sreg r => (.const (s.th.sr r).toNat p, 0)
  | .freg r =>
    let x := s.th.fr r
    let (o, _) := x.opd (!x.ft) c.rnd
    let q := opConv c.fmt c.rnd o
    (.const q.bits q.t, q.flags)
  | .rep _ _ => (.seg segs, 0)

/-- The element the b operand gives row e: bits, trust, and the width the bits have. -/
def State.bElt (s : State) (c : VCtx) (b : BVal) (vb : BitVec 6) (e : Nat) : Elt × Nat :=
  match b with
  | .perRow v => (s.elt v c.fmt.prec e, (s.th.ent v).width.toNat)
  | .const x t => (⟨x, t⟩, 64)
  | .seg xs => (xs.getD (e % Nat.max 1 xs.length) ⟨0, 0⟩, (s.th.ent vb).width.toNat)

end Sys2Proof.Machine
end

