-- ==== Sys2Proof/Machine/Perform.lean ====
section
/-! DEFINITION. Stores and updates performed: the background drain, home slices, the coordinators of replicated pages, and
the release that waits for all of them (02 R62, R71, R81, 04 R86, R91, 16 R345). -/
namespace Sys2Proof.Machine
open Sys2Proof

/-! ### Scatter-add: Table 3.6 -/

/-- One addition of a scatter-add on memory elements of the type, with its flags. -/
def AddOp.apply (op : AddOp) (x y : Nat) : Nat × Flags :=
  let w := 8 * op.bytes.toNat
  if op.ty.isFloat then
    let f := op.ty.fmt (.replicate 8 0)
    let rm := if op.round = 5 then 0 else op.round
    let r := f.finish rm (fAdd rm (f.read x) (f.read y))
    (r.bits, r.flags)
  else fit w op.ty.signed op.sat (intOf w op.ty.signed x + intOf w op.ty.signed y)

/-- The line of a request. -/
def SliceReq.line (r : SliceReq) : Nat := ((r.parts.head?.map (·.1)).getD 0) / 128

/-- One element of a request added at its home slice, or at the coordinator of a replicated line after the writes that it has taken
before (R71, R81); the flags of the addition. -/
def State.addElement (s : State) (op : AddOp) (repl : BitVec 2) (pa : Nat) (v : Dword) : State × Flags :=
  let n := op.bytes.toNat
  let s := if repl = 0 then s else s.repFlush pa n
  let (x, fl) := op.apply (leVal (s.homeBytes pa n)) v.toNat
  (s.homeWrite pa repl (leBytes n x), fl)

/-- The virtual address at which the host fails the read that an update needs of its line (R17). -/
def State.addFails (s : State) (r : SliceReq) : Option Dword :=
  (r.parts.find? fun (pa, _) => s.readFails pa r.op.bytes.toNat).map fun (pa, _) =>
    (r.via.map fun k => k.va pa).getD (BitVec.ofNat 64 pa)

/-- A request performed at its home slice, in one step of its line (R80, R81): the issuing core's copy of the line is written back and
dropped first (Table 3.1), and saturation is reported to the thread. Of the float flags the model raises those of the merge in the
network, with the instruction, and none of the slice's addition (log 75). Where the host fails the read of the line nothing is added, and
the thread is told (R17, log 76). -/
def State.applySlice (s : State) (r : SliceReq) : State :=
  let s := s.l1Drop r.tid.core (replicaFor r.tid.core (128 * r.line) r.repl)
  match s.addFails r with
  | some va => match s.threadAt r.tid with
    | none => s
    | some t => s.async t.tid t.ctx (TrapInfo.mk0 cPHYSHOLE va)
  | none =>
    let (s, fl) := r.parts.foldl (fun (acc : State × Flags) (x : Nat × Dword) =>
      let (s, fl) := acc.1.addElement r.op r.repl x.1 x.2
      (s, acc.2 ||| fl)) (s, 0)
    if fl &&& fSAT = 0 then s
    else s.mapThreads fun t => if t.live && t.tid = r.tid then t.raiseFlags fSAT else t

/-- Whether request k can arrive at its slice now: none of the same thread to the same line is ahead of it. -/
def State.sliceReady (s : State) (k : Nat) : Bool :=
  match s.sliceQ[k]? with
  | none => false
  | some r => !((s.sliceQ.take k).any fun x => x.tid = r.tid && decide (x.line = r.line))

/-- Request k arrives and is applied. -/
def State.sliceOperation (s : State) (k : Nat) : State :=
  match s.sliceQ[k]? with
  | none => s
  | some r => if s.sliceReady k then State.applySlice { s with sliceQ := s.sliceQ.eraseIdx k } r else s

/-- A thread's updates that satisfy a condition performed at their slices, in order. -/
def State.sliceSome (s : State) (t : Tid) (p : SliceReq → Bool) : State :=
  let mine (r : SliceReq) : Bool := r.tid = t && p r
  (s.sliceQ.filter mine).foldl State.applySlice { s with sliceQ := s.sliceQ.filter fun r => !mine r }

/-! ### Replicated lines: R71 -/

/-- Whether write k is the first at its line. -/
def State.repReady (s : State) (k : Nat) : Bool :=
  match s.repQ[k]? with
  | none => false
  | some r => !((s.repQ.take k).any fun x => decide (x.pa / 128 = r.pa / 128))

/-- The coordinator locks the line of write k in every replica. -/
def State.repLock (s : State) (k : Nat) : State :=
  if s.repReady k then { s with repQ := s.repQ.modify k fun r => { r with locked := true } } else s

/-- With every lock acknowledged the new bytes go to every replica. -/
def State.repUpdate (s : State) (k : Nat) : State :=
  match s.repQ[k]? with
  | none => s
  | some r =>
    if s.repReady k && r.locked then { s.replicaWrite r.pa r.repl r.bytes with repQ := s.repQ.eraseIdx k } else s

/-! ### The drain: R345 -/

/-- Whether a store of a slot may be performed in a row: a thread of its context owns the ply (R14). A ply that another context has been
granted since, or nobody owns, is not written: nothing is performed (log 76). -/
def State.rowOpen (s : State) (t : Tid) (core : BitVec 12) (p : Nat) : Bool :=
  match s.threadAt t, s.ownerOf core p with
  | some x, some y => x.ctx == y.ctx
  | _, _ => false

/-- A committed store or update of a thread performed at its place. Its updates to the line of a write have arrived there before it
(R81, R101). -/
def State.performOne (s : State) (t : Tid) (b : Buffered) : State :=
  match b.op, b.place with
  | .write bs, .mem pa cached repl =>
    let s := s.sliceSome t fun r => decide (memLine pa ≤ r.line) && decide (r.line ≤ memLine (pa + bs.length - 1))
    if cached then s.l1Write t.core t.slot pa repl bs
    else if repl = 0 then s.homeWrite pa 0 bs
    else { s with repQ := s.repQ ++ [⟨some t, b.via, pa, repl, bs, false⟩] }
  | .write bs, .dev pa =>
    if isMmio pa then s.mmioWrite pa (bs.length == 8) (BitVec.ofNat 64 (leVal bs))
    else State.notifyMem { s with mem := memWrite s.mem pa bs } pa bs.length
  | .write bs, .row core p byte =>
    if s.rowOpen t core p.toNat then (s.rowWrite core p.toNat byte.toNat bs).wakePly core p.toNat else s
  | .write _, .arr _ => s
  | .add op parts, .mem _ _ repl =>
    { s with sliceQ := s.sliceQ ++ [⟨t, repl, b.via, op, parts⟩] }
  | .add _ _, .dev _ => s
  | .add _ _, .row _ _ _ => s
  | .add _ _, .arr _ => s

/-- The committed stores of a thread, with their numbers in the drain. -/
def State.drainOf (s : State) (t : Tid) : List (Nat × Buffered) :=
  s.drain.zipIdx.filterMap fun ((x, b), i) => if x = t then some (i, b) else none

/-- Whether a store is device class. -/
def Buffered.device (b : Buffered) : Bool := match b.place with
  | .dev _ => true
  | .mem _ _ _ => false
  | .row _ _ _ => false
  | .arr _ => false

/-- The store of a thread that the drain performs next: its oldest, or the oldest of the other stream where no store before that one
has been seen by it and it has not been seen (R102, R345). Device-class stores go in program order (R18, R63). -/
def State.drainNext (s : State) (t : Tid) : Option (Nat × Buffered) :=
  match s.drainOf t with
  | [] => none
  | (i, b) :: l =>
    let other := l.dropWhile fun (_, x) => x.vec == b.vec && !x.seen
    match other with
    | [] => some (i, b)
    | (j, x) :: _ =>
      let kept := x.device && ((i, b) :: l).any fun (k, y) => decide (k < j) && y.device
      some (if !b.seen && x.vec != b.vec && !x.seen && !kept && Config.coin s.tick 0 then (j, x) else (i, b))

/-- The next committed store of a thread performed. -/
def State.drainOne (s : State) (t : Tid) : State :=
  match s.drainNext t with
  | none => s
  | some (i, b) => State.performOne { s with drain := s.drain.eraseIdx i } t b

/-- Every committed store of a thread performed, in order. -/
def State.drainAll (s : State) (t : Tid) : State :=
  let mine := s.drain.filter fun (x, _) => x = t
  mine.foldl (fun s (_, b) => s.performOne t b) { s with drain := s.drain.filter fun (x, _) => x ≠ t }

/-- Writes to replicated lines performed, in the coordinators' order, as far as the last one of a thread. -/
def State.repAll (s : State) (t : Tid) : State :=
  let k := s.repQ.zipIdx.foldl (fun n (r, i) => if r.tid = some t then i + 1 else n) 0
  (s.repQ.take k).foldl (fun s r => s.replicaWrite r.pa r.repl r.bytes) { s with repQ := s.repQ.drop k }

/-- A thread's updates performed at their slices, in order. -/
def State.sliceAll (s : State) (t : Tid) : State := s.sliceSome t fun _ => true

/-- Everything that a thread has committed performed at its place. -/
def State.performAll (s : State) (t : Tid) : State := ((s.drainAll t).repAll t).sliceAll t

/-- The open strip committed and everything performed, in program order: what a release waits for (R91). -/
def State.settle (s : State) : State := let s := s.commit; s.performAll s.th.tid

/-! ### Bindings: R88, R91, R92 -/

/-- The binding of an object in the table of the thread's context. -/
def State.bindingOf (s : State) (obj : Dword) : Option Binding :=
  ((s.ctxAt s.th.ctx).bindings.find? fun (_, b) => b.object = obj).map (·.2)

/-- The scope of an object: package when it is not bound. -/
def scopeOf (b : Option Binding) : BitVec 3 := (b.map (·.scope)).getD 3

/-- The lines at replica 0 that a range of a binding covers: each of its lines translated for the thread. -/
def State.boundLine (s : State) (b : Option Binding) (home : Nat) : Bool :=
  match b with
  | none => true
  | some b => b.ranges.any fun (base, len) =>
    (cuts 65536 base.toNat len.toNat).any fun (a, n) =>
      match s.leafFor s.th.tid.core s.th.ctx 0 (BitVec.ofNat 64 a) with
      | .error _ => false
      | .ok (leaf, _, big) =>
        if pteIL leaf then
          (cuts 128 a n).any fun (l, _) => leafAddr leaf big l / 128 == home / 128
        else decide (leafAddr leaf big a / 128 ≤ home / 128) && decide (home / 128 < (leafAddr leaf big a + n + 127) / 128)

/-- The release part of STREL and of the AMOs: commit, perform, and for scopes wider than core the L1 walk that writes
back the bound lines (Table 3.1, R91). -/
def State.release (s : State) (b : Option Binding) : State :=
  let s := s.settle
  if scopeOf b = 0 then s
  else s.l1Walk s.th.tid.core (fun _ w => s.boundLine b w.home) false

/-- The walk that retires an acquire: lines in the bound ranges are written back and invalidated (R92). -/
def State.acquireWalk (s : State) (b : Option Binding) : State :=
  if scopeOf b = 0 then s else s.l1Walk s.th.tid.core (fun _ w => s.boundLine b w.home) true

/-! ### Reads of the vector stream: R82 -/

/-- Whether the elements of an update at some addresses meet a piece of memory. -/
def Piece.meets (p : Piece) (op : AddOp) (parts : List (Nat × Dword)) : Bool :=
  match p.place with
  | .mem pa _ _ => parts.any fun (a, _) => decide (a < pa + p.len) && decide (pa < a + op.bytes.toNat)
  | .dev _ => false
  | .row _ _ _ => false
  | .arr _ => false

/-- Whether one of some buffered updates meets a piece. -/
def Piece.updated (p : Piece) (l : List Buffered) : Bool := l.any fun b => match b.op with
  | .write _ => false
  | .add op parts => p.meets op parts

/-- Whether the open strip holds an update to a byte of a piece (R82). -/
def State.addHeld (s : State) (p : Piece) : Bool := p.updated s.th.strip.buf

/-- Whether an update of the thread to a byte of a piece has left the strip and is not performed. -/
def State.addOut (s : State) (p : Piece) : Bool :=
  p.updated ((s.drain.filter fun (t, _) => t = s.th.tid).map (·.2))
    || s.sliceQ.any fun r => r.tid = s.th.tid && p.meets r.op r.parts

/-- Before a read of the vector stream: an update it touches in the open strip is committed, and one on its way waited for (R82, R342); a
device-class read commits the strip and follows every earlier device-class store (R63). -/
def State.beforeRead (s : State) (vec : Bool) (ps : List Piece) : State :=
  if anyDevice ps || (vec && ps.any s.addHeld) then s.settle
  else if vec && ps.any s.addOut then s.performAll s.th.tid
  else s

end Sys2Proof.Machine
end

