-- ==== Sys2Proof/Machine/Vec.lean ====
section
/-! DEFINITION. How a ply executes a word of a block (06 R134 to R143): dispatch, the next word, the meeting of plies at
row-crossing words and splices, and the shape every element-wise instruction shares (11 R235 to R238). -/
namespace Sys2Proof.Machine
open Sys2Proof

/-! ### Dispatch -/

/-- A block appended to the queue of every owned ply, with the copies it captures (R134, R137). -/
def Thread.dispatch (t : Thread) (words : List IWord) (addr : Dword) (one : Bool) : Thread :=
  let b : Block :=
    { seq := t.nextSeq, words := words, addr := addr, one := one, mode := t.mode, vl := t.vl, ctl := t.taints.ctl,
      nf := t.nf }
  { t with
    nextSeq := t.nextSeq + 1,
    plies := Vector.ofFn fun (j : Fin 16) =>
      if j.val < t.n then { t.plies[j] with queue := t.plies[j].queue ++ [b] } else t.plies[j] }

/-- The running block of a ply. -/
def Thread.running (t : Thread) (j : BitVec 4) : Option Running := t.plies[j.toFin].run

/-- A ply that ends its block: its control taint is brought to PEND and dropped (R142, R97), and siblings that wait in the
block look again whether they all have arrived (R141, R143). -/
def Thread.endBlock (t : Thread) (j : Nat) (r : Running) : Thread :=
  let t := t.setPly j { t.plyAt j with run := none }
  { t with
    taints := { t.taints with ended := t.taints.ended ||| r.ctl },
    segs := t.segs.filter fun p => !(p.reader == j && p.block == r.origin),
    plies := t.plies.map fun p => { p with run := p.run.map fun x =>
      if x.origin = r.origin then { x with wait := .running } else x } }

/-- A ply goes to the next word; a block of one word ends with its implied PEND (R137). -/
def Thread.nextWord (t : Thread) (j : Nat) : Thread :=
  match (t.plyAt j).run with
  | none => t
  | some r =>
    if r.blk.one then t.endBlock j r
    else t.setPly j { t.plyAt j with run := some { r with pc := r.pc + 4, wait := .running } }

/-- What a ply's word runs under. -/
def Running.vctx (r : Running) (plies : List Nat) (ctl : Taint) : VCtx :=
  { mode := r.mode, vl := r.vl.toNat, nf := r.blk.nf, ctl := ctl, plies := plies, one := r.blk.one,
    key := (r.origin, r.pc) }

/-! ### Retirement: R355 -/

/-- What the debug ring records of a word: element width, and for a word that accesses memory its first and last element
address. -/
structure Trace where
  width : Nat
  mem : Option (Dword × Dword)
  deriving DecidableEq, Repr

/-- A vector word done: the state it leaves, a trap taken after completion, its trace; `held` where it has been stopped at one of its
restart points and its plies stay at it (R238, R340). -/
structure VOut where
  st : State
  trap : Option TrapInfo
  trace : Trace
  held : Bool := false
  deriving DecidableEq, Repr

/-- An entry written to the thread's debug ring (R355). -/
def Debug.push (d : Debug) (e : DbgEntry) : Debug :=
  if d.en then
    { d with
      ring := put ⟨0, 0, 0⟩ d.ring d.head.toNat e, head := d.head + 1, wrap := d.wrap || d.head == 0xFF }
  else d

/-- Whether a word that plies retire now shares the newest entry: other plies have retired the same word under the same VL in the same
cycle (R355). -/
def Debug.shares (d : Debug) (key : Nat × Dword) (plies : List Nat) (now : Dword) (e : DbgEntry) : Bool :=
  match d.last with
  | none => false
  | some (q, pc, js, at_) => q == key.1 && pc == key.2 && at_ == now && !(plies.any js.contains)
    && (look ⟨0, 0, 0⟩ d.ring (d.head - 1).toNat).e0 >>> 13 == e.e0 >>> 13

/-- A word that plies retire, recorded in an entry of its own or in the one it shares, whose guard count grows (R355). -/
def Debug.record (d : Debug) (key : Nat × Dword) (plies : List Nat) (now : Dword) (e : DbgEntry) : Debug :=
  if !d.en then d
  else if d.shares key plies now e then
    let x := look ⟨0, 0, 0⟩ d.ring (d.head - 1).toNat
    { d with
      ring := put ⟨0, 0, 0⟩ d.ring (d.head - 1).toNat { x with e0 := x.e0 + (e.e0 &&& 0x1FFF) },
      last := d.last.map fun (q, pc, js, at_) => (q, pc, js ++ plies, at_) }
  else { d.push e with last := some (key.1, key.2, plies, now) }

/-- The ring entry of a word that retires. -/
def dbgEntry (w : IWord) (c : VCtx) (gpop : Nat) (x : Trace) : DbgEntry :=
  let addr (a : Dword) : Dword := packFields [(1, 1, 63), (a.toNat, 56, 0)]
  { e0 := packFields [(w.toNat, 32, 32), (x.width - 1, 6, 26), (c.vl, 13, 13), (gpop, 13, 0)],
    e1 := (x.mem.map fun (a, _) => addr a).getD 0, e2 := (x.mem.map fun (_, b) => addr b).getD 0 }

/-- A ply that stays at its word, stopped at a restart point. -/
def Thread.hold (t : Thread) (j : Nat) : Thread :=
  t.setPly j { t.plyAt j with run := (t.plyAt j).run.map fun r => { r with wait := .held } }

/-- A word retired: recorded, and the plies that took part at their next word; a trap after completion stops the lowest of
them there (R144). -/
def VOut.retire (o : VOut) (w : IWord) (c : VCtx) (gpop : Nat) : State :=
  if o.held then o.st.upd fun t => c.plies.foldl (fun t j => t.hold j) t
  else
  let t := o.st.th
  let t := { t with dbg := t.dbg.record c.key c.plies o.st.cycles (dbgEntry w c gpop o.trace) }
  let t := c.plies.foldl (fun t j => t.nextWord j) t
  let t := match o.trap with
    | none => t
    | some i => t.stopPly (BitVec.ofNat 4 (c.plies.headD 0)) i o.st.cycles
  { o.st with th := t }

/-! ### A word on one ply, and on all -/

/-- The meaning of a vector word: what it does to the state, or the fault that stops it. -/
abbrev VFun := VCtx → State → Except TrapInfo VOut

/-- A word that each ply executes on its own rows. In the control stream it is dispatched as a block of one word (R137). -/
def vecWord (w : IWord) (s : State) (f : VFun) : Out :=
  if !s.th.live then .fault .noThread
  else match s.who with
    | .control => .next (s.upd fun t => (t.dispatch [w] t.pc true).advance)
    | .ply j =>
      match s.th.running j with
      | none => .fault .noThread
      | some r =>
        let c := r.vctx [j.toNat] r.ctl
        let gpop := (s.active c).length
        match f c s with
        | .error i => .next (s.fault i)
        | .ok o => .next (o.retire w c gpop)

/-- Where a sibling stands towards a dispatched block: it has ended it, waits in it, or has still to arrive (R143). -/
inductive Stand where
  | ended
  | waits (r : Running)
  | coming
  deriving DecidableEq, Repr

def Ply.stand (p : Ply) (origin : Nat) : Stand :=
  if p.queue.any (·.seq = origin) then .coming
  else match p.run with
    | none => .ended
    | some r =>
      if r.origin ≠ origin then .ended
      else if p.stopped.isSome then .coming
      else match r.wait with
        | .running => .coming
        | .held => .coming
        | .splice => .waits r
        | .crossing => .waits r

/-- The plies that wait in a block, when every ply of the thread waits in it or has ended it. -/
def Thread.arrived (t : Thread) (origin : Nat) : Option (List (Nat × Running)) :=
  t.owned.foldr (fun (j, p) acc => match acc, p.stand origin with
    | none, _ => none
    | some l, .ended => some l
    | some l, .waits r => some ((j, r) :: l)
    | some _, .coming => none) (some [])

/-- A ply marked as waiting (R141, R143). -/
def Thread.await (t : Thread) (j : Nat) (r : Running) (k : PlyWait) : Thread :=
  t.setPly j { t.plyAt j with run := some { r with wait := k } }

/-- PLYDIV: nothing executes and every PC stays (R143). -/
def State.plyDiv (s : State) (ws : List (Nat × Running)) : State :=
  s.upd fun t => t.stopPly (BitVec.ofNat 4 ((ws.map (·.1)).headD 0)) (TrapInfo.mk0 cPLYDIV 0) s.cycles

/-- The end of a word that all plies execute together: a fault with nothing changed, the word done, a fault after part of
it was performed, with the plies left on the word (R144, R269), or a wait of all plies at the word. -/
inductive VEnd where
  | fault (i : TrapInfo)
  | done (o : VOut)
  | stay (s : State) (i : TrapInfo)
  | wait (s : State)
  deriving DecidableEq, Repr

/-- Plies that meet at a word of a block: what was posted between them before is used up, and those that are drowsy wake (R192, R353). -/
def Thread.meeting (t : Thread) (origin : Nat) (plies : List Nat) : Thread :=
  { plies.foldl (fun t j => t.setPly j { t.plyAt j with drowsy := false }) t with segs := t.segs.filter fun p => p.block != origin }

/-- A fault of the plies that take part: the lowest of them stops (R144). -/
def State.stopLowest (s : State) (c : VCtx) (i : TrapInfo) : State :=
  s.upd fun t => t.stopPly (BitVec.ofNat 4 (c.plies.headD 0)) i s.cycles

/-- A word that all plies of the thread execute together (R143). -/
def meetWord (w : IWord) (s : State) (f : VCtx → State → VEnd) : Out :=
  if !s.th.live then .fault .noThread
  else match s.who with
    | .control => .next (s.upd fun t => (t.dispatch [w] t.pc true).advance)
    | .ply j =>
      match s.th.running j with
      | none => .fault .noThread
      | some r =>
        let s := s.upd fun t => t.await j.toNat r .crossing
        match s.th.arrived r.origin with
        | none => .next s
        | some ws =>
          if ws.all (fun (_, x) => x.wait = .crossing && x.pc = r.pc && x.mode = r.mode) then
            let c := r.vctx (ws.map (·.1)) (ws.foldl (fun a (_, x) => a ||| x.ctl) 0)
            let s := s.upd fun t => t.meeting r.origin c.plies
            let gpop := (s.active c).length
            match f c s with
            | .fault i => .next (s.stopLowest c i)
            | .done o => .next (o.retire w c gpop)
            | .stay s i => .next (s.stopLowest c i)
            | .wait s => .next s
          else .next (s.plyDiv ws)

/-- A row-crossing word that is performed whole or not at all. -/
def crossWord (w : IWord) (s : State) (f : VFun) : Out :=
  meetWord w s fun c s => match f c s with
    | .error i => .fault i
    | .ok o => .done o

/-- A word of a ply that takes a taint identifier (R95): it goes on only with one free. -/
def takesId (s : State) (f : BitVec 4 → Out) : Out :=
  match s.who with
  | .control => f 0
  | .ply _ => match s.th.freeId with
    | none => .next s
    | some i => f i

/-! ### Element-wise instructions: R235 -/

/-- An element computed: bits, count (`none` for a result that carries none), flags. -/
structure EOut where
  bits : Nat
  t : Option Nat
  flags : Flags
  deriving DecidableEq, Repr

/-- What Table 4.3 calls the inputs, for the operands given, with the guard tag and the control taints. -/
def State.inTaint (s : State) (c : VCtx) (vs : List (BitVec 6)) (ks : List (BitVec 4)) (b : List BOp) : Taint :=
  let t := s.th
  let x := vs.foldl (fun a v => a ||| t.vTaint v) (c.ctl ||| t.kTaint (modeGuard c.mode))
  let x := ks.foldl (fun a k => a ||| t.kTaint k) x
  b.foldl (fun a b => a ||| match b with
    | .field v => t.vTaint v
    | .sreg r => t.sTaint r
    | .freg r => t.fTaint r
    | .rep v _ => t.vTaint v) x

/-- Free bits for a row (R237): what the work field holds afterwards. -/
def State.freeField (s : State) (v : BitVec 6) (es : List Nat) : State :=
  es.foldl (fun s e => s.putBits v e ((Config.freeBits s.tick e).toNat >>> (s.th.ent v).base.toNat)) s

/-- The work field of R237. -/
def workField : BitVec 6 := 63

/-- The logical row in the next slot of the same ply (R262). -/
def nextSlot (n e : Nat) : Nat :=
  let j := plyOf n e
  logRow n j ((e / n + 1) % 256)

/-- What a check run leaves: the check columns of the rows it used hold any values (R33, R262), the work field too when the
instruction uses it; one check is outstanding (R348). `run` tells a check run from the sum, parity and repeat checks. -/
def State.checkedOn (s : State) (es : List Nat) (run work : Bool) : State :=
  if !s.th.checked then s
  else
    let s := s.upd fun t => { t with strip := { t.strip with checks := t.strip.checks + 1 } }
    if !run then s
    else
      let es := es.map (nextSlot s.th.n)
      let s := es.foldl (fun s e =>
        s.setBits e 832 192 ((Config.freeBits s.tick (4096 + e)).toNat >>> 832)) s
      if work then s.freeField workField es else s

/-- The check of a word that works on its active rows. -/
def State.checked (s : State) (c : VCtx) (run work : Bool) : State := s.checkedOn (s.active c) run work

/-- The column groups a field's footprint meets. -/
def FieldEnt.groups (f : FieldEnt) : BitVec 16 :=
  (List.range 16).foldl (fun m i => if f.cols.1 < 64 * (i + 1) && 64 * i < f.cols.2 then m ||| (1#16 <<< i) else m) 0

/-- The column groups of some fields. -/
def Thread.fieldGroups (t : Thread) (vs : List (BitVec 6)) : BitVec 16 :=
  vs.foldl (fun m v => match t.fent v with
    | none => m
    | some f => m ||| f.groups) 0

/-- Rows read pin them (R346). -/
def State.pinRows (s : State) (es : List Nat) : State := s.upd fun t => t.pin es

/-- Fields read in rows: the rows are pinned, and a parity mismatch in a group that a field meets is an error of the strip (R24, R346,
R347). -/
def State.readRows (s : State) (vs : List (BitVec 6)) (es : List Nat) : State :=
  let s := s.pinRows es
  if s.badCols.isEmpty then s
  else match es.find? fun e => look 0 s.badCols (s.th.rowKey e) &&& s.th.fieldGroups vs != 0 with
    | none => s
    | some e => s.upd fun t => t.strike 2 (BitVec.ofNat 64 (physRow t.base t.n e))

/-- An element-wise instruction: the types it accepts, its operand fields, the fields and b operand it reads, whether it
uses the work field, whether it works on every row below VL whatever the guard (VSEL), whether its counts are checked
(R187), whether checked mode verifies it by a check run (R262), whether it has restart points (R238), whether the conversion of its
b operand sets no flag (R250), and the element it computes. -/
structure Ew where
  accept : EType → Bool
  ops : VCtx → List Opnd
  nfs : VCtx → List (BitVec 3)
  dst : BitVec 6
  reads : List (BitVec 6)
  b : Option BOp
  work : Bool
  all : Bool
  check : Bool
  run : VCtx → Bool
  long : Bool
  quiet : Bool := false
  elt : VCtx → State → BVal → Nat → EOut

/-- The rows that an owning ply has posted for a sibling at a word, the oldest first. -/
def Thread.posted (t : Thread) (j o : Nat) (key : Nat × Dword) : Option SegPost :=
  t.segs.find? fun p => p.reader == j && p.owner == o && p.block == key.1 && p.pc == key.2 && !p.taken

/-- Whether a ply stands at a word of a block. -/
def Thread.standsAt (t : Thread) (o : Nat) (key : Nat × Dword) : Bool :=
  (t.plyAt o).run.any fun r => r.origin == key.1 && r.pc == key.2

/-- The plies that own rows of a segment of length L. -/
def Thread.segOwners (t : Thread) (L : Nat) : List Nat := ((List.range L).map (plyOf t.n)).eraseDups

/-- The element of a row that an owner posted. -/
def SegPost.elt (p : SegPost) (e : Nat) : Option Elt := (p.elts.find? fun x => x.1 = e).map fun (_, x, t) => ⟨x, t⟩

/-- What is posted between plies after one of them reads a segment: it uses up what owners had posted for it, marks what it reads of
owners that stand at the word, and posts its own rows for siblings that have not read them (R192). -/
def Thread.postSeg (t : Thread) (plies : List Nat) (key : Nat × Dword) (L : Nat) (xs : List Elt) : List SegPost :=
  let j := plies.headD 0
  let others := (t.segOwners L).filter fun o => !plies.contains o
  let used (o : Nat) (p : SegPost) : Bool := p.reader == j && p.owner == o && p.block == key.1 && p.pc == key.2 && !p.taken
  let marks := (others.filter fun o => (t.posted j o key).isNone && t.standsAt o key).map fun o =>
    (⟨j, o, key.1, key.2, true, []⟩ : SegPost)
  let mine := (xs.zipIdx.filter fun (_, e) => plyOf t.n e == j).map fun (x, e) => (e, x.bits, x.t)
  let readers := if mine.isEmpty then []
    else (t.owned.filter fun (i, p) => !plies.contains i && p.stand key.1 != .ended).map (·.1)
  let segs := others.foldl (fun l o => l.eraseP (used o)) t.segs
  readers.foldl (fun l i =>
    let paid (p : SegPost) : Bool := p.reader == i && p.owner == j && p.block == key.1 && p.pc == key.2 && p.taken
    if l.any paid then l.eraseP paid else l ++ [⟨i, j, key.1, key.2, false, mine⟩]) (segs ++ marks)

/-- The segment a replicated operand reads, in full before the word writes (R192): rows of a sibling that has gone past the word as it
posted them, the others as they stand. The rows are read (R346, R347). -/
def State.segFor (s : State) (c : VCtx) (b : BOp) : State × List Elt :=
  match b with
  | .rep v g =>
    let here := s.segment v c.fmt.prec (4 ^ g.toNat)
    let xs := here.zipIdx.map fun (x, e) =>
      if c.plies.contains (plyOf s.th.n e) then x
      else ((s.th.posted (c.plies.headD 0) (plyOf s.th.n e) c.key).bind (·.elt e)).getD x
    ((s.readRows [v] (List.range (4 ^ g.toNat))).upd fun t => { t with segs := t.postSeg c.plies c.key (4 ^ g.toNat) here }, xs)
  | .field _ => (s, [])
  | .sreg _ => (s, [])
  | .freg _ => (s, [])

/-- ILLOP for a type that the instruction does not accept (R198). -/
def typeFault (w : IWord) (ok : Bool) : Option TrapInfo := if ok then none else some (illop w)

/-- Results written to a field, with the taint of Table 4.3 and the flags. A word that works on some element adds its inputs' taint,
whether or not it writes a row (R96, R201). -/
def State.writeField (s : State) (d : BitVec 6) (es : List Nat) (rs : List (Nat × EOut)) (tn : Taint) (fl : Flags) : State :=
  let s := rs.foldl (fun s (e, x) => match x.t with
    | none => s.putBits d e x.bits
    | some t => s.putElt d e ⟨x.bits, t⟩) s
  let fl := rs.foldl (fun a (_, x) => a ||| x.flags) fl
  if es.isEmpty then s
  else s.upd fun t => (t.setVTaint d (tn ||| t.vTaint d)).raiseFlags fl

/-- The indices of results whose count fails the threshold. -/
def failing (mode : BitVec 26) (rs : List (Nat × EOut)) : List Nat :=
  rs.filterMap fun (e, x) => match x.t with
    | none => none
    | some t => if trustFails mode t then some e else none

/-- PIDX.VALID cleared as an instruction with restart points completes (R238). -/
def Thread.donePidx (t : Thread) : Thread := { t with pidx := t.pidx &&& 0x7FFFFFFFFFFFFFFF }

/-! ### Restart points: R34, R161, R238, R270, R281, R340 -/

/-- A word stopped at a restart point: PIDX holds its progress and, where the word uses it, REDACC (Table 11.4). -/
def State.paused (s : State) (es : List Nat) (index : Nat) (acc : Option (BitVec 128)) : State :=
  (s.pinRows es).upd fun t => { t with
    pidx := 0x8000000000000000 ||| (BitVec.ofNat 32 index).setWidth 64,
    redlo := (acc.map (·.extractLsb' 0 64)).getD t.redlo, redhi := (acc.map (·.extractLsb' 64 64)).getD t.redhi }

/-- The end of a word's step that leaves it at a restart point. -/
def VOut.paused (s : State) : VOut := { st := s, trap := none, trace := ⟨1, none⟩, held := true }

/-- At which restart point a word that works on some rows is to stop. -/
def State.stopsOn (s : State) (es : List Nat) : Option Nat := if es.isEmpty then none else s.stopAt

/-- The point that a valid PIDX names. -/
def Thread.resumesAt (t : Thread) : Option Nat := if t.pidx.getLsbD 63 then some (t.pidx.extractLsb' 0 32).toNat else none

/-- The bits of a field's footprint. -/
def FieldEnt.raw (f : FieldEnt) (r : Row) : Nat := (r >>> f.cols.1).toNat % 2 ^ (f.cols.2 - f.cols.1)

/-- A field's footprint in a row replaced. -/
def State.putRaw (s : State) (e : Nat) (v : BitVec 6) (x : Nat) : State :=
  let f := s.th.ent v
  s.setBits e f.cols.1 (f.cols.2 - f.cols.1) x

/-- A word whose restart points are numbered by its passes: the fields it reads or writes in the rows it works on, those it writes there, the
tag it writes, whether it keeps partial sums in v63 of every row (R281), and the values of its other operands. -/
structure Passes where
  word : IWord
  fields : List (BitVec 6)
  dst : List (BitVec 6)
  tag : List (BitVec 4)
  wide : Bool
  inputs : List Nat
  deriving DecidableEq, Repr

/-- What a word with passes finds in a row: its fields and its tag in a row it works on, else the work field alone. -/
def State.passRow (s : State) (x : Passes) (es : List Nat) (e : Nat) : List Nat :=
  if es.contains e then
    x.fields.map (fun v => (s.th.ent v).raw (s.seen e)) ++ x.tag.map fun k => if s.tagBit e k then 1 else 0
  else [(s.th.ent workField).raw (s.seen e)]

/-- The rows that a word with passes uses. -/
def Passes.rows (x : Passes) (n : Nat) (es : List Nat) : List Nat :=
  if x.wide then es ++ (List.range (256 * n)).filter fun e => !es.contains e else es

/-- What a word's remaining passes depend on beside its rows: its other operands, the places of its fields, the formats it captured. -/
def State.passInputs (s : State) (c : VCtx) (x : Passes) : List Nat :=
  x.inputs ++ (x.fields.map fun v => (s.th.ent v).base.toNat + 1024 * (s.th.ent v).width.toNat + (if (s.th.ent v).trust then 131072 else 0))
    ++ c.ty.nfs.map fun i => c.nf[i.toFin].toNat

/-- What is known of the passes left from a point, for the operands as they stand (R161). -/
def State.pointAt (s : State) (c : VCtx) (x : Passes) (k : Nat) : Option StopPoint :=
  s.points.find? fun p => p.word == x.word && p.mode == c.mode && p.vl == c.vl && p.pass == k && p.inputs == s.passInputs c x

/-- A word that resumes at a point: in rows that stand as the stop left them, the fields are taken as they were before the word
began, so that it gives the results of an uninterrupted run (R340); the passes left give, in the other rows, results that the
specification does not state (R34, R161), and these rows are answered. -/
def State.resumed (s : State) (c : VCtx) (x : Passes) (es : List Nat) : State × List Nat :=
  match s.th.resumesAt with
  | none => (s, [])
  | some k =>
    match s.pointAt c x k with
    | none => (s, x.rows s.th.n es)
    | some p =>
      let same (e : Nat) : Option StopRow := p.rows.find? fun r => r.e == e && r.after == s.passRow x es e
      ((es.filterMap same).foldl (fun s r => (x.fields.zip r.before).foldl (fun s (v, b) => s.putRaw r.e v b) s) s,
        (x.rows s.th.n es).filter fun e => (same e).isNone)

/-- The next restart point at which a word is to stop, past the one it resumed at. -/
def Thread.passAfter (t : Thread) (k : Nat) : Nat := (BitVec.ofNat 32 (t.resumesAt.getD 0 + 1 + k)).toNat

/-- A word stopped at a restart point of its passes: the fields and the tag it writes hold partial results, its work field partial values;
what its passes left will give from there is remembered, but for rows of which it is not known (log 53). `s0` is the state in which
every row stands as it did before the word began; `outs` are the rows in which fields are written. -/
def State.atPass (s0 : State) (c : VCtx) (x : Passes) (es outs lost : List Nat) (k : Nat) (acc : Option (BitVec 128)) : State :=
  let pass := s0.th.passAfter k
  let s := s0.paused es pass acc
  let s := outs.foldl (fun s e => x.dst.foldl (fun s v => s.putRaw e v ((Config.freeBits s.tick (e + 4096 * v.toNat)).toNat)) s) s
  let s := es.foldl (fun s e => x.tag.foldl (fun s t => s.setTag e t (Config.coin s.tick (64 + e))) s) s
  let s := if x.wide then s.freeField workField (List.range (256 * s.th.n)) else s
  let rows := (x.rows s.th.n es).filter fun e => !lost.contains e
  { s with points := ⟨x.word, c.mode, c.vl, pass, s0.passInputs c x,
      rows.map fun e => ⟨e, s0.passRow x es e, s.passRow x es e⟩⟩ :: s.points }

/-- A result that the specification does not state, in the form of another: any bits, any count up to P, any flags (log 53). -/
def State.freeOut (s : State) (c : VCtx) (e : Nat) (o : EOut) : EOut :=
  ⟨(Config.freeBits s.tick (8192 + e)).toNat, o.t.map fun _ => Config.choose s.tick (8192 + e) % (c.fmt.prec + 1),
    BitVec.ofNat 8 (Config.choose s.tick (16384 + e))⟩

/-- Results of a resumed word, free in the rows of which the passes left are not known, or in all where rows depend on one another. -/
def State.lostOut (s : State) (c : VCtx) (lost : List Nat) (all : Bool) (rs : List (Nat × EOut)) : List (Nat × EOut) :=
  if lost.isEmpty then rs else rs.map fun (e, o) => (e, if all || lost.contains e then s.freeOut c e o else o)

/-- The fields of a b operand and of a list of fields. -/
def Ew.fields (x : Ew) : List (BitVec 6) := x.reads ++ (match x.b with | none => [] | some b => b.vfield)

/-- The values of a b operand that is no field element of the row. -/
def BVal.inputs (b : BVal) : List Nat :=
  match b with
  | .perRow _ => []
  | .const x t => [x, t]
  | .seg xs => xs.flatMap fun x => [x.bits, x.t]

/-- An element-wise instruction as a word with passes. -/
def Ew.passes (x : Ew) (w : IWord) (b : BVal) : Passes :=
  let work := if x.work then [workField] else []
  { word := w, fields := x.dst :: x.fields ++ work, dst := x.dst :: work, tag := [], wide := false, inputs := b.inputs }

/-- The effect of an element-wise instruction (R235). -/
def State.elementwise (w : IWord) (x : Ew) (c : VCtx) (s : State) : Except TrapInfo VOut :=
  match typeFault w (x.accept c.ty) <|> s.th.operandFault c.nf (x.nfs c) (x.ops c) with
  | some i => .error i
  | none =>
    let es := if x.all then s.counted c else s.active c
    let tn := s.inTaint c x.reads [] (match x.b with | none => [] | some b => [b])
    let b := x.b.getD (.sreg 0)
    let (s, segs) := s.segFor c b
    let (bv, bf) := s.bval c b segs
    let (s, lost) := if x.long then s.resumed c (x.passes w bv) es else (s, [])
    match if x.long then s.stopsOn es else none with
    | some k =>
      let s' := (s.atPass c (x.passes w bv) es es lost k (some 0)).readRows x.fields es
      .ok (.paused (s'.upd fun t =>
        let t := t.setVTaint x.dst (tn ||| t.vTaint x.dst)
        if x.work then t.setVTaint workField tn else t))
    | none =>
      let rs := s.lostOut c lost false (es.map fun e => (e, x.elt c s bv e))
      let s' := s.readRows x.fields es
      let s' := s'.writeField x.dst es rs tn (if x.quiet then 0 else bf)
      let s' := if x.work && !es.isEmpty then
          (s'.freeField workField es).upd fun t => t.setVTaint workField tn else s'
      let s' := if x.long then s'.upd Thread.donePidx else s'
      .ok { st := s'.checkedOn es (x.run c) x.work, trap := if x.check then sigloss (failing c.mode rs) else none,
            trace := ⟨(s.th.ent x.dst).width.toNat, none⟩ }

end Sys2Proof.Machine
end

