-- ==== Sys2Proof/Machine/PlyCtl.lean ====
section
/-! DEFINITION. Fetching words and blocks, ply control, the mode, vector length, taints and the fences between streams:
06 R133 to R145, 09 R196, 10 R216, 01 R28, 04 R100, R102. -/
namespace Sys2Proof.Machine
open Sys2Proof

/-! ### Instruction fetch: R13, R43, R133, R134 -/

/-- The key of a line on a core's instruction path. -/
def pathKey (core : BitVec 12) (pa : Nat) : Nat := core.toNat * 2 ^ 41 + pa / 128

/-- A word read on a core's instruction path (R214). The path holds the lines it has read until a SYNCI discards them. Of a line it
holds, a word that has changed at its home since is returned as the path holds it or as it is now; once the new word has been
returned the path holds that (log 64). -/
def State.pathRead (s : State) (core : BitVec 12) (pa : Nat) (repl : BitVec 2) : State × IWord :=
  let lost := s.readFails pa 4
  let (s, line) := s.homeRead core (pa / 128 * 128) repl 128
  let now : Row := BitVec.ofNat 1024 (leVal line)
  let word (r : Row) : IWord := r.extractLsb' (8 * (pa % 128)) 32
  let key := pathKey core (replicaFor core pa repl)
  match s.ipath.find? fun x => x.1 == key with
  | none => ({ s with ipath := (key, now) :: s.ipath }, word now)
  | some (_, old) =>
    if lost || word old = word now then (s, word old)
    else if Config.coin s.tick pa then (s, word old)
    else
      let row := rowSet old (8 * (pa % 128)) 32 (word now).toNat
      ({ s with ipath := (key, row) :: s.ipath.filter fun x => x.1 != key }, word now)

/-- Whether the host fails the fetch of a word: one that the core's instruction path holds asks nothing of it (R17). -/
def State.fetchFails (s : State) (core : BitVec 12) (x : Xl) : Bool :=
  if x.device then s.hostFails x.pa 4 else s.readFails x.pa 4 && !(s.ipath.any fun y => y.1 == pathKey core x.pa)

/-- One word fetched at an address by a thread of the given privilege, with its translation installed (R11, R13, R17, R18, R43). -/
def State.fetchWord (s : State) (priv : Bool) (va : Dword) : Except XFault (State × IWord) :=
  let a := va.toNat
  let core := s.th.tid.core
  if 2 ^ 56 ≤ a then .error (XFault.plain cADDRFORM va)
  else if regionOf a = .sup ∧ !priv then .error (XFault.plain cPRIVSPACE va)
  else if regionOf a = .near then .error (XFault.plain cNEARRANGE va)
  else match s.translate core s.th.ctx .fetch va with
    | .error f => .error f
    | .ok x =>
      if isMmio x.pa || s.fetchFails core x then .error (XFault.plain cPHYSHOLE va)
      else
        let s := s.install core s.th.ctx .fetch va x
        .ok (if x.device then (s, BitVec.ofNat 32 (leVal (memBytes s.mem x.pa 4))) else s.pathRead core x.pa x.repl)

/-- PEND (Table 6.2). -/
def pendWord : IWord := 0xA0010000

/-- Words from an address on, through the first PEND, at most `n` of them (R134). -/
def State.fetchWords (s : State) (priv : Bool) (va : Dword) : Nat → Except XFault (State × List IWord)
  | 0 => .ok (s, [])
  | n + 1 =>
    match s.fetchWord priv va with
    | .error f => .error f
    | .ok (s, w) =>
      if w = pendWord then .ok (s, [w])
      else match s.fetchWords priv (va + 4) n with
        | .error f => .error f
        | .ok (s, ws) => .ok (s, w :: ws)

/-- The classes TCLR and TDEP may name in a block: R111. -/
def TaintName.inBlock : TaintName → Bool
  | .s _ => false
  | .f _ => false
  | .v _ => true
  | .k _ => true
  | .acc _ => false
  | .ctl => true

end Sys2Proof.Machine

namespace Sys2Proof
open Sys2Proof.Machine

/-- The instruction of a word that may stand in a block: R133. -/
def blockFields : Fields → Option Instr
  | ⟨m, d, a, b, f⟩ =>
    if m == 0x2#6 then
      (if d.extractLsb' 2 4 == 0x0#4 then some (.mode (d.extractLsb' 0 2 ++ a ++ b ++ f)) else none)
    else if m == 0x18#6 then
      (match decodeMemx d a b f with
       | some (.tclr x) => if TaintName.inBlock x then some (.tclr x) else none
       | some (.tdep x y) => if TaintName.inBlock x && TaintName.inBlock y then some (.tdep x y) else none
       | _ => none)
    else if m == 0x28#6 then decodePctl d a b f
    else if m == 0x2a#6 then decodeVint d a b f
    else if m == 0x2b#6 then decodeVflt d a b f
    else if m == 0x2c#6 then decodeVfma d a b f
    else if m == 0x2d#6 then decodeVbit d a b f
    else if m == 0x2e#6 then decodeVcmp d a b f
    else if m == 0x2f#6 then decodeVsrch d a b f
    else if m == 0x30#6 then decodeKop d a b f
    else if m == 0x31#6 then decodeVred d a b f
    else if m == 0x32#6 then decodeSearch d a b f
    else if m == 0x33#6 then decodeVmove d a b f
    else if m == 0x34#6 then decodeVld d a b f
    else if m == 0x35#6 then decodeVst d a b f
    else if m == 0x36#6 then decodeVspec d a b f
    else if m == 0x38#6 then decodeMat d a b f
    else none

/-- The instruction of a word of a block, with the checks of R196 and R197. -/
def blockDecode (w : IWord) : Option Instr :=
  match blockFields (Fields.ofWord w) with
  | some i => if i.wellFormed then some i else none
  | none => none

/-- The word offset of a PBR. -/
def pbrOffset (i : Option Instr) : Option Int :=
  match i with
  | some (.pbr _ _ o) => some o.toInt
  | _ => none

end Sys2Proof

namespace Sys2Proof.Machine
open Sys2Proof

/-- A malformed block: no PEND within 32 words, or a PBR that leaves the block (R133, Table 16.1). -/
def blkform (addr : Dword) (i : Nat) : TrapInfo := { TrapInfo.mk0 cBLKFORM addr with index := BitVec.ofNat 32 i }

/-- The ILLOP or BLKFORM of a fetched block (R133). -/
def blockFault (addr : Dword) (ws : List IWord) : Option TrapInfo :=
  ((ws.find? fun w => (blockDecode w).isNone).map illop)
  <|> (if ws.getLast? = some pendWord then none else some (blkform addr 31))
  <|> ((ws.zipIdx.find? fun (w, i) => match pbrOffset (blockDecode w) with
        | none => false
        | some o => decide ((i : Int) + o < 0) || decide ((ws.length : Int) ≤ i + o)).map fun (_, i) => blkform addr i)

/-- Why a block cannot be fetched: a fault of the fetch, or one of the words. -/
inductive FetchFault where
  | fetch (f : XFault)
  | word (i : TrapInfo)
  deriving DecidableEq, Repr

/-- A block fetched and decoded (R134). -/
def State.fetchBlock (s : State) (priv : Bool) (addr : Dword) : Except FetchFault (State × List IWord) :=
  match s.fetchWords priv addr 32 with
  | .error f => .error (.fetch f)
  | .ok (s', ws) => match blockFault addr ws with
    | some i => .error (.word i)
    | none => .ok (s', ws)

/-- The word of a one-word block refetched alone (R339). -/
def State.fetchOne (s : State) (priv : Bool) (addr : Dword) : Except FetchFault (State × List IWord) :=
  match s.fetchWord priv addr with
  | .error f => .error (.fetch f)
  | .ok (s', w) => if (blockDecode w).isNone then .error (.word (illop w)) else .ok (s', [w])

/-- The precise fault of a fetch that an instruction makes. -/
def State.fetchFault (s : State) (f : FetchFault) : State :=
  match f with
  | .fetch x => s.accessFault [x] false
  | .word i => s.fault i

/-! ### Waits on blocks -/

/-- Whether every dispatched block has ended on every ply (R145). -/
def Thread.blocksEnded (t : Thread) : Bool := t.owned.all fun (_, p) => p.queue.isEmpty && p.run.isNone

/-- The blocks a ply has not ended, the running one counted (R134). -/
def Ply.depth (p : Ply) : Nat := p.queue.length + (if p.run.isSome then 1 else 0)

/-- Whether the queue of some owned ply holds four blocks (R134). -/
def Thread.queueFull (t : Thread) : Bool := t.owned.any fun (_, p) => decide (4 ≤ p.depth)

/-- A control-stream word that waits while a condition fails: it then changes nothing and is executed again. -/
def ctlWhen (w : IWord) (s : State) (ready : Bool) (f : State → State) : Out :=
  ctl w s fun s => if ready then f s else s

/-! ### Block dispatch and ply control -/

/-- The address a VFETCH names. -/
def vfetchAddr (t : Thread) (a : BitVec 6) (i : BitVec 14) : Dword :=
  (if a = 0 then t.pc else t.sr a) + 4 * i.signExtend 64

/-- VFETCH (R134). -/
def execVfetch (a : BitVec 6) (i : BitVec 14) (s : State) : Out :=
  ctl (wordOf (.vfetch a i)) s fun s =>
    let addr := vfetchAddr s.th a i
    if addr.extractLsb' 0 2 ≠ 0 then s.raise (TrapInfo.mk0 cADDRALIGN addr)
    else match s.fetchBlock s.th.priv addr with
      | .error f => s.fetchFault f
      | .ok (s', ws) => if s.th.queueFull then s else s'.upd fun t => (t.dispatch ws addr false).advance

/-- A word of a block that one ply executes for itself; in the control stream it is ILLOP (R138). -/
def plyWord (w : IWord) (s : State) (f : BitVec 4 → Running → State → State) : Out :=
  if !s.th.live then .fault .noThread
  else match s.who with
    | .control => .next (s.fault (illop w))
    | .ply j =>
      match s.th.running j with
      | none => .fault .noThread
      | some r => .next (f j r s)

/-- The running block of a ply changed. -/
def Thread.setRun (t : Thread) (j : BitVec 4) (r : Running) : Thread :=
  t.setPly j.toNat { t.plyAt j.toNat with run := some r }

/-- The rows of a ply below its VL: its counted rows (R139). -/
def State.plyRows (s : State) (j : BitVec 4) (vl : Nat) : List Nat :=
  (List.range vl).filter fun e => plyOf s.th.n e = j.toNat

/-- Whether a PBR is taken (R139). -/
def State.pbrTaken (s : State) (k : BitVec 4) (c : BitVec 2) (rows : List Nat) : Bool :=
  if c = 0 then true
  else if c = 1 then rows.any fun e => s.tagBit e k
  else if c = 2 then !(rows.any fun e => s.tagBit e k)
  else rows.all fun e => s.tagBit e k

/-- PBR (R139, R97). -/
def execPbr (k : BitVec 4) (c : BitVec 2) (o : BitVec 16) (s : State) : Out :=
  plyWord (wordOf (.pbr k c o)) s fun j r s =>
    let step : Dword := if s.pbrTaken k c (s.plyRows j r.vl.toNat) then 4 * o.signExtend 64 else 4
    s.upd fun t => t.setRun j { r with
      pc := r.pc + step, wait := .running, ctl := if c = 0 then r.ctl else r.ctl ||| t.kTaint k }

/-- PEND (R142). -/
def execPend (s : State) : Out :=
  plyWord (wordOf .pend) s fun j r s => s.upd fun t => t.endBlock j.toNat r

/-- PFETCH (R140). -/
def execPfetch (o : BitVec 16) (s : State) : Out :=
  plyWord (wordOf (.pfetch o)) s fun j r s =>
    let addr := r.pc + 4 * o.signExtend 64
    match s.fetchBlock s.th.priv addr with
    | .error f => s.fetchFault f
    | .ok (s, ws) => s.upd fun t => t.setRun j { r with
        blk := { r.blk with words := ws, addr := addr, one := false }, pc := addr, wait := .running }

/-- PWAIT (R141, R143, R97). -/
def execPwait (s : State) : Out :=
  plyWord (wordOf .pwait) s fun j r s =>
    let s := s.upd fun t => t.await j.toNat r .splice
    match s.th.arrived r.origin with
    | none => s
    | some ws =>
      if ws.all fun (_, x) => x.wait = .splice then
        let all := ws.foldl (fun a (_, x) => a ||| x.ctl) 0
        s.upd fun t => ws.foldl (fun t (i, x) =>
          (t.setPly i { t.plyAt i with run := some { x with ctl := all } }).nextWord i)
          { t with segs := t.segs.filter fun p => p.block != r.origin }
      else s.plyDiv ws

/-- VJOIN (R145, R97). -/
def execVjoin (s : State) : Out :=
  ctlWhen (wordOf .vjoin) s s.th.blocksEnded fun s =>
    s.upd fun t => { t.addCtl t.taints.ended with taints := { (t.addCtl t.taints.ended).taints with ended := 0 } }.advance

/-! ### Mode, vector length, field map -/

/-- MODE (R135, R159, R196): in a block it changes the ply's copy. -/
def execMode (m : BitVec 22) (s : State) : Out :=
  if !s.th.live then .fault .noThread
  else match s.who with
    | .control => .next (s.upd fun t => { t with mode := m.setWidth 26 }.advance)
    | .ply j =>
      match s.th.running j with
      | none => .fault .noThread
      | some r => .next (s.upd fun t => (t.setRun j { r with mode := m.setWidth 26 }).nextWord j.toNat)

/-- The vector length a request gets: Table 6.1, R131. -/
def Thread.vlFor (t : Thread) (req : Dword) : BitVec 13 :=
  BitVec.ofNat 13 (Nat.min req.toNat (Nat.min (256 * t.n) t.ceiling.toNat))

/-- SETVL's effect (R216): commit, the new VL, a new strip whose checkpoint names the next word. -/
def State.setVl (s : State) (d : BitVec 6) (req : Dword) (tn : Taint) : State :=
  s.commit.upd fun t =>
    let vl := t.vlFor req
    (({ t with vl := vl }.setS d (vl.setWidth 64) tn).addCtl tn).advance.openStrip false

/-- SETVL with an immediate (R216). -/
def execSetvlImm (d : BitVec 6) (i : BitVec 13) (s : State) : Out :=
  ctlWhen (wordOf (.setvlImm d i)) s s.th.blocksEnded fun s => s.setVl d (i.setWidth 64) 0

/-- SETVL with a register (R216). -/
def execSetvlReg (d a : BitVec 6) (s : State) : Out :=
  ctlWhen (wordOf (.setvlReg d a)) s s.th.blocksEnded fun s => s.setVl d (s.th.sr a) (s.th.sTaint a)

/-- The identifiers FMAP gives a newly mapped entry: its own and those of every mapped entry that shares a column (R28). -/
def Thread.mapTaint (t : Thread) (v : BitVec 6) (f : FieldEnt) : Taint :=
  (List.range 64).foldl (fun a i =>
    let x := BitVec.ofNat 6 i
    match t.fent x with
    | none => a
    | some g => if g.meets f then a ||| t.vTaint x else a) (t.vTaint v)

/-- FMAP (R28). -/
def execFmap (v : BitVec 6) (b : BitVec 10) (w : BitVec 7) (tr : Bool) (s : State) : Out :=
  ctl (wordOf (.fmap v b w tr)) s fun s =>
    let f : FieldEnt := ⟨b, w, tr⟩
    if w = 0 then s.upd fun t => ({ t with fmap := t.fmap.set v.toFin none }.setVTaint v 0).advance
    else if s.th.checked && decide (832 < f.cols.2) then s.raise (opFault cCHKCOL 0 v.toNat)
    else s.upd fun t => ({ t with fmap := t.fmap.set v.toFin (some f) }.setVTaint v (t.mapTaint v f)).advance

/-! ### Taints and fences -/

/-- The set of a name for the agent that executes; an unmapped field's set is empty (R100). -/
def State.nameTaint (s : State) (x : TaintName) : Taint :=
  match x with
  | .s r => s.th.sTaint r
  | .f r => s.th.fTaint r
  | .v v => if (s.th.fent v).isNone then 0 else s.th.vTaint v
  | .k k => s.th.kTaint k
  | .acc n => s.th.accTaint n
  | .ctl => match s.who with
    | .control => s.th.taints.ctl
    | .ply j => match s.th.running j with
      | none => 0
      | some r => r.ctl

/-- The set of a name replaced; s0, k0 and unmapped fields keep their empty sets (R100). -/
def State.setNameTaint (s : State) (x : TaintName) (tn : Taint) : State :=
  s.upd fun t => match x with
    | .s r => if r = 0 then t else { t with taints := { t.taints with s := t.taints.s.set r.toFin tn } }
    | .f r => { t with taints := { t.taints with f := t.taints.f.set r.toFin tn } }
    | .v v => if (t.fent v).isNone then t else t.setVTaint v tn
    | .k k => t.setKTaint k tn
    | .acc n => t.setAccTaint n tn
    | .ctl => match s.who with
      | .control => { t with taints := { t.taints with ctl := tn } }
      | .ply j => match t.running j with
        | none => t
        | some r => t.setRun j { r with ctl := tn }

/-- A taint instruction in either stream: in a block only fields, tags and the control taint may be named (R111). -/
def taintWord (w : IWord) (s : State) (inBlock : Bool) (bad : Option TrapInfo) (f : State → State) : Out :=
  if !s.th.live then .fault .noThread
  else match s.who with
    | .control => .next (match bad with
      | some i => s.fault i
      | none => (f s).upd Thread.advance)
    | .ply j =>
      if (s.th.running j).isNone then .fault .noThread
      else if !inBlock then .next (s.fault (illop w))
      else .next ((f s).upd fun t => t.nextWord j.toNat)

/-- ACCOWN of an operand that names an accumulator above the thread's grant (R157, Table 9.7), with its position. -/
def Thread.nameFault (t : Thread) (pos : Nat) : TaintName → Option TrapInfo
  | .s _ => none
  | .f _ => none
  | .v _ => none
  | .k _ => none
  | .acc n => if n.toNat < t.tiles.toNat then none else some (opFault cACCOWN pos n.toNat)
  | .ctl => none

/-- TCLR (R100). -/
def execTclr (x : TaintName) (s : State) : Out :=
  taintWord (wordOf (.tclr x)) s (TaintName.inBlock x) (s.th.nameFault 0 x) fun s => s.setNameTaint x 0

/-- TDEP (R100). -/
def execTdep (x y : TaintName) (s : State) : Out :=
  taintWord (wordOf (.tdep x y)) s (TaintName.inBlock x && TaintName.inBlock y) (s.th.nameFault 0 x <|> s.th.nameFault 1 y) fun s =>
    s.setNameTaint x (s.nameTaint x ||| s.nameTaint y)

/-- TWAIT (R100): every identifier is free, those of dispatched blocks included. -/
def execTwait (s : State) : Out :=
  ctlWhen (wordOf .twait) s (s.th.blocksEnded && s.th.out.isEmpty) fun s => s.upd Thread.advance

/-- FENCE.SV (R102): the vector stream is ordered after every scalar store from here on (log 62). -/
def execFenceSv (s : State) : Out := ctl (wordOf .fenceSv) s fun s => (s.revealAll true).upd Thread.advance

/-- Whether an update of the thread's vector stream is not yet performed at its slice (R82). -/
def State.addsHeld (s : State) : Bool :=
  s.th.strip.buf.any Buffered.isAdd || (s.drain.any fun (t, b) => t = s.th.tid && b.isAdd)
    || (s.sliceQ.any fun r => r.tid = s.th.tid)

/-- Whether every vector access of the thread's ended blocks has been performed, updates apart. -/
def Thread.vecQuiet (t : Thread) : Bool := t.blocksEnded && !(t.out.any (·.vec))

/-- The thread's updates acknowledged by their slices: one held in the open strip commits it; else nothing commits (R82,
R162, R342). -/
def State.ackAdds (s : State) : State :=
  if s.th.strip.buf.any Buffered.isAdd then s.settle
  else if s.addsHeld then s.performAll s.th.tid
  else s

/-- FENCE.VS (R102, R82): an update held in the open strip is committed, and all are performed; the scalar stream is ordered after
every vector store. -/
def execFenceVs (s : State) : Out :=
  ctlWhen (wordOf .fenceVs) s s.th.vecQuiet fun s => (s.ackAdds.revealAll false).upd Thread.advance

end Sys2Proof.Machine
end

