-- ==== Sys2Proof/Machine/Scalar.lean ====
section
/-! DEFINITION. The scalar integer, immediate, branch and jump instructions: 10 R217, R218, R220, R221. -/
namespace Sys2Proof.Machine
open Sys2Proof

/-! ### Arithmetic -/

/-- The low w bits sign-extended to 64; 0 is read as 64 (Table 10.3). -/
def signExt (a : Dword) (w : Nat) : Dword := if w = 0 then a else (a <<< (64 - w)).sshiftRight (64 - w)
/-- The low w bits zero-extended to 64; 0 is read as 64 (Table 10.3). -/
def zeroExt (a : Dword) (w : Nat) : Dword := if w = 0 then a else (a <<< (64 - w)) >>> (64 - w)

/-- The number of leading zeros below bit n. -/
def leadZeros (a : Dword) : Nat → Nat
  | 0 => 0
  | n + 1 => if a.getLsbD n then 0 else leadZeros a n + 1
/-- The number of trailing zeros from bit i, in n bits. -/
def trailZeros (a : Dword) : Nat → Nat → Nat
  | _, 0 => 0
  | i, n + 1 => if a.getLsbD i then 0 else trailZeros a (i + 1) n + 1
/-- Leading zeros of a dword: 64 for 0. -/
def clz64 (a : Dword) : Nat := leadZeros a 64
/-- Trailing zeros of a dword: 64 for 0. -/
def ctz64 (a : Dword) : Nat := trailZeros a 0 64
/-- The 1 bits of a dword. -/
def popc64 (a : Dword) : Nat := (List.range 64).foldl (fun n i => if a.getLsbD i then n + 1 else n) 0

/-- A result of two s-registers written with the union of their taints (Table 4.3). -/
def State.alu2 (d a b : BitVec 6) (f : Dword → Dword → Dword) (s : State) : State :=
  s.upd fun t => (t.setS d (f (t.sr a) (t.sr b)) (t.sTaint a ||| t.sTaint b)).advance

/-- A result of one s-register written with its taint. -/
def State.alu1 (d a : BitVec 6) (f : Dword → Dword) (s : State) : State :=
  s.upd fun t => (t.setS d (f (t.sr a)) (t.sTaint a)).advance

/-- A quotient or remainder and the flag of R171; the flag is set even when s0 discards the result (R217). -/
def State.aluDiv (d a b : BitVec 6) (f : Int → Int → Int × Flags) (signed : Bool) (s : State) : State :=
  s.upd fun t =>
    let v (x : Dword) : Int := if signed then x.toInt else (x.toNat : Int)
    let (r, fl) := f (v (t.sr a)) (v (t.sr b))
    ((t.setS d (BitVec.ofInt 64 r) (t.sTaint a ||| t.sTaint b)).raiseFlags fl).advance

/-- ADD (R217): the sum mod 2^64. -/
def execAdd (d a b : BitVec 6) (s : State) : Out :=
  ctl (wordOf (.add d a b)) s (State.alu2 d a b fun a b => a + b)

/-- SUB (R217): the difference mod 2^64. -/
def execSub (d a b : BitVec 6) (s : State) : Out :=
  ctl (wordOf (.sub d a b)) s (State.alu2 d a b fun a b => a - b)

/-- AND (R217): AND. -/
def execAnd (d a b : BitVec 6) (s : State) : Out :=
  ctl (wordOf (.and d a b)) s (State.alu2 d a b fun a b => a &&& b)

/-- OR (R217): OR. -/
def execOr (d a b : BitVec 6) (s : State) : Out :=
  ctl (wordOf (.or d a b)) s (State.alu2 d a b fun a b => a ||| b)

/-- XOR (R217): XOR. -/
def execXor (d a b : BitVec 6) (s : State) : Out :=
  ctl (wordOf (.xor d a b)) s (State.alu2 d a b fun a b => a ^^^ b)

/-- ANDN (R217): a AND NOT b. -/
def execAndn (d a b : BitVec 6) (s : State) : Out :=
  ctl (wordOf (.andn d a b)) s (State.alu2 d a b fun a b => a &&& ~~~ b)

/-- SLL (R217): shift left by b[5:0]. -/
def execSll (d a b : BitVec 6) (s : State) : Out :=
  ctl (wordOf (.sll d a b)) s (State.alu2 d a b fun a b => a <<< (b.extractLsb' 0 6).toNat)

/-- SRL (R217): logical shift right by b[5:0]. -/
def execSrl (d a b : BitVec 6) (s : State) : Out :=
  ctl (wordOf (.srl d a b)) s (State.alu2 d a b fun a b => a >>> (b.extractLsb' 0 6).toNat)

/-- SRA (R217): arithmetic shift right by b[5:0]. -/
def execSra (d a b : BitVec 6) (s : State) : Out :=
  ctl (wordOf (.sra d a b)) s (State.alu2 d a b fun a b => a.sshiftRight (b.extractLsb' 0 6).toNat)

/-- ROR (R217): rotate right by b[5:0]. -/
def execRor (d a b : BitVec 6) (s : State) : Out :=
  ctl (wordOf (.ror d a b)) s (State.alu2 d a b fun a b => a.rotateRight (b.extractLsb' 0 6).toNat)

/-- MUL (R217): the low half of the product. -/
def execMul (d a b : BitVec 6) (s : State) : Out :=
  ctl (wordOf (.mul d a b)) s (State.alu2 d a b fun a b => a * b)

/-- MULH (R217): the high half of the signed product. -/
def execMulh (d a b : BitVec 6) (s : State) : Out :=
  ctl (wordOf (.mulh d a b)) s (State.alu2 d a b fun a b => BitVec.ofInt 64 (a.toInt * b.toInt / 2 ^ 64))

/-- MULHN (R217): the high half of the unsigned product. -/
def execMulhn (d a b : BitVec 6) (s : State) : Out :=
  ctl (wordOf (.mulhn d a b)) s (State.alu2 d a b fun a b => BitVec.ofNat 64 (a.toNat * b.toNat / 2 ^ 64))

/-- MIN (R217): the signed smaller. -/
def execMin (d a b : BitVec 6) (s : State) : Out :=
  ctl (wordOf (.min d a b)) s (State.alu2 d a b fun a b => if b.slt a then b else a)

/-- MAX (R217): the signed larger. -/
def execMax (d a b : BitVec 6) (s : State) : Out :=
  ctl (wordOf (.max d a b)) s (State.alu2 d a b fun a b => if a.slt b then b else a)

/-- MINN (R217): the unsigned smaller. -/
def execMinn (d a b : BitVec 6) (s : State) : Out :=
  ctl (wordOf (.minn d a b)) s (State.alu2 d a b fun a b => if b.ult a then b else a)

/-- MAXN (R217): the unsigned larger. -/
def execMaxn (d a b : BitVec 6) (s : State) : Out :=
  ctl (wordOf (.maxn d a b)) s (State.alu2 d a b fun a b => if a.ult b then b else a)

/-- SLT (R217): 1 if a < b signed. -/
def execSlt (d a b : BitVec 6) (s : State) : Out :=
  ctl (wordOf (.slt d a b)) s (State.alu2 d a b fun a b => if a.slt b then 1 else 0)

/-- SLTN (R217): 1 if a < b unsigned. -/
def execSltn (d a b : BitVec 6) (s : State) : Out :=
  ctl (wordOf (.sltn d a b)) s (State.alu2 d a b fun a b => if a.ult b then 1 else 0)

/-- SEQ (R217): 1 if a = b. -/
def execSeq (d a b : BitVec 6) (s : State) : Out :=
  ctl (wordOf (.seq d a b)) s (State.alu2 d a b fun a b => if a = b then 1 else 0)

/-- SEXT (R217): a[w-1:0] sign-extended, w = b[5:0], 0 read as 64. -/
def execSext (d a b : BitVec 6) (s : State) : Out :=
  ctl (wordOf (.sext d a b)) s (State.alu2 d a b fun a b => signExt a (b.extractLsb' 0 6).toNat)

/-- ZEXT (R217): a[w-1:0] zero-extended. -/
def execZext (d a b : BitVec 6) (s : State) : Out :=
  ctl (wordOf (.zext d a b)) s (State.alu2 d a b fun a b => zeroExt a (b.extractLsb' 0 6).toNat)

/-- DIV (R217): signed quotient under R171. -/
def execDiv (d a b : BitVec 6) (s : State) : Out :=
  ctl (wordOf (.div d a b)) s (State.aluDiv d a b (fun x y => quot 64 true x y) true)

/-- DIVN (R217): unsigned quotient under R171. -/
def execDivn (d a b : BitVec 6) (s : State) : Out :=
  ctl (wordOf (.divn d a b)) s (State.aluDiv d a b (fun x y => quot 64 false x y) false)

/-- REM (R217): signed remainder under R171. -/
def execRem (d a b : BitVec 6) (s : State) : Out :=
  ctl (wordOf (.rem d a b)) s (State.aluDiv d a b (fun x y => remd 64 true x y) true)

/-- REMN (R217): unsigned remainder under R171. -/
def execRemn (d a b : BitVec 6) (s : State) : Out :=
  ctl (wordOf (.remn d a b)) s (State.aluDiv d a b (fun x y => remd 64 false x y) false)

/-- CLZ (R217): leading zeros. -/
def execClz (d a : BitVec 6) (s : State) : Out :=
  ctl (wordOf (.clz d a)) s (State.alu1 d a fun a => BitVec.ofNat 64 (clz64 a))

/-- CTZ (R217): trailing zeros. -/
def execCtz (d a : BitVec 6) (s : State) : Out :=
  ctl (wordOf (.ctz d a)) s (State.alu1 d a fun a => BitVec.ofNat 64 (ctz64 a))

/-- POPC (R217): 1 bits. -/
def execPopc (d a : BitVec 6) (s : State) : Out :=
  ctl (wordOf (.popc d a)) s (State.alu1 d a fun a => BitVec.ofNat 64 (popc64 a))

/-- ADDI (R218): s[a] + sext(imm14). -/
def execAddi (d a : BitVec 6) (i : BitVec 14) (s : State) : Out :=
  ctl (wordOf (.addi d a i)) s (State.alu1 d a fun x => x + i.signExtend 64)

/-- ANDI (R218): s[a] AND zext(imm14). -/
def execAndi (d a : BitVec 6) (i : BitVec 14) (s : State) : Out :=
  ctl (wordOf (.andi d a i)) s (State.alu1 d a fun x => x &&& i.setWidth 64)

/-- ORI (R218): s[a] OR zext(imm14). -/
def execOri (d a : BitVec 6) (i : BitVec 14) (s : State) : Out :=
  ctl (wordOf (.ori d a i)) s (State.alu1 d a fun x => x ||| i.setWidth 64)

/-- XORI (R218): s[a] XOR zext(imm14). -/
def execXori (d a : BitVec 6) (i : BitVec 14) (s : State) : Out :=
  ctl (wordOf (.xori d a i)) s (State.alu1 d a fun x => x ^^^ i.setWidth 64)

/-- SLTI (R218): 1 if s[a] < sext(imm14) signed. -/
def execSlti (d a : BitVec 6) (i : BitVec 14) (s : State) : Out :=
  ctl (wordOf (.slti d a i)) s (State.alu1 d a fun x => if x.slt (i.signExtend 64) then 1 else 0)

/-- SLLI (R218): shift left by the amount. -/
def execSlli (d a n : BitVec 6) (s : State) : Out :=
  ctl (wordOf (.slli d a n)) s (State.alu1 d a fun x => x <<< n.toNat)

/-- SRLI (R218): logical shift right by the amount. -/
def execSrli (d a n : BitVec 6) (s : State) : Out :=
  ctl (wordOf (.srli d a n)) s (State.alu1 d a fun x => x >>> n.toNat)

/-- SRAI (R218): arithmetic shift right by the amount. -/
def execSrai (d a n : BitVec 6) (s : State) : Out :=
  ctl (wordOf (.srai d a n)) s (State.alu1 d a fun x => x.sshiftRight n.toNat)

/-- RORI (R218): rotate right by the amount. -/
def execRori (d a n : BitVec 6) (s : State) : Out :=
  ctl (wordOf (.rori d a n)) s (State.alu1 d a fun x => x.rotateRight n.toNat)

/-- LI (R218): sext(imm20), with no taint. -/
def execLi (d : BitVec 6) (i : BitVec 20) (s : State) : Out :=
  ctl (wordOf (.li d i)) s fun s => s.upd fun t => (t.setS d (i.signExtend 64) 0).advance

/-- LIM (R218): (s[d] << 20) OR imm20, keeping the taint of s[d]. -/
def execLim (d : BitVec 6) (i : BitVec 20) (s : State) : Out :=
  ctl (wordOf (.lim d i)) s (State.alu1 d d fun x => (x <<< 20) ||| i.setWidth 64)

/-! ### Branches and jumps -/

/-- A conditional branch: both taint sets join the control taint whichever way it goes (R97, R220). -/
def State.branch (a b : BitVec 6) (o : BitVec 14) (c : Dword → Dword → Bool) (s : State) : State :=
  s.upd fun t =>
    let t' := t.addCtl (t.sTaint a ||| t.sTaint b)
    { t' with pc := if c (t.sr a) (t.sr b) then t.pc + (o.signExtend 64) * 4 else t.pc + 4 }

/-- BEQ (R220): taken when equal. -/
def execBeq (a b : BitVec 6) (o : BitVec 14) (s : State) : Out :=
  ctl (wordOf (.beq a b o)) s (State.branch a b o fun a b => a == b)

/-- BNE (R220): taken when not equal. -/
def execBne (a b : BitVec 6) (o : BitVec 14) (s : State) : Out :=
  ctl (wordOf (.bne a b o)) s (State.branch a b o fun a b => a != b)

/-- BLT (R220): taken when less, signed. -/
def execBlt (a b : BitVec 6) (o : BitVec 14) (s : State) : Out :=
  ctl (wordOf (.blt a b o)) s (State.branch a b o fun a b => a.slt b)

/-- BGE (R220): taken when greater or equal, signed. -/
def execBge (a b : BitVec 6) (o : BitVec 14) (s : State) : Out :=
  ctl (wordOf (.bge a b o)) s (State.branch a b o fun a b => !a.slt b)

/-- BLTN (R220): taken when less, unsigned. -/
def execBltn (a b : BitVec 6) (o : BitVec 14) (s : State) : Out :=
  ctl (wordOf (.bltn a b o)) s (State.branch a b o fun a b => a.ult b)

/-- BGEN (R220): taken when greater or equal, unsigned. -/
def execBgen (a b : BitVec 6) (o : BitVec 14) (s : State) : Out :=
  ctl (wordOf (.bgen a b o)) s (State.branch a b o fun a b => !a.ult b)

/-- JAL (R221): s[d] = PC + 4 with no taint; PC = PC + 4 × sext(offset). -/
def execJal (d : BitVec 6) (o : BitVec 20) (s : State) : Out :=
  ctl (wordOf (.jal d o)) s fun s => s.upd fun t => { t.setS d (t.pc + 4) 0 with pc := t.pc + (o.signExtend 64) * 4 }

/-- JALR (R221): target = s[a] + sext(imm14); a target that is not word aligned raises ADDRALIGN on the JALR. -/
def execJalr (d a : BitVec 6) (i : BitVec 14) (s : State) : Out :=
  ctl (wordOf (.jalr d a i)) s fun s =>
    let target := s.th.sr a + i.signExtend 64
    if target.extractLsb' 0 2 ≠ 0 then s.fault (TrapInfo.mk0 cADDRALIGN target)
    else s.upd fun t => { (t.addCtl (t.sTaint a)).setS d (t.pc + 4) 0 with pc := target }

end Sys2Proof.Machine
end

