-- ==== Sys2Proof/Machine/ScalarMem.lean ====
section
/-! DEFINITION. Scalar and float loads and stores: 10 R219, R224. -/
namespace Sys2Proof.Machine
open Sys2Proof

/-- The effective address: s[a] + sext(imm14), mod 2^64 (R219). -/
def Thread.ea (t : Thread) (a : BitVec 6) (i : BitVec 14) : Dword := t.sr a + i.signExtend 64

/-- A scalar load of n bytes: the checks of R219, an identifier, the bytes. It waits while no identifier is free (R95). -/
def State.scalarLoad (s : State) (va : Dword) (n : Nat) (put : Dword → Taint → Thread → Thread) : State :=
  match s.resolve s.th .read va n (n == 8) with
  | .error fs => s.accessFault fs false
  | .ok ps =>
    match s.th.freeId with
    | none => s
    | some id =>
      let s := s.beforeRead false ps
      let (s, bs) := s.readPieces false .read ps
      s.upd fun t => ((put (BitVec.ofNat 64 (leVal bs)) (idSet id) (t.pin (t.viewRows ps))).take id false none).advance

/-- A load into s[d], the value extended from n bytes. -/
def State.loadS (d a : BitVec 6) (i : BitVec 14) (n : Nat) (signed : Bool) (s : State) : State :=
  s.scalarLoad (s.th.ea a i) n fun v tn t => t.setS d (if signed then signExt v (8 * n) else v) tn

/-- A load into f[d] (R224). -/
def State.loadF (d : BitVec 5) (a : BitVec 6) (i : BitVec 14) (n : Nat) (r : Dword → FReg) (s : State) : State :=
  s.scalarLoad (s.th.ea a i) n fun v tn t => t.setF d (r v) tn

/-- A scalar store of n bytes, put into the strip store buffer (R219, R345). -/
def State.scalarStore (s : State) (va : Dword) (n : Nat) (v : Dword) (fl : Flags) : State :=
  match s.resolve s.th .write va n false with
  | .error fs => s.accessFault fs false
  | .ok ps => (s.bufferStore false ps (leBytes n v.toNat)).upd fun t => (t.raiseFlags fl).advance

/-- A store of the low n bytes of s[d]. -/
def State.storeS (d a : BitVec 6) (i : BitVec 14) (n : Nat) (s : State) : State :=
  s.scalarStore (s.th.ea a i) n (s.th.sr d) 0

/-- LDB (R219). -/
def execLdb (d a : BitVec 6) (i : BitVec 14) (s : State) : Out := ctl (wordOf (.ldb d a i)) s (State.loadS d a i 1 true)
/-- LDH (R219). -/
def execLdh (d a : BitVec 6) (i : BitVec 14) (s : State) : Out := ctl (wordOf (.ldh d a i)) s (State.loadS d a i 2 true)
/-- LDW (R219). -/
def execLdw (d a : BitVec 6) (i : BitVec 14) (s : State) : Out := ctl (wordOf (.ldw d a i)) s (State.loadS d a i 4 true)
/-- LDD (R219). -/
def execLdd (d a : BitVec 6) (i : BitVec 14) (s : State) : Out := ctl (wordOf (.ldd d a i)) s (State.loadS d a i 8 false)
/-- LDBN (R219). -/
def execLdbn (d a : BitVec 6) (i : BitVec 14) (s : State) : Out :=
  ctl (wordOf (.ldbn d a i)) s (State.loadS d a i 1 false)
/-- LDHN (R219). -/
def execLdhn (d a : BitVec 6) (i : BitVec 14) (s : State) : Out :=
  ctl (wordOf (.ldhn d a i)) s (State.loadS d a i 2 false)
/-- LDWN (R219). -/
def execLdwn (d a : BitVec 6) (i : BitVec 14) (s : State) : Out :=
  ctl (wordOf (.ldwn d a i)) s (State.loadS d a i 4 false)

/-- STB (R219). -/
def execStb (d a : BitVec 6) (i : BitVec 14) (s : State) : Out := ctl (wordOf (.stb d a i)) s (State.storeS d a i 1)
/-- STH (R219). -/
def execSth (d a : BitVec 6) (i : BitVec 14) (s : State) : Out := ctl (wordOf (.sth d a i)) s (State.storeS d a i 2)
/-- STW (R219). -/
def execStw (d a : BitVec 6) (i : BitVec 14) (s : State) : Out := ctl (wordOf (.stw d a i)) s (State.storeS d a i 4)
/-- STD (R219). -/
def execStd (d a : BitVec 6) (i : BitVec 14) (s : State) : Out := ctl (wordOf (.std d a i)) s (State.storeS d a i 8)

/-- FLDD (R224): T = 53. -/
def execFldd (d : BitVec 5) (a : BitVec 6) (i : BitVec 14) (s : State) : Out :=
  ctl (wordOf (.fldd d a i)) s (State.loadF d a i 8 fun v => ⟨v, 53, false⟩)
/-- FLDW (R224): the binary32 form, T = 24. -/
def execFldw (d : BitVec 5) (a : BitVec 6) (i : BitVec 14) (s : State) : Out :=
  ctl (wordOf (.fldw d a i)) s (State.loadF d a i 4 fun v => ⟨v, 24, true⟩)

/-- A store of f[d] in a format: R156's conversion; a NaN is stored as R224 says and sets no flag. -/
def State.storeF (d : BitVec 5) (a : BitVec 6) (i : BitVec 14) (wide : Bool) (s : State) : State :=
  let (x, fl) := (s.th.fr d).opd wide (modeRnd s.th.mode)
  s.scalarStore (s.th.ea a i) (if wide then 8 else 4) (BitVec.ofNat 64 x.bits) (if x.val.isNan then 0 else fl)

/-- FSTD (R224). -/
def execFstd (d : BitVec 5) (a : BitVec 6) (i : BitVec 14) (s : State) : Out :=
  ctl (wordOf (.fstd d a i)) s (State.storeF d a i true)
/-- FSTW (R224). -/
def execFstw (d : BitVec 5) (a : BitVec 6) (i : BitVec 14) (s : State) : Out :=
  ctl (wordOf (.fstw d a i)) s (State.storeF d a i false)

end Sys2Proof.Machine
end

