-- ==== Sys2Proof/Machine/Atomics.lean ====
section
/-! DEFINITION. Acquire loads, release stores, atomics, bindings, the scratchpad tag table and prefetch: 04 R87 to R93,
R107, R112, 05 R113 to R115, 03 R77 to R79, 10 R225. -/
namespace Sys2Proof.Machine
open Sys2Proof

/-! ### Places of atomic execution: Table 5.1 -/

/-- The line that a write to a place notifies. -/
def Place.line : Place → Nat
  | .mem pa _ _ => memLine pa
  | .dev pa => memLine pa
  | .row c p _ => rowLine c p.toNat
  | .arr k => arrLine k

/-- The bytes of a place for an atomic operation of the thread in focus: memory at the home slice or the coordinator, the
core's L1 copy written back and dropped first (R68, R71, R113). -/
def State.atomRead (s : State) (q : Place) (n : Nat) : State × Nat :=
  match q with
  | .mem pa _ repl =>
    let s := (s.l1Drop s.th.tid.core (replicaFor s.th.tid.core pa repl)).eccRead false pa repl n
    let s := if repl = 0 then s else s.repFlush pa n
    (s.l2Touch pa, leVal (s.homeBytes pa n))
  | .row _ _ _ => let (s, bs) := s.placeRead q n; (s, leVal bs)
  | .arr key => (s, (look 0 s.arr key).toNat)
  | .dev pa => (s, leVal (memBytes s.mem pa n))

/-- Bytes written at the place of an atomic operation or a release. -/
def State.atomWrite (s : State) (q : Place) (bs : List Byte) : State :=
  match q with
  | .mem pa _ repl => s.homeWrite pa repl bs
  | .row c p b => (s.rowWrite c p.toNat b.toNat bs).wakePly c p.toNat
  | .arr key => s.arrPut key (BitVec.ofNat 64 (leVal bs))
  | .dev pa => if isMmio pa then s.mmioWrite pa (bs.length == 8) (BitVec.ofNat 64 (leVal bs))
      else State.notifyMem { s with mem := memWrite s.mem pa bs } pa bs.length

/-! ### Turns on a line: R107 -/

/-- Whether another thread holds the turn on a line. -/
def State.turnHeld (s : State) (t : Tid) (q : Place) : Bool :=
  match q with
  | .mem pa _ _ => match s.turns.find? fun x => x.1 = pa / 128 with
    | none => false
    | some (_, h) => h != t
  | .dev _ => false
  | .row _ _ _ => false
  | .arr _ => false

/-- Whether none of a thread's unperformed writes meets a line whose turn another thread holds. -/
def State.linesFree (s : State) (t : Thread) : Bool := (s.own t).all fun b => !s.turnHeld t.tid b.place

/-- The age count of a thread at a location. -/
def State.ageAt (s : State) (t : Tid) (pa : Nat) : BitVec 4 :=
  ((s.ages.find? fun x => x.tid = t && x.pa = pa).map (·.age)).getD 0

/-- An AMO of a thread applied at a line: it ends the thread's turn, and an AMOCAS that fails raises its age, which gives
a turn at 8. -/
def State.aged (s : State) (t : Tid) (q : Place) (fail : Bool) : State :=
  match q with
  | .mem pa _ _ =>
    let line := pa / 128
    let n := if fail then (if s.ageAt t pa = 15 then 15 else s.ageAt t pa + 1) else 0
    let rest := s.ages.filter fun x => !(x.tid = t && x.pa = pa)
    let turns := s.turns.filter fun x => !(x.1 = line && x.2 = t)
    { s with
      ages := if n = 0 then rest else rest ++ [⟨t, pa, n⟩],
      turns := if n = 8 then turns ++ [(line, t)] else turns }
  | .dev _ => s
  | .row _ _ _ => s
  | .arr _ => s

/-- A turn of 256 cycles ends: the next thread that qualified has it. -/
def State.turnExpiry (s : State) (line : Nat) : State :=
  match s.turns.findIdx? fun x => x.1 = line with
  | none => s
  | some i => { s with turns := s.turns.eraseIdx i }

/-! ### AMOs: R115 -/

/-- The place of an access that lies in one piece. -/
def onePlace (ps : List Piece) : Place := (ps.head?.map (·.place)).getD (.dev 0)

/-- A view row that a store of the thread's own writes is marked dirty (Table 3.5). -/
def Thread.dirtyRows (t : Thread) (ps : List Piece) : Thread := (t.viewRows ps).foldl (fun t e => t.markDirty e) t

/-- A dword or word sign-extended. -/
def sextN (n v : Nat) : Dword := signExt (BitVec.ofNat 64 v) (8 * n)

/-- An AMO on n bytes: the new value from the old value, s[b] and s[d] (Table 5.2). -/
def State.amo (d a b : BitVec 6) (w cas : Bool) (f : Nat → Nat → Nat → Nat → Nat) (s : State) : State :=
  let va := s.th.sr a
  let n := if w then 4 else 8
  if va.toNat % n ≠ 0 then s.raise (TrapInfo.mk0 cADDRALIGN va)
  else match s.resolve s.th .amo va n (!w) with
    | .error fs => s.accessFault fs false
    | .ok ps =>
      let q := onePlace ps
      match s.th.freeId with
      | none => s
      | some id =>
        let obj := s.bindingOf va
        if s.turnHeld s.th.tid q || !s.linesFree s.th || s.releaseWaits s.th (scopeOf obj) then s
        else
          let x := (s.th.sr b).toNat % 2 ^ (8 * n)
          let c := (s.th.sr d).toNat % 2 ^ (8 * n)
          let s := ps.foldl (fun s p => s.installPiece .amo p) (s.release obj)
          let (s, old) := s.atomRead q n
          let s := s.atomWrite q (leBytes n (f (8 * n) old x c))
          let s := s.aged s.th.tid q (cas && old != c)
          s.upd fun t =>
            let t := ((t.setS d (sextN n old) (idSet id)).take id false (some obj)).advance
            { (t.pin (t.viewRows ps)).dirtyRows ps with line := some q.line }

/-- The signed value of n bits. -/
def sval (n v : Nat) : Int := intOf n true v

/-- AMOADD (Table 5.2). -/
def execAmoadd (d a b : BitVec 6) (w : Bool) (s : State) : Out :=
  ctl (wordOf (.amoadd d a b w)) s (State.amo d a b w false fun n old x _ => (old + x) % 2 ^ n)
/-- AMOSWAP (Table 5.2). -/
def execAmoswap (d a b : BitVec 6) (w : Bool) (s : State) : Out :=
  ctl (wordOf (.amoswap d a b w)) s (State.amo d a b w false fun _ _ x _ => x)
/-- AMOCAS (Table 5.2). -/
def execAmocas (d a b : BitVec 6) (w : Bool) (s : State) : Out :=
  ctl (wordOf (.amocas d a b w)) s (State.amo d a b w true fun _ old x c => if old = c then x else old)
/-- AMOMIN (Table 5.2). -/
def execAmomin (d a b : BitVec 6) (w : Bool) (s : State) : Out :=
  ctl (wordOf (.amomin d a b w)) s (State.amo d a b w false fun n old x _ => if sval n x < sval n old then x else old)
/-- AMOMAX (Table 5.2). -/
def execAmomax (d a b : BitVec 6) (w : Bool) (s : State) : Out :=
  ctl (wordOf (.amomax d a b w)) s (State.amo d a b w false fun n old x _ => if sval n old < sval n x then x else old)
/-- AMOMINN (Table 5.2). -/
def execAmominn (d a b : BitVec 6) (w : Bool) (s : State) : Out :=
  ctl (wordOf (.amominn d a b w)) s (State.amo d a b w false fun _ old x _ => Nat.min old x)
/-- AMOMAXN (Table 5.2). -/
def execAmomaxn (d a b : BitVec 6) (w : Bool) (s : State) : Out :=
  ctl (wordOf (.amomaxn d a b w)) s (State.amo d a b w false fun _ old x _ => Nat.max old x)
/-- AMOAND (Table 5.2). -/
def execAmoand (d a b : BitVec 6) (w : Bool) (s : State) : Out :=
  ctl (wordOf (.amoand d a b w)) s (State.amo d a b w false fun _ old x _ => old &&& x)
/-- AMOOR (Table 5.2). -/
def execAmoor (d a b : BitVec 6) (w : Bool) (s : State) : Out :=
  ctl (wordOf (.amoor d a b w)) s (State.amo d a b w false fun _ old x _ => old ||| x)
/-- AMOXOR (Table 5.2). -/
def execAmoxor (d a b : BitVec 6) (w : Bool) (s : State) : Out :=
  ctl (wordOf (.amoxor d a b w)) s (State.amo d a b w false fun _ old x _ => old ^^^ x)

/-! ### LDACQ and STREL: R112 -/

/-- The bytes of a place read at the point of coherence of a scope (Table 3.2): for core scope as an ordinary read; for wider scopes
at the home slice, under the bytes that the issuing core's L1 holds dirty. The clean bytes of that line are then the home's, so that
no later read of the core returns an older write (R101). -/
def State.coherentRead (s : State) (scope : BitVec 3) (q : Place) : State × List Byte :=
  match q with
  | .mem pa cached repl =>
    if scope = 0 || !cached then s.placeRead q 8
    else
      let core := s.th.tid.core
      let (s, bs) := (s.eccRead false pa repl 8).homeRead core pa repl 8
      (s.l1Refresh core pa repl, s.l1Dirty core pa repl bs)
  | .dev _ => s.placeRead q 8
  | .row _ _ _ => s.placeRead q 8
  | .arr _ => s.placeRead q 8

/-- LDACQ (R112, R92). -/
def execLdacq (d a : BitVec 6) (s : State) : Out :=
  ctl (wordOf (.ldacq d a)) s fun s =>
    let va := s.th.sr a
    if va.extractLsb' 0 3 ≠ 0 then s.raise (TrapInfo.mk0 cADDRALIGN va)
    else match s.resolve s.th .read va 8 true with
      | .error fs => s.accessFault fs false
      | .ok ps =>
        match s.th.freeId with
        | none => s
        | some id =>
          let obj := s.bindingOf va
          let q := onePlace ps
          let s := ps.foldl (fun s p => s.installPiece .read p) (s.beforeRead false ps)
          let (s, bs) := s.coherentRead (scopeOf obj) q
          let bs := overlay (s.ownOf s.th false) q bs
          s.upd fun t =>
            let t := ((t.setS d (BitVec.ofNat 64 (leVal bs)) (idSet id)).take id false (some obj)).advance
            { t.pin (t.viewRows ps) with line := some q.line }

/-- The L1 copy of bytes written at their home slice by a release: updated and left clean (R91). -/
def State.l1Clean (s : State) (core : BitVec 12) (pa : Nat) (bs : List Byte) : State :=
  match s.l1Find core pa with
  | none => s
  | some way =>
    let set := pa / 128 % 256
    let w := s.l1At core set way
    let m := byteMask (pa % 128) bs.length
    s.l1Put core set way { w with data := rowSetBytes w.data (pa % 128) bs, dirty := w.dirty &&& ~~~ m }

/-- The value of a STREL performed at the point of coherence of its scope. -/
def State.coherentWrite (s : State) (scope : BitVec 3) (q : Place) (bs : List Byte) : State :=
  match q with
  | .mem pa cached repl =>
    if scope = 0 && cached then s.l1Write s.th.tid.core s.th.tid.slot pa repl bs
    else (s.l1Clean s.th.tid.core (replicaFor s.th.tid.core pa repl) bs).atomWrite q bs
  | .dev _ => s.atomWrite q bs
  | .row _ _ _ => s.atomWrite q bs
  | .arr _ => s.atomWrite q bs

/-- STREL (R112, R91). -/
def execStrel (a b : BitVec 6) (s : State) : Out :=
  ctl (wordOf (.strel a b)) s fun s =>
    let va := s.th.sr a
    if va.extractLsb' 0 3 ≠ 0 then s.raise (TrapInfo.mk0 cADDRALIGN va)
    else match s.resolve s.th .write va 8 false with
      | .error fs => s.accessFault fs false
      | .ok ps =>
        let q := onePlace ps
        let obj := s.bindingOf va
        if s.turnHeld s.th.tid q || !s.linesFree s.th || s.releaseWaits s.th (scopeOf obj) then s
        else
          let v := leBytes 8 (s.th.sr b).toNat
          let s := ps.foldl (fun s p => s.installPiece .write p) (s.release obj)
          (s.coherentWrite (scopeOf obj) q v).upd fun t => (t.dirtyRows ps).advance

/-! ### Bindings: R89, R90 -/

/-- Whether a range meets the conditions of R89. -/
def rangeOk (base len : Dword) : Bool :=
  let b := base.toNat
  let z := b + len.toNat - 1
  b % 128 == 0 && len.toNat % 128 == 0 && len != 0 && decide (b < 2 ^ 56) && decide (z < 2 ^ 56)
    && regionOf b != .near && regionOf z == regionOf b

/-- The dwords at an address read one after the other, as dword loads of the scalar stream. -/
def State.readDwords (s : State) (va : Dword) : Nat → Except (List XFault) (State × List Dword)
  | 0 => .ok (s, [])
  | n + 1 =>
    match s.resolve s.th .read va 8 true with
    | .error fs => .error fs
    | .ok ps =>
      let (s, bs) := (s.beforeRead false ps).readPieces false .read ps
      match s.readDwords (va + 8) n with
      | .error fs => .error fs
      | .ok (s, ds) => .ok (s, BitVec.ofNat 64 (leVal bs) :: ds)

/-- A descriptor's dwords: the first, then those of the NR + 1 ranges (Table 4.2). -/
def State.readDescriptor (s : State) (va : Dword) : Except (List XFault) (State × Dword × List Dword) :=
  match s.readDwords va 1 with
  | .error fs => .error fs
  | .ok (s, d0) =>
    let x := d0.headD 0
    match s.readDwords (va + 8) (2 * ((x.extractLsb' 4 2).toNat + 1)) with
    | .error fs => .error fs
    | .ok (s, ds) => .ok (s, x, ds)

/-- Dwords taken as pairs of base and length. -/
def pairUp : List Dword → List (Dword × Dword)
  | b :: l :: r => (b, l) :: pairUp r
  | [_] => []
  | [] => []

/-- The index of an object's entry, or the lowest free one (R89). -/
def Ctx.bindSlot (c : Ctx) (obj : Dword) : Option Nat :=
  match c.bindings.find? fun (_, b) => b.object = obj with
  | some (i, _) => some i
  | none => (List.range 64).find? fun i => !(c.bindings.any fun (j, _) => i = j)

/-- An entry of a binding table replaced or added, entries in the order of their indices. -/
def Ctx.bindPut (c : Ctx) (i : Nat) (b : Binding) : Ctx :=
  { c with bindings := c.bindings.filter (fun (j, _) => j < i) ++ [(i, b)] ++ c.bindings.filter (fun (j, _) => i < j) }

/-- BIND (R89). -/
def execBind (d a b : BitVec 6) (s : State) : Out :=
  ctl (wordOf (.bind d a b)) s fun s =>
    let obj := s.th.sr a
    let bad : TrapInfo := TrapInfo.mk0 cBINDBAD obj
    if obj.extractLsb' 0 3 ≠ 0 ∨ (s.th.sr b).extractLsb' 0 3 ≠ 0 then s.raise bad
    else match s.readDescriptor (s.th.sr b) with
      | .error fs => s.accessFault fs false
      | .ok (s', d0, ds) =>
        let rs := pairUp ds
        if d0.extractLsb' 6 58 ≠ 0 ∨ d0.getLsbD 3 ∨ 5 ≤ (d0.extractLsb' 0 3).toNat ∨ !(rs.all fun (x, y) => rangeOk x y)
        then s.raise bad
        else match (if s.th.priv then none else rs.find? fun (x, _) => regionOf x.toNat == .sup) with
          | some (x, _) => s.raise (TrapInfo.mk0 cPRIVSPACE x)
          | none =>
            let c := s.ctxAt s.th.ctx
            match c.bindSlot obj with
            | none => s.raise (TrapInfo.mk0 cBINDFULL obj)
            | some i =>
              (s'.ctxPut s.th.ctx (c.bindPut i ⟨obj, d0.extractLsb' 0 3, rs⟩)).upd fun t =>
                (t.setS d (BitVec.ofNat 64 i) 0).noRewind.advance

/-- UNBIND (R90). -/
def execUnbind (a : BitVec 6) (s : State) : Out :=
  ctl (wordOf (.unbind a)) s fun s =>
    let c := s.ctxAt s.th.ctx
    (s.ctxPut s.th.ctx { c with bindings := c.bindings.filter fun (_, b) => b.object ≠ s.th.sr a }).upd fun t =>
      t.noRewind.advance

/-! ### The scratchpad tag table: R77 to R79 -/

/-- log2 of the block size B = 128 n. -/
def Thread.blockLog (t : Thread) : Nat := 7 + t.log2n.toNat
def spV (x : Dword) : Bool := x.getLsbD 0
def spPin (x : Dword) : Bool := x.getLsbD 2
/-- The block address of an entry: TAG at its place. -/
def spTag (x : Dword) : Nat := (x.extractLsb' 7 49).toNat * 128

/-- An image as it is stored: reserved bits and TAG bits below log2 B are 0. -/
def Thread.spImage (t : Thread) (x : Dword) : Dword :=
  packFields [(spTag x / 2 ^ t.blockLog * 2 ^ t.blockLog / 128, 49, 7), ((x.extractLsb' 0 3).toNat, 3, 0)]

/-- An entry made the most recently used. -/
def Thread.spTouch (t : Thread) (i : Nat) : Thread :=
  let k := BitVec.ofNat 8 i
  { t with sporder := k :: t.sporder.filter (· ≠ k) }

def Thread.spAt (t : Thread) (i : Nat) : Dword := t.sptab.toList.getD i 0

/-- The victim of a miss and NOV (R78). -/
def Thread.spVictim (t : Thread) : Nat × Bool :=
  match (List.range 256).find? fun i => !spV (t.spAt i) with
  | some i => (i, false)
  | none => match t.sporder.reverse.find? fun i => !spPin (t.spAt i.toNat) with
    | some i => (i.toNat, false)
    | none => (0, true)

/-- SPLOOK (R78). -/
def execSplook (d a : BitVec 6) (s : State) : Out :=
  ctl (wordOf (.splook d a)) s fun s => s.upd fun t =>
    let va := ((t.sr a).extractLsb' 0 56).toNat
    let size := 2 ^ t.blockLog
    match (List.range 256).find? fun i => spV (t.spAt i) && spTag (t.spAt i) == va / size * size with
    | some i => ((t.spTouch i).setS d (BitVec.ofNat 64 (nearBase + size * i + va % size)) (t.sTaint a)).advance
    | none =>
      let (v, nov) := t.spVictim
      (t.setS d (packFields [(1, 1, 63), (if nov then 1 else 0, 1, 8), (v, 8, 0)]) (t.sTaint a)).advance

/-- SPSET (R79). -/
def execSpset (d a b : BitVec 6) (s : State) : Out :=
  ctl (wordOf (.spset d a b)) s fun s =>
    let t := s.th
    let x := t.spImage (t.sr a)
    let i := ((t.sr b).extractLsb' 0 8).toNat
    if spV x && (List.range 256).any fun j => j != i && spV (t.spAt j) && spTag (t.spAt j) == spTag x then
      s.raise (TrapInfo.mk0 cSPDUP (t.sr a))
    else s.upd fun t =>
      let t' := t.setS d (t.spAt i) (t.sTaint a ||| t.sTaint b)
      ({ t' with sptab := t.sptab.set! i x }.spTouch i).noRewind.advance

/-! ### PREFETCH: R225 -/

/-- A line brought into the L1 or the home slice; what would fault, other classes and the near window do nothing. -/
def State.prefetch (s : State) (va : Dword) : State :=
  match s.resolve s.th .read va 1 false with
  | .error _ => s
  | .ok [⟨.mem pa cached repl, _, _, some x⟩] =>
    let core := s.th.tid.core
    let s := s.install core s.th.ctx .read va x
    if cached then (s.l1Read core (pa / 128 * 128) repl 128).1 else (s.homeRead core (pa / 128 * 128) repl 128).1
  | .ok _ => s

/-- PREFETCH (R225). -/
def execPrefetch (a : BitVec 6) (s : State) : Out :=
  ctl (wordOf (.prefetch a)) s fun s => (s.prefetch (s.th.sr a)).upd Thread.advance

end Sys2Proof.Machine
end

