-- ==== Sys2Proof/Machine/Arrival.lean ====
section
/-! DEFINITION. Arrival words and the instructions on them: 05 R117 to R124. -/
namespace Sys2Proof.Machine
open Sys2Proof

/-! ### Arrival words: Table 5.3, R117, R118 -/

def arrGen (v : Dword) : BitVec 8 := v.extractLsb' 56 8
def arrTarget (v : Dword) : Nat := (v.extractLsb' 28 28).toNat
def arrCount (v : Dword) : Nat := (v.extractLsb' 0 28).toNat

/-- An arrival of b bytes: the image after it, and the ARRIVAL-OVERRUN it raises with SUB, INDEX and COUNT (R118,
Table 16.1). -/
def arrive (v : Dword) (b : Nat) : Dword × Option (BitVec 8 × Nat × Nat) :=
  if b = 0 then (v, none)
  else if arrTarget v = 0 then (v, some (1, b, 0))
  else
    let sum := arrCount v + b
    let k := sum / arrTarget v
    let c := sum % arrTarget v
    (packFields [((arrGen v).toNat + k, 8, 56), (arrTarget v, 28, 28), (c, 28, 0)],
      if 2 ≤ k ∨ (k = 1 ∧ c ≠ 0) then some (0, c, k) else none)

/-- The trap of an overrun at a word's address. -/
def overrun (va : Dword) (x : BitVec 8 × Nat × Nat) : TrapInfo :=
  { TrapInfo.mk0 cARROVR va with sub := x.1, index := BitVec.ofNat 32 x.2.1, count := BitVec.ofNat 32 x.2.2 }

/-- Whether n bytes from an offset of the near window lie in its usable ranges (Table 1.2). -/
def Thread.usable (t : Thread) (o n : Nat) : Bool :=
  decide (o + n ≤ 256 * t.n * 128) || (decide (0x100000 ≤ o) && decide (o + n ≤ 0x301000))

/-- The arrival word an address names for a thread, with the translation used (R10 to R12, R15). A word in a usable place that is
no arrival word's is ARRPLACE (R117). -/
def State.arrPlace (s : State) (t : Thread) (k : Kind) (va : Dword) : Except XFault (ArrPlace × Option Xl) :=
  let a := va.toNat
  if 2 ^ 56 ≤ a then .error (XFault.plain cADDRFORM va)
  else if regionOf a = .sup ∧ !t.priv then .error (XFault.plain cPRIVSPACE va)
  else if 2 ^ 56 ≤ a + 7 then .error (XFault.plain cADDRFORM va)
  else if regionOf a ≠ regionOf (a + 7) then .error (XFault.plain cNEARRANGE va)
  else if regionOf a = .near then
    let o := a - nearBase
    if 0x300000 ≤ o ∧ o + 8 ≤ 0x301000 then
      .ok (.page t.ctx (clusterOf t.tid.core) (BitVec.ofNat 9 ((o - 0x300000) / 8)), none)
    else .error (XFault.plain (if t.usable o 8 then cARRPLACE else cNEARRANGE) va)
  else match s.translate t.tid.core t.ctx k va with
    | .error f => .error f
    | .ok x =>
      if isHbm x.pa && x.cls == 1#2 && x.repl == 0#2 then .ok (.mem x.pa, some x) else .error (XFault.plain cARRPLACE va)

/-- The notification key and the place of an arrival word of this package. -/
def ArrPlace.place : ArrPlace → Place
  | .page c cl w => .arr (arrKey c cl w)
  | .mem pa => .mem pa false 0
  | .fabric _ => .dev 0

/-- The image of an arrival word at its place. -/
def State.arrImage (s : State) (p : ArrPlace) : Dword :=
  match p with
  | .page c cl w => look 0 s.arr (arrKey c cl w)
  | .mem pa => memDword s.mem pa
  | .fabric _ => 0

/-- An image written at its place, which notifies its waiters (R124). -/
def State.arrWrite (s : State) (p : ArrPlace) (v : Dword) : State :=
  match p with
  | .page c cl w => s.arrPut (arrKey c cl w) v
  | .mem pa => s.homeWrite pa 0 (leBytes 8 v.toNat)
  | .fabric _ => s

/-- An arrival of b bytes applied in one step of the word's order: 0 bytes change nothing (R118, R119). -/
def State.arrApply (s : State) (p : ArrPlace) (b : Nat) : State × Option (BitVec 8 × Nat × Nat) :=
  let (v, o) := arrive (s.arrImage p) b
  (if v = s.arrImage p then s else s.arrWrite p v, o)

/-- The translation of an arrival word installed. -/
def State.installArr (s : State) (k : Kind) (va : Dword) (x : Option Xl) : State :=
  match x with
  | none => s
  | some x => s.install s.th.tid.core s.th.ctx k va x

/-! ### The arrival instructions: R121 -/

/-- The checks of an arrival instruction, then its meaning at the word's place; it waits while no identifier is free, while
another thread holds the turn on the word's line, and as the release that it makes has to. -/
def State.arrOp (s : State) (va : Dword) (k : Kind) (release : Bool) (f : ArrPlace → BitVec 4 → State → State) : State :=
  if va.extractLsb' 0 3 ≠ 0 then s.raise (TrapInfo.mk0 cADDRALIGN va)
  else match s.arrPlace s.th k va with
    | .error x => s.accessFault [x] false
    | .ok (p, x) =>
      match s.th.freeId with
      | none => s
      | some id =>
        if s.turnHeld s.th.tid p.place || !s.linesFree s.th || (release && s.releaseWaits s.th (scopeOf (s.bindingOf va))) then s
        else f p id (s.installArr k va x)

/-- The image of an arrival word as its thread reads it: with its own unperformed stores (R101). -/
def State.arrSeen (s : State) (p : ArrPlace) : Dword :=
  BitVec.ofNat 64 (leVal (overlay (s.ownOf s.th false) p.place (leBytes 8 (s.arrImage p).toNat)))

/-- What is left of a buffered write that the scalar stream has seen when n bytes of memory are written after it. -/
def Buffered.without (b : Buffered) (pa n : Nat) : List Buffered :=
  match b.op, b.place with
  | .write bs, .mem qa c r =>
    if b.visible false && decide (qa < pa + n) && decide (pa < qa + bs.length) then
      (if qa < pa then [{ b with op := .write (bs.take (pa - qa)) }] else [])
        ++ (if pa + n < qa + bs.length then
          [{ b with place := .mem (pa + n) c r, op := .write (bs.drop (pa + n - qa)) }] else [])
    else [b]
  | _, _ => [b]

/-- Earlier stores of the thread in focus to n bytes of memory that are not performed are overtaken by a later write of its own, which
ends with those bytes (R101). -/
def State.overtake (s : State) (pa n : Nat) : State :=
  { s with
    drain := s.drain.flatMap fun (t, b) => if t = s.th.tid then (b.without pa n).map fun b => (t, b) else [(t, b)],
    th := { s.th with strip := { s.th.strip with buf := s.th.strip.buf.flatMap fun b => b.without pa n } } }

/-- ARRINIT (R122): TARGET set, COUNT 0, GEN kept. -/
def execArrinit (d a b : BitVec 6) (s : State) : Out :=
  ctl (wordOf (.arrinit d a b)) s fun s =>
    s.arrOp (s.th.sr a) .amo false fun p id s =>
      let v := s.arrSeen p
      let s := match p with
        | .page _ _ _ => s
        | .mem pa => if (s.own s.th).isEmpty then s else s.overtake pa 8
        | .fabric _ => s
      (s.arrWrite p (packFields [((arrGen v).toNat, 8, 56), ((s.th.sr b).toNat, 28, 28)])).upd fun t =>
        ((t.setS d v (idSet id)).take id false none).noRewind.advance

/-- ARRADD (R123): a release, then an arrival; its overrun is taken after it completes (R119). -/
def execArradd (d a b : BitVec 6) (s : State) : Out :=
  ctl (wordOf (.arradd d a b)) s fun s =>
    let va := s.th.sr a
    s.arrOp va .amo true fun p id s =>
      let obj := s.bindingOf va
      let n := ((s.th.sr b).extractLsb' 0 28).toNat
      let s := s.release obj
      let v := s.arrImage p
      let (s, o) := s.arrApply p n
      let s := (s.aged s.th.tid p.place false).upd fun t =>
        { ((t.setS d v (idSet id)).take id false (some obj)).advance with line := some p.place.line }
      match o with
      | none => s
      | some x => s.raise (overrun va x)

/-- ARRWAIT (R124): it commits the strip and sleeps on the word until GEN differs. -/
def execArrwait (d a b : BitVec 6) (s : State) : Out :=
  ctl (wordOf (.arrwait d a b)) s fun s =>
    let va := s.th.sr a
    s.arrOp va .read false fun p id s =>
      let obj := s.bindingOf va
      let s := s.commit
      let v := s.arrSeen p
      if arrGen v = (s.th.sr b).extractLsb' 0 8 then
        s.upd fun t => { t with sleep := .arrwait, line := some p.place.line }
      else s.upd fun t =>
        { ((t.setS d v (idSet id)).take id false (some obj)).advance with
          sleep := .awake, line := some p.place.line }

/-- A thread asleep in ARRWAIT reads its word again (R124). -/
def Thread.rearm (t : Thread) : Thread :=
  if t.sleep = .arrwait then { t with sleep := .arrread } else t

/-- A live thread of a slot changed. -/
def State.updThread (s : State) (t : Tid) (f : Thread → Thread) : State :=
  s.mapThreads fun x => if x.live && x.tid = t then f x else x

/-- ARRWAIT_WAKE (R124). -/
def execArrwaitWake (t : Tid) (s : State) : Out := agent (s.updThread t Thread.rearm)
/-- ARRWAIT_REREAD (R124): a waiter without a record. -/
def execArrwaitReread (t : Tid) (s : State) : Out := agent (s.updThread t Thread.rearm)

end Sys2Proof.Machine
end

