-- ==== Sys2Proof/Machine/Fabric.lean ====
section
/-! DEFINITION. Routes, export windows and frames: 01 R19 to R21, 14 R308, R309, R317, R319, R320. -/
namespace Sys2Proof.Machine
open Sys2Proof

/-! ### Fabric addresses and windows: R19 to R21 -/

def fabRank (a : Dword) : BitVec 16 := a.extractLsb' 48 16
def fabWindow (a : Dword) : BitVec 4 := a.extractLsb' 44 4
def fabOffset (a : Dword) : BitVec 44 := a.extractLsb' 0 44

/-- The physical address of n bytes at an offset of an export window, when the entry is valid, has the permission and holds
them; else whether only the permission lacks (R21). -/
def State.window (s : State) (w : BitVec 4) (o : BitVec 44) (n : Nat) (write : Bool) : Except Bool Nat :=
  let d0 := s.regs.exports.toList.getD (2 * w.toNat) 0
  let d1 := s.regs.exports.toList.getD (2 * w.toNat + 1) 0
  let size := ((d1.extractLsb' 16 28).toNat + 1) * 65536
  if !(exportDw0 d0 d1).getLsbD 63 || decide (size < o.toNat + n) then .error false
  else if !(if write then d0.getLsbD 62 else d0.getLsbD 61) then .error true
  else .ok ((d0.extractLsb' 16 32).toNat * 65536 + o.toNat)

/-- The arrival word of a window and offset in this package. -/
def State.windowWord (s : State) (x : BitVec 48) : Option ArrPlace :=
  match s.window (x.extractLsb' 44 4) (x.extractLsb' 0 44) 8 true with
  | .ok pa => if pa % 8 = 0 then some (.mem pa) else none
  | .error _ => none

/-! ### Routing slips and detours: R308, R309 -/

/-- Whether a slip is valid (Table 14.3). -/
def slipValid (x : Dword) : Bool :=
  x.getLsbD 63 && decide (x.extractLsb' 60 3 ≠ 0) && decide (x.extractLsb' 60 3 ≠ 7)

/-- The ports a slip names, hop by hop. -/
def slipPorts (x : Dword) : List (BitVec 3) :=
  (List.range (x.extractLsb' 60 3).toNat).map fun i => x.extractLsb' (3 * i) 3

/-- The slip to a package in a route table. -/
def State.slipIn (s : State) (frtbase : Dword) (rank : BitVec 16) : Dword :=
  memDword s.mem ((frtbase.extractLsb' 19 29).toNat * 0x80000 + 8 * rank.toNat)
/-- The slip of the route table to a package. -/
def State.slipTo (s : State) (rank : BitVec 16) : Dword := s.slipIn s.regs.frtbase rank

/-- Whether a package can be named: this one, or one with a valid slip. -/
def State.routed (s : State) (rank : BitVec 16) : Bool := rank == s.regs.pkrank || slipValid (s.slipTo rank)

/-- The port a frame leaves through, the ports that remain, and whether the next of them is the second hop of a detour: a dead link is
replaced by the two hops of its detour. None where the link is dead without a detour, and where the hop is a detour's own, which never
takes a detour (R309). -/
def State.leave (s : State) (ports : List (BitVec 3)) (second : Bool) : Option (BitVec 3 × List (BitVec 3) × Bool) :=
  match ports with
  | [] => none
  | p :: rest =>
    if s.fabric.alive.getLsbD p.toNat then some (p, rest, false)
    else if second then none
    else
      let d := s.regs.detour.toList.getD p.toNat 0
      let first := d.extractLsb' 0 3
      if d.getLsbD 7 && s.fabric.alive.getLsbD first.toNat then some (first, d.extractLsb' 3 3 :: rest, true) else none

/-! ### Frames: R320 -/

/-- A frame with the ports of its remaining route replaced, and whether the first of them is the second hop of a detour. -/
def Frame.route (f : Frame) (ps : List (BitVec 3)) (second : Bool) : Frame :=
  match f with
  | .copy x => .copy { x with ports := ps, detour := second }
  | .readReq x => .readReq { x with ports := ps, detour := second }
  | .readData x => .readData { x with ports := ps, detour := second }
  | .col x => .col { x with ports := ps, detour := second }

/-- The remaining route of a frame. -/
def Frame.ports : Frame → List (BitVec 3)
  | .copy x => x.ports
  | .readReq x => x.ports
  | .readData x => x.ports
  | .col x => x.ports

/-- Whether the next hop of a frame is the second of a detour. -/
def Frame.second : Frame → Bool
  | .copy x => x.detour
  | .readReq x => x.detour
  | .readData x => x.detour
  | .col x => x.detour

/-- The package that a frame comes from, or whose request its data answer. -/
def Frame.origin : Frame → BitVec 16
  | .copy x => x.origin
  | .readReq x => x.origin
  | .readData x => x.origin
  | .col x => x.origin

/-- A group whose frame a detour carries is marked REROUTED (Table 14.6). -/
def State.rerouted (s : State) (g : Option (BitVec 6)) : State :=
  match g with
  | none => s
  | some g => s.groupPut g { s.groupAt g with failure := (s.groupAt g).failure ||| 0x0040000000000000 }

/-- What a frame is to the package that sends it: its own or another's, its sequence number, its group and issuer, whether a delivery
receipt is due here. -/
structure Errand where
  own : Bool
  seq : Nat
  group : Option (BitVec 6)
  issuer : Option (Nat × BitVec 16 × BitVec 16 × Tid)
  due : Bool
  deriving DecidableEq, Repr

/-- A frame sent by a route; `none` when its first link is dead without a detour, or is a dead hop of one. -/
def State.sendFrame (s : State) (f : Frame) (ports : List (BitVec 3)) (e : Errand) : Option State :=
  (s.leave ports f.second).map fun (p, rest, detour) =>
    let s := if detour then s.rerouted e.group else s
    { s with fabric := { s.fabric with
      sent := s.fabric.sent ++
        [⟨p, f.route rest detour, e.own, e.seq, e.group, e.issuer, true, e.due, detour || f.second⟩] } }

/-- Whether a frame has been sent: the oldest 64 of a port that lack their hop receipt are on the wire, later ones wait (R320). -/
def State.onWire (s : State) (x : Sent) : Bool :=
  !x.hop || ((s.fabric.sent.filter fun y => y.port = x.port && y.hop).take 64).contains x

/-- The next sequence number of this package. -/
def State.nextFrame (s : State) : State := { s with fabric := { s.fabric with seq := s.fabric.seq + 1 } }

/-- A message sent. -/
def State.say (s : State) (m : Message) : State := { s with fabric := { s.fabric with messages := s.fabric.messages ++ [m] } }

/-- Entries of which no receipt is missing are kept no longer. -/
def keepSent (l : List Sent) : List Sent := l.filter fun x => x.hop || x.due

/-- HOP_RECEIPT_RX (R320): the oldest frame of the port is kept no longer by it. -/
def State.hopReceipt (s : State) (p : BitVec 3) : State :=
  match s.fabric.sent.findIdx? fun x => x.port = p && x.hop with
  | none => s
  | some i => { s with fabric := { s.fabric with
      sent := keepSent (s.fabric.sent.modify i fun x => { x with hop := false }) } }

/-- What applying a frame of another package gave, if it has been applied (R320). -/
def State.applied (s : State) (origin : BitVec 16) (seq : Nat) : Option (Option Overrun) :=
  (s.fabric.applied.find? fun (o, q, _) => o = origin && q = seq).map fun (_, _, x) => x

/-- Whether a frame of another package is applied for the first time (R320). -/
def State.fresh (s : State) (origin : BitVec 16) (seq : Nat) : Bool := (s.applied origin seq).isNone

/-- A frame of another package applied and receipted; its receipt goes along the route-table slip and carries the overrun of the
frame's arrival, for the thread that issued it (R119, R320; log 70). A frame that comes again is receipted as it was. -/
def State.receipt (s : State) (origin : BitVec 16) (seq : Nat) (ovr : Option Overrun) : State :=
  let ovr := (s.applied origin seq).getD ovr
  let s := if s.fresh origin seq then
      { s with fabric := { s.fabric with applied := s.fabric.applied ++ [(origin, seq, ovr)] } } else s
  if s.routed origin then s.say (.delivery origin seq ovr) else s

/-- A refusal returned to the origin of a transfer (R21). -/
def State.refuse (s : State) (origin : BitVec 16) (seq : Nat) (code : BitVec 8) : State :=
  if s.routed origin then s.say (.refusal origin seq code) else s

/-- A frame on its way to another package passed on through its next hop. Where that hop is dead without a detour, or is a dead hop of
one, the frame fails at link level, and its origin is told so (R308, R309, R317; log 70). -/
def State.pass (s : State) (f : Frame) (seq : Nat) : State :=
  (s.sendFrame f f.ports ⟨false, seq, none, none, false⟩).getD (s.refuse f.origin seq 4)

end Sys2Proof.Machine
end

