-- ==== Sys2Proof/Machine/Copy.lean ====
section
/-! DEFINITION. The copy instructions, their chunks and failures: 14 R301 to R307, with 05 R125 to R127 and 06 R152. -/
namespace Sys2Proof.Machine
open Sys2Proof

/-! ### Operands as runs of bytes at places -/

/-- A place some bytes further on. -/
def Place.shift (p : Place) (k : Nat) : Place :=
  match p with
  | .mem pa c r => .mem (pa + k) c r
  | .dev pa => .dev (pa + k)
  | .row c q b => .row c q (b + BitVec.ofNat 7 k)
  | .arr x => .arr x

/-- The runs of pieces that follow one another, with the grants under which rows are owned. -/
def State.runsOf (s : State) (off : Nat) : List Piece → List Run
  | [] => []
  | p :: ps =>
    let owner := match p.place with
      | .row c q _ => (s.ownerOf c q.toNat).map (·.grant)
      | .mem _ _ _ => none
      | .dev _ => none
      | .arr _ => none
    ⟨p.xl.map (·.key), p.place, p.len, off, owner⟩ :: s.runsOf (off + p.len) ps

/-- The part of a range's runs from byte o on, n bytes, counted from its own start. -/
def sliceRuns (rs : List Run) (o n : Nat) : List Run :=
  rs.filterMap fun r =>
    let lo := Nat.max o r.off
    let hi := Nat.min (o + n) (r.off + r.len)
    if lo < hi then some ⟨r.via, r.place.shift (lo - r.off), hi - lo, lo - o, r.owner⟩ else none

/-- A range refused by R10, R11 and R12 to R15: outside the space, in supervisor space, across regions; a near-window range
that reaches no row of the context (R14). -/
def State.rangeFault (s : State) (va : Dword) (n : Nat) : Option XFault :=
  let a := va.toNat
  if 2 ^ 56 ≤ a then some (XFault.plain cADDRFORM va)
  else if regionOf a = .sup ∧ !s.th.priv then some (XFault.plain cPRIVSPACE va)
  else if 2 ^ 56 < a + n then some (XFault.plain cADDRFORM va)
  else if regionOf a ≠ regionOf (a + n - 1) then some (XFault.plain cNEARRANGE va)
  else if regionOf a = .near then match s.nearPieces s.th .read va n false with
    | .error f => some f
    | .ok _ => none
  else none

/-- Whether a part of a range cannot be copied: it lies in MMIO (R18). What the host fails is met by the engine's reads. -/
def Xl.uncopied (x : Xl) : Bool := x.device && isMmio x.pa

/-- A range translated: its runs, and the faults of its pages (R303, step 5). -/
def State.rangeRuns (s : State) (k : Kind) (va : Dword) (n : Nat) : List XFault × List Run :=
  if n = 0 then ([], [])
  else if regionOf va.toNat = .near then match s.nearPieces s.th .read va n false with
    | .error f => ([f], [])
    | .ok ps => ([], s.runsOf 0 ps)
  else
    let parts : List (Except XFault Piece) := (s.pageParts s.th k va n).map fun (b, m, r) => match r with
      | .error f => .error f
      | .ok x => if x.uncopied then .error (XFault.plain cPHYSHOLE b) else .ok ⟨x.place, m, b, some x⟩
    let fs := parts.filterMap fun r => match r with
      | .error f => some f
      | .ok _ => none
    (fs, s.runsOf 0 (parts.filterMap fun r => match r with
      | .error _ => none
      | .ok p => some p))

/-- The translations of a range installed (R44, R45). -/
def State.installRange (s : State) (k : Kind) (va : Dword) (n : Nat) : State :=
  if n = 0 ∨ regionOf va.toNat = .near then s
  else (s.pageParts s.th k va n).foldl (fun s (b, _, r) => match r with
    | .error _ => s
    | .ok x => s.install s.th.tid.core s.th.ctx k b x) s

/-- A fault put in its place by address. -/
def insertFault (f : XFault) : List XFault → List XFault
  | [] => [f]
  | g :: gs => if g.va.toNat ≤ f.va.toNat then g :: insertFault f gs else f :: g :: gs

/-- Faults in address order. -/
def sortFaults (fs : List XFault) : List XFault := fs.foldr insertFault []

/-- Whether a line lies in a range of memory. -/
def runsHold (rs : List Run) (home : Nat) : Bool := rs.any fun r => match r.place with
  | .mem pa _ _ => pa / 128 == home / 128
  | .dev _ => false
  | .row _ _ _ => false
  | .arr _ => false

/-- The issuing core's L1 at the issue of a copy or collective: dirty bytes of the source written back, lines of the
destination written back and invalidated (R68, Table 3.1). -/
def State.flushFor (s : State) (src dst : List Run) : State :=
  let s := if src.isEmpty then s else s.l1Walk s.th.tid.core (fun _ w => runsHold src w.home) false
  if dst.isEmpty then s else s.l1Walk s.th.tid.core (fun _ w => runsHold dst w.home) true

/-! ### The engine's reads and writes: R125, R304 -/

/-- The bytes of a run where the engine reads them for a core: the home slice, the row, the device. -/
def State.runRead (s : State) (core : BitVec 12) (r : Run) : List Byte :=
  match r.place with
  | .mem pa _ repl => s.homeBytes (replicaFor core pa repl) r.len
  | .dev pa => memBytes s.mem pa r.len
  | .row c p b => rowBytes (s.rowAt (rowKey c p.toNat)) b.toNat r.len
  | .arr _ => []

/-- The bytes of several runs. -/
def State.runsRead (s : State) (core : BitVec 12) (rs : List Run) : List Byte := rs.flatMap fun r => s.runRead core r

/-- Whether bytes of a run that the engine reads hold an error that their code cannot correct: of a line (R62), of the groups of columns
of a row (R24; R305). -/
def State.runBad (s : State) (core : BitVec 12) (r : Run) : Bool :=
  match r.place with
  | .mem pa _ repl => s.poisoned (replicaFor core pa repl)
  | .dev _ => false
  | .row c p b => look 0 s.badCols (rowKey c p.toNat) &&& parityMask (8 * b.toNat) (8 * r.len) != 0
  | .arr _ => false

/-- The virtual address of a run at which the host fails the engine's read (R17). -/
def State.runHost (s : State) (r : Run) : Option Dword :=
  let at_ (pa : Nat) : Dword := (r.via.map fun k => k.va pa).getD (BitVec.ofNat 64 pa)
  match r.place with
  | .mem pa _ _ => if s.readFails pa r.len then some (at_ pa) else none
  | .dev pa => if s.hostFails pa r.len then some (at_ pa) else none
  | .row _ _ _ => none
  | .arr _ => none

/-- What the engine's reads do to the places they reach: a locked line is waited for (R72), its slice takes the line (R62), a drowsy ply
wakes (R14). -/
def State.settleRuns (s : State) (core : BitVec 12) (rs : List Run) : State := rs.foldl (fun s r => match r.place with
  | .mem pa _ repl => (s.homeRead core pa repl r.len).1
  | .dev _ => s
  | .row c p _ => s.wakePly c p.toNat
  | .arr _ => s) s

/-- The bytes of a run written by the engine. -/
def State.runWrite (s : State) (r : Run) (bs : List Byte) : State :=
  match r.place with
  | .mem pa _ repl => s.homeWrite pa repl bs
  | .dev pa => State.notifyMem { s with mem := memWrite s.mem pa bs } pa bs.length
  | .row c p b => (s.rowWrite c p.toNat b.toNat bs).wakePly c p.toNat
  | .arr _ => s

/-- Runs written with the bytes of their range. -/
def State.runsWrite (s : State) (rs : List Run) (bs : List Byte) : State :=
  rs.foldl (fun s r => s.runWrite r ((bs.drop r.off).take r.len)) s

/-- The row that a forwarding entry gives a row of its old plies (R152). -/
def Forward.row (f : Forward) (c : BitVec 12) (p : BitVec 12) : Option (BitVec 12 × BitVec 12) :=
  let n := 2 ^ f.log2n.toNat
  if f.old.core = c ∧ f.oldBase.toNat ≤ p.toNat / 256 ∧ p.toNat / 256 < f.oldBase.toNat + n then
    some (f.new.core, BitVec.ofNat 12 (physRow f.newBase n (logRow n (p.toNat / 256 - f.oldBase.toNat) (p.toNat % 256))))
  else none

/-- Where a row that was owned under a grant at issue is now, with the grant it is owned under: in place, or where the live forwarding
entries of the grant send it; or the failure code of R305, that of an entry that has expired or of a ply released since. -/
def State.follow (s : State) (o : Option Nat) : Nat → BitVec 12 → BitVec 12 →
    Except (BitVec 8) (BitVec 12 × BitVec 12 × Option Nat)
  | fuel, c, p =>
    if (s.ownerOf c p.toNat).any fun t => o == some t.grant then .ok (c, p, o)
    else match fuel with
      | 0 => .error 6
      | fuel + 1 =>
        match s.forwards.findSome? fun f => if o == some f.oldGrant then (f.row c p).map fun q => (f, q) else none with
        | some (f, c', p') => if f.live then s.follow (some f.newGrant) fuel c' p' else .error 3
        | none => .error 6

/-- A destination run where it lies now. -/
def State.locate (s : State) (r : Run) : Except (BitVec 8) Run :=
  match r.place with
  | .row c p b => (s.follow r.owner (s.forwards.length + 1) c p).map fun (c, p, o) => { r with place := .row c p b, owner := o }
  | .mem pa c x => .ok { r with place := .mem pa c x }
  | .dev pa => .ok { r with place := .dev pa }
  | .arr k => .ok { r with place := .arr k }

/-- A source run where it lies now. A row that is no longer owned under the grant of the issue is read where the forwarding entries send it,
or in place where a thread of the copy's context owns it (R14); else the chunk fails as for a destination (log 76). -/
def State.locateSource (s : State) (ctx : BitVec 16) (r : Run) : Except (BitVec 8) Run :=
  match s.locate r with
  | .ok r => .ok r
  | .error e => match r.place with
    | .row c p _ => if (s.ownerOf c p.toNat).any fun t => t.ctx == ctx then .ok r else .error e
    | .mem _ _ _ => .error e
    | .dev _ => .error e
    | .arr _ => .error e

/-- Whether a run lies in a row pinned by an open strip (R127, R346). -/
def State.pinned (s : State) (r : Run) : Bool :=
  match r.place with
  | .row c p _ => (s.ownerOf c p.toNat).any fun t =>
      t.strip.pins.contains (logRow t.n (p.toNat / 256 - t.base.toNat) (p.toNat % 256))
  | .mem _ _ _ => false
  | .dev _ => false
  | .arr _ => false

/-! ### The issuer of a chunk -/

/-- An asynchronous event for the thread of a group, rank and context that ran in a slot: running, saved, or gone (R119, R305). -/
def State.tellThread (s : State) (group : Nat) (rank ctx : BitVec 16) (at_ : Tid) (i : TrapInfo) : State :=
  match s.threads.find? fun t => t.group == group && t.rank == rank && t.ctx == ctx with
  | some t => s.async t.tid t.ctx i
  | none =>
    let mine (x : Saved) : Bool := x.group = group && x.rank = rank && x.ctx = ctx
    if s.saved.any mine then
      { s with saved := s.saved.map fun x => if mine x then { x with events := x.events ++ [i] } else x }
    else s.event i ctx at_

/-- An asynchronous event for the thread that issued a chunk. -/
def State.tellIssuer (s : State) (c : Chunk) (i : TrapInfo) : State := s.tellThread c.group c.rank c.ctx c.tid i

/-- A failure counted for CPYWAIT (R307). -/
def State.countFail (s : State) (c : Chunk) (code : BitVec 8) : State :=
  let more (n : BitVec 32) : BitVec 32 := if n = 0xFFFFFFFF then n else n + 1
  let s := s.mapThreads fun t => if t.live && c.of t then
    { t with copyFails := more t.copyFails, copyCode := if t.copyCode = 0 then code else t.copyCode } else t
  { s with saved := s.saved.map fun x => if x.group = c.group && x.rank = c.rank && x.ctx = c.ctx then
    { x with copyFails := more x.copyFails, copyCode := if x.copyCode = 0 then code else x.copyCode } else x }

/-- Chunk k ends; the last chunk of a copy sets its issuer's event flag (R212). -/
def State.dropChunk (s : State) (k : Nat) : State :=
  match s.chunks[k]? with
  | none => s
  | some c =>
    let s := { s with chunks := s.chunks.eraseIdx k }
    if s.chunks.any fun x => x.copy = c.copy then s
    else s.mapThreads fun t => if t.live && c.of t then t.signal else t

/-- Chunk k fails (R305): no arrival, and COPYERR. -/
def State.failChunk (s : State) (k : Nat) (code : BitVec 8) : State :=
  match s.chunks[k]? with
  | none => s
  | some c =>
    ((s.dropChunk k).countFail c code).tellIssuer c
      { TrapInfo.mk0 cCOPYERR c.dstVa with sub := code, count := 1 }

/-- Chunk k ends where the host fails a read of its source: its thread is told so by PHYSHOLE (R17), and CPYWAIT counts it as source data
in error (log 76). -/
def State.chunkHost (s : State) (k : Nat) (va : Dword) : State :=
  match s.chunks[k]? with
  | none => s
  | some c => ((s.dropChunk k).countFail c 1).tellIssuer c (TrapInfo.mk0 cPHYSHOLE va)

/-- Chunk k has performed its last byte: its arrival is applied (R118, R304). -/
def State.finishChunk (s : State) (k : Nat) : State :=
  match s.chunks[k]? with
  | none => s
  | some c =>
    let s := s.dropChunk k
    match c.arr with
    | none => s
    | some (p, va) =>
      let at_ : Option ArrPlace := match p with
        | .fabric a => s.windowWord (a.extractLsb' 0 48)
        | .page x y z => some (.page x y z)
        | .mem pa => some (.mem pa)
      match at_ with
      | none => s
      | some p =>
        let (s, o) := s.arrApply p c.len
        match o with
        | none => s
        | some x => s.tellIssuer c (overrun va x)

/-! ### A chunk's step: R304 -/

/-- Chunk k changed. -/
def State.setChunk (s : State) (k : Nat) (c : Chunk) : State := { s with chunks := s.chunks.set k c }

/-- A chunk's frame to another package, by the route table as it stood at issue, or its failure when the link is dead without a detour
(R305, R308, R320). -/
def State.sendChunk (s : State) (k : Nat) (c : Chunk) (f : Frame) (dest : BitVec 16) (ph : Nat → ChunkPhase) : State :=
  let seq := s.fabric.seq
  let slip := s.slipIn c.frtbase dest
  if !slipValid slip then s.failChunk k 4
  else match s.nextFrame.sendFrame f (slipPorts slip) ⟨true, seq, none, some (c.group, c.rank, c.ctx, c.tid), true⟩ with
    | none => s.failChunk k 4
    | some s => s.setChunk k { c with phase := ph seq }

/-- Whether a run of n bytes of memory holds an uncorrectable error. -/
def State.linesBad (s : State) (pa n : Nat) : Bool :=
  (List.range (memLine (pa + n - 1) + 1 - memLine pa)).any fun i => s.poisoned (pa + 128 * i)

/-- Why a chunk's source cannot be read: a code of R305, or a host error at a virtual address (R17). -/
inductive SourceFault where
  | code (c : BitVec 8)
  | host (va : Dword)
  deriving DecidableEq, Repr

/-- The source runs of a chunk of a context where they lie now. -/
def State.sourceRuns (s : State) (ctx : BitVec 16) : List Run → Except (BitVec 8) (List Run)
  | [] => .ok []
  | r :: rs => match s.locateSource ctx r, s.sourceRuns ctx rs with
    | .ok r, .ok rs => .ok (r :: rs)
    | .error e, _ => .error e
    | .ok _, .error e => .error e

/-- The source bytes of a chunk of this package, or why it has none. -/
def State.chunkBytes (s : State) (c : Chunk) : Except SourceFault (List Byte) :=
  match c.data, c.src with
  | some bs, _ => .ok bs
  | none, .runs rs => match s.sourceRuns c.ctx rs with
    | .error e => .error (.code e)
    | .ok rs => match rs.findSome? s.runHost with
      | some va => .error (.host va)
      | none => if rs.any (s.runBad c.tid.core) then .error (.code 1) else .ok (s.runsRead c.tid.core rs)
  | none, .fabric a => match s.window (fabWindow a) (fabOffset a) c.len false with
    | .ok pa => if s.linesBad pa c.len then .error (.code 1) else .ok (s.homeBytes pa c.len)
    | .error _ => .error (.code 2)
  | none, .beyond => .error (.code 2)

/-- What reading a chunk's source does to the places that it reaches. -/
def State.settleSource (s : State) (c : Chunk) : State :=
  match c.src with
  | .runs rs => match s.sourceRuns c.ctx rs with
    | .ok rs => s.settleRuns c.tid.core rs
    | .error _ => s
  | .fabric a => match s.window (fabWindow a) (fabOffset a) c.len false with
    | .ok pa => s.settleLocked pa c.len
    | .error _ => s
  | .beyond => s

/-- Whether the source lies in another package and has not been read. -/
def Chunk.remote (c : Chunk) : Option Dword :=
  match c.data, c.src with
  | none, .fabric a => if fabRank a = c.pkrank then none else some a
  | none, .runs _ => none
  | none, .beyond => none
  | some _, _ => none

/-- The bytes of a chunk put at their destination; those in pinned rows wait, and the arrival follows the last byte. -/
def State.deliverChunk (s : State) (k : Nat) (c : Chunk) (bs : List Byte) : State :=
  match c.dst with
  | .runs rs =>
    let at_ := rs.map s.locate
    match at_.findSome? fun r => match r with
      | .error e => some e
      | .ok _ => none with
    | some e => s.failChunk k e
    | none =>
      let rs : List Run := at_.filterMap fun r => match r with
        | .error _ => none
        | .ok r => some r
      let wait := rs.filter s.pinned
      let s' := s.runsWrite (rs.filter fun r => !s.pinned r) bs
      if wait.isEmpty then s'.finishChunk k else s'.setChunk k { c with dst := .runs wait, data := some bs }
  | .fabric a =>
    let word : Option (BitVec 48) := c.arr.map fun (_, w) => w.extractLsb' 0 48
    if fabRank a = c.pkrank then
      match s.window (fabWindow a) (fabOffset a) c.len true with
      | .error _ => s.failChunk k 2
      | .ok pa =>
        if word.any fun w => (s.windowWord w).isNone then s.failChunk k 2
        else (s.homeWrite pa 0 bs).finishChunk k
    else
      s.sendChunk k { c with data := some bs }
        (.copy ⟨fabRank a, fabWindow a, fabOffset a, bs, word, c.pkrank, s.fabric.seq, [], false⟩) (fabRank a) .sent
  | .beyond => s.failChunk k 2

/-- Whether a chunk can move: it waits for no other package, and some byte of it lies in no pinned row. -/
def State.chunkReady (s : State) (c : Chunk) : Bool :=
  c.phase == .ready && (match c.dst with
    | .fabric _ => true
    | .beyond => true
    | .runs rs => rs.isEmpty || rs.any fun r => match s.locate r with
      | .error _ => true
      | .ok r => !s.pinned r)

/-- The virtual address at which the host fails the read of a chunk's source, as the slices stand before the read. -/
def State.sourceHost (s : State) (c : Chunk) : Option Dword :=
  match s.chunkBytes c with
  | .error (.host va) => some va
  | .error (.code _) => none
  | .ok _ => none

/-- One step of chunk k: a remote read, or the delivery of its bytes. -/
def State.chunkStep (s : State) (k : Nat) : State :=
  match s.chunks[k]? with
  | none => s
  | some c =>
    if !s.chunkReady c then s
    else match c.remote with
      | some a =>
        s.sendChunk k c (.readReq ⟨fabWindow a, fabOffset a, BitVec.ofNat 13 c.len, c.pkrank, s.fabric.seq, [], false⟩)
          (fabRank a) .reading
      | none => match s.sourceHost c with
        | some va => s.chunkHost k va
        | none =>
          let s := s.settleSource c
          match s.chunkBytes c with
          | .error (.code e) => s.failChunk k e
          | .error (.host va) => s.chunkHost k va
          | .ok bs => s.deliverChunk k c bs

/-- The bytes that a chunk would write, when it has them or can read them in this package. A remote read that has not been answered gives
none, so nothing of it is performed (R21, R305). -/
def State.chunkData (s : State) (c : Chunk) : Option (List Byte) :=
  match c.remote, s.chunkBytes c with
  | none, .ok bs => some bs
  | none, .error _ => none
  | some _, _ => none

/-- Each byte of a failed chunk's destination holds its old value or the value it would have had (R305, log 7). -/
def State.partlyWrite (s : State) (k : Nat) : State :=
  match s.chunks[k]? with
  | none => s
  | some c => match c.dst, s.chunkData c with
    | .runs rs, some bs => rs.foldl (fun s' r => match s.locate r with
      | .error _ => s'
      | .ok r => (List.range r.len).foldl (fun s' i =>
        if s.pinned r || !Config.coin s.tick (r.off + i) then s'
        else s'.runWrite { r with place := r.place.shift i, len := 1 } ((bs.drop (r.off + i)).take 1)) s') s
    | .runs _, none => s
    | .fabric _, _ => s
    | .beyond, _ => s

/-- COPY_CHUNK (R304). -/
def execCopyChunk (k : Nat) (s : State) : Out := agent (s.chunkStep k)

/-- COPY_CHUNK_FAIL (R305): an uncorrectable error in the source data, or a link or path failure. -/
def execCopyChunkFail (k : Nat) (code : BitVec 8) (s : State) : Out := agent ((s.partlyWrite k).failChunk k code)

/-! ### Issue: R301 to R303 -/

/-- A copy form: which sides are near-window operands. -/
structure CopyForm where
  word : IWord
  nearDst : Bool
  nearSrc : Bool
  deriving DecidableEq, Repr

/-- The fields of the control word (Table 14.2). -/
def cwLen (x : Dword) : Nat := (x.extractLsb' 0 28).toNat
def cwMask (x : Dword) : BitVec 4 := x.extractLsb' 28 4
def cwAsync (x : Dword) : Bool := x.getLsbD 32
def cwFsrc (x : Dword) : Bool := x.getLsbD 33
def cwFdst (x : Dword) : Bool := x.getLsbD 34
def cwArr (x : Dword) : Bool := x.getLsbD 35

/-- Whether a range lies in the scratchpad view of the thread or in the cluster windows. -/
def Thread.nearOperand (_t : Thread) (va : Dword) (n : Nat) : Bool :=
  decide (nearBase ≤ va.toNat) &&
    (let o := va.toNat - nearBase
     decide (o + n ≤ 0x100000) || (decide (0x100000 ≤ o) && decide (o + n ≤ 0x300000)))

/-- Whether a range touches the near window. -/
def inNear (va : Dword) (n : Nat) : Bool :=
  decide (va.toNat < 0x0080000000000000) && decide (nearBase < va.toNat + n)

/-- CPYBAD: the value of the first offending operand (R303, step 1). -/
def Thread.cpyBad (t : Thread) (f : CopyForm) (d a b : BitVec 6) : Option Dword :=
  let x := t.sr b
  let n := cwLen x
  let dv := t.sr d
  let av := t.sr a
  let w := t.sr (b + 1)
  if n ≠ 0 ∧ f.nearDst ∧ !t.nearOperand dv n then some dv
  else if n ≠ 0 ∧ !f.nearDst ∧ !cwFdst x ∧ inNear dv n then some dv
  else if n ≠ 0 ∧ cwMask x ≠ 0 ∧ f.nearDst ∧ !(decide (nearBase + 0x100000 ≤ dv.toNat) &&
      decide (dv.toNat + n ≤ nearBase + 0x180000)) then some dv
  else if n ≠ 0 ∧ f.nearSrc ∧ !t.nearOperand av n then some av
  else if n ≠ 0 ∧ !f.nearSrc ∧ !cwFsrc x ∧ inNear av n then some av
  else if x.extractLsb' 36 28 ≠ 0 ∨ (cwFdst x ∧ f.nearDst) ∨ (cwFsrc x ∧ f.nearSrc) ∨ (cwMask x ≠ 0 ∧ !f.nearDst)
      ∨ (cwArr x ∧ b = 63) then some x
  else if cwArr x ∧ cwFdst x ∧ (fabRank w ≠ fabRank dv ∨ w.extractLsb' 0 3 ≠ 0) then some w
  else none

/-- The destinations of a copy: one, or one for each core of the multicast set at its own range (R302). -/
def copyDests (x dv : Dword) : List Dword :=
  if cwMask x = 0 then [dv]
  else (List.range 4).filterMap fun c => if (cwMask x).getLsbD c then some (dv + BitVec.ofNat 64 (c * 0x80000)) else none

/-- The local arrival word of a copy, with its translation (R303, steps 2 and 3); ARRPLACE reports s[a] (Table 16.1). -/
def State.copyWord (s : State) (w av : Dword) : Except XFault (ArrPlace × Option Xl) :=
  match s.arrPlace s.th .amo w with
  | .error f => .error (if f.code = cARRPLACE then { f with va := av } else f)
  | .ok r => if w.extractLsb' 0 3 ≠ 0 then .error (XFault.plain cARRPLACE av) else .ok r

/-- Whether two ranges of n bytes share an address. -/
def rangesMeet (a b : Dword) (n m : Nat) : Bool := decide (a.toNat < b.toNat + m) && decide (b.toNat < a.toNat + n)

/-- The copies of a core that its engine still holds (R303). -/
def State.copiesOf (s : State) (core : BitVec 12) : Nat :=
  ((s.chunks.filter fun c => c.tid.core = core).foldl (fun l c => if l.contains c.copy then l else c.copy :: l) []).length

/-- Whether the core's share of the copy engine is full. -/
def State.copyFull (s : State) : Bool := decide (16 ≤ s.copiesOf s.th.tid.core)

/-- Why a copy cannot be issued: a precise trap, or the faults of an address or of its pages. -/
inductive CopyFault where
  | trap (i : TrapInfo)
  | access (fs : List XFault)
  deriving DecidableEq, Repr

/-- What a copy will do: its source, its destinations with their addresses, its arrival word with the translation used. -/
structure CopyPlan where
  src : CopySide
  dsts : List (Dword × CopySide)
  arr : Option (ArrPlace × Dword)
  xl : Option Xl
  deriving DecidableEq, Repr

/-- The checks of R303 in order. -/
def State.copyPlan (s : State) (f : CopyForm) (d a b : BitVec 6) : Except CopyFault CopyPlan :=
  let t := s.th
  let x := t.sr b
  let n := cwLen x
  let dv := t.sr d
  let av := t.sr a
  let w := t.sr (b + 1)
  let dsts := copyDests x dv
  let virt : List (Dword × Bool) := (if cwFdst x then [] else dsts.map fun v => (v, true)) ++
    (if cwFsrc x then [] else [(av, false)])
  match t.cpyBad f d a b with
  | some v => .error (.trap (TrapInfo.mk0 cCPYBAD v))
  | none =>
    match (if n = 0 then none else virt.findSome? fun (v, _) => s.rangeFault v n) with
    | some e => .error (.access [e])
    | none =>
      match (if cwArr x && !cwFdst x then (s.copyWord w av).map some else .ok none) with
      | .error e => .error (.access [e])
      | .ok word =>
        if cwFdst x && !s.routed (fabRank dv) then .error (.trap (TrapInfo.mk0 cFABROUTE dv))
        else if cwFsrc x && !s.routed (fabRank av) then .error (.trap (TrapInfo.mk0 cFABROUTE av))
        else
          let side (v : Dword) (wr fab : Bool) : List XFault × CopySide :=
            if fab then ([], .fabric v)
            else let (fs, rs) := s.rangeRuns (if wr then .write else .read) v n; (fs, .runs rs)
          let src := side av false (cwFsrc x)
          let ds := dsts.map fun v => (v, side v true (cwFdst x))
          let faults := sortFaults ((ds.flatMap fun (_, fs, _) => fs) ++ src.1)
          if faults ≠ [] then .error (.access faults)
          else if !cwFdst x && !cwFsrc x && dsts.any (fun v => rangesMeet v av n n) then
            .error (.trap (TrapInfo.mk0 cCPYOVL dv))
          else .ok
            { src := src.2, dsts := ds.map fun (v, _, c) => (v, c),
              arr := if !cwArr x then none else if cwFdst x then some (.fabric w, w) else word.map fun (p, _) => (p, w),
              xl := word.bind (·.2) }

/-- A side's part of n bytes from byte o on. An offset of 2^44 or above lies in no window: its transfer is refused (R21). -/
def CopySide.part (c : CopySide) (o n : Nat) : CopySide :=
  match c with
  | .runs rs => .runs (sliceRuns rs o n)
  | .fabric a => if 2 ^ 44 ≤ (fabOffset a).toNat + o then .beyond else .fabric (a + BitVec.ofNat 64 o)
  | .beyond => .beyond

/-- The chunks of a copy: the bytes of each 4 KiB block of each destination (R304). -/
def copyChunks (t : Thread) (id : Nat) (x : Dword) (p : CopyPlan) (pkrank : BitVec 16) (frtbase : Dword) : List Chunk :=
  p.dsts.flatMap fun (v, c) => (cuts 4096 v.toNat (cwLen x)).map fun (at_, len) =>
    let o := at_ - v.toNat
    { copy := id, tid := t.tid, group := t.group, rank := t.rank, ctx := t.ctx, sync := !cwAsync x,
      dstVa := BitVec.ofNat 64 at_, src := p.src.part o len, dst := c.part o len, len := len, arr := p.arr, pkrank := pkrank,
      frtbase := frtbase, data := none, phase := .ready, arrVia := p.xl.map (·.key) }

/-- The runs of a side in this package. -/
def CopySide.local : CopySide → List Run
  | .runs rs => rs
  | .fabric _ => []
  | .beyond => []

/-- Precise faults of a copy or collective. -/
def State.copyFault (s : State) (f : CopyFault) : State :=
  match f with
  | .trap i => s.raise i
  | .access fs => s.accessFault fs true

/-- A copy issued (R303): its checks, the release, the L1, its chunks; a synchronous one holds the thread until its chunks
have ended (R306). -/
def copyWord (f : CopyForm) (d a b : BitVec 6) (s : State) : Out :=
  ctl f.word s fun s =>
    match s.copyPlan f d a b with
    | .error e => s.copyFault e
    | .ok p =>
      if s.copyFull then s
      else
        let x := s.th.sr b
        let n := cwLen x
        let s := s.settle
        let s := if cwFsrc x then s else s.installRange .read (s.th.sr a) n
        let s := if cwFdst x then s else s.installRange .write (s.th.sr d) n
        let s := s.installArr .amo (s.th.sr (b + 1)) p.xl
        let s := s.flushFor p.src.local (p.dsts.flatMap fun (_, c) => c.local)
        State.upd { s with chunks := s.chunks ++ copyChunks s.th s.nextCopy x p s.regs.pkrank s.regs.frtbase, nextCopy := s.nextCopy + 1 } fun t =>
          (if n = 0 then t.signal else t).advance

/-- The word of a copy instruction: major 0x39, R form (R301). -/
def cpyWordOf (d a b : BitVec 6) (fn : Nat) : IWord :=
  0xE4000000 + (d.setWidth 32 <<< 20) + (a.setWidth 32 <<< 14) + (b.setWidth 32 <<< 8) + BitVec.ofNat 32 fn

/-- CPYG2L (R301). -/
def execCpyg2l (d a b : BitVec 6) (s : State) : Out := copyWord ⟨cpyWordOf d a b 0, true, false⟩ d a b s
/-- CPYL2G (R301). -/
def execCpyl2g (d a b : BitVec 6) (s : State) : Out := copyWord ⟨cpyWordOf d a b 1, false, true⟩ d a b s
/-- CPYL2L (R301). -/
def execCpyl2l (d a b : BitVec 6) (s : State) : Out := copyWord ⟨cpyWordOf d a b 2, true, true⟩ d a b s
/-- CPYG2G (R301). -/
def execCpyg2g (d a b : BitVec 6) (s : State) : Out := copyWord ⟨cpyWordOf d a b 3, false, false⟩ d a b s

/-- Whether a chunk of the thread's copies has not ended. -/
def State.copying (s : State) (t : Thread) : Bool := s.chunks.any fun c => c.of t

/-- CPYWAIT (R307). -/
def execCpywait (d : BitVec 6) (s : State) : Out :=
  ctlWhen (cpyWordOf d 0 0 7) s (!s.copying s.th && s.th.freeId.isSome) fun s => s.upd fun t =>
    { (t.setS d (packFields [(t.copyFails.toNat, 32, 0), (t.copyCode.toNat, 8, 32)]) 0).advance with
      copyFails := 0, copyCode := 0 }

/-! ### Remote copies: R21, R320 -/

/-- An overrun as a receipt carries it. -/
def overrunOf (o : Option (BitVec 8 × Nat × Nat)) : Option Overrun := o.map fun (x, i, n) => ⟨x, i, n⟩

/-- COPY_DATA_FRAME_RX (R320): passed on, or checked and applied once, with a receipt or a refusal. -/
def execCopyDataFrameRx (p : BitVec 3) (f : CopyFrame) (s : State) : Out :=
  let s := s.say (.hop p)
  agent (
    if !f.ports.isEmpty then s.pass (.copy f) f.seq
    else if !s.fresh f.origin f.seq then s.receipt f.origin f.seq none
    else match s.window f.window f.offset f.data.length true, f.arr.map s.windowWord with
      | .error _, _ => s.refuse f.origin f.seq 2
      | .ok _, some none => s.refuse f.origin f.seq 2
      | .ok pa, some (some w) =>
        let (s, o) := (s.homeWrite pa 0 f.data).arrApply w f.data.length
        s.receipt f.origin f.seq (overrunOf o)
      | .ok pa, none => (s.homeWrite pa 0 f.data).receipt f.origin f.seq none)

/-- REMOTE_READ_REQUEST_RX (R320): passed on, or answered once with the data or a refusal, and receipted. Data that cannot be sent are
refused at link level, and data with an uncorrectable error as such (R305; log 70). -/
def execRemoteReadRequestRx (p : BitVec 3) (f : ReadFrame) (s : State) : Out :=
  let s := s.say (.hop p)
  agent (
    if !f.ports.isEmpty then s.pass (.readReq f) f.seq
    else if !s.fresh f.origin f.seq then s.receipt f.origin f.seq none
    else match s.window f.window f.offset f.len.toNat false with
      | .error perm => s.refuse f.origin f.seq (if perm then 7 else 2)
      | .ok pa =>
        let s := s.settleLocked pa f.len.toNat
        let slip := s.slipTo f.origin
        if s.linesBad pa f.len.toNat then s.refuse f.origin f.seq 1
        else if !slipValid slip then s
        else
          let s := s.receipt f.origin f.seq none
          (s.sendFrame (.readData ⟨f.origin, s.homeBytes pa f.len.toNat, f.origin, f.seq, [], false⟩) (slipPorts slip)
            ⟨false, f.seq, none, none, true⟩).getD (s.refuse f.origin f.seq 4))

/-- A frame delivered: its delivery receipt has come. -/
def State.delivered (s : State) (origin : BitVec 16) (seq : Nat) : State :=
  { s with fabric := { s.fabric with
    sent := keepSent (s.fabric.sent.map fun x =>
      if x.due && x.frame.origin = origin && x.seq = seq then { x with due := false } else x) } }

/-- REMOTE_READ_DATA_RX (R320): passed on, or receipted, and the bytes given to the chunk that asked for them; data that come again are
discarded. -/
def execRemoteReadDataRx (p : BitVec 3) (f : ReadDataFrame) (s : State) : Out :=
  let s := s.say (.hop p)
  agent (
    if !f.ports.isEmpty then s.pass (.readData f) f.seq
    else
      let s := s.say (.delivery f.origin f.seq none)
      match s.chunks.findIdx? fun c => c.phase = .reading f.seq with
      | none => s
      | some k => match s.chunks[k]? with
        | none => s
        | some c => (s.delivered f.origin f.seq).setChunk k { c with phase := .ready, data := some f.data })

end Sys2Proof.Machine
end

