-- ==== Sys2Proof/Machine/Collective.lean ====
section
/-! DEFINITION. Collective groups, their instructions and their engine: 14 R310 to R318. -/
namespace Sys2Proof.Machine
open Sys2Proof

/-- Whether both slips of a group with other ranks are valid. -/
def Group.routed (g : Group) : Bool := g.n == 1 || (slipValid g.dw[2] && slipValid g.dw[3])

/-! ### The addition of R315 -/

/-- partial + x in the wire format, rounded to nearest even, with its flags (R315). -/
def colAdd (fmt : Bool) (x y : Nat) : Nat × Flags :=
  let f := if fmt then Fmt.b32 else Fmt.bf16
  let r := f.finish 0 (fAdd 0 (f.read x) (f.read y))
  (r.bits, r.flags)

/-- Elements of m bytes added pair by pair. -/
def colReduce (fmt : Bool) (m : Nat) : Nat → List Byte → List Byte → List Byte × Flags
  | 0, _, _ => ([], 0)
  | k + 1, a, b =>
    let (r, fl) := colAdd fmt (leVal (a.take m)) (leVal (b.take m))
    let (rs, gl) := colReduce fmt m k (a.drop m) (b.drop m)
    (leBytes m r ++ rs, fl ||| gl)

/-! ### What an operation reads and writes here -/

/-- Flags raised for an operation, in the thread that issued it, running or saved (R315). -/
def State.colFlags (s : State) (o : ColOp) (fl : Flags) : State :=
  if fl = 0 then s
  else
    let s := s.mapThreads fun t => if t.live && o.of t then t.raiseFlags fl else t
    { s with saved := s.saved.map fun x =>
      if x.group = o.group && x.rank = o.rank && x.ctx = o.ctx then { x with flags := x.flags ||| fl } else x }

/-- Source bytes of an operation, read at the home slices for the issuing core (R70, R72). -/
def State.colRead (s : State) (o : ColOp) (at_ n : Nat) : State × List Byte :=
  let rs := sliceRuns o.src at_ n
  let s := s.settleRuns o.tid.core rs
  (s, s.runsRead o.tid.core rs)

/-- Whether they hold an uncorrectable error, which ends the group's work (Table 14.6). A read that the host fails ends it so too, and the
thread is told (R17, log 76). -/
def State.colBadData (s : State) (o : ColOp) : Bool :=
  o.src.any fun r => s.runBad o.tid.core r || (s.runHost r).isSome

/-- The thread of an operation told of a read of its source that the host fails. -/
def State.colHost (s : State) (o : ColOp) : State :=
  match o.src.findSome? s.runHost with
  | none => s
  | some va => s.tellThread o.group o.rank o.ctx o.tid (TrapInfo.mk0 cPHYSHOLE va)

/-- Bytes put into the destination of an operation at an offset. -/
def State.colWrite (s : State) (o : ColOp) (at_ : Nat) (bs : List Byte) : State :=
  s.runsWrite (sliceRuns o.dst at_ bs.length) bs

/-- Where a segment lies in the destination: COLRS has only its own. -/
def ColOp.destAt (o : ColOp) (n c : Nat) : Nat := if o.kind = 0 then 0 else (segAt o.count.toNat n o.m c).1

/-- The bytes of ring step i that this rank sends, once it has them: its own elements, or the result of the ring step
before. -/
def State.ringData (s : State) (g : Group) (o : ColOp) (i : Nat) : Option (State × List Byte) :=
  let c := o.sends g.n g.me i
  if o.kind = 3 then some (s.colRead o 0 o.count.toNat)
  else if i = 0 then
    let (at_, n) := segAt o.count.toNat g.n o.m c
    some (s.colRead o (if o.kind = 1 then 0 else at_) n)
  else (o.holds[i - 1]?).map fun bs => (s, bs)

/-! ### Slot receipts: R313 -/

/-- The slot receipts sent up to a number of steps; without a valid slip the group fails (R310). -/
def State.slotReceipts (s : State) (i : BitVec 6) (upto : Nat) : State :=
  let g := s.groupAt i
  if upto ≤ g.receiptsSent then s
  else if g.n = 1 then
    s.groupPut i { g with receiptsSent := upto, receiptsGot := Nat.max g.receiptsGot upto }
  else if !slipValid g.dw[3] then s.failGroup i 1 7 0 g.prevPk g.step
  else
    let ms := (List.range' g.receiptsSent (upto - g.receiptsSent)).map fun k => Message.slot i g.prevPk k
    State.groupPut { s with fabric := { s.fabric with messages := s.fabric.messages ++ ms } } i
      { g with receiptsSent := upto }

/-! ### Receiving: R312, R315 -/

/-- A step of COLROT received: the slot's word counts its bytes, and it belongs to the first COLROT of this rank that has
none yet. The overrun that its arrival makes. -/
def State.rotReceived (s : State) (i : BitVec 6) (len : Nat) : State × Option (BitVec 8 × Nat × Nat) :=
  let g := s.groupAt i
  let (s, ovr) := s.arrApply (.mem (g.slotWord g.received)) len
  let g := { g with received := g.received + 1, slotBytes := 0 }
  (match g.ops.findIdx? fun o => o.kind = 3 && o.owed with
   | none => s.groupPut i { g with early := g.early + 1 }
   | some k => s.groupPut i { g with ops := g.ops.modify k fun o => { o with owed := false } }, ovr)

/-- A ring step received: its bytes reduced or kept, stored where this rank stores them (R314, R315). -/
def State.ringReceived (s : State) (i : BitVec 6) (k : Nat) (o : ColOp) : State :=
  let g := s.groupAt i
  let r := o.holds.length
  let c := o.gets g.n g.me r
  let (at_, n) := segAt o.count.toNat g.n o.m c
  let (s, bs, fl) :=
    if o.reduces g.n r then
      let (s, x) := s.colRead o at_ n
      (s, colReduce o.fmt o.m (n / o.m) o.acc x)
    else (s, o.acc, 0)
  let s := s.colFlags o fl
  let s := if o.reduces g.n r && r + 2 ≠ g.n then s else s.colWrite o (o.destAt g.n c) bs
  s.groupPut i { g with ops := g.ops.set k { o with holds := o.holds ++ [bs], acc := [] } }

/-- A slot step of an engine's operation received: its bytes leave the slot, and it is receipted. -/
def State.slotReceived (s : State) (i : BitVec 6) (k : Nat) (o : ColOp) (bytes ring : Nat) : State :=
  let g := s.groupAt i
  let o := { o with acc := o.acc ++ memBytes s.mem (g.slotAt g.received) bytes }
  let s := s.groupPut i { g with received := g.received + 1, slotBytes := 0, ops := g.ops.set k o }
  let s := s.slotReceipts i (g.received + 1)
  if o.acc.length = ring then s.ringReceived i k o else s

/-- The first operation that has still to receive. -/
def Group.receiver (g : Group) : Option (Nat × ColOp) :=
  (g.ops.zipIdx.find? fun (o, _) => !o.allReceived g).map fun (o, k) => (k, o)

/-- A frame of a COLROT step in its slot, `got` bytes of the step being there. With the last of them the slot's word counts the step, and
the frame's receipt carries the overrun that this makes (R119, R312). -/
def State.rotFrame (s : State) (i : BitVec 6) (f : ColFrame) (got : Nat) : State :=
  if got = f.count.toNat then
    let (s, ovr) := s.rotReceived i got
    s.receipt f.origin f.seq (overrunOf ovr)
  else s.receipt f.origin f.seq none

/-- A frame of the step that the group receives next, put into its slot; `none` when its operation has not been issued
here, or the group has not come to it. A frame of another kind, E or FMT ends the operation (R311). -/
def State.takeFrame (s : State) (i : BitVec 6) (f : ColFrame) : Option State :=
  let g := s.groupAt i
  if f.step ≠ g.received then none
  else
    let s' := s.homeWrite (g.slotAt f.step + f.offset) 0 f.data
    let got := g.slotBytes + f.data.length
    let failed := s.failGroup i 3 3 0 g.prevPk f.step
    let wrong := some (if f.kind = 3 then failed.receipt f.origin f.seq none else failed)
    match g.receiver with
    | none => if f.kind = 3 then some ((s'.groupPut i { g with slotBytes := got }).rotFrame i f got) else none
    | some (k, o) =>
      if f.kind ≠ o.kind then wrong
      else if o.kind = 3 then some ((s'.groupPut i { g with slotBytes := got }).rotFrame i f got)
      else if f.count ≠ o.count ∨ f.fmt ≠ o.fmt then wrong
      else if !o.begun then none
      else
        let ring := o.bytesOf g.n (o.gets g.n g.me o.holds.length)
        let part := Nat.min g.slotSize (ring - o.acc.length)
        let s' := s'.groupPut i { g with slotBytes := got }
        some (if got = part then s'.slotReceived i k o part ring else s')

/-- The waiting frames whose step has come, taken in. -/
def State.takeFrames (s : State) (i : BitVec 6) : Nat → State
  | 0 => s
  | n + 1 =>
    let g := s.groupAt i
    match g.pendingFrames.zipIdx.findSome? fun (f, k) =>
        (State.takeFrame (s.groupPut i { g with pendingFrames := g.pendingFrames.eraseIdx k }) i f) with
    | none => s
    | some s => s.takeFrames i n

/-! ### Sending: R312, R313 -/

/-- What an operation stores of its own when the group comes to it: the source when N = 1, its own segment in COLAG (R314). -/
def State.colOwn (s : State) (g : Group) (o : ColOp) : State :=
  if o.kind = 3 then s
  else if g.n = 1 then
    let (s, bs) := s.colRead o 0 (o.m * o.count.toNat)
    s.colWrite o 0 bs
  else if o.kind = 1 then
    let (at_, n) := segAt o.count.toNat g.n o.m g.me
    let (s, bs) := s.colRead o 0 n
    s.colWrite o at_ bs
  else s

/-- The operation whose turn it is begins (R311); one whose source holds an uncorrectable error ends the group's work. -/
def State.colBegin (s : State) (i : BitVec 6) : State :=
  let g := s.groupAt i
  match g.turn with
  | none => s
  | some k => match g.ops[k]? with
    | none => s
    | some o =>
      if o.begun then s
      else if s.colBadData o then (s.colHost o).failGroup i 3 5 0 s.regs.pkrank g.step
      else State.colOwn (s.groupPut i { g with ops := g.ops.set k { o with begun := true } }) g o

/-- The parts of a slot step, each in a frame of at most 4 KiB. -/
def frameParts (bs : List Byte) : List (Nat × List Byte) :=
  (List.range (Nat.max 1 ((bs.length + 4095) / 4096))).map fun j => (4096 * j, (bs.drop (4096 * j)).take 4096)

/-- The frames of a slot step sent to the next rank. -/
def State.sendParts (s : State) (i : BitVec 6) (o : ColOp) (seg : Nat) : List (Nat × List Byte) → State
  | [] => s
  | (at_, bs) :: ps =>
    let g := s.groupAt i
    let seq := s.fabric.seq
    let f : Frame := .col ⟨g.nextPk, i, g.step, seg, o.kind, o.count, o.fmt, at_, bs, s.regs.pkrank, seq, [], false⟩
    match s.nextFrame.sendFrame f (slipPorts g.dw[2]) ⟨true, seq, some i, some (o.group, o.rank, o.ctx, o.tid), true⟩ with
    | none => s.failGroup i 1 4 ((slipPorts g.dw[2]).headD 0) g.nextPk g.step
    | some s => s.sendParts i o seg ps

/-- The group's counts after a slot step has been sent: a COLROT has read its source, so that the one of the next step, if it has been
issued, sends its receipt (R313). -/
def State.stepSent (s : State) (i : BitVec 6) (k : Nat) (o : ColOp) : State :=
  let g := s.groupAt i
  let s := s.groupPut i { g with step := g.step + 1, ops := g.ops.modify k fun o => { o with sent := o.sent + 1 } }
  if o.kind = 3 && (s.groupAt i).ops.any fun x => x.kind = 3 && x.step = g.step + 1 then s.slotReceipts i g.step else s

/-- The next slot step of the operation under way sent, when its bytes and its slot are ready; without a valid slip the group fails
(R310). With one rank a COLROT's step is its own, and the overrun that its arrival makes is its thread's (R119). -/
def State.sendStep (s : State) (i : BitVec 6) : Option State :=
  let s := s.colBegin i
  let g := s.groupAt i
  match g.turn with
  | none => none
  | some k => match g.ops[k]? with
    | none => none
    | some o => match slotStep g.slotSize (o.sendSizes g) o.sent 0 with
      | none => none
      | some (ring, at_, n) =>
        if !(decide (g.step < 2) || decide (g.step ≤ g.receiptsGot + 1)) then none
        else match s.ringData g o ring with
          | none => none
          | some (s, bs) =>
            let bs := (bs.drop at_).take n
            let seg := if o.kind = 3 then 0 else o.sends g.n g.me ring
            if g.n = 1 then
              let (s, ovr) := (s.homeWrite (g.slotAt g.step) 0 bs).rotReceived i bs.length
              let s := match ovr with
                | none => s
                | some x => s.tellThread o.group o.rank o.ctx o.tid (overrun (BitVec.ofNat 64 (g.slotWord g.step)) x)
              some (s.stepSent i k o)
            else if !slipValid g.dw[2] then some (s.failGroup i 1 7 0 g.nextPk g.step)
            else
              let s := s.sendParts i o seg (frameParts bs)
              some (if (s.groupAt i).failed then s else s.stepSent i k o)

/-- The operations that are carried out leave the group. -/
def State.colTidy (s : State) (i : BitVec 6) : State :=
  let g := s.groupAt i
  (s.colSignal (g.ops.filter fun o => o.allSent g && o.allReceived g)).groupPut i
    { g with ops := g.ops.filter fun o => !(o.allSent g && o.allReceived g) }

/-- A group's engine goes as far as it can: it begins the operation whose turn it is, sends what is ready, and takes in frames whose
step has come. -/
def State.colRun (s : State) (i : BitVec 6) : Nat → State
  | 0 => s.colTidy i
  | n + 1 =>
    if !(s.groupAt i).valid || (s.groupAt i).failed then s
    else
      let s := s.colBegin i
      match s.sendStep i with
      | some s => (s.colTidy i).colRun i n
      | none =>
        let s := ((s.takeFrames i ((s.groupAt i).pendingFrames.length + 1)).colTidy i).colBegin i
        match s.sendStep i with
        | none => s.colTidy i
        | some s => (s.colTidy i).colRun i n

/-- The engine's work after an event: no more steps than the receipts allow can be sent at once. -/
def State.colGo (s : State) (i : BitVec 6) : State := s.colRun i (2 * (s.groupAt i).ops.length + 4)

/-! ### The instructions: R311 -/

/-- The word of a collective instruction: major 0x3A, R form (R311). -/
def colWordOf (d a b : BitVec 6) (fn : Nat) : IWord :=
  0xE8000000 + (d.setWidth 32 <<< 20) + (a.setWidth 32 <<< 14) + (b.setWidth 32 <<< 8) + BitVec.ofNat 32 fn

/-- The group an operand names. -/
def colGroup (x : Dword) : BitVec 6 := x.extractLsb' 0 6

/-- The bytes of the source and of the destination of an operation (R312, R314). -/
def colSizes (kind : BitVec 2) (g : Group) (e m : Nat) : Nat × Nat :=
  if kind = 3 then (e, 0)
  else if kind = 0 then (m * e, (segAt e g.n m g.me).2)
  else if kind = 1 then ((segAt e g.n m g.me).2, m * e)
  else (m * e, m * e)

/-- Whether a range touches the near window or is a fabric address: one at or above 2^56, as R19 forms them (R311; log 70). -/
def colOperandBad (va : Dword) (n : Nat) : Bool := decide (2 ^ 56 ≤ va.toNat) || inNear va n

/-- COLBAD: the value of the first offending operand (R311, R316). -/
def State.colBad (s : State) (kind : BitVec 2) (d a b : BitVec 6) : Option Dword :=
  let t := s.th
  let x := t.sr b
  let g := s.groupAt (colGroup x)
  let e := (x.extractLsb' 8 28).toNat
  let m := if kind = 3 then 1 else if x.getLsbD 6 then 4 else 2
  let (sn, dn) := colSizes kind g e m
  if kind ≠ 3 ∧ ((t.sr d).toNat % m ≠ 0 ∨ colOperandBad (t.sr d) (Nat.max dn 1)) then some (t.sr d)
  else if (t.sr a).toNat % m ≠ 0 ∨ colOperandBad (t.sr a) (Nat.max sn 1) then some (t.sr a)
  else if x.extractLsb' 36 28 ≠ 0 ∨ x.getLsbD 7 ∨ (kind = 3 ∧ x.getLsbD 6) ∨ !g.valid ∨ g.failed ∨ !g.routed
      ∨ (kind ≠ 3 ∧ e = 0) ∨ (kind = 3 ∧ g.slotSize < e) then some x
  else none

/-- The checks of a collective (R303, R311): the runs of its source and destination, or its fault. -/
def State.colPlan (s : State) (kind : BitVec 2) (d a b : BitVec 6) : Except CopyFault (List Run × List Run) :=
  let t := s.th
  let x := t.sr b
  let g := s.groupAt (colGroup x)
  let e := (x.extractLsb' 8 28).toNat
  let m := if kind = 3 then 1 else if x.getLsbD 6 then 4 else 2
  let (sn, dn) := colSizes kind g e m
  match s.colBad kind d a b with
  | some v => .error (.trap (TrapInfo.mk0 cCOLBAD v))
  | none =>
    match (if dn = 0 then none else s.rangeFault (t.sr d) dn) <|> (if sn = 0 then none else s.rangeFault (t.sr a) sn) with
    | some f => .error (.access [f])
    | none =>
      let (df, dr) := s.rangeRuns .write (t.sr d) dn
      let (sf, sr) := s.rangeRuns .read (t.sr a) sn
      let faults := sortFaults (df ++ sf)
      if faults ≠ [] then .error (.access faults)
      else if sn ≠ 0 ∧ dn ≠ 0 ∧ rangesMeet (t.sr d) (t.sr a) dn sn then .error (.trap (TrapInfo.mk0 cCPYOVL (t.sr d)))
      else .ok (sr, dr)

/-- A collective issued (R311): its checks, the release, the L1; it joins the operations of its group. A step of COLROT received before
it, for which this rank issues another kind, is a mismatch. -/
def colIssue (kind : BitVec 2) (d a b : BitVec 6) (s : State) : Out :=
  ctl (colWordOf d a b kind.toNat) s fun s =>
    match s.colPlan kind d a b with
    | .error f => s.copyFault f
    | .ok (src, dst) =>
      let x := s.th.sr b
      let i := colGroup x
      let s := s.settle
      let (sn, dn) := colSizes kind (s.groupAt i) (x.extractLsb' 8 28).toNat
        (if kind = 3 then 1 else if x.getLsbD 6 then 4 else 2)
      let s := (s.installRange .read (s.th.sr a) sn).installRange .write (s.th.sr d) dn
      let s := s.flushFor src dst
      let g := s.groupAt i
      let steps := g.step + (g.ops.foldl (fun n o => n + ((o.sendSizes g).foldl (fun n b => n + slotSteps g.slotSize b) 0) - o.sent) 0)
      let o : ColOp := ⟨s.th.group, s.th.rank, s.th.ctx, kind, src, dst, x.extractLsb' 8 28, x.getLsbD 6,
        s.th.tid, false, steps, 0, kind == 3 && g.early == 0, [], []⟩
      let s := s.groupPut i { g with ops := g.ops ++ [o], early := if kind = 3 then g.early - 1 else g.early }
      let s := if kind = 3 ∧ 2 ≤ steps ∧ steps ≤ g.step then s.slotReceipts i (steps - 1) else s
      let s := if kind ≠ 3 ∧ g.early ≠ 0 then s.failGroup i 3 3 0 g.prevPk g.received else s
      (s.colGo i).upd fun t => (if kind = 3 then t.setS d (BitVec.ofNat 64 steps) 0 else t).advance

/-- COLRS (R314). -/
def execColrs (d a b : BitVec 6) (s : State) : Out := colIssue 0 d a b s
/-- COLAG (R314). -/
def execColag (d a b : BitVec 6) (s : State) : Out := colIssue 1 d a b s
/-- COLAR (R314). -/
def execColar (d a b : BitVec 6) (s : State) : Out := colIssue 2 d a b s
/-- COLROT (R312). -/
def execColrot (d a b : BitVec 6) (s : State) : Out := colIssue 3 d a b s

/-- Whether an operation of a thread on a group is not complete at this rank: it has still to send or to perform bytes of
its destination, or a frame that this rank sent has no delivery receipt (R316). -/
def State.colBusy (s : State) (t : Thread) (i : BitVec 6) : Bool :=
  let g := s.groupAt i
  (g.ops.any fun o => o.of t && !o.over g)
    || (s.fabric.sent.any fun f => f.group = some i && f.own && f.due && f.of t)

/-- The failure record, or 0. -/
def Group.status (g : Group) : Dword := if g.failed then g.failure else 0

/-- COLWAIT (R313, R316): it sends the receipts for the steps received, and then waits. -/
def execColwait (d a : BitVec 6) (s : State) : Out :=
  ctl (colWordOf d a 0 4) s fun s =>
    let i := colGroup (s.th.sr a)
    let s := if s.th.sleep ≠ .colwait i && (s.groupAt i).valid && !(s.groupAt i).failed then
        (s.slotReceipts i (s.groupAt i).received).colGo i else s
    if (!(s.groupAt i).failed && s.colBusy s.th i) || s.th.freeId.isNone then s.upd fun t => { t with sleep := .colwait i }
    else s.upd fun t => { (t.setS d (s.groupAt i).status 0).advance with sleep := .awake }

/-- COLSTAT (R318). -/
def execColstat (d a : BitVec 6) (s : State) : Out :=
  ctl (colWordOf d a 0 5) s fun s =>
    s.upd fun t => (t.setS d (s.groupAt (colGroup (t.sr a))).failure 0).advance

/-! ### Events of groups and links: R313, R315 to R320 -/

/-- COLLECTIVE_DATA_FRAME_RX (R315): passed on, or applied once; a frame of a group that is not in service is refused. A frame is receipted
as it is taken in, one of a COLROT once its bytes are in the slot, for its receipt carries the overrun of its arrival (R119, log 70). -/
def execCollectiveDataFrameRx (p : BitVec 3) (f : ColFrame) (s : State) : Out :=
  let s := s.say (.hop p)
  let g := s.groupAt f.group
  agent (
    if !f.ports.isEmpty then s.pass (.col f) f.seq
    else if !s.fresh f.origin f.seq then s.receipt f.origin f.seq none
    else if !g.valid then s.refuse f.origin f.seq 2
    else if g.failed then s.receipt f.origin f.seq none
    else if g.pendingFrames.any fun x => x.origin = f.origin && x.seq = f.seq then s
    else
      let s := if f.kind = 3 then s else s.receipt f.origin f.seq none
      (s.groupPut f.group { g with pendingFrames := g.pendingFrames ++ [f] }).colGo f.group)

/-- SLOT_RECEIPT_RX (R313). -/
def execSlotReceiptRx (i : BitVec 6) (step : Nat) (s : State) : Out :=
  let g := s.groupAt i
  agent ((s.groupPut i { g with receiptsGot := Nat.max g.receiptsGot (step + 1) }).colGo i)

/-- HOP_RECEIPT_RX (R320). -/
def execHopReceiptRx (p : BitVec 3) (s : State) : Out := agent (s.hopReceipt p)

/-- The chunk that waits for a frame. -/
def State.chunkOf (s : State) (seq : Nat) : Option Nat :=
  s.chunks.findIdx? fun c => c.phase = .sent seq || c.phase = .reading seq

/-- The frame that a receipt or refusal of an origin and number names: one on the wire whose delivery receipt is due here. -/
def State.awaited (s : State) (origin : BitVec 16) (seq : Nat) : Option Sent :=
  s.fabric.sent.find? fun x => x.due && x.frame.origin = origin && x.seq = seq && s.onWire x

/-- The chunk whose copy frame has been delivered ends, its arrival counted at the word's package; the overrun that the arrival made is
its thread's (R119). -/
def State.chunkDelivered (s : State) (seq : Nat) (ovr : Option Overrun) : State :=
  match s.chunks.findIdx? fun c => c.phase = .sent seq with
  | none => s
  | some k =>
    let told : State := match (s.chunks[k]? : Option Chunk), ovr with
      | some c, some x => s.tellIssuer c (overrun ((c.arr.map fun (_, va) => va).getD 0) (x.sub, x.index, x.count))
      | some _, none => s
      | none, _ => s
    told.dropChunk k

/-- The overrun that a COLROT's step made at the next rank's slot word told to its thread (R119, R312). The address that names the word there
is open here: a free value (log 70). -/
def State.stepDelivered (s : State) (x : Sent) (ovr : Option Overrun) : State :=
  match x.group, x.issuer, ovr with
  | some _, some (g, r, c, t), some o =>
    s.tellThread g r c t (overrun ((Config.freeBits s.tick 65538).extractLsb' 0 64) (o.sub, o.index, o.count))
  | _, _, _ => s

/-- DELIVERY_RECEIPT_RX (R320): the frame has been applied. A receipt of another package's frame is passed on towards it. -/
def execDeliveryReceiptRx (origin : BitVec 16) (r : Delivery) (s : State) : Out :=
  agent (match s.awaited origin r.seq with
    | some x =>
      let s := s.delivered origin r.seq
      if x.own then (s.chunkDelivered r.seq r.ovr).stepDelivered x r.ovr else s
    | none => if origin ≠ s.regs.pkrank && s.routed origin then s.say (.delivery origin r.seq r.ovr) else s)

/-- A frame that is given up: its entry leaves; its chunk fails with a code, or its group at a level. A frame of another package is
refused to it, at link level or by its path. -/
def State.frameLost (s : State) (x : Sent) (code : BitVec 8) (level cause : Nat) (port : BitVec 3) : State :=
  let s := { s with fabric := { s.fabric with sent := s.fabric.sent.filter (· ≠ x) } }
  if !x.own then s.refuse x.frame.origin x.seq code
  else match x.group with
    | some i => s.failGroup i level cause port (s.groupAt i).nextPk (s.groupAt i).step
    | none => match s.chunkOf x.seq with
      | none => s
      | some k => (s.partlyWrite k).failChunk k code

/-- REFUSAL_RX (R21, R305, R317): of a frame that failed at link level on its way, with code 4, or of a transfer that the receiver
refused; a read whose request has been receipted may be refused still. A refusal for another package is passed on towards it. -/
def execRefusalRx (origin : BitVec 16) (seq : Nat) (code : BitVec 8) (s : State) : Out :=
  agent (
    if origin ≠ s.regs.pkrank && (s.awaited origin seq).isNone then s.refuse origin seq code
    else match s.awaited origin seq with
      | some x => if code = 4 then s.frameLost x 4 1 4 x.port else s.frameLost x code 3 2 x.port
      | none => match s.chunks.findIdx? fun c => c.phase = .reading seq with
        | none => s
        | some k => s.failChunk k code)

/-- The frames of a dead link sent again through the detour; without one, or on a dead detour hop, they fail at link level
(R309, R317). -/
def State.relink (s : State) (p : BitVec 3) : State :=
  (s.fabric.sent.filter fun x => x.port = p && x.hop).foldl (fun s x =>
    if !(s.fabric.sent.contains x) then s
    else match s.leave (p :: x.frame.ports) x.detoured with
      | none => s.frameLost x 4 1 4 p
      | some (q, rest, detour) =>
        let s := s.rerouted x.group
        { s with fabric := { s.fabric with
          sent := s.fabric.sent.map fun y => if y = x then
            { x with port := q, frame := x.frame.route rest detour, detoured := true } else y } }) s

/-- LINK_TIMEOUT (R317): 20 µs without a hop receipt. -/
def execLinkTimeout (p : BitVec 3) (s : State) : Out := agent ((s.portDead p).relink p)
/-- LINK_DOWN (R317): the link leaves the active state. -/
def execLinkDown (p : BitVec 3) (s : State) : Out := agent ((s.portDead p).relink p)
/-- LINK_TRAINED (R319). -/
def execLinkTrained (p : BitVec 3) (s : State) : Out :=
  agent { s with fabric := { s.fabric with alive := s.fabric.alive ||| (1#8 <<< p.toNat) } }

/-- PATH_TIMEOUT (R317): 100 µs without a delivery receipt. -/
def execPathTimeout (seq : Nat) (s : State) : Out :=
  agent (match s.fabric.sent.find? fun x => x.due && x.seq = seq && s.onWire x with
    | none => s
    | some x => s.frameLost x 5 2 1 x.port)

/-- Whether an operation of a group waits for a frame or a slot receipt of another rank (R317). -/
def Group.waiting (g : Group) : Bool :=
  g.ops.any fun o => !o.allSent g || (o.kind != 3 && !o.allReceived g)

/-- GROUP_TIMEOUT (R317): with GTO = 1, an operation has waited 1 ms; the silent member is the one it waits for. -/
def execGroupTimeout (i : BitVec 6) (s : State) : Out :=
  let g := s.groupAt i
  agent (
    if !g.gto || !g.waiting || !g.valid then s
    else s.failGroup i 3 1 0 (if (g.receiver.any fun (_, o) => o.kind ≠ 3) then g.prevPk else g.nextPk) g.step)

/-- GROUP_ENABLE (R310). -/
def execGroupEnable (i : BitVec 6) (v : Dword) (s : State) : Out := agent ((s.groupEnable i v).colGo i)
/-- GROUP_WITHDRAW (R310). -/
def execGroupWithdraw (i : BitVec 6) (v : Dword) (s : State) : Out := agent (s.groupWithdraw i v)

end Sys2Proof.Machine
end

