-- ==== Sys2Proof/Machine/VInt.lean ====
section
/-! DEFINITION. Integer field arithmetic: 11 R241 to R244. -/
namespace Sys2Proof.Machine
open Sys2Proof

/-- The width a type asks of its field operands (R169). -/
def VCtx.wreq (c : VCtx) : WidthReq :=
  match c.ty.width c.nf with
  | none => .any
  | some w => .exact w

/-- The operand fields of the unary and binary V forms. -/
def vops1 (d a : BitVec 6) (c : VCtx) : List Opnd := [⟨0, d, c.wreq, .dst⟩, ⟨1, a, c.wreq, .src⟩]
def vops2 (d a : BitVec 6) (b : BOp) (c : VCtx) : List Opnd :=
  vops1 d a c ++ b.vfield.map fun v => ⟨2, v, c.wreq, .src⟩

/-- The work field as the last operand, at least `w` wide (R237). -/
def workOp (w : Nat) : Opnd := ⟨4, workField, .range w 64, .work⟩

/-- A value of the class at its own width; pairs by halves. -/
def classVal (c : VCtx) (w x : Nat) : Int := intOf w c.ty.signed x

/-- An integer element: each half of a pair by itself (R172), else the class's value at its own width; fitted to the
destination (R170). `g` takes the old destination, a and b with their widths. -/
def intElt (d a : BitVec 6) (vb : BitVec 6) (sat : Bool) (g : Int → Int → Int → Int) (c : VCtx) (s : State) (bv : BVal)
    (e : Nat) : EOut :=
  let wd := (s.th.ent d).width.toNat
  let wa := (s.th.ent a).width.toNat
  let x := (s.elt a 0 e).bits
  let z := (s.elt d 0 e).bits
  let (y, wb) := s.bElt c bv vb e
  if c.ty.isPair then
    let h := c.ty.half
    let half (i : Nat) : Nat × Flags :=
      let p (v : Nat) := intOf h true (v >>> (h * i))
      fit h true sat (g (p z) (p x) (p y.bits))
    let (lo, f0) := half 0
    let (hi, f1) := half 1
    ⟨lo + hi <<< h, none, f0 ||| f1⟩
  else
    let (r, fl) := fit wd c.ty.signed sat (g (classVal c wd z) (classVal c wa x) (classVal c wb y.bits))
    ⟨r, none, fl⟩

/-- An integer instruction of the VINT major. -/
def intEw (d a : BitVec 6) (b : Option BOp) (accept : EType → Bool) (work : Option Nat) (sum : Bool)
    (g : Int → Int → Int → Int) : Ew :=
  { accept := accept,
    ops := fun c => (match b with | none => vops1 d a c | some b => vops2 d a b c)
      ++ (match work with | none => [] | some w => [workOp w]),
    nfs := fun _ => [], dst := d, reads := a :: (match b with | none => [] | some b => b.vfield), b := b,
    work := work.isSome, all := false, check := false,
    run := fun c => !(sum && c.ty.isInt && !c.sat), long := false,
    elt := fun c s => intElt d a (match b with | none => 0 | some b => b.num) c.sat g c s }

/-- The types of most VINT instructions: integers, and pairs by halves (Table 11.3). -/
def intOrPair (t : EType) : Bool := t.isInt || t.isPair
/-- Integers and raw bits. -/
def intOrRaw (t : EType) : Bool := t.isInt || t.isRaw

/-- Whether vd, va and vb are one field (Table 11.12). -/
def oneField (s : State) (d a : BitVec 6) (b : BOp) : Bool :=
  s.th.ent d == s.th.ent a && (match b with
    | .field v => s.th.ent v == s.th.ent d
    | .sreg _ => false
    | .freg _ => false
    | .rep _ _ => false)

/-- A division's element: R243. -/
def divElt (d a vb : BitVec 6) (f : Nat → Bool → Int → Int → Int × Flags) (c : VCtx) (s : State) (bv : BVal) (e : Nat) :
    EOut :=
  let wd := (s.th.ent d).width.toNat
  let x := classVal c (s.th.ent a).width.toNat (s.elt a 0 e).bits
  let (y, wb) := s.bElt c bv vb e
  let (q, fl) := f wd c.ty.signed x (classVal c wb y.bits)
  if fl ≠ 0 then ⟨lowBits wd q, none, fl⟩
  else
    let (r, fs) := fit wd c.ty.signed c.sat q
    ⟨r, none, fs⟩

/-- The amount of a shift: b read as unsigned, the same half for pairs; amounts past every width act alike (R244). -/
def shiftElt (d a vb : BitVec 6) (g : VCtx → Int → Nat → Int) (c : VCtx) (s : State) (bv : BVal) (e : Nat) : EOut :=
  let wd := (s.th.ent d).width.toNat
  let x := (s.elt a 0 e).bits
  let (y, wb) := s.bElt c bv vb e
  if c.ty.isPair then
    let h := c.ty.half
    let half (i : Nat) : Nat × Flags :=
      fit h true c.sat (g c (intOf h true (x >>> (h * i))) (Nat.min 128 ((y.bits >>> (h * i)) % 2 ^ h)))
    let (lo, f0) := half 0
    let (hi, f1) := half 1
    ⟨lo + hi <<< h, none, f0 ||| f1⟩
  else
    let (r, fl) := fit wd c.ty.signed c.sat
      (g c (classVal c (s.th.ent a).width.toNat x) (Nat.min 128 (y.bits % 2 ^ wb)))
    ⟨r, none, fl⟩

/-- a / 2^n rounded to an integer by the mode (R244). -/
def roundShift (rm : BitVec 3) (x : Int) (n : Nat) : Int :=
  let (m, _) := roundAt rm (decide (x < 0)) x.natAbs (-(n : Int)) false 0
  if x < 0 then -(m : Int) else m

/-- The number of leading zeros of w bits. -/
def leadW (x : Nat) : Nat → Nat
  | 0 => 0
  | n + 1 => if x.testBit n then 0 else leadW x n + 1

/-- A word of the VINT major. -/
def vintWord (w : IWord) (s : State) (x : State → Ew) : Out := vecWord w s fun c s => s.elementwise w (x s) c

/-- VADD (R241): a + b. -/
def execVadd (d a : BitVec 6) (b : BOp) (s : State) : Out :=
  vintWord (wordOf (.vadd d a b)) s fun _ => intEw d a (some b) intOrPair none true fun _ x y => x + y

/-- VSUB (R241): a - b. -/
def execVsub (d a : BitVec 6) (b : BOp) (s : State) : Out :=
  vintWord (wordOf (.vsub d a b)) s fun _ => { intEw d a (some b) intOrPair none true (fun _ x y => x - y) with long := true }

/-- VRSUB (R241): b - a. -/
def execVrsub (d a : BitVec 6) (b : BOp) (s : State) : Out :=
  vintWord (wordOf (.vrsub d a b)) s fun _ => { intEw d a (some b) intOrPair none true (fun _ x y => y - x) with long := true }

/-- VNEG (R241): -a. -/
def execVneg (d a : BitVec 6) (s : State) : Out :=
  vintWord (wordOf (.vneg d a)) s fun _ => intEw d a none intOrPair none true fun _ x _ => -x

/-- VABS (R241): |a|. -/
def execVabs (d a : BitVec 6) (s : State) : Out :=
  vintWord (wordOf (.vabs d a)) s fun _ => intEw d a none intOrPair none false fun _ x _ => (x.natAbs : Int)

/-- VMUL (R241): a × b. -/
def execVmul (d a : BitVec 6) (b : BOp) (s : State) : Out :=
  vintWord (wordOf (.vmul d a b)) s fun s => { intEw d a (some b) intOrPair (if oneField s d a b then some (s.th.ent d).width.toNat else none) false (fun _ x y => x * y) with long := true }

/-- VMULH (R241): floor(a × b / 2^w), w the width of vd. -/
def execVmulh (d a : BitVec 6) (b : BOp) (s : State) : Out :=
  vintWord (wordOf (.vmulh d a b)) s fun s =>
    let w := (s.th.ent d).width.toNat
    { intEw d a (some b) EType.isInt (some w) false (fun _ x y => x * y / (2 ^ w : Nat)) with long := true }

/-- VMAC (R241): vd + a × b. -/
def execVmac (d a : BitVec 6) (b : BOp) (s : State) : Out :=
  vintWord (wordOf (.vmac d a b)) s fun _ => { intEw d a (some b) EType.isInt none false (fun z x y => z + x * y) with
      long := true, reads := d :: a :: b.vfield }

/-- VMACP (R242): vd + a.lo × b.lo + a.hi × b.hi, fitted once to a signed field of width 2h to 64. -/
def execVmacp (d a : BitVec 6) (b : BOp) (s : State) : Out :=
  vintWord (wordOf (.vmacp d a b)) s fun _ =>
    { intEw d a (some b) EType.isPair none false (fun _ _ _ => 0) with
      long := true
      reads := d :: a :: b.vfield
      ops := fun c => [⟨0, d, .range (2 * c.ty.half) 64, .dst⟩, ⟨1, a, c.wreq, .src⟩]
        ++ b.vfield.map fun v => ⟨2, v, c.wreq, .src⟩
      elt := fun c s bv e =>
        let h := c.ty.half
        let wd := (s.th.ent d).width.toNat
        let x := (s.elt a 0 e).bits
        let y := (s.bElt c bv b.num e).1.bits
        let p (v i : Nat) := intOf h true (v >>> (h * i))
        let (r, fl) := fit wd true c.sat (intOf wd true (s.elt d 0 e).bits + p x 0 * p y 0 + p x 1 * p y 1)
        ⟨r, none, fl⟩ }

/-- VDIV (R243): the quotient. -/
def execVdiv (d a : BitVec 6) (b : BOp) (s : State) : Out :=
  vintWord (wordOf (.vdiv d a b)) s fun s =>
    { intEw d a (some b) EType.isInt (some (s.th.ent d).width.toNat) false (fun _ _ _ => 0) with
      long := true
      elt := fun c s => divElt d a b.num quot c s }

/-- VREM (R243): the remainder. -/
def execVrem (d a : BitVec 6) (b : BOp) (s : State) : Out :=
  vintWord (wordOf (.vrem d a b)) s fun s =>
    { intEw d a (some b) EType.isInt (some (s.th.ent d).width.toNat) false (fun _ _ _ => 0) with
      long := true
      elt := fun c s => divElt d a b.num remd c s }

/-- VMIN (R241): the smaller. -/
def execVmin (d a : BitVec 6) (b : BOp) (s : State) : Out :=
  vintWord (wordOf (.vmin d a b)) s fun _ => intEw d a (some b) intOrPair none false fun _ x y => min x y

/-- VMAX (R241): the larger. -/
def execVmax (d a : BitVec 6) (b : BOp) (s : State) : Out :=
  vintWord (wordOf (.vmax d a b)) s fun _ => intEw d a (some b) intOrPair none false fun _ x y => max x y

/-- VSHL (R244): a × 2^s. -/
def execVshl (d a : BitVec 6) (b : BOp) (s : State) : Out :=
  vintWord (wordOf (.vshl d a b)) s fun _ =>
    { intEw d a (some b) intOrPair none false (fun _ _ _ => 0) with
      long := true
      elt := fun c s => shiftElt d a b.num (fun _ x n => x * (2 ^ n : Nat)) c s }

/-- VSHR (R244): floor(a / 2^s). -/
def execVshr (d a : BitVec 6) (b : BOp) (s : State) : Out :=
  vintWord (wordOf (.vshr d a b)) s fun _ =>
    { intEw d a (some b) intOrPair none false (fun _ _ _ => 0) with
      long := true
      elt := fun c s => shiftElt d a b.num (fun _ x n => x / (2 ^ n : Nat)) c s }

/-- VRSHR (R244): a / 2^s rounded by MODE.ROUND. -/
def execVrshr (d a : BitVec 6) (b : BOp) (s : State) : Out :=
  vintWord (wordOf (.vrshr d a b)) s fun _ =>
    { intEw d a (some b) intOrPair none false (fun _ _ _ => 0) with
      long := true
      elt := fun c s => shiftElt d a b.num (fun c x n => roundShift c.rnd x n) c s }

/-- VSAT (R241): a, always fitted by saturation. -/
def execVsat (d a : BitVec 6) (s : State) : Out :=
  vintWord (wordOf (.vsat d a)) s fun _ =>
    { intEw d a none EType.isInt none false (fun _ x _ => x) with
      elt := fun c s => intElt d a 0 true (fun _ x _ => x) c s }

/-- VMOV (R241): a. -/
def execVmov (d a : BitVec 6) (s : State) : Out :=
  vintWord (wordOf (.vmov d a)) s fun _ => intEw d a none intOrPair none true fun _ x _ => x

/-- VCVT (R241): a read in the MODE class, fitted as the other integer class. -/
def execVcvt (d a : BitVec 6) (s : State) : Out :=
  vintWord (wordOf (.vcvt d a)) s fun _ =>
    { intEw d a none EType.isInt none false (fun _ x _ => x) with
      elt := fun c s _ e =>
        let x := classVal c (s.th.ent a).width.toNat (s.elt a 0 e).bits
        let (r, fl) := fit (s.th.ent d).width.toNat (!c.ty.signed) c.sat x
        ⟨r, none, fl⟩ }

/-- A count of bits of a within its own width (VCLZ, VPOPC). -/
def countEw (d a : BitVec 6) (g : Nat → Nat → Nat) : Ew :=
  { intEw d a none intOrRaw none false (fun _ x _ => x) with
    elt := fun c s _ e =>
      let (r, fl) := fit (s.th.ent d).width.toNat c.ty.signed c.sat
        (g (s.th.ent a).width.toNat (s.elt a 0 e).bits : Nat)
      ⟨r, none, fl⟩ }

/-- VCLZ (R241): leading zeros of a within its own width. -/
def execVclz (d a : BitVec 6) (s : State) : Out :=
  vintWord (wordOf (.vclz d a)) s fun _ => countEw d a fun w x => leadW x w

/-- VPOPC (R241): the number of 1 bits of a. -/
def execVpopc (d a : BitVec 6) (s : State) : Out :=
  vintWord (wordOf (.vpopc d a)) s fun _ =>
    { countEw d a (fun w x => popc64 (BitVec.ofNat 64 (x % 2 ^ w))) with long := true }

end Sys2Proof.Machine
end

