-- ==== Sys2Proof/Machine/VFlt.lean ====
section
/-! DEFINITION. Float field arithmetic and bitwise instructions: 11 R245 to R251. -/
namespace Sys2Proof.Machine
open Sys2Proof

/-- An element of a field as a float operand. -/
def State.fopd (s : State) (c : VCtx) (v : BitVec 6) (e : Nat) : FOpd :=
  let x := s.elt v c.fmt.prec e
  c.fmt.opd x.bits x.t
/-- The b operand's element as a float operand: the low w bits of an s-register read as one element (Table 9.4). -/
def State.fbopd (s : State) (c : VCtx) (b : BVal) (vb : BitVec 6) (e : Nat) : FOpd :=
  let x := (s.bElt c b vb e).1
  c.fmt.opd (x.bits % 2 ^ c.fmt.width) x.t

/-- A float result as an element. -/
def EOut.ofF (r : FOut) : EOut := ⟨r.bits, some r.t, r.flags⟩

/-- A float instruction: operands of the type's width, and the work field where Table 11.12 marks it. -/
def fltEw (d a : BitVec 6) (b : Option BOp) (work : Bool) (g : VCtx → FOpd → FOpd → FOut) : Ew :=
  { accept := EType.isFloat,
    ops := fun c => (match b with | none => vops1 d a c | some b => vops2 d a b c)
      ++ (if work then [workOp 64] else []),
    nfs := fun c => c.ty.nfs, dst := d, reads := a :: (match b with | none => [] | some b => b.vfield), b := b,
    work := work, all := false, check := true, run := fun _ => true, long := work,
    elt := fun c s bv e =>
      let x := s.fopd c a e
      .ofF (g c x (match b with | none => x | some b => s.fbopd c bv b.num e)) }

/-- VFADD (R245): a + b. -/
def execVfadd (d a : BitVec 6) (b : BOp) (s : State) : Out :=
  vintWord (wordOf (.vfadd d a b)) s fun _ => fltEw d a (some b) true fun c x y => opAdd c.fmt c.rnd x y

/-- VFSUB (R245): a - b. -/
def execVfsub (d a : BitVec 6) (b : BOp) (s : State) : Out :=
  vintWord (wordOf (.vfsub d a b)) s fun _ => fltEw d a (some b) true fun c x y => opSub c.fmt c.rnd x y

/-- VFMUL (R245): a × b. -/
def execVfmul (d a : BitVec 6) (b : BOp) (s : State) : Out :=
  vintWord (wordOf (.vfmul d a b)) s fun _ => fltEw d a (some b) true fun c x y => opMul c.fmt c.rnd x y

/-- VFDIV (R245): a ÷ b. -/
def execVfdiv (d a : BitVec 6) (b : BOp) (s : State) : Out :=
  vintWord (wordOf (.vfdiv d a b)) s fun _ => fltEw d a (some b) true fun c x y => opDiv c.fmt c.rnd x y

/-- VFSQRT (R245): √a. -/
def execVfsqrt (d a : BitVec 6) (s : State) : Out :=
  vintWord (wordOf (.vfsqrt d a)) s fun _ => fltEw d a none true fun c x _ => opSqrt c.fmt c.rnd x

/-- VFMIN (R245): as FMIN. -/
def execVfmin (d a : BitVec 6) (b : BOp) (s : State) : Out :=
  vintWord (wordOf (.vfmin d a b)) s fun _ => fltEw d a (some b) false fun c x y => opMinMax c.fmt true x y

/-- VFMAX (R245): as FMAX. -/
def execVfmax (d a : BitVec 6) (b : BOp) (s : State) : Out :=
  vintWord (wordOf (.vfmax d a b)) s fun _ => fltEw d a (some b) false fun c x y => opMinMax c.fmt false x y

/-- VFABS (R245): a with its sign cleared. -/
def execVfabs (d a : BitVec 6) (s : State) : Out :=
  vintWord (wordOf (.vfabs d a)) s fun _ => fltEw d a none false fun c x _ => opSign c.fmt false x

/-- VFNEG (R245): a with its sign inverted. -/
def execVfneg (d a : BitVec 6) (s : State) : Out :=
  vintWord (wordOf (.vfneg d a)) s fun _ => fltEw d a none false fun c x _ => opSign c.fmt (!x.val.neg) x

/-- The type check of VFCVT: one float type at least, no pair and no raw type (R246). -/
def cvtOk (src dst : EType) : Bool :=
  (src.isFloat || dst.isFloat) && !src.isPair && !src.isRaw && !dst.isPair && !dst.isRaw

/-- VFCVT (R246): from the MODE type to the type named. -/
def execVfcvt (d a : BitVec 6) (t : EType) (s : State) : Out :=
  vintWord (wordOf (.vfcvt d a t)) s fun _ =>
    { fltEw d a none true (fun c x _ => opSign c.fmt false x) with
      accept := fun src => cvtOk src t
      ops := fun c =>
        [⟨0, d, (match t.width c.nf with | none => .any | some w => .exact w), .dst⟩, ⟨1, a, c.wreq, .src⟩, workOp 64]
      nfs := fun c => c.ty.nfs ++ t.nfs
      elt := fun c s _ e =>
        if c.ty.isFloat then
          let x := s.fopd c a e
          if t.isFloat then .ofF (opConv (t.fmt c.nf) c.rnd x)
          else
            let (r, fl) := opToInt (s.th.ent d).width.toNat t.signed c.rnd x.val
            ⟨r, none, fl⟩
        else .ofF (opOfInt (t.fmt c.nf) c.rnd (classVal c (s.th.ent a).width.toNat (s.elt a 0 e).bits)) }

/-- VTRUST (R248): the count of va's element, saturated to vd's width. -/
def execVtrust (d a : BitVec 6) (s : State) : Out :=
  vintWord (wordOf (.vtrust d a)) s fun _ =>
    { fltEw d a none false (fun c x _ => opSign c.fmt false x) with
      ops := fun c => [⟨0, d, .any, .dst⟩, ⟨1, a, c.wreq, .src⟩]
      check := false
      elt := fun c s _ e => ⟨Nat.min (s.elt a c.fmt.prec e).t (2 ^ (s.th.ent d).width.toNat - 1), none, 0⟩ }

/-- VTRSET (R248): va's value with T = min(b, P), b read as an unsigned integer, of a broadcast s-register the
low w bits (R192, log 81). -/
def execVtrset (d a : BitVec 6) (b : BOp) (s : State) : Out :=
  vintWord (wordOf (.vtrset d a b)) s fun _ =>
    { fltEw d a (some b) false (fun c x _ => opSign c.fmt false x) with
      check := false
      elt := fun c s bv e =>
        ⟨(s.elt a c.fmt.prec e).bits, some (Nat.min ((s.bElt c bv b.num e).1.bits % 2 ^ c.fmt.width) c.fmt.prec), 0⟩ }

/-- VFEXP2 (R247): 2^a. -/
def execVfexp2 (d a : BitVec 6) (s : State) : Out :=
  vintWord (wordOf (.vfexp2 d a)) s fun _ => fltEw d a none true fun c x _ => opSpecial c.fmt c.rnd fExp2 x

/-- VFLOG2 (R247): log2 a. -/
def execVflog2 (d a : BitVec 6) (s : State) : Out :=
  vintWord (wordOf (.vflog2 d a)) s fun _ => fltEw d a none true fun c x _ => opSpecial c.fmt c.rnd fLog2 x

/-- VFRCP (R247): 1/a. -/
def execVfrcp (d a : BitVec 6) (s : State) : Out :=
  vintWord (wordOf (.vfrcp d a)) s fun _ => fltEw d a none true fun c x _ => opSpecial c.fmt c.rnd fRcp x

/-- VFRSQ (R247): 1/√a. -/
def execVfrsq (d a : BitVec 6) (s : State) : Out :=
  vintWord (wordOf (.vfrsq d a)) s fun _ => fltEw d a none true fun c x _ => opSpecial c.fmt c.rnd fRsq x

/-- A fused instruction: four fields of the type's width (R249). -/
def fmaEw (d a b c : BitVec 6) (negP negC : Bool) : Ew :=
  { fltEw d a none true (fun x y _ => opSign x.fmt false y) with
    ops := fun x => vops1 d a x ++ [⟨2, b, x.wreq, .src⟩, ⟨3, c, x.wreq, .src⟩, workOp 64]
    reads := [a, b, c]
    elt := fun x s _ e => .ofF (opFma x.fmt x.rnd negP negC (s.fopd x a e) (s.fopd x b e) (s.fopd x c e)) }

/-- VFMA (R249). -/
def execVfma (d a b c : BitVec 6) (s : State) : Out :=
  vintWord (wordOf (.vfma d a b c)) s fun _ => fmaEw d a b c false false

/-- VFMS (R249). -/
def execVfms (d a b c : BitVec 6) (s : State) : Out :=
  vintWord (wordOf (.vfms d a b c)) s fun _ => fmaEw d a b c false true

/-- VFNMA (R249). -/
def execVfnma (d a b c : BitVec 6) (s : State) : Out :=
  vintWord (wordOf (.vfnma d a b c)) s fun _ => fmaEw d a b c true false

/-- VFNMS (R249). -/
def execVfnms (d a b c : BitVec 6) (s : State) : Out :=
  vintWord (wordOf (.vfnms d a b c)) s fun _ => fmaEw d a b c true true

/-! ### Bitwise: R250, R251 -/

/-- A source brought to w bits: sign-extended for class 0, zero-extended otherwise, or cut. -/
def toWidth (signed : Bool) (w ws x : Nat) : Nat := lowBits w (intOf ws signed x)

/-- Bits written as an element, with the lower of the counts of the operands that gave them under rules 1 and 2 of R185. -/
def VCtx.bitOut (c : VCtx) (bits : Nat) (ts : List Nat) : EOut :=
  ⟨bits, if c.ty.isFloat then some (c.fmt.plainTrust bits (ts.all (· == c.fmt.prec)) (ts.foldl Nat.min c.fmt.prec)) else none, 0⟩

/-- A bitwise instruction: any type, on vd's columns; the lower count of the operands whose bits are written. -/
def bitEw (d a : BitVec 6) (b : Option BOp) (g : Nat → Nat → Nat) : Ew :=
  { fltEw d a b false (fun c x _ => opSign c.fmt false x) with
    accept := fun t => t.isFloat || (match b with
      | some (.freg _) => false
      | _ => true)
    run := fun _ => false
    quiet := true
    elt := fun c s bv e =>
      let w := (s.th.ent d).width.toNat
      let x := s.elt a c.fmt.prec e
      let xa := toWidth c.ty.signed w (s.th.ent a).width.toNat x.bits
      match b with
      | none => c.bitOut (g xa 0 % 2 ^ w) [x.t]
      | some b =>
        let (y, wb) := s.bElt c bv b.num e
        c.bitOut (g xa (toWidth c.ty.signed w wb y.bits) % 2 ^ w) [x.t, y.t] }

/-- VAND (R250). -/
def execVand (d a : BitVec 6) (b : BOp) (s : State) : Out :=
  vintWord (wordOf (.vand d a b)) s fun _ => { bitEw d a (some b) (fun x y => x &&& y) with run := fun _ => true }

/-- VOR (R250). -/
def execVor (d a : BitVec 6) (b : BOp) (s : State) : Out :=
  vintWord (wordOf (.vor d a b)) s fun _ => { bitEw d a (some b) (fun x y => x ||| y) with run := fun _ => true }

/-- VXOR (R250). -/
def execVxor (d a : BitVec 6) (b : BOp) (s : State) : Out :=
  vintWord (wordOf (.vxor d a b)) s fun _ => bitEw d a (some b) fun x y => x ^^^ y

/-- VANDN (R250). -/
def execVandn (d a : BitVec 6) (b : BOp) (s : State) : Out :=
  vintWord (wordOf (.vandn d a b)) s fun _ => { bitEw d a (some b) (fun x y => x &&& (x ^^^ y)) with run := fun _ => true }

/-- VNOT (R250). -/
def execVnot (d a : BitVec 6) (s : State) : Out :=
  vintWord (wordOf (.vnot d a)) s fun s =>
    bitEw d a none fun x _ => 2 ^ (s.th.ent d).width.toNat - 1 - x

/-- VSEL (R251): va where the guard holds and vb elsewhere, in every row below VL; the count of the chosen operand. -/
def execVsel (d a : BitVec 6) (b : BOp) (s : State) : Out :=
  vintWord (wordOf (.vsel d a b)) s fun _ =>
    { bitEw d a (some b) (fun x _ => x) with
      all := true
      run := fun _ => true
      elt := fun c s bv e =>
        let w := (s.th.ent d).width.toNat
        let (y, wb) := if s.guardHolds c.mode e then (s.elt a c.fmt.prec e, (s.th.ent a).width.toNat)
          else s.bElt c bv b.num e
        c.bitOut (toWidth c.ty.signed w wb y.bits) [y.t] }

end Sys2Proof.Machine
end

