-- ==== Sys2Proof/Machine/VCmp.lean ====
section
/-! DEFINITION. Compares, raw search and write, and tag instructions: 11 R239, R240, R252 to R254. A fused run of VSRCH or
VWRT words (R240) gives exactly the result of its words one after another, which is what is modelled. -/
namespace Sys2Proof.Machine
open Sys2Proof

/-- Tags written in rows, with the taint of Table 4.3: the previous set stays in it when `keep`. k0 is left (R23). -/
def State.writeTags (s : State) (k : BitVec 4) (rs : List (Nat × Bool)) (tn : Taint) (keep : Bool) : State :=
  if rs.isEmpty then s
  else
    let s := rs.foldl (fun s (e, b) => s.setTag e k b) s
    s.upd fun t => t.setKTaint k (if keep then tn ||| t.kTaint k else tn)

/-- The merge of R195: outcome c with the old tag t. -/
def merged (m : BitVec 2) (t c : Bool) : Bool :=
  if m = 0 then c else if m = 1 then t && c else if m = 2 then t || c else t != c

/-- A compare: accepted types, operand fields, outcome and flags of each row. -/
structure Cmp where
  accept : EType → Bool
  b : Option BOp
  out : VCtx → State → BVal → Nat → Bool × Flags

/-- The effect of a compare into tag k with merge m (R252). -/
def State.compare (w : IWord) (k : BitVec 4) (m : BitVec 2) (a : BitVec 6) (x : Cmp) (c : VCtx) (s : State) :
    Except TrapInfo VOut :=
  let ops := ⟨1, a, c.wreq, .src⟩ :: (match x.b with
    | none => []
    | some b => b.vfield.map fun v => ⟨2, v, c.wreq, .src⟩)
  match typeFault w (x.accept c.ty) <|> s.th.operandFault c.nf c.ty.nfs ops with
  | some i => .error i
  | none =>
    let es := s.active c
    let (s, segs) := s.segFor c (x.b.getD (.sreg 0))
    let (bv, bf) := s.bval c (x.b.getD (.sreg 0)) segs
    let rs := es.map fun e => (e, x.out c s bv e)
    let tn := s.inTaint c (a :: (match x.b with | none => [] | some b => b.vfield)) []
      (match x.b with | none => [] | some b => [b])
    let s' := (s.readRows (a :: (match x.b with | none => [] | some b => b.vfield)) es).writeTags k (rs.map fun (e, r, _) => (e, merged m (s.tagBit e k) r)) tn (m ≠ 0)
    let s' := if es.isEmpty then s'
      else s'.upd fun t => t.raiseFlags (rs.foldl (fun f (_, _, g) => f ||| g) bf)
    .ok { st := s'.checked c false false, trap := none, trace := ⟨(s.th.ent a).width.toNat, none⟩ }

/-- Two operands of a compare as exact integers, or as bit patterns for pair and raw types (R252). -/
def cmpInts (c : VCtx) (s : State) (a : BitVec 6) (vb : BitVec 6) (bv : BVal) (e : Nat) : Int × Int :=
  let wa := (s.th.ent a).width.toNat
  let x := (s.elt a 0 e).bits
  let (y, wb) := s.bElt c bv vb e
  if c.ty.isInt then (classVal c wa x, classVal c wb y.bits)
  else
    match bv with
    | .const b _ => ((x : Int), ((b % 2 ^ wa : Nat) : Int))
    | .perRow _ => ((x : Int), (y.bits : Int))
    | .seg _ => ((x : Int), (y.bits : Int))

/-- The outcome of an integer condition. -/
def intCond (q : FCond) (x y : Int) : Bool :=
  match q with
  | .eq => decide (x = y)
  | .ne => decide (x ≠ y)
  | .lt => decide (x < y)
  | .le => decide (x ≤ y)
  | .gt => decide (y < x)
  | .ge => decide (y ≤ x)

/-- A two-operand compare (R252, R253). -/
def cmpEw (a : BitVec 6) (b : BOp) (q : FCond) : Cmp :=
  { accept := fun t => (match q with
      | .eq => true
      | .ne => true
      | _ => t.isInt || t.isFloat) && (t.isFloat || (match b with
      | .freg _ => false
      | _ => true))
    b := some b
    out := fun c s bv e =>
      if c.ty.isFloat then opCompare q (s.fopd c a e).val (s.fbopd c bv b.num e).val
      else
        let (x, y) := cmpInts c s a b.num bv e
        (intCond q x y, 0) }

/-- A one-operand compare of floats; a signalling NaN sets NV (R253). -/
def cmpF (a : BitVec 6) (g : VCtx → FOpd → Bool) : Cmp :=
  { accept := EType.isFloat, b := none,
    out := fun c s _ e =>
      let x := s.fopd c a e
      (g c x, snanFlag [x.val]) }

/-- VCMP.EQ (R252). -/
def execVcmpEq (k : BitVec 4) (m : BitVec 2) (a : BitVec 6) (b : BOp) (s : State) : Out :=
  vecWord (wordOf (.vcmpEq k m a b)) s (State.compare (wordOf (.vcmpEq k m a b)) k m a (cmpEw a b .eq))

/-- VCMP.NE (R252). -/
def execVcmpNe (k : BitVec 4) (m : BitVec 2) (a : BitVec 6) (b : BOp) (s : State) : Out :=
  vecWord (wordOf (.vcmpNe k m a b)) s (State.compare (wordOf (.vcmpNe k m a b)) k m a (cmpEw a b .ne))

/-- VCMP.LT (R252). -/
def execVcmpLt (k : BitVec 4) (m : BitVec 2) (a : BitVec 6) (b : BOp) (s : State) : Out :=
  vecWord (wordOf (.vcmpLt k m a b)) s (State.compare (wordOf (.vcmpLt k m a b)) k m a (cmpEw a b .lt))

/-- VCMP.LE (R252). -/
def execVcmpLe (k : BitVec 4) (m : BitVec 2) (a : BitVec 6) (b : BOp) (s : State) : Out :=
  vecWord (wordOf (.vcmpLe k m a b)) s (State.compare (wordOf (.vcmpLe k m a b)) k m a (cmpEw a b .le))

/-- VCMP.GT (R252). -/
def execVcmpGt (k : BitVec 4) (m : BitVec 2) (a : BitVec 6) (b : BOp) (s : State) : Out :=
  vecWord (wordOf (.vcmpGt k m a b)) s (State.compare (wordOf (.vcmpGt k m a b)) k m a (cmpEw a b .gt))

/-- VCMP.GE (R252). -/
def execVcmpGe (k : BitVec 4) (m : BitVec 2) (a : BitVec 6) (b : BOp) (s : State) : Out :=
  vecWord (wordOf (.vcmpGe k m a b)) s (State.compare (wordOf (.vcmpGe k m a b)) k m a (cmpEw a b .ge))

/-- VCMP.TRLT (R253). -/
def execVcmpTrlt (k : BitVec 4) (m : BitVec 2) (a : BitVec 6) (s : State) : Out :=
  vecWord (wordOf (.vcmpTrlt k m a)) s (State.compare (wordOf (.vcmpTrlt k m a)) k m a (cmpF a fun c x => decide (x.t < (modeTmin c.mode).toNat)))

/-- VCMP.NAN (R253). -/
def execVcmpNan (k : BitVec 4) (m : BitVec 2) (a : BitVec 6) (s : State) : Out :=
  vecWord (wordOf (.vcmpNan k m a)) s (State.compare (wordOf (.vcmpNan k m a)) k m a (cmpF a fun _ x => x.val.isNan))

/-- VCMP.INF (R253). -/
def execVcmpInf (k : BitVec 4) (m : BitVec 2) (a : BitVec 6) (s : State) : Out :=
  vecWord (wordOf (.vcmpInf k m a)) s (State.compare (wordOf (.vcmpInf k m a)) k m a (cmpF a fun _ x => x.val.isInf))

/-! ### Raw search and write: R239 -/

/-- VSRCH (R239): masked raw key search of a field into a tag. -/
def execVsrch (k : BitVec 4) (m : BitVec 2) (a y z : BitVec 6) (s : State) : Out :=
  vecWord (wordOf (.vsrch k m a y z)) s fun c s =>
    match s.th.operandFault c.nf [] [⟨1, a, .any, .src⟩] with
    | some i => .error i
    | none =>
      let es := s.active c
      let w := (s.th.ent a).width.toNat
      let key := (s.th.sr y).toNat % 2 ^ w
      let mask := (s.th.sr z).toNat % 2 ^ w
      let rs := es.map fun e => (e, merged m (s.tagBit e k) (((s.elt a 0 e).bits ^^^ key) &&& mask == 0))
      let tn := s.inTaint c [a] [] [.sreg y, .sreg z]
      .ok { st := ((s.readRows [a] es).writeTags k rs tn (m ≠ 0)).checked c false false, trap := none, trace := ⟨w, none⟩ }

/-- VWRT (R239): masked raw write of key bits into a field in active rows whose tag is 1. -/
def execVwrt (k : BitVec 4) (a y z : BitVec 6) (s : State) : Out :=
  vecWord (wordOf (.vwrt k a y z)) s fun c s =>
    match s.th.operandFault c.nf [] [⟨1, a, .any, .dst⟩] with
    | some i => .error i
    | none =>
      let es := s.active c
      let w := (s.th.ent a).width.toNat
      let key := (s.th.sr y).toNat % 2 ^ w
      let mask := (s.th.sr z).toNat % 2 ^ w
      let tn := s.inTaint c [] [k] [.sreg y, .sreg z]
      let s' := (es.filter fun e => s.tagBit e k).foldl (fun s' e =>
        let x := (s.elt a 0 e).bits
        s'.putBits a e ((x &&& (2 ^ w - 1 - mask)) ||| (key &&& mask))) s
      let s' := if es.isEmpty then s' else s'.upd fun t => t.setVTaint a (tn ||| t.vTaint a)
      .ok { st := s'.checked c false false, trap := none, trace := ⟨w, none⟩ }

/-! ### Tag instructions: R254 -/

/-- An element-wise tag instruction. -/
def tagWord (w : IWord) (d : BitVec 4) (ks : List (BitVec 4)) (b : List BOp) (s : State) (g : State → Nat → Bool) : Out :=
  vecWord w s fun c s =>
    let es := s.active c
    let tn := s.inTaint c [] ks b
    .ok { st := (s.writeTags d (es.map fun e => (e, g s e)) tn false).checked c false false, trap := none,
          trace := ⟨1, none⟩ }

/-- KAND (R254). -/
def execKand (d a b : BitVec 4) (s : State) : Out :=
  tagWord (wordOf (.kand d a b)) d [a, b] [] s fun s e =>
    let x := s.tagBit e a
    let y := s.tagBit e b
    x && y

/-- KOR (R254). -/
def execKor (d a b : BitVec 4) (s : State) : Out :=
  tagWord (wordOf (.kor d a b)) d [a, b] [] s fun s e =>
    let x := s.tagBit e a
    let y := s.tagBit e b
    x || y

/-- KXOR (R254). -/
def execKxor (d a b : BitVec 4) (s : State) : Out :=
  tagWord (wordOf (.kxor d a b)) d [a, b] [] s fun s e =>
    let x := s.tagBit e a
    let y := s.tagBit e b
    x != y

/-- KANDN (R254). -/
def execKandn (d a b : BitVec 4) (s : State) : Out :=
  tagWord (wordOf (.kandn d a b)) d [a, b] [] s fun s e =>
    let x := s.tagBit e a
    let y := s.tagBit e b
    x && !y

/-- KNOT (R254). -/
def execKnot (d a : BitVec 4) (s : State) : Out := tagWord (wordOf (.knot d a)) d [a] [] s fun s e => !s.tagBit e a
/-- KMOV (R254). -/
def execKmov (d a : BitVec 4) (s : State) : Out := tagWord (wordOf (.kmov d a)) d [a] [] s fun s e => s.tagBit e a
/-- KSET (R254). -/
def execKset (d : BitVec 4) (s : State) : Out := tagWord (wordOf (.kset d)) d [] [] s fun _ _ => true
/-- KCLR (R254). -/
def execKclr (d : BitVec 4) (s : State) : Out := tagWord (wordOf (.kclr d)) d [] [] s fun _ _ => false
/-- KONE (R254): kd = (e == s[x]). -/
def execKone (d : BitVec 4) (x : BitVec 6) (s : State) : Out :=
  tagWord (wordOf (.kone d x)) d [] [.sreg x] s fun s e => e == (s.th.sr x).toNat

/-- KFROM (R254): the bit in the base column of vx's element. -/
def execKfrom (d : BitVec 4) (x : BitVec 6) (s : State) : Out :=
  vecWord (wordOf (.kfrom d x)) s fun c s =>
    match s.th.operandFault c.nf c.ty.nfs [⟨4, x, c.wreq, .src⟩] with
    | some i => .error i
    | none =>
      let es := s.active c
      let tn := s.inTaint c [x] [] []
      let rs := es.map fun e => (e, (s.elt x 0 e).bits.testBit 0)
      .ok { st := ((s.readRows [x] es).writeTags d rs tn false).checked c false false, trap := none,
            trace := ⟨(s.th.ent x).width.toNat, none⟩ }

/-- KTO (R254): 1 or 0 over all of vx's width, in every bit of the element (log 33); the trust subfield is unchanged. -/
def execKto (a : BitVec 4) (x : BitVec 6) (s : State) : Out :=
  vecWord (wordOf (.kto a x)) s fun c s =>
    match s.th.operandFault c.nf c.ty.nfs [⟨4, x, c.wreq, .dst⟩] with
    | some i => .error i
    | none =>
      let es := s.active c
      let tn := s.inTaint c [] [a] []
      let rs := es.map fun e => (e, (⟨if s.tagBit e a then 2 ^ (s.th.ent x).width.toNat - 1 else 0, none, 0⟩ : EOut))
      .ok { st := (s.writeField x es rs tn 0).checked c true false, trap := none, trace := ⟨(s.th.ent x).width.toNat, none⟩ }

/-- A result of a row-crossing word in s[d] with the taint of Table 4.3. -/
def State.crossS (s : State) (d : BitVec 6) (v : Nat) (tn : Taint) : State :=
  s.upd fun t => t.setS d (BitVec.ofNat 64 v) (tn ||| t.sTaint d)

/-- KPOP (R254): the number of active rows with the tag set. -/
def execKpop (a : BitVec 4) (x : BitVec 6) (s : State) : Out :=
  crossWord (wordOf (.kpop a x)) s fun c s =>
    let n := ((s.active c).filter fun e => s.tagBit e a).length
    .ok { st := (s.crossS x n (s.inTaint c [] [a] [])).checked c false false, trap := none, trace := ⟨1, none⟩ }

/-- KFIRST (R254): keeps only the lowest active row with the tag set; its index, or all ones. -/
def execKfirst (d a : BitVec 4) (x : BitVec 6) (s : State) : Out :=
  crossWord (wordOf (.kfirst d a x)) s fun c s =>
    let es := s.active c
    let first := es.find? fun e => s.tagBit e a
    let tn := s.inTaint c [] [a] []
    let s' := s.writeTags d (es.map fun e => (e, some e == first)) tn false
    .ok { st := (s'.crossS x (first.getD (2 ^ 64 - 1)) tn).checked c false false, trap := none, trace := ⟨1, none⟩ }

/-- KSHIFT (R254): kd = ka(e - s[x]) when that row lies below VL, else 0; the source row is read whatever its guard. -/
def execKshift (d a : BitVec 4) (x : BitVec 6) (s : State) : Out :=
  crossWord (wordOf (.kshift d a x)) s fun c s =>
    let k := (s.th.sr x).toInt
    let rs := (s.active c).map fun (e : Nat) =>
      let i : Int := (e : Int) - k
      (e, decide (0 ≤ i) && decide (i < c.vl) && s.tagBit i.toNat a)
    .ok { st := (s.writeTags d rs (s.inTaint c [] [a] [.sreg x]) false).checked c false false, trap := none,
          trace := ⟨1, none⟩ }

end Sys2Proof.Machine
end

