-- ==== Sys2Proof/Machine/Reduce.lean ====
section
/-! DEFINITION. Reductions and the search family: 11 R255 to R261, with the exact float sums of 08 R181. -/
namespace Sys2Proof.Machine
open Sys2Proof

/-! ### Exact sums: R181 -/

/-- An exact sum of signed magnitudes, as a signed multiple of 2^e. -/
structure ExactSum where
  m : Int
  e : Int
  deriving DecidableEq, Repr

/-- A finite value added exactly. -/
def ExactSum.add (a : ExactSum) (neg : Bool) (m : Nat) (e : Int) : ExactSum :=
  let v : Int := if neg then -(m : Int) else m
  if a.m = 0 then ⟨v, e⟩
  else if m = 0 then a
  else if a.e ≤ e then ⟨a.m + v * (2 ^ (e - a.e).toNat : Nat), a.e⟩
  else ⟨a.m * (2 ^ (a.e - e).toNat : Nat) + v, e⟩

/-- Finite values added exactly. -/
def ExactSum.addAll (a : ExactSum) (vs : List FVal) : ExactSum :=
  vs.foldl (fun (a : ExactSum) v => match v with
    | .fin n m e => a.add n m e
    | .nan _ => a
    | .inf _ => a) a

/-- The exact sum of values with the specials of R181, where the finite values but `rest` are in the partial sum `start` already. None of
them gives +0. -/
def exactSumFrom (rm : BitVec 3) (start : ExactSum) (vs rest : List FVal) : Exact :=
  let nv := snanFlag vs
  let pinf := vs.any fun v => v.isInf && !v.neg
  let ninf := vs.any fun v => v.isInf && v.neg
  if vs.any (·.isNan) then .nan nv
  else if pinf && ninf then .nan fNV
  else if pinf then .inf false 0
  else if ninf then .inf true 0
  else
    let s : ExactSum := start.addAll rest
    if s.m = 0 then
      (if vs.all (·.isZero) then .num (!vs.isEmpty && vs.all (·.neg)) 0 0 false 0 else .num (rm == 2#3) 0 0 false 0)
    else .num (decide (s.m < 0)) s.m.natAbs s.e false 0

/-- The exact sum of values (R181). -/
def exactSum (rm : BitVec 3) (vs : List FVal) : Exact := exactSumFrom rm ⟨0, 0⟩ vs vs

/-- The sum of operands rounded once, with the trust of the VRFSUM row of Table 8.7, from a partial sum of all but `rest`. -/
def opSumFrom (f : Fmt) (rm : BitVec 3) (start : ExactSum) (xs rest : List FOpd) : FOut :=
  let r := f.finish rm (exactSumFrom rm start (xs.map (·.val)) (rest.map (·.val)))
  .of f r (xs.all (·.full)) (addTrust f r (xs.foldl (fun a x => maxExp a (errExp x.val x.t)) none))

/-- The sum of operands rounded once (R181). -/
def opSum (f : Fmt) (rm : BitVec 3) (xs : List FOpd) : FOut := opSumFrom f rm ⟨0, 0⟩ xs xs

/-! ### Reductions -/

/-- A float of the element type as an f-register: binary32 form for binary32, widened exactly otherwise (R255). -/
def FReg.ofElt (f : Fmt) (isF32 : Bool) (bits t : Nat) : FReg :=
  if isF32 then ⟨BitVec.ofNat 64 bits, BitVec.ofNat 6 t, true⟩
  else
    let r := match f.read bits with
      | .nan _ => (Fmt.b64.writeNan 0).bits
      | .inf n => (Fmt.b64.writeInf n 0).bits
      | .fin n m e => (Fmt.b64.finish 0 (.num n m e false 0)).bits
    ⟨BitVec.ofNat 64 (if f = Fmt.b64 then bits else r), BitVec.ofNat 6 t, false⟩

/-- The next column to count and the partial result with which a reduction may stop at its k-th restart point (Table 11.4). -/
abbrev StopAt := VCtx → State → List Nat → Nat → Option (Nat × BitVec 128)
/-- No restart point. -/
def noStop : StopAt := fun _ _ _ _ => none

/-- A row-crossing word that reads va and writes s[d]. -/
def redS (w : IWord) (d a : BitVec 6) (accept : EType → Bool) (s : State)
    (g : VCtx → State → List Nat → Nat × Flags) (stop : StopAt) (after : Thread → Thread) : Out :=
  crossWord w s fun c s =>
    match typeFault w (accept c.ty) <|> s.th.operandFault c.nf c.ty.nfs [⟨1, a, c.wreq, .src⟩] with
    | some i => .error i
    | none =>
      let es := s.active c
      match (s.stopsOn es).bind (stop c s es) with
      | some (i, x) => .ok (.paused ((s.readRows [a] es).paused es i (some x)))
      | none =>
      let (v, fl) := g c s es
      let s' := (s.readRows [a] es).crossS d v (s.inTaint c [a] [] [])
      .ok { st := (s'.upd fun t => after (t.raiseFlags fl)).checked c false false, trap := none,
            trace := ⟨(s.th.ent a).width.toNat, none⟩ }

/-- The class's value of an element of va. -/
def State.ival (s : State) (c : VCtx) (a : BitVec 6) (e : Nat) : Int :=
  classVal c (s.th.ent a).width.toNat (s.elt a 0 e).bits

/-- The first column a reduction counts and its partial result: the registers of Table 11.4 when PIDX is valid. -/
def Thread.partial128 (t : Thread) : Nat × Int :=
  if t.pidx.getLsbD 63 then
    ((t.pidx.extractLsb' 0 32).toNat, (t.redhi ++ t.redlo).toInt)
  else (0, 0)

/-- The restart point of a column count: a column after the one it began at (R256). -/
def columnStop (a : BitVec 6) (f : Nat → Nat → List Nat → Int → Int) : StopAt := fun _ s es k =>
  let (first, part) := s.th.partial128
  let w := (s.th.ent a).width.toNat
  if w ≤ first + 1 then none
  else
    let j := first + 1 + k % (w - 1 - first)
    some (j, BitVec.ofInt 128 (f first j (es.map fun e => (s.elt a 0 e).bits) part))

/-- VRSUM (R256): the exact sum, fitted to 64 bits in the MODE class, from the column PIDX names. -/
def execVrsum (d a : BitVec 6) (s : State) : Out :=
  redS (wordOf (.vrsum d a)) d a EType.isInt s (fun c s es =>
    let (first, part) := s.th.partial128
    let w := (s.th.ent a).width.toNat
    let cut (e : Nat) : Int :=
      let x := (s.elt a 0 e).bits
      if first < w then classVal c w (x / 2 ^ first * 2 ^ first) else 0
    fit 64 c.ty.signed c.sat (es.foldl (fun x e => x + cut e) part))
    (columnStop a fun first j xs part => xs.foldl (fun n x => n + (x % 2 ^ j / 2 ^ first * 2 ^ first : Nat)) part) Thread.donePidx

/-- The smallest or largest by class, extended to 64 bits; the bound of the class with no active element (Table 11.9). -/
def redMinMax (low : Bool) (a : BitVec 6) (c : VCtx) (s : State) (es : List Nat) : Nat × Flags :=
  match es.map (s.ival c a) with
  | [] => (lowBits 64 (if low then intMax 64 c.ty.signed else intMin 64 c.ty.signed), 0)
  | x :: xs => (lowBits 64 (xs.foldl (fun m y => if low then min m y else max m y) x), 0)

/-- VRMIN (R255). -/
def execVrmin (d a : BitVec 6) (s : State) : Out :=
  redS (wordOf (.vrmin d a)) d a EType.isInt s (redMinMax true a) noStop id
/-- VRMAX (R255). -/
def execVrmax (d a : BitVec 6) (s : State) : Out :=
  redS (wordOf (.vrmax d a)) d a EType.isInt s (redMinMax false a) noStop id

/-- A bitwise reduction; columns below the one PIDX names come from the partial result (R256). -/
def redBits (a : BitVec 6) (f : Nat → Nat → Nat) (unit : Nat → Nat) (_c : VCtx) (s : State) (es : List Nat) : Nat × Flags :=
  let (first, part) := s.th.partial128
  let w := (s.th.ent a).width.toNat
  let r := es.foldl (fun x e => f x (s.elt a 0 e).bits) (unit w)
  let k := Nat.min first w
  (r / 2 ^ k * 2 ^ k + lowBits k part, 0)

/-- The restart point of a bitwise reduction: the columns below it, counted. -/
def bitsStop (a : BitVec 6) (f : Nat → Nat → Nat) (one : Bool) : StopAt :=
  columnStop a fun first j xs part =>
    let r := xs.foldl f (if one then 2 ^ j - 1 else 0) % 2 ^ j
    (r / 2 ^ first * 2 ^ first + lowBits first part : Nat)

/-- VRAND (R255). -/
def execVrand (d a : BitVec 6) (s : State) : Out :=
  redS (wordOf (.vrand d a)) d a intOrRaw s (redBits a (· &&& ·) (fun w => 2 ^ w - 1)) (bitsStop a (· &&& ·) true) Thread.donePidx
/-- VROR (R255). -/
def execVror (d a : BitVec 6) (s : State) : Out :=
  redS (wordOf (.vror d a)) d a intOrRaw s (redBits a (· ||| ·) (fun _ => 0)) (bitsStop a (· ||| ·) false) Thread.donePidx
/-- VRXOR (R255). -/
def execVrxor (d a : BitVec 6) (s : State) : Out :=
  redS (wordOf (.vrxor d a)) d a intOrRaw s (redBits a (· ^^^ ·) (fun _ => 0)) (bitsStop a (· ^^^ ·) false) Thread.donePidx

/-- The lowest index that holds the largest or smallest value; all ones with no active element. -/
def redArg (low : Bool) (a : BitVec 6) (c : VCtx) (s : State) (es : List Nat) : Nat × Flags :=
  match es with
  | [] => (2 ^ 64 - 1, 0)
  | e :: es =>
    (es.foldl (fun b e =>
      if low then (if s.ival c a e < s.ival c a b then e else b)
      else if s.ival c a b < s.ival c a e then e else b) e, 0)

/-- VRARGMAX (R255). -/
def execVrargmax (d a : BitVec 6) (s : State) : Out :=
  redS (wordOf (.vrargmax d a)) d a EType.isInt s (redArg false a) noStop id
/-- VRARGMIN (R255). -/
def execVrargmin (d a : BitVec 6) (s : State) : Out :=
  redS (wordOf (.vrargmin d a)) d a EType.isInt s (redArg true a) noStop id

/-- A float reduction's result in f[d]: taint of Table 4.3, trust trap at index 0 (R187). -/
def State.crossF (s : State) (d : BitVec 5) (r : FReg) (tn : Taint) (fl : Flags) : State :=
  s.upd fun t => (t.setF d r (tn ||| t.fTaint d)).raiseFlags fl

/-- The exponent field of a code. -/
def Fmt.expField (f : Fmt) (bits : Nat) : Nat := bits / 2 ^ f.mbits % 2 ^ f.ebits

/-- The exponent fields among finite operands, each once, the largest first: the groups in which VRFSUM sums them (R261). -/
def expGroups (f : Fmt) (xs : List FOpd) : List Nat :=
  let fs := (xs.filter fun x => !x.val.isNan && !x.val.isInf).map fun x => f.expField x.bits
  fs.foldl (fun l x => if l.contains x then l else l.takeWhile (x < ·) ++ [x] ++ l.dropWhile (x < ·)) []

/-- The operands of the exponent groups from one on. -/
def fromGroup (f : Fmt) (done : Nat) (xs : List FOpd) : List FOpd :=
  let gone := (expGroups f xs).take done
  xs.filter fun x => !gone.contains (f.expField x.bits)

/-- The partial sum of VRFSUM in v63 of rows 0 to 63, bit 64j + i in column i of row j (R261), in units of the format's smallest
subnormal (log 53). -/
def State.partialSum (s : State) (f : Fmt) : ExactSum :=
  let n := (List.range 64).foldl (fun n j => n + 2 ^ (64 * j) * (s.elt workField 0 j).bits) 0
  ⟨(BitVec.ofNat 4096 n).toInt, 1 - f.bias - f.mbits⟩

/-- A partial sum put there. -/
def State.putPartial (s : State) (f : Fmt) (x : ExactSum) : State :=
  let unit : Int := 1 - f.bias - f.mbits
  let m : Int := if x.m = 0 then 0 else x.m * (2 ^ (x.e - unit).toNat : Nat)
  let n := (BitVec.ofInt 4096 m).toNat
  (List.range 64).foldl (fun s j => s.putBits workField j (n / 2 ^ (64 * j))) s

/-- VRFSUM (R181, R261): the exact sum rounded once, its exponent groups summed one at a time from the one that PIDX names. Rows 0 to 63
and the active rows of the work field end with any bits. -/
def execVrfsum (d : BitVec 5) (a : BitVec 6) (s : State) : Out :=
  let w := wordOf (.vrfsum d a)
  crossWord w s fun c s =>
    match typeFault w c.ty.isFloat <|> s.th.operandFault c.nf c.ty.nfs [⟨1, a, c.wreq, .src⟩, ⟨4, workField, .exact 64, .work⟩] with
    | some i => .error i
    | none =>
      let es := s.active c
      let xs := es.map fun e => s.fopd c a e
      let resumed := s.th.pidx.getLsbD 63
      let done := if resumed then (s.th.pidx.extractLsb' 0 32).toNat else 0
      let start : ExactSum := if resumed then s.partialSum c.fmt else ⟨0, 0⟩
      let tn := s.inTaint c [a] [] []
      let groups := (expGroups c.fmt xs).length
      match if done < groups then s.stopsOn es else none with
      | some k =>
        let j := done + 1 + k % (groups - done)
        let part := start.addAll (((fromGroup c.fmt done xs).filter fun x =>
          ((expGroups c.fmt xs).take j).contains (c.fmt.expField x.bits)).map (·.val))
        let s' := (((s.readRows [a] es).paused es j none).freeField workField (es.filter (64 ≤ ·))).putPartial c.fmt part
        .ok (.paused (s'.upd fun t => t.setVTaint workField tn))
      | none =>
      let r := opSumFrom c.fmt c.rnd start xs (fromGroup c.fmt done xs)
      let r := if es.isEmpty then { r with t := c.fmt.prec } else r
      let s' := (s.readRows [a] es).crossF d (.ofElt c.fmt (c.ty = .f32) r.bits r.t) tn r.flags
      let s' := if es.isEmpty then s'
        else (s'.freeField workField (List.range 64 ++ es.filter (64 ≤ ·))).upd fun t => t.setVTaint workField tn
      .ok { st := (s'.upd Thread.donePidx).checked c false true,
            trap := sigloss (if !es.isEmpty && trustFails c.mode r.t then [0] else []), trace := ⟨(s.th.ent a).width.toNat, none⟩ }

/-- The least or greatest of operands in the order of R258, NaNs skipped, with the lower count among equal values (Table
8.7). -/
def chooseBest (low : Bool) (xs : List FOpd) : Option FOpd :=
  match xs.filter fun x => !x.val.isNan with
  | [] => none
  | y :: ys => some (ys.foldl (fun b x =>
      let o := fTotal x.val b.val
      if o = .eq then (if x.t < b.t then x else b)
      else if (o = .lt) = low then x else b) y)

/-- The count of a value chosen among operands: rules 1 and 2 of R185. -/
def chosenTrust (prec : Nat) (b : FOpd) (xs : List FOpd) : Nat :=
  if b.val.isInf then 0 else if b.val.isZero then (if xs.all (·.full) then prec else 0) else b.t

/-- The element chosen by VRFMAX or VRFMIN (R255, Table 8.7); the quiet NaN with T = 0 when every one is NaN. -/
def fchoose (f : Fmt) (low : Bool) (xs : List FOpd) : FOut :=
  let nv := snanFlag (xs.map (·.val))
  match chooseBest low xs with
  | none => ⟨(f.writeNan 0).bits, 0, nv ||| (f.writeNan 0).flags⟩
  | some b => ⟨b.bits, chosenTrust f.prec b (xs.filter fun x => !x.val.isNan), nv⟩

/-- A float minimum or maximum into f[d]. -/
def redF (w : IWord) (low : Bool) (d : BitVec 5) (a : BitVec 6) (s : State) : Out :=
  crossWord w s fun c s =>
    match typeFault w c.ty.isFloat <|> s.th.operandFault c.nf c.ty.nfs [⟨1, a, c.wreq, .src⟩] with
    | some i => .error i
    | none =>
      let es := s.active c
      let r := fchoose c.fmt low (es.map fun e => s.fopd c a e)
      let reg : FReg := if es.isEmpty then .ofElt (if c.ty = .f32 then .b32 else .b64) (c.ty = .f32)
          ((if c.ty = .f32 then Fmt.b32 else Fmt.b64).writeInf (!low) 0).bits 0
        else .ofElt c.fmt (c.ty = .f32) r.bits r.t
      let s' := (s.readRows [a] es).crossF d reg (s.inTaint c [a] [] []) (if es.isEmpty then 0 else r.flags)
      .ok { st := s'.checked c false false, trap := sigloss (if !es.isEmpty && trustFails c.mode reg.trust.toNat then [0] else []),
            trace := ⟨(s.th.ent a).width.toNat, none⟩ }

/-- VRFMAX (R255). -/
def execVrfmax (d : BitVec 5) (a : BitVec 6) (s : State) : Out := redF (wordOf (.vrfmax d a)) false d a s
/-- VRFMIN (R255). -/
def execVrfmin (d : BitVec 5) (a : BitVec 6) (s : State) : Out := redF (wordOf (.vrfmin d a)) true d a s

/-- VEXTR (R255): element s[b] of va, whatever its guard, into s[d] or, for a float type, f[d] with its count. Widening
a signalling NaN gives the quiet one and sets no flag (log 51). -/
def execVextr (d a b : BitVec 6) (s : State) : Out :=
  let w := wordOf (.vextr d a b)
  crossWord w s fun c s =>
    match typeFault w (!(c.ty.isFloat && d.getLsbD 5)) <|> s.th.operandFault c.nf c.ty.nfs [⟨1, a, c.wreq, .src⟩] with
    | some i => .error i
    | none =>
      let e := (s.th.sr b).toNat
      let tn := s.inTaint c [a] [] [.sreg b]
      let inside := decide (e < c.vl)
      let x := if inside then s.elt a c.fmt.prec e else ⟨0, 0⟩
      let s := if inside then s.readRows [a] [e] else s
      let wd := (s.th.ent a).width.toNat
      if c.ty.isFloat then
        let n := if inside then c.fmt.plainTrust x.bits (x.t == c.fmt.prec) x.t else 0
        let r := FReg.ofElt c.fmt (c.ty = .f32) x.bits n
        .ok { st := (s.crossF (d.extractLsb' 0 5) r tn 0).checked c false false,
              trap := sigloss (if !(s.active c).isEmpty && trustFails c.mode n then [0] else []), trace := ⟨wd, none⟩ }
      else
        .ok { st := (s.crossS d (lowBits 64 (intOf wd c.ty.signed x.bits)) tn).checked c false false, trap := none,
              trace := ⟨wd, none⟩ }

/-! ### The search family: R257 to R260 -/

/-- A key by which rows are ranked. -/
inductive Key where
  | int (x : Int)
  | flt (v : FVal)
  deriving DecidableEq, Repr

/-- The order of R258. -/
def Key.cmp : Key → Key → Ordering
  | .int x, .int y => compare x y
  | .flt x, .flt y => fTotal x y
  | .int _, .flt _ => .lt
  | .flt _, .int _ => .gt

/-- The rows that take part with their keys: NaNs take none (R258). -/
def State.ranked (s : State) (c : VCtx) (a : BitVec 6) (es : List Nat) : List (Nat × Key) :=
  es.filterMap fun e =>
    if c.ty.isFloat then
      let v := (s.fopd c a e).val
      if v.isNan then none else some (e, .flt v)
    else some (e, .int (s.ival c a e))

/-- Whether a row ranks before another: by key, then by lower index. -/
def before (high : Bool) (x y : Nat × Key) : Bool :=
  match x.2.cmp y.2 with
  | .eq => decide (x.1 < y.1)
  | .lt => !high
  | .gt => high

/-- The number of rows that rank before a row. -/
def rankOf (high : Bool) (l : List (Nat × Key)) (x : Nat × Key) : Nat := (l.filter fun y => before high y x).length

/-- The rows among the first k. -/
def firstK (high : Bool) (k : Nat) (l : List (Nat × Key)) : List Nat :=
  (l.filter fun x => decide (rankOf high l x < k)).map (·.1)

/-- The NV of a signalling NaN among the elements (R257). -/
def State.searchFlags (s : State) (c : VCtx) (a : BitVec 6) (es : List Nat) : Flags :=
  if c.ty.isFloat then snanFlag (es.map fun e => (s.fopd c a e).val) else 0

/-- A search as a word with passes, the tag written among them unless it is the guard that they are keyed on. -/
def searchPasses (w : IWord) (c : VCtx) (k : BitVec 4) (a : BitVec 6) (work : Bool) (inputs : List Nat) : Passes :=
  { word := w, fields := a :: (if work then [workField] else []), dst := [], tag := if modeGuard c.mode = k then [] else [k],
    wide := work, inputs := inputs }

/-- The rows that a resumed search tags: any of the active ones where the passes left are not known (log 53). -/
def State.lostHits (s : State) (lost es hit : List Nat) : List Nat :=
  if lost.isEmpty then hit else es.filter fun e => Config.coin s.tick (8192 + e)

/-- A search word: the rows it tags among the active ones; `long` marks those with restart points (R238). -/
def searchWord (w : IWord) (k : BitVec 4) (a : BitVec 6) (b : List BOp) (accept : EType → Bool) (s : State)
    (g : VCtx → State → List Nat → List Nat) (long : Bool) : Out :=
  crossWord w s fun c s =>
    match typeFault w (accept c.ty) <|> s.th.operandFault c.nf c.ty.nfs [⟨1, a, c.wreq, .src⟩] with
    | some i => .error i
    | none =>
      let es := s.active c
      let tn := s.inTaint c [a] [] b
      let ps := searchPasses w c k a false (b.map fun b => (s.bval c b []).1.inputs).flatten
      let (s, lost) := if long then s.resumed c ps es else (s, [])
      match if long then s.stopsOn es else none with
      | some i =>
        .ok (.paused (((s.atPass c ps es [] lost i none).readRows [a] es).upd fun t => t.setKTaint k (tn ||| t.kTaint k)))
      | none =>
      let hit := s.lostHits lost es (g c s es)
      let after (t : Thread) : Thread := if long then t.donePidx else t
      let s' := (s.readRows [a] es).writeTags k (es.map fun e => (e, hit.contains e)) (tn ||| s.th.kTaint k) false
      .ok { st := (s'.upd fun t => after (t.raiseFlags (s.searchFlags c a es))).checked c false false, trap := none,
            trace := ⟨(s.th.ent a).width.toNat, none⟩ }

/-- The types of the ranked searches (Table 11.3). -/
def rankable (t : EType) : Bool := t.isInt || t.isFloat || t.isRaw

/-- VTOPK (R258). -/
def execVtopk (k : BitVec 4) (a b : BitVec 6) (s : State) : Out :=
  searchWord (wordOf (.vtopk k a b)) k a [.sreg b] rankable s
    (fun c s es => firstK true (s.th.sr b).toNat (s.ranked c a es)) true
/-- VBOTK (R258). -/
def execVbotk (k : BitVec 4) (a b : BitVec 6) (s : State) : Out :=
  searchWord (wordOf (.vbotk k a b)) k a [.sreg b] rankable s
    (fun c s es => firstK false (s.th.sr b).toNat (s.ranked c a es)) true

/-- The rows that hold the best value. -/
def bestRows (high : Bool) (l : List (Nat × Key)) : List Nat :=
  (l.filter fun x => l.all fun y => (match y.2.cmp x.2 with
    | .eq => true
    | .lt => high
    | .gt => !high)).map (·.1)

/-- VMAXT (R258). -/
def execVmaxt (k : BitVec 4) (a : BitVec 6) (s : State) : Out :=
  searchWord (wordOf (.vmaxt k a)) k a [] rankable s (fun c s es => bestRows true (s.ranked c a es)) false
/-- VMINT (R258). -/
def execVmint (k : BitVec 4) (a : BitVec 6) (s : State) : Out :=
  searchWord (wordOf (.vmint k a)) k a [] rankable s (fun c s es => bestRows false (s.ranked c a es)) false

/-- The leader sequence of VCONF (R259) from row `next`: `seen` holds the bits of the leaders found so far, `old` the tag
as it stands. The rows tagged are answered. -/
def conflicts (bits : Nat → Nat) (old : Nat → Bool) (next : Nat) : List Nat → List Nat → List Nat
  | [], _ => []
  | e :: es, seen =>
    if seen.contains (bits e) then e :: conflicts bits old next es seen
    else if old e then e :: conflicts bits old next es seen
    else conflicts bits old next es (if next ≤ e then bits e :: seen else seen)

/-- VCONF (R259): rows that repeat the bits of an earlier active row; resumed from PIDX when it is valid. -/
def execVconf (k : BitVec 4) (a : BitVec 6) (s : State) : Out :=
  crossWord (wordOf (.vconf k a)) s fun c s =>
    match s.th.operandFault c.nf [] [⟨1, a, .any, .src⟩] with
    | some i => .error i
    | none =>
      let es := s.active c
      let valid := s.th.pidx.getLsbD 63
      let next := if valid then (s.th.pidx.extractLsb' 0 32).toNat else 0
      let bits (e : Nat) : Nat := (s.elt a 0 e).bits
      let old (e : Nat) : Bool := valid && s.tagBit e k
      let hit := conflicts bits old next es []
      let tn := s.inTaint c [a] [] []
      let leaders := es.filter fun e => decide (next ≤ e) && !hit.contains e
      match if leaders.isEmpty then none else s.stopAt with
      | some i =>
        let l := leaders.getD (i % leaders.length) 0
        let sofar (e : Nat) : Bool := old e || leaders.any fun x => decide (x ≤ l) && decide (x < e) && bits x == bits e
        .ok (.paused (((s.readRows [a] es).paused es (l + 1) none).writeTags k (es.map fun e => (e, sofar e)) (tn ||| s.th.kTaint k) false))
      | none =>
      let s' := (s.readRows [a] es).writeTags k (es.map fun e => (e, hit.contains e)) (tn ||| s.th.kTaint k) false
      .ok { st := (s'.upd Thread.donePidx).checked c false false, trap := none, trace := ⟨(s.th.ent a).width.toNat, none⟩ }

/-- The work field of R281: it may change in any row of the thread's plies, when some element is written. -/
def State.freeWork (s : State) (tn : Taint) : State :=
  (s.freeField workField (List.range (256 * s.th.n))).upd fun t => t.setVTaint workField tn

/-- VNEARK (R260): the k rows of least Hamming distance to the query s[b]; k is s[b + 1]. -/
def execVneark (k : BitVec 4) (a b : BitVec 6) (s : State) : Out :=
  crossWord (wordOf (.vneark k a b)) s fun c s =>
    match s.th.operandFault c.nf [] [⟨1, a, .any, .src⟩, ⟨4, workField, .range 7 64, .work⟩] with
    | some i => .error i
    | none =>
      let es := s.active c
      let w := (s.th.ent a).width.toNat
      let q := (s.th.sr b).toNat % 2 ^ w
      let ps := searchPasses (wordOf (.vneark k a b)) c k a true [q, (s.th.sr (b + 1)).toNat]
      let (s, lost) := s.resumed c ps es
      let dist (e : Nat) : Int := (popc64 (BitVec.ofNat 64 ((s.elt a 0 e).bits ^^^ q)) : Nat)
      let hit := s.lostHits lost es (firstK false (s.th.sr (b + 1)).toNat (es.map fun e => (e, .int (dist e))))
      let tn := s.inTaint c [a] [] [.sreg b, .sreg (b + 1)]
      match s.stopsOn es with
      | some i =>
        .ok (.paused (((s.atPass c ps es [] lost i (some 0)).readRows [a] es).upd fun t =>
          (t.setKTaint k (tn ||| t.kTaint k)).setVTaint workField tn))
      | none =>
      let s' := (s.readRows [a] es).writeTags k (es.map fun e => (e, hit.contains e)) (tn ||| s.th.kTaint k) false
      let s' := if es.isEmpty then s'
        else s'.freeWork tn
      .ok { st := (s'.upd Thread.donePidx).checked c false true, trap := none, trace := ⟨w, none⟩ }

end Sys2Proof.Machine
end

