-- ==== Sys2Proof/Machine/Move.lean ====
section
/-! DEFINITION. Movement and special instructions: 12 R265, R266, R275 to R281. -/
namespace Sys2Proof.Machine
open Sys2Proof

/-- A movement instruction: the types it accepts, its operand fields, the destination, its source fields and broadcast operands, the inputs
its taint comes from, whether it keeps partial sums in v63 (R281), the fields it reads with the rows in which it reads them, and the
elements it writes, or the fault of its data. -/
structure Mv where
  accept : EType → Bool
  ops : VCtx → List Opnd
  dst : BitVec 6
  srcs : List (BitVec 6)
  regs : List (BitVec 6)
  taint : VCtx → State → Taint
  work : Bool
  reads : VCtx → State → List Elt → List (List (BitVec 6) × List Nat)
  out : VCtx → State → List Elt → Except TrapInfo (List (Nat × EOut))

/-- A movement instruction as a word with passes. -/
def Mv.passes (x : Mv) (w : IWord) (s : State) : Passes :=
  { word := w, fields := x.dst :: x.srcs ++ [workField], dst := [x.dst], tag := [], wide := true,
    inputs := x.regs.map fun r => (s.th.sr r).toNat }

/-- The effect of a movement instruction (R265, R275). One with partial sums in v63 may be stopped at a restart point (R281). -/
def State.move (w : IWord) (b : BOp) (x : Mv) (c : VCtx) (s : State) : Except TrapInfo VOut :=
  match typeFault w (x.accept c.ty) <|> s.th.operandFault c.nf c.ty.nfs
      (x.ops c ++ (if x.work then [⟨4, workField, .exact 64, .work⟩] else [])) with
  | some i => .error i
  | none =>
    let (s, segs) := s.segFor c b
    let es := s.active c
    let (s, lost) := if x.work then s.resumed c (x.passes w s) es else (s, [])
    match x.out c s segs with
    | .error i => .error i
    | .ok rs =>
      let tn := x.taint c s
      let rs := s.lostOut c lost true rs
      let read (s : State) : State := (x.reads c s segs).foldl (fun s (vs, rows) => s.readRows vs rows) s
      match if x.work then s.stopsOn es else none with
      | some k =>
        .ok (.paused ((read (s.atPass c (x.passes w s) es (rs.map (·.1)) lost k none)).upd fun t =>
          (t.setVTaint x.dst (tn ||| t.vTaint x.dst)).setVTaint workField tn))
      | none =>
      let s' := (read s).writeField x.dst es rs tn 0
      let s' := if x.work && !es.isEmpty then s'.freeWork tn else s'
      let s' := if x.work then s'.upd Thread.donePidx else s'
      .ok { st := s'.checked c true x.work, trap := sigloss (failing c.mode rs),
            trace := ⟨(s.th.ent x.dst).width.toNat, none⟩ }

/-- A value moved into vd as VMOV fits it: R275, Table 11.5. -/
def State.fitMove (s : State) (c : VCtx) (d a : BitVec 6) (x : Elt) : EOut :=
  let wd := (s.th.ent d).width.toNat
  if c.ty.isInt then
    let (r, fl) := fit wd c.ty.signed c.sat (classVal c (s.th.ent a).width.toNat x.bits)
    ⟨r, none, fl⟩
  else if c.ty.isFloat then ⟨x.bits, some (c.fmt.plainTrust x.bits (x.t == c.fmt.prec) x.t), 0⟩
  else ⟨x.bits % 2 ^ wd, none, 0⟩

/-- The element that Table 12.4 calls zero. -/
def VCtx.zeroElt (c : VCtx) : EOut := ⟨0, if c.ty.isFloat then some c.fmt.prec else none, 0⟩

/-- An instruction that moves elements of va to the active rows: `row` tells which row's element a row takes, where it takes one, and `pick`
gives the element, or `none` for an unchanged row. -/
def moveEw (d a : BitVec 6) (ops : VCtx → List Opnd) (bs : List BOp) (more : State → List BOp)
    (row : VCtx → State → List Elt → Nat → Option Nat) (pick : VCtx → State → List Elt → Nat → Option EOut) : Mv :=
  { accept := fun _ => true, ops := fun c => vops1 d a c ++ ops c, dst := d, srcs := [a], regs := [],
    taint := fun c s => s.inTaint c [a] [] (bs ++ more s), work := false,
    reads := fun c s segs => [([a], (s.active c).filterMap (row c s segs)), (bs.flatMap BOp.rowField, s.active c)],
    out := fun c s segs => .ok ((s.active c).filterMap fun e => (pick c s segs e).map fun x => (e, x)) }

/-- Element i of va as it is moved. -/
def State.moved (s : State) (c : VCtx) (d a : BitVec 6) (i : Nat) : EOut := s.fitMove c d a (s.elt a c.fmt.prec i)

/-- VSLIDEUP (R275): va(e - k) when e ≥ k, else unchanged. -/
def execVslideup (d a b : BitVec 6) (s : State) : Out :=
  let w := wordOf (.vslideup d a b)
  crossWord w s (State.move w (.sreg b) (moveEw d a (fun _ => []) [.sreg b] (fun _ => [])
    (fun _ s _ e => if (s.th.sr b).toNat ≤ e then some (e - (s.th.sr b).toNat) else none) fun c s _ e =>
    let k := (s.th.sr b).toNat
    if k ≤ e then some (s.moved c d a (e - k)) else none))

/-- VSLIDEDN (R275): va(e + k) when e + k < VL, else unchanged. -/
def execVslidedn (d a b : BitVec 6) (s : State) : Out :=
  let w := wordOf (.vslidedn d a b)
  crossWord w s (State.move w (.sreg b) (moveEw d a (fun _ => []) [.sreg b] (fun _ => [])
    (fun c s _ e => if e + (s.th.sr b).toNat < c.vl then some (e + (s.th.sr b).toNat) else none) fun c s _ e =>
    let k := (s.th.sr b).toNat
    if e + k < c.vl then some (s.moved c d a (e + k)) else none))

/-- The fill of VSLIDEIN for a source row at or above VL: Table 12.5. -/
def State.slideFill (s : State) (c : VCtx) (d a b : BitVec 6) (i : Nat) : EOut :=
  let q := (s.th.sr b).extractLsb' 13 2
  if q = 0 then (if i < 256 * s.th.n then s.moved c d a i else c.zeroElt)
  else if q = 1 then
    let x := (s.th.sr (b + 1)).toNat % 2 ^ (s.th.ent d).width.toNat
    ⟨x, if c.ty.isFloat then some (c.fmt.plainTrust x true c.fmt.prec) else none, 0⟩
  else if q = 2 then s.moved c d a (c.vl - 1)
  else s.moved c d a (i % c.vl)

/-- The row whose element VSLIDEIN takes for a source row: itself below VL, else the one of its fill (Table 12.5). -/
def slideRow (c : VCtx) (s : State) (b : BitVec 6) (i : Nat) : Option Nat :=
  let q := (s.th.sr b).extractLsb' 13 2
  if i < c.vl then some i
  else if q = 0 then (if i < 256 * s.th.n then some i else none)
  else if q = 1 then none
  else if q = 2 then some (c.vl - 1)
  else some (i % c.vl)

/-- VSLIDEIN (R276). -/
def execVslidein (d a b : BitVec 6) (s : State) : Out :=
  let w := wordOf (.vslidein d a b)
  let fills (s : State) : Bool := (s.th.sr b).extractLsb' 13 2 = 1
  crossWord w s (State.move w (.sreg b) (moveEw d a (fun _ => []) [.sreg b]
      (fun s => if fills s then [.sreg (b + 1)] else [])
      (fun c s _ e => slideRow c s b (e + ((s.th.sr b).extractLsb' 0 13).toNat)) fun c s _ e =>
    let i := e + ((s.th.sr b).extractLsb' 0 13).toNat
    some (if i < c.vl then s.moved c d a i else s.slideFill c d a b i)))

/-- The index that VPERM reads in a row: vb unsigned, or its replicated segment. -/
def State.permIndex (s : State) (b : BOp) (segs : List Elt) (e : Nat) : Nat :=
  match b with
  | .field v => (s.elt v 0 e).bits
  | .rep _ _ => (segs.getD (e % Nat.max 1 segs.length) ⟨0, 0⟩).bits
  | .sreg _ => 0
  | .freg _ => 0

/-- VPERM (R275): va(i) with i = vb(e), when i < VL; else zero. -/
def execVperm (d a : BitVec 6) (b : BOp) (s : State) : Out :=
  let w := wordOf (.vperm d a b)
  crossWord w s (State.move w b (moveEw d a (fun _ => b.vfield.map fun v => ⟨2, v, .any, .src⟩) [b] (fun _ => [])
    (fun c s segs e => if s.permIndex b segs e < c.vl then some (s.permIndex b segs e) else none) fun c s segs e =>
      let i := s.permIndex b segs e
      some (if i < c.vl then s.moved c d a i else c.zeroElt)))

/-- VBCAST (R275): va(s[b]) when s[b] < VL, else zero. -/
def execVbcast (d a b : BitVec 6) (s : State) : Out :=
  let w := wordOf (.vbcast d a b)
  crossWord w s (State.move w (.sreg b) (moveEw d a (fun _ => []) [.sreg b] (fun _ => [])
    (fun c s _ _ => if (s.th.sr b).toNat < c.vl then some (s.th.sr b).toNat else none) fun c s _ _ =>
    let i := (s.th.sr b).toNat
    some (if i < c.vl then s.moved c d a i else c.zeroElt)))

/-- An instruction with a destination and no source field. -/
def destEw (d : BitVec 6) (accept : EType → Bool) (out : VCtx → State → Except TrapInfo (List (Nat × EOut))) : Mv :=
  { accept := accept, ops := fun c => [⟨0, d, c.wreq, .dst⟩], dst := d, srcs := [], regs := [],
    taint := fun c s => s.inTaint c [] [] [], work := false, reads := fun _ _ _ => [], out := fun c s _ => out c s }

/-- An integer written to vd: fitted under R170. -/
def fitted (wd : Nat) (signed sat : Bool) (x : Int) : EOut :=
  let (r, fl) := fit wd signed sat x
  ⟨r, none, fl⟩

/-- VIOTA (R275): the element index, fitted. -/
def execViota (d : BitVec 6) (s : State) : Out :=
  let w := wordOf (.viota d)
  crossWord w s (State.move w (.sreg 0) (destEw d EType.isInt fun c s =>
    .ok ((s.active c).map fun e => (e, fitted (s.th.ent d).width.toNat c.ty.signed c.sat e))))

/-- CMPOVF at the first element whose rank is 2^w (R277, Table 16.1). -/
def cmpovf (e : Nat) : TrapInfo := { TrapInfo.mk0 cCMPOVF 0 with index := BitVec.ofNat 32 e }

/-- VCOMPACT (R277): ranks of the active rows from 1. -/
def execVcompact (d : BitVec 6) (s : State) : Out :=
  let w := wordOf (.vcompact d)
  crossWord w s (State.move w (.sreg 0) (destEw d (fun t => t == .uint || t.isRaw) fun c s =>
    let es := s.active c
    let wd := (s.th.ent d).width.toNat
    if !c.sat && decide (2 ^ wd ≤ es.length) then .error (cmpovf (es.getD (2 ^ wd - 1) 0))
    else .ok (es.zipIdx.map fun (e, i) => (e, fitted wd false c.sat ((i : Int) + 1)))))

/-- The prefixes of a list that end at each of its elements. -/
def prefixes (es : List Nat) : List (Nat × List Nat) := es.zipIdx.map fun (e, i) => (e, es.take (i + 1))

/-- The sum of va over some rows, as vd holds it: exact and fitted once, or exact and rounded once (R278, R279). -/
def State.sumOver (s : State) (c : VCtx) (d a : BitVec 6) (es : List Nat) : EOut :=
  if c.ty.isFloat then .ofF (opSum c.fmt c.rnd (es.map fun e => s.fopd c a e))
  else fitted (s.th.ent d).width.toNat c.ty.signed c.sat (es.foldl (fun x e => x + s.ival c a e) 0)

/-- The types of VSCAN and VCOLLAPSE: integers and floats. -/
def intOrFloat (t : EType) : Bool := t.isInt || t.isFloat

/-- VSCAN (R278): inclusive sums over the active rows at or below each. -/
def execVscan (d a : BitVec 6) (s : State) : Out :=
  let w := wordOf (.vscan d a)
  crossWord w s (State.move w (.sreg 0)
    { accept := intOrFloat, ops := vops1 d a, dst := d, srcs := [a], regs := [], taint := fun c s => s.inTaint c [a] [] [], work := true,
      reads := fun c s _ => [([a], s.active c)],
      out := fun c s _ => .ok ((prefixes (s.active c)).map fun (e, es) => (e, s.sumOver c d a es)) })

/-! ### VCOLLAPSE: R279 -/

/-- The rows that group j counts, once for each time it names them. -/
def groupRows (sh : Dword) (active : List Nat) (j : Nat) : List Nat :=
  let g := (sh.extractLsb' 0 13).toNat
  let st := (sh.extractLsb' 13 13).toNat
  let q := (sh.extractLsb' 26 13).toNat
  ((List.range g).map fun i => j * st + i * q).filter fun r => active.contains r

/-- The extreme of va over some rows; the type's bound, or an infinity, over none. -/
def State.bestOver (s : State) (c : VCtx) (d a : BitVec 6) (low : Bool) (es : List Nat) : EOut :=
  let wd := (s.th.ent d).width.toNat
  if c.ty.isFloat then
    (if es.isEmpty then
       let r := c.fmt.writeInf (!low) 0
       ⟨r.bits, some 0, r.flags⟩
     else .ofF (fchoose c.fmt low (es.map fun e => s.fopd c a e)))
  else match es.map (s.ival c a) with
    | [] => fitted wd c.ty.signed c.sat (if low then intMax wd c.ty.signed else intMin wd c.ty.signed)
    | x :: xs => fitted wd c.ty.signed c.sat (xs.foldl (fun m y => if low then min m y else max m y) x)

/-- The number of rows counted, as vd holds it. -/
def State.countOf (s : State) (c : VCtx) (d : BitVec 6) (n : Nat) : EOut :=
  if c.ty.isFloat then .ofF (opOfInt c.fmt c.rnd n)
  else fitted (s.th.ent d).width.toNat c.ty.signed c.sat n

/-- VCOLLAPSE (R279): one result for each group whose row is active. -/
def execVcollapse (d a b : BitVec 6) (s : State) : Out :=
  let w := wordOf (.vcollapse d a b)
  crossWord w s (State.move w (.sreg b)
    { accept := intOrFloat, ops := vops1 d a, dst := d, srcs := [a], regs := [b], taint := fun c s => s.inTaint c [a] [] [.sreg b], work := true,
      reads := fun c s _ =>
        [([a], (s.active c).filter fun e => (s.active c).any fun j =>
          decide (j < ((s.th.sr b).extractLsb' 39 13).toNat) && (groupRows (s.th.sr b) (s.active c) j).contains e)],
      out := fun c s _ =>
        let sh := s.th.sr b
        let es := s.active c
        let op := sh.extractLsb' 52 2
        .ok ((es.filter fun j => decide (j < (sh.extractLsb' 39 13).toNat)).map fun j =>
          let rs := groupRows sh es j
          (j, if op = 0 then s.sumOver c d a rs
              else if op = 1 then s.bestOver c d a false rs
              else if op = 2 then s.bestOver c d a true rs
              else s.countOf c d rs.length)) })

/-! ### VSOFT: R280 -/

/-- The exact difference of two values; NaN and ∞ - ∞ carry their flags. -/
def exactDiff (a b : FVal) : FVal × Flags :=
  match fAdd 0 a (fNegate b) with
  | .nan fl => (.nan false, fl)
  | .inf n fl => (.inf n, fl)
  | .num n m e _ fl => (.fin n m e, fl)

/-- The new maximum: the greatest of the old one and the scores that are not NaN, with the count of the value chosen and the
lower of equal ones, also when it is a zero (R280, R389: log 32); a NaN stays NaN. -/
def softMax (mold : FOpd) (xs : List FOpd) : FOpd :=
  if mold.val.isNan then { mold with val := .nan false, t := 0 }
  else match xs.filter fun x => !x.val.isNan with
    | [] => mold
    | ys => match chooseBest false (mold :: ys) with
      | none => mold
      | some b => { b with t := if b.val.isInf then 0 else b.t }

/-- One output: 2^(x - m), the exact difference, rounded once; a score of -∞ gives +0. -/
def softOut (f : Fmt) (rm : BitVec 3) (x m : FOpd) : FOut :=
  let (dv, fl) := if x.val = .inf true ∧ !m.val.isNan then (FVal.inf true, (0 : Flags)) else exactDiff x.val m.val
  let r := f.finish rm (fExp2 dv)
  let o := FOut.of f r (x.full && m.full) ((Nat.min (Nat.min x.t m.t) f.prec : Int) - 1)
  { o with flags := o.flags ||| fl }

/-- The correction factor c. -/
def softFactor (rm : BitVec 3) (mold mnew : FOpd) (none : Bool) : FOut :=
  let t : Int := (Nat.min (Nat.min mold.t mnew.t) 53 : Int) - 1
  if mnew.val = .inf true ∨ (none ∧ !mnew.val.isNan) then
    .of .b64 (Fmt.b64.finish rm (.num false 1 0 false 0)) false t
  else
    let (dv, fl) := exactDiff mold.val mnew.val
    let o := FOut.of .b64 (Fmt.b64.finish rm (fExp2 dv)) (mold.full && mnew.full) t
    { o with flags := o.flags ||| fl }

/-- The new sum: lold × c + Σ, formed exactly and rounded once. -/
def softSum (rm : BitVec 3) (lold c : FOpd) (outs : List FOpd) : FOut :=
  let (p, fl) : FVal × Flags := match fMul lold.val c.val with
    | .nan fl => (.nan false, fl)
    | .inf n fl => (.inf n, fl)
    | .num n m e _ fl => (.fin n m e, fl)
  let r := Fmt.b64.finish rm (exactSum rm (p :: outs.map (·.val)))
  let ex := outs.foldl (fun a x => maxExp a (errExp x.val x.t)) (prodExp lold.val c.val lold.t lold.p c.t c.p)
  let o := FOut.of .b64 r (lold.full && c.full && outs.all (·.full)) (addTrust .b64 r ex)
  { o with flags := o.flags ||| fl }

/-- A value as a binary64 f-register: every value of a format of the A77 is exact in binary64. -/
def FReg.ofVal (v : FVal) (t : Nat) : FReg := ⟨BitVec.ofNat 64 (Fmt.b64.finish 0 (match v with
  | .nan _ => .nan 0
  | .inf n => .inf n 0
  | .fin n m e => .num n m e false 0)).bits, BitVec.ofNat 6 t, false⟩

/-- An f-register with any value (log 53). -/
def State.freeReg (s : State) (k : Nat) : FReg :=
  ⟨(Config.freeBits s.tick (32768 + k)).setWidth 64, BitVec.ofNat 6 (Config.choose s.tick (32768 + k)), false⟩

/-- VSOFT (R280): one strip of a softmax carried in f[b], f[b + 1], f[b + 2]. -/
def execVsoft (d a : BitVec 6) (b : BitVec 5) (s : State) : Out :=
  let w := wordOf (.vsoft d a b)
  crossWord w s fun c s =>
    match typeFault w c.ty.isFloat <|> s.th.operandFault c.nf c.ty.nfs
        (vops1 d a c ++ [⟨4, workField, .exact 64, .work⟩]) with
    | some i => .error i
    | none =>
      let es := s.active c
      let reg (r : BitVec 5) : List Nat := [(s.th.fr r).bits.toNat, (s.th.fr r).trust.toNat, if (s.th.fr r).ft then 1 else 0]
      let ps : Passes := { word := w, fields := [d, a, workField], dst := [d], tag := [], wide := true, inputs := reg b ++ reg (b + 1) }
      let (s, lost) := s.resumed c ps es
      let xs := es.map fun e => s.fopd c a e
      let (mold, mf) := (s.th.fr b).opd true c.rnd
      let (lold, lf) := (s.th.fr (b + 1)).opd true c.rnd
      let mnew := softMax mold xs
      let cf := softFactor c.rnd mold mnew es.isEmpty
      let outs := xs.map fun x => softOut c.fmt c.rnd x mnew
      let ls := softSum c.rnd lold (Fmt.b64.opd cf.bits cf.t) (outs.map fun o => c.fmt.opd o.bits o.t)
      let fl := if es.isEmpty then 0 else mf ||| lf ||| snanFlag (mold.val :: xs.map (·.val)) ||| cf.flags ||| ls.flags
      let rs := s.lostOut c lost true (es.zip (outs.map EOut.ofF))
      let freg (k : Nat) (x : FReg) : FReg := if lost.isEmpty then x else s.freeReg k
      let tn := s.inTaint c [a] [] [.freg b, .freg (b + 1)]
      match s.stopsOn es with
      | some k =>
        .ok (.paused (((s.atPass c ps es es lost k none).readRows [a] es).upd fun t =>
          (t.setVTaint d (tn ||| t.vTaint d)).setVTaint workField tn))
      | none =>
      let s' := (s.readRows [a] es).writeField d es rs tn 0
      let s' := s'.crossF b (freg 0 (.ofVal mnew.val mnew.t)) tn fl
      let s' := s'.crossF (b + 1) (freg 1 (.ofOut ls true)) tn 0
      let s' := s'.crossF (b + 2) (freg 2 (.ofOut cf true)) tn 0
      let s' := if es.isEmpty then s' else s'.freeWork tn
      .ok { st := (s'.upd Thread.donePidx).checked c true true, trap := sigloss (failing c.mode rs),
            trace := ⟨(s.th.ent d).width.toNat, none⟩ }

end Sys2Proof.Machine
end

