-- ==== Sys2Proof/Machine/VMem.lean ====
section
/-! DEFINITION. Field memory instructions: 12 R267 to R274, with 03 R80 to R82 and 08 R179, R180. -/
namespace Sys2Proof.Machine
open Sys2Proof

/-! ### Elements in memory: Table 12.1 -/

/-- The bytes of an integer or raw element of width w. -/
def intBytes (w : Nat) : Nat := if w ≤ 8 then 1 else if w ≤ 16 then 2 else if w ≤ 32 then 4 else 8

/-- The bytes an element of a type occupies, for a field of width w. -/
def elemSize (t : EType) (w : Nat) : Nat :=
  match t with
  | .sint => intBytes w
  | .uint => intBytes w
  | .raw => intBytes w
  | .f16 => 2
  | .bf16 => 2
  | .f32 => 4
  | .f64 => 8
  | .narrow _ => 1
  | .pair _ => w / 8

/-- Loaded bytes fitted to a field of width w. -/
def fitLoad (c : VCtx) (w m v : Nat) : EOut :=
  if c.ty.isInt then
    let (r, fl) := fit w c.ty.signed c.sat (intOf (8 * m) c.ty.signed v)
    ⟨r, none, fl⟩
  else if c.ty.isFloat then ⟨v % 2 ^ w, some c.fmt.prec, 0⟩
  else ⟨v % 2 ^ w, none, 0⟩

/-- A field's bits as m bytes of memory. -/
def storeBytes (c : VCtx) (w m x : Nat) : List Byte := leBytes m (lowBits (8 * m) (intOf w c.ty.signed x))

/-! ### FMASK: R55, R269 -/

/-- Bit e of FMASK. -/
def Thread.fmaskBit (t : Thread) (e : Nat) : Bool := (t.fmask.toList.getD (e / 64) 0).getLsbD (e % 64)

/-- FMASK with the bits of some elements. -/
def fmaskOf (es : List Nat) : Vector Dword 64 :=
  es.foldl (fun m e => m.set! (e / 64) (m.toList.getD (e / 64) 0 ||| (1#64 <<< (e % 64)))) (.replicate 64 0)

/-- The elements an execution performs: sel of R269. -/
def State.selected (s : State) (c : VCtx) : List Nat :=
  let t := s.th
  let first := if t.pidx.getLsbD 63 then (t.pidx.extractLsb' 0 32).toNat else 0
  (s.active c).filter fun e => (!t.armed || t.fmaskBit e) && decide (first ≤ e)

/-- The progress registers after an execution in which the elements `f` failed. -/
def Thread.afterFaults (t : Thread) (f : List Nat) : Thread :=
  { t.donePidx with fmask := fmaskOf f, armed := !f.isEmpty }

/-! ### Element addresses -/

/-- The pieces of one element, or its fault: R269's order of checks. -/
def State.elemPieces (s : State) (k : Kind) (m : Nat) (va : Dword) : Except XFault (List Piece) :=
  if 2 ^ 56 ≤ va.toNat then .error (XFault.plain cADDRFORM va)
  else if va.toNat % m ≠ 0 then .error (XFault.plain cADDRALIGN va)
  else match s.resolve s.th k va m false with
    | .error (f :: _) => .error f
    | .error [] => .error (XFault.plain cADDRFORM va)
    | .ok ps => .ok ps

/-- The piece of a scatter-add element: no near window, and no device page, which is refused before permission and copy-on-write (R80,
R269). -/
def State.addPieces (s : State) (m : Nat) (va : Dword) : Except XFault (List Piece) :=
  if 2 ^ 56 ≤ va.toNat then .error (XFault.plain cADDRFORM va)
  else if va.toNat % m ≠ 0 then .error (XFault.plain cADDRALIGN va)
  else if regionOf va.toNat = .sup ∧ !s.th.priv then .error (XFault.plain cPRIVSPACE va)
  else if regionOf va.toNat = .near then .error (XFault.plain cNEARRANGE va)
  else match s.leafFor s.th.tid.core s.th.ctx Kind.write.code va with
    | .error f => .error f
    | .ok (leaf, _, big) =>
      if pteCLASS leaf = 2 then .error ⟨cPGPERM, va, if big then 2 else 3, 2, 0, Kind.write.code, big⟩
      else match s.translate s.th.tid.core s.th.ctx .write va with
        | .error f => .error f
        | .ok x => .ok [⟨x.place, m, va, some x⟩]

/-- An element of a field memory instruction: its index, its address, its pieces or its fault. -/
structure MemElt where
  e : Nat
  va : Dword
  at_ : Except XFault (List Piece)

/-- The elements that can be performed, with their pieces. -/
def okElts (xs : List MemElt) : List (Nat × Dword × List Piece) :=
  xs.filterMap fun x => match x.at_ with
    | .ok ps => some (x.e, x.va, ps)
    | .error _ => none

/-- The elements that fail, with their faults. -/
def badElts (xs : List MemElt) : List (Nat × XFault) :=
  xs.filterMap fun x => match x.at_ with
    | .ok _ => none
    | .error f => some (x.e, f)

/-- The address of element e: s[a] + stride × e, or s[a] + m × the index read as a signed integer at its field's width
(R268). -/
def State.strideAddr (s : State) (a : BitVec 6) (stride : Dword) (e : Nat) : Dword :=
  s.th.sr a + stride * BitVec.ofNat 64 e

/-- The index of element e: field or replicated segment. -/
def State.indexOf (s : State) (b : BOp) (segs : List Elt) (e : Nat) : Int :=
  match b with
  | .field v => intOf (s.th.ent v).width.toNat true (s.elt v 0 e).bits
  | .rep v _ => intOf (s.th.ent v).width.toNat true (segs.getD (e % Nat.max 1 segs.length) ⟨0, 0⟩).bits
  | .sreg _ => 0
  | .freg _ => 0

def State.indexAddr (s : State) (a : BitVec 6) (m : Nat) (i : Int) : Dword := s.th.sr a + BitVec.ofInt 64 ((m : Int) * i)

/-! ### Batches: R270 -/

/-- The element before which an execution stops: the first of a batch of 16 selected elements after the first batch, where no element
before it fails. -/
def State.batchEnd (s : State) (xs : List (Nat × Bool)) : Option Nat :=
  let m := (xs.length - 1) / 16
  match if m = 0 then none else s.stopAt with
  | none => none
  | some k =>
    let n := 16 * (1 + k % m)
    if (xs.take n).any (·.2) then none else (xs[n]?).map (·.1)

/-- The elements of an execution, and whether each fails. -/
def outcomes (xs : List MemElt) : List (Nat × Bool) := xs.map fun x => (x.e, match x.at_ with
  | .ok _ => false
  | .error _ => true)

/-- The elements of an execution that stops before one. -/
def beforeCut (cut : Option Nat) (xs : List MemElt) : List MemElt :=
  match cut with
  | none => xs
  | some b => xs.filter fun x => decide (x.e < b)

/-! ### The end of a fault-capable instruction: R269 -/

/-- The addresses of the first and last element performed (R355). -/
def memTrace (w : Nat) (xs : List (Nat × Dword × List Piece)) : Trace :=
  ⟨w, match xs.head?, xs.getLast? with
    | some (_, a, _), some (_, b, _) => some (a, b)
    | _, _ => none⟩

/-- The trap of the failing elements. -/
def elemTrap (bad : List (Nat × XFault)) : TrapInfo :=
  match bad with
  | [] => TrapInfo.mk0 cADDRFORM 0
  | (e, f) :: _ => { TrapInfo.mk0 f.code f.va with
      sub := if f.code = cPGSHR then BitVec.ofNat 8 f.detail else 0,
      index := BitVec.ofNat 32 e, count := BitVec.ofNat 32 bad.length }

/-- The instruction ends: FMASK, FMCTL, PIDX, and the record and the trap when an element failed. -/
def State.endFaults (s : State) (bad : List (Nat × XFault)) (x : Trace) : VEnd :=
  let s := s.upd fun t => t.afterFaults (bad.map (·.1))
  if bad.isEmpty then .done { st := s, trap := none, trace := x }
  else .stay (s.record s.th.ctx (bad.map (·.2)) true) (elemTrap bad)

/-- The end of an execution, or its stop at a batch boundary with the next element and a residual (R270, R272). -/
def State.endBatch (s : State) (cut : Option Nat) (bad : List (Nat × XFault)) (x : Trace) (rho : Option Dword) : VEnd :=
  match cut with
  | none => s.endFaults bad x
  | some b => .done (.paused (s.paused [] b (rho.map fun r => s.th.redhi ++ r)))

/-! ### Loads -/

/-- Elements read in ascending order, before any is written. -/
def State.readElts (s : State) (c : VCtx) (w m : Nat) : List (Nat × Dword × List Piece) → State × List (Nat × EOut)
  | [] => (s, [])
  | (e, _, ps) :: xs =>
    let (s, bs) := s.readPieces true .read ps
    let (s, r) := s.readElts c w m xs
    (s, (e, fitLoad c w m (leVal bs)) :: r)

/-- The elements of a load written: vd's set becomes the instruction's identifier (Table 4.3). -/
def State.writeLoad (s : State) (d : BitVec 6) (id : BitVec 4) (rs : List (Nat × EOut)) : State :=
  let s := rs.foldl (fun s (e, x) => match x.t with
    | none => s.putBits d e x.bits
    | some t => s.putElt d e ⟨x.bits, t⟩) s
  s.upd fun t => ((t.setVTaint d (idSet id)).take id true none).raiseFlags (rs.foldl (fun a (_, x) => a ||| x.flags) 0)

/-- A field load with element addresses (R269, R271). -/
def loadWord (w : IWord) (d : BitVec 6) (b : BOp) (s : State) (addr : VCtx → State → List Elt → Nat → Nat → Dword) :
    Out :=
  takesId s fun id => meetWord w s fun c s =>
    match s.th.operandFault c.nf c.ty.nfs
        (⟨0, d, c.wreq, .dst⟩ :: b.vfield.map fun v => ⟨2, v, .any, .fixed⟩) with
    | some i => .fault i
    | none =>
      let (s, segs) := s.segFor c b
      let wd := (s.th.ent d).width.toNat
      let m := elemSize c.ty wd
      let sel := s.selected c
      let xs := sel.map fun e => (⟨e, addr c s segs m e, s.elemPieces .read m (addr c s segs m e)⟩ : MemElt)
      let cut := s.batchEnd (outcomes xs)
      let xs := beforeCut cut xs
      let ok := okElts xs
      let ps := ok.flatMap fun (_, _, ps) => ps
      let s := s.beforeRead true ps
      let s := (s.pinRows (s.th.viewRows ps)).readRows b.rowField (if b.rowField.isEmpty then [] else sel)
      let (s, rs) := s.readElts c wd m ok
      let s := if sel.isEmpty then s else s.writeLoad d id rs
      s.endBatch cut (badElts xs) (memTrace wd ok) none

/-- VLDU (R268). -/
def execVldu (d a : BitVec 6) (s : State) : Out :=
  loadWord (wordOf (.vldu d a)) d (.sreg 0) s fun _ s _ m e => s.strideAddr a (BitVec.ofNat 64 m) e
/-- VLDS (R268). -/
def execVlds (d a b : BitVec 6) (s : State) : Out :=
  loadWord (wordOf (.vlds d a b)) d (.sreg b) s fun _ s _ _ e => s.strideAddr a (s.th.sr b) e
/-- VLDX (R268). -/
def execVldx (d a : BitVec 6) (b : BOp) (s : State) : Out :=
  loadWord (wordOf (.vldx d a b)) d b s fun _ s segs m e => s.indexAddr a m (s.indexOf b segs e)

/-! ### Stores -/

/-- The operands of a field store: the stored field and the index field. -/
def storeOps (d : BitVec 6) (b : BOp) (c : VCtx) : List Opnd :=
  ⟨0, d, c.wreq, .src⟩ :: b.vfield.map fun v => ⟨2, v, .any, .src⟩

/-- The elements of a store put into the strip store buffer, in ascending order (R86, R271). -/
def State.storeElts (s : State) (xs : List (Nat × Dword × List Piece)) (bytes : Nat → List Byte) : State :=
  s.bufferStore true (xs.flatMap fun (_, _, ps) => ps) (xs.flatMap fun (e, _, _) => bytes e)

/-- A field store with element addresses (R269, R271). -/
def storeWord (w : IWord) (d : BitVec 6) (b : BOp) (s : State) (addr : VCtx → State → List Elt → Nat → Nat → Dword) :
    Out :=
  meetWord w s fun c s =>
    match s.th.operandFault c.nf c.ty.nfs (storeOps d b c) with
    | some i => .fault i
    | none =>
      let (s, segs) := s.segFor c b
      let wd := (s.th.ent d).width.toNat
      let m := elemSize c.ty wd
      let sel := s.selected c
      let xs := sel.map fun e => (⟨e, addr c s segs m e, s.elemPieces .write m (addr c s segs m e)⟩ : MemElt)
      let cut := s.batchEnd (outcomes xs)
      let xs := beforeCut cut xs
      let s' := (s.readRows (d :: b.rowField) sel).storeElts (okElts xs) fun e => storeBytes c wd m (s.elt d 0 e).bits
      s'.endBatch cut (badElts xs) (memTrace wd (okElts xs)) none

/-- VSTU (R268). -/
def execVstu (d a : BitVec 6) (s : State) : Out :=
  storeWord (wordOf (.vstu d a)) d (.sreg 0) s fun _ s _ m e => s.strideAddr a (BitVec.ofNat 64 m) e
/-- VSTS (R268). -/
def execVsts (d a b : BitVec 6) (s : State) : Out :=
  storeWord (wordOf (.vsts d a b)) d (.sreg b) s fun _ s _ _ e => s.strideAddr a (s.th.sr b) e
/-- VSTX (R268). -/
def execVstx (d a : BitVec 6) (b : BOp) (s : State) : Out :=
  storeWord (wordOf (.vstx d a b)) d b s fun _ s segs m e => s.indexAddr a m (s.indexOf b segs e)

/-! ### Scatter-add: R80, R272 -/

/-- The types of Table 3.6. -/
def addable (t : EType) : Bool := t.isInt || t == .f16 || t == .f32 || t == .f64 || t == .bf16

/-- An element merged into the partials of the row-crossing network: equal addresses are combined in element order. -/
def mergeAdd (op : AddOp) (acc : List (Dword × Piece × Nat) × Flags) (va : Dword) (q : Piece) (v : Nat) :
    List (Dword × Piece × Nat) × Flags :=
  match acc.1.find? fun (a, _, _) => a = va with
  | none => (acc.1 ++ [(va, q, v)], acc.2)
  | some (_, _, x) =>
    let (r, fl) := op.apply x v
    (acc.1.map fun (a, q, y) => if a = va then (a, q, r) else (a, q, y), acc.2 ||| fl)

/-- The physical address of a scatter-add element at replica 0. -/
def Piece.pa (q : Piece) : Nat :=
  match q.place with
  | .mem pa _ _ => pa
  | .dev pa => pa
  | .row _ _ _ => 0
  | .arr _ => 0

/-- A partial put into the update of its line, or into a new one. -/
def addPart (op : AddOp) (q : Piece) (v : Nat) : List Buffered → List Buffered
  | [] => [⟨true, false, q.xl.map (·.key), q.place, .add op [(q.pa, BitVec.ofNat 64 v)]⟩]
  | b :: l => match b.op with
    | .write _ => b :: addPart op q v l
    | .add _ parts =>
      if b.via = q.xl.map (·.key) ∧ ((parts.head?.map (·.1)).getD 0) / 128 = q.pa / 128 then
        { b with op := .add op (parts ++ [(q.pa, BitVec.ofNat 64 v)]) } :: l
      else b :: addPart op q v l

/-- One update for each distinct line, with the partials of its elements (R80). -/
def lineUpdates (op : AddOp) (ps : List (Dword × Piece × Nat)) : List Buffered :=
  ps.foldl (fun l (_, q, v) => addPart op q v l) []

/-- VSTADD (R272): one update for each line, held in the strip store buffer until the strip commits (R80, R82). -/
def execVstadd (d a : BitVec 6) (b : BOp) (s : State) : Out :=
  let w := wordOf (.vstadd d a b)
  meetWord w s fun c s =>
    match typeFault w (addable c.ty) <|> s.th.operandFault c.nf c.ty.nfs (storeOps d b c) with
    | some i => .fault i
    | none =>
      let (s, segs) := s.segFor c b
      let wd := (s.th.ent d).width.toNat
      let m := elemSize c.ty wd
      let op : AddOp := ⟨c.ty, BitVec.ofNat 4 m, c.sat, c.rnd⟩
      let sel := s.selected c
      let addr (e : Nat) : Dword := s.indexAddr a m (s.indexOf b segs e)
      let xs := sel.map fun e => (⟨e, addr e, s.addPieces m (addr e)⟩ : MemElt)
      let cut := s.batchEnd (outcomes xs)
      let xs := beforeCut cut xs
      let ok := okElts xs
      let (ps, fl) := ok.foldl (fun acc (e, va, qs) => match qs with
        | [] => acc
        | q :: _ => mergeAdd op acc va q (leVal (storeBytes c wd m (s.elt d 0 e).bits))) (([], 0) : _ × Flags)
      let s' := (ok.flatMap fun (_, _, qs) => qs).foldl (fun s p => s.installPiece .write p) (s.readRows (d :: b.rowField) sel)
      let s' := if 32768 < s'.th.strip.held + m * ps.length then s'.commit else s'
      let s' := s'.upd fun t => { t with strip := { t.strip with buf := t.strip.buf ++ lineUpdates op ps } }
      (s'.upd fun t => t.raiseFlags fl).endBatch cut (badElts xs) (memTrace wd ok) none

/-! ### VSTEF: R179, R180, R272 -/

/-- One step of the residual chain: the code stored, its flags, the next residual. -/
def chainStep (f : Fmt) (x : FVal) (rho : Dword) : Nat × Flags × Dword :=
  let y : Exact := if x.isNan || x.isInf then Exact.ofVal x else fAdd 0 x (Fmt.b64.read rho.toNat)
  let q := f.finish 0 y
  let next : Dword := match y, q.val with
    | .num n m e _ _, .fin n' m' e' =>
      BitVec.ofNat 64 (Fmt.b64.finish 0 (fAdd 0 (.fin n m e) (fNegate (.fin n' m' e')))).bits
    | _, _ => 0
  (q.bits, q.flags, if x.isNan || x.isInf then 0 else next)

/-- The chain over elements in ascending order: codes, flags, residual. -/
def chain (f : Fmt) (rho : Dword) (xs : List (Nat × FVal)) : List (Nat × Nat) × Flags × Dword :=
  xs.foldl (fun (rs, fl, r) (e, x) =>
    let (q, g, r') := chainStep f x r
    (rs ++ [(e, q)], fl ||| g, r')) ([], 0, rho)

/-- VSTEF (R272). -/
def execVstef (d a : BitVec 6) (ty : EType) (s : State) : Out :=
  let w := wordOf (.vstef d a ty)
  meetWord w s fun c s =>
    match typeFault w (c.ty.isFloat && ty.isFloat) <|>
        s.th.operandFault c.nf (c.ty.nfs ++ ty.nfs) [⟨0, d, c.wreq, .src⟩] with
    | some i => .fault i
    | none =>
      let f := ty.fmt c.nf
      let m := elemSize ty f.width
      let es := s.active c
      let resumed := s.th.pidx.getLsbD 63
      let first := (s.th.pidx.extractLsb' 0 32).toNat
      let slot : Fin 32 := (d.extractLsb' 0 5).toFin
      let efb := modeRound c.mode = 5
      let sel := s.selected c
      let addr (e : Nat) : Dword := s.strideAddr a (BitVec.ofNat 64 m) e
      let xs := sel.map fun e => (⟨e, addr e, s.elemPieces .write m (addr e)⟩ : MemElt)
      let cut := s.batchEnd (outcomes xs)
      let xs := beforeCut cut xs
      let es := match cut with
        | none => es
        | some b => es.filter fun e => decide (e < b)
      let run := if efb && resumed then es.filter fun e => decide (first ≤ e) else es
      let (codes, fl, rho) :=
        if efb then chain f (if resumed then s.th.redlo else s.th.efr[slot]) (run.map fun e => (e, (s.fopd c d e).val))
        else
          let rs := es.map fun e => (e, opConv f c.rnd (s.fopd c d e))
          (rs.map fun (e, o) => (e, o.bits), rs.foldl (fun a (_, o) => a ||| o.flags) 0, 0)
      let bad := badElts xs
      let s' := (s.readRows [d] es).storeElts (okElts xs) fun e =>
        leBytes m ((codes.find? fun (i, _) => i = e).map (·.2) |>.getD 0)
      let s' := s'.upd fun t => t.raiseFlags fl
      let s' := if efb && bad.isEmpty && cut.isNone then s'.upd fun t => { t with efr := t.efr.set slot rho } else s'
      s'.endBatch cut bad (memTrace (s.th.ent d).width.toNat (okElts xs)) (if efb then some rho else none)

/-! ### Row-local access: R274 -/

/-- The byte offset of element e within its row. -/
def State.rowOffset (s : State) (a : BitVec 6) (b : BOp) (segs : List Elt) (e : Nat) : Nat :=
  let o : Dword := match b with
    | .field v => BitVec.ofNat 64 (s.elt v 0 e).bits
    | .sreg r => s.th.sr r
    | .rep _ _ => BitVec.ofNat 64 (segs.getD (e % Nat.max 1 segs.length) ⟨0, 0⟩).bits
    | .freg _ => 0
  (s.th.sr a + o).toNat % 128

/-- m bytes of a row from a byte on, wrapping within the row. -/
def wrapBytes (r : Row) (o m : Nat) : List Byte := (List.range m).map fun i => r.extractLsb' (8 * ((o + i) % 128)) 8

/-- The parity of m bytes of a row from a byte on, which wrap at its end, checked as they are read (R24, R347). -/
def State.ownParity (s : State) (e o m : Nat) : State :=
  let p := physRow s.th.base s.th.n e
  let k := Nat.min m (128 - o % 128)
  let s := s.parityRead s.th.tid.core p (8 * (o % 128)) (8 * k)
  if k < m then s.parityRead s.th.tid.core p 0 (8 * (m - k)) else s

/-- VLDL (R274). -/
def execVldl (d a : BitVec 6) (b : BOp) (s : State) : Out :=
  takesId s fun id => meetWord (wordOf (.vldl d a b)) s fun c s =>
    match s.th.operandFault c.nf c.ty.nfs (⟨0, d, c.wreq, .dst⟩ :: b.vfield.map fun v => ⟨2, v, .any, .src⟩) with
    | some i => .fault i
    | none =>
      let (s, segs) := s.segFor c b
      let wd := (s.th.ent d).width.toNat
      let m := elemSize c.ty wd
      let es := s.active c
      let rs := es.map fun e => (e, fitLoad c wd m (leVal (wrapBytes (s.seen e) (s.rowOffset a b segs e) m)))
      let s' := if es.isEmpty then s
        else (es.foldl (fun s e => s.ownParity e (s.rowOffset a b segs e) m) (s.readRows b.rowField es)).writeLoad d id rs
      let at_ (e : Nat) : Dword := BitVec.ofNat 64 (nearBase + 128 * e + s.rowOffset a b segs e)
      .done { st := s', trap := none, trace := memTrace wd (es.map fun e => (e, at_ e, [])) }

/-- The pieces of a row-local store: cut where the bytes wrap. -/
def State.rowPieces (s : State) (e o m : Nat) : List Piece :=
  let p := BitVec.ofNat 12 (physRow s.th.base s.th.n e)
  let piece (b n : Nat) : Piece := ⟨.row s.th.tid.core p (BitVec.ofNat 7 b), n, BitVec.ofNat 64 (nearBase + 128 * e + b), none⟩
  if o + m ≤ 128 then [piece o m] else [piece o (128 - o), piece 0 (o + m - 128)]

/-- VSTL (R274). -/
def execVstl (d a : BitVec 6) (b : BOp) (s : State) : Out :=
  meetWord (wordOf (.vstl d a b)) s fun c s =>
    match s.th.operandFault c.nf c.ty.nfs (storeOps d b c) with
    | some i => .fault i
    | none =>
      let (s, segs) := s.segFor c b
      let wd := (s.th.ent d).width.toNat
      let m := elemSize c.ty wd
      let es := s.active c
      let o (e : Nat) : Nat := s.rowOffset a b segs e
      let at_ (e : Nat) : Dword := BitVec.ofNat 64 (nearBase + 128 * e + o e)
      match es.find? fun e => s.th.checked && (List.range m).any fun i => decide (104 ≤ (o e + i) % 128) with
      | some e => .fault (TrapInfo.mk0 cCHKCOL (at_ e))
      | none =>
        let xs := es.map fun e => (e, at_ e, s.rowPieces e (o e) m)
        let s' := (s.readRows (d :: b.rowField) es).storeElts xs fun e => storeBytes c wd m (s.elt d 0 e).bits
        .done { st := s', trap := none, trace := memTrace wd xs }

end Sys2Proof.Machine
end

