-- ==== Sys2Proof/Machine/Matrix.lean ====
section
/-! DEFINITION. The matrix engine: accumulators, weight planes, streams, drains and checks (13 R282 to R299), with 08 R182
and the matrix rows of Table 8.7, and the matrix queue of 15 R328. -/
namespace Sys2Proof.Machine
open Sys2Proof

/-! ### Formats: Table 13.3 -/

/-- A matrix format: bytes in memory, gang size, whether it is a float. -/
structure MFmt where
  m : Nat
  g : Nat
  float : Bool
  deriving DecidableEq, Repr

/-- The format of a code; the reserved code has none, and i32 has no gang. -/
def MFmt.ofCode (c : BitVec 4) : Option MFmt :=
  if c = 0 ∨ c = 1 then some ⟨1, 1, false⟩
  else if c = 2 ∨ c = 3 then some ⟨2, 2, true⟩
  else if c = 4 then some ⟨4, 4, true⟩
  else if c = 5 then some ⟨8, 8, true⟩
  else if c = 6 then some ⟨4, 0, false⟩
  else if c = 7 then none
  else some ⟨1, 1, true⟩

/-- The float format of a code, with the nf image of a narrow one. -/
def matFmt (c : BitVec 4) (img : Dword) : Fmt :=
  if c = 2 then .b16 else if c = 3 then .bf16 else if c = 4 then .b32 else if c = 5 then .b64 else .ofNf img

/-- The nf image a code names among the captured ones. -/
def matImage (c : BitVec 4) (nf : Vector Dword 8) : Dword := if c < 8 then 0 else nf[(c.extractLsb' 0 3).toFin]

/-- FMTBAD of a descriptor's narrow format: R199, R285. -/
def matFmtBad (c : BitVec 4) (nf : Vector Dword 8) : Option TrapInfo :=
  if c < 8 then none
  else if nfValid nf[(c.extractLsb' 0 3).toFin] then none else some (opFault cFMTBAD 15 (c.toNat - 8))

/-- The integer an element of an integer format stands for. -/
def matInt (c : BitVec 4) (raw : Nat) : Int := intOf 8 (c = 0) raw

/-- MSHAPE with its cause (Table 13.7) and the operand refused. -/
def mshape (cause pos num : Nat) : TrapInfo := { opFault cMSHAPE pos num with sub := BitVec.ofNat 8 cause }

/-! ### Accumulators: R157, R282 -/

/-- Tile n of a thread. -/
def Thread.tile (t : Thread) (n : BitVec 2) : Tile := t.acc[n.toFin]
/-- Tile n of a thread replaced. -/
def Thread.setTile (t : Thread) (n : BitVec 2) (x : Tile) : Thread := { t with acc := t.acc.set n.toFin x }

/-- Elements of a row: binary64 elements take column pairs. -/
def Plane.columns (p : Plane) : Nat := if p.atype = 2 then 32 else 64
/-- The accumulator's float format. -/
def Plane.fmtOf (p : Plane) : Fmt := if p.atype = 2 then .b64 else .b32
/-- P of the accumulator's type; an integer carries no trust. -/
def Plane.prec (p : Plane) : Nat := if p.atype = 0 then 0 else p.fmtOf.prec
/-- The bands of the shape. -/
def Plane.bandCount (p : Plane) : Nat := (List.range 4).foldl (fun a i => if p.bands.getLsbD i then a + 1 else a) 0

/-- The bits of element j of row r. -/
def Tile.get (t : Tile) (r j : Nat) : Nat :=
  if t.plane.atype = 2 then
    (look 0 t.el (64 * r + 2 * j)).toNat + 2 ^ 32 * (look 0 t.el (64 * r + 2 * j + 1)).toNat
  else (look 0 t.el (64 * r + j)).toNat

/-- The count of element j of row r. -/
def Tile.trust (t : Tile) (r j : Nat) : Nat :=
  (look 0 t.tr (64 * r + (if t.plane.atype = 2 then 2 * j else j))).toNat

/-- One 32-bit column of a row written, with its count. -/
def Tile.put32 (t : Tile) (i x tr : Nat) : Tile :=
  { t with el := put 0 t.el i (BitVec.ofNat 32 x), tr := put 0 t.tr i (BitVec.ofNat 6 tr) }

/-- Element j of row r written with its count. -/
def Tile.put (t : Tile) (r j x tr : Nat) : Tile :=
  if t.plane.atype = 2 then (t.put32 (64 * r + 2 * j) (x % 2 ^ 32) tr).put32 (64 * r + 2 * j + 1) (x / 2 ^ 32) tr
  else t.put32 (64 * r + j) x tr

/-- Every element zero with one count. -/
def Tile.zero (t : Tile) (tr : Nat) : Tile :=
  { t with el := [], tr := if tr = 0 then [] else (List.range 8192).map fun i => (i, BitVec.ofNat 6 tr) }

/-! ### The matrix queue: R328 -/

/-- The operations of a core in its queue. -/
def State.matOps (s : State) (core : BitVec 12) : List MatOp := s.mq.filter fun m => m.tid.core = core

/-- The bands of a core that the postmaster has switched off or that are not ready yet. -/
def State.bandsDown (s : State) (core : BitVec 12) : BitVec 4 :=
  look 0 s.thermal.bandOff core.toNat ||| look 0 s.thermal.bandWaking core.toNat

/-- The shape's bands of an accumulator of a thread. -/
def State.bandsOf (s : State) (t : Tid) (n : BitVec 2) : BitVec 4 :=
  match s.threadAt t with
  | none => 0
  | some x => (x.tile n).plane.bands

/-- Whether an operation can start: it waits while every band of its mask is off (R298), and an MCHK while a check of its accumulator has
not ended (R296). -/
def State.matReady (s : State) (m : MatOp) : Bool :=
  decide (s.bandsOf m.tid m.acc &&& ~~~ s.bandsDown m.tid.core ≠ 0)
    && !(m.mchk && (s.threadAt m.tid).any fun t => t.strip.mchecks.any (·.acc = m.acc))

/-- The operations of a thread in its core's queue, in program order. -/
def State.matOf (s : State) (t : Tid) : List MatOp := s.mq.filter fun m => m.tid = t

/-- Whether an operation goes before another: priority, issue, slot. -/
def MatOp.before (x y : MatOp) : Bool :=
  decide (y.prio < x.prio) || (x.prio == y.prio &&
    (decide (x.seq < y.seq) || (x.seq == y.seq && decide (x.tid.slot < y.tid.slot))))

/-- Whether an operation is the first of its thread: the order of R297 is kept within each thread. -/
def State.matFirst (s : State) (m : MatOp) : Bool := (s.matOf m.tid).head? == some m

/-- The next operation of a core whose engine is free. -/
def State.matNext (s : State) (core : BitVec 12) : Option MatOp :=
  let l := s.matOps core
  if l.any (·.started) then none
  else match l.filter (fun m => s.matFirst m && s.matReady m) with
    | [] => none
    | x :: xs => some (xs.foldl (fun b y => if y.before b then y else b) x)

/-- MATRIX_OPERATION_START (R328). -/
def execMatrixOperationStart (core : BitVec 12) (s : State) : Out :=
  agent (match s.matNext core with
    | none => s
    | some x => { s with mq := s.mq.map fun m => if m = x then { m with started := true } else m })

/-- The accumulator of a word that the engine executes, and whether it is an MCHK. -/
def engineOp (i : Option Instr) : Option (BitVec 2 × Bool) :=
  match i with
  | some (.mcfg _ n) => some (n, false)
  | some (.mwld _ _ n) => some (n, false)
  | some (.mwlds _ _ _ n) => some (n, false)
  | some (.mstr _ _ n) => some (n, false)
  | some (.mdrn _ _ n) => some (n, false)
  | some (.mdrnv _ _ n) => some (n, false)
  | some (.mzero n) => some (n, false)
  | some (.mchk _ n) => some (n, true)
  | _ => none

/-- The matrix words that stand one after another in a block from its k-th word on, with their addresses. -/
def Block.matRun (b : Block) (k : Nat) : List (Dword × BitVec 2 × Bool) :=
  (((b.words.zipIdx.drop k).map fun (w, i) => (b.addr + BitVec.ofNat 64 (4 * i), engineOp (blockDecode w))).takeWhile
    fun (_, x) => x.isSome).filterMap fun (a, x) => x.map fun x => (a, x)

/-- The operations that a thread's plies, standing at a matrix word, put into the queue: that word's, and of the matrix words that follow
it as many as a free value says, as far as the queue has room (R297, R328, log 41). -/
def State.enqueue (s : State) (c : VCtx) (n : BitVec 2) (mchk : Bool) (b : Block) : State :=
  let rest := (b.matRun (((c.key.2 - b.addr).toNat / 4) + 1)).take (Config.choose s.tick 2)
  let ops := ((c.key.2, n, mchk) :: rest).filter fun (a, _) => !(s.matOf s.th.tid).any fun m => m.word == (c.key.1, a)
  { s with mq := s.mq ++ (ops.take (16 - (s.matOps s.th.tid.core).length)).map fun (a, n, k) =>
      ⟨s.th.tid, (c.key.1, a), s.th.prio, s.tick, n, k, false⟩ }

/-- A word that the engine executes: when all plies are at it, it is queued; it executes once the engine has started it, and
its entry leaves the queue. -/
def engineWord (w : IWord) (n : BitVec 2) (mchk : Bool) (s : State) (f : VCtx → State → VEnd) : Out :=
  meetWord w s fun c s =>
    match (s.matOf s.th.tid).find? fun m => m.word = c.key with
    | none => .wait (match s.th.running (BitVec.ofNat 4 (c.plies.headD 0)) with
      | none => s
      | some r => s.enqueue c n mchk r.blk)
    | some m =>
      if !m.started then .wait s
      else
        let s := { s with mq := s.mq.filter fun m => !(m.tid = s.th.tid && m.word = c.key) }
        match f c s with
        | .fault i => .stay { s with mq := s.mq.filter fun m => m.tid ≠ s.th.tid } i
        | .done o => .done o
        | .stay s i => .stay { s with mq := s.mq.filter fun m => m.tid ≠ s.th.tid } i
        | .wait s => .wait s

/-- A matrix word done. -/
def matDone (s : State) (width : Nat) (mem : Option (Dword × Dword)) : VEnd :=
  .done { st := s, trap := none, trace := ⟨width, mem⟩ }

/-! ### Shape: R284 -/

/-- MCFG (R284). -/
def execMcfg (a : BitVec 6) (n : BitVec 2) (s : State) : Out :=
  engineWord (wordOf (.mcfg a n)) n false s fun _ s =>
    match s.th.accFault n with
    | some i => .fault i
    | none =>
      let x := s.th.sr a
      let at_ := x.extractLsb' 4 2
      if x.extractLsb' 6 58 ≠ 0 ∨ at_ = 3 ∨ x.extractLsb' 0 4 = 0 then .fault (mshape 1 1 a.toNat)
      else
        let t := s.th.tile n
        let t' := if at_ = t.plane.atype then t else t.zero 0
        let p := { t.plane with valid := false, damaged := false, atype := at_, bands := x.extractLsb' 0 4 }
        matDone (s.upd fun th => th.setTile n { t' with plane := p }) 32 none

/-! ### Operand reads: R68, R286, R289 -/

/-- The elements of m bytes from an address on. -/
def rowAddrs (va : Dword) (m k : Nat) : List Dword := (List.range k).map fun j => va + BitVec.ofNat 64 (m * j)

/-- The pieces of the elements at some addresses, or their faults in order. -/
def State.eltsPieces (s : State) (k : Kind) (m : Nat) (vas : List Dword) : Except (List XFault) (List Piece) :=
  let rs := vas.map fun va => s.elemPieces k m va
  let fs := rs.filterMap fun r => match r with
    | .error f => some f
    | .ok _ => none
  if fs ≠ [] then .error fs
  else .ok (rs.flatMap fun r => match r with
    | .error _ => []
    | .ok ps => ps)

/-- The bytes at a place as a load pipe of the engine finds them: the valid bytes of a line in the issuing core's L1, the
others at the home slice; nothing is allocated (R68). -/
def State.pipePlace (s : State) (q : Place) (n : Nat) : State × List Byte :=
  match q with
  | .mem pa true repl =>
    let at_ := replicaFor s.th.tid.core pa repl
    let (s, home) := (s.eccRead true pa repl n).homeRead s.th.tid.core pa repl n
    match s.l1Find s.th.tid.core at_ with
    | none => (s, home)
    | some way =>
      let w := s.l1At s.th.tid.core (at_ / 128 % 256) way
      (s, home.zipIdx.map fun (x, i) =>
        if w.valid.getLsbD (at_ % 128 + i) then w.data.extractLsb' (8 * (at_ % 128 + i)) 8 else x)
  | .mem pa false repl => s.placeRead (.mem pa false repl) n
  | .dev pa => s.placeRead (.dev pa) n
  | .row c p b => s.placeRead (.row c p b) n
  | .arr k => s.placeRead (.arr k) n

/-- Operand bytes read through the pipes, over which the thread's own unperformed stores are laid. -/
def State.pipeRead (s : State) : List Piece → State × List Byte
  | [] => (s, [])
  | p :: ps =>
    let s := s.installPiece .read p
    let (s, bs) := s.pipePlace p.place p.len
    let bs := overlay (s.ownOf s.th true) p.place bs
    let (s, rest) := s.pipeRead ps
    (s, bs ++ rest)

/-- Bytes cut into elements of m bytes. -/
def elements (m : Nat) : Nat → List Byte → List Nat
  | 0, _ => []
  | k + 1, bs => leVal (bs.take m) :: elements m k (bs.drop m)

/-- Elements read, their view rows pinned (R297). -/
def State.operandRead (s : State) (m k : Nat) (ps : List Piece) : State × List Nat :=
  let s := (s.beforeRead true ps).pinRows (s.th.viewRows ps)
  let (s, bs) := s.pipeRead ps
  (s, elements m k bs)

/-- A trap of an address that is not a multiple of the element size. -/
def misaligned (s : State) (a : BitVec 6) : TrapInfo := TrapInfo.mk0 cADDRALIGN (s.th.sr a)

/-- Whether an address or stride is not a multiple of m. -/
def offGrid (m : Nat) (va : Dword) (stride : BitVec 32) : Bool := va.toNat % m != 0 || stride.toNat % m != 0

/-- The address of row i. -/
def rowAddr (va : Dword) (stride : BitVec 32) (i : Nat) : Dword := va + stride.signExtend 64 * BitVec.ofNat 64 i

/-- The precise trap of an address fault. -/
def XFault.trap (f : XFault) : TrapInfo :=
  { TrapInfo.mk0 f.code f.va with sub := if f.code = cPGSHR then BitVec.ofNat 8 f.detail else 0 }

/-! ### Loading weights: R286, R287 -/

/-- MSHAPE of a weight descriptor: Tables 13.4, 13.7. -/
def weightShape (p : Plane) (b : BitVec 6) (x : Dword) (sparse : Bool) : Option TrapInfo :=
  let k := (x.extractLsb' 32 7).toNat
  let n := (x.extractLsb' 39 7).toNat
  match MFmt.ofCode (x.extractLsb' 46 4) with
  | none => some (mshape 1 2 b.toNat)
  | some f =>
    if x.extractLsb' 50 14 ≠ 0 then some (mshape 1 2 b.toNat)
    else if f.g = 0 then some (mshape 3 2 b.toNat)
    else if k = 0 ∨ 64 / f.g < k ∨ n = 0 ∨ 16 * p.bandCount / f.g < n ∨ p.columns < n ∨ (sparse ∧ k % 8 ≠ 0) then
      some (mshape 2 2 b.toNat)
    else none

/-- The value of an operand in units of 1, or of 2^-1074 for a float; none where it is not finite. -/
def matUnits (code : BitVec 4) (img : Dword) (raw : Nat) : Option Int :=
  if code = 0 ∨ code = 1 then some (matInt code raw)
  else match (matFmt code img).read raw with
    | .fin n m e =>
      let v : Int := (m * 2 ^ (e + 1074).toNat : Nat)
      some (if n then -v else v)
    | .nan _ => none
    | .inf _ => none

/-- The exact sum of values, where all are finite. -/
def sumUnits (l : List (Option Int)) : Option Int :=
  l.foldl (fun a x => match a, x with
    | some a, some x => some (a + x)
    | none, _ => none
    | some _, none => none) (some 0)

/-- The checksum column of a plane's weights: c[k], the exact sum over n of W[k][n] (R286). -/
def Plane.checksum (p : Plane) : List (Nat × Option Int) :=
  (List.range p.k.toNat).map fun k =>
    (k, sumUnits ((List.range p.n.toNat).map fun n => matUnits p.fmt p.nf (look 0 p.weights (64 * k + n)).toNat))

/-- The plane with its checksum column formed and latched. -/
def Plane.summed (p : Plane) : Plane := { p with sums := p.checksum }

/-- Whether the column recomputed from the latched weights differs from the latched column (R295). -/
def Plane.corrupt (p : Plane) : Bool := p.valid && p.checksum != p.sums

/-- A damaged plane: not VALID, and marked (R295). -/
def Plane.damage (p : Plane) : Plane := { p with valid := false, damaged := true }

/-- A weight tile latched, or its fault: `place` puts the elements read into the plane. -/
def State.loadTile (s : State) (n : BitVec 2) (id : BitVec 4) (c : VCtx) (x va : Dword) (rows cols : Nat) (sparse : Bool)
    (place : Nat → Nat) : VEnd :=
  let code := x.extractLsb' 46 4
  let m := ((MFmt.ofCode code).getD ⟨1, 1, false⟩).m
  let vas := (List.range rows).flatMap fun k => rowAddrs (rowAddr va (x.extractLsb' 0 32) k) m cols
  match s.eltsPieces .read m vas with
  | .error fs => .stay (s.record s.th.ctx fs true) ((fs.headD (XFault.plain cADDRFORM va)).trap)
  | .ok ps =>
    let (s, xs) := s.operandRead m (rows * cols) ps
    let ws : List (Nat × Dword) := xs.zipIdx.foldl (fun w (v, i) => put 0 w (place i) (BitVec.ofNat 64 v)) []
    let t := s.th.tile n
    let p : Plane := { t.plane with
      valid := true, damaged := false, weights := ws, k := x.extractLsb' 32 7, n := x.extractLsb' 39 7, fmt := code,
      nf := matImage code c.nf, sparse := sparse }
    let s := s.upd fun th => ({ th with taints := { th.taints with plane := th.taints.plane.set n.toFin (idSet id) } }.setTile n
      { t with plane := p.summed }).take id true none
    matDone s (8 * m) (some (va, vas.getLastD va))

/-- MWLD (R286). -/
def execMwld (a b : BitVec 6) (n : BitVec 2) (s : State) : Out :=
  takesId s fun id => engineWord (wordOf (.mwld a b n)) n false s fun c s =>
    let x := s.th.sr b
    let cols := (x.extractLsb' 39 7).toNat
    match matFmtBad (x.extractLsb' 46 4) c.nf <|> s.th.accFault n <|> weightShape (s.th.tile n).plane b x false with
    | some i => .fault i
    | none =>
      if offGrid ((MFmt.ofCode (x.extractLsb' 46 4)).getD ⟨1, 1, false⟩).m (s.th.sr a) (x.extractLsb' 0 32) then
        .fault (misaligned s a)
      else s.loadTile n id c x (s.th.sr a) (x.extractLsb' 32 7).toNat cols false fun i => 64 * (i / cols) + i % cols

/-- Position i of a metadata element. -/
def metaPos (x i : Nat) : Nat := x / 8 ^ i % 8

/-- Whether the four positions of a metadata element rise. -/
def metaOk (x : Nat) : Bool :=
  decide (metaPos x 0 < metaPos x 1) && decide (metaPos x 1 < metaPos x 2) && decide (metaPos x 2 < metaPos x 3)

/-- MWLDS (R287). -/
def execMwlds (a b v : BitVec 6) (n : BitVec 2) (s : State) : Out :=
  takesId s fun id => engineWord (wordOf (.mwlds a b v n)) n false s fun c s =>
    let x := s.th.sr b
    let cols := (x.extractLsb' 39 7).toNat
    let groups := (x.extractLsb' 32 7).toNat / 8
    let item (q : Nat) : Nat := (s.elt v 0 q).bits
    match matFmtBad (x.extractLsb' 46 4) c.nf
        <|> s.th.operandFault c.nf [] [⟨3, v, .range 12 64, .src⟩]
        <|> s.th.accFault n <|> weightShape (s.th.tile n).plane b x true with
    | some i => .fault i
    | none =>
      if 256 * s.th.n < groups * cols then .fault (mshape 6 3 v.toNat)
      else match (List.range (groups * cols)).find? fun q => !metaOk (item q) with
        | some q => .fault { TrapInfo.mk0 cSPMETA 0 with index := BitVec.ofNat 32 q }
        | none =>
          if offGrid ((MFmt.ofCode (x.extractLsb' 46 4)).getD ⟨1, 1, false⟩).m (s.th.sr a) (x.extractLsb' 0 32) then
            .fault (misaligned s a)
          else (s.readRows [v] (List.range (groups * cols))).loadTile n id c x (s.th.sr a) groups (4 * cols) true fun i =>
            let g := i / (4 * cols)
            let r := i % (4 * cols)
            64 * (8 * g + metaPos (item (g * cols + r / 4)) (r % 4)) + r / 4

/-! ### Accumulation: R182, R290 -/

/-- An exact product as a value, with the flags of forming it. -/
def Exact.asVal : Exact → FVal × Flags
  | .nan fl => (.nan false, fl)
  | .inf n fl => (.inf n, fl)
  | .num n m e _ fl => (.fin n m e, fl)

/-- The exact sum of an accumulator element and products, with the zero sums of R177. -/
def matSum (rm : BitVec 3) (vs : List FVal) : Exact :=
  match exactSum rm vs with
  | .num n m e st fl =>
    if m = 0 then .num (if vs.all (·.neg) then true else if vs.any (·.neg) then rm == 2#3 else false) 0 0 false fl
    else .num n m e st fl
  | .nan fl => .nan fl
  | .inf n fl => .inf n fl

/-- accumulate(acc, a, w) on floats of 16 bits or fewer: one rounding, with the matrix row of Table 8.7. -/
def accNarrow (f sf wf : Fmt) (rm : BitVec 3) (acc : FOpd) (as ws : List Nat) : FOut :=
  let ps := (as.zip ws).map fun (a, w) => (sf.read a, wf.read w)
  let vs := ps.map fun (a, w) => (fMul a w).asVal
  let fl := vs.foldl (fun x (_, g) => x ||| g) 0
  let r := f.finish rm (matSum rm (acc.val :: vs.map (·.1)))
  let ex := ps.foldl (fun x (a, w) => maxExp x (prodExp a w sf.prec sf.prec wf.prec wf.prec)) (errExp acc.val acc.t)
  let o := FOut.of f r acc.full (addTrust f r ex)
  { o with flags := o.flags ||| fl }

/-- accumulate(acc, a, w) on binary32 and binary64: a fused step for each k. -/
def accFused (f sf wf : Fmt) (rm : BitVec 3) (acc : FOpd) (as ws : List Nat) : FOut :=
  (as.zip ws).foldl (fun (o : FOut) (a, w) =>
    let r := opFma f rm false false (sf.opd a sf.prec) (wf.opd w wf.prec) (f.opd o.bits o.t)
    { r with flags := r.flags ||| o.flags }) ⟨acc.bits, acc.t, 0⟩

/-- The weights of column n. -/
def Plane.column (p : Plane) (n : Nat) : List Nat := (List.range p.k.toNat).map fun k => (look 0 p.weights (64 * k + n)).toNat

/-- One element after a row: its bits, count and flags. -/
def Tile.accumulate (t : Tile) (code : BitVec 4) (sf : Fmt) (c : VCtx) (r n : Nat) (as : List Nat) : FOut :=
  let ws := t.plane.column n
  if t.plane.atype = 0 then
    let x := (as.zip ws).foldl (fun x (a, w) => x + matInt code a * matInt t.plane.fmt w) (intOf 32 true (t.get r n))
    let (y, fl) := fit 32 true c.sat x
    ⟨y, 0, fl⟩
  else
    let f := t.plane.fmtOf
    let wf := matFmt t.plane.fmt t.plane.nf
    let acc := f.opd (t.get r n) (t.trust r n)
    if code = 4 ∨ code = 5 then accFused f sf wf c.rnd acc as ws else accNarrow f sf wf c.rnd acc as ws

/-- A row of the tile after a row of A, with the flags. -/
def Tile.addRow (t : Tile) (code : BitVec 4) (sf : Fmt) (c : VCtx) (r : Nat) (as : List Nat) : Tile × Flags :=
  (List.range t.plane.n.toNat).foldl (fun (x, fl) n =>
    let o := t.accumulate code sf c r n as
    (Tile.put x r n o.bits o.t, fl ||| o.flags)) ((t, 0) : Tile × Flags)

/-! ### Streaming: R289 -/

/-- MSHAPE of a stream descriptor: R285, Tables 13.5, 13.7. -/
def streamShape (p : Plane) (n : BitVec 2) (b : BitVec 6) (x : Dword) : Option TrapInfo :=
  let m := (x.extractLsb' 32 8).toNat
  let row0 := (x.extractLsb' 40 7).toNat
  match MFmt.ofCode (x.extractLsb' 47 4) with
  | none => some (mshape 1 2 b.toNat)
  | some f =>
    if x.extractLsb' 51 13 ≠ 0 then some (mshape 1 2 b.toNat)
    else if f.g = 0 then some (mshape 3 2 b.toNat)
    else if m = 0 ∨ 128 < row0 + m then some (mshape 2 2 b.toNat)
    else if !p.valid then some (mshape 4 4 n.toNat)
    else
      let w := (MFmt.ofCode p.fmt).getD ⟨1, 1, false⟩
      if f.g ≠ w.g ∨ f.float ≠ w.float ∨ (f.float = (p.atype == 0)) ∨ (f.g = 8 ∧ p.atype ≠ 2) then
        some (mshape 3 2 b.toNat)
      else none

/-- A check that a row's stream begins (R294). -/
def Thread.checking (t : Thread) (x : MatCheck) : Thread := { t with strip := { t.strip with mchecks := t.strip.mchecks ++ [x] } }

/-- The check of a row of A against a plane (R294): for formats of 16 bits or fewer, whether the sum over n of the product sums differs
from the sum of a_k c_k; sums that are not finite, and the residue checks of wider formats, find nothing by themselves. -/
def Plane.rowDiffers (p : Plane) (code : BitVec 4) (img : Dword) (as : List Nat) : Bool :=
  if code = 4 ∨ code = 5 then false
  else
    let a := as.map (matUnits code img)
    let times (x y : Option Int) : Option Int := x.bind fun x => y.map (x * ·)
    let sent := (List.range p.n.toNat).map fun n =>
      sumUnits ((a.zip (p.column n)).map fun (x, w) => times x (matUnits p.fmt p.nf w))
    let wanted := a.zipIdx.map fun (x, k) => times x (look none p.sums k)
    match sumUnits sent, sumUnits wanted with
    | some x, some y => x != y
    | _, _ => false

/-- The rows a stream still reads are accumulated in order; a row whose bytes fault stops it there (R289). -/
def State.streamRows (n : BitVec 2) (c : VCtx) (x va : Dword) : State → List Nat → State × Option (Nat × XFault)
  | s, [] => (s, none)
  | s, i :: is =>
    let code := x.extractLsb' 47 4
    let m := ((MFmt.ofCode code).getD ⟨1, 1, false⟩).m
    let t := s.th.tile n
    let k := t.plane.k.toNat
    match s.eltsPieces .read m (rowAddrs (rowAddr va (x.extractLsb' 0 32) i) m k) with
    | .error fs => (s, some (i, fs.headD (XFault.plain cADDRFORM va)))
    | .ok ps =>
      let (s, as) := s.operandRead m k ps
      let check : MatCheck := ⟨n, rowAddr va (x.extractLsb' 0 32) i, t.plane.rowDiffers code (matImage code c.nf) as⟩
      let (t, fl) := t.addRow code (matFmt code (matImage code c.nf)) c ((x.extractLsb' 40 7).toNat + i) as
      State.streamRows n c x va (s.upd fun th => ((th.setTile n t).raiseFlags fl).checking check) is

/-- A count of checked rows, saturated (R296). -/
def addRows (c : BitVec 32) (k : Nat) : BitVec 32 := BitVec.ofNat 32 (Nat.min (c.toNat + k) (2 ^ 32 - 1))

/-- Rows of a stream checked: counted (R296). -/
def Thread.rowsStreamed (t : Thread) (n : BitVec 2) (k : Nat) : Thread :=
  let x := t.tile n
  t.setTile n { x with plane := { x.plane with count := addRows x.plane.count k } }

/-- MROW of a stopped stream (Table 7.4). -/
def mrowImage (n : BitVec 2) (i : Nat) : BitVec 10 := n ++ (1#1 ++ BitVec.ofNat 7 i)

/-- The accumulator indices that R187 reports for the rows of a stream whose counts fail. -/
def Tile.failing (t : Tile) (mode : BitVec 26) (row0 m : Nat) : List Nat :=
  if t.plane.atype = 0 then []
  else (List.range m).flatMap fun i => (List.range t.plane.n.toNat).filterMap fun n =>
    if trustFails mode (t.trust (row0 + i) n) then some (t.plane.columns * (row0 + i) + n) else none

/-- MSTR (R289). -/
def execMstr (a b : BitVec 6) (n : BitVec 2) (s : State) : Out :=
  takesId s fun id => engineWord (wordOf (.mstr a b n)) n false s fun c s =>
    let x := s.th.sr b
    let va := s.th.sr a
    let code := x.extractLsb' 47 4
    let rows := (x.extractLsb' 32 8).toNat
    let row0 := (x.extractLsb' 40 7).toNat
    match matFmtBad code c.nf <|> s.th.accFault n with
    | some i => .fault i
    | none =>
      let p := (s.th.tile n).plane
      if p.damaged then .fault (TrapInfo.mk0 cUNCSTATE (n.setWidth 64))
      else match streamShape p n b x with
        | some i => .fault i
        | none =>
          let m := ((MFmt.ofCode code).getD ⟨1, 1, false⟩).m
          if offGrid m va (x.extractLsb' 0 32) then .fault (misaligned s a)
          else
            let mrow := s.th.mrow
            let start := if mrow.getLsbD 7 ∧ mrow.extractLsb' 8 2 = n then (mrow.extractLsb' 0 7).toNat else 0
            let last := match s.stopAt with
              | none => rows
              | some k => if rows ≤ start + 1 then rows else start + 1 + k % (rows - start - 1)
            let (s, stopped) := State.streamRows n c x va s (List.range' start (last - start))
            match stopped with
            | some (i, f) =>
              let rowFaults (j : Nat) : List XFault :=
                match s.eltsPieces .read m (rowAddrs (rowAddr va (x.extractLsb' 0 32) j) m p.k.toNat) with
                | .error fs => fs
                | .ok _ => []
              let all := (List.range' i (rows - i)).map rowFaults
              let s := (s.upd fun t => { t.rowsStreamed n (i - start) with mrow := mrowImage n i }).record s.th.ctx all.flatten true
              .stay s { f.trap with
                index := BitVec.ofNat 32 i, count := BitVec.ofNat 32 (all.filter fun fs => !fs.isEmpty).length }
            | none =>
              if last < rows then
                .done (.paused (s.upd fun t => { t.rowsStreamed n (last - start) with mrow := mrowImage n last }))
              else
              let s := s.upd fun t =>
                let t := { t.rowsStreamed n (rows - start) with mrow := t.mrow &&& 0b1101111111 }
                (t.setAccTaint n (t.accTaint n ||| t.taints.plane[n.toFin] ||| idSet id)).take id true none
              .done { st := s, trap := sigloss ((s.th.tile n).failing c.mode row0 rows),
                      trace := ⟨8 * m, some (rowAddr va (x.extractLsb' 0 32) start, rowAddr va (x.extractLsb' 0 32) (rows - 1) + BitVec.ofNat 64 (m * (p.k.toNat - 1)))⟩ }

/-! ### Drains: R291 to R293 -/

/-- An accumulator element converted to a memory format: its bits and flags. -/
def Tile.drain (t : Tile) (c : VCtx) (code : BitVec 4) (img : Dword) (r j : Nat) : Nat × Flags :=
  let f := (MFmt.ofCode code).getD ⟨1, 1, false⟩
  let raw := t.get r j
  let w := 8 * f.m
  if t.plane.atype = 0 then
    let x := intOf 32 true raw
    if f.float then let o := opOfInt (matFmt code img) c.rnd x; (o.bits, o.flags)
    else fit w (code ≠ 1) c.sat x
  else
    let v := t.plane.fmtOf.read raw
    if f.float then
      let o := (matFmt code img).finish c.rnd (Exact.ofVal v)
      (o.bits, o.flags)
    else opToInt w (code ≠ 1) c.rnd v

/-- The elements of a drained row whose counts fail the trust trap of the mode (R187, R283): the count that the conversion gives, before
it is dropped, at the element's index in the accumulator. -/
def Tile.drainFails (t : Tile) (c : VCtx) (code : BitVec 4) (img : Dword) (r c0 nc : Nat) : List Nat :=
  let f := matFmt code img
  if !((MFmt.ofCode code).getD ⟨1, 1, false⟩).float then []
  else (List.range nc).filterMap fun j =>
    let n := if t.plane.atype = 0 then f.prec
      else (opConv f c.rnd (t.plane.fmtOf.opd (t.get r (c0 + j)) (t.trust r (c0 + j)))).t
    if trustFails c.mode n then some (t.plane.columns * r + c0 + j) else none

/-- MSHAPE of a drain descriptor: Tables 13.6, 13.7. -/
def drainShape (p : Plane) (b : BitVec 6) (x : Dword) : Option TrapInfo :=
  let nc := (x.extractLsb' 38 7).toNat
  let c0 := (x.extractLsb' 32 6).toNat
  if x.extractLsb' 50 14 ≠ 0 ∨ (MFmt.ofCode (x.extractLsb' 45 4)).isNone then some (mshape 1 2 b.toNat)
  else if nc = 0 ∨ p.columns < c0 + nc then some (mshape 2 2 b.toNat)
  else none

/-- The rows that can be stored, with their pieces. -/
def okRows (xs : List (Nat × Dword × Except (List XFault) (List Piece))) : List (Nat × Dword × List Piece) :=
  xs.filterMap fun (e, va, r) => match r with
    | .ok ps => some (e, va, ps)
    | .error _ => none

/-- The rows that fault, with every fault of their bytes. -/
def badRowsOf (xs : List (Nat × Dword × Except (List XFault) (List Piece))) : List (Nat × List XFault) :=
  xs.filterMap fun (e, _, r) => match r with
    | .ok _ => none
    | .error fs => some (e, fs)

/-- MDRN (R291). -/
def execMdrn (a b : BitVec 6) (n : BitVec 2) (s : State) : Out :=
  engineWord (wordOf (.mdrn a b n)) n false s fun c s =>
    let x := s.th.sr b
    let code := x.extractLsb' 45 4
    let nc := (x.extractLsb' 38 7).toNat
    let c0 := (x.extractLsb' 32 6).toNat
    match matFmtBad code c.nf <|> s.th.accFault n with
    | some i => .fault i
    | none =>
      let t := s.th.tile n
      match (if 128 < c.vl then some (mshape 5 4 n.toNat) else none) <|> drainShape t.plane b x with
      | some i => .fault i
      | none =>
        let m := ((MFmt.ofCode code).getD ⟨1, 1, false⟩).m
        let img := matImage code c.nf
        let at_ (e : Nat) : Dword := rowAddr (s.th.sr a) (x.extractLsb' 0 32) e
        let xs := (s.selected c).map fun e => (e, at_ e, s.eltsPieces .write m (rowAddrs (at_ e) m nc))
        let cut := s.batchEnd (xs.map fun (e, _, r) => (e, !r.isOk))
        let xs := match cut with
          | none => xs
          | some k => xs.filter fun (e, _, _) => decide (e < k)
        let ok := okRows xs
        let bad := badRowsOf xs
        let conv (e : Nat) : List (Nat × Flags) := (List.range nc).map fun j => t.drain c code img e (c0 + j)
        let s' := s.storeElts ok fun e => (conv e).flatMap fun (v, _) => leBytes m v
        let fl := ok.foldl (fun f (e, _, _) => (conv e).foldl (fun f (_, g) => f ||| g) f) 0
        let t' := if x.getLsbD 49 then
            ok.foldl (fun t (e, _, _) => (List.range nc).foldl (fun t j => Tile.put t e (c0 + j) 0 t.plane.prec) t) t
          else t
        let s' := s'.upd fun th => (th.setTile n t').raiseFlags fl
        match cut with
        | some k => .done (.paused (s'.paused [] k none))
        | none =>
        let s' := s'.upd fun th => th.afterFaults (bad.map (·.1))
        match bad with
        | [] => .done { st := s', trap := sigloss (ok.flatMap fun (e, _, _) => t.drainFails c code img e c0 nc),
                        trace := memTrace (8 * m) ok }
        | (e, fs) :: _ =>
          .stay (s'.record s.th.ctx (bad.flatMap (·.2)) true)
            { (fs.headD (XFault.plain cADDRFORM 0)).trap with
              index := BitVec.ofNat 32 e, count := BitVec.ofNat 32 bad.length }

/-- An element of a column converted to the MODE type (R292). -/
def Tile.toField (t : Tile) (c : VCtx) (w r j : Nat) : EOut :=
  let raw := t.get r j
  if t.plane.atype = 0 then
    let x := intOf 32 true raw
    if c.ty.isFloat then let o := opOfInt c.fmt c.rnd x; ⟨o.bits, some o.t, o.flags⟩
    else let (v, fl) := fit w c.ty.signed c.sat x; ⟨v, none, fl⟩
  else
    let o := t.plane.fmtOf.opd raw (t.trust r j)
    if c.ty.isFloat then let q := opConv c.fmt c.rnd o; ⟨q.bits, some q.t, q.flags⟩
    else let (v, fl) := opToInt w c.ty.signed c.rnd o.val; ⟨v, none, fl⟩

/-- MDRNV (R292). -/
def execMdrnv (v b : BitVec 6) (n : BitVec 2) (s : State) : Out :=
  let w := wordOf (.mdrnv v b n)
  engineWord w n false s fun c s =>
    let j := (s.th.sr b).toNat % 64
    match typeFault w (c.ty.isInt || c.ty.isFloat) <|> s.th.operandFault c.nf c.ty.nfs [⟨1, v, c.wreq, .dst⟩]
        <|> s.th.accFault n with
    | some i => .fault i
    | none =>
      let t := s.th.tile n
      if 128 < c.vl then .fault (mshape 5 4 n.toNat)
      else if t.plane.columns ≤ j then .fault (mshape 5 2 b.toNat)
      else
        let wd := (s.th.ent v).width.toNat
        let rs := (s.active c).map fun e => (e, t.toField c wd e j)
        let s' := s.writeField v (s.active c) rs (s.th.accTaint n) 0
        .done { st := s'.checked c false false, trap := sigloss (failing c.mode rs), trace := ⟨wd, none⟩ }

/-- MZERO (R293). -/
def execMzero (n : BitVec 2) (s : State) : Out :=
  engineWord (wordOf (.mzero n)) n false s fun _ s =>
    match s.th.accFault n with
    | some i => .fault i
    | none =>
      let t := s.th.tile n
      matDone (s.upd fun th => (th.setTile n (t.zero t.plane.prec)).setAccTaint n 0) 32 none

/-! ### Checks: R296 -/

/-- A matrix check error (R294, R295): it is an error of the open strip, and a plane whose recomputed column differs from the latched
one is damaged. -/
def Thread.matrixError (t : Thread) (n : BitVec 2) (addr : Dword) (soft : Bool) : Thread :=
  let x := t.tile n
  (t.setTile n (if x.plane.corrupt || soft then { x with plane := x.plane.damage } else x)).strike 3 addr

/-- MCHK (R296): the column recomputed and compared, then the count, or 0 without valid weights. -/
def execMchk (a : BitVec 6) (n : BitVec 2) (s : State) : Out :=
  engineWord (wordOf (.mchk a n)) n true s fun _ s =>
    match s.th.accFault n with
    | some i => .fault i
    | none =>
      let s := if (s.th.tile n).plane.corrupt then s.upd fun th => th.matrixError n 0 false else s
      let t := s.th.tile n
      let v : Dword := if t.plane.valid then t.plane.count.setWidth 64 else 0
      matDone (s.upd fun th => (th.setTile n { t with plane := { t.plane with count := 0 } }).setS a v 0) 64 none

/-- MATRIX_CHECK_RESULT (R294, R295): the thread's oldest check ends. It finds a mismatch where its sums differ, where the hardware erred
in forming them, or where a soft error has struck the plane (log 7). -/
def Thread.matrixCheck (t : Thread) (fail soft : Bool) : Thread :=
  match t.strip.mchecks with
  | [] => t
  | m :: ms =>
    let t := { t with strip := { t.strip with mchecks := ms } }
    if !fail && !m.differs then t
    else t.matrixError m.acc m.addr (fail && soft && (t.tile m.acc).plane.valid)

/-! ### SPCOMP: R288 -/

/-- The magnitude of an element as SPCOMP ranks it: a NaN above every number. -/
def spKey (c : VCtx) (w x : Nat) : Key :=
  if c.ty.isFloat then match c.fmt.read x with
    | .nan _ => .int 1
    | .inf _ => .flt (.inf false)
    | .fin _ m e => .flt (.fin false m e)
  else .int (intOf w c.ty.signed x).natAbs

/-- Whether a ranks above b by magnitude. -/
def spAbove (c : VCtx) (a b : Key) : Bool :=
  if c.ty.isFloat then match a, b with
    | .int _, .int _ => false
    | .int _, .flt _ => true
    | .flt _, .int _ => false
    | .flt x, .flt y => fCompare x y == .gt
  else a.cmp b == .gt

/-- The positions of the four best of eight elements, ascending: those with fewer than four elements ranked before them. -/
def spBest (c : VCtx) (ks : List Key) : List Nat :=
  let ix := ks.zipIdx
  (ix.filter fun (k, j) => decide ((ix.filter fun (l, i) =>
    spAbove c l k || (!spAbove c k l && decide (i < j))).length < 4)).map (·.2)

/-- SPCOMP (R288). -/
def execSpcomp (v m x : BitVec 6) (s : State) : Out :=
  let w := wordOf (.spcomp v m x)
  crossWord w s fun c s =>
    match typeFault w (c.ty.isInt || c.ty.isFloat) <|> s.th.operandFault c.nf c.ty.nfs
        [⟨1, v, c.wreq, .dst⟩, ⟨2, m, .range 12 64, .dst⟩, ⟨3, x, c.wreq, .src⟩] with
    | some i => .error i
    | none =>
      let wx := (s.th.ent x).width.toNat
      let el (e : Nat) : Elt := if e < c.vl then s.elt x c.fmt.prec e else ⟨0, c.fmt.prec⟩
      let groups := (List.range ((c.vl + 7) / 8)).map fun q =>
        (q, spBest c ((List.range 8).map fun j => spKey c wx (el (8 * q + j)).bits))
      let vals : List (Nat × EOut) := groups.flatMap fun (q, ps) => ps.zipIdx.map fun (p, i) =>
        (4 * q + i, s.fitMove c v x (el (8 * q + p)))
      let metas : List (Nat × EOut) := groups.map fun (q, ps) =>
        (q, ⟨ps.foldr (fun p a => p + 8 * a) 0, none, 0⟩)
      let tn := c.ctl ||| s.th.vTaint x
      let s' := ((s.readRows [x] (List.range c.vl)).writeField v (List.range c.vl) vals tn 0).writeField m (List.range c.vl) metas tn 0
      .ok { st := s'.checked c true false, trap := none, trace := ⟨(s.th.ent v).width.toNat, none⟩ }

end Sys2Proof.Machine
end

