-- ==== Sys2Proof/Machine/Share.lean ====
section
/-! DEFINITION. Sharing pages, dropping pages and invalidating translations: 02 R46 to R52, R57. A page's share turn and
the start of its invalidation are one step; `INVALIDATION_COMPLETE` ends the page. -/
namespace Sys2Proof.Machine
open Sys2Proof

/-! ### Faults of the share instructions -/

/-- PGSHR with its detail code at an address (R54). -/
def pgshr (va : Dword) (level detail kind : Nat) : XFault := ⟨cPGSHR, va, level, 6, detail, kind, false⟩

/-- The length in pages and XSPACE of s[b]. -/
def sharePages (x : Dword) : Nat := (x.extractLsb' 0 32).toNat
def shareX (x : Dword) : Bool := x.getLsbD 32

/-- One past the last byte of a range of n pages. -/
def rangeEnd (va : Dword) (n : Nat) : Nat := va.toNat + 65536 * n

/-- Whether a range of n pages reaches the near window, crosses VA[55] or leaves the address space. An operand at or above 2^56 is
such a range, and of no page it is none (log 60). -/
def shareRangeBad (va : Dword) (n : Nat) : Bool :=
  let a := va.toNat
  let z := rangeEnd va n
  n != 0 && (decide (2 ^ 56 ≤ a) || decide (2 ^ 56 < z) || regionOf a == .near || regionOf (z - 1) != regionOf a)

/-- The first failing check of R49, in the table's order. `dst` is present for PGSHARE. -/
def State.shareCheck (s : State) (src : Dword) (dst : Option Dword) (x : Dword) : Except XFault Unit :=
  let n := sharePages x
  let as := src :: dst.toList
  if (if dst.isSome then x.extractLsb' 33 31 != 0 else x.extractLsb' 32 32 != 0) then .error (pgshr src 0 1 4)
  else match as.find? fun a => a.extractLsb' 0 16 != 0 with
    | some a => .error (pgshr a 0 2 4)
    | none => match as.find? fun a => shareRangeBad a n with
      | some a => .error (pgshr a 0 3 4)
      | none => match as.find? fun a => !s.th.priv && a.getLsbD 55 with
        | some a => .error (XFault.plain cPRIVSPACE a)
        | none =>
          if (match dst with
              | none => false
              | some d => !shareX x && n != 0 && decide (src.toNat < rangeEnd d n) && decide (d.toNat < rangeEnd src n))
          then .error (pgshr src 0 4 4)
          else if !s.regs.fstbase.getLsbD 0 then .error (pgshr src 0 8 4)
          else .ok ()

/-- Whether the privilege check of R49 lets the thread execute a share instruction: TASKROOT.SHEN, and no XSPACE for task
code. -/
def State.mayShare (s : State) (xspace : Bool) : Bool :=
  s.th.priv || ((s.ctxAt s.th.ctx).taskroot.getLsbD 1 && !xspace)

/-! ### Leaves and slots -/

/-- Bytes of a page. -/
def pageBytes (big : Bool) : Nat := if big then 2 ^ 29 else 65536

/-- Where a walk for a destination ends. -/
inductive Slot where
  | free (at_ : Nat)
  | occupied (level : Nat)
  | fault (f : XFault)
  deriving DecidableEq, Repr

/-- The slot of an address at the level of the source (R50). A leaf at level 1 is no place to go on from: PGWALK (log 60). -/
def slotOf (m : List Host.Cell) (root : Dword) (va : Dword) (big : Bool) : Slot :=
  match topEntry m root va 4 with
  | .error f => .fault f
  | .ok e1 =>
    let n2 := (pteFRAME e1).toNat * 65536
    if !isHbm n2 then .fault (nodeFault va 4 e1 1)
    else
      let a2 := n2 + 8 * (va.extractLsb' 29 13).toNat
      let e2 := memDword m a2
      if big then (if pteV e2 then .occupied 2 else .free a2)
      else if !pteV e2 then .fault (walkFault va 4 cPGMISS 2 1)
      else if pteLEAF e2 then .occupied 2
      else
        let n3 := (pteFRAME e2).toNat * 65536
        if !isHbm n3 then .fault (nodeFault va 4 e2 2)
        else
          let a3 := n3 + 8 * (va.extractLsb' 16 13).toNat
          if pteV (memDword m a3) then .occupied 3 else .free a3

/-- The lines of a page: whether a leaf maps a physical address of replica 0. -/
def leafHas (leaf : Dword) (big : Bool) (pa : Nat) : Bool := leafAddr leaf big (pa % pageBytes big) == pa

/-- Lines of a page in every L1 of the package written back, and invalidated for PGDROP (Table 3.1). -/
def State.flushPage (s : State) (leaf : Dword) (big inval : Bool) : State :=
  s.l1.foldl (fun s (k, w) =>
    if leafHas leaf big w.home then s.l1WriteBack (BitVec.ofNat 12 (k / 3072)) (k / 12 % 256) (k % 12) inval else s) s

/-- A count of the frame share table written (R46). -/
def State.putCount (s : State) (frame : BitVec 32) (n : Nat) : State :=
  s.homeWrite (shareAddr s.regs.fstbase frame) 0 (leBytes 2 n)

/-- The count that a share operation under way has found or left, after another operation's turn on the frame (R48). -/
def InvalWork.moved (w : InvalWork) (frame : BitVec 32) (f : Nat → Nat) : InvalWork :=
  match w with
  | .tlbinv => .tlbinv
  | .share dst leaf big n => .share dst leaf big (if pteFRAME leaf = frame then f n else n)
  | .drop at_ leaf big n => .drop at_ leaf big (if pteFRAME leaf = frame then f n else n)

/-- An operation's turn on a frame's count, as the other operations under way know it (R48). -/
def State.shareTurn (s : State) (frame : BitVec 32) (f : Nat → Nat) : State :=
  { s with inval := s.inval.map fun x => { x with work := x.work.moved frame f } }

/-- The count of a frame at the end of a share operation on it. Where a direct store has come since `known` was found or left there, it
ends with the stored value or with `mine`, the one that the operation would have left without the store (R47, log 7). -/
def State.countEnd (s : State) (frame : BitVec 32) (known mine : Nat) : State :=
  if s.shareCount frame != known && Config.coin s.tick (shareAddr s.regs.fstbase frame) then s else s.putCount frame mine

/-- Operand registers advanced past n pages (R50). -/
def Thread.shareAdvance (t : Thread) (pgs : Bool) (d a b : BitVec 6) (n : Nat) : Thread :=
  let t := t.setS a (t.sr a + BitVec.ofNat 64 (65536 * n)) (t.sTaint a)
  let t := if pgs then t.setS d (t.sr d + BitVec.ofNat 64 (65536 * n)) (t.sTaint d) else t
  let x := t.sr b
  t.setS b ((x &&& 0xFFFFFFFF00000000) ||| BitVec.ofNat 64 (sharePages x - n)) (t.sTaint b)

/-! ### PGSHARE: R50 -/

/-- A destination leaf as PGSHARE writes it: COW set, ACC, DIRTY and V clear, the reserved bits 0 (R7, R50). -/
def sharedLeaf (leaf : Dword) : Dword := (leaf ||| 0x10) &&& ~~~ (0xF00000000000E061 : Dword)

/-- A leaf that a share instruction is processing written at its home slice. Where a supervisor has stored to it since the instruction
wrote `mine`, it ends with that value or with the instruction's (R39). -/
def State.leafWrite (s : State) (at_ : Nat) (mine new : Dword) : State :=
  if memDword s.mem at_ != mine && Config.coin s.tick at_ then s else s.homeWrite at_ 0 (leBytes 8 new.toNat)

/-- One page shared: the checks and the share turn, then the invalidation of the source page. -/
def State.sharePage (s : State) (d a b : BitVec 6) : State :=
  let src := s.th.sr a
  let dst := s.th.sr d
  let x := s.th.sr b
  let (root, tag) := s.rootFor s.th.ctx src
  match walk s.mem root src 4 with
  | .error f => s.accessFault [f] false
  | .ok (leaf, at_, big) =>
    let lv := if big then 2 else 3
    let fr := pteFRAME leaf
    if big && (src.toNat % 2 ^ 29 != 0 || dst.toNat % 2 ^ 29 != 0 || decide (sharePages x < 8192)) then
      s.accessFault [pgshr src lv 2 4] false
    else if !isHbm (fr.toNat * 65536) then s.accessFault [pgshr src lv 5 4] false
    else match slotOf s.mem (if shareX x then s.regs.altroot else (s.rootFor s.th.ctx dst).1) dst big with
      | .fault f => s.accessFault [f] false
      | .occupied l => s.accessFault [pgshr dst l 6 4] false
      | .free slot =>
        let n := s.shareCount fr
        if n = 0 then s.accessFault [pgshr src lv 7 4] false
        else if n = 65535 then s.accessFault [⟨cFSTOVF, src, lv, 7, 0, 4, big⟩] false
        else
          let s := s.homeWrite slot 0 (leBytes 8 (sharedLeaf leaf).toNat)
          let s := s.homeWrite at_ 0 (leBytes 8 (leaf ||| 0x10).toNat)
          let s := (s.putCount fr (n + 1)).shareTurn fr (· + 1)
          { s with inval := s.inval ++ [⟨s.th.tid, some tag, src.extractLsb' 16 40, if big then 8192 else 1,
            .share slot leaf big (n + 1), d, a, b⟩] }

/-- PGSHARE (R49, R50). -/
def execPgshare (d a b : BitVec 6) (s : State) : Out :=
  let w := wordOf (.pgshare d a b)
  ctl w s fun s =>
    let x := s.th.sr b
    if s.awaitsInval s.th.tid then s
    else if !s.mayShare (shareX x) then s.raise (privop w)
    else match s.shareCheck (s.th.sr a) (some (s.th.sr d)) x with
      | .error f => s.accessFault [f] false
      | .ok _ => if sharePages x = 0 then s.upd Thread.advance else s.settle.sharePage d a b

/-! ### PGDROP: R51, R52 -/

/-- The number of entries of the frame pool. -/
def poolLen (fpbase : Dword) : Nat := ((fpbase.extractLsb' 0 8).toNat + 1) * 8192
def Regs.poolFull (r : Regs) : Bool := (r.fptail.toNat + 1) % poolLen r.fpbase == r.fphead.toNat

/-- A freed frame appended to the pool; the entry is written before FPTAIL advances (R52). -/
def State.poolAppend (s : State) (leaf : Dword) (big : Bool) : State :=
  let e := packFields [((pteFRAME leaf).toNat, 32, 16), ((pteREPL leaf).toNat, 2, 4), (if pteIL leaf then 1 else 0, 1, 3),
    (if big then 1 else 0, 2, 0)]
  let at_ := (s.regs.fpbase.extractLsb' 16 32).toNat * 65536 + 8 * s.regs.fptail.toNat
  let s := s.homeWrite at_ 0 (leBytes 8 e.toNat)
  { s with regs := { s.regs with fptail := BitVec.ofNat 32 ((s.regs.fptail.toNat + 1) % poolLen s.regs.fpbase) } }

/-- The pages that an invalid entry of a level covers. -/
def levelPages (lv : Nat) : Nat := if lv = 3 then 1 else if lv = 2 then 8192 else 2 ^ 26

/-- One page dropped, or one unmapped region skipped. Under a root that is not enabled no entry is read and nothing is skipped: PGMISS. Of
a 512 MiB leaf N is misaligned where it is no multiple of 8,192 (log 60). -/
def State.dropPage (s : State) (a b : BitVec 6) : State :=
  let va := s.th.sr a
  let n := sharePages (s.th.sr b)
  let (root, tag) := s.rootFor s.th.ctx va
  match walk s.mem root va 4 with
  | .error f =>
    if f.code = cPGMISS && root.getLsbD 0 then
      let u := levelPages f.level
      s.upd fun t => t.shareAdvance false 0 a b (Nat.min n (u - va.toNat / 65536 % u))
    else s.accessFault [f] false
  | .ok (leaf, at_, big) =>
    let fr := pteFRAME leaf
    let hbm := isHbm (fr.toNat * 65536)
    if big && (va.toNat % 2 ^ 29 != 0 || n % 8192 != 0) then s.accessFault [pgshr va 2 2 4] false
    else if hbm && s.shareCount fr == 1 && s.regs.poolFull then s.raise (TrapInfo.mk0 cPOOLFULL va)
    else
      let n' := s.shareCount fr
      let s := s.homeWrite at_ 0 (leBytes 8 0)
      { s with inval := s.inval ++ [⟨s.th.tid, some tag, va.extractLsb' 16 40, if big then 8192 else 1,
        .drop at_ leaf big (if hbm then n' else 0), 0, a, b⟩] }

/-- PGDROP (R49, R51). -/
def execPgdrop (a b : BitVec 6) (s : State) : Out :=
  let w := wordOf (.pgdrop a b)
  ctl w s fun s =>
    let x := s.th.sr b
    if s.awaitsInval s.th.tid then s
    else if !s.mayShare false then s.raise (privop w)
    else match s.shareCheck (s.th.sr a) none x with
      | .error f => s.accessFault [f] false
      | .ok _ => if sharePages x = 0 then s.upd Thread.advance else s.settle.dropPage a b

/-! ### TLBINV: R57 -/

/-- Whether a thread may invalidate what s[b] names: task code only the translations of its own CTXID (R57). -/
def State.mayInvalidate (s : State) (x : Dword) : Bool := s.th.priv || x.extractLsb' 32 17 == 0

/-- TLBINV (R57): the PC advances when the invalidation completes. -/
def execTlbinv (a b : BitVec 6) (s : State) : Out :=
  let w := wordOf (.tlbinv a b)
  ctl w s fun s =>
    let x := s.th.sr b
    let va := s.th.sr a
    if s.awaitsInval s.th.tid then s
    else if !s.mayInvalidate x then s.raise (privop w)
    else if x.extractLsb' 49 15 ≠ 0 then s.accessFault [pgshr (va / 65536 * 65536) 0 1 5] false
    else
      let tag : Option (BitVec 16) :=
        if !s.th.priv then some (s.rootFor s.th.ctx 0).2
        else if x.getLsbD 48 then none
        else if x.extractLsb' 32 16 = 0 then some 0xFFFF
        else some (x.extractLsb' 32 16)
      let s := s.settle
      { s with inval := s.inval ++ [⟨s.th.tid, tag, va.extractLsb' 16 40, sharePages x, .tlbinv, 0, a, b⟩] }

/-! ### Completion: R57 -/

/-- Whether an invalidation names a page of a run of n pages of 64 KiB that a tag translates. -/
def Inval.covers (x : Inval) (tag : BitVec 16) (lo n : Nat) : Bool :=
  (match x.tag with | none => true | some g => tag == g) &&
    (x.count == 0 || (decide (lo < x.page.toNat + x.count) && decide (x.page.toNat < lo + n)))

/-- Whether it names a translation. -/
def Inval.names (x : Inval) (k : TlbKey) : Bool := x.covers k.tag k.pages.1 k.pages.2

/-- Whether it names a page that a held table pointer leads to. -/
def Inval.leads (x : Inval) (w : WalkEnt) : Bool :=
  let n := if w.level = 2 then 8192 else 2 ^ 26
  x.covers w.tag (w.index.toNat * n) n

/-- Whether a part of a copy or of a collective operand was translated through a named entry. -/
def Inval.inRuns (x : Inval) (l : List Run) : Bool := l.any fun r => r.via.any x.names

/-- The parts of a chunk's side that lie in this package. -/
def CopySide.here : CopySide → List Run
  | .runs l => l
  | .fabric _ => []
  | .beyond => []

/-- Whether an access that used a named entry has still to be performed: a store or update on its way or in an open strip, a chunk of a
copy with its arrival, a collective that has not been carried out. -/
def State.invalPending (s : State) (x : Inval) : Bool :=
  (s.drain.any fun (_, b) => b.via.any x.names)
    || (s.threads.any fun t => t.strip.buf.any fun b => b.via.any x.names)
    || (s.sliceQ.any fun r => r.via.any x.names) || (s.repQ.any fun r => r.via.any x.names)
    || (s.chunks.any fun c => x.inRuns c.src.here || x.inRuns c.dst.here || c.arrVia.any x.names)
    || s.groups.any fun (_, g) => !g.failed && g.ops.any fun o => !o.over g && (x.inRuns o.src || x.inRuns o.dst)

/-- The named translations dropped by every cache of the package. -/
def State.dropNamed (s : State) (x : Inval) : State :=
  { s with
    tlb := s.tlb.filter fun t => !x.names t.key,
    ctlb := s.ctlb.filter fun t => !x.names t.key,
    wcache := s.wcache.filter fun w => !x.leads w }

/-- The end of a page of PGSHARE: the destination becomes valid, the operands advance. -/
def State.shareEnd (s : State) (x : Inval) (dst : Nat) (leaf : Dword) (big : Bool) (count : Nat) : State :=
  let s := (s.flushPage leaf big false).countEnd (pteFRAME leaf) count count
  let s := s.leafWrite dst (sharedLeaf leaf) (sharedLeaf leaf ||| 1)
  s.mapThreads fun t => if t.live && t.tid = x.tid then t.shareAdvance true x.d x.a x.b (if big then 8192 else 1) else t

/-- The end of a page of PGDROP: the count falls, and a frame freed enters the pool. -/
def State.dropEnd (s : State) (x : Inval) (at_ : Nat) (leaf : Dword) (big : Bool) (n : Nat) : State :=
  let s := s.flushPage leaf big true
  let fr := pteFRAME leaf
  let adv (s : State) : State := s.mapThreads fun t =>
    if t.live && t.tid = x.tid then t.shareAdvance false x.d x.a x.b (if big then 8192 else 1) else t
  if !isHbm (fr.toNat * 65536) then adv s
  else
    if n = 0 then
      let s := (s.leafWrite at_ 0 leaf).focus x.tid
      if s.focused x.tid then s.accessFault [pgshr (s.th.sr x.a) (if big then 2 else 3) 7 4] false else s
    else
      let s := (s.countEnd fr n (n - 1)).shareTurn fr (· - 1)
      adv (if n = 1 then s.poolAppend leaf big else s)

/-- Whether a pool entry must wait for space. The pool had room when the page was checked; where it is full by the time that the freed
frame is to be appended, the rules are silent, and the page's end waits for the supervisor to make room (log 77). -/
def State.poolWaits (s : State) (x : Inval) : Bool :=
  match x.work with
  | .drop _ leaf _ n => isHbm ((pteFRAME leaf).toNat * 65536) && n == 1 && s.regs.poolFull
  | .tlbinv => false
  | .share _ _ _ _ => false

/-- Whether broadcast k can complete. -/
def State.invalReady (s : State) (k : Nat) : Bool :=
  match s.inval[k]? with
  | none => false
  | some x => !s.invalPending x && !s.poolWaits x

/-- Broadcast k completes: the named translations are gone on every die. -/
def State.invalComplete (s : State) (k : Nat) : State :=
  match s.inval[k]? with
  | none => s
  | some x =>
    if !s.invalReady k then s
    else
      let s := State.dropNamed { s with inval := s.inval.eraseIdx k } x
      match x.work with
      | .tlbinv => s.mapThreads fun t => if t.live && t.tid = x.tid then t.advance else t
      | .share dst leaf big n => s.shareEnd x dst leaf big n
      | .drop at_ leaf big n => s.dropEnd x at_ leaf big n

/-- INVALIDATION_COMPLETE (R57). -/
def execInvalidationComplete (k : Nat) (s : State) : Out := agent (s.invalComplete k)

/-- A walker's result installed for a later access of a translated region: nothing when the walk faults or the translation is
held (R37, R56). -/
def State.pageWalk (s : State) (t : Tid) (va : Dword) : State :=
  match s.threadAt t with
  | none => s
  | some x =>
    let (root, tag) := s.rootFor x.ctx va
    if decide (2 ^ 56 ≤ va.toNat) || regionOf va.toNat == .near || (s.tlbHit t.core tag va).isSome then s
    else match s.missWalk t.core tag root va 0 with
      | .error _ => s
      | .ok (leaf, at_, big) =>
        s.install t.core x.ctx .read va
          ⟨leafAddr leaf big va.toNat, pteCLASS leaf, pteREPL leaf, at_, big, leaf, keyFor tag va big⟩

/-- PAGE_WALK (R56). -/
def execPageWalk (t : Tid) (va : BitVec 64) (s : State) : Out := agent (s.pageWalk t va)

end Sys2Proof.Machine
end

