-- ==== Sys2Proof/Machine/Sys.lean ====
section
/-! DEFINITION. The system instructions: 10 R209 to R215, 16 R339, 06 R146. -/
namespace Sys2Proof.Machine
open Sys2Proof

/-! ### NOP, TRAP, BKPT: R209, R210 -/

/-- NOP (R209). -/
def execNop (s : State) : Out := ctl (wordOf .nop) s fun s => s.upd Thread.advance

/-- TRAP (R210): the strip is committed, SWTRAP is taken after completion. -/
def execTrap (a : BitVec 6) (s : State) : Out :=
  ctl (wordOf (.trap a)) s fun s => (s.commit.upd Thread.advance).raise (TrapInfo.mk0 cSWTRAP (s.th.sr a))

/-- BKPT (R210): BREAK with the PC on the word. -/
def execBkpt (s : State) : Out := ctl (wordOf .bkpt) s fun s => s.raise (TrapInfo.mk0 cBREAK 0)

/-! ### ERET: R211, R339 -/

/-- The words a saved block is refetched to: one word, or through its PEND. -/
def State.refetch (s : State) (priv : Bool) (image : Dword) : Except FetchFault (State × List IWord) :=
  if image.getLsbD 0 then s.fetchOne priv (wordAddr image) else s.fetchBlock priv (wordAddr image)

/-- The TBQ entries in use: their numbers. -/
def TrapRegs.queued (r : TrapRegs) : List Nat := (List.range 4).filter fun i => (r.tbqa.toList.getD i 0).getLsbD 63

/-- DONE bit j of TBQ entry i. -/
def TrapRegs.doneBit (r : TrapRegs) (i j : Nat) : Bool := (r.tbqm.toList.getD i 0).getLsbD (48 + j)

/-- The dispatch number of the block in which ply j stands: that of the last TBQ entry that it has entered, else one that
precedes them all. Plies that stand in no queued block stand in the same one, since a ply holds every later block
queued (R134, R335). -/
def TrapRegs.originOf (r : TrapRegs) (seq j : Nat) : Nat :=
  match (r.queued.filter fun i => r.doneBit i j).getLast? with
  | none => seq
  | some i => seq + 1 + i

/-- The copies of a saved ply or block: VL and MODE. -/
def savedVl (x : Dword) : BitVec 13 := x.extractLsb' 32 13
def savedMode (x : Dword) : BitVec 26 := x.extractLsb' 0 26

/-- Ply j resumed from TPPC, TPBS and TPMD. Its narrow formats are those that stand now, since only MODE and VL are saved, and its
copy of MODE is the image as it stands, legal or not (log 66). -/
def State.resumePly (s : State) (priv : Bool) (j : Nat) : Except FetchFault State :=
  let r := s.th.trap
  let pc := r.tppc.toList.getD j 0
  let bs := r.tpbs.toList.getD j 0
  let md := r.tpmd.toList.getD j 0
  if !pc.getLsbD 0 then .ok s
  else match s.refetch priv bs with
    | .error f => .error f
    | .ok (s, ws) =>
      let o := r.originOf s.th.nextSeq j
      let b : Block := { seq := o, words := ws, addr := wordAddr bs, one := bs.getLsbD 0, mode := savedMode md,
                         vl := savedVl md, ctl := 0, nf := s.th.nf }
      let x : Running := { origin := o, blk := b, pc := wordAddr pc, mode := savedMode md, vl := savedVl md, ctl := 0,
                           wait := .running }
      .ok (s.upd fun t => t.setPly j { t.plyAt j with run := some x })

/-- TBQ entry i queued on every owned ply whose DONE bit is clear. -/
def State.requeue (s : State) (priv : Bool) (i : Nat) : Except FetchFault State :=
  let r := s.th.trap
  let a := r.tbqa.toList.getD i 0
  let m := r.tbqm.toList.getD i 0
  match s.refetch priv a with
  | .error f => .error f
  | .ok (s, ws) =>
    let b : Block := { seq := s.th.nextSeq + 1 + i, words := ws, addr := wordAddr a, one := a.getLsbD 0,
                       mode := savedMode m, vl := savedVl m, ctl := 0, nf := s.th.nf }
    .ok (s.upd fun t => (List.range t.n).foldl (fun t j =>
      if r.doneBit i j then t else t.setPly j { t.plyAt j with queue := (t.plyAt j).queue ++ [b] }) t)

/-- Each of a list of steps that may fail. -/
def forEach {ε : Type} (f : State → Nat → Except ε State) : State → List Nat → Except ε State
  | s, [] => .ok s
  | s, x :: xs => match f s x with
    | .error e => .error e
    | .ok s => forEach f s xs

/-- The plies and the queued blocks of a thread taken up again, as ERET and a restore do (R339, R351). -/
def State.resumeBlocks (s : State) (priv : Bool) : Except FetchFault State :=
  match forEach (fun s j => s.resumePly priv j) s (List.range s.th.n) with
  | .error f => .error f
  | .ok s => match forEach (fun s i => s.requeue priv i) s s.th.trap.queued with
    | .error f => .error f
    | .ok s => .ok (s.upd fun t => { t with
        nextSeq := t.nextSeq + 5,
        trap := { t.trap with
          tbqa := t.trap.tbqa.map fun x => x &&& 0x7FFFFFFFFFFFFFFF,
          tppc := t.trap.tppc.map fun x => x &&& 0xFFFFFFFFFFFFFFFE } })

/-- The trap of an address fault. -/
def XFault.info (f : XFault) : TrapInfo :=
  { TrapInfo.mk0 f.code f.va with sub := if f.code = cPGSHR then BitVec.ofNat 8 f.detail else 0 }

/-- A refetch that faults is a new class B trap: TEPC and the saved plies and blocks stay (R339). -/
def State.refetchTrap (s : State) (f : FetchFault) : State :=
  let (s, i) := match f with
    | .fetch x => (s.record s.th.ctx [x] false, x.info)
    | .word i => (s, i)
  s.upd fun t =>
    let trap := { t.trap with
      cause := causeImage i none, val := i.val, info := i.count ++ i.index, stamp := s.cycles, svc := true, inh := true }
    { t with trap := trap, priv := true, taints := .empty, pc := trap.vbase + 16 * i.code.setWidth 64 }.openStrip true

/-- The return from a trap (R339). -/
def State.returnFromTrap (s : State) : State :=
  let s := s.commit
  match s.resumeBlocks s.th.trap.ppriv with
  | .error f => s.refetchTrap f
  | .ok s => s.upd fun t =>
    { t with
      priv := t.trap.ppriv, pc := t.trap.epc, taints := .empty,
      trap := { t.trap with svc := false, inh := false } }.openStrip true

/-- ERET (R211, R339): it waits for the handler's blocks and taints. -/
def execEret (s : State) : Out :=
  ctl (wordOf .eret) s fun s =>
    if !s.th.priv then s.raise (privop (wordOf .eret))
    else if !s.th.trap.svc then s.raise (illop (wordOf .eret))
    else if s.th.blocksEnded && s.th.out.isEmpty then s.returnFromTrap
    else s

/-! ### WFE and YIELD: R212, R213 -/

/-- WFE (R212). -/
def execWfe (s : State) : Out :=
  ctl (wordOf .wfe) s fun s => s.upd fun t =>
    if t.event then { t with event := false, sleep := .awake }.advance else { t with sleep := .wfe }

/-- WFE_WAKE (R212). -/
def execWfeWake (t : Tid) (s : State) : Out := agent (s.updThread t Thread.signal)
/-- WFE_TIMEOUT (R212): only of a thread that sleeps in WFE. -/
def execWfeTimeout (t : Tid) (s : State) : Out :=
  agent (s.updThread t fun x => if x.sleep = .wfe then x.signal else x)

/-- YIELD (R213). -/
def execYield (s : State) : Out :=
  ctl (wordOf .yield) s fun s => s.upd fun t => { t with sleep := .yield, aged := false }.advance
/-- YIELD_EXPIRY (R213). -/
def execYieldExpiry (t : Tid) (s : State) : Out :=
  agent (s.updThread t fun x => if x.sleep = .yield then { x with sleep := .awake } else x)

/-! ### SYNCI: R214 -/

/-- The instruction path of a core discards what it holds (R214). -/
def State.clearPath (s : State) (core : BitVec 12) : State :=
  { s with ipath := s.ipath.filter fun x => x.1 / 2 ^ 41 != core.toNat }

/-- SYNCI (R214): once its blocks have ended, earlier stores are performed, the core's dirty lines written back, and its instruction
path discards what it holds. -/
def execSynci (s : State) : Out :=
  ctlWhen (wordOf .synci) s (s.th.blocksEnded && s.linesFree s.th) fun s =>
    ((s.release none).clearPath s.th.tid.core).upd Thread.advance

/-! ### BOOST and UNBOOST: R215, R352, R365 -/

/-- The whole microseconds a lease has left. -/
def State.leaseLeft (s : State) (t : Thread) : Nat :=
  match t.lease with
  | none => 0
  | some (_, fin) => (fin.toNat - s.cycles.toNat) / 700

/-- Whether the duration of a thread's lease is over. -/
def State.leaseOver (s : State) (t : Thread) : Bool := t.lease.all fun (_, fin) => decide (fin.toNat ≤ s.cycles.toNat)

/-- The number of bands in a mask. -/
def bandCount (m : BitVec 4) : Nat := (List.range 4).foldl (fun a i => if m.getLsbD i then a + 1 else a) 0

/-- Whether a lease on bands can be granted to a thread (R365); none is while the postmaster restarts (R374). -/
def State.mayBoost (s : State) (t : Thread) (bands : BitVec 4) : Bool :=
  bands != 0 && decide ((s.thermal.band.toList.getD (dieOf t.tid.core) 0).toNat ≤ 1)
    && (bands &&& look 0 s.thermal.bandOff t.tid.core.toNat) == 0
    && decide (33 * bandCount bands ≤ s.thermal.pool) && !(s.pm.busy && s.pm.op = 4)

/-- A lease of some microseconds given to a thread: its budget is reserved, its bands run at the boost voltage. -/
def State.giveLease (s : State) (t : Tid) (bands : BitVec 4) (us : Nat) : State :=
  let k := t.core.toNat
  let s := { s with thermal := { s.thermal with
    pool := s.thermal.pool - 33 * bandCount bands, leases := s.thermal.leases ++ [t],
    boosted := put 0 s.thermal.boosted k (look 0 s.thermal.boosted k ||| bands) } }
  s.updThread t fun x => { x with lease := some (bands, s.cycles + BitVec.ofNat 64 (700 * us)) }

/-- BOOST (R215): a second request writes what is left; a mask of 0 requests nothing, and the model writes 0, none having been granted
(log 80); else the thread waits. -/
def execBoost (d a b : BitVec 6) (s : State) : Out :=
  ctl (wordOf (.boost d a b)) s fun s => s.upd fun t =>
    let bands := (t.sr b).extractLsb' 0 4
    let us := BitVec.ofNat 10 (Nat.min 500 ((t.sr a).extractLsb' 0 10).toNat)
    if t.lease.isSome then (t.setS d (BitVec.ofNat 64 (s.leaseLeft t)) 0).noRewind.advance
    else if bands = 0 then (t.setS d 0 0).noRewind.advance
    else { t.noRewind with sleep := .boost d bands us }

/-- The answer to a BOOST: at most the microseconds asked for, 0 when the terms of R365 do not hold. -/
def State.boostAnswer (s : State) (t : Tid) (granted : Nat) : State :=
  match s.threadAt t with
  | none => s
  | some x => match x.sleep with
    | .boost d bands us =>
      let g := if s.mayBoost x bands then Nat.min granted us.toNat else 0
      let s := if g = 0 then s else s.giveLease t bands g
      s.updThread t fun x => { (x.setS d (BitVec.ofNat 64 g) 0).advance with sleep := .awake }
    | .awake => s
    | .wfe => s
    | .arrwait => s
    | .arrread => s
    | .yield => s
    | .colwait _ => s

/-- BOOST_ANSWER (R215). -/
def execBoostAnswer (t : Tid) (granted : BitVec 10) (s : State) : Out := agent (s.boostAnswer t granted.toNat)

/-- UNBOOST (R215). -/
def execUnboost (s : State) : Out :=
  ctl (wordOf .unboost) s fun s => (s.endLease s.th.tid).upd fun t => t.noRewind.advance

/-! ### HALT: R146 -/

/-- The arrival of one byte at the completion word, or the event that reports why it is not made. -/
def State.completionArrival (s : State) : State :=
  let t := s.th
  match s.arrPlace t .amo t.done with
  | .error f => (s.record t.ctx [f] false).event f.info t.ctx t.tid
  | .ok (p, x) =>
    let (s, o) := (s.installArr .amo t.done x).arrApply p 1
    match o with
    | none => s
    | some y => s.event (overrun t.done y) t.ctx t.tid

/-- HALT (R146). -/
def execHalt (s : State) : Out :=
  ctlWhen (wordOf .halt) s (s.th.vecQuiet && s.linesFree s.th) fun s =>
    let s := (s.release none).completionArrival
    s.endThread

end Sys2Proof.Machine
end

