-- ==== Sys2Proof/Machine/SysReg.lean ====
section
/-! DEFINITION. The system registers: 07 R158 to R166, 10 R226, 16 R334, R355, 02 R35, R52, R59. -/
namespace Sys2Proof.Machine
open Sys2Proof

/-! ### Per-thread registers: Table 7.5 -/

/-- FMENTi: Table 7.6. -/
def fmentImage (e : Option FieldEnt) : Dword :=
  match e with
  | none => 0
  | some f => packFields [(1, 1, 18), (if f.trust then 1 else 0, 1, 17), (f.width.toNat, 7, 10), (f.base.toNat, 10, 0)]

/-- The field-map entry of an FMENT image. -/
def fmentOf (v : Dword) : Option FieldEnt :=
  if v.getLsbD 18 then some ⟨v.extractLsb' 0 10, v.extractLsb' 10 7, v.getLsbD 17⟩ else none

/-- The per-thread register of an index of 0x0000 to 0x00BF; 0 where the index is not a thread's. -/
def Thread.reg (t : Thread) (i : Nat) : Dword :=
  if i = 0 then t.mode.setWidth 64
  else if i = 1 then t.vl.setWidth 64
  else if i = 2 then t.flags.setWidth 64
  else if i = 3 then t.scm
  else if i = 4 then packFields [(if t.priv then 1 else 0, 1, 1), (if t.checked then 1 else 0, 1, 0)]
  else if i = 5 then t.spfoot.setWidth 64
  else if i = 6 then t.mrow.setWidth 64
  else if i = 7 then t.pidx
  else if i = 8 then t.redlo
  else if i = 9 then t.redhi
  else if i = 10 then (if t.armed then 1 else 0)
  else if 0x10 ≤ i ∧ i < 0x18 then t.nf.toList.getD (i - 0x10) 0
  else if 0x20 ≤ i ∧ i < 0x40 then t.efr.toList.getD (i - 0x20) 0
  else if 0x40 ≤ i ∧ i < 0x80 then t.fmask.toList.getD (i - 0x40) 0
  else if 0x80 ≤ i ∧ i < 0xC0 then fmentImage (t.fent (BitVec.ofNat 6 (i - 0x80)))
  else 0

/-- A per-thread register of 0x0000 to 0x00BF given an image; THRCTL gives both of its bits. -/
def Thread.setReg (t : Thread) (i : Nat) (v : Dword) : Thread :=
  if i = 0 then { t with mode := v.setWidth 26 }
  else if i = 1 then { t with vl := v.setWidth 13 }
  else if i = 2 then { t with flags := v.setWidth 8 }
  else if i = 3 then { t with scm := v }
  else if i = 4 then { t with priv := v.getLsbD 1, checked := v.getLsbD 0 }
  else if i = 5 then { t with spfoot := BitVec.ofNat 13 (Nat.min (v.extractLsb' 0 13).toNat (256 * t.n)) }
  else if i = 6 then { t with mrow := v.setWidth 10 }
  else if i = 7 then { t with pidx := v }
  else if i = 8 then { t with redlo := v }
  else if i = 9 then { t with redhi := v }
  else if i = 10 then { t with armed := v.getLsbD 0 }
  else if 0x10 ≤ i ∧ i < 0x18 then { t with nf := t.nf.set! (i - 0x10) v }
  else if 0x20 ≤ i ∧ i < 0x40 then { t with efr := t.efr.set! (i - 0x20) v }
  else if 0x40 ≤ i ∧ i < 0x80 then { t with fmask := t.fmask.set! (i - 0x40) v }
  else if 0x80 ≤ i ∧ i < 0xC0 then { t with fmap := t.fmap.set! (i - 0x80) (fmentOf v) }
  else t

/-! ### Trap registers: Table 16.2 -/

/-- TSTAT: PEND, SVC, PPRIV, INH. -/
def TrapRegs.tstat (r : TrapRegs) : Dword :=
  packFields [(if r.pcause.extractLsb' 0 8 = 0 then 0 else 1, 1, 4), (if r.svc then 1 else 0, 1, 3),
    (if r.ppriv then 1 else 0, 1, 2), (if r.inh then 1 else 0, 1, 0)]

/-- The trap register of index 0x0200 + i. -/
def TrapRegs.reg (r : TrapRegs) (i : Nat) : Dword :=
  if i = 0 then r.vbase
  else if i = 1 then r.cause
  else if i = 2 then r.epc
  else if i = 3 then r.val
  else if i = 4 then r.info
  else if i = 5 then r.tstat
  else if i = 6 then r.stamp
  else if i = 7 then r.pcause
  else if i = 8 then r.pval
  else if i = 9 then r.pinfo
  else if i = 10 then r.pstamp
  else if i = 11 then r.lease
  else if 0x10 ≤ i ∧ i < 0x14 then r.tbqa.toList.getD (i - 0x10) 0
  else if 0x14 ≤ i ∧ i < 0x18 then r.tbqm.toList.getD (i - 0x14) 0
  else if 0x20 ≤ i ∧ i < 0x30 then r.tppc.toList.getD (i - 0x20) 0
  else if 0x30 ≤ i ∧ i < 0x40 then r.tpbs.toList.getD (i - 0x30) 0
  else if 0x40 ≤ i ∧ i < 0x50 then r.tpmd.toList.getD (i - 0x40) 0
  else 0

/-- A trap register given an image. TSTAT gives PPRIV and INH; SVC only where `all` (a restore). -/
def TrapRegs.setReg (r : TrapRegs) (i : Nat) (v : Dword) (all : Bool) : TrapRegs :=
  if i = 0 then { r with vbase := v }
  else if i = 1 then { r with cause := v }
  else if i = 2 then { r with epc := v }
  else if i = 3 then { r with val := v }
  else if i = 4 then { r with info := v }
  else if i = 5 then { r with ppriv := v.getLsbD 2, inh := v.getLsbD 0, svc := if all then v.getLsbD 3 else r.svc }
  else if i = 6 then { r with stamp := v }
  else if i = 7 then { r with pcause := v }
  else if i = 8 then { r with pval := v }
  else if i = 9 then { r with pinfo := v }
  else if i = 10 then { r with pstamp := v }
  else if i = 11 then { r with lease := v }
  else if 0x10 ≤ i ∧ i < 0x14 then { r with tbqa := r.tbqa.set! (i - 0x10) v }
  else if 0x14 ≤ i ∧ i < 0x18 then { r with tbqm := r.tbqm.set! (i - 0x14) v }
  else if 0x20 ≤ i ∧ i < 0x30 then { r with tppc := r.tppc.set! (i - 0x20) v }
  else if 0x30 ≤ i ∧ i < 0x40 then { r with tpbs := r.tpbs.set! (i - 0x30) v }
  else if 0x40 ≤ i ∧ i < 0x50 then { r with tpmd := r.tpmd.set! (i - 0x40) v }
  else r

/-! ### Reading: R226 -/

/-- TBAND of a die: Table 7.6. -/
def Thermal.tbandImage (t : Thermal) (die : BitVec 3) : Dword :=
  packFields [(t.dieTemp die, 10, 8), ((t.band[die.toFin]).toNat, 2, 0)]

/-- CTXCTL of the selected context: R166. -/
def Ctx.ctl (c : Ctx) : Dword := packFields [(if c.svfail then 1 else 0, 1, 1), (if c.valid then 1 else 0, 1, 0)]

/-- The debug register of index 0x0280 + i: R355. -/
def Debug.reg (d : Debug) (i : Nat) : Dword :=
  if i = 0 then d.ctl else if i = 1 then d.sel.setWidth 64 else if i = 2 then d.e0 else if i = 3 then d.e1
  else if i = 4 then d.e2 else 0

/-- A system register as a thread of the die reads it. -/
def State.sysRead (s : State) (i : Nat) : Dword :=
  let t := s.th
  let die := BitVec.ofNat 3 (dieOf t.tid.core)
  if i = 0x0B then (s.thermal.chainp[die.toFin]).setWidth 64
  else if i = 0x0C then s.thermal.tbandImage die
  else if i = 0x0D then s.cycles
  else if i < 0x100 then t.reg i
  else if i = 0x100 then (s.ctxAt t.ctx).taskroot
  else if i = 0x101 then s.regs.suproot
  else if i = 0x102 then s.regs.altroot
  else if i = 0x103 then s.regs.fstbase
  else if i = 0x104 then s.regs.fpbase
  else if i = 0x105 then s.regs.fptail.setWidth 64
  else if i = 0x106 then s.regs.fphead.setWidth 64
  else if i = 0x107 then (s.ctxAt t.ctx).xfra
  else if i = 0x108 then s.regs.ctxsel.setWidth 64
  else if i = 0x109 then (s.ctxAt s.regs.ctxsel).savePtr
  else if i = 0x10A then (s.ctxAt s.regs.ctxsel).ctl
  else if i < 0x280 then t.trap.reg (i - 0x200)
  else t.dbg.reg (i - 0x280)

/-- Whether task code may not reach a register: R164, R334. -/
def sysPrivileged (i : Nat) : Bool := decide (0x100 ≤ i) && decide (i < 0x280)

/-- Whether an access waits for the blocks dispatched before it: Table 7.4, NF0 to NF7, FLAGS, and a write of THRCTL
(R164, Table 7.6). -/
def sysWaits (i : Nat) (write : Bool) : Bool :=
  i == 2 || i == 3 || (decide (6 ≤ i) && decide (i ≤ 10)) || (decide (0x10 ≤ i) && decide (i < 0x80)) || (write && i == 4)

/-- SRR (R226). -/
def execSrr (d : BitVec 6) (i : BitVec 12) (s : State) : Out :=
  let w := wordOf (.srr d i)
  ctl w s fun s =>
    let n := i.toNat
    if sysPrivileged n && !s.th.priv then s.raise (privop w)
    else if sysWaits n false && !s.th.blocksEnded then s
    else
      let s := if n = 2 then s.ackAdds else s
      s.upd fun t => (t.setS d (s.sysRead n) 0).advance

/-! ### Writing: R6, R164 -/

/-- Whether every field of a register is RO: a write is ignored as a whole. -/
def sysReadOnly (i : Nat) : Bool :=
  i == 1 || (decide (0x0B ≤ i) && decide (i ≤ 0x0D)) || (decide (0x80 ≤ i) && decide (i < 0xC0)) || i == 0x105
    || (decide (0x282 ≤ i) && decide (i ≤ 0x284))

/-- The RSV bits of a register that a program can write. -/
def sysReserved (i : Nat) : Dword :=
  if i = 0 then 0xFFFFFFFFFFC00000
  else if i = 2 then 0xFFFFFFFFFFFFFF00
  else if i = 3 then 1
  else if i = 4 then 0xFFFFFFFFFFFFFFFC
  else if i = 5 then 0xFFFFFFFFFFFFE000
  else if i = 6 then 0xFFFFFFFFFFFFFC00
  else if i = 7 then 0x7FFFFFFF00000000
  else if i = 10 then 0xFFFFFFFFFFFFFFFE
  else if 0x10 ≤ i ∧ i < 0x18 then 0xFFFFFFFF0000FC80
  else if 0x100 ≤ i ∧ i ≤ 0x102 then 0x1FFFC
  else if i = 0x103 then 0xFFFF000001FFFFFE
  else if i = 0x104 then 0xFFFF00000000FF00
  else if i = 0x106 then 0xFFFFFFFF00000000
  else if i = 0x107 then 0xFFFF0000000001FF
  else if i = 0x108 then 0xFFFFFFFFFFFF0000
  else if i = 0x109 then 0xFFFF000000000007
  else if i = 0x10A then 0xFFFFFFFFFFFFFFF8
  else if i = 0x200 then 0xFF000000000003FF
  else if i = 0x201 ∨ i = 0x207 then 0xFFFFFFFFFE000000
  else if i = 0x202 then 0xFF00000000000003
  else if i = 0x205 then 0xFFFFFFFFFFFFFFE2
  else if i = 0x20B then 0xFFFFFFFF7FF0FC00
  else if 0x210 ≤ i ∧ i < 0x214 then 0x7F00000000000002
  else if 0x214 ≤ i ∧ i < 0x218 then 0x0000E000FC000000
  else if 0x220 ≤ i ∧ i < 0x240 then 0xFF00000000000002
  else if 0x240 ≤ i ∧ i < 0x250 then 0xFFFFE000FC000000
  else if i = 0x280 then 0xFFFFFFFFFFFF00FC
  else if i = 0x281 then 0xFFFFFFFFFFFFFF00
  else 0

/-! ### The context table: R58, R59, R166 -/

/-- The entries of a save list, up to the first with V = 0: frame and run less 1. -/
def saveList (m : List Host.Cell) (at_ : Nat) : Nat → List (BitVec 32 × BitVec 8)
  | 0 => []
  | n + 1 =>
    let e := memDword m at_
    if e.getLsbD 0 then (e.extractLsb' 16 32, e.extractLsb' 8 8) :: saveList m (at_ + 8) n else []

/-- The bytes of a save list's frames. -/
def saveBytes (l : List (BitVec 32 × BitVec 8)) : Nat := l.foldl (fun a (_, r) => a + 65536 * (r.toNat + 1)) 0

/-- A context made valid; `none` where CTXBAD is raised (R59). VALID = 1 written to a context that is valid changes nothing: its save
list is not read again (log 66). -/
def State.makeValid (s : State) (c : BitVec 16) : Option State :=
  let x := s.ctxAt c
  if x.valid then some s
  else
    let l := saveList s.mem x.savePtr.toNat 16
    if (l.any fun (f, r) => decide (0x1000000 < f.toNat + r.toNat + 1)) || decide (saveBytes l < 753664)
        || decide (1024 ≤ (s.ctxs.filter fun (_, y) => y.valid).length) then none
    else some (s.ctxPut c { x with valid := true, svfail := false, save := l })

/-- A context made not valid; `none` where it still has threads, running, saved or about to start (R166). -/
def State.clearValid (s : State) (c : BitVec 16) : Option State :=
  if (s.threads.any fun t => t.ctx = c) || (s.saved.any fun t => t.ctx = c)
      || (s.reserved.any fun r => recCtx r.record = c) then none
  else some (s.ctxPut c { s.ctxAt c with valid := false, save := [] })

/-- CTXBAD reports the CTXID (Table 16.1). -/
def ctxbad (c : BitVec 16) : TrapInfo := TrapInfo.mk0 cCTXBAD (c.setWidth 64)

/-- A write of CTXCTL (R166): KILL goes before VALID. -/
def State.ctxctl (s : State) (v : Dword) : Except TrapInfo State :=
  let c := s.regs.ctxsel
  if v.getLsbD 2 then .ok (s.killContext c)
  else match (if v.getLsbD 0 then s.makeValid c else s.clearValid c) with
    | none => .error (ctxbad c)
    | some s => .ok s

/-! ### Writes with rules of their own -/

/-- FLAGS (R162): a 1 clears its flag. -/
def Thread.clearFlags (t : Thread) (v : Dword) : Thread := { t with flags := t.flags &&& ~~~ v.setWidth 8 }

/-- FPHEAD (R52): ILLOP at L or above. -/
def State.fpheadWrite (s : State) (w : IWord) (v : Dword) : Except TrapInfo State :=
  if poolLen s.regs.fpbase ≤ (v.extractLsb' 0 32).toNat then .error (illop w)
  else .ok { s with regs := { s.regs with fphead := v.setWidth 32 } }

/-- TASKROOT: CTXID 0xFFFF is stored as 0xFFFE (R36). -/
def taskrootImage (v : Dword) : Dword :=
  if v.extractLsb' 48 16 = 0xFFFF then (v &&& 0x0000FFFFFFFFFFFF) ||| 0xFFFE000000000000 else v

/-- A context or package register written: 0x0100 to 0x010A. -/
def State.rootWrite (s : State) (w : IWord) (i : Nat) (v : Dword) : Except TrapInfo State :=
  let c := s.th.ctx
  if i = 0x100 then .ok (s.ctxPut c { s.ctxAt c with taskroot := taskrootImage v })
  else if i = 0x101 then .ok { s with regs := { s.regs with suproot := v &&& 0x0000FFFFFFFFFFFD } }
  else if i = 0x102 then .ok { s with regs := { s.regs with altroot := v &&& 0xFFFFFFFFFFFFFFFD } }
  else if i = 0x103 then .ok { s with regs := { s.regs with fstbase := v } }
  else if i = 0x104 then .ok { s with regs := { s.regs with fpbase := v } }
  else if i = 0x106 then s.fpheadWrite w v
  else if i = 0x107 then .ok (s.ctxPut c { s.ctxAt c with xfra := v })
  else if i = 0x108 then .ok { s with regs := { s.regs with ctxsel := v.setWidth 16 } }
  else if i = 0x109 then .ok (s.ctxPut s.regs.ctxsel { s.ctxAt s.regs.ctxsel with savePtr := v })
  else s.ctxctl v

/-- A debug register written: 0x0280, 0x0281 (R355). -/
def Debug.write (d : Debug) (i : Nat) (v : Dword) : Debug :=
  if i = 0x280 then { d with en := v.getLsbD 0 } else if i = 0x281 then d.select (v.setWidth 8) else d

/-- MODE (R159): the image's checks. -/
def modeWritable (v : Dword) : Bool := modeImageOk (v.setWidth 22)

/-- The effect of a write of a system register, or the trap that refuses it; the PC stays. -/
def State.sysWrite (s : State) (w : IWord) (i : Nat) (v : Dword) : Except TrapInfo State :=
  if sysReadOnly i then .ok s
  else if v &&& sysReserved i ≠ 0 then .error (illop w)
  else if i = 0 then (if modeWritable v then .ok (s.upd fun t => t.setReg 0 v) else .error (illop w))
  else if i = 2 then .ok (s.upd fun t => t.clearFlags v)
  else if i = 4 then .ok (s.upd fun t => { t with checked := v.getLsbD 0 })
  else if i < 0x100 then .ok (s.upd fun t => t.setReg i v)
  else if i < 0x200 then s.rootWrite w i v
  else if i < 0x280 then .ok (s.upd fun t => { t with trap := t.trap.setReg (i - 0x200) v false })
  else .ok (s.upd fun t => { t with dbg := t.dbg.write i v })

/-- Whether an SRW marks the open strip not rewindable (R343). -/
def sysMarks (i : Nat) : Bool := !(i == 2 || i == 0x280 || i == 0x281)

/-- SRW (R226). -/
def execSrw (a : BitVec 6) (i : BitVec 12) (s : State) : Out :=
  let w := wordOf (.srw a i)
  ctl w s fun s =>
    let n := i.toNat
    if sysPrivileged n && !s.th.priv then s.raise (privop w)
    else if sysWaits n true && !s.th.blocksEnded then s
    else
      let s := if n = 2 then s.ackAdds else s
      match s.sysWrite w n (s.th.sr a) with
      | .error i => s.raise i
      | .ok s => if s.th.live then s.upd fun t => (if sysMarks n then t.noRewind else t).advance else s

/-! ### The writes as steps of their own: the effect on the thread in focus -/

/-- The effect of a register write by the thread in focus, without its instruction. -/
def State.regEffect (s : State) (i : Nat) (v : Dword) : State :=
  match s.sysWrite (0xF0000000 ||| BitVec.ofNat 32 i) i v with
  | .error x => if s.th.live then s.raise x else s
  | .ok s => s

/-- FLAGS_WRITE (R162). -/
def execFlagsWrite (v : BitVec 64) (s : State) : Out :=
  agent (if s.th.live && s.th.blocksEnded then s.ackAdds.regEffect 2 v else s)
/-- FPHEAD_WRITE (R52). -/
def execFpheadWrite (v : BitVec 64) (s : State) : Out := agent (s.regEffect 0x106 v)
/-- CHECKED_MODE_SET (R348): once every earlier block has ended. -/
def execCheckedModeSet (on : Bool) (s : State) : Out :=
  agent (if s.th.live && s.th.blocksEnded then s.regEffect 4 (if on then 1 else 0) else s)
/-- CTXCTL_MAKE_VALID (R59). -/
def execCtxctlMakeValid (s : State) : Out := agent (s.regEffect 0x10A 1)
/-- CTXCTL_CLEAR_VALID (R166). -/
def execCtxctlClearValid (s : State) : Out := agent (s.regEffect 0x10A 0)
/-- CTXCTL_KILL (R166). -/
def execCtxctlKill (s : State) : Out := agent (s.regEffect 0x10A 4)
/-- DBGSEL_WRITE (R355). -/
def execDbgselWrite (v : BitVec 64) (s : State) : Out := agent (if s.th.live then s.regEffect 0x281 v else s)

end Sys2Proof.Machine
end

