-- ==== Sys2Proof/Machine/Save.lean ====
section
/-! DEFINITION. Context save, restore, migration and the settling of a strip in error: 06 R151 to R154, 15 R330, R331, 16 R347,
R349 to R352. -/
namespace Sys2Proof.Machine
open Sys2Proof

/-! ### The save area: R58, R350 -/

/-- The physical address of byte o of a save area: its runs of 64 KiB frames in list order (R350). -/
def saveAddr : List (BitVec 32 × BitVec 8) → Nat → Nat
  | [], o => o
  | (f, r) :: l, o =>
    let n := 65536 * (r.toNat + 1)
    if o < n then 65536 * f.toNat + o else saveAddr l (o - n)

/-- Bytes written in a save area. -/
def State.saveWrite (s : State) (l : List (BitVec 32 × BitVec 8)) (o : Nat) (bs : List Byte) : State :=
  (cuts 128 o bs.length).foldl (fun s (a, n) => s.homeWrite (saveAddr l a) 0 ((bs.drop (a - o)).take n)) s

/-- Bytes of a save area. -/
def State.saveRead (s : State) (l : List (BitVec 32 × BitVec 8)) (o n : Nat) : List Byte :=
  (cuts 128 o n).flatMap fun (a, k) => s.homeBytes (saveAddr l a) k

/-- A dword of a save area. -/
def State.saveDword (s : State) (l : List (BitVec 32 × BitVec 8)) (o : Nat) : Dword :=
  BitVec.ofNat 64 (leVal (s.saveRead l o 8))

/-- The bytes of a list of dwords. -/
def dwordBytes (l : List Dword) : List Byte := l.flatMap fun x => leBytes 8 x.toNat

/-- The dwords of a list of bytes, n of them. -/
def bytesDwords (bs : List Byte) (n : Nat) : List Dword :=
  (List.range n).map fun i => BitVec.ofNat 64 (leVal ((bs.drop (8 * i)).take 8))

/-- The first frame of a save area in which n bytes from byte o on meet an uncorrectable memory error (R60). -/
def State.badFrame (s : State) (l : List (BitVec 32 × BitVec 8)) (o n : Nat) : Option Nat :=
  ((cuts 128 o n).find? fun (a, _) => s.poisoned (saveAddr l a)).map fun (a, _) => saveAddr l a / 65536 * 65536

/-- The size of an image: R350. -/
def imageSize (n f m : Nat) : Nat := 6656 + 512 * n + 128 * f + 49152 * m

/-- The offset of directory entry i: Table 16.3. -/
def dirAt (i : Nat) : Nat := 0x3000 + 16 * i

/-- The lowest free directory entry of a context. -/
def State.freeEntry (s : State) (c : BitVec 16) : Option Nat :=
  (List.range 256).find? fun i => !(s.saved.any fun x => x.ctx = c && x.entry.toNat = i)

/-- The images of a context's save area: first byte and the byte after the last, up to the next multiple of 4 KiB. -/
def State.imageRanges (s : State) (c : BitVec 16) : List (Nat × Nat) :=
  let l := (s.ctxAt c).save
  (s.saved.filter fun x => x.ctx = c).map fun x =>
    let o := ((s.saveDword l (dirAt x.entry.toNat)).extractLsb' 0 32).toNat
    (o, (o + ((s.saveDword l (o + 8)).extractLsb' 32 32).toNat + 4095) / 4096 * 4096)

/-- The lowest offset with room for an image (R350). -/
def State.imageRoom (s : State) (c : BitVec 16) (size : Nat) : Option Nat :=
  let used := s.imageRanges c
  let fits (o : Nat) : Bool :=
    decide (o + size ≤ saveBytes (s.ctxAt c).save) && used.all fun (a, b) => decide (o + size ≤ a) || decide (b ≤ o)
  ((0x4000 :: used.map (·.2)).filter fits).foldl (fun m o => some (match m with | none => o | some x => Nat.min x o)) none

/-! ### The image: Tables 16.3 and 16.4 -/

/-- An entry of the binding table in the context header: the object with V, then the descriptor of Table 4.2. -/
def bindingImage (b : Binding) : List Dword :=
  (b.object ||| 0x8000000000000000) :: packFields [(b.ranges.length - 1, 2, 4), (b.scope.toNat, 3, 0)]
    :: b.ranges.flatMap fun (x, n) => [x, n]

/-- The context header up to the directory: Table 16.3. -/
def Ctx.header (c : Ctx) : List Byte :=
  let pad (l : List Dword) (n : Nat) : List Dword := l ++ List.replicate (n - l.length) 0
  dwordBytes (pad [c.taskroot, c.xfra] 512 ++
    (List.range 64).flatMap fun i => pad (match c.bindings.find? fun (j, _) => j = i with
      | none => []
      | some (_, b) => bindingImage b) 16)

/-- The byte of an f-register's trust and format tag. -/
def FReg.tagByte (f : FReg) : Byte := (if f.ft then 0x80 else 0) ||| f.trust.setWidth 8

/-- The elements and trust of a tile. -/
def Tile.bytes (t : Tile) : List Byte :=
  ((List.range 8192).flatMap fun i => leBytes 4 (look 0 t.el i).toNat)
    ++ (List.range 8192).map fun i => (look 0 t.tr i).setWidth 8

/-- The bytes of an entry of a plane's checksum column in an image: 3,840 bytes for the K that its format allows (log 28). -/
def planeEntry (fmt : BitVec 4) : Nat := 60 * Nat.max 1 ((MFmt.ofCode fmt).getD ⟨1, 1, false⟩).g

/-- The unit in which an image counts checksums, in units of 2^-1074: 1 for integers, else the smallest subnormal of the format. -/
def planeUnit (p : Plane) : Int :=
  if p.fmt = 0 ∨ p.fmt = 1 then 1
  else
    let f := matFmt p.fmt p.nf
    (2 ^ (1074 + 1 - f.bias - f.mbits).toNat : Nat)

/-- An entry of the checksum column in an image: whether the sum is finite, then the sum in two's complement. -/
def sumBytes (p : Plane) (k : Nat) : List Byte :=
  let n := planeEntry p.fmt
  match look none p.sums k with
  | none => List.replicate n 0
  | some x => 1 :: leBytes (n - 1) (BitVec.ofInt (8 * (n - 1)) (x / planeUnit p)).toNat

/-- The 8 KiB that hold a plane in an image: the weights by cell in their format's bytes, 4,096; the checksum column, 3,840; K, N, format,
marks, shape, count, nf image (Table 16.4, which does not place them; log 28). -/
def Plane.bytes (p : Plane) : List Byte :=
  let m := ((MFmt.ofCode p.fmt).getD ⟨1, 1, false⟩).m
  let pad (n : Nat) (l : List Byte) : List Byte := l ++ List.replicate (n - l.length) 0
  pad 4096 ((List.range p.k.toNat).flatMap fun k => (List.range p.n.toNat).flatMap fun n => leBytes m (look 0 p.weights (64 * k + n)).toNat)
    ++ pad 3840 ((List.range p.k.toNat).flatMap (sumBytes p))
    ++ pad 256 ([p.k.setWidth 8, p.n.setWidth 8, p.fmt.setWidth 8,
      BitVec.ofNat 8 ((if p.valid then 1 else 0) + (if p.damaged then 2 else 0) + (if p.sparse then 4 else 0)),
      p.atype.setWidth 8, p.bands.setWidth 8] ++ leBytes 4 p.count.toNat ++ leBytes 8 p.nf.toNat)

/-- The plane that 8 KiB of an image hold. -/
def Plane.ofBytes (l : List Byte) : Plane :=
  let b (i : Nat) : Byte := l.getD (7936 + i) 0
  let p : Plane := { Plane.fresh with
    valid := (b 3).getLsbD 0, damaged := (b 3).getLsbD 1, sparse := (b 3).getLsbD 2, k := (b 0).setWidth 7, n := (b 1).setWidth 7,
    fmt := (b 2).setWidth 4, atype := (b 4).setWidth 2, bands := (b 5).setWidth 4,
    count := BitVec.ofNat 32 (leVal ((l.drop 7942).take 4)), nf := BitVec.ofNat 64 (leVal ((l.drop 7946).take 8)) }
  let m := ((MFmt.ofCode p.fmt).getD ⟨1, 1, false⟩).m
  let n := planeEntry p.fmt
  { p with
    weights := (List.range p.k.toNat).foldl (fun w k => (List.range p.n.toNat).foldl (fun w j =>
      put 0 w (64 * k + j) (BitVec.ofNat 64 (leVal ((l.drop (m * (k * p.n.toNat + j))).take m)))) w) []
    sums := (List.range p.k.toNat).map fun k =>
      let e := (l.drop (4096 + n * k)).take n
      (k, if e.headD 0 = 0 then none
        else some ((BitVec.ofNat (8 * (n - 1)) (leVal (e.drop 1))).toInt * planeUnit p)) }

/-- The sections of a thread's image after its header. -/
def State.imageBody (s : State) (t : Thread) : List Byte :=
  dwordBytes t.s.toList ++ dwordBytes (t.f.toList.map (·.bits)) ++ t.f.toList.map FReg.tagByte ++ List.replicate 96 0
    ++ dwordBytes ((List.range 192).map t.reg)
    ++ dwordBytes ((List.range 128).map t.trap.reg) ++ List.replicate 1024 0
    ++ dwordBytes t.sptab.toList
    ++ ((List.range (256 * t.n)).flatMap fun e => leBytes 2 (s.tagsAt (t.rowKey e)).toNat)
    ++ ((List.range t.spfoot.toNat).flatMap fun e => rowBytes (s.rowAt (t.rowKey e)) 0 128)
    ++ (List.range t.tiles.toNat).flatMap fun k => (t.acc.toList.getD k .fresh).bytes ++ (t.acc.toList.getD k .fresh).plane.bytes

/-- The header of a thread's image. -/
def Thread.imageHeader (t : Thread) : List Dword :=
  [packFields [(1, 1, 63), (t.ctx.toNat, 16, 32), (t.tid.core.toNat, 13, 19), (t.tid.slot.toNat, 3, 16)],
   packFields [(imageSize t.n t.spfoot.toNat t.tiles.toNat, 32, 32), (t.spfoot.toNat, 13, 16), (t.tiles.toNat, 3, 4),
     (t.log2n.toNat, 3, 0)],
   packFields [(t.pc.toNat / 4, 54, 2), (if t.priv then 1 else 0, 1, 0)]]

/-! ### Stopping: R330, R349 -/

/-- Whether a thread that is to be saved, moved or rewound has stopped: its taints have retired, it stands in the middle of no word, its
matrix operation has ended, and no line holds its stores back. -/
def State.stopped (s : State) (t : Thread) : Bool :=
  t.out.isEmpty && !s.midWord t && s.linesFree t && !(s.mq.any fun m => m.tid = t.tid && m.started)

/-- Whether a save or a migration of a thread can be carried out now: its strip is settled. Traps that it is to take wait with it
(R336). -/
def State.saveable (s : State) (t : Thread) : Bool := s.stopped t && t.strip.error.isNone && t.strip.checked

/-- The faults of the plies that stand stopped, by offset. -/
def Thread.plyTraps (t : Thread) : List (Nat × TrapInfo × Dword) :=
  t.owned.filterMap fun (j, p) => p.stopped.map fun x => (j, x)

/-- Those faults put back where the plies stand again, to be taken (R336). -/
def Thread.putTraps (t : Thread) (l : List (Nat × TrapInfo × Dword)) : Thread :=
  l.foldl (fun t (j, x) => if (t.plyAt j).run.isSome then t.setPly j { t.plyAt j with stopped := some x } else t) t

/-- A thread's plies moved into its trap registers; in a handler these hold the interrupted program's blocks, and the plies stay as they
are (log 29). -/
def Thread.shelve (t : Thread) : Thread := if t.trap.svc then t else t.saveBlocks

/-- The plies of a handler that is saved or moved, as they stand. -/
def Thread.handlerPlies (t : Thread) : List Ply := if t.trap.svc then t.plies.toList else []

/-- A ply that goes on after a save or a move where it stood, its taints retired. -/
def Ply.again (p : Ply) : Ply :=
  { p with
    drowsy := false, queue := p.queue.map fun b => { b with ctl := 0 },
    run := p.run.map fun r => { r with wait := .running, ctl := 0, blk := { r.blk with ctl := 0 } } }

/-- The plies of a handler put back (log 29). -/
def Thread.retake (t : Thread) (l : List Ply) : Thread :=
  let seqs := l.flatMap fun p => p.queue.map (·.seq) ++ (match p.run with | none => [] | some r => [r.origin])
  { t with
    plies := Vector.ofFn fun (i : Fin 16) => ((l[i.val]?).map Ply.again).getD t.plies[i],
    nextSeq := seqs.foldl (fun m q => Nat.max m (q + 1)) t.nextSeq }

/-- LEASE of a suspended lease (R352). -/
def State.leaseImage (s : State) (t : Thread) : Dword :=
  match t.lease with
  | none => t.trap.lease
  | some (bands, _) => packFields [(1, 1, 31), (bands.toNat, 4, 16), (s.leaseLeft t, 10, 0)]

/-- Steps 1 to 5 of a save for the thread in focus (R349): committed stores performed, its L1 lines written back, its blocks
moved, its lease suspended or dropped. -/
def State.settleThread (s : State) (suspend : Bool) : State :=
  let s := s.settle
  let s := s.l1Walk s.th.tid.core (fun _ w => w.writer.getLsbD s.th.tid.slot.toNat) false
  let v := if suspend then s.leaseImage s.th else s.th.trap.lease
  let s := s.dropLease s.th
  s.upd fun t => { t.shelve with lease := none, trap := { t.shelve.trap with lease := v } }

/-! ### The save: R349 -/

/-- The entry the machine keeps of a saved thread, with the faults of its plies as they stood. -/
def State.savedOf (s : State) (t : Thread) (stopped : List (Nat × TrapInfo × Dword)) (entry : Nat) : Saved :=
  { t.asSaved entry with
    resume := s.resumes.any fun (g, _) => g == t.group, stopped := stopped, plies := t.handlerPlies }

/-- The image written: the context header when no other thread of the context runs, the sections, the directory entry, and
the header's first dword last. -/
def State.writeImage (s : State) (t : Thread) (entry o : Nat) : State :=
  let c := s.ctxAt t.ctx
  let l := c.save
  let s := if s.threads.any fun x => x.ctx = t.ctx && x.tid ≠ t.tid then s
    else (s.saveWrite l 0 c.header).ctxPut t.ctx { c with stored := true }
  let s := s.saveWrite l (o + 128) (s.imageBody t)
  let s := s.saveWrite l (o + 8) (dwordBytes (t.imageHeader.drop 1) ++ List.replicate 104 0)
  let s := s.saveWrite l (dirAt entry) (dwordBytes
    [packFields [(1, 1, 63), (o, 32, 0)], packFields [(t.tid.slot.toNat, 3, 13), (t.tid.core.toNat, 13, 0)]])
  s.saveWrite l o (dwordBytes (t.imageHeader.take 1))

/-- A group none of whose threads is saved, or asked to be, is on no resume list (R331). -/
def State.dropResume (s : State) (group : Nat) : State :=
  if (s.saved.any fun x => x.group = group) || (s.threads.any fun x => x.group = group && x.saveReq) then s
  else { s with resumes := s.resumes.filter fun (g, _) => g != group }

/-- A thread that finds no room: it runs on, or its context is killed where the package must end its work (R349). -/
def State.saveRoom (s : State) (t : Thread) : State :=
  let s := s.event (TrapInfo.mk0 cSAVEROOM 0) t.ctx t.tid
  if s.thermal.state = .quiesce || s.thermal.state = .critical then s.killContext t.ctx
  else
    let s := s.mapThreads fun x => if x.live && x.tid = t.tid then { x.unhold with saveReq := false } else x
    (s.dropResume t.group).jobsDone

/-- The first frame in which the save of a thread meets an uncorrectable memory error: in the context header, the image or the
directory entry (R60, R349). -/
def State.saveBad (s : State) (t : Thread) (entry o : Nat) : Option Nat :=
  let l := (s.ctxAt t.ctx).save
  (if s.threads.any fun x => x.ctx = t.ctx && x.tid ≠ t.tid then none else s.badFrame l 0 0x3000)
  <|> s.badFrame l o (imageSize t.n t.spfoot.toNat t.tiles.toNat) <|> s.badFrame l (dirAt entry) 16

/-- The thread in focus saved. -/
def State.saveFocus (s : State) : State :=
  let t := s.th
  match s.freeEntry t.ctx, s.imageRoom t.ctx (imageSize t.n t.spfoot.toNat t.tiles.toNat) with
  | some e, some o =>
    let stopped := t.plyTraps
    let s := s.settleThread true
    let t := s.th
    let bad := s.saveBad t e o
    let s := s.writeImage t e o
    match bad with
    | some frame => s.saveFailed t.ctx t.tid frame
    | none =>
      let s := { s with saved := s.saved ++ [s.savedOf t stopped e] }
      let s := s.ctxPut t.ctx { s.ctxAt t.ctx with lastCore := some t.tid.core }
      s.removeThread t
  | none, _ => s.saveRoom t
  | _, none => s.saveRoom t

/-- Whether it is a thread's turn to be saved: in the critical-mark sequence in descending PRIO, among equals in ascending global core
number (R363). -/
def State.saveTurn (s : State) (t : Thread) : Bool :=
  s.thermal.state != .critical || s.threads.all fun x =>
    !(x.saveReq && s.saveable x) || decide (x.prio.toNat < t.prio.toNat)
      || (x.prio == t.prio && decide (t.tid.core.toNat ≤ x.tid.core.toNat))

/-- CONTEXT_SAVE of a thread asked to stop. -/
def State.contextSave (s : State) (t : Tid) : State :=
  match s.threadAt t with
  | none => s
  | some x => if x.saveReq && s.saveable x && s.saveTurn x then (s.focus t).saveFocus else s

/-- CONTEXT_SAVE (R349). -/
def execContextSave (t : Tid) (s : State) : Out := agent (s.contextSave t)

/-! ### The restore: R351, R352 -/

/-- The tiles of a saved thread: elements, trust and planes from the image. -/
def State.tilesFrom (s : State) (l : List (BitVec 32 × BitVec 8)) (o : Nat) (x : Saved) : Vector Tile 4 :=
  Vector.ofFn fun (k : Fin 4) =>
    if k.val < x.tiles.toNat then
      let e := s.saveRead l (o + 49152 * k.val) 32768
      let t := s.saveRead l (o + 49152 * k.val + 32768) 8192
      { el := (List.range 8192).foldl (fun m i => put 0 m i (BitVec.ofNat 32 (leVal ((e.drop (4 * i)).take 4)))) [],
        tr := (List.range 8192).foldl (fun m i => put 0 m i ((t.getD i 0).setWidth 6)) [],
        plane := .ofBytes (s.saveRead l (o + 49152 * k.val + 40960) 8192) }
    else .fresh

/-- The thread an image at offset o gives, at a ply base, with a new grant. Bits that no program can write read as 0 whatever the image
holds (R6, R7). -/
def State.threadFrom (s : State) (x : Saved) (o : Nat) (base : BitVec 4) : Thread :=
  let l := (s.ctxAt x.ctx).save
  let dws (at_ n : Nat) : List Dword := bytesDwords (s.saveRead l (o + at_) (8 * n)) n
  let hd2 := s.saveDword l (o + 16)
  let n := 2 ^ x.log2n.toNat
  let fs := dws 640 32
  let ftags := s.saveRead l (o + 896) 32
  let regs := dws 1024 192
  let traps := dws 2560 128
  let rowsEnd := 6656 + 512 * n
  let t : Thread := { Thread.blank with
    live := true, tid := x.tid, ctx := x.ctx, prio := x.prio, tier := x.tier, group := x.group, rank := x.rank,
    gsize := x.gsize, done := x.done, base := base, log2n := x.log2n, tiles := x.tiles, ceiling := x.ceiling,
    copyFails := x.copyFails, copyCode := x.copyCode, sporder := x.sporder, grant := s.nextGrant, pend := x.pend,
    migrate := s.groupMove x.tier x.group x.tid.core, saveReq := s.thermal.state ≠ .active, pc := wordAddr hd2 }
  let t := (List.range 192).foldl (fun t i => t.setReg i (regs.getD i 0 &&& ~~~ sysReserved i)) t
  let trap := (List.range 128).foldl (fun r i => r.setReg i (traps.getD i 0 &&& ~~~ sysReserved (0x200 + i)) true) t.trap
  let sp := dws 4608 256
  { t with
    priv := hd2.getLsbD 0, trap := trap, flags := t.flags ||| x.flags,
    s := Vector.ofFn fun (i : Fin 64) => (dws 128 64).getD i.val 0,
    f := Vector.ofFn fun (i : Fin 32) =>
      ⟨fs.getD i.val 0, (ftags.getD i.val 0).setWidth 6, (ftags.getD i.val 0).getLsbD 7⟩,
    sptab := Vector.ofFn fun (i : Fin 256) => t.spImage (sp.getD i.val 0),
    acc := s.tilesFrom l (o + rowsEnd + 128 * t.spfoot.toNat) x }

/-- The tags and rows of an image loaded; rows F and above are cleared (R25). -/
def State.loadRows (s : State) (t : Thread) (o : Nat) : State :=
  let l := (s.ctxAt t.ctx).save
  let s := s.clearRows t.rowKeys
  let s := (List.range (256 * t.n)).foldl (fun s e =>
    let x := BitVec.ofNat 16 (leVal (s.saveRead l (o + 6656 + 2 * e) 2)) &&& 0xFFFE
    { s with tags := put 0 s.tags (t.rowKey e) x }) s
  (List.range t.spfoot.toNat).foldl (fun s e =>
    let x := rowSetBytes 0 0 (s.saveRead l (o + 6656 + 512 * t.n + 128 * e) 128)
    { s with rows := put 0 s.rows (t.rowKey e) x }) s

/-- The lease asked for again (R352): at most REMAIN microseconds on the same bands. -/
def State.regrantLease (s : State) : State :=
  let v := s.th.trap.lease
  if !v.getLsbD 31 then s
  else
    let bands : BitVec 4 := v.extractLsb' 16 4
    let us := Nat.min (Config.boostGrant s.tick) (v.extractLsb' 0 10).toNat
    let s := s.upd fun t => { t with trap := { t.trap with lease := v &&& 0xFFFFFFFF7FFFFFFF } }
    if us = 0 || !s.mayBoost s.th bands then s else s.giveLease s.th.tid bands us

/-- The thread in focus resumed as ERET resumes one, at its own PC and privilege; a handler with the plies it had (log 29). Where a refetch faults, the trap's TEPC and
PPRIV are the PC and privilege it would have run with. -/
def State.resumeFocus (s : State) (plies : List Ply) : State :=
  if s.th.trap.svc then s.upd fun t => (t.retake plies).openStrip true
  else match s.resumeBlocks s.th.priv with
    | .ok s => s.upd fun t => t.openStrip true
    | .error f => State.refetchTrap
        (s.upd fun t => { t with trap := { t.trap with epc := wordAddr t.pc, ppriv := t.priv } }) f

/-- The L1 of a core made ready for a context that another core saved last (Table 3.1). -/
def State.freshL1 (s : State) (ctx : BitVec 16) (core : BitVec 12) : State :=
  if (s.ctxAt ctx).lastCore = some core then s else s.l1Walk core (fun _ _ => true) true

/-- The binding that an entry of the context header holds (Table 16.3). -/
def bindingFrom (ds : List Dword) : Option Binding :=
  let d0 := ds.getD 0 0
  let d1 := ds.getD 1 0
  if !d0.getLsbD 63 then none
  else some ⟨(d0.extractLsb' 0 56).setWidth 64, d1.extractLsb' 0 3,
    (pairUp (ds.drop 2)).take ((d1.extractLsb' 4 2).toNat + 1)⟩

/-- TASKROOT, XFRA and the binding table of a context as its header holds them (R88, R155). -/
def Ctx.fromHeader (c : Ctx) (bs : List Byte) : Ctx :=
  let dw (i : Nat) : Dword := BitVec.ofNat 64 (leVal ((bs.drop (8 * i)).take 8))
  { c with
    taskroot := taskrootImage (dw 0 &&& ~~~ sysReserved 0x100), xfra := dw 1 &&& ~~~ sysReserved 0x107,
    bindings := (List.range 64).filterMap fun i =>
      (bindingFrom ((List.range 16).map fun k => dw (512 + 16 * i + k))).map fun b => (i, b) }

/-- The header of a context's save area loaded with the first thread of the context that runs again, where the save of the context's last
running thread wrote it (R155, R349, R351). -/
def State.loadHeader (s : State) (c : BitVec 16) : State :=
  if !(s.ctxAt c).stored || s.threads.any fun x => x.ctx = c then s
  else s.ctxPut c { (s.ctxAt c).fromHeader (s.saveRead (s.ctxAt c).save 0 0x3000) with stored := false }

/-- The parked threads with the one in focus, without what one that ended in a slot left there. -/
def State.parkedWith (s : State) (t : Tid) : List Thread :=
  let l := s.parked.filter fun x => x.tid ≠ t
  if s.th.kept && s.th.tid ≠ t then park s.th l else l

/-- A saved thread restored to its slot; `none` while the slot, its plies or its tiles are missing, or are kept for a held start
(R326, R351). An uncorrectable error on the read ends it as a failed save does (R60). -/
def State.restoreOne (s : State) (x : Saved) : Option State :=
  if !s.slotFree none x.tid.core x.tid.slot || !s.slotDrained x.tid
      || decide (4 < s.tilesBarred none x.tid.core + x.tiles.toNat) then none
  else match s.regrant x.tid.core x.log2n.toNat with
    | none => none
    | some b =>
      let l := (s.ctxAt x.ctx).save
      let e := s.saveDword l (dirAt x.entry.toNat)
      let o := (e.extractLsb' 0 32).toNat
      let t := s.threadFrom x o (BitVec.ofNat 4 b)
      match s.saveBad t x.entry.toNat o with
      | some frame => some (s.saveFailed x.ctx x.tid frame)
      | none =>
        let s := s.loadHeader x.ctx
        let s := (s.loadRows t o).saveWrite l (dirAt x.entry.toNat) (leBytes 8 (e &&& 0x7FFFFFFFFFFFFFFF).toNat)
        let s := s.freshL1 x.ctx x.tid.core
        let s := { s with
          who := .control, th := t, parked := s.parkedWith x.tid, nextGrant := s.nextGrant + 1,
          saved := s.saved.filter fun y => !(y.ctx = x.ctx && y.entry = x.entry) }
        some (((x.events.foldl (fun s i => s.async x.tid x.ctx i) s).regrantLease.resumeFocus x.plies).upd fun t => t.putTraps x.stopped)

/-- All of a list of saved threads restored, or none. -/
def State.restoreAll (s : State) : List Saved → Option State
  | [] => some s
  | x :: xs =>
    if !(s.saved.any fun y => y.ctx = x.ctx && y.entry = x.entry) then s.restoreAll xs
    else match s.restoreOne x with
      | none => none
      | some s => s.restoreAll xs

/-- The saved threads that must be restored together with one (R351): its group's, for core and cluster tier. -/
def State.restoreSet (s : State) (x : Saved) : List Saved :=
  if x.tier.toNat = 1 ∨ x.tier.toNat = 2 then s.saved.filter fun y => y.group = x.group else [x]

/-- A saved thread named by a request restored, with those that must come with it. -/
def State.contextRestore (s : State) (ctx : BitVec 16) (entry : BitVec 8) : Option State :=
  match s.saved.find? fun x => x.ctx = ctx && x.entry = entry && x.restore with
  | none => none
  | some x => if s.launching then (s.restoreAll (s.restoreSet x)).map State.jobsDone else none

/-- CONTEXT_RESTORE (R351). -/
def execContextRestore (ctx : BitVec 16) (entry : BitVec 8) (s : State) : Out :=
  agent ((s.contextRestore ctx entry).getD s)

/-- The priority of a group on a resume list whose threads have all been saved, where it can be restored. -/
def State.resumable (s : State) (die : BitVec 3) : List (Nat × State) :=
  if !s.launching then []
  else s.resumes.filterMap fun (g, d) =>
    let xs := s.saved.filter fun x => x.group = g
    if d != die || xs.isEmpty || (s.threads.any fun t => t.group = g && t.saveReq) then none
    else (s.restoreAll xs).map fun s' =>
      (xs.foldl (fun m x => Nat.max m x.prio.toNat) 0, { s' with resumes := s'.resumes.filter fun (g', _) => g' != g })

/-- The group on a die's resume list that is restored next: the first of the most urgent (R331; log 67). -/
def State.resumeGroup (s : State) (die : BitVec 3) : Option (Nat × State) :=
  (s.resumable die).foldl (fun b x => match b with
    | none => some x
    | some y => if y.1 < x.1 then some x else some y) none

/-- A group restored unless a head that can be served now is more urgent: restores go ahead of starts of equal priority (R331). -/
def State.resumeList (s : State) (die : BitVec 3) : Option State :=
  match s.resumeGroup die, s.launchNext die with
  | none, _ => none
  | some (p, s'), some (_, h, _) => if p < h then none else some s'
  | some (_, s'), none => some s'

/-- What the launch engine of a die does with its heads: a start waits for a group of the resume list that is as urgent (R325, R331). -/
def State.launchHead (s : State) (die : BitVec 3) (q : Option (BitVec 6)) : State :=
  match s.launchNext die with
  | none => s.launchRead die
  | some (q', h, s') =>
    if q.any (· != q') || (s.resumeGroup die).any (fun (p, _) => h ≤ p) then s.launchRead die else s'

/-- RESUME_LIST_RESTORE (R331). -/
def execResumeListRestore (die : BitVec 3) (s : State) : Out := agent ((s.resumeList die).getD s)

/-! ### Migration: R151 to R154 -/

/-- MIGRATION_REQUEST: a thread of core or cluster tier goes with its whole group, to one cluster (R153). -/
def State.migrationRequest (s : State) (t : Tid) (dst : BitVec 12) : State :=
  match s.threadAt t with
  | none => s
  | some x => s.mapThreads fun y =>
    if y.live && (y.tid = t || ((x.tier = 1 || x.tier = 2) && y.group = x.group)) then
      { y with migrate := some (moveTo x.tier y.tid.core dst) } else y

/-- MIGRATION_REQUEST (R151). -/
def execMigrationRequest (t : Tid) (dst : BitVec 12) (s : State) : Out := agent (s.migrationRequest t dst)

/-- The slot and plies of a thread's new core; those it has when a spare takes its core's place (R154). -/
def State.movePlace (s : State) (t : Thread) (dst : BitVec 12) : Option (Tid × BitVec 4) :=
  if dst = t.tid.core then some (t.tid, t.base)
  else if 4 < s.tilesBarred none dst + t.tiles.toNat || !s.pageFor none t.ctx (clusterOf dst) then none
  else match s.freeSlot none dst, s.regrant dst t.log2n.toNat with
    | some sl, some b => if s.slotDrained ⟨dst, sl⟩ then some (⟨dst, sl⟩, BitVec.ofNat 4 b) else none
    | _, _ => none

/-- A context's arrival-word page copied from one cluster to another (R153). -/
def State.copyPage (s : State) (c : BitVec 16) (old new : BitVec 10) : State :=
  if old = new then s
  else { s with arr := (List.range 512).foldl (fun m i =>
    put 0 m (arrKey c new (BitVec.ofNat 9 i)) (look 0 m (arrKey c old (BitVec.ofNat 9 i)))) s.arr }

/-- A thread as it begins on its new core: what Table 7.1 does not mark as saved is as at a restore. -/
def Thread.moved (t : Thread) (tid : Tid) (base : BitVec 4) (grant : Nat) : Thread :=
  { t with
    tid := tid, base := base, grant := grant, taints := .empty, out := [], dbg := .reset, sleep := .awake, event := false, line := none,
    aged := false, migrate := none, segs := [], plies := .replicate 16 .idle }

/-- Rows 0 to F - 1 and every tag streamed to the new place; the other rows arrive cleared. -/
def State.streamRows' (s : State) (t t' : Thread) : State :=
  let f := t.spfoot.toNat
  let rs := (List.range f).map fun e => s.rowAt (t.rowKey e)
  let ts := (List.range (256 * t.n)).map fun e => s.tagsAt (t.rowKey e)
  let s := s.clearRows t'.rowKeys
  { s with
    rows := rs.zipIdx.foldl (fun m (r, e) => put 0 m (t'.rowKey e) r) s.rows,
    tags := ts.zipIdx.foldl (fun m (x, e) => put 0 m (t'.rowKey e) (x &&& 0xFFFE)) s.tags }

/-- The thread of a slot moved to the core it is asked to go to. -/
def State.moveOne (s : State) (tid : Tid) : Option State :=
  let s := s.focus tid
  match s.th.migrate with
  | none => none
  | some dst => match s.movePlace s.th dst with
    | none => none
    | some (new, b) =>
      let stopped := s.th.plyTraps
      let s := s.settleThread false
      let old := s.th
      let t := old.moved new b (if new.core = old.tid.core then old.grant else s.nextGrant)
      let s := s.streamRows' old t
      let s := s.ctxPut t.ctx { s.ctxAt t.ctx with lastCore := some old.tid.core }
      let s := if new.core = old.tid.core then
          (s.l1Walk new.core (fun _ _ => true) true).upd fun _ => t
        else
          let s := if t.tier = 1 || t.tier = 2 then s.copyPage t.ctx (clusterOf old.tid.core) (clusterOf new.core) else s
          let s := (s.freshL1 t.ctx new.core).addThread t
          let s := s.removeThread old
          { s with
            forwards := ⟨old.tid, old.base, old.grant, new, b, t.grant, t.log2n, true⟩ :: s.forwards, nextGrant := s.nextGrant + 1 }
      some (((s.focus new).resumeFocus old.handlerPlies).upd fun t => t.putTraps stopped)

/-- All of a list of threads moved, or none. -/
def State.moveAll (s : State) : List Tid → Option State
  | [] => some s
  | t :: ts => match s.moveOne t with
    | none => none
    | some s => s.moveAll ts

/-- Whether a thread of core or cluster tier moves together with its group. -/
def Thread.movesGroup (x : Thread) : Bool := (x.tier = 1 || x.tier = 2) && x.migrate != some x.tid.core

/-- The threads that move together with one. -/
def State.moveSet (s : State) (x : Thread) : List Thread :=
  if x.movesGroup then s.threads.filter fun y => y.group = x.group else [x]

/-- Whether a group that moves together has a thread that is reserved and not yet started: it is asked to move as it starts (R153). -/
def State.moveAwaits (s : State) (x : Thread) : Bool := x.movesGroup && s.reserved.any fun r => r.group = x.group

/-- The saved threads of a group that moves together go with it: the core and slot in their images become free ones of the new cluster, and
they are restored there (R153, R351). -/
def State.moveSaved (s : State) (x : Thread) : State :=
  match x.migrate with
  | none => s
  | some dst =>
    if !x.movesGroup then s
    else (s.saved.filter fun y => y.group = x.group).foldl (fun s y =>
      let core := moveTo x.tier y.tid.core dst
      let free := (List.range 8).find? fun i =>
        s.slotFree none core (BitVec.ofNat 3 i) && !(s.saved.any fun z => z.tid = ⟨core, BitVec.ofNat 3 i⟩ && z.ctx = y.ctx)
      let new : Tid := ⟨core, BitVec.ofNat 3 (free.getD y.tid.slot.toNat)⟩
      let l := (s.ctxAt y.ctx).save
      let o := ((s.saveDword l (dirAt y.entry.toNat)).extractLsb' 0 32).toNat
      let s := s.saveWrite l o (dwordBytes
        [packFields [(1, 1, 63), (y.ctx.toNat, 16, 32), (core.toNat, 13, 19), (new.slot.toNat, 3, 16)]])
      let s := s.saveWrite l (dirAt y.entry.toNat + 8) (dwordBytes [packFields [(new.slot.toNat, 3, 13), (core.toNat, 13, 0)]])
      { s with saved := s.saved.map fun z => if z.ctx = y.ctx && z.entry = y.entry then { z with tid := new } else z }) s

/-- The threads asked to move with one stopped, saved, streamed and restored (R151). -/
def State.streamComplete (s : State) (t : Tid) : Option State :=
  match s.threadAt t with
  | none => none
  | some x =>
    let xs := s.moveSet x
    if (xs.all fun y => y.migrate.isSome && s.saveable y) && !s.moveAwaits x then
      (s.moveAll (xs.map (·.tid))).map fun s' => s'.moveSaved x
    else none

/-- STREAM_COMPLETE (R151). -/
def execStreamComplete (t : Tid) (s : State) : Out := agent ((s.streamComplete t).getD s)

/-- The oldest live entry of a slot ended: each lasts its own 64 µs, and a later one was made later (R152). -/
def expireOldest (t : Tid) : List Forward → List Forward
  | [] => []
  | f :: l => if f.old = t && f.live && !(l.any fun g => g.old = t && g.live) then { f with live := false } :: l else f :: expireOldest t l

/-- FORWARDING_ENTRY_EXPIRY (R152): the entry forwards no longer; a chunk that it would have forwarded is refused. -/
def execForwardingEntryExpiry (t : Tid) (s : State) : Out :=
  agent { s with forwards := expireOldest t s.forwards }

/-! ### The settling of a strip: R347 -/

/-- The checkpoint restored and the strip open again. Progress of long instructions is restored where the strip opened at
trap entry or ERET, and cleared elsewhere (R340). -/
def Thread.rewind (t : Thread) : Thread :=
  let c := t.strip.ckpt
  let named (i : Nat) : Bool := c.scm.getLsbD i
  let t := { t with
    pc := c.pc, vl := c.vl, mode := c.mode, efr := c.efr, scm := c.scm,
    s := Vector.ofFn fun (i : Fin 64) => if named i.val then c.s[i] else t.s[i],
    plies := Vector.ofFn fun (i : Fin 16) => { c.plies[i] with drowsy := (t.plyAt i.val).drowsy },
    taints := .empty, segs := [], pend := none, sleep := .awake,
    strip := { Strip.fresh with ckpt := c, rewinds := t.strip.rewinds + 1 } }
  match c.long with
  | some (armed, fmask, pidx, lo, hi, mrow) =>
    { t with armed := armed, fmask := fmask, pidx := pidx, redlo := lo, redhi := hi, mrow := mrow }
  | none => { t with armed := false, pidx := t.pidx &&& 0x7FFFFFFFFFFFFFFF, mrow := t.mrow &&& 0x37F }

/-- STRIPERR of a strip: the buffered bytes are discarded and counted. -/
def State.stripErr (s : State) (src : BitVec 8) (addr : Dword) : State :=
  let t := s.th
  let i := { TrapInfo.mk0 cSTRIPERR addr with sub := src, count := BitVec.ofNat 32 t.strip.held }
  (s.upd fun t => { t with strip := { t.strip with buf := [], error := none } }).async t.tid t.ctx i

/-- The strip of the thread in focus settled. -/
def State.settleStrip (s : State) : State :=
  match s.th.strip.error with
  | none => s
  | some (src, addr) =>
    if !s.th.strip.rewindable then s.stripErr (src.setWidth 8) addr
    else if 3 ≤ s.th.strip.rewinds then s.stripErr 5 addr
    else { s.upd Thread.rewind with mq := s.mq.filter fun m => m.tid ≠ s.th.tid }

/-- Whether a strip in error can be settled now: a rewind waits for the thread to stop. -/
def State.settleable (s : State) (t : Thread) : Bool :=
  t.strip.error.isSome && (!t.strip.rewindable || decide (3 ≤ t.strip.rewinds) || s.stopped t)

/-- STRIP_SETTLE (R347). -/
def execStripSettle (t : Tid) (s : State) : Out :=
  agent (match s.threadAt t with
    | none => s
    | some x => if s.settleable x then (s.focus t).settleStrip else s)

end Sys2Proof.Machine
end

