-- ==== Sys2Proof/Machine/Uses.lean ====
section
/-! DEFINITION. What each word reads, writes and waits for at issue: the inputs of the scoreboard (06 R136), of the taint waits
(04 R98) and of the strip's tracking (16 R344). -/
namespace Sys2Proof.Machine
open Sys2Proof

/-- What issue needs to know of a word: the items it reads and writes; the items whose taints it waits for; whether it is an
access, which waits for the control taint and the guard tag too (R98);
whether it waits for every earlier block to end; whether it commits the strip or may; whether it runs in blocks; whether the
guard of its mode plays a part. -/
structure Uses where
  reads : List TaintName
  writes : List TaintName
  waits : List TaintName
  access : Bool
  join : Bool
  commit : Bool
  block : Bool
  guard : Bool
  deriving DecidableEq, Repr

/-- A step of another agent. -/
def uNone : Uses := ⟨[], [], [], false, false, false, false, false⟩
/-- A word of the control stream that makes no access. -/
def uPlain (r w : List TaintName) : Uses := { uNone with reads := r, writes := w }
/-- An access of the scalar stream; a device-class load or a store that finds little buffer space commits (R342). -/
def uAccess (r w x : List TaintName) : Uses := { uNone with reads := r, writes := w, waits := x, access := true, commit := true }
/-- An access that commits. -/
def uAccessCommit (r w x : List TaintName) : Uses := uAccess r w x
/-- A word that commits. -/
def uCommit (r w : List TaintName) : Uses := { uPlain r w with commit := true }
/-- A word that waits for the blocks. -/
def uJoin (r w : List TaintName) : Uses := { uPlain r w with join := true }
/-- A word that waits for the blocks and commits. -/
def uJoinCommit (r w : List TaintName) : Uses := { uJoin r w with commit := true }
/-- A word of the control stream that makes no access and waits for taints (R210, R215). -/
def uWaiting (r w x : List TaintName) : Uses := { uPlain r w with waits := x }
/-- TRAP: it waits for the taint of its operand, then commits (R210). -/
def uTrap (r w x : List TaintName) : Uses := { uWaiting r w x with commit := true }
/-- SRR and SRW of a system register: they commit where they name FLAGS (R342), and SRW waits for the taint of its source
(R164). -/
def uSysReg (i : BitVec 12) (r w x : List TaintName) : Uses := { uWaiting r w x with commit := i == 2 }
/-- A word of a block that ignores the guard. -/
def uVecFree (r w : List TaintName) : Uses := { uPlain r w with block := true }
/-- A word of a block. -/
def uVec (r w : List TaintName) : Uses := { uVecFree r w with guard := true }
/-- An access of the vector stream that ignores the guard. -/
def uVecAccessFree (r w x : List TaintName) : Uses := { uVecFree r w with waits := x, access := true, commit := true }
/-- An access of the vector stream. -/
def uVecAccess (r w x : List TaintName) : Uses := { uVecAccessFree r w x with guard := true }

/-- The registers and fields of a b operand. -/
def BOp.names (b : BOp) : List TaintName :=
  match b with
  | .field v => [.v v]
  | .sreg r => [.s r]
  | .freg r => [.f r]
  | .rep v _ => [.v v]

/-- What each instruction needs at issue. Where that depends on the values of operands, this lists all that some of them need; `State.usesAt`
tells what one instance needs. -/
def uses (i : Instr) : Uses :=
  match i with
  | .trap a => uTrap [.s a] [] [.s a]
  | .boost d a b => uWaiting [.s a, .s b] [.s d] [.s a, .s b]
  | .tlbinv a b => uCommit [.s a, .s b] []
  | .mode _ => uPlain [] []
  | .setvlImm d _ => uJoinCommit [] [.s d]
  | .setvlReg d a => uJoinCommit [.s a] [.s d]
  | .add d a b => uPlain [.s a, .s b] [.s d]
  | .sub d a b => uPlain [.s a, .s b] [.s d]
  | .and d a b => uPlain [.s a, .s b] [.s d]
  | .or d a b => uPlain [.s a, .s b] [.s d]
  | .xor d a b => uPlain [.s a, .s b] [.s d]
  | .andn d a b => uPlain [.s a, .s b] [.s d]
  | .sll d a b => uPlain [.s a, .s b] [.s d]
  | .srl d a b => uPlain [.s a, .s b] [.s d]
  | .sra d a b => uPlain [.s a, .s b] [.s d]
  | .ror d a b => uPlain [.s a, .s b] [.s d]
  | .mul d a b => uPlain [.s a, .s b] [.s d]
  | .mulh d a b => uPlain [.s a, .s b] [.s d]
  | .mulhn d a b => uPlain [.s a, .s b] [.s d]
  | .div d a b => uPlain [.s a, .s b] [.s d]
  | .divn d a b => uPlain [.s a, .s b] [.s d]
  | .rem d a b => uPlain [.s a, .s b] [.s d]
  | .remn d a b => uPlain [.s a, .s b] [.s d]
  | .min d a b => uPlain [.s a, .s b] [.s d]
  | .max d a b => uPlain [.s a, .s b] [.s d]
  | .minn d a b => uPlain [.s a, .s b] [.s d]
  | .maxn d a b => uPlain [.s a, .s b] [.s d]
  | .slt d a b => uPlain [.s a, .s b] [.s d]
  | .sltn d a b => uPlain [.s a, .s b] [.s d]
  | .seq d a b => uPlain [.s a, .s b] [.s d]
  | .clz d a => uPlain [.s a] [.s d]
  | .ctz d a => uPlain [.s a] [.s d]
  | .popc d a => uPlain [.s a] [.s d]
  | .sext d a b => uPlain [.s a, .s b] [.s d]
  | .zext d a b => uPlain [.s a, .s b] [.s d]
  | .addi d a _ => uPlain [.s a] [.s d]
  | .andi d a _ => uPlain [.s a] [.s d]
  | .ori d a _ => uPlain [.s a] [.s d]
  | .xori d a _ => uPlain [.s a] [.s d]
  | .slli d a _ => uPlain [.s a] [.s d]
  | .srli d a _ => uPlain [.s a] [.s d]
  | .srai d a _ => uPlain [.s a] [.s d]
  | .rori d a _ => uPlain [.s a] [.s d]
  | .slti d a _ => uPlain [.s a] [.s d]
  | .li d _ => uPlain [] [.s d]
  | .lim d _ => uPlain [.s d] [.s d]
  | .ldb d a _ => uAccess [.s a] [.s d] [.s a]
  | .ldh d a _ => uAccess [.s a] [.s d] [.s a]
  | .ldw d a _ => uAccess [.s a] [.s d] [.s a]
  | .ldd d a _ => uAccess [.s a] [.s d] [.s a]
  | .ldbn d a _ => uAccess [.s a] [.s d] [.s a]
  | .ldhn d a _ => uAccess [.s a] [.s d] [.s a]
  | .ldwn d a _ => uAccess [.s a] [.s d] [.s a]
  | .stb d a _ => uAccess [.s a, .s d] [] [.s a, .s d]
  | .sth d a _ => uAccess [.s a, .s d] [] [.s a, .s d]
  | .stw d a _ => uAccess [.s a, .s d] [] [.s a, .s d]
  | .std d a _ => uAccess [.s a, .s d] [] [.s a, .s d]
  | .ldacq d a => uAccess [.s a] [.s d] [.s a]
  | .strel a b => uAccessCommit [.s a, .s b] [] [.s a, .s b]
  | .amoadd d a b _ => uAccessCommit [.s a, .s b] [.s d] [.s a, .s b]
  | .amoswap d a b _ => uAccessCommit [.s a, .s b] [.s d] [.s a, .s b]
  | .amocas d a b _ => uAccessCommit [.s a, .s b, .s d] [.s d] [.s a, .s b, .s d]
  | .amomin d a b _ => uAccessCommit [.s a, .s b] [.s d] [.s a, .s b]
  | .amomax d a b _ => uAccessCommit [.s a, .s b] [.s d] [.s a, .s b]
  | .amominn d a b _ => uAccessCommit [.s a, .s b] [.s d] [.s a, .s b]
  | .amomaxn d a b _ => uAccessCommit [.s a, .s b] [.s d] [.s a, .s b]
  | .amoand d a b _ => uAccessCommit [.s a, .s b] [.s d] [.s a, .s b]
  | .amoor d a b _ => uAccessCommit [.s a, .s b] [.s d] [.s a, .s b]
  | .amoxor d a b _ => uAccessCommit [.s a, .s b] [.s d] [.s a, .s b]
  | .tclr x => uPlain [] [x]
  | .tdep x y => uPlain [y] [x]
  | .bind d a b => uAccess [.s a, .s b] [.s d] [.s a, .s b]
  | .unbind a => uPlain [.s a] []
  | .pgshare d a b => uCommit [.s d, .s a, .s b] [.s d, .s a, .s b]
  | .pgdrop a b => uCommit [.s a, .s b] [.s a, .s b]
  | .splook d a => uPlain [.s a] [.s d]
  | .spset d a b => uPlain [.s a, .s b] [.s d]
  | .prefetch a => uAccess [.s a] [] [.s a]
  | .beq a b _ => uPlain [.s a, .s b] []
  | .bne a b _ => uPlain [.s a, .s b] []
  | .blt a b _ => uPlain [.s a, .s b] []
  | .bge a b _ => uPlain [.s a, .s b] []
  | .bltn a b _ => uPlain [.s a, .s b] []
  | .bgen a b _ => uPlain [.s a, .s b] []
  | .jal d _ => uPlain [] [.s d]
  | .jalr d a _ => uPlain [.s a] [.s d]
  | .fadd d a b _ => uPlain [.f a, .f b] [.f d]
  | .fsub d a b _ => uPlain [.f a, .f b] [.f d]
  | .fmul d a b _ => uPlain [.f a, .f b] [.f d]
  | .fdiv d a b _ => uPlain [.f a, .f b] [.f d]
  | .fsqrt d a _ => uPlain [.f a] [.f d]
  | .fmin d a b _ => uPlain [.f a, .f b] [.f d]
  | .fmax d a b _ => uPlain [.f a, .f b] [.f d]
  | .fabs d a _ => uPlain [.f a] [.f d]
  | .fneg d a _ => uPlain [.f a] [.f d]
  | .fsignof d a b _ => uPlain [.f a, .f b] [.f d]
  | .feq d a b _ => uPlain [.f a, .f b] [.s d]
  | .flt d a b _ => uPlain [.f a, .f b] [.s d]
  | .fle d a b _ => uPlain [.f a, .f b] [.s d]
  | .fcvti d a _ => uPlain [.f a] [.s d]
  | .fcvtf d a _ => uPlain [.s a] [.f d]
  | .fmvsf d a _ => uPlain [.f a] [.s d]
  | .fmvfs d a _ => uPlain [.s a] [.f d]
  | .ftrust d a _ => uPlain [.f a] [.s d]
  | .ftrset d a b _ => uPlain [.f a, .s b] [.f d]
  | .fwiden d a => uPlain [.f a] [.f d]
  | .fnarrow d a => uPlain [.f a] [.f d]
  | .fma d a b c _ => uPlain [.f a, .f b, .f (c.setWidth 5)] [.f d]
  | .fms d a b c _ => uPlain [.f a, .f b, .f (c.setWidth 5)] [.f d]
  | .fnma d a b c _ => uPlain [.f a, .f b, .f (c.setWidth 5)] [.f d]
  | .fnms d a b c _ => uPlain [.f a, .f b, .f (c.setWidth 5)] [.f d]
  | .fldd d a _ => uAccess [.s a] [.f d] [.s a]
  | .fldw d a _ => uAccess [.s a] [.f d] [.s a]
  | .fstd d a _ => uAccess [.s a, .f d] [] [.s a, .f d]
  | .fstw d a _ => uAccess [.s a, .f d] [] [.s a, .f d]
  | .vfetch a _ => uPlain [.s a] []
  | .pbr k c _ => uVecFree ((if c = 0 then [] else [.k k])) []
  | .pfetch _ => uVecFree [] []
  | .vadd d a b => uVec ([.v a] ++ BOp.names b) [.v d]
  | .vsub d a b => uVec ([.v a] ++ BOp.names b) [.v d]
  | .vrsub d a b => uVec ([.v a] ++ BOp.names b) [.v d]
  | .vneg d a => uVec [.v a] [.v d]
  | .vabs d a => uVec [.v a] [.v d]
  | .vmul d a b => uVec ([.v a] ++ BOp.names b) [.v d, .v 63]
  | .vmulh d a b => uVec ([.v a] ++ BOp.names b) [.v d, .v 63]
  | .vmac d a b => uVec ([.v d, .v a] ++ BOp.names b) [.v d]
  | .vmacp d a b => uVec ([.v d, .v a] ++ BOp.names b) [.v d]
  | .vdiv d a b => uVec ([.v a] ++ BOp.names b) [.v d, .v 63]
  | .vrem d a b => uVec ([.v a] ++ BOp.names b) [.v d, .v 63]
  | .vmin d a b => uVec ([.v a] ++ BOp.names b) [.v d]
  | .vmax d a b => uVec ([.v a] ++ BOp.names b) [.v d]
  | .vshl d a b => uVec ([.v a] ++ BOp.names b) [.v d]
  | .vshr d a b => uVec ([.v a] ++ BOp.names b) [.v d]
  | .vrshr d a b => uVec ([.v a] ++ BOp.names b) [.v d]
  | .vsat d a => uVec [.v a] [.v d]
  | .vmov d a => uVec [.v a] [.v d]
  | .vcvt d a => uVec [.v a] [.v d]
  | .vclz d a => uVec [.v a] [.v d]
  | .vpopc d a => uVec [.v a] [.v d]
  | .vfadd d a b => uVec ([.v a] ++ BOp.names b) [.v d, .v 63]
  | .vfsub d a b => uVec ([.v a] ++ BOp.names b) [.v d, .v 63]
  | .vfmul d a b => uVec ([.v a] ++ BOp.names b) [.v d, .v 63]
  | .vfdiv d a b => uVec ([.v a] ++ BOp.names b) [.v d, .v 63]
  | .vfsqrt d a => uVec [.v a] [.v d, .v 63]
  | .vfmin d a b => uVec ([.v a] ++ BOp.names b) [.v d]
  | .vfmax d a b => uVec ([.v a] ++ BOp.names b) [.v d]
  | .vfabs d a => uVec [.v a] [.v d]
  | .vfneg d a => uVec [.v a] [.v d]
  | .vfcvt d a _ => uVec [.v a] [.v d, .v 63]
  | .vtrust d a => uVec [.v a] [.v d]
  | .vtrset d a b => uVec ([.v a] ++ BOp.names b) [.v d]
  | .vfexp2 d a => uVec [.v a] [.v d, .v 63]
  | .vflog2 d a => uVec [.v a] [.v d, .v 63]
  | .vfrcp d a => uVec [.v a] [.v d, .v 63]
  | .vfrsq d a => uVec [.v a] [.v d, .v 63]
  | .vfma d a b c => uVec [.v a, .v b, .v c] [.v d, .v 63]
  | .vfms d a b c => uVec [.v a, .v b, .v c] [.v d, .v 63]
  | .vfnma d a b c => uVec [.v a, .v b, .v c] [.v d, .v 63]
  | .vfnms d a b c => uVec [.v a, .v b, .v c] [.v d, .v 63]
  | .vand d a b => uVec ([.v a] ++ BOp.names b) [.v d]
  | .vor d a b => uVec ([.v a] ++ BOp.names b) [.v d]
  | .vxor d a b => uVec ([.v a] ++ BOp.names b) [.v d]
  | .vandn d a b => uVec ([.v a] ++ BOp.names b) [.v d]
  | .vnot d a => uVec [.v a] [.v d]
  | .vsel d a b => uVec ([.v a] ++ BOp.names b) [.v d]
  | .vcmpEq k m a b => uVec ([.v a] ++ BOp.names b ++ (if m = 0 then [] else [.k k])) [.k k]
  | .vcmpNe k m a b => uVec ([.v a] ++ BOp.names b ++ (if m = 0 then [] else [.k k])) [.k k]
  | .vcmpLt k m a b => uVec ([.v a] ++ BOp.names b ++ (if m = 0 then [] else [.k k])) [.k k]
  | .vcmpLe k m a b => uVec ([.v a] ++ BOp.names b ++ (if m = 0 then [] else [.k k])) [.k k]
  | .vcmpGt k m a b => uVec ([.v a] ++ BOp.names b ++ (if m = 0 then [] else [.k k])) [.k k]
  | .vcmpGe k m a b => uVec ([.v a] ++ BOp.names b ++ (if m = 0 then [] else [.k k])) [.k k]
  | .vcmpTrlt k m a => uVec ([.v a] ++ (if m = 0 then [] else [.k k])) [.k k]
  | .vcmpNan k m a => uVec ([.v a] ++ (if m = 0 then [] else [.k k])) [.k k]
  | .vcmpInf k m a => uVec ([.v a] ++ (if m = 0 then [] else [.k k])) [.k k]
  | .vsrch k m a y z => uVec ([.v a, .s y, .s z] ++ (if m = 0 then [] else [.k k])) [.k k]
  | .vwrt k a y z => uVec [.k k, .s y, .s z] [.v a]
  | .kand d a b => uVec [.k a, .k b] [.k d]
  | .kor d a b => uVec [.k a, .k b] [.k d]
  | .kxor d a b => uVec [.k a, .k b] [.k d]
  | .kandn d a b => uVec [.k a, .k b] [.k d]
  | .knot d a => uVec [.k a] [.k d]
  | .kmov d a => uVec [.k a] [.k d]
  | .kset d => uVec [] [.k d]
  | .kclr d => uVec [] [.k d]
  | .kpop a x => uVec [.k a] [.s x]
  | .kfirst d a x => uVec [.k a] [.k d, .s x]
  | .kone d x => uVec [.s x] [.k d]
  | .kshift d a x => uVec [.k a, .s x] [.k d]
  | .kfrom d x => uVec [.v x] [.k d]
  | .kto a x => uVec [.k a] [.v x]
  | .vrsum d a => uVec [.v a] [.s d]
  | .vrmin d a => uVec [.v a] [.s d]
  | .vrmax d a => uVec [.v a] [.s d]
  | .vrand d a => uVec [.v a] [.s d]
  | .vror d a => uVec [.v a] [.s d]
  | .vrxor d a => uVec [.v a] [.s d]
  | .vrfsum d a => uVec [.v a] [.f d, .v 63]
  | .vrfmax d a => uVec [.v a] [.f d]
  | .vrfmin d a => uVec [.v a] [.f d]
  | .vrargmax d a => uVec [.v a] [.s d]
  | .vrargmin d a => uVec [.v a] [.s d]
  | .vextr d a b => uVec [.v a, .s b] [.s d, .f (d.setWidth 5)]
  | .vtopk k a b => uVec [.v a, .s b] [.k k]
  | .vbotk k a b => uVec [.v a, .s b] [.k k]
  | .vmaxt k a => uVec [.v a] [.k k]
  | .vmint k a => uVec [.v a] [.k k]
  | .vconf k a => uVec [.v a] [.k k]
  | .vneark k a b => uVec [.v a, .s b, .s (b + 1)] [.k k, .v 63]
  | .vslideup d a b => uVec [.v a, .s b] [.v d]
  | .vslidedn d a b => uVec [.v a, .s b] [.v d]
  | .vslidein d a b => uVec [.v a, .s b, .s (b + 1)] [.v d]
  | .vperm d a b => uVec ([.v a] ++ BOp.names b) [.v d]
  | .vcompact d => uVec [] [.v d]
  | .vscan d a => uVec [.v a] [.v d, .v 63]
  | .viota d => uVec [] [.v d]
  | .vbcast d a b => uVec [.v a, .s b] [.v d]
  | .vldu d a => uVecAccess [.s a] [.v d] [.s a]
  | .vlds d a b => uVecAccess [.s a, .s b] [.v d] [.s a, .s b]
  | .vldx d a b => uVecAccess ([.s a] ++ BOp.names b) [.v d] ([.s a] ++ BOp.names b)
  | .vldl d a b => uVecAccess ([.s a] ++ BOp.names b) [.v d] ([.s a] ++ BOp.names b)
  | .vstu d a => uVecAccess [.s a, .v d] [] [.s a, .v d]
  | .vsts d a b => uVecAccess [.s a, .s b, .v d] [] [.s a, .s b, .v d]
  | .vstx d a b => uVecAccess ([.s a] ++ BOp.names b ++ [.v d]) [] ([.s a] ++ BOp.names b ++ [.v d])
  | .vstadd d a b => uVecAccess ([.s a] ++ BOp.names b ++ [.v d]) [] ([.s a] ++ BOp.names b ++ [.v d])
  | .vstef d a _ => uVecAccess [.s a, .v d] [] [.s a, .v d]
  | .vstl d a b => uVecAccess ([.s a] ++ BOp.names b ++ [.v d]) [] ([.s a] ++ BOp.names b ++ [.v d])
  | .vsoft d a b => uVec [.v a, .f b, .f (b + 1)] [.v d, .f b, .f (b + 1), .f (b + 2), .v 63]
  | .vcollapse d a b => uVec [.v a, .s b] [.v d, .v 63]
  | .fmap v _ _ _ => uPlain [] [.v v]
  | .mcfg a n => uVecFree [.s a] [.acc n]
  | .mwld a b n => uVecAccessFree [.s a, .s b] [.acc n] [.s a, .s b]
  | .mwlds a b c n => uVecAccessFree [.s a, .s b, .v c] [.acc n] [.s a, .s b, .v c]
  | .mstr a b n => uVecAccessFree [.s a, .s b, .acc n] [.acc n] [.s a, .s b]
  | .mdrn a b n => uVecAccess [.s a, .s b, .acc n] [.acc n] [.s a, .s b, .acc n]
  | .mdrnv a b n => uVec [.s b, .acc n] [.v a]
  | .mzero n => uVecFree [] [.acc n]
  | .mchk a n => uVecFree [.acc n] [.s a, .acc n]
  | .spcomp a b c => uVecFree [.v c] [.v a, .v b]
  | .arrinit d a b => uAccess [.s a, .s b] [.s d] [.s a, .s b]
  | .arradd d a b => uAccessCommit [.s a, .s b] [.s d] [.s a, .s b]
  | .arrwait d a b => uAccessCommit [.s a, .s b] [.s d] [.s a, .s b]
  | .srr d i => uSysReg i [] [.s d] []
  | .srw a i => uSysReg i [.s a] [] [.s a]
  | .nop => uPlain [] []
  | .eret => uJoinCommit [] []
  | .wfe => uPlain [] []
  | .yield => uPlain [] []
  | .halt => uJoinCommit [] []
  | .bkpt => uPlain [] []
  | .synci => uJoinCommit [] []
  | .vjoin => uJoin [] []
  | .unboost => uPlain [] []
  | .fenceSv => uPlain [] []
  | .fenceVs => uJoinCommit [] []
  | .twait => uJoin [] []
  | .pend => uVecFree [] []
  | .pwait => uVecFree [] []
  | .cpyg2l d a b => uAccessCommit [.s d, .s a, .s b, .s (b + 1)] [] [.s d, .s a, .s b, .s (b + 1)]
  | .cpyl2g d a b => uAccessCommit [.s d, .s a, .s b, .s (b + 1)] [] [.s d, .s a, .s b, .s (b + 1)]
  | .cpyl2l d a b => uAccessCommit [.s d, .s a, .s b, .s (b + 1)] [] [.s d, .s a, .s b, .s (b + 1)]
  | .cpyg2g d a b => uAccessCommit [.s d, .s a, .s b, .s (b + 1)] [] [.s d, .s a, .s b, .s (b + 1)]
  | .cpywait d => uPlain [] [.s d]
  | .colrs d a b => uAccessCommit [.s d, .s a, .s b] [] [.s d, .s a, .s b]
  | .colag d a b => uAccessCommit [.s d, .s a, .s b] [] [.s d, .s a, .s b]
  | .colar d a b => uAccessCommit [.s d, .s a, .s b] [] [.s d, .s a, .s b]
  | .colrot d a b => uAccessCommit [.s a, .s b] [.s d] [.s a, .s b]
  | .colwait d a => uPlain [.s a] [.s d]
  | .colstat d a => uPlain [.s a] [.s d]
  | .ctxctlMakeValid => uNone
  | .ctxctlClearValid => uNone
  | .ctxctlKill => uNone
  | .coolDown => uNone
  | .go => uNone
  | .warmUp => uNone
  | .attest => uNone
  | .activateStagedImage => uNone
  | .powerOn => uNone
  | .bootSlotTimeout => uNone
  | .imageStartTimeout => uNone
  | .packageReset => uNone
  | .functionLevelReset => uNone
  | .microcodeLoadTimeLimit => uNone
  | .purgeComplete => uNone
  | .soakComplete => uNone
  | .criticalSaveDeadline => uNone
  | .criticalRailsOff => uNone
  | .refreshOff => uNone
  | .powerStepUndo => uNone
  | .mailboxCommandDone => uNone
  | .registerWrite _ _ _ => uNone
  | .flagsWrite _ => uNone
  | .fpheadWrite _ => uNone
  | .checkedModeSet _ => uNone
  | .dbgselWrite _ => uNone
  | .rowselWrite _ _ => uNone
  | .qtailDoorbell _ _ => uNone
  | .qstatHaltedClear _ => uNone
  | .queueDisable _ => uNone
  | .preemptRequest _ => uNone
  | .restoreRequest _ => uNone
  | .migrationRequest _ _ => uNone
  | .groupEnable _ _ => uNone
  | .groupWithdraw _ _ => uNone
  | .readCertificateChain _ => uNone
  | .stageImagePart _ => uNone
  | .loadMicrocodeTable _ => uNone
  | .retrainPeerPort _ => uNone
  | .recalibrateHbmChannel _ => uNone
  | .substituteSpareCore _ => uNone
  | .mailboxUnknownOp _ => uNone
  | .msirqWrite _ => uNone
  | .msixUnmask _ => uNone
  | .hostBar2Write _ _ => uNone
  | .hostBar2Read _ _ => uNone
  | .hostCompletion _ _ _ => uNone
  | .launchHeadService _ => uNone
  | .launchRetry _ => uNone
  | .heldStart _ => uNone
  | .threadStart _ => uNone
  | .resumeListRestore _ => uNone
  | .threadAged _ => uNone
  | .yieldExpiry _ => uNone
  | .wfeWake _ => uNone
  | .wfeTimeout _ => uNone
  | .plyBlockStart _ _ => uNone
  | .matrixOperationStart _ => uNone
  | .matrixCheckResult _ _ => uNone
  | .checkedModeCheckResult _ _ => uNone
  | .committedStorePerform _ => uNone
  | .stripErrorDetected _ _ _ => uNone
  | .stripSettle _ => uNone
  | .trapDelivery _ => uNone
  | .contextSave _ => uNone
  | .contextRestore _ _ => uNone
  | .streamComplete _ => uNone
  | .forwardingEntryExpiry _ => uNone
  | .loadDataArrival _ _ => uNone
  | .acquireRetire _ _ => uNone
  | .sliceOperation _ => uNone
  | .casTurnExpiry _ => uNone
  | .hbmFill _ => uNone
  | .replicaLock _ => uNone
  | .replicaUpdate _ => uNone
  | .pageWalk _ _ => uNone
  | .invalidationComplete _ => uNone
  | .arrwaitWake _ => uNone
  | .arrwaitReread _ => uNone
  | .copyChunk _ => uNone
  | .copyChunkFail _ _ => uNone
  | .copyDataFrameRx _ _ => uNone
  | .remoteReadRequestRx _ _ => uNone
  | .remoteReadDataRx _ _ => uNone
  | .collectiveDataFrameRx _ _ => uNone
  | .hopReceiptRx _ => uNone
  | .deliveryReceiptRx _ _ => uNone
  | .slotReceiptRx _ _ => uNone
  | .refusalRx _ _ _ => uNone
  | .linkTimeout _ => uNone
  | .linkDown _ => uNone
  | .linkTrained _ => uNone
  | .pathTimeout _ => uNone
  | .groupTimeout _ => uNone
  | .sensorSample _ _ _ _ _ _ => uNone
  | .criticalMark _ => uNone
  | .refreshBurstComplete _ => uNone
  | .powerMeasurement _ => uNone
  | .leaseExpiry _ => uNone
  | .bandReady _ _ => uNone
  | .regulatorHeadroomLow _ => uNone
  | .chainpRestore _ => uNone
  | .frequencyTransitionSettle _ => uNone
  | .plyDrowsy _ _ => uNone
  | .plyWake _ _ => uNone
  | .backgroundScrub _ _ => uNone
  | .wordNotAnInstruction _ => uNone
  | .instructionFetchFault _ => uNone
  | .microcodePlyLoaded _ _ => uNone
  | .boostAnswer _ _ => uNone
  | .resizableBarWrite _ => uNone

/-- The field of a replicated b operand. -/
def BOp.replicated (b : BOp) : List TaintName :=
  match b with
  | .field _ => []
  | .sreg _ => []
  | .freg _ => []
  | .rep v _ => [.v v]

/-- The fields and tags that a word reads in rows of plies that do not execute it (R136, R192). -/
def wideReads (i : Instr) : List TaintName :=
  match i with
  | .vadd _ _ b => BOp.replicated b
  | .vsub _ _ b => BOp.replicated b
  | .vrsub _ _ b => BOp.replicated b
  | .vmul _ _ b => BOp.replicated b
  | .vmulh _ _ b => BOp.replicated b
  | .vmac _ _ b => BOp.replicated b
  | .vmacp _ _ b => BOp.replicated b
  | .vdiv _ _ b => BOp.replicated b
  | .vrem _ _ b => BOp.replicated b
  | .vmin _ _ b => BOp.replicated b
  | .vmax _ _ b => BOp.replicated b
  | .vshl _ _ b => BOp.replicated b
  | .vshr _ _ b => BOp.replicated b
  | .vrshr _ _ b => BOp.replicated b
  | .vfadd _ _ b => BOp.replicated b
  | .vfsub _ _ b => BOp.replicated b
  | .vfmul _ _ b => BOp.replicated b
  | .vfdiv _ _ b => BOp.replicated b
  | .vfmin _ _ b => BOp.replicated b
  | .vfmax _ _ b => BOp.replicated b
  | .vtrset _ _ b => BOp.replicated b
  | .vand _ _ b => BOp.replicated b
  | .vor _ _ b => BOp.replicated b
  | .vxor _ _ b => BOp.replicated b
  | .vandn _ _ b => BOp.replicated b
  | .vsel _ _ b => BOp.replicated b
  | .vcmpEq _ _ _ b => BOp.replicated b
  | .vcmpNe _ _ _ b => BOp.replicated b
  | .vcmpLt _ _ _ b => BOp.replicated b
  | .vcmpLe _ _ _ b => BOp.replicated b
  | .vcmpGt _ _ _ b => BOp.replicated b
  | .vcmpGe _ _ _ b => BOp.replicated b
  | .kshift _ a _ => [.k a]
  | .vextr _ a _ => [.v a]
  | .vslideup _ a _ => [.v a]
  | .vslidedn _ a _ => [.v a]
  | .vslidein _ a _ => [.v a]
  | .vperm _ a b => [.v a] ++ BOp.replicated b
  | .vbcast _ a _ => [.v a]
  | .vldx _ _ b => BOp.replicated b
  | .vldl _ _ b => BOp.replicated b
  | .vstx _ _ b => BOp.replicated b
  | .vstadd _ _ b => BOp.replicated b
  | .vstl _ _ b => BOp.replicated b
  | .mwlds _ _ c _ => [.v c]
  | .spcomp _ _ c => [.v c]
  | _ => []

/-- The fields that a word writes in rows of plies that do not execute it: the work field of a row-crossing word (R261, R281), the compressed
values and metadata of SPCOMP (R288). -/
def wideWrites (i : Instr) : List TaintName :=
  match i with
  | .vrfsum _ _ => [.v 63]
  | .vneark _ _ _ => [.v 63]
  | .vscan _ _ => [.v 63]
  | .vcollapse _ _ _ => [.v 63]
  | .vsoft _ _ _ => [.v 63]
  | .spcomp a b _ => [.v a, .v b]
  | _ => []

/-- The replicated operand of a word: its field and its segment's length. -/
def repOperand (i : Instr) : List BOp :=
  match i with
  | .vadd _ _ b => [b]
  | .vsub _ _ b => [b]
  | .vrsub _ _ b => [b]
  | .vmul _ _ b => [b]
  | .vmulh _ _ b => [b]
  | .vmac _ _ b => [b]
  | .vmacp _ _ b => [b]
  | .vdiv _ _ b => [b]
  | .vrem _ _ b => [b]
  | .vmin _ _ b => [b]
  | .vmax _ _ b => [b]
  | .vshl _ _ b => [b]
  | .vshr _ _ b => [b]
  | .vrshr _ _ b => [b]
  | .vfadd _ _ b => [b]
  | .vfsub _ _ b => [b]
  | .vfmul _ _ b => [b]
  | .vfdiv _ _ b => [b]
  | .vfmin _ _ b => [b]
  | .vfmax _ _ b => [b]
  | .vtrset _ _ b => [b]
  | .vand _ _ b => [b]
  | .vor _ _ b => [b]
  | .vxor _ _ b => [b]
  | .vandn _ _ b => [b]
  | .vsel _ _ b => [b]
  | .vcmpEq _ _ _ b => [b]
  | .vcmpNe _ _ _ b => [b]
  | .vcmpLt _ _ _ b => [b]
  | .vcmpLe _ _ _ b => [b]
  | .vcmpGt _ _ _ b => [b]
  | .vcmpGe _ _ _ b => [b]
  | _ => []

end Sys2Proof.Machine
end

