-- ==== Sys2Proof/Machine/Scoreboard.lean ====
section
/-! DEFINITION. The scoreboard: what holds a word back (04 R95, R98, R100, 06 R134 to R136, R144, 16 R342), and what a word adds to the
tracking of its strip (16 R344). -/
namespace Sys2Proof.Machine
open Sys2Proof

/-! ### What one instance of a word needs -/

/-- What a word needs at issue under a mode, for the operands as they stand: what `uses` lists, less what this instance does not read or
write (Table 11.12, R255, R276, R291, R303). -/
def State.usesAt (s : State) (mode : BitVec 26) (i : Instr) : Uses :=
  let u := uses i
  let copy (b : BitVec 6) : Uses :=
    if cwArr (s.th.sr b) then u
    else { u with reads := u.reads.filter (· != .s (b + 1)), waits := u.waits.filter (· != .s (b + 1)) }
  match i with
  | .vmul d a b => if oneField s d a b then u else { u with writes := [.v d] }
  | .vextr d _ _ => { u with writes := if (modeType mode).isFloat then [.f (d.setWidth 5)] else [.s d] }
  | .vslidein _ a b => { u with reads := if (s.th.sr b).extractLsb' 13 2 = 1 then u.reads else [.v a, .s b] }
  | .mdrn _ b _ => if (s.th.sr b).getLsbD 49 then u else { u with writes := [] }
  | .cpyg2l _ _ b => copy b
  | .cpyl2g _ _ b => copy b
  | .cpyl2l _ _ b => copy b
  | .cpyg2g _ _ b => copy b
  | _ => u

/-- What a word that is executed reads and writes of what a strip tracks: FMAP, TCLR and TDEP change no tracked item, though they name
some (R344). -/
def State.usesTracked (s : State) (mode : BitVec 26) (i : Instr) : Uses :=
  match i with
  | .fmap _ _ _ _ => uNone
  | .tclr _ => uNone
  | .tdep _ _ => uNone
  | i => s.usesAt mode i

/-! ### Tracking: R344 -/

def Marks.or (a b : Marks) : Marks := ⟨a.s ||| b.s, a.f ||| b.f, a.g ||| b.g, a.k ||| b.k, a.acc ||| b.acc⟩
def Marks.minus (a b : Marks) : Marks :=
  ⟨a.s &&& ~~~ b.s, a.f &&& ~~~ b.f, a.g &&& ~~~ b.g, a.k &&& ~~~ b.k, a.acc &&& ~~~ b.acc⟩
def Marks.meets (a b : Marks) : Bool :=
  a.s &&& b.s != 0 || a.f &&& b.f != 0 || a.g &&& b.g != 0 || a.k &&& b.k != 0 || a.acc &&& b.acc != 0

/-- The item a name stands for: s-registers named in the checkpoint's SCM, s0 and k0 are not tracked. -/
def Thread.item (t : Thread) (x : TaintName) : Marks :=
  match x with
  | .s r => if r = 0 || t.strip.ckpt.scm.getLsbD r.toNat then .none else { Marks.none with s := 1 <<< r.toNat }
  | .f r => { Marks.none with f := 1 <<< r.toNat }
  | .v v => match t.fent v with
    | none => .none
    | some f => { Marks.none with g := f.groups }
  | .k k => if k = 0 then .none else { Marks.none with k := 1 <<< k.toNat }
  | .acc n => { Marks.none with acc := 1 <<< n.toNat }
  | .ctl => .none

def Thread.items (t : Thread) (l : List TaintName) : Marks := l.foldl (fun m x => m.or (t.item x)) .none

/-- The tags that the guard of a mode adds to what a word reads. -/
def guardNames (u : Uses) (mode : BitVec 26) : List TaintName := if u.guard then [.k (modeGuard mode)] else []

/-- A word's reads, then its writes, tracked: a write to an item that the strip read before its first write of it makes the
strip not rewindable. -/
def Thread.track (t : Thread) (u : Uses) (mode : BitVec 26) : Thread :=
  let x := t.strip
  let r := (t.items (u.reads ++ guardNames u mode)).minus x.written
  let w := t.items u.writes
  let first := x.readFirst.or r
  { t with strip := { x with
    readFirst := first, written := x.written.or w, rewindable := x.rewindable && !first.meets w } }

/-! ### The scoreboard: R136, R28, R100 -/

/-- What a block that has not ended has still to read and write, and to read or write in rows of every ply (R136, R192); `open_` where a
PFETCH continues it. -/
structure Ahead where
  reads : List TaintName
  writes : List TaintName
  wide : List TaintName
  wideOut : List TaintName
  open_ : Bool
  deriving DecidableEq, Repr

/-- The mode that a MODE word sets. -/
def modeSet (i : Option Instr) : Option (BitVec 26) :=
  match i with
  | some (.mode m) => some (m.setWidth 26)
  | _ => none

/-- The modes under which the words of a block may run: its present one and those that its MODE words set (R196). -/
def blockModes (mode : BitVec 26) (ws : List IWord) : List (BitVec 26) := mode :: ws.filterMap fun w => modeSet (blockDecode w)

/-- The names in the words of a block. -/
def aheadOf (mode : BitVec 26) (ws : List IWord) : Ahead :=
  ws.foldl (fun a w => match blockDecode w with
    | none => a
    | some i =>
      let u := uses i
      ⟨a.reads ++ u.reads ++ (blockModes mode ws).flatMap (guardNames u), a.writes ++ u.writes, a.wide ++ wideReads i,
        a.wideOut ++ wideWrites i,
        a.open_ || (match pbrOffset (some i) with
          | none => u == uses (.pfetch 0) && w.extractLsb' 16 4 == 2#4 && w.extractLsb' 26 6 == 0x28#6
          | some _ => false)⟩) ⟨[], [], [], [], false⟩

/-- The words a ply may still execute: those from its PC on, and all where a later word branches back. -/
def Running.left (r : Running) : List IWord :=
  let rest := r.blk.words.drop ((r.pc - r.blk.addr).toNat / 4)
  if rest.any fun w => (pbrOffset (blockDecode w)).any (· < 0) then r.blk.words else rest

/-- The unfinished blocks of a thread whose dispatch number satisfies a condition. -/
def Thread.ahead (t : Thread) (p : Nat → Bool) : List Ahead :=
  t.owned.flatMap fun (_, x) =>
    (match x.run with
     | none => []
     | some r => if p r.origin then [aheadOf r.mode r.left] else [])
    ++ (x.queue.filter fun b => p b.seq).map fun b => aheadOf b.mode b.words

/-- Whether a name is an s-register or f-register, s0 apart. -/
def isReg (x : TaintName) : Bool :=
  match x with
  | .s r => r != 0
  | .f _ => true
  | .v _ => false
  | .k _ => false
  | .acc _ => false
  | .ctl => false

/-- Whether a word must wait for a block: it writes what the block reads or writes, or reads a register that the block writes.
`all` counts fields, tags and accumulators among what is written (FMAP, TCLR, TDEP). -/
def Uses.conflicts (u : Uses) (all : Bool) (a : Ahead) : Bool :=
  let ws := if all then u.writes.filter (· != .s 0) else u.writes.filter isReg
  let rs := u.reads.filter isReg
  (a.open_ && !(ws.isEmpty && rs.isEmpty))
    || (ws.any fun x => a.reads.contains x || a.writes.contains x) || (rs.any fun x => a.writes.contains x)

/-- Whether two names reach a column or a tag in common. -/
def Thread.nameMeets (t : Thread) (x y : TaintName) : Bool :=
  match x, y with
  | .v a, .v b => (match t.fent a, t.fent b with
    | some f, some g => f.meets g
    | _, _ => false)
  | .k a, .k b => a == b
  | _, _ => false

/-- Whether some name of a list reaches a column or a tag of one of another. -/
def Thread.namesMeet (t : Thread) (l m : List TaintName) : Bool := l.any fun x => m.any (t.nameMeets x)

/-- Whether a word of a ply must wait for an earlier block of a sibling where one of them reads or writes rows of the other: it reads or
writes in every row what the block has still to write or read, or reads or writes at all what the block has still to write or read so.
What a block that a PFETCH continues has still to do is not known: a word that reads or writes a field or a tag waits for it. -/
def Ahead.crosses (a : Ahead) (t : Thread) (u : Uses) (wide wideOut : List TaintName) : Bool :=
  (a.open_ && (u.reads ++ u.writes).any fun x => t.nameMeets x x)
    || t.namesMeet wide a.writes || t.namesMeet u.writes a.wide
    || t.namesMeet wideOut (a.reads ++ a.writes) || t.namesMeet (u.reads ++ u.writes) a.wideOut

/-! ### Taints: R98 -/

/-- The sets a word waits for: those of the items it names, and for an access the guard of its mode and the control taint of
its stream. -/
def State.waitSet (s : State) (u : Uses) (mode : BitVec 26) (ctl : Taint) : Taint :=
  (u.waits ++ if u.access then guardNames u mode else []).foldl (fun a x => a ||| s.nameTaint x)
    (if u.access then ctl else 0)

/-! ### What holds a word -/

/-- Whether a commit must wait: a check has not ended, or the strip is in error (R342, R347). -/
def Thread.commitWaits (t : Thread) : Bool := !t.strip.checked || t.strip.error.isSome

/-- Whether a word of the control thread in focus is refused by a check of privilege or state that comes before every wait
(R164, R339). -/
def State.refusedAtIssue (s : State) (i : Instr) : Bool :=
  match i with
  | .eret => !s.th.priv || !s.th.trap.svc
  | .srr _ n => sysPrivileged n.toNat && !s.th.priv
  | .srw _ n => sysPrivileged n.toNat && !s.th.priv
  | _ => false

/-- Whether a word of the control thread in focus commits the strip or may: TLBINV, PGSHARE and PGDROP do so only once their
checks pass (R49, R57, R342). -/
def State.commitsAtIssue (s : State) (i : Instr) : Bool :=
  match i with
  | .tlbinv _ b => s.mayInvalidate (s.th.sr b) && (s.th.sr b).extractLsb' 49 15 == 0
  | .pgshare d a b =>
    s.mayShare (shareX (s.th.sr b)) && (s.shareCheck (s.th.sr a) (some (s.th.sr d)) (s.th.sr b)).isOk
  | .pgdrop a b => s.mayShare false && (s.shareCheck (s.th.sr a) none (s.th.sr b)).isOk
  | i => (uses i).commit

/-- Whether an atomic access of the control thread in focus to a location that it may access waits within its meaning: for an identifier, a
line's turn, or the releases of other threads (R89, R95, R107). -/
def State.atomicWaits (s : State) (k : Kind) (va : Dword) (n : Nat) (word takes : Bool) : Bool :=
  match s.resolve s.th k va n word with
  | .error _ => false
  | .ok ps => (takes && s.th.freeId.isNone) || s.turnHeld s.th.tid (onePlace ps) || !s.linesFree s.th
      || s.releaseWaits s.th (scopeOf (s.bindingOf va))

/-- Whether an operation on an arrival word waits so. -/
def State.arrivalWaits (s : State) (k : Kind) (va : Dword) (release : Bool) : Bool :=
  match s.arrPlace s.th k va with
  | .error _ => false
  | .ok (p, _) => s.th.freeId.isNone || s.turnHeld s.th.tid p.place || !s.linesFree s.th
      || (release && s.releaseWaits s.th (scopeOf (s.bindingOf va)))

/-- Whether an ordinary load waits so. -/
def State.loadWaits (s : State) (va : Dword) (n : Nat) : Bool :=
  s.th.freeId.isNone && (s.resolve s.th .read va n (n == 8)).isOk

/-- Whether a word of the control thread in focus waits by a rule that its own meaning states: it would leave the state as it is, and the
thread is not ready (R327). -/
def State.waitsInside (s : State) (i : Instr) : Bool :=
  let t := s.th
  let amo (a : BitVec 6) (w : Bool) : Bool :=
    (t.sr a).toNat % (if w then 4 else 8) = 0 && s.atomicWaits .amo (t.sr a) (if w then 4 else 8) (!w) true
  let copy (f : CopyForm) (d a b : BitVec 6) : Bool := (s.copyPlan f d a b).isOk && s.copyFull
  match i with
  | .ldb _ a i => s.loadWaits (t.ea a i) 1
  | .ldbn _ a i => s.loadWaits (t.ea a i) 1
  | .ldh _ a i => s.loadWaits (t.ea a i) 2
  | .ldhn _ a i => s.loadWaits (t.ea a i) 2
  | .ldw _ a i => s.loadWaits (t.ea a i) 4
  | .ldwn _ a i => s.loadWaits (t.ea a i) 4
  | .ldd _ a i => s.loadWaits (t.ea a i) 8
  | .fldw _ a i => s.loadWaits (t.ea a i) 4
  | .fldd _ a i => s.loadWaits (t.ea a i) 8
  | .ldacq _ a => (t.sr a).extractLsb' 0 3 == 0 && s.loadWaits (t.sr a) 8
  | .strel a _ => (t.sr a).extractLsb' 0 3 == 0 && s.atomicWaits .write (t.sr a) 8 false false
  | .amoadd _ a _ w => amo a w
  | .amoswap _ a _ w => amo a w
  | .amocas _ a _ w => amo a w
  | .amomin _ a _ w => amo a w
  | .amomax _ a _ w => amo a w
  | .amominn _ a _ w => amo a w
  | .amomaxn _ a _ w => amo a w
  | .amoand _ a _ w => amo a w
  | .amoor _ a _ w => amo a w
  | .amoxor _ a _ w => amo a w
  | .arrinit _ a _ => (t.sr a).extractLsb' 0 3 == 0 && s.arrivalWaits .write (t.sr a) false
  | .arradd _ a _ => (t.sr a).extractLsb' 0 3 == 0 && s.arrivalWaits .amo (t.sr a) true
  | .cpyg2l d a b => copy ⟨cpyWordOf d a b 0, true, false⟩ d a b
  | .cpyl2g d a b => copy ⟨cpyWordOf d a b 1, false, true⟩ d a b
  | .cpyl2l d a b => copy ⟨cpyWordOf d a b 2, true, true⟩ d a b
  | .cpyg2g d a b => copy ⟨cpyWordOf d a b 3, false, false⟩ d a b
  | .cpywait _ => s.copying t || t.freeId.isNone
  | .colwait _ a => t.sleep == .colwait (colGroup (t.sr a)) &&
      ((!(s.groupAt (colGroup (t.sr a))).failed && s.colBusy t (colGroup (t.sr a))) || t.freeId.isNone)
  | .srr _ n => sysWaits n.toNat false && !t.blocksEnded && !(sysPrivileged n.toNat && !t.priv)
  | .srw _ n => sysWaits n.toNat true && !t.blocksEnded && !(sysPrivileged n.toNat && !t.priv)
  | .eret => t.priv && t.trap.svc && !(t.blocksEnded && t.out.isEmpty)
  | .synci => !(t.blocksEnded && s.linesFree t)
  | .halt => !(t.vecQuiet && s.linesFree t)
  | .fenceVs => !t.vecQuiet
  | .twait => !(t.blocksEnded && t.out.isEmpty)
  | .vfetch a i => (vfetchAddr t a i).extractLsb' 0 2 == 0 && t.queueFull && (s.fetchBlock t.priv (vfetchAddr t a i)).isOk
  | _ => false

/-- Whether the control thread in focus holds a word at issue. A word of a block is only dispatched there. -/
def State.controlHolds (s : State) (i : Instr) : Bool :=
  let t := s.th
  let u := s.usesAt t.mode i
  if u.block then t.queueFull
  else !s.refusedAtIssue i &&
    ((t.ahead fun _ => true).any (u.conflicts true)
      || (u.join && !t.blocksEnded)
      || s.waitSet u t.mode t.taints.ctl != 0
      || (s.commitsAtIssue i && t.commitWaits)
      || s.waitsInside i)

/-- Whether a ply at a word must wait for a sibling that owns rows of its replicated operand to come to the word (R136, R192). -/
def Thread.segWaits (t : Thread) (j : Nat) (r : Running) (i : Instr) : Bool :=
  (repOperand i).any fun b => match b with
    | .rep _ g => (t.segOwners (4 ^ g.toNat)).any fun o =>
        o != j && (t.posted j o (r.origin, r.pc)).isNone && !t.standsAt o (r.origin, r.pc) && (t.plyAt o).stand r.origin == .coming
    | .field _ => false
    | .sreg _ => false
    | .freg _ => false

/-- Whether a ply holds a word for what another ply has still to do: one with an earlier block, or one that owns rows it reads (R136, R192). -/
def State.siblingHolds (s : State) (j : Nat) (r : Running) (i : Instr) : Bool :=
  let t := s.th
  let u := s.usesAt r.mode i
  ((t.ahead fun q => decide (q < r.origin)).any fun a => u.conflicts false a || a.crosses t u (wideReads i) (wideWrites i))
    || t.segWaits j r i

/-- Whether a ply of the thread in focus holds a word. -/
def State.plyHolds (s : State) (j : Nat) (r : Running) (i : Instr) : Bool :=
  let u := s.usesAt r.mode i
  s.siblingHolds j r i || s.waitSet u r.mode r.ctl != 0 || (u.commit && s.th.commitWaits)

/-! ### A stopped thread: R144 -/

/-- The word at which a ply stands. -/
def Running.word (r : Running) : Option IWord := r.blk.words[(r.pc - r.blk.addr).toNat / 4]?

/-- Whether a ply of the thread in focus can do nothing more before a trap: it has no running block, waits, stands stopped, or holds its
word for a sibling that itself stands (R144). -/
def State.plyStands (s : State) (j : Nat) (p : Ply) : Bool :=
  p.stopped.isSome ||
    (match p.run with
     | none => true
     | some r => r.wait != .running || (match r.word.bind blockDecode with
        | none => false
        | some i => s.siblingHolds j r i))

/-- Whether every condition of R335 before the trap registers are written is met by a thread: no ply of it can go on, taints have
retired, the strip is not in error and its checks have ended. -/
def State.quiet (s : State) (t : Thread) : Bool :=
  let s := s.focus t.tid
  (s.th.owned.all fun (j, p) => s.plyStands j p) && s.th.out.isEmpty && s.th.strip.error.isNone && s.th.strip.checked

end Sys2Proof.Machine
end

