-- ==== Sys2Proof/Machine/Events.lean ====
section
/-! DEFINITION. The steps of the other agents and of the outside world that the opcode table lists without a word: launch
engines, postmaster, host, sensors, drains, slices, plies, and the delivery of a trap. -/
namespace Sys2Proof.Machine
open Sys2Proof

/-! ### The package: 17 R357 to R366, 07 R167, 18 R368 -/

/-- COOL_DOWN (R361). -/
def execCoolDown (s : State) : Out := agent s.coolDown
/-- GO (R361). -/
def execGo (s : State) : Out := agent s.go
/-- WARM_UP (R361). -/
def execWarmUp (s : State) : Out := agent s.warmUp
/-- PURGE_COMPLETE (R359). -/
def execPurgeComplete (s : State) : Out := agent s.purgeComplete
/-- SOAK_COMPLETE (R359). -/
def execSoakComplete (s : State) : Out := agent s.soakComplete
/-- CRITICAL_MARK (R363). -/
def execCriticalMark (cause : BitVec 2) (s : State) : Out := agent (s.criticalMark cause)
/-- CRITICAL_SAVE_DEADLINE (R363). -/
def execCriticalSaveDeadline (s : State) : Out := agent s.criticalDeadline
/-- CRITICAL_RAILS_OFF (R363). -/
def execCriticalRailsOff (s : State) : Out := agent s.criticalRailsOff
/-- SENSOR_SAMPLE (R357). -/
def execSensorSample (die : BitVec 3) (temp stack0 stack1 : BitVec 10) (flow : BitVec 16) (ratex : Bool) (s : State) : Out :=
  agent (s.sample die temp stack0 stack1 flow ratex)
/-- REFRESH_OFF (R362). -/
def execRefreshOff (s : State) : Out := agent s.refreshOff
/-- REFRESH_BURST_COMPLETE (R362). -/
def execRefreshBurstComplete (stack : BitVec 4) (s : State) : Out :=
  agent { s with thermal := { s.thermal with bursts := s.thermal.bursts &&& ~~~ (1#16 <<< stack.toNat) } }
/-- POWER_MEASUREMENT (R364). -/
def execPowerMeasurement (p : PowerReading) (s : State) : Out := agent (s.powerMeasured p)
/-- POWER_STEP_UNDO (R364). -/
def execPowerStepUndo (s : State) : Out := agent s.powerUndo
/-- LEASE_EXPIRY (R365): a lease whose duration has passed. -/
def execLeaseExpiry (t : Tid) (s : State) : Out :=
  agent (match s.threadAt t with
    | none => s
    | some x => if s.leaseOver x then s.endLease t else s)
/-- BAND_READY (R365). -/
def execBandReady (core : BitVec 12) (band : BitVec 2) (s : State) : Out := agent (s.bandReady core band)
/-- REGULATOR_HEADROOM_LOW (R366). -/
def execRegulatorHeadroomLow (die : BitVec 3) (s : State) : Out := agent (s.headroomLow die)
/-- CHAINP_RESTORE (R366). -/
def execChainpRestore (die : BitVec 3) (s : State) : Out := agent (s.chainRestore die)
/-- FREQUENCY_TRANSITION_SETTLE (R354). -/
def execFrequencyTransitionSettle (cluster : BitVec 10) (s : State) : Out :=
  agent { s with thermal := { s.thermal with settling := s.thermal.settling.filter fun c => c ≠ cluster } }
/-- PACKAGE_RESET (R167). -/
def execPackageReset (s : State) : Out := agent (s.resetPackage true)
/-- FUNCTION_LEVEL_RESET (R368). -/
def execFunctionLevelReset (s : State) : Out := agent s.functionReset

/-! ### The mailbox and firmware: 18 R372 to R379 -/

/-- ATTEST (R375). -/
def execAttest (s : State) : Out := agent (s.mailboxCmd 1 0)
/-- READ_CERTIFICATE_CHAIN (R375). -/
def execReadCertificateChain (arg : BitVec 32) (s : State) : Out := agent (s.mailboxCmd 2 arg)
/-- STAGE_IMAGE_PART (R373). -/
def execStageImagePart (arg : BitVec 32) (s : State) : Out := agent (s.mailboxCmd 3 arg)
/-- ACTIVATE_STAGED_IMAGE (R374). -/
def execActivateStagedImage (s : State) : Out := agent (s.mailboxCmd 4 0)
/-- LOAD_MICROCODE_TABLE (R376). -/
def execLoadMicrocodeTable (arg : BitVec 32) (s : State) : Out := agent (s.mailboxCmd 5 arg)
/-- RETRAIN_PEER_PORT (R377). -/
def execRetrainPeerPort (arg : BitVec 32) (s : State) : Out := agent (s.mailboxCmd 6 arg)
/-- RECALIBRATE_HBM_CHANNEL (R378). -/
def execRecalibrateHbmChannel (arg : BitVec 32) (s : State) : Out := agent (s.mailboxCmd 7 arg)
/-- SUBSTITUTE_SPARE_CORE (R379, R154). -/
def execSubstituteSpareCore (arg : BitVec 32) (s : State) : Out := agent (s.mailboxCmd 8 arg)
/-- MAILBOX_UNKNOWN_OP (R372): an OP that Table 18.4 does not list. -/
def execMailboxUnknownOp (op : BitVec 8) (s : State) : Out :=
  agent (if op = 0 ∨ 8 < op.toNat then s.mailboxCmd op 0 else s)
/-- MAILBOX_COMMAND_DONE (R372). -/
def execMailboxCommandDone (s : State) : Out := agent s.mailboxDone
/-- IMAGE_START_TIMEOUT (R374). -/
def execImageStartTimeout (s : State) : Out := agent s.imageTimeout
/-- MICROCODE_LOAD_TIME_LIMIT (R376). -/
def execMicrocodeLoadTimeLimit (s : State) : Out := agent s.loadLimit
/-- MICROCODE_PLY_LOADED (R376). -/
def execMicrocodePlyLoaded (core : BitVec 12) (ply : BitVec 4) (s : State) : Out := agent (s.plyLoaded core ply)
/-- POWER_ON (R374). -/
def execPowerOn (s : State) : Out := agent s.powerOn
/-- BOOT_SLOT_TIMEOUT (R374). -/
def execBootSlotTimeout (s : State) : Out := agent s.bootTimeout

/-! ### The host: 18 R369 to R371, 01 R17 -/

/-- A host access ends as Unsupported Request, or not (R369). -/
def State.hostStatus (s : State) (bad : Bool) : State := { s with host := { s.host with unsupported := bad } }

/-- What a BAR0 offset reaches: a word of the MSI-X range, or the register at a physical address (Table 18.1). -/
def HostPort.bar0 (h : HostPort) (o : Nat) : Nat ⊕ Nat :=
  if o < 0x1000000 then .inr (packageBlock + o)
  else if o < 0x1F00000 then .inr (postBlock + (o - 0x1000000))
  else if o < 0x2000000 then .inl ((o - 0x1F00000) / 4)
  else .inr (dieBlock + (h.diesel.toNat % 8) * 0x10000000 + (h.diesel.toNat / 16) * 0x2000000 + (o - 0x2000000))

/-- A host write of 4 or 8 bytes through BAR0; pending vectors that it unmasks are sent (R371). -/
def State.bar0Write (s : State) (o : Nat) (wide : Bool) (v : Dword) : State :=
  match s.host.bar0 o with
  | .inr pa => s.mmioWrite pa wide v
  | .inl j =>
    let h := s.host.msixPut j (v.extractLsb' 0 32)
    State.sendPending { s with host := if wide then h.msixPut (j + 1) (v.extractLsb' 32 32) else h }

/-- A host read of 4 or 8 bytes through BAR0. -/
def State.bar0Read (s : State) (o : Nat) (wide : Bool) : List Byte :=
  match s.host.bar0 o with
  | .inr pa => s.mmioBytes pa (if wide then 8 else 4)
  | .inl j => leBytes 4 (s.host.msixWord j).toNat ++ if wide then leBytes 4 (s.host.msixWord (j + 1)).toNat else []

/-- REGISTER_WRITE (R6, R369): a host access to a register at a BAR0 offset, 4 or 8 bytes, naturally aligned: a write, or a read, which
returns its bytes. Any other completes as Unsupported Request and changes nothing. -/
def execRegisterWrite (o : BitVec 26) (wide : Bool) (a : BarAccess) (s : State) : Out :=
  agent (if o.toNat % (if wide then 8 else 4) ≠ 0 then s.hostStatus true
    else match a with
      | .write v => (s.bar0Write o.toNat wide v).hostStatus false
      | .read =>
        let s := s.hostStatus false
        { s with host := { s.host with readData := s.bar0Read o.toNat wide } })

/-- The HBM address of a BAR2 offset. -/
def HostPort.bar2 (h : HostPort) (o : Nat) : Nat := h.bar2base.toNat * 2 ^ 30 + o
/-- Whether n bytes at a BAR2 offset lie in the BAR and in HBM. -/
def HostPort.bar2Ok (h : HostPort) (o n : Nat) : Bool :=
  decide (o + n ≤ 2 ^ (30 + h.bar2log.toNat)) && decide (h.bar2 o + n ≤ 2 ^ 40)

/-- HOST_BAR2_WRITE (R370): at the home slices, at the physical address named. -/
def execHostBar2Write (o : BitVec 48) (bytes : List (BitVec 8)) (s : State) : Out :=
  agent (if s.host.bar2Ok o.toNat bytes.length then
      ((cuts 128 (s.host.bar2 o.toNat) bytes.length).foldl (fun s (a, n) =>
        s.homeWrite a 0 ((bytes.drop (a - s.host.bar2 o.toNat)).take n)) s).hostStatus false
    else s.hostStatus true)

/-- HOST_BAR2_READ (R370): at the home slices, after the locked updates of the lines that it reaches (R72). -/
def execHostBar2Read (o : BitVec 48) (n : BitVec 13) (s : State) : Out :=
  agent (if s.host.bar2Ok o.toNat n.toNat then
      let a := s.host.bar2 o.toNat
      let s := ((cuts 128 a n.toNat).foldl (fun s (a, n) => (s.settleLocked a n).l2Touch a) s).hostStatus false
      { s with host := { s.host with readData := s.homeBytes a n.toNat } }
    else s.hostStatus true)

/-- HOST_COMPLETION (R17): what the host answers at an address from now on: bytes, or an error. -/
def execHostCompletion (pa : BitVec 48) (bytes : List (BitVec 8)) (err : Bool) (s : State) : Out :=
  agent (if isHost pa.toNat && isHost (pa.toNat + bytes.length) then
      { s with
        mem := if err then s.mem else memWrite s.mem pa.toNat bytes,
        host := { s.host with errors :=
          (List.range ((pa.toNat + Nat.max 1 bytes.length - 1) / 8 + 1 - pa.toNat / 8)).foldl (fun m i =>
            put false m (pa.toNat / 8 + i) err) s.host.errors } }
    else s)

/-- MSIRQ_WRITE (R371). -/
def execMsirqWrite (v : BitVec 64) (s : State) : Out := agent (s.msirq v)

/-- A change of the MSI-X capability or table. -/
def HostPort.msix (h : HostPort) (c : MsixCtl) : HostPort :=
  match c with
  | .enable on => { h with msixEnable := on }
  | .functionMask on => { h with functionMask := on }
  | .vectorMask v on => h.maskVector v on

/-- MSIX_UNMASK (R371): pending vectors that nothing masks any more are sent. -/
def execMsixUnmask (c : MsixCtl) (s : State) : Out := agent (State.sendPending { s with host := s.host.msix c })

/-- RESIZABLE_BAR_WRITE (R370): sizes of 1 GiB to 1 TiB. -/
def execResizableBarWrite (log2GiB : BitVec 4) (s : State) : Out :=
  agent (if log2GiB.toNat ≤ 10 then
      { s with host := { s.host with
        bar2log := log2GiB, bar2base := s.host.bar2base >>> log2GiB.toNat <<< log2GiB.toNat } }
    else s)

/-! ### Registers with a behaviour of their own -/

/-- ROWSEL_WRITE (R356). -/
def execRowselWrite (t : Tid) (v : BitVec 64) (s : State) : Out := agent (s.rowSelect t v)
/-- QTAIL_DOORBELL (R322). -/
def execQtailDoorbell (q : BitVec 6) (v : BitVec 32) (s : State) : Out := agent (s.doorbell q v)
/-- QSTAT_HALTED_CLEAR (R324). -/
def execQstatHaltedClear (q : BitVec 6) (s : State) : Out := agent (s.haltedClear q)
/-- QUEUE_DISABLE (R322). -/
def execQueueDisable (q : BitVec 6) (s : State) : Out :=
  agent (s.queueControl q ((s.queueAt q).ctl &&& 0x7FFFFFFFFFFFFFFF))
/-- PREEMPT_REQUEST (R330): PRECTL written with GO. -/
def execPreemptRequest (v : BitVec 64) (s : State) : Out := agent (s.preemptWrite (v ||| 0x8000000000000000))
/-- RESTORE_REQUEST (R351): RESCTL written with GO. -/
def execRestoreRequest (v : BitVec 64) (s : State) : Out := agent (s.restoreWrite (v ||| 0x8000000000000000))

/-! ### The launch engines: 15 R325, R326 -/

/-- LAUNCH_HEAD_SERVICE (R325). -/
def execLaunchHeadService (die : BitVec 3) (s : State) : Out := agent (s.launchHead die none)
/-- LAUNCH_RETRY (R326): what is freed is tried in the order of R325, so that a head is placed where it comes next. -/
def execLaunchRetry (q : BitVec 6) (s : State) : Out := agent (s.launchHead (s.queueAt q).die (some q))
/-- HELD_START (R326). -/
def execHeldStart (q : BitVec 6) (s : State) : Out := agent (s.heldStart q)
/-- THREAD_START (R325, R132). -/
def execThreadStart (t : Tid) (s : State) : Out := agent (s.startThread t)
/-- THREAD_AGED (R327). -/
def execThreadAged (t : Tid) (s : State) : Out := agent (s.updThread t fun x => { x with aged := true })

/-! ### Strips in error: 16 R347 -/

/-- BACKGROUND_SCRUB (R329, R24): a scrub read checks every group of a row. A mismatch in a row that an open strip has read is that
strip's error; in data that no strip has consumed it is no strip's (R347). -/
def execBackgroundScrub (core : BitVec 12) (row : BitVec 12) (s : State) : Out :=
  agent (if look 0 s.badCols (rowKey core row.toNat) = 0 then s
    else s.mapThreads fun x =>
      if x.live && x.tid.core = core && x.strip.pins.any (fun e => physRow x.base x.n e = row.toNat) then
        x.strike 2 (row.setWidth 64)
      else x)

/-! ### Plies: 06 R135, 16 R353 -/

/-- The next block of a ply's queue begun: it runs under the copies the block captured (R135). -/
def Ply.startBlock (p : Ply) : Ply :=
  match p.run, p.queue with
  | none, b :: bs =>
    if p.stopped.isSome then p
    else { p with
      queue := bs, drowsy := false,
      run := some { origin := b.seq, blk := b, pc := b.addr, mode := b.mode, vl := b.vl, ctl := b.ctl, wait := .running } }
  | _, _ => p

/-- PLY_BLOCK_START (R135). -/
def execPlyBlockStart (t : Tid) (j : BitVec 4) (s : State) : Out :=
  agent (s.updThread t fun x => x.setPly j.toNat (x.plyAt j.toNat).startBlock)

/-- A ply of a core changed, where a thread owns it. -/
def State.corePly (s : State) (core : BitVec 12) (ply : BitVec 4) (f : Ply → Ply) : State :=
  s.mapThreads fun x =>
    let j := ply.toNat - x.base.toNat
    if x.live && x.tid.core = core && decide (x.base.toNat ≤ ply.toNat) && decide (ply.toNat < x.base.toNat + x.n) then
      x.setPly j (f (x.plyAt j))
    else x

/-- PLY_DROWSY (R353). -/
def execPlyDrowsy (core : BitVec 12) (ply : BitVec 4) (s : State) : Out :=
  agent (s.corePly core ply fun p => { p with drowsy := true })
/-- PLY_WAKE (R353). -/
def execPlyWake (core : BitVec 12) (ply : BitVec 4) (s : State) : Out :=
  agent (s.corePly core ply fun p => { p with drowsy := false })

/-! ### Loads, slices, replicas: 04 R92, R95, 03 R62, R71, 05 R107 -/

/-- LOAD_DATA_ARRIVAL (R95): the identifier of an ordinary load retires. -/
def execLoadDataArrival (t : Tid) (id : BitVec 4) (s : State) : Out :=
  agent (s.updThread t fun x => if x.out.any fun o => o.id = id && o.acquire.isNone then x.retire id else x)

/-- An acquire's walk made for the thread in focus, and its identifier retired. -/
def State.retireAcquire (s : State) (id : BitVec 4) : State :=
  match s.th.out.find? fun o => o.id = id with
  | none => s
  | some o => match o.acquire with
    | none => s
    | some b => (s.acquireWalk b).upd fun x => x.retire id

/-- ACQUIRE_RETIRE (R92). -/
def execAcquireRetire (t : Tid) (id : BitVec 4) (s : State) : Out :=
  agent (if (s.threadAt t).isNone then s else (s.focus t).retireAcquire id)

/-- SLICE_OPERATION (R62, R81). -/
def execSliceOperation (k : Nat) (s : State) : Out := agent (s.sliceOperation k)
/-- CAS_TURN_EXPIRY (R107). -/
def execCasTurnExpiry (line : BitVec 41) (s : State) : Out := agent (s.turnExpiry line.toNat)
/-- HBM_FILL (R62): the line stands in its slice, with the error that its code finds (log 68). -/
def execHbmFill (r : LineRead) (s : State) : Out :=
  agent (if isHbm (128 * r.line.toNat) then
      let s := s.l2Touch (128 * r.line.toNat)
      { s with eccBad := put false s.eccBad r.line.toNat r.err }
    else s)
/-- REPLICA_LOCK (R71). -/
def execReplicaLock (k : Nat) (s : State) : Out := agent (s.repLock k)
/-- REPLICA_UPDATE (R71). -/
def execReplicaUpdate (k : Nat) (s : State) : Out := agent (s.repUpdate k)

/-! ### Strips: 16 R345, R347, R348 -/

/-- Whether the next committed store of a thread may be performed: no other thread holds the turn on its line (R107). -/
def State.drainReady (s : State) (t : Tid) : Bool :=
  match s.drainNext t with
  | none => false
  | some (_, b) => !s.turnHeld t b.place

/-- COMMITTED_STORE_PERFORM (R345). -/
def execCommittedStorePerform (t : Tid) (s : State) : Out := agent (if s.drainReady t then s.drainOne t else s)

/-- STRIP_ERROR_DETECTED (R347): sources 1 to 4. A parity mismatch stays in its group of columns, which the event does not name,
until the group is written (R24, log 63). -/
def execStripErrorDetected (t : Tid) (src : BitVec 3) (addr : BitVec 64) (s : State) : Out :=
  agent (if src = 0 ∨ 4 < src.toNat || (s.threadAt t).isNone then s
    else
      let s := s.updThread t fun x => x.strike src addr
      if src = 2 then
        let key := rowKey t.core (addr.toNat % 4096)
        { s with badCols := put 0 s.badCols key (look 0 s.badCols key ||| 1 <<< (Config.choose s.tick 0 % 16)) }
      else s)

/-- MATRIX_CHECK_RESULT (R294, R295): the recomputed checksum tells whether the plane is damaged (log 7). -/
def execMatrixCheckResult (t : Tid) (fail : Bool) (s : State) : Out :=
  agent (s.updThread t fun x => x.matrixCheck fail (Config.coin s.tick 0))

/-- CHECKED_MODE_CHECK_RESULT (R348): the event does not name the row that differs; it is one of the thread's (log 65). -/
def execCheckedModeCheckResult (t : Tid) (fail : Bool) (s : State) : Out :=
  agent (s.updThread t fun x =>
    if x.strip.checks = 0 then x
    else
      let x := { x with strip := { x.strip with checks := x.strip.checks - 1 } }
      if fail then x.strike 4 (BitVec.ofNat 64 (256 * x.base.toNat + Config.choose s.tick 0 % (256 * x.n))) else x)

/-! ### The delivery of a trap: R335, R336, R144 -/

/-- The event in the pending slot, with its stamp. -/
def TrapRegs.pending (r : TrapRegs) : Option (TrapInfo × Dword) :=
  if r.pcause.extractLsb' 0 8 = 0 then none
  else some (⟨r.pcause.extractLsb' 0 8, r.pcause.extractLsb' 16 8, r.pcause.extractLsb' 12 4, r.pval,
    r.pinfo.extractLsb' 0 32, r.pinfo.extractLsb' 32 32⟩, r.pstamp)

/-- The trap that the thread is to take next: the control thread's own, then the lowest stopped ply's, then the pending
event while INH = 0 (R336, R337). -/
def Thread.nextTrap (t : Thread) : Option (TrapInfo × Option Nat × Dword × Bool) :=
  match t.pend with
  | some (i, c) => some (i, none, c, false)
  | none => match t.plyFault with
    | some (i, c, j) => some (i, some j, c, false)
    | none =>
      if t.trap.inh then none
      else t.trap.pending.map fun (i, c) => (i, none, c, true)

/-- Whether a thread is asked to stop for a save or a move (R330). -/
def Thread.leaving (t : Thread) : Bool := t.saveReq || t.migrate.isSome

/-- Whether a thread takes its traps now: one that is to be saved or moved takes them with it (R336). -/
def Thread.takesTrap (t : Thread) : Bool := t.nextTrap.isSome && !t.leaving

/-- The next trap of the thread in focus delivered. -/
def State.deliverNext (s : State) : State :=
  match s.th.nextTrap with
  | none => s
  | some (i, ply, c, ev) =>
    let s := if ev then s.upd fun t => { t with trap := { t.trap with pcause := 0, pval := 0, pinfo := 0, pstamp := 0 } } else s
    s.deliver i ply c

/-- TRAP_DELIVERY (R335): when the thread has stopped. -/
def execTrapDelivery (t : Tid) (s : State) : Out :=
  agent (match s.threadAt t with
    | none => s
    | some x => if s.quiet x && !s.midWord x && x.takesTrap then (s.focus t).deliverNext else s)

/-! ### Words that are no instruction, fetches that fault: 09 R197, 10 R221 -/

/-- WORD_NOT_AN_INSTRUCTION (R197): ILLOP with the PC on the word. -/
def execWordNotAnInstruction (w : BitVec 32) (s : State) : Out := ctl w s fun s => s.raise (illop w)

/-- INSTRUCTION_FETCH_FAULT (R221): the fault of the fetch at an address. -/
def execInstructionFetchFault (va : BitVec 64) (s : State) : Out :=
  ctl 0 s fun s => match s.fetchWord s.th.priv va with
    | .error f => s.fetchFault (.fetch f)
    | .ok _ => s

end Sys2Proof.Machine
end

