-- ==== Sys2Proof/Machine/FloatScalar.lean ====
section
/-! DEFINITION. Scalar floating point: 10 R222 and R223. -/
namespace Sys2Proof.Machine
open Sys2Proof

/-- The format of a scalar float operation: binary64, or binary32 under `.W`. -/
def fopFmt (w : Bool) : Fmt := if w then .b32 else .b64

/-- A float result written to f[d]; SIGLOSS is taken after the write when its count fails (R187, R222). -/
def State.putF (d : BitVec 5) (r : FReg) (tn : Taint) (fl : Flags) (check : Bool) (s : State) : State :=
  let s := s.upd fun t => ((t.setF d r tn).raiseFlags fl).advance
  match sigloss (if check && trustFails s.th.mode r.trust.toNat then [0] else []) with
  | none => s
  | some i => s.raise i

/-- An operation of two f-registers into f[d]. -/
def State.fop2 (d a b : BitVec 5) (w : Bool) (f : Fmt → BitVec 3 → FOpd → FOpd → FOut) (s : State) : State :=
  let rm := modeRnd s.th.mode
  let (x, fx) := (s.th.fr a).opd (!w) rm
  let (y, fy) := (s.th.fr b).opd (!w) rm
  let r := f (fopFmt w) rm x y
  s.putF d (.ofOut r (!w)) (s.th.fTaint a ||| s.th.fTaint b) (fx ||| fy ||| r.flags) true

/-- An operation of one f-register into f[d]. -/
def State.fop1 (d a : BitVec 5) (w : Bool) (f : Fmt → BitVec 3 → FOpd → FOut) (s : State) : State :=
  let rm := modeRnd s.th.mode
  let (x, fx) := (s.th.fr a).opd (!w) rm
  let r := f (fopFmt w) rm x
  s.putF d (.ofOut r (!w)) (s.th.fTaint a) (fx ||| r.flags) true

/-- The sign bit an f-register holds, whatever it holds. -/
def FReg.signBit (r : FReg) : Bool := if r.ft then r.bits.getLsbD 31 else r.bits.getLsbD 63

/-- A sign operation on f[a]: a NaN sets no flag (R222). -/
def State.fsign (d a : BitVec 5) (w neg : Bool) (tn : Taint) (s : State) : State :=
  let (x, fx) := (s.th.fr a).opd (!w) (modeRnd s.th.mode)
  let r := opSign (fopFmt w) neg x
  s.putF d (.ofOut r (!w)) tn (if x.val.isNan then 0 else fx ||| r.flags) true

/-- A compare into s[d] (Table 10.6). -/
def State.fcmp (d : BitVec 6) (a b : BitVec 5) (w : Bool) (c : FCond) (s : State) : State :=
  s.upd fun t =>
    let (x, fx) := (t.fr a).opd (!w) (modeRnd t.mode)
    let (y, fy) := (t.fr b).opd (!w) (modeRnd t.mode)
    let (r, fl) := opCompare c x.val y.val
    ((t.setS d (if r then 1 else 0) (t.fTaint a ||| t.fTaint b)).raiseFlags (fx ||| fy ||| fl)).advance

/-- The fused forms (R223). -/
def State.ffma (d a b c : BitVec 5) (w negP negC : Bool) (s : State) : State :=
  let rm := modeRnd s.th.mode
  let (x, fx) := (s.th.fr a).opd (!w) rm
  let (y, fy) := (s.th.fr b).opd (!w) rm
  let (z, fz) := (s.th.fr c).opd (!w) rm
  let r := opFma (fopFmt w) rm negP negC x y z
  s.putF d (.ofOut r (!w)) (s.th.fTaint a ||| s.th.fTaint b ||| s.th.fTaint c) (fx ||| fy ||| fz ||| r.flags) true

/-- FADD (R222). -/
def execFadd (d a b : BitVec 5) (w : Bool) (s : State) : Out :=
  ctl (wordOf (.fadd d a b w)) s (State.fop2 d a b w opAdd)

/-- FSUB (R222). -/
def execFsub (d a b : BitVec 5) (w : Bool) (s : State) : Out :=
  ctl (wordOf (.fsub d a b w)) s (State.fop2 d a b w opSub)

/-- FMUL (R222). -/
def execFmul (d a b : BitVec 5) (w : Bool) (s : State) : Out :=
  ctl (wordOf (.fmul d a b w)) s (State.fop2 d a b w opMul)

/-- FDIV (R222). -/
def execFdiv (d a b : BitVec 5) (w : Bool) (s : State) : Out :=
  ctl (wordOf (.fdiv d a b w)) s (State.fop2 d a b w opDiv)

/-- FMIN (R222). -/
def execFmin (d a b : BitVec 5) (w : Bool) (s : State) : Out :=
  ctl (wordOf (.fmin d a b w)) s (State.fop2 d a b w (fun f _ x y => opMinMax f true x y))

/-- FMAX (R222). -/
def execFmax (d a b : BitVec 5) (w : Bool) (s : State) : Out :=
  ctl (wordOf (.fmax d a b w)) s (State.fop2 d a b w (fun f _ x y => opMinMax f false x y))

/-- FSQRT (R222). -/
def execFsqrt (d a : BitVec 5) (w : Bool) (s : State) : Out :=
  ctl (wordOf (.fsqrt d a w)) s (State.fop1 d a w opSqrt)

/-- FABS (R222): a with its sign cleared. -/
def execFabs (d a : BitVec 5) (w : Bool) (s : State) : Out :=
  ctl (wordOf (.fabs d a w)) s fun s => s.fsign d a w false (s.th.fTaint a)

/-- FNEG (R222): a with its sign inverted. -/
def execFneg (d a : BitVec 5) (w : Bool) (s : State) : Out :=
  ctl (wordOf (.fneg d a w)) s fun s => s.fsign d a w (!(s.th.fr a).signBit) (s.th.fTaint a)

/-- FSIGNOF (R222): the magnitude of a with the sign bit of b, whatever b holds. -/
def execFsignof (d a b : BitVec 5) (w : Bool) (s : State) : Out :=
  ctl (wordOf (.fsignof d a b w)) s fun s => s.fsign d a w (s.th.fr b).signBit (s.th.fTaint a ||| s.th.fTaint b)

/-- FEQ (R222). -/
def execFeq (d : BitVec 6) (a b : BitVec 5) (w : Bool) (s : State) : Out :=
  ctl (wordOf (.feq d a b w)) s (State.fcmp d a b w .eq)

/-- FLT (R222). -/
def execFlt (d : BitVec 6) (a b : BitVec 5) (w : Bool) (s : State) : Out :=
  ctl (wordOf (.flt d a b w)) s (State.fcmp d a b w .lt)

/-- FLE (R222). -/
def execFle (d : BitVec 6) (a b : BitVec 5) (w : Bool) (s : State) : Out :=
  ctl (wordOf (.fle d a b w)) s (State.fcmp d a b w .le)

/-- FCVTI (R222): a to a saturated signed 64-bit integer (R178). -/
def execFcvti (d : BitVec 6) (a : BitVec 5) (w : Bool) (s : State) : Out :=
  ctl (wordOf (.fcvti d a w)) s fun s => s.upd fun t =>
    let (x, fx) := (t.fr a).opd (!w) (modeRnd t.mode)
    let (r, fl) := opToInt 64 true (modeRnd t.mode) x.val
    ((t.setS d (BitVec.ofNat 64 r) (t.fTaint a)).raiseFlags (fx ||| fl)).advance

/-- FCVTF (R222): signed s[a] to the format, T = P. -/
def execFcvtf (d : BitVec 5) (a : BitVec 6) (w : Bool) (s : State) : Out :=
  ctl (wordOf (.fcvtf d a w)) s fun s =>
    let r := opOfInt (fopFmt w) (modeRnd s.th.mode) (s.th.sr a).toInt
    s.putF d (.ofOut r (!w)) (s.th.sTaint a) r.flags true

/-- FMVSF (R222): the bits of f[a]; the low 32, zero-extended, under `.W`. -/
def execFmvsf (d : BitVec 6) (a : BitVec 5) (w : Bool) (s : State) : Out :=
  ctl (wordOf (.fmvsf d a w)) s fun s => s.upd fun t =>
    let b := (t.fr a).bits
    (t.setS d (if w then (b.extractLsb' 0 32).setWidth 64 else b) (t.fTaint a)).advance

/-- FMVFS (R222): the bits of s[a], in binary32 form under `.W`; T = P, or 0 for a NaN or an infinity. -/
def execFmvfs (d : BitVec 5) (a : BitVec 6) (w : Bool) (s : State) : Out :=
  ctl (wordOf (.fmvfs d a w)) s fun s =>
    let x := s.th.sr a
    let b : Dword := if w then (x.extractLsb' 0 32).setWidth 64 else x
    let v := (fopFmt w).read b.toNat
    let t : BitVec 6 := if v.isNan || v.isInf then 0 else BitVec.ofNat 6 (fopFmt w).prec
    s.putF d ⟨b, t, w⟩ (s.th.sTaint a) 0 true

/-- FTRUST (R222): the trust count of f[a]. -/
def execFtrust (d : BitVec 6) (a : BitVec 5) (w : Bool) (s : State) : Out :=
  ctl (wordOf (.ftrust d a w)) s fun s => s.upd fun t =>
    let (x, fx) := (t.fr a).opd (!w) (modeRnd t.mode)
    ((t.setS d (BitVec.ofNat 64 x.t) (t.fTaint a)).raiseFlags fx).advance

/-- FTRSET (R222): the value of f[a] with T = min(s[b], P); no SIGLOSS (R186). -/
def execFtrset (d a : BitVec 5) (b : BitVec 6) (w : Bool) (s : State) : Out :=
  ctl (wordOf (.ftrset d a b w)) s fun s =>
    let (x, fx) := (s.th.fr a).opd (!w) (modeRnd s.th.mode)
    let t := Nat.min (s.th.sr b).toNat (fopFmt w).prec
    s.putF d ⟨BitVec.ofNat 64 x.bits, BitVec.ofNat 6 t, w⟩ (s.th.fTaint a ||| s.th.sTaint b) fx false

/-- FWIDEN (R222): binary32 f[a] exactly to binary64, T unchanged. -/
def execFwiden (d a : BitVec 5) (s : State) : Out :=
  ctl (wordOf (.fwiden d a)) s fun s =>
    let (x, fx) := (s.th.fr a).opd false (modeRnd s.th.mode)
    let r := opConv .b64 (modeRnd s.th.mode) x
    s.putF d (.ofOut r true) (s.th.fTaint a) (fx ||| r.flags) true

/-- FNARROW (R222): binary64 f[a] rounded to binary32, T = min(T, 24). -/
def execFnarrow (d a : BitVec 5) (s : State) : Out :=
  ctl (wordOf (.fnarrow d a)) s fun s =>
    let (x, fx) := (s.th.fr a).opd true (modeRnd s.th.mode)
    let r := opConv .b32 (modeRnd s.th.mode) x
    s.putF d (.ofOut r false) (s.th.fTaint a) (fx ||| r.flags) true

/-- FMA (R223). -/
def execFma (d a b c : BitVec 5) (w : Bool) (s : State) : Out :=
  ctl (wordOf (.fma d a b c w)) s (State.ffma d a b c w false false)

/-- FMS (R223). -/
def execFms (d a b c : BitVec 5) (w : Bool) (s : State) : Out :=
  ctl (wordOf (.fms d a b c w)) s (State.ffma d a b c w false true)

/-- FNMA (R223). -/
def execFnma (d a b c : BitVec 5) (w : Bool) (s : State) : Out :=
  ctl (wordOf (.fnma d a b c w)) s (State.ffma d a b c w true false)

/-- FNMS (R223). -/
def execFnms (d a b c : BitVec 5) (w : Bool) (s : State) : Out :=
  ctl (wordOf (.fnms d a b c w)) s (State.ffma d a b c w true true)

end Sys2Proof.Machine
end

