-- ==== Sys2Proof/Machine/Dispatch.lean ====
section
/-! DEFINITION. Each instruction's meaning, one arm for each. -/
namespace Sys2Proof.Machine
open Sys2Proof

/-- The meaning of an instruction. -/
def exec (i : Instr) (s : State) : Host.Outcome State Fault Refusal :=
  match i with
  | .trap a => Sys2Proof.Machine.execTrap a s
  | .boost d a b => Sys2Proof.Machine.execBoost d a b s
  | .tlbinv a b => Sys2Proof.Machine.execTlbinv a b s
  | .mode m => Sys2Proof.Machine.execMode m s
  | .setvlImm d n => Sys2Proof.Machine.execSetvlImm d n s
  | .setvlReg d a => Sys2Proof.Machine.execSetvlReg d a s
  | .add d a b => Sys2Proof.Machine.execAdd d a b s
  | .sub d a b => Sys2Proof.Machine.execSub d a b s
  | .and d a b => Sys2Proof.Machine.execAnd d a b s
  | .or d a b => Sys2Proof.Machine.execOr d a b s
  | .xor d a b => Sys2Proof.Machine.execXor d a b s
  | .andn d a b => Sys2Proof.Machine.execAndn d a b s
  | .sll d a b => Sys2Proof.Machine.execSll d a b s
  | .srl d a b => Sys2Proof.Machine.execSrl d a b s
  | .sra d a b => Sys2Proof.Machine.execSra d a b s
  | .ror d a b => Sys2Proof.Machine.execRor d a b s
  | .mul d a b => Sys2Proof.Machine.execMul d a b s
  | .mulh d a b => Sys2Proof.Machine.execMulh d a b s
  | .mulhn d a b => Sys2Proof.Machine.execMulhn d a b s
  | .div d a b => Sys2Proof.Machine.execDiv d a b s
  | .divn d a b => Sys2Proof.Machine.execDivn d a b s
  | .rem d a b => Sys2Proof.Machine.execRem d a b s
  | .remn d a b => Sys2Proof.Machine.execRemn d a b s
  | .min d a b => Sys2Proof.Machine.execMin d a b s
  | .max d a b => Sys2Proof.Machine.execMax d a b s
  | .minn d a b => Sys2Proof.Machine.execMinn d a b s
  | .maxn d a b => Sys2Proof.Machine.execMaxn d a b s
  | .slt d a b => Sys2Proof.Machine.execSlt d a b s
  | .sltn d a b => Sys2Proof.Machine.execSltn d a b s
  | .seq d a b => Sys2Proof.Machine.execSeq d a b s
  | .clz d a => Sys2Proof.Machine.execClz d a s
  | .ctz d a => Sys2Proof.Machine.execCtz d a s
  | .popc d a => Sys2Proof.Machine.execPopc d a s
  | .sext d a b => Sys2Proof.Machine.execSext d a b s
  | .zext d a b => Sys2Proof.Machine.execZext d a b s
  | .addi d a n => Sys2Proof.Machine.execAddi d a n s
  | .andi d a n => Sys2Proof.Machine.execAndi d a n s
  | .ori d a n => Sys2Proof.Machine.execOri d a n s
  | .xori d a n => Sys2Proof.Machine.execXori d a n s
  | .slli d a x => Sys2Proof.Machine.execSlli d a x s
  | .srli d a x => Sys2Proof.Machine.execSrli d a x s
  | .srai d a x => Sys2Proof.Machine.execSrai d a x s
  | .rori d a x => Sys2Proof.Machine.execRori d a x s
  | .slti d a n => Sys2Proof.Machine.execSlti d a n s
  | .li d n => Sys2Proof.Machine.execLi d n s
  | .lim d n => Sys2Proof.Machine.execLim d n s
  | .ldb d a n => Sys2Proof.Machine.execLdb d a n s
  | .ldh d a n => Sys2Proof.Machine.execLdh d a n s
  | .ldw d a n => Sys2Proof.Machine.execLdw d a n s
  | .ldd d a n => Sys2Proof.Machine.execLdd d a n s
  | .ldbn d a n => Sys2Proof.Machine.execLdbn d a n s
  | .ldhn d a n => Sys2Proof.Machine.execLdhn d a n s
  | .ldwn d a n => Sys2Proof.Machine.execLdwn d a n s
  | .stb d a n => Sys2Proof.Machine.execStb d a n s
  | .sth d a n => Sys2Proof.Machine.execSth d a n s
  | .stw d a n => Sys2Proof.Machine.execStw d a n s
  | .std d a n => Sys2Proof.Machine.execStd d a n s
  | .ldacq d a => Sys2Proof.Machine.execLdacq d a s
  | .strel a b => Sys2Proof.Machine.execStrel a b s
  | .amoadd d a b w => Sys2Proof.Machine.execAmoadd d a b w s
  | .amoswap d a b w => Sys2Proof.Machine.execAmoswap d a b w s
  | .amocas d a b w => Sys2Proof.Machine.execAmocas d a b w s
  | .amomin d a b w => Sys2Proof.Machine.execAmomin d a b w s
  | .amomax d a b w => Sys2Proof.Machine.execAmomax d a b w s
  | .amominn d a b w => Sys2Proof.Machine.execAmominn d a b w s
  | .amomaxn d a b w => Sys2Proof.Machine.execAmomaxn d a b w s
  | .amoand d a b w => Sys2Proof.Machine.execAmoand d a b w s
  | .amoor d a b w => Sys2Proof.Machine.execAmoor d a b w s
  | .amoxor d a b w => Sys2Proof.Machine.execAmoxor d a b w s
  | .tclr x => Sys2Proof.Machine.execTclr x s
  | .tdep x y => Sys2Proof.Machine.execTdep x y s
  | .bind d a b => Sys2Proof.Machine.execBind d a b s
  | .unbind a => Sys2Proof.Machine.execUnbind a s
  | .pgshare d a b => Sys2Proof.Machine.execPgshare d a b s
  | .pgdrop a b => Sys2Proof.Machine.execPgdrop a b s
  | .splook d a => Sys2Proof.Machine.execSplook d a s
  | .spset d a b => Sys2Proof.Machine.execSpset d a b s
  | .prefetch a => Sys2Proof.Machine.execPrefetch a s
  | .beq a b o => Sys2Proof.Machine.execBeq a b o s
  | .bne a b o => Sys2Proof.Machine.execBne a b o s
  | .blt a b o => Sys2Proof.Machine.execBlt a b o s
  | .bge a b o => Sys2Proof.Machine.execBge a b o s
  | .bltn a b o => Sys2Proof.Machine.execBltn a b o s
  | .bgen a b o => Sys2Proof.Machine.execBgen a b o s
  | .jal d o => Sys2Proof.Machine.execJal d o s
  | .jalr d a n => Sys2Proof.Machine.execJalr d a n s
  | .fadd d a b w => Sys2Proof.Machine.execFadd d a b w s
  | .fsub d a b w => Sys2Proof.Machine.execFsub d a b w s
  | .fmul d a b w => Sys2Proof.Machine.execFmul d a b w s
  | .fdiv d a b w => Sys2Proof.Machine.execFdiv d a b w s
  | .fsqrt d a w => Sys2Proof.Machine.execFsqrt d a w s
  | .fmin d a b w => Sys2Proof.Machine.execFmin d a b w s
  | .fmax d a b w => Sys2Proof.Machine.execFmax d a b w s
  | .fabs d a w => Sys2Proof.Machine.execFabs d a w s
  | .fneg d a w => Sys2Proof.Machine.execFneg d a w s
  | .fsignof d a b w => Sys2Proof.Machine.execFsignof d a b w s
  | .feq d a b w => Sys2Proof.Machine.execFeq d a b w s
  | .flt d a b w => Sys2Proof.Machine.execFlt d a b w s
  | .fle d a b w => Sys2Proof.Machine.execFle d a b w s
  | .fcvti d a w => Sys2Proof.Machine.execFcvti d a w s
  | .fcvtf d a w => Sys2Proof.Machine.execFcvtf d a w s
  | .fmvsf d a w => Sys2Proof.Machine.execFmvsf d a w s
  | .fmvfs d a w => Sys2Proof.Machine.execFmvfs d a w s
  | .ftrust d a w => Sys2Proof.Machine.execFtrust d a w s
  | .ftrset d a b w => Sys2Proof.Machine.execFtrset d a b w s
  | .fwiden d a => Sys2Proof.Machine.execFwiden d a s
  | .fnarrow d a => Sys2Proof.Machine.execFnarrow d a s
  | .fma d a b c w => Sys2Proof.Machine.execFma d a b c w s
  | .fms d a b c w => Sys2Proof.Machine.execFms d a b c w s
  | .fnma d a b c w => Sys2Proof.Machine.execFnma d a b c w s
  | .fnms d a b c w => Sys2Proof.Machine.execFnms d a b c w s
  | .fldd d a n => Sys2Proof.Machine.execFldd d a n s
  | .fldw d a n => Sys2Proof.Machine.execFldw d a n s
  | .fstd d a n => Sys2Proof.Machine.execFstd d a n s
  | .fstw d a n => Sys2Proof.Machine.execFstw d a n s
  | .vfetch a n => Sys2Proof.Machine.execVfetch a n s
  | .pbr k c o => Sys2Proof.Machine.execPbr k c o s
  | .pfetch o => Sys2Proof.Machine.execPfetch o s
  | .vadd d a b => Sys2Proof.Machine.execVadd d a b s
  | .vsub d a b => Sys2Proof.Machine.execVsub d a b s
  | .vrsub d a b => Sys2Proof.Machine.execVrsub d a b s
  | .vneg d a => Sys2Proof.Machine.execVneg d a s
  | .vabs d a => Sys2Proof.Machine.execVabs d a s
  | .vmul d a b => Sys2Proof.Machine.execVmul d a b s
  | .vmulh d a b => Sys2Proof.Machine.execVmulh d a b s
  | .vmac d a b => Sys2Proof.Machine.execVmac d a b s
  | .vmacp d a b => Sys2Proof.Machine.execVmacp d a b s
  | .vdiv d a b => Sys2Proof.Machine.execVdiv d a b s
  | .vrem d a b => Sys2Proof.Machine.execVrem d a b s
  | .vmin d a b => Sys2Proof.Machine.execVmin d a b s
  | .vmax d a b => Sys2Proof.Machine.execVmax d a b s
  | .vshl d a b => Sys2Proof.Machine.execVshl d a b s
  | .vshr d a b => Sys2Proof.Machine.execVshr d a b s
  | .vrshr d a b => Sys2Proof.Machine.execVrshr d a b s
  | .vsat d a => Sys2Proof.Machine.execVsat d a s
  | .vmov d a => Sys2Proof.Machine.execVmov d a s
  | .vcvt d a => Sys2Proof.Machine.execVcvt d a s
  | .vclz d a => Sys2Proof.Machine.execVclz d a s
  | .vpopc d a => Sys2Proof.Machine.execVpopc d a s
  | .vfadd d a b => Sys2Proof.Machine.execVfadd d a b s
  | .vfsub d a b => Sys2Proof.Machine.execVfsub d a b s
  | .vfmul d a b => Sys2Proof.Machine.execVfmul d a b s
  | .vfdiv d a b => Sys2Proof.Machine.execVfdiv d a b s
  | .vfsqrt d a => Sys2Proof.Machine.execVfsqrt d a s
  | .vfmin d a b => Sys2Proof.Machine.execVfmin d a b s
  | .vfmax d a b => Sys2Proof.Machine.execVfmax d a b s
  | .vfabs d a => Sys2Proof.Machine.execVfabs d a s
  | .vfneg d a => Sys2Proof.Machine.execVfneg d a s
  | .vfcvt d a t => Sys2Proof.Machine.execVfcvt d a t s
  | .vtrust d a => Sys2Proof.Machine.execVtrust d a s
  | .vtrset d a b => Sys2Proof.Machine.execVtrset d a b s
  | .vfexp2 d a => Sys2Proof.Machine.execVfexp2 d a s
  | .vflog2 d a => Sys2Proof.Machine.execVflog2 d a s
  | .vfrcp d a => Sys2Proof.Machine.execVfrcp d a s
  | .vfrsq d a => Sys2Proof.Machine.execVfrsq d a s
  | .vfma d a b c => Sys2Proof.Machine.execVfma d a b c s
  | .vfms d a b c => Sys2Proof.Machine.execVfms d a b c s
  | .vfnma d a b c => Sys2Proof.Machine.execVfnma d a b c s
  | .vfnms d a b c => Sys2Proof.Machine.execVfnms d a b c s
  | .vand d a b => Sys2Proof.Machine.execVand d a b s
  | .vor d a b => Sys2Proof.Machine.execVor d a b s
  | .vxor d a b => Sys2Proof.Machine.execVxor d a b s
  | .vandn d a b => Sys2Proof.Machine.execVandn d a b s
  | .vnot d a => Sys2Proof.Machine.execVnot d a s
  | .vsel d a b => Sys2Proof.Machine.execVsel d a b s
  | .vcmpEq k m a b => Sys2Proof.Machine.execVcmpEq k m a b s
  | .vcmpNe k m a b => Sys2Proof.Machine.execVcmpNe k m a b s
  | .vcmpLt k m a b => Sys2Proof.Machine.execVcmpLt k m a b s
  | .vcmpLe k m a b => Sys2Proof.Machine.execVcmpLe k m a b s
  | .vcmpGt k m a b => Sys2Proof.Machine.execVcmpGt k m a b s
  | .vcmpGe k m a b => Sys2Proof.Machine.execVcmpGe k m a b s
  | .vcmpTrlt k m a => Sys2Proof.Machine.execVcmpTrlt k m a s
  | .vcmpNan k m a => Sys2Proof.Machine.execVcmpNan k m a s
  | .vcmpInf k m a => Sys2Proof.Machine.execVcmpInf k m a s
  | .vsrch k m a y z => Sys2Proof.Machine.execVsrch k m a y z s
  | .vwrt k a y z => Sys2Proof.Machine.execVwrt k a y z s
  | .kand d a b => Sys2Proof.Machine.execKand d a b s
  | .kor d a b => Sys2Proof.Machine.execKor d a b s
  | .kxor d a b => Sys2Proof.Machine.execKxor d a b s
  | .kandn d a b => Sys2Proof.Machine.execKandn d a b s
  | .knot d a => Sys2Proof.Machine.execKnot d a s
  | .kmov d a => Sys2Proof.Machine.execKmov d a s
  | .kset d => Sys2Proof.Machine.execKset d s
  | .kclr d => Sys2Proof.Machine.execKclr d s
  | .kpop a x => Sys2Proof.Machine.execKpop a x s
  | .kfirst d a x => Sys2Proof.Machine.execKfirst d a x s
  | .kone d x => Sys2Proof.Machine.execKone d x s
  | .kshift d a x => Sys2Proof.Machine.execKshift d a x s
  | .kfrom d x => Sys2Proof.Machine.execKfrom d x s
  | .kto a x => Sys2Proof.Machine.execKto a x s
  | .vrsum d a => Sys2Proof.Machine.execVrsum d a s
  | .vrmin d a => Sys2Proof.Machine.execVrmin d a s
  | .vrmax d a => Sys2Proof.Machine.execVrmax d a s
  | .vrand d a => Sys2Proof.Machine.execVrand d a s
  | .vror d a => Sys2Proof.Machine.execVror d a s
  | .vrxor d a => Sys2Proof.Machine.execVrxor d a s
  | .vrfsum d a => Sys2Proof.Machine.execVrfsum d a s
  | .vrfmax d a => Sys2Proof.Machine.execVrfmax d a s
  | .vrfmin d a => Sys2Proof.Machine.execVrfmin d a s
  | .vrargmax d a => Sys2Proof.Machine.execVrargmax d a s
  | .vrargmin d a => Sys2Proof.Machine.execVrargmin d a s
  | .vextr d a b => Sys2Proof.Machine.execVextr d a b s
  | .vtopk k a b => Sys2Proof.Machine.execVtopk k a b s
  | .vbotk k a b => Sys2Proof.Machine.execVbotk k a b s
  | .vmaxt k a => Sys2Proof.Machine.execVmaxt k a s
  | .vmint k a => Sys2Proof.Machine.execVmint k a s
  | .vconf k a => Sys2Proof.Machine.execVconf k a s
  | .vneark k a b => Sys2Proof.Machine.execVneark k a b s
  | .vslideup d a b => Sys2Proof.Machine.execVslideup d a b s
  | .vslidedn d a b => Sys2Proof.Machine.execVslidedn d a b s
  | .vslidein d a b => Sys2Proof.Machine.execVslidein d a b s
  | .vperm d a b => Sys2Proof.Machine.execVperm d a b s
  | .vcompact d => Sys2Proof.Machine.execVcompact d s
  | .vscan d a => Sys2Proof.Machine.execVscan d a s
  | .viota d => Sys2Proof.Machine.execViota d s
  | .vbcast d a b => Sys2Proof.Machine.execVbcast d a b s
  | .vldu d a => Sys2Proof.Machine.execVldu d a s
  | .vlds d a b => Sys2Proof.Machine.execVlds d a b s
  | .vldx d a b => Sys2Proof.Machine.execVldx d a b s
  | .vldl d a b => Sys2Proof.Machine.execVldl d a b s
  | .vstu d a => Sys2Proof.Machine.execVstu d a s
  | .vsts d a b => Sys2Proof.Machine.execVsts d a b s
  | .vstx d a b => Sys2Proof.Machine.execVstx d a b s
  | .vstadd d a b => Sys2Proof.Machine.execVstadd d a b s
  | .vstef d a t => Sys2Proof.Machine.execVstef d a t s
  | .vstl d a b => Sys2Proof.Machine.execVstl d a b s
  | .vsoft d a b => Sys2Proof.Machine.execVsoft d a b s
  | .vcollapse d a b => Sys2Proof.Machine.execVcollapse d a b s
  | .fmap v b w t => Sys2Proof.Machine.execFmap v b w t s
  | .mcfg a n => Sys2Proof.Machine.execMcfg a n s
  | .mwld a b n => Sys2Proof.Machine.execMwld a b n s
  | .mwlds a b c n => Sys2Proof.Machine.execMwlds a b c n s
  | .mstr a b n => Sys2Proof.Machine.execMstr a b n s
  | .mdrn a b n => Sys2Proof.Machine.execMdrn a b n s
  | .mdrnv a b n => Sys2Proof.Machine.execMdrnv a b n s
  | .mzero n => Sys2Proof.Machine.execMzero n s
  | .mchk a n => Sys2Proof.Machine.execMchk a n s
  | .spcomp a b c => Sys2Proof.Machine.execSpcomp a b c s
  | .arrinit d a b => Sys2Proof.Machine.execArrinit d a b s
  | .arradd d a b => Sys2Proof.Machine.execArradd d a b s
  | .arrwait d a b => Sys2Proof.Machine.execArrwait d a b s
  | .srr d n => Sys2Proof.Machine.execSrr d n s
  | .srw a n => Sys2Proof.Machine.execSrw a n s
  | .nop => Sys2Proof.Machine.execNop s
  | .eret => Sys2Proof.Machine.execEret s
  | .wfe => Sys2Proof.Machine.execWfe s
  | .yield => Sys2Proof.Machine.execYield s
  | .halt => Sys2Proof.Machine.execHalt s
  | .bkpt => Sys2Proof.Machine.execBkpt s
  | .synci => Sys2Proof.Machine.execSynci s
  | .vjoin => Sys2Proof.Machine.execVjoin s
  | .unboost => Sys2Proof.Machine.execUnboost s
  | .fenceSv => Sys2Proof.Machine.execFenceSv s
  | .fenceVs => Sys2Proof.Machine.execFenceVs s
  | .twait => Sys2Proof.Machine.execTwait s
  | .pend => Sys2Proof.Machine.execPend s
  | .pwait => Sys2Proof.Machine.execPwait s
  | .cpyg2l d a b => Sys2Proof.Machine.execCpyg2l d a b s
  | .cpyl2g d a b => Sys2Proof.Machine.execCpyl2g d a b s
  | .cpyl2l d a b => Sys2Proof.Machine.execCpyl2l d a b s
  | .cpyg2g d a b => Sys2Proof.Machine.execCpyg2g d a b s
  | .cpywait d => Sys2Proof.Machine.execCpywait d s
  | .colrs d a b => Sys2Proof.Machine.execColrs d a b s
  | .colag d a b => Sys2Proof.Machine.execColag d a b s
  | .colar d a b => Sys2Proof.Machine.execColar d a b s
  | .colrot d a b => Sys2Proof.Machine.execColrot d a b s
  | .colwait d a => Sys2Proof.Machine.execColwait d a s
  | .colstat d a => Sys2Proof.Machine.execColstat d a s
  | .ctxctlMakeValid => Sys2Proof.Machine.execCtxctlMakeValid s
  | .ctxctlClearValid => Sys2Proof.Machine.execCtxctlClearValid s
  | .ctxctlKill => Sys2Proof.Machine.execCtxctlKill s
  | .coolDown => Sys2Proof.Machine.execCoolDown s
  | .go => Sys2Proof.Machine.execGo s
  | .warmUp => Sys2Proof.Machine.execWarmUp s
  | .attest => Sys2Proof.Machine.execAttest s
  | .activateStagedImage => Sys2Proof.Machine.execActivateStagedImage s
  | .powerOn => Sys2Proof.Machine.execPowerOn s
  | .bootSlotTimeout => Sys2Proof.Machine.execBootSlotTimeout s
  | .imageStartTimeout => Sys2Proof.Machine.execImageStartTimeout s
  | .packageReset => Sys2Proof.Machine.execPackageReset s
  | .functionLevelReset => Sys2Proof.Machine.execFunctionLevelReset s
  | .microcodeLoadTimeLimit => Sys2Proof.Machine.execMicrocodeLoadTimeLimit s
  | .purgeComplete => Sys2Proof.Machine.execPurgeComplete s
  | .soakComplete => Sys2Proof.Machine.execSoakComplete s
  | .criticalSaveDeadline => Sys2Proof.Machine.execCriticalSaveDeadline s
  | .criticalRailsOff => Sys2Proof.Machine.execCriticalRailsOff s
  | .refreshOff => Sys2Proof.Machine.execRefreshOff s
  | .powerStepUndo => Sys2Proof.Machine.execPowerStepUndo s
  | .mailboxCommandDone => Sys2Proof.Machine.execMailboxCommandDone s
  | .registerWrite o wide a => Sys2Proof.Machine.execRegisterWrite o wide a s
  | .flagsWrite v => Sys2Proof.Machine.execFlagsWrite v s
  | .fpheadWrite v => Sys2Proof.Machine.execFpheadWrite v s
  | .checkedModeSet on => Sys2Proof.Machine.execCheckedModeSet on s
  | .dbgselWrite v => Sys2Proof.Machine.execDbgselWrite v s
  | .rowselWrite t v => Sys2Proof.Machine.execRowselWrite t v s
  | .qtailDoorbell q v => Sys2Proof.Machine.execQtailDoorbell q v s
  | .qstatHaltedClear q => Sys2Proof.Machine.execQstatHaltedClear q s
  | .queueDisable q => Sys2Proof.Machine.execQueueDisable q s
  | .preemptRequest v => Sys2Proof.Machine.execPreemptRequest v s
  | .restoreRequest v => Sys2Proof.Machine.execRestoreRequest v s
  | .migrationRequest t dst => Sys2Proof.Machine.execMigrationRequest t dst s
  | .groupEnable g v => Sys2Proof.Machine.execGroupEnable g v s
  | .groupWithdraw g v => Sys2Proof.Machine.execGroupWithdraw g v s
  | .readCertificateChain arg => Sys2Proof.Machine.execReadCertificateChain arg s
  | .stageImagePart arg => Sys2Proof.Machine.execStageImagePart arg s
  | .loadMicrocodeTable arg => Sys2Proof.Machine.execLoadMicrocodeTable arg s
  | .retrainPeerPort arg => Sys2Proof.Machine.execRetrainPeerPort arg s
  | .recalibrateHbmChannel arg => Sys2Proof.Machine.execRecalibrateHbmChannel arg s
  | .substituteSpareCore arg => Sys2Proof.Machine.execSubstituteSpareCore arg s
  | .mailboxUnknownOp op => Sys2Proof.Machine.execMailboxUnknownOp op s
  | .msirqWrite v => Sys2Proof.Machine.execMsirqWrite v s
  | .msixUnmask c => Sys2Proof.Machine.execMsixUnmask c s
  | .hostBar2Write o bytes => Sys2Proof.Machine.execHostBar2Write o bytes s
  | .hostBar2Read o n => Sys2Proof.Machine.execHostBar2Read o n s
  | .hostCompletion pa bytes err => Sys2Proof.Machine.execHostCompletion pa bytes err s
  | .launchHeadService die => Sys2Proof.Machine.execLaunchHeadService die s
  | .launchRetry q => Sys2Proof.Machine.execLaunchRetry q s
  | .heldStart q => Sys2Proof.Machine.execHeldStart q s
  | .threadStart t => Sys2Proof.Machine.execThreadStart t s
  | .resumeListRestore die => Sys2Proof.Machine.execResumeListRestore die s
  | .threadAged t => Sys2Proof.Machine.execThreadAged t s
  | .yieldExpiry t => Sys2Proof.Machine.execYieldExpiry t s
  | .wfeWake t => Sys2Proof.Machine.execWfeWake t s
  | .wfeTimeout t => Sys2Proof.Machine.execWfeTimeout t s
  | .plyBlockStart t j => Sys2Proof.Machine.execPlyBlockStart t j s
  | .matrixOperationStart core => Sys2Proof.Machine.execMatrixOperationStart core s
  | .matrixCheckResult t fail => Sys2Proof.Machine.execMatrixCheckResult t fail s
  | .checkedModeCheckResult t fail => Sys2Proof.Machine.execCheckedModeCheckResult t fail s
  | .committedStorePerform t => Sys2Proof.Machine.execCommittedStorePerform t s
  | .stripErrorDetected t src addr => Sys2Proof.Machine.execStripErrorDetected t src addr s
  | .stripSettle t => Sys2Proof.Machine.execStripSettle t s
  | .trapDelivery t => Sys2Proof.Machine.execTrapDelivery t s
  | .contextSave t => Sys2Proof.Machine.execContextSave t s
  | .contextRestore ctx entry => Sys2Proof.Machine.execContextRestore ctx entry s
  | .streamComplete t => Sys2Proof.Machine.execStreamComplete t s
  | .forwardingEntryExpiry t => Sys2Proof.Machine.execForwardingEntryExpiry t s
  | .loadDataArrival t id => Sys2Proof.Machine.execLoadDataArrival t id s
  | .acquireRetire t id => Sys2Proof.Machine.execAcquireRetire t id s
  | .sliceOperation k => Sys2Proof.Machine.execSliceOperation k s
  | .casTurnExpiry line => Sys2Proof.Machine.execCasTurnExpiry line s
  | .hbmFill r => Sys2Proof.Machine.execHbmFill r s
  | .replicaLock k => Sys2Proof.Machine.execReplicaLock k s
  | .replicaUpdate k => Sys2Proof.Machine.execReplicaUpdate k s
  | .pageWalk t va => Sys2Proof.Machine.execPageWalk t va s
  | .invalidationComplete k => Sys2Proof.Machine.execInvalidationComplete k s
  | .arrwaitWake t => Sys2Proof.Machine.execArrwaitWake t s
  | .arrwaitReread t => Sys2Proof.Machine.execArrwaitReread t s
  | .copyChunk k => Sys2Proof.Machine.execCopyChunk k s
  | .copyChunkFail k code => Sys2Proof.Machine.execCopyChunkFail k code s
  | .copyDataFrameRx port f => Sys2Proof.Machine.execCopyDataFrameRx port f s
  | .remoteReadRequestRx port f => Sys2Proof.Machine.execRemoteReadRequestRx port f s
  | .remoteReadDataRx port f => Sys2Proof.Machine.execRemoteReadDataRx port f s
  | .collectiveDataFrameRx port f => Sys2Proof.Machine.execCollectiveDataFrameRx port f s
  | .hopReceiptRx port => Sys2Proof.Machine.execHopReceiptRx port s
  | .deliveryReceiptRx origin r => Sys2Proof.Machine.execDeliveryReceiptRx origin r s
  | .slotReceiptRx g step => Sys2Proof.Machine.execSlotReceiptRx g step s
  | .refusalRx origin seq code => Sys2Proof.Machine.execRefusalRx origin seq code s
  | .linkTimeout port => Sys2Proof.Machine.execLinkTimeout port s
  | .linkDown port => Sys2Proof.Machine.execLinkDown port s
  | .linkTrained port => Sys2Proof.Machine.execLinkTrained port s
  | .pathTimeout seq => Sys2Proof.Machine.execPathTimeout seq s
  | .groupTimeout g => Sys2Proof.Machine.execGroupTimeout g s
  | .sensorSample die temp stack0 stack1 flow ratex => Sys2Proof.Machine.execSensorSample die temp stack0 stack1 flow ratex s
  | .criticalMark cause => Sys2Proof.Machine.execCriticalMark cause s
  | .refreshBurstComplete stack => Sys2Proof.Machine.execRefreshBurstComplete stack s
  | .powerMeasurement p => Sys2Proof.Machine.execPowerMeasurement p s
  | .leaseExpiry t => Sys2Proof.Machine.execLeaseExpiry t s
  | .bandReady core band => Sys2Proof.Machine.execBandReady core band s
  | .regulatorHeadroomLow die => Sys2Proof.Machine.execRegulatorHeadroomLow die s
  | .chainpRestore die => Sys2Proof.Machine.execChainpRestore die s
  | .frequencyTransitionSettle cluster => Sys2Proof.Machine.execFrequencyTransitionSettle cluster s
  | .plyDrowsy core ply => Sys2Proof.Machine.execPlyDrowsy core ply s
  | .plyWake core ply => Sys2Proof.Machine.execPlyWake core ply s
  | .backgroundScrub core row => Sys2Proof.Machine.execBackgroundScrub core row s
  | .wordNotAnInstruction w => Sys2Proof.Machine.execWordNotAnInstruction w s
  | .instructionFetchFault va => Sys2Proof.Machine.execInstructionFetchFault va s
  | .microcodePlyLoaded core ply => Sys2Proof.Machine.execMicrocodePlyLoaded core ply s
  | .boostAnswer t granted => Sys2Proof.Machine.execBoostAnswer t granted s
  | .resizableBarWrite log2GiB => Sys2Proof.Machine.execResizableBarWrite log2GiB s

end Sys2Proof.Machine
end

