-- ==== Sys2Proof/Machine/Issue.lean ====
section
/-! DEFINITION. Issue: which threads and plies run, the barrel (15 R327, 16 R354), and the agents that can move. -/
namespace Sys2Proof.Machine
open Sys2Proof

/-! ### Whether a thread runs -/

/-- Whether a core runs words at all: its cluster is not changing frequency and its rails are on (R354). -/
def State.coreOn (s : State) (core : BitVec 12) : Bool := !s.thermal.settling.contains (clusterOf core) && s.railsOn core

/-- Whether a thread's control thread runs. -/
def State.coreRuns (s : State) (t : Thread) : Bool := s.coreOn t.tid.core && !t.leaving

/-- Whether a thread's plies run: while an invalidation of the thread is under way it issues nothing (R50, R51, R57). -/
def State.plyRuns (s : State) (t : Thread) : Bool := s.coreOn t.tid.core && !t.leaving && !s.awaitsInval t.tid

/-- Whether a thread is awake (R327). -/
def Thread.awake (t : Thread) : Bool :=
  match t.sleep with
  | .awake => true
  | .arrread => true
  | .wfe => false
  | .arrwait => false
  | .yield => false
  | .colwait _ => true
  | .boost _ _ _ => false

/-- Whether the control thread may issue: it runs, is awake, has no trap to take, and no synchronous copy under way. -/
def State.controlRuns (s : State) (t : Thread) : Bool :=
  s.coreRuns t && t.awake && t.nextTrap.isNone && !s.midWord t

/-- Whether the control thread in focus goes on at its PC: a word that cannot be fetched or decoded goes on to its fault. -/
noncomputable def State.controlGoes (s : State) : Bool :=
  match s.fetchWord s.th.priv s.th.pc with
  | .error _ => true
  | .ok (_, w) => match decode w with
    | none => true
    | some i => !s.controlHolds i

/-- Whether plies that all wait at a word of the matrix engine look again: the lowest of them, once the engine has started the
operation or the queue has room for it (R297, R328). -/
def State.engineRetry (s : State) (j : Nat) (r : Running) : Bool :=
  r.wait == .crossing
    && (s.th.arrived r.origin).any (fun ws => (ws.head?.map (·.1)) == some j)
    && (match (s.matOf s.th.tid).find? fun m => m.word = (r.origin, r.pc) with
        | none => decide ((s.matOps s.th.tid.core).length < 16)
        | some m => m.started)

/-- Whether the word at which a ply of the thread in focus stands can be executed now. -/
def State.plyReady (s : State) (j : Nat) : Bool :=
  let p := s.th.plyAt j
  match p.run with
  | none => false
  | some r =>
    p.stopped.isNone && !p.drowsy && (r.wait == .running || s.engineRetry j r)
      && (match r.word.bind blockDecode with
          | none => true
          | some i => !s.plyHolds j r i)

/-- Whether a ply of the thread in focus goes on. -/
def State.plyGoes (s : State) (j : Nat) : Bool := s.plyRuns s.th && s.plyReady j

/-! ### Words stopped at a restart point: R330, R340 -/

/-- Whether a ply is in no word: it has nothing to do, waits, or stands stopped by a fault. -/
def Ply.atRest (p : Ply) : Bool :=
  p.stopped.isSome || (match p.run with
    | none => p.queue.isEmpty
    | some r => r.wait == .splice || r.wait == .crossing)

/-- Whether the matrix engine is at work on an operation of the thread in focus. -/
def State.engineWorks (s : State) : Bool := s.mq.any fun m => m.tid = s.th.tid && m.started

/-- Whether the word of a ply of the thread in focus may be found running by a pre-emption, or by a fault of another ply, and stopped at
a restart point, a word that has resumed at one among them. PIDX and REDACC hold the progress of one word: no other ply is in a word then
(log 53). -/
def State.plyStops (s : State) (j : Nat) : Bool :=
  let t := s.th
  let others := t.owned.filter fun (i, _) => i ≠ j
  s.coreOn t.tid.core && s.plyReady j
    && (t.leaving || others.any fun (_, p) => p.stopped.isSome)
    && (s.engineWorks || others.all fun (_, p) => p.atRest)

/-! ### The barrel: R327 -/

/-- The control threads of a core that are ready. -/
noncomputable def State.readyOn (s : State) (core : BitVec 12) : List Thread :=
  (s.threads.filter fun t => t.tid.core = core && s.controlRuns t).filter fun t => (s.focus t.tid).controlGoes

/-- The slots of a core, beginning after the one that issued last. -/
def State.slotOrder (s : State) (core : BitVec 12) : List (BitVec 3) :=
  (List.range 8).map fun i => look 7 s.lastIssue core.toNat + 1 + BitVec.ofNat 3 i

/-- The thread that a core issues from, of several that are ready: an aged one, the lowest slot first; else one of the highest PRIO, those
with a turn to reclaim first, then round-robin. Which of them has a turn to reclaim is free, for it depends on cycles (R150, log 72). -/
def State.barrelPick (s : State) (core : BitVec 12) (l : List Thread) : Option Tid :=
  match (List.range 8).findSome? fun i => l.find? fun t => t.aged && t.tid.slot.toNat = i with
  | some t => some t.tid
  | none =>
    let top := l.foldl (fun m t => Nat.max m t.prio.toNat) 0
    let equals := (s.slotOrder core).filterMap fun i => l.find? fun t => t.tid.slot = i && t.prio.toNat = top
    ((equals.find? fun t => Config.coin s.tick (8 + t.tid.slot.toNat)) <|> equals.head?).map (·.tid)

/-- The thread that a core issues from next. The thread that issued last may still be in its instruction, which is not ready then: a
free value (log 72). -/
noncomputable def State.issuer (s : State) (core : BitVec 12) : Option Tid :=
  match s.readyOn core with
  | [] => none
  | [t] => some t.tid
  | l =>
    let rest := l.filter fun t => t.tid.slot ≠ look 7 s.lastIssue core.toNat
    s.barrelPick core (if Config.coin s.tick 7 && !rest.isEmpty then rest else l)

/-! ### The agents that can move -/

/-- An agent of the package at its next step. -/
inductive Agent where
  /-- the word of a control thread or of a ply -/
  | word (t : Tid) (w : Who)
  /-- the word of a ply, stopped at one of its restart points -/
  | stop (t : Tid) (j : BitVec 4)
  | event (i : Instr)
  /-- a launch engine's read of one dword of the record at a queue's head (R322) -/
  | readDword (q : BitVec 6) (i : Nat)
  /-- a line dropped by its home slice (R62) -/
  | evict (line : Nat)
  /-- a firmware slot that the boot ROM starts has started (R374) -/
  | started
  /-- the next event from outside -/
  | input
  deriving DecidableEq, Repr

/-- Events of a condition. -/
def when_ (b : Bool) (i : Instr) : List Agent := if b then [.event i] else []

/-- The agents of a thread, its control thread apart. -/
noncomputable def State.threadAgents (s0 : State) (tid : Tid) : List Agent :=
  let s := s0.focus tid
  let t := s.th
  (t.owned.flatMap fun (j, p) =>
      let k := BitVec.ofNat 4 j
      (if s.plyGoes j then [.word tid (.ply k)] else [])
      ++ (if s.plyStops j then [.stop tid k] else [])
      ++ when_ (p.run.isNone && !p.queue.isEmpty && p.stopped.isNone && s.plyRuns t && t.nextTrap.isNone) (.plyBlockStart tid k)
      ++ when_ (p.drowsy && (p.run.isSome || !p.queue.isEmpty)) (.plyWake tid.core (BitVec.ofNat 4 (t.base.toNat + j))))
  ++ (t.out.map fun o => .event (if o.acquire.isNone then .loadDataArrival tid o.id else .acquireRetire tid o.id))
  ++ when_ (t.strip.checks != 0) (.checkedModeCheckResult tid false)
  ++ when_ (!t.strip.mchecks.isEmpty) (.matrixCheckResult tid false)
  ++ when_ (s.railsOn tid.core && s.settleable t) (.stripSettle tid)
  ++ when_ (s.quiet t && !s.midWord t && t.takesTrap && s.coreOn tid.core) (.trapDelivery tid)
  ++ when_ (s.railsOn tid.core && t.saveReq && s.saveable t && s.saveTurn t) (.contextSave tid)
  ++ when_ (s.railsOn tid.core && t.migrate.isSome && (s.streamComplete tid).isSome) (.streamComplete tid)
  ++ (match t.sleep with
      | .awake => []
      | .arrread => []
      | .wfe => [.event (.wfeTimeout tid)]
      | .arrwait => [.event (.arrwaitReread tid)]
      | .yield => [.event (.yieldExpiry tid)]
      | .colwait _ => []
      | .boost _ _ _ => [.event (.boostAnswer tid (BitVec.ofNat 10 (Config.boostGrant s.tick)))])
  ++ when_ (t.lease.isSome && s.leaseOver t) (.leaseExpiry tid)
  ++ when_ (s.controlRuns t && s.controlGoes && !t.aged && decide (1 < (s.threads.filter fun x => x.tid.core = tid.core).length)) (.threadAged tid)

/-- The control threads that issue next: one of each core. -/
noncomputable def State.barrelAgents (s : State) : List Agent :=
  ((s.threads.map (·.tid.core)).eraseDups.filterMap s.issuer).map fun t => .word t .control

/-- The numbers of a list's places. -/
def places {α : Type} (l : List α) : List Nat := List.range l.length

/-- The agents of memory: the drain, slices, coordinators, turns, invalidations. -/
noncomputable def State.memoryAgents (s : State) : List Agent :=
  ((s.drain.map (·.1)).eraseDups.flatMap fun t => when_ (s.drainReady t) (.committedStorePerform t))
  ++ ((places s.sliceQ).flatMap fun k => when_ (s.sliceReady k) (.sliceOperation k))
  ++ ((places s.repQ).flatMap fun k => when_ (s.repReady k)
      (if (s.repQ[k]?).any (·.locked) then .replicaUpdate k else .replicaLock k))
  ++ (s.turns.map fun (l, _) => .event (.casTurnExpiry (BitVec.ofNat 41 l)))
  ++ ((places s.inval).flatMap fun k => when_ (s.invalReady k) (.invalidationComplete k))
  ++ ((s.l2.filter fun (l, x) => x.held && !s.l2Pinned l).map fun (l, _) => .evict l)

/-- The engines of the package: copies, forwarding entries, matrix queues, links and groups. -/
noncomputable def State.engineAgents (s : State) : List Agent :=
  (s.chunks.zipIdx.flatMap fun (c, k) => when_ (s.chunkReady c) (.copyChunk k))
  ++ ((s.forwards.filter (·.live)).map fun f => .event (.forwardingEntryExpiry f.old))
  ++ ((s.mq.map (·.tid.core)).eraseDups.flatMap fun c => when_ (s.matNext c).isSome (.matrixOperationStart c))
  ++ (((s.fabric.sent.filter fun x => x.hop && s.onWire x).map (·.port)).eraseDups.map fun p =>
      .event (.linkTimeout p))
  ++ ((s.fabric.sent.filter fun x => x.due && s.onWire x).map fun x => .event (.pathTimeout x.seq))
  ++ (((List.range 8).map (BitVec.ofNat 3)).flatMap fun p => when_ (s.stranded p) (.linkDown p))
  ++ ((s.groups.filter fun (_, g) => g.gto && g.waiting).map fun (i, _) => .event (.groupTimeout (BitVec.ofNat 6 i)))

/-- The queues of a die that the launch engine has still to look at: their heads have not been read whole. -/
def State.unread (s : State) (die : BitVec 3) : Bool :=
  s.launching && s.queues.any fun (i, q) => q.die = die && s.hasHead (BitVec.ofNat 6 i) && q.waiting.isNone

/-- Launch engines and restores. -/
noncomputable def State.launchAgents (s : State) : List Agent :=
  let qs := s.queues.map fun (i, q) => (BitVec.ofNat 6 i, q)
  ((qs.map fun (_, q) => q.die).eraseDups.flatMap fun d => when_ (s.unread d || (s.launchNext d).isSome) (.launchHeadService d))
  ++ (qs.flatMap fun (i, q) => when_ (q.waiting.isSome && (s.launchNext q.die).any fun x => x.1 = i) (.launchRetry i))
  ++ (qs.flatMap fun (i, q) => if s.launching && s.hasHead i && q.waiting.isNone then
      ((List.range 8).filter fun k => !(q.part.any fun p => p.1 = k)).map fun k => .readDword i k else [])
  ++ (qs.flatMap fun (i, _) => when_ (s.mayHold i) (.heldStart i))
  ++ (s.reserved.flatMap fun r => when_ (s.starting && s.slotDrained r.tid &&
      !(s.reserved.any fun x => x.group = r.group && decide (x.rank.toNat < r.rank.toNat))) (.threadStart r.tid))
  ++ ((s.resumes.map (·.2)).eraseDups.flatMap fun d => when_ (s.resumeList d).isSome (.resumeListRestore d))
  ++ (s.saved.flatMap fun x => when_ (x.restore && (s.contextRestore x.ctx x.entry).isSome) (.contextRestore x.ctx x.entry))

/-- The lowest ply that has still to be loaded and is not owned. -/
def State.loadable (s : State) : Option Nat :=
  if s.pm.busy && s.pm.op == 5 then
    (List.range 65536).find? fun k =>
      look 0 s.pm.plyTable k != s.pm.target && !s.plyTaken (BitVec.ofNat 12 (k / 16)) (k % 16)
  else none

/-- Temperature, power, the postmaster. -/
noncomputable def State.packageAgents (s : State) : List Agent :=
  let t := s.thermal
  when_ (t.state == .purge && decide (800 ≤ t.flow.toNat)) .purgeComplete
  ++ when_ (t.state == .soak && decide (t.tmax ≤ 95) && decide (t.tmax - t.tmin ≤ 5)) .soakComplete
  ++ when_ (t.state == .critical && !s.threads.isEmpty) .criticalSaveDeadline
  ++ when_ (t.state == .critical && s.threads.isEmpty) .criticalRailsOff
  ++ when_ (t.refresh && decide (t.smax ≤ 95)) .refreshOff
  ++ (((List.range 16).filter fun i => t.bursts.getLsbD i).map fun i => .event (.refreshBurstComplete (BitVec.ofNat 4 i)))
  ++ when_ (!t.steps.isEmpty && t.below) .powerStepUndo
  ++ (t.bandWaking.flatMap fun (c, m) => ((List.range 4).filter fun i => m.getLsbD i).map fun i =>
      .event (.bandReady (BitVec.ofNat 12 c) (BitVec.ofNat 2 i)))
  ++ (t.settling.map fun c => .event (.frequencyTransitionSettle c))
  ++ when_ s.pm.busy .mailboxCommandDone
  ++ when_ (s.pm.busy && s.pm.op == 4) .imageStartTimeout
  ++ (if s.pm.starting && !s.pm.busy then [.event .bootSlotTimeout, .started] else [])
  ++ when_ (s.pm.busy && s.pm.op == 5 && s.pm.arg != 0 && s.pm.toLoad != 0) .microcodeLoadTimeLimit
  ++ (match s.loadable with
      | none => []
      | some k => [.event (.microcodePlyLoaded (BitVec.ofNat 12 (k / 16)) (BitVec.ofNat 4 (k % 16)))])

/-- The agents that can move, the control threads first. A home slice with too many lines in a set drops one before anything else
(log 73). -/
noncomputable def State.agents (s : State) : List Agent :=
  if !s.crowded.isEmpty then s.crowded.map .evict
  else s.barrelAgents ++ (s.threads.flatMap fun t => s.threadAgents t.tid)
    ++ s.memoryAgents ++ s.engineAgents ++ s.launchAgents ++ s.packageAgents
    ++ (if s.inputs.isEmpty then [] else [.input])

end Sys2Proof.Machine
end

