-- ==== Sys2Proof/Machine/Act.lean ====
section
/-! DEFINITION. One step of one agent: a word of a control thread or of a ply, an agent of the package, or the next event from
outside (log 3); and where the next word is fetched. -/
namespace Sys2Proof.Machine
open Sys2Proof

/-! ### A word -/

/-- A word about to be executed at a mode: what it reads and writes is tracked (R344). -/
def State.tracked (s : State) (u : Uses) (mode : BitVec 26) : State := s.upd fun t => t.track u mode

/-- The control thread in focus as it begins an instruction: it has been given its turn (R327), it may be ordered after vector stores
(R102), and what the instruction reads and writes is tracked (R344); a word of a block is tracked where a ply executes it. -/
def State.begins (s : State) (i : Instr) : State :=
  let s := State.revealSome { s with
    th := { s.th with aged := false }, lastIssue := put 7 s.lastIssue s.th.tid.core.toNat s.th.tid.slot } false
  if (uses i).block then s else s.tracked (s.usesTracked s.th.mode i) s.th.mode

/-- A ply of the thread in focus as it begins a word: the word may be ordered after scalar stores (R102), and what it reads and writes is
tracked. -/
def State.plyBegins (s : State) (r : Running) (i : Instr) : State := (s.revealSome true).tracked (s.usesTracked r.mode i) r.mode

/-- The word at the PC of the control thread in focus (R133, R197, R221). -/
noncomputable def State.controlWord (s : State) : Out :=
  match s.fetchWord s.th.priv s.th.pc with
  | .error _ => exec (.instructionFetchFault s.th.pc) s
  | .ok (s', w) => match decode w with
    | none => exec (.wordNotAnInstruction w) s'
    | some i => exec i (s'.begins i)

/-- The word at which the ply at offset j of the thread in focus stands (R135). -/
noncomputable def State.plyWordStep (s : State) (j : BitVec 4) : Out :=
  match s.th.plies[j.toFin].run with
  | none => .next s
  | some r => match r.word.bind blockDecode with
    | none => .next (s.fault (illop (r.word.getD 0)))
    | some i => exec i (s.plyBegins r i)

/-- The word of a ply executed as far as one of its restart points, which a free value names: the ply then stands there with its
progress kept. A word that has no such point is not stopped: it runs whole at a step of its own. An operation of the matrix engine ends
either way (R289, R330, R340). -/
noncomputable def State.stopStep (s : State) (t : Tid) (j : BitVec 4) : Out :=
  match State.plyWordStep { s.focus t with who := .ply j, stopAt := some (Config.choose s.tick 1) } j with
  | .next s' =>
    if (s'.th.plyAt j.toNat).run.any (fun r => r.wait == .held) || (s.focus t).engineWorks then .next { s' with stopAt := none }
    else .next s
  | .fault f => .fault f
  | .refused r => .refused r

/-! ### Turns: R107 -/

/-- The thread for which an agent moves. -/
def State.actor (s : State) (a : Agent) : Option Tid :=
  match a with
  | .word t _ => some t
  | .stop t _ => some t
  | .event (.committedStorePerform t) => some t
  | .event (.sliceOperation k) => (s.sliceQ[k]?).map (·.tid)
  | .event (.replicaUpdate k) => (s.repQ[k]?).bind (·.tid)
  | .event _ => none
  | .readDword _ _ => none
  | .evict _ => none
  | .started => none
  | .input => none

/-- Whether a step of an agent would apply a write to a line whose turn a thread that it does not move for holds, and still would hold
after it. -/
def State.breaks (s s' : State) (a : Agent) : Bool :=
  s.turns.any fun (l, t) =>
    (s.turns.find? fun x => x.1 = l) == some (l, t) && s.actor a != some t && s'.turns.contains (l, t)
      && s.homeBytes (128 * l) 128 != s'.homeBytes (128 * l) 128

/-- A write to a line under another thread's turn waits, and with it the step that makes it (R107). -/
def State.inTurn (s : State) (a : Agent) (o : Out) : Out :=
  match o with
  | .next s' => .next (if s.breaks s' a then s else s')
  | .fault f => .fault f
  | .refused r => .refused r

/-! ### An agent -/

/-- Whether a step comes from outside the streams of words: it has no word, and it is not what the fetch of a word met. -/
def fromOutside (i : Instr) : Bool :=
  match i with
  | .wordNotAnInstruction _ => false
  | .instructionFetchFault _ => false
  | i => (encodeFields i).isNone

/-- What an agent does at its step. Only steps from outside are taken from the inputs (log 3). -/
noncomputable def State.act (s : State) (a : Agent) : Out :=
  s.inTurn a <| match a with
  | .word t .control => (s.focus t).controlWord
  | .word t (.ply j) => State.plyWordStep { s.focus t with who := .ply j } j
  | .stop t j => s.stopStep t j
  | .event i => exec i s
  | .readDword q i => agent (s.readDword q i)
  | .evict line => agent (s.l2Evict line)
  | .started => agent s.bootStarted
  | .input => match s.inputs with
    | [] => .next s
    | i :: rest => if fromOutside i then exec i { s with inputs := rest } else .next { s with inputs := rest }

/-- The end of a step: it is counted and CYCLES goes on (log 4). -/
def State.settled (s : State) : State :=
  { s with tick := s.tick + 1, cycles := s.cycles + BitVec.ofNat 64 (Config.elapsed s.tick) }

/-- A step's end applied to what an agent did. -/
def endStep (o : Out) : Out :=
  match o with
  | .next s => .next s.settled
  | .fault f => .fault f
  | .refused r => .refused r

/-- The agent that moves: the only one that can, or one of those that can (log 2). -/
noncomputable def State.mover (s : State) : Option Agent :=
  match s.agents with
  | [] => none
  | [a] => some a
  | a :: rest => some ((a :: rest).getD (Config.pick s.tick % (rest.length + 1)) a)

/-- One step: the agent that moves, moves; where none can, only time passes. -/
noncomputable def State.oneStep (s : State) : Out :=
  match s.mover with
  | none => endStep (.next s)
  | some a => endStep (s.act a)

/-! ### A program placed from outside -/

/-- A word stored as four bytes at a physical address, that no instruction path or slice holds as it was. -/
def State.placeWord (s : State) (pa : Nat) (w : IWord) : State :=
  { s with
    mem := memWrite s.mem pa (leBytes 4 w.toNat), ipath := s.ipath.filter fun x => x.1 % 2 ^ 41 ≠ pa / 128,
    l2 := put L2Line.absent s.l2 (pa / 128) L2Line.absent }

/-- A context of one page of code: TASKROOT 0x20001 leads through entries at 0x20000, 0x40000 and 0x50000 to frame 6, readable
and executable, class L2-only, so that virtual address 0 is physical address 0x60000. -/
def codePage (s : State) : State :=
  let e (m : List Host.Cell) (pa : Nat) (v : Dword) : List Host.Cell := memWrite m pa (leBytes 8 v.toNat)
  { s with
    mem := e (e (e s.mem 0x20000 0x40001) 0x40000 0x50001) 0x50000 0x6018B,
    ctxs := put Ctx.blank s.ctxs 1 { Ctx.blank with valid := true, taskroot := 0x20001 },
    thermal := { s.thermal with state := .active } }

/-- A supervisor thread of one ply at virtual address 0 of context 1, in slot 0 of core 0. -/
def loadedThread : Thread := { Thread.blank with live := true, ctx := 1, priv := true }

/-- The same thread with its ply standing at the first word of a block [w, PEND], its control thread at VJOIN. -/
def loadedBlock (w : IWord) : Thread :=
  let b : Block :=
    { seq := 0, words := [w, pendWord], addr := 4, one := false, mode := 0, vl := 0, ctl := 0, nf := .replicate 8 0 }
  let r : Running := { origin := 0, blk := b, pc := 4, mode := 0, vl := 0, ctl := 0, wait := .running }
  { loadedThread with nextSeq := 1, plies := loadedThread.plies.set 0 { Ply.idle with run := some r } }

/-- Whether a word stands in blocks alone: major opcode PCTL (Table 9.5). -/
def isPctl (w : IWord) : Bool := w.extractLsb' 26 6 == 0x28#6

/-- A word placed where the next step fetches it. Where a thread is in focus, that is at its PC; where none is, the thread of
`loadedThread` is placed with the page of `codePage`, as a launch would have done. -/
def State.withWord (s : State) (w : IWord) : State :=
  if s.th.live then
    (match s.translate s.th.tid.core s.th.ctx .fetch s.th.pc with
     | .error _ => s
     | .ok x => s.placeWord (replicaFor s.th.tid.core x.pa x.repl) w)
  else if isPctl w then
    { (((codePage s).placeWord 0x60000 (wordOf .vjoin)).placeWord 0x60004 w).placeWord 0x60008 pendWord with
      th := loadedBlock w }
  else { (codePage s).placeWord 0x60000 w with th := loadedThread }

end Sys2Proof.Machine
end

