-- ==== Sys2Proof/Machine/Step.lean ====
section
/-! DEFINITION. The step of the machine, and the word that the next step runs. -/
namespace Sys2Proof.Machine
open Sys2Proof

/-- One step of the machine. -/
noncomputable def step (s : State) : Host.Outcome State Fault Refusal := s.oneStep

/-- The state with an opcode-table word stored where the next step fetches it (log 31): its four bytes, the first the least
significant. -/
def State.withFetchWord (s : State) (_nbits w : Nat) : State :=
  s.withWord (wordOfBytes (byteAt w 0) (byteAt w 1) (byteAt w 2) (byteAt w 3))

end Sys2Proof.Machine
end

