-- ==== Sys2Proof/Safety.lean ====
section
/-! DEFINITION. What counts as a safe run: every step ends in a next state, and the collections of the state keep their canonical
form, so that equal contents are equal data. -/
namespace Sys2Proof
open Sys2Proof.Machine

/-- An outcome that is a next state. -/
def Completes (o : Out) : Prop := ∃ t, o = .next t

/-- A state whose memory is in canonical form. -/
def MemoryWf (s : State) : Prop := Memory.wf s.mem = true

/-- A state whose rows, tags, arrival words and memory are in canonical form. -/
def StoresWf (s : State) : Prop :=
  MemoryWf s ∧ canon 0 s.rows = true ∧ canon 0 s.tags = true ∧ canon 0 s.arr = true

/-- A run that has not stopped: k steps from a state, each a next state. -/
def SafeRun (s : State) : Nat → Prop
  | 0 => True
  | k + 1 => ∃ t, step s = .next t ∧ SafeRun t k

end Sys2Proof
end

