-- ==== Sys2Proof/Certificates/Slice0/Obligations.lean ====
section
/-! DEFINITION. What is stated of the model for the provers, with the words the statements are written in. -/
open Sys2Proof
open Sys2Proof.Machine
namespace Sys2Proof

/-! ### The language of the statements -/

/-- The control thread of the thread in focus is the agent. -/
def AtControl (s : State) : Prop := s.th.live = true ∧ s.who = .control

/-- The ply at offset j of the thread in focus is the agent and stands in a block. -/
def AtPly (s : State) (j : BitVec 4) (r : Running) : Prop :=
  s.th.live = true ∧ s.who = .ply j ∧ s.th.running j = some r

/-- Everything but the thread in focus is as before: memory, rows, tags, caches, other threads, package registers. -/
def SameOutside (s t : State) : Prop := t = { s with th := t.th }

/-- Every byte of memory reads as before. -/
def SameMemory (s t : State) : Prop := ∀ a, memByte t.mem a = memByte s.mem a

/-- An outcome is a next state with a property. -/
def Gives (o : Out) (p : State → Prop) : Prop := ∃ t, o = .next t ∧ p t

/-- s-register d receives v with taint set tn, a write to s0 being discarded (R156); flags are added; the PC moves past the
word; nothing else of the thread or of the machine changes. -/
structure WritesS (s t : State) (d : BitVec 6) (v : Dword) (tn : Taint) (fl : Flags) : Prop where
  outside : SameOutside s t
  memory : SameMemory s t
  thread : t.th = { s.th with
    pc := s.th.pc + 4, flags := s.th.flags ||| fl, s := t.th.s, taints := { s.th.taints with s := t.th.taints.s } }
  value : ∀ r, t.th.sr r = if r = 0 then 0 else if r = d then v else s.th.sr r
  taint : ∀ r, t.th.sTaint r = if r = 0 then 0 else if r = d then tn else s.th.sTaint r

/-- f-register d receives v with taint set tn; flags are added; the PC moves past the word; nothing else changes. -/
structure WritesF (s t : State) (d : BitVec 5) (v : FReg) (tn : Taint) (fl : Flags) : Prop where
  outside : SameOutside s t
  memory : SameMemory s t
  thread : t.th = { s.th with
    pc := s.th.pc + 4, flags := s.th.flags ||| fl, f := t.th.f, taints := { s.th.taints with f := t.th.taints.f } }
  value : ∀ r, t.th.fr r = if r = d then v else s.th.fr r
  taint : ∀ r, t.th.fTaint r = if r = d then tn else s.th.fTaint r

/-- The control thread goes on at an address with identifiers added to its control taint; nothing else changes. -/
def GoesTo (s t : State) (pc : Dword) (tn : Taint) : Prop :=
  t = { s with th := { s.th with pc := pc, taints := { s.th.taints with ctl := s.th.taints.ctl ||| tn } } }

/-! ### Scalar instructions: 10 R217 to R221 -/

/-- s[b][5:0]. -/
def amount (y : Dword) : Nat := y.toNat % 64

/-- The low w bits of x as a signed integer, w = 0 read as 64. -/
def signLow (x : Dword) (w : Nat) : Dword := if w = 0 then x else (x.setWidth w).signExtend 64

/-- The low w bits of x as an unsigned integer, w = 0 read as 64. -/
def zeroLow (x : Dword) (w : Nat) : Dword := if w = 0 then x else (x.setWidth w).setWidth 64

/-- Table 10.3, the binary functions that set no flag: the instruction and s[d] of s[a] and s[b]. -/
def aluTable : List ((BitVec 6 → BitVec 6 → BitVec 6 → Instr) × (Dword → Dword → Dword)) :=
  [(.add, fun x y => BitVec.ofNat 64 (x.toNat + y.toNat)),
   (.sub, fun x y => BitVec.ofInt 64 (x.toNat - y.toNat)),
   (.and, fun x y => x &&& y),
   (.or, fun x y => x ||| y),
   (.xor, fun x y => x ^^^ y),
   (.andn, fun x y => x &&& ~~~ y),
   (.sll, fun x y => BitVec.ofNat 64 (x.toNat * 2 ^ amount y)),
   (.srl, fun x y => BitVec.ofNat 64 (x.toNat / 2 ^ amount y)),
   (.sra, fun x y => BitVec.ofInt 64 (x.toInt / 2 ^ amount y)),
   (.ror, fun x y => (x >>> amount y) ||| (x <<< (64 - amount y))),
   (.mul, fun x y => BitVec.ofNat 64 (x.toNat * y.toNat)),
   (.mulh, fun x y => (x.signExtend 128 * y.signExtend 128).extractLsb' 64 64),
   (.mulhn, fun x y => (x.setWidth 128 * y.setWidth 128).extractLsb' 64 64)]
  ++
  [(.min, fun x y => if x.toInt ≤ y.toInt then x else y),
   (.max, fun x y => if x.toInt ≤ y.toInt then y else x),
   (.minn, fun x y => if x.toNat ≤ y.toNat then x else y),
   (.maxn, fun x y => if x.toNat ≤ y.toNat then y else x),
   (.slt, fun x y => if x.toInt < y.toInt then 1 else 0),
   (.sltn, fun x y => if x.toNat < y.toNat then 1 else 0),
   (.seq, fun x y => if x = y then 1 else 0),
   (.sext, fun x y => signLow x (amount y)),
   (.zext, fun x y => zeroLow x (amount y))]

/-- Each binary ALU instruction of Table 10.3 that cannot set a flag writes its function of s[a] and s[b] to s[d] with the
union of their taints, and changes nothing else but the PC. -/
def AluResults : Prop :=
  ∀ p ∈ aluTable, ∀ (d a b : BitVec 6) (s : State), AtControl s →
    Gives (exec (p.1 d a b) s) fun t => WritesS s t d (p.2 (s.th.sr a) (s.th.sr b)) (s.th.sTaint a ||| s.th.sTaint b) 0

/-- The value of an operand: signed or unsigned. -/
def opInt (signed : Bool) (x : Dword) : Int := if signed then x.toInt else x.toNat

/-- R171 for w = 64: quotient, remainder and flag. -/
def division (signed : Bool) (x y : Dword) : Dword × Dword × Flags :=
  if y = 0 then (BitVec.allOnes 64, x, fDZ)
  else if signed ∧ x = 0x8000000000000000 ∧ y = BitVec.allOnes 64 then (0x8000000000000000, 0, fOV)
  else
    let q := (opInt signed x).tdiv (opInt signed y)
    (BitVec.ofInt 64 q, BitVec.ofInt 64 (opInt signed x - q * opInt signed y), 0)

/-- DIV, DIVN, REM and REMN write the quotient or remainder of R171; DZ and OV are set even where s0 discards the result. -/
def DivisionResults : Prop :=
  ∀ (d a b : BitVec 6) (s : State), AtControl s →
    let x := s.th.sr a
    let y := s.th.sr b
    let tn := s.th.sTaint a ||| s.th.sTaint b
    Gives (exec (.div d a b) s) (fun t => WritesS s t d (division true x y).1 tn (division true x y).2.2)
    ∧ Gives (exec (.divn d a b) s) (fun t => WritesS s t d (division false x y).1 tn (division false x y).2.2)
    ∧ Gives (exec (.rem d a b) s) (fun t => WritesS s t d (division true x y).2.1 tn (division true x y).2.2)
    ∧ Gives (exec (.remn d a b) s) (fun t => WritesS s t d (division false x y).2.1 tn (division false x y).2.2)

/-- The number of set bits below bit n. -/
def onesBelow (x : Dword) : Nat → Nat
  | 0 => 0
  | n + 1 => onesBelow x n + (if x.getLsbD n then 1 else 0)

/-- CLZ writes n where bits [63 : 64 - n] are 0 and bit 63 - n, if there is one, is 1; CTZ likewise from the low end; POPC
writes the number of 1 bits. Each carries the taint of s[a] and changes nothing else but the PC. -/
def CountResults : Prop :=
  ∀ (d a : BitVec 6) (s : State), AtControl s →
    (∃ n : Nat, n ≤ 64 ∧ (∀ i, 64 - n ≤ i → i < 64 → (s.th.sr a).getLsbD i = false)
      ∧ (n < 64 → (s.th.sr a).getLsbD (63 - n) = true)
      ∧ Gives (exec (.clz d a) s) fun t => WritesS s t d (BitVec.ofNat 64 n) (s.th.sTaint a) 0)
    ∧ (∃ n : Nat, n ≤ 64 ∧ (∀ i, i < n → (s.th.sr a).getLsbD i = false)
      ∧ (n < 64 → (s.th.sr a).getLsbD n = true)
      ∧ Gives (exec (.ctz d a) s) fun t => WritesS s t d (BitVec.ofNat 64 n) (s.th.sTaint a) 0)
    ∧ Gives (exec (.popc d a) s) fun t => WritesS s t d (BitVec.ofNat 64 (onesBelow (s.th.sr a) 64)) (s.th.sTaint a) 0

/-- The immediate forms of Table 10.4. LI carries no taint, LIM keeps the taint of s[d]. -/
def ImmediateResults : Prop :=
  ∀ (d a : BitVec 6) (i : BitVec 14) (n : BitVec 6) (l : BitVec 20) (s : State), AtControl s →
    let x := s.th.sr a
    let tn := s.th.sTaint a
    Gives (exec (.addi d a i) s) (fun t => WritesS s t d (x + i.signExtend 64) tn 0)
    ∧ Gives (exec (.andi d a i) s) (fun t => WritesS s t d (x &&& i.setWidth 64) tn 0)
    ∧ Gives (exec (.ori d a i) s) (fun t => WritesS s t d (x ||| i.setWidth 64) tn 0)
    ∧ Gives (exec (.xori d a i) s) (fun t => WritesS s t d (x ^^^ i.setWidth 64) tn 0)
    ∧ Gives (exec (.slti d a i) s) (fun t => WritesS s t d (if x.toInt < i.toInt then 1 else 0) tn 0)
    ∧ Gives (exec (.slli d a n) s) (fun t => WritesS s t d (BitVec.ofNat 64 (x.toNat * 2 ^ n.toNat)) tn 0)
    ∧ Gives (exec (.srli d a n) s) (fun t => WritesS s t d (BitVec.ofNat 64 (x.toNat / 2 ^ n.toNat)) tn 0)
    ∧ Gives (exec (.srai d a n) s) (fun t => WritesS s t d (BitVec.ofInt 64 (x.toInt / 2 ^ n.toNat)) tn 0)
    ∧ Gives (exec (.rori d a n) s) (fun t => WritesS s t d ((x >>> n.toNat) ||| (x <<< (64 - n.toNat))) tn 0)
    ∧ Gives (exec (.li d l) s) (fun t => WritesS s t d (l.signExtend 64) 0 0)
    ∧ Gives (exec (.lim d l) s) (fun t => WritesS s t d ((s.th.sr d <<< 20) ||| l.setWidth 64) (s.th.sTaint d) 0)

/-- The conditions of R220. -/
def branchTable : List ((BitVec 6 → BitVec 6 → BitVec 14 → Instr) × (Dword → Dword → Bool)) :=
  [(.beq, fun x y => x == y), (.bne, fun x y => x != y),
   (.blt, fun x y => decide (x.toInt < y.toInt)), (.bge, fun x y => decide (y.toInt ≤ x.toInt)),
   (.bltn, fun x y => decide (x.toNat < y.toNat)), (.bgen, fun x y => decide (y.toNat ≤ x.toNat))]

/-- A branch goes to PC + 4 × sext(offset) when its condition holds and to PC + 4 otherwise; either way both operands' taint
sets join the control taint, and nothing else changes. -/
def BranchResults : Prop :=
  ∀ p ∈ branchTable, ∀ (a b : BitVec 6) (o : BitVec 14) (s : State), AtControl s →
    Gives (exec (p.1 a b o) s) fun t => SameMemory s t ∧
      GoesTo s t (if p.2 (s.th.sr a) (s.th.sr b) then s.th.pc + 4 * o.signExtend 64 else s.th.pc + 4)
        (s.th.sTaint a ||| s.th.sTaint b)

/-- JAL writes PC + 4 and jumps; JALR with a word-aligned target writes PC + 4, jumps, and adds the taint of s[a] to the
control taint. The value written carries no taint. -/
def JumpResults : Prop :=
  ∀ (d a : BitVec 6) (o : BitVec 20) (i : BitVec 14) (s : State), AtControl s →
    (Gives (exec (.jal d o) s) fun t => SameMemory s t ∧
      t = { s with th := { s.th.setS d (s.th.pc + 4) 0 with pc := s.th.pc + 4 * o.signExtend 64 } })
    ∧ ((s.th.sr a + i.signExtend 64).toNat % 4 = 0 →
      Gives (exec (.jalr d a i) s) fun t => SameMemory s t ∧
        t = { s with th := { (s.th.addCtl (s.th.sTaint a)).setS d (s.th.pc + 4) 0 with
          pc := s.th.sr a + i.signExtend 64 } })

/-! ### Scalar floating point: 10 R222, R223 -/

/-- Float operations of two f-registers (Table 10.6). FSIGNOF takes only the sign bit that f[b] holds, whatever it holds. -/
def floatTable2 : List ((BitVec 5 → BitVec 5 → BitVec 5 → Bool → Instr) × (Fmt → BitVec 3 → FOpd → FOpd → FOut)) :=
  [(.fadd, opAdd), (.fsub, opSub), (.fmul, opMul), (.fdiv, opDiv),
   (.fmin, fun f _ x y => opMinMax f true x y), (.fmax, fun f _ x y => opMinMax f false x y)]

/-- The fused operations (R223): whether the product and whether the addend changes sign. -/
def fusedTable : List ((BitVec 5 → BitVec 5 → BitVec 5 → BitVec 5 → Bool → Instr) × Bool × Bool) :=
  [(.fma, false, false), (.fms, false, true), (.fnma, true, false), (.fnms, true, true)]

/-- The operand an f-register gives an operation of a width, and the flags of its conversion (R156). -/
def operand (s : State) (r : BitVec 5) (w : Bool) : FOpd × Flags := (s.th.fr r).opd (!w) (modeRnd s.th.mode)

/-- The format of an operation: binary32 under `.W`. -/
def width (w : Bool) : Fmt := if w then .b32 else .b64

/-- A float result written: WritesF, unless TTRAP is on and the count is below TMIN; then the result is written all the same,
the PC moves on, and SIGLOSS is raised there (R187, R222). -/
def FloatResult (s : State) (o : Out) (d : BitVec 5) (v : FReg) (tn : Taint) (fl : Flags) : Prop :=
  if modeTtrap s.th.mode = true ∧ v.trust.toNat < (modeTmin s.th.mode).toNat then
    ∃ u, WritesF s u d v tn fl ∧
      o = .next (u.raise { TrapInfo.mk0 cSIGLOSS 0 with count := 1 })
  else Gives o fun t => WritesF s t d v tn fl

/-- A float result as an f-register of the operation's width. -/
def asReg (r : FOut) (w : Bool) : FReg := ⟨BitVec.ofNat 64 r.bits, BitVec.ofNat 6 r.t, w⟩

end Sys2Proof

/-- FADD, FSUB, FMUL, FDIV, FMIN, FMAX and the fused forms: the correctly rounded result of the operands in the operation's
width, its trust count, the flags of the conversions and of the operation. -/
def Obligations.FloatResults : Prop :=
  (∀ p ∈ floatTable2, ∀ (d a b : BitVec 5) (w : Bool) (s : State), AtControl s →
    let r := p.2 (width w) (modeRnd s.th.mode) (operand s a w).1 (operand s b w).1
    FloatResult s (exec (p.1 d a b w) s) d (asReg r w) (s.th.fTaint a ||| s.th.fTaint b)
      ((operand s a w).2 ||| (operand s b w).2 ||| r.flags))
  ∧ (∀ p ∈ fusedTable, ∀ (d a b c : BitVec 5) (w : Bool) (s : State), AtControl s →
    let r := opFma (width w) (modeRnd s.th.mode) p.2.1 p.2.2 (operand s a w).1 (operand s b w).1 (operand s c w).1
    FloatResult s (exec (p.1 d a b c w) s) d (asReg r w) (s.th.fTaint a ||| s.th.fTaint b ||| s.th.fTaint c)
      ((operand s a w).2 ||| (operand s b w).2 ||| (operand s c w).2 ||| r.flags))

namespace Sys2Proof

/-- The sign bit of what an f-register holds: bit 31 of a binary32 value, bit 63 of a binary64 value. -/
def signOf (r : FReg) : Bool := if r.ft then r.bits.getLsbD 31 else r.bits.getLsbD 63

/-- FSQRT, the sign operations, FWIDEN and FNARROW. A NaN sets no flag in a sign operation. -/
def FloatUnaryResults : Prop :=
  ∀ (d a b : BitVec 5) (w : Bool) (s : State), AtControl s →
    let x := operand s a w
    let rm := modeRnd s.th.mode
    let sign (neg : Bool) := opSign (width w) neg x.1
    let fl (r : FOut) : Flags := if x.1.val.isNan then 0 else x.2 ||| r.flags
    let q := opSqrt (width w) rm x.1
    let wide := opConv .b64 rm (operand s a true).1
    let narrow := opConv .b32 rm (operand s a false).1
    FloatResult s (exec (.fsqrt d a w) s) d (asReg q w) (s.th.fTaint a) (x.2 ||| q.flags)
    ∧ FloatResult s (exec (.fabs d a w) s) d (asReg (sign false) w) (s.th.fTaint a) (fl (sign false))
    ∧ FloatResult s (exec (.fneg d a w) s) d (asReg (sign (!signOf (s.th.fr a))) w) (s.th.fTaint a)
        (fl (sign (!signOf (s.th.fr a))))
    ∧ FloatResult s (exec (.fsignof d a b w) s) d (asReg (sign (signOf (s.th.fr b))) w)
        (s.th.fTaint a ||| s.th.fTaint b) (fl (sign (signOf (s.th.fr b))))
    ∧ FloatResult s (exec (.fwiden d a) s) d (asReg wide false) (s.th.fTaint a) ((operand s a true).2 ||| wide.flags)
    ∧ FloatResult s (exec (.fnarrow d a) s) d (asReg narrow true) (s.th.fTaint a) ((operand s a false).2 ||| narrow.flags)

/-- The compares and moves between the files (Table 10.6): FEQ, FLT and FLE write 1 or 0, false with a NaN; FCVTI saturates;
FMVSF and FMVFS move bits; FTRUST reads a count; FTRSET sets it to min(s[b], P) and never raises SIGLOSS. -/
def FloatMoveResults : Prop :=
  ∀ (d a b : BitVec 5) (e c : BitVec 6) (w : Bool) (s : State), AtControl s →
    let x := operand s a w
    let y := operand s b w
    let tn := s.th.fTaint a ||| s.th.fTaint b
    let ordered := !x.1.val.isNan && !y.1.val.isNan
    let cmp := fCompare x.1.val y.1.val
    let bit (q : Bool) : Dword := if q then 1 else 0
    let quiet : Flags := snanFlag [x.1.val, y.1.val]
    let signal : Flags := if ordered then 0 else fNV
    let toInt := opToInt 64 true (modeRnd s.th.mode) x.1.val
    let ofInt := opOfInt (width w) (modeRnd s.th.mode) (s.th.sr c).toInt
    let moved : Dword := if w then ((s.th.sr c).setWidth 32).setWidth 64 else s.th.sr c
    let kind := (width w).read moved.toNat
    Gives (exec (.feq e a b w) s) (fun t =>
        WritesS s t e (bit (ordered && cmp == .eq)) tn (x.2 ||| y.2 ||| if ordered then 0 else quiet))
    ∧ Gives (exec (.flt e a b w) s) (fun t => WritesS s t e (bit (ordered && cmp == .lt)) tn (x.2 ||| y.2 ||| signal))
    ∧ Gives (exec (.fle e a b w) s) (fun t => WritesS s t e (bit (ordered && cmp != .gt)) tn (x.2 ||| y.2 ||| signal))
    ∧ Gives (exec (.fcvti e a w) s) (fun t =>
        WritesS s t e (BitVec.ofNat 64 toInt.1) (s.th.fTaint a) (x.2 ||| toInt.2))
    ∧ Gives (exec (.fmvsf e a w) s) (fun t =>
        WritesS s t e (if w then ((s.th.fr a).bits.setWidth 32).setWidth 64 else (s.th.fr a).bits) (s.th.fTaint a) 0)
    ∧ Gives (exec (.ftrust e a w) s) (fun t => WritesS s t e (BitVec.ofNat 64 x.1.t) (s.th.fTaint a) x.2)
    ∧ Gives (exec (.ftrset d a c w) s) (fun t =>
        WritesF s t d ⟨BitVec.ofNat 64 x.1.bits, BitVec.ofNat 6 (min (s.th.sr c).toNat (width w).prec), w⟩
          (s.th.fTaint a ||| s.th.sTaint c) x.2)
    ∧ FloatResult s (exec (.fcvtf d c w) s) d (asReg ofInt w) (s.th.sTaint c) ofInt.flags
    ∧ FloatResult s (exec (.fmvfs d c w) s) d
        ⟨moved, if kind.isNan || kind.isInf then 0 else BitVec.ofNat 6 (width w).prec, w⟩ (s.th.sTaint c) 0

/-! ### Memory: 10 R219, R224, R225, 05 R112 to R115, 04 R89, R90, 03 R78, R79, 16 R345 -/

/-- Nothing that the thread has stored or added waits to be performed. -/
def NothingWaits (s : State) : Prop := s.own s.th = [] ∧ ∀ r ∈ s.sliceQ, r.tid ≠ s.th.tid

/-- A read of resolved pieces that no device-class ordering holds up. -/
def ReadReady (s : State) (ps : List Piece) : Prop := anyDevice ps = true → NothingWaits s

/-- The bytes that the thread in focus reads at resolved pieces. -/
def bytesRead (s : State) (ps : List Piece) : List Byte := ((s.beforeRead false ps).readPieces false .read ps).2

/-- A byte of a translation entry that an access uses (R44, R45). -/
def LeafByte (ps : List Piece) (a : Nat) : Prop :=
  ∃ p ∈ ps, ∃ x, p.xl = some x ∧ x.leafAt ≤ a ∧ a < x.leafAt + 8

/-- A home byte that a dirty byte of a core's L1 is written back to (R66, R71). -/
def DirtyByte (s : State) (core : BitVec 12) (a : Nat) : Prop :=
  ∃ set way i, set < 256 ∧ way ≤ 12 ∧ i < 128 ∧
    let w := s.l1At core set way
    w.valid ≠ 0 ∧ w.dirty.getLsbD i = true ∧
      (if w.repl = 0 then a = l1Addr set w + i else ∃ k < 2 ^ w.repl.toNat, a = replicaAddr w.home w.repl k + i)

/-- A byte that a write queued at the coordinator of its replicated line puts into a replica (R71): a read of the line comes after
it (R72). -/
def QueuedByte (s : State) (a : Nat) : Prop :=
  ∃ r ∈ s.repQ, ∃ k < 2 ^ r.repl.toNat, replicaAddr r.pa r.repl k ≤ a ∧ a < replicaAddr r.pa r.repl k + r.bytes.length

/-- What a load leaves: every byte reads at its home as it did, apart from the bits of the translation entries, the dirty bytes that
the core's L1 puts back to their homes and the writes already queued at a line's coordinator; the rows, tags and arrival words; of
the thread only the PC, the registers of the destination's file, the outstanding identifier, the pinned rows, the plies it wakes
(R14) and what a store performed on its line changes (R212). -/
structure Loaded (s t : State) (ps : List Piece) (id : BitVec 4) : Prop where
  memory : ∀ a, ¬ LeafByte ps a → ¬ DirtyByte s s.th.tid.core a → ¬ QueuedByte s a → t.homeByte a = s.homeByte a
  stores : t.rows = s.rows ∧ t.tags = s.tags ∧ t.arr = s.arr
  plies : ∀ j, t.th.plyAt j = { s.th.plyAt j with drowsy := (t.th.plyAt j).drowsy }
  thread : t.th = { s.th with
    pc := s.th.pc + 4, s := t.th.s, f := t.th.f,
    taints := { s.th.taints with s := t.th.taints.s, f := t.th.taints.f },
    out := s.th.out ++ [⟨id, false, none⟩], strip := t.th.strip, event := t.th.event, sleep := t.th.sleep,
    plies := t.th.plies }

/-- The scalar loads: their bytes, and whether the value is sign-extended (Table 10.5). -/
def loadTable : List ((BitVec 6 → BitVec 6 → BitVec 14 → Instr) × Nat × Bool) :=
  [(.ldb, 1, true), (.ldh, 2, true), (.ldw, 4, true), (.ldd, 8, true), (.ldbn, 1, false), (.ldhn, 2, false),
   (.ldwn, 4, false)]

/-- A load whose address resolves, with an identifier free, writes the bytes read, extended, with that identifier as the
taint; s0 discards the value. FLDD and FLDW write the bits with T = 53 and T = 24. -/
def LoadResults : Prop :=
  (∀ p ∈ loadTable, ∀ (d a : BitVec 6) (i : BitVec 14) (s : State) (ps : List Piece) (id : BitVec 4), AtControl s →
    s.resolve s.th .read (s.th.sr a + i.signExtend 64) p.2.1 (p.2.1 == 8) = .ok ps → s.th.freeId = some id →
    ReadReady s ps →
    Gives (exec (p.1 d a i) s) fun t => Loaded s t ps id ∧ t.th.f = s.th.f ∧
      let raw := BitVec.ofNat (8 * p.2.1) (leVal (bytesRead s ps))
      let v : Dword := if p.2.2 then raw.signExtend 64 else raw.setWidth 64
      (∀ r, t.th.sr r = if r = 0 then 0 else if r = d then v else s.th.sr r)
      ∧ (∀ r, t.th.sTaint r = if r = 0 then 0 else if r = d then idSet id else s.th.sTaint r))
  ∧ (∀ (d : BitVec 5) (a : BitVec 6) (i : BitVec 14) (wide : Bool) (s : State) (ps : List Piece) (id : BitVec 4),
    AtControl s → s.resolve s.th .read (s.th.sr a + i.signExtend 64) (if wide then 8 else 4) wide = .ok ps →
    s.th.freeId = some id → ReadReady s ps →
    Gives (exec (if wide then .fldd d a i else .fldw d a i) s) fun t => Loaded s t ps id ∧ t.th.s = s.th.s ∧
      (∀ r, t.th.fr r = if r = d then
        ⟨BitVec.ofNat 64 (leVal (bytesRead s ps)), if wide then 53 else 24, !wide⟩ else s.th.fr r)
      ∧ (∀ r, t.th.fTaint r = if r = d then idSet id else s.th.fTaint r))

/-- What a read finds at a place before the thread's own unperformed stores are laid over it: the bytes of the home slice at a page
that is not cached, which of a host line that the slice holds are the slice's own (R63), a row's bytes, an arrival word; and of a cached line each byte that the core's L1 holds as valid (R66). -/
def ReadPlaces : Prop :=
  ∀ (s : State) (pa n : Nat) (core p : BitVec 12) (y : BitVec 7) (k : Nat),
    ((∀ i < n, isHost (pa + i) = isHost pa) →
      (s.placeRead (.mem pa false 0) n).2 = (List.range n).map fun i => s.homeByte (pa + i))
    ∧ (s.placeRead (.row core p y) n).2
        = (List.range n).map (fun i => (s.rowAt (rowKey core p.toNat)).extractLsb' (8 * (y.toNat + i)) 8)
    ∧ leVal (s.placeRead (.arr k) n).2 = (look 0 s.arr k).toNat
    ∧ (∀ way, s.l1Find s.th.tid.core pa = some way →
        let w := s.l1At s.th.tid.core (pa / 128 % 256) way
        ∀ i, i < n → pa % 128 + n ≤ 128 → byteMask (pa % 128) n &&& ~~~ w.valid = 0 →
          (s.placeRead (.mem pa true 0) n).2[i]? = some (w.data.extractLsb' (8 * (pa % 128 + i)) 8))

/-- The entries a scalar store of bytes puts into the strip store buffer, one for each piece, in address order (R345): of the scalar
stream, not yet seen by the vector stream (R102), each with the page it was translated by (R57). -/
def entries : List Piece → List Byte → List Buffered
  | [], _ => []
  | p :: ps, bs => ⟨false, false, p.xl.map (·.key), p.place, .write (bs.take p.len)⟩ :: entries ps (bs.drop p.len)

/-- What a store leaves: it is the youngest of the thread's unperformed stores; memory changes only in translation entries,
rows, tags and arrival words not at all; a row of the view is marked dirty in the tag table (Table 3.5); of the thread nothing else changes
but what it learns of a translation entry that it watches (R212). -/
structure Stored (s t : State) (ps : List Piece) (bs : List Byte) (fl : Flags) : Prop where
  own : t.own t.th = s.own s.th ++ entries ps bs
  memory : ∀ a, ¬ LeafByte ps a → t.homeByte a = s.homeByte a
  stores : t.rows = s.rows ∧ t.tags = s.tags ∧ t.arr = s.arr ∧ t.l1 = s.l1
  thread : t.th = { s.th with
    pc := s.th.pc + 4, flags := s.th.flags ||| fl, strip := t.th.strip, sptab := t.th.sptab, event := t.th.event,
    sleep := t.th.sleep }

/-- The scalar stores and their bytes. -/
def storeTable : List ((BitVec 6 → BitVec 6 → BitVec 14 → Instr) × Nat) :=
  [(.stb, 1), (.sth, 2), (.stw, 4), (.std, 8)]

end Sys2Proof

/-- A store whose address resolves puts the low bytes of s[d], least significant first, into the strip store buffer. FSTD and
FSTW store f[d] converted to binary64 and binary32; a NaN sets no flag. -/
def Obligations.StoreResults : Prop :=
  (∀ p ∈ storeTable, ∀ (d a : BitVec 6) (i : BitVec 14) (s : State) (ps : List Piece), AtControl s →
    s.resolve s.th .write (s.th.sr a + i.signExtend 64) p.2 false = .ok ps →
    Gives (exec (p.1 d a i) s) fun t => Stored s t ps (leBytes p.2 (s.th.sr d).toNat) 0)
  ∧ (∀ (d : BitVec 5) (a : BitVec 6) (i : BitVec 14) (wide : Bool) (s : State) (ps : List Piece), AtControl s →
    s.resolve s.th .write (s.th.sr a + i.signExtend 64) (if wide then 8 else 4) false = .ok ps →
    let x := (s.th.fr d).opd wide (modeRnd s.th.mode)
    Gives (exec (if wide then .fstd d a i else .fstw d a i) s) fun t =>
      Stored s t ps (leBytes (if wide then 8 else 4) x.1.bits) (if x.1.val.isNan then 0 else x.2))

namespace Sys2Proof

/-- What an atomic operation leaves of a thread: the PC, s-registers, their taints, the identifier with its acquire walk, the
line it watches, and what a write performed on that line or row changes. -/
def AtomThread (u t : State) (id : BitVec 4) (obj : Option Binding) (q : Place) : Prop :=
  t.th = { u.th with
    pc := u.th.pc + 4, s := t.th.s, taints := { u.th.taints with s := t.th.taints.s },
    out := u.th.out ++ [⟨id, false, some obj⟩], line := some q.line,
    strip := t.th.strip, sptab := t.th.sptab, event := t.th.event, sleep := t.th.sleep, plies := t.th.plies }

/-- A byte that a write queued at the coordinator of one of the lines that n bytes reach puts into a replica: a write to the line
comes after it (R71). -/
def QueuedAt (s : State) (pa n a : Nat) : Prop :=
  ∃ r ∈ s.repQ, memLine pa ≤ memLine r.pa ∧ memLine r.pa ≤ memLine (pa + n - 1)
    ∧ ∃ k < 2 ^ r.repl.toNat, replicaAddr r.pa r.repl k ≤ a ∧ a < replicaAddr r.pa r.repl k + r.bytes.length

/-- A place holds bytes in t, at a replicated page in every replica (R71), and all other bytes of the machine's memory, rows and arrival
words stand as in u, but for the writes that the coordinator of a replicated line has taken before. -/
def PlaceHolds (u t : State) (q : Place) (bs : List Byte) : Prop :=
  match q with
  | .mem pa _ repl => t.regs = u.regs ∧ t.rows = u.rows ∧ t.arr = u.arr
      ∧ (repl = 0 →
        ((∀ i < bs.length, isHost (pa + i) = isHost pa) → ∀ i, i < bs.length → some (t.homeByte (pa + i)) = bs[i]?)
        ∧ (∀ a, a < pa ∨ pa + bs.length ≤ a → t.homeByte a = u.homeByte a))
      ∧ (repl ≠ 0 →
        (∀ k < 2 ^ repl.toNat, (∀ i < bs.length, isHost (replicaAddr pa repl k + i) = false) →
          ∀ i, i < bs.length → some (t.homeByte (replicaAddr pa repl k + i)) = bs[i]?)
        ∧ (∀ a, (∀ k < 2 ^ repl.toNat, a < replicaAddr pa repl k ∨ replicaAddr pa repl k + bs.length ≤ a) →
          ¬ QueuedAt u pa bs.length a → t.homeByte a = u.homeByte a))
  | .row c p y =>
      (∀ k, k ≠ rowKey c p.toNat → t.rowAt k = u.rowAt k) ∧ t.mem = u.mem ∧ t.arr = u.arr ∧ t.regs = u.regs
        ∧ t.rowAt (rowKey c p.toNat) = rowSetBytes (u.rowAt (rowKey c p.toNat)) y.toNat bs
  | .arr k => look 0 t.arr k = BitVec.ofNat 64 (leVal bs) ∧ (∀ j, j ≠ k → look 0 t.arr j = look 0 u.arr j)
      ∧ t.mem = u.mem ∧ t.rows = u.rows ∧ t.regs = u.regs
  | .dev _ => True

/-- The AMOs of Table 5.2: the new value of n bits from the old value, the operand s[b] and, for AMOCAS, s[d]. -/
def amoTable :
    List ((BitVec 6 → BitVec 6 → BitVec 6 → Bool → Instr) × (Nat → Nat → Nat → Nat → Nat)) :=
  [(.amoadd, fun n old x _ => (old + x) % 2 ^ n), (.amoswap, fun _ _ x _ => x),
   (.amocas, fun _ old x c => if old = c then x else old),
   (.amomin, fun n old x _ =>
      if (BitVec.ofNat n x).toInt < (BitVec.ofNat n old).toInt then x else old),
   (.amomax, fun n old x _ =>
      if (BitVec.ofNat n old).toInt < (BitVec.ofNat n x).toInt then x else old),
   (.amominn, fun _ old x _ => min old x), (.amomaxn, fun _ old x _ => max old x),
   (.amoand, fun _ old x _ => old &&& x), (.amoor, fun _ old x _ => old ||| x), (.amoxor, fun _ old x _ => old ^^^ x)]

end Sys2Proof

/-- An aligned AMO whose address resolves, with an identifier free, no other thread's turn on its line and no earlier collective
that its release waits for, first makes its release (R91), then reads the old value at the place, writes the new one there and gives s[d] the old value sign-extended. -/
def Obligations.AmoResults : Prop :=
  ∀ p ∈ amoTable, ∀ (d a b : BitVec 6) (w : Bool) (s : State) (ps : List Piece) (id : BitVec 4), AtControl s →
    let n := if w then 4 else 8
    let va := s.th.sr a
    let q := onePlace ps
    va.toNat % n = 0 → s.resolve s.th .amo va n (!w) = .ok ps → s.th.freeId = some id →
    s.turnHeld s.th.tid q = false → s.linesFree s.th = true → s.releaseWaits s.th (scopeOf (s.bindingOf va)) = false →
    let u := (ps.foldl (fun s x => s.installPiece .amo x) (s.release (s.bindingOf va))).atomRead q n
    let old := u.2
    let new := p.2 (8 * n) old ((s.th.sr b).toNat % 2 ^ (8 * n)) ((s.th.sr d).toNat % 2 ^ (8 * n))
    Gives (exec (p.1 d a b w) s) fun t =>
      PlaceHolds u.1 t q (leBytes n new) ∧ AtomThread u.1 t id (s.bindingOf va) q ∧
      (∀ r, t.th.sr r = if r = 0 then 0 else if r = d then (BitVec.ofNat (8 * n) old).signExtend 64 else u.1.th.sr r)
      ∧ (∀ r, t.th.sTaint r = if r = 0 then 0 else if r = d then idSet id else u.1.th.sTaint r)

namespace Sys2Proof

/-- LDACQ reads a dword at the point of coherence of the object's scope; its identifier retires with the acquire's walk.
STREL makes its release, then writes s[b] there: at the home for a scope wider than core, in the L1 for core scope. -/
def AcquireReleaseResults : Prop :=
  (∀ (d a : BitVec 6) (s : State) (ps : List Piece) (id : BitVec 4), AtControl s →
    let va := s.th.sr a
    let q := onePlace ps
    va.toNat % 8 = 0 → s.resolve s.th .read va 8 true = .ok ps → s.th.freeId = some id →
    let u := (ps.foldl (fun s x => s.installPiece .read x) (s.beforeRead false ps)).coherentRead
      (scopeOf (s.bindingOf va)) q
    let v := BitVec.ofNat 64 (leVal (overlay (u.1.ownOf u.1.th false) q u.2))
    Gives (exec (.ldacq d a) s) fun t => SameOutside u.1 t ∧ AtomThread u.1 t id (s.bindingOf va) q
      ∧ (∀ r, t.th.sr r = if r = 0 then 0 else if r = d then v else u.1.th.sr r)
      ∧ (∀ r, t.th.sTaint r = if r = 0 then 0 else if r = d then idSet id else u.1.th.sTaint r))
  ∧ (∀ (a b : BitVec 6) (s : State) (ps : List Piece), AtControl s →
    let va := s.th.sr a
    let q := onePlace ps
    let bs := leBytes 8 (s.th.sr b).toNat
    va.toNat % 8 = 0 → s.resolve s.th .write va 8 false = .ok ps →
    s.turnHeld s.th.tid q = false → s.linesFree s.th = true → s.releaseWaits s.th (scopeOf (s.bindingOf va)) = false →
    let u := ps.foldl (fun s x => s.installPiece .write x) (s.release (s.bindingOf va))
    Gives (exec (.strel a b) s) fun t =>
      (match q with
        | .mem pa cached repl =>
          if scopeOf (s.bindingOf va) = 0 ∧ cached = true then
            t.l1 = (u.l1Write s.th.tid.core s.th.tid.slot pa repl bs).l1
          else PlaceHolds u t q bs
        | _ => PlaceHolds u t q bs) ∧
      ((∀ pa, q ≠ .dev pa) → t.th = { u.th with
        pc := u.th.pc + 4, sptab := t.th.sptab, event := t.th.event, sleep := t.th.sleep, plies := t.th.plies }))

/-- BIND with a well-formed descriptor and an entry free gives the object's entry the scope and ranges read, and s[d] the
entry's number; other objects keep their entries. UNBIND removes the object's entry, if there is one. -/
def BindResults : Prop :=
  (∀ (d a b : BitVec 6) (s u : State) (d0 : Dword) (ds : List Dword) (i : Nat), AtControl s →
    let obj := s.th.sr a
    let rs := pairUp ds
    obj.toNat % 8 = 0 → (s.th.sr b).toNat % 8 = 0 → s.readDescriptor (s.th.sr b) = .ok (u, d0, ds) →
    d0.extractLsb' 6 58 = 0 → d0.getLsbD 3 = false → (d0.extractLsb' 0 3).toNat ≤ 4 →
    (∀ x ∈ rs, rangeOk x.1 x.2 = true) → (s.th.priv = true ∨ ∀ x ∈ rs, regionOf x.1.toNat ≠ .sup) →
    (s.ctxAt s.th.ctx).bindSlot obj = some i →
    let new : Ctx := (s.ctxAt s.th.ctx).bindPut i ⟨obj, d0.extractLsb' 0 3, rs⟩
    Gives (exec (.bind d a b) s) fun t => t.ctxAt s.th.ctx = new ∧ t.mem = u.mem ∧
      (∀ c, c ≠ s.th.ctx → t.ctxAt c = u.ctxAt c) ∧
      t.th = { u.th.setS d (BitVec.ofNat 64 i) 0 with
        pc := u.th.pc + 4, strip := { u.th.strip with rewindable := false } })
  ∧ (∀ (a : BitVec 6) (s : State), AtControl s →
    Gives (exec (.unbind a) s) fun t => SameMemory s t ∧
      (t.ctxAt s.th.ctx).bindings = (s.ctxAt s.th.ctx).bindings.filter (fun x => x.2.object ≠ s.th.sr a) ∧
      (∀ c, c ≠ s.th.ctx → t.ctxAt c = s.ctxAt c) ∧
      t.th = { s.th with pc := s.th.pc + 4, strip := { s.th.strip with rewindable := false } })

end Sys2Proof

/-- R78: a hit gives the view address of the byte and makes the entry the most recent; a miss gives the victim with bit 63 set.
PREFETCH moves nothing but the PC and the caches. -/
def Obligations.ScratchpadResults : Prop :=
  ∀ (d a : BitVec 6) (s : State), AtControl s →
    let t0 := s.th
    let size := 2 ^ t0.blockLog
    let va := (t0.sr a).toNat % 2 ^ 56
    let holds (i : Nat) := spV (t0.spAt i) = true ∧ spTag (t0.spAt i) = va / size * size
    (∀ i < 256, holds i → (∀ j < i, ¬ holds j) →
      Gives (exec (.splook d a) s) fun t => SameMemory s t ∧
        t = { s with th := ((t0.setS d (BitVec.ofNat 64 (0x007FFFFF00000000 + size * i + va % size)) (t0.sTaint a)).spTouch
          i).advance })
    ∧ ((∀ i < 256, ¬ holds i) →
      Gives (exec (.splook d a) s) fun t => SameMemory s t ∧
        t = { s with th := (t0.setS d (0x8000000000000000 + BitVec.ofNat 64
          (256 * (if t0.spVictim.2 then 1 else 0) + t0.spVictim.1)) (t0.sTaint a)).advance })
    ∧ Gives (exec (.prefetch a) s) fun t =>
        t.rows = s.rows ∧ t.tags = s.tags ∧ t.arr = s.arr ∧
        t.th = { s.th with pc := s.th.pc + 4, event := t.th.event, sleep := t.th.sleep } ∧
        ∀ x, (∀ ps, s.resolve s.th .read (t0.sr a) 1 false = .ok ps → ¬ LeafByte ps x) →
          ¬ DirtyByte s s.th.tid.core x → ¬ QueuedByte s x → t.homeByte x = s.homeByte x

/-! ### Arrival words: 05 R117 to R124 -/

namespace Sys2Proof

/-- R118: the image after an arrival of n bytes, and whether it is an ARRIVAL-OVERRUN. -/
def arrived (v : Dword) (n : Nat) : Dword × Bool :=
  let sum := arrCount v + n
  let k := sum / arrTarget v
  if n = 0 then (v, false)
  else if arrTarget v = 0 then (v, true)
  else (BitVec.ofNat 8 ((arrGen v).toNat + k) ++ BitVec.ofNat 28 (arrTarget v) ++ BitVec.ofNat 28 (sum % arrTarget v),
    decide (2 ≤ k) || (decide (k = 1) && decide (sum % arrTarget v ≠ 0)))

/-- An arrival word holds an image in t; every other byte of memory and every other word of the arrival-word pages stands as
in u. -/
def WordHolds (u t : State) (p : ArrPlace) (v : Dword) : Prop :=
  t.arrImage p = v ∧ t.rows = u.rows ∧ t.regs = u.regs ∧
  match p with
  | .page c cl w => t.mem = u.mem ∧ ∀ k, k ≠ arrKey c cl w → look 0 t.arr k = look 0 u.arr k
  | .mem pa => t.arr = u.arr ∧ ∀ a, a < pa ∨ pa + 8 ≤ a → memByte t.mem a = memByte u.mem a
  | .fabric _ => True

/-- What an arrival instruction that completes leaves of its thread: s[d] holds the image with the identifier as taint. -/
def ArrThread (u t : State) (d : BitVec 6) (v : Dword) (id : BitVec 4) (acq : Option (Option Binding)) : Prop :=
  t.th = { u.th with
    pc := u.th.pc + 4, s := t.th.s, taints := { u.th.taints with s := t.th.taints.s },
    out := u.th.out ++ [⟨id, false, acq⟩], line := t.th.line, strip := t.th.strip, event := t.th.event,
    sleep := t.th.sleep }
  ∧ (∀ r, t.th.sr r = if r = 0 then 0 else if r = d then v else u.th.sr r)
  ∧ ∀ r, t.th.sTaint r = if r = 0 then 0 else if r = d then idSet id else u.th.sTaint r

/-- The image of an arrival word as its thread reads it: its own stores that are not performed yet are laid over it (R101). -/
def ownImage (u : State) (p : ArrPlace) : Dword :=
  BitVec.ofNat 64 (leVal (overlay (u.ownOf u.th false) p.place (leBytes 8 (u.arrImage p).toNat)))

end Sys2Proof

/-- Aligned arrival instructions on a word that R117 allows, an identifier free, no other thread's turn in the way. ARRINIT sets
TARGET and clears COUNT, over the thread's own earlier stores to the word; ARRADD, where no earlier collective holds up its release, makes its release, applies an arrival, and takes ARRIVAL-OVERRUN after it completes; ARRWAIT
commits, returns the image when GEN differs and sleeps at its own address when it does not. All return the previous image. -/
def Obligations.ArrivalResults : Prop :=
  ∀ (d a b : BitVec 6) (s : State) (p : ArrPlace) (x : Option Xl) (id : BitVec 4), AtControl s →
    let va := s.th.sr a
    let n := (s.th.sr b).toNat % 2 ^ 28
    let obj := s.bindingOf va
    va.toNat % 8 = 0 → (∀ f, p ≠ .fabric f) → s.th.freeId = some id →
    s.turnHeld s.th.tid p.place = false → s.linesFree s.th = true →
    (s.arrPlace s.th .amo va = .ok (p, x) →
      let u := s.installArr .amo va x
      let v := ownImage u p
      Gives (exec (.arrinit d a b) s) fun t => ∃ w, arrGen w = arrGen v ∧ arrTarget w = n ∧ arrCount w = 0 ∧
        WordHolds u t p w ∧ ArrThread u t d v id none)
    ∧ (s.arrPlace s.th .amo va = .ok (p, x) → s.releaseWaits s.th (scopeOf obj) = false →
      let u := (s.installArr .amo va x).release obj
      let v := u.arrImage p
      ∃ t, WordHolds u t p (arrived v n).1 ∧ ArrThread u t d v id (some obj) ∧
        if (arrived v n).2 then ∃ i, i.code = cARROVR ∧ i.val = va ∧ exec (.arradd d a b) s = .next (t.raise i)
        else exec (.arradd d a b) s = .next t)
    ∧ (s.arrPlace s.th .read va = .ok (p, x) →
      let u := (s.installArr .read va x).commit
      let v := ownImage u p
      Gives (exec (.arrwait d a b) s) fun t => SameOutside u t ∧
        if arrGen v = (s.th.sr b).setWidth 8 then
          t.th = { u.th with sleep := .arrwait, line := some p.place.line }
        else ArrThread u t d v id (some obj) ∧ t.th.sleep = .awake)

/-! ### Pages shared and dropped, translations invalidated: 02 R49 to R52, R57 -/

namespace Sys2Proof

/-- PGSHARE of a page that passes its checks, in its share turn: the destination leaf is written with COW and without V, ACC, DIRTY
and the reserved bits (R7), the source leaf gets COW, the count rises by 1, which the share operations under way on the frame know (R48), and the invalidation of
the source page begins; nothing else of memory changes. A length of 0 pages ends the instruction. -/
def ShareResults : Prop :=
  ∀ (d a b : BitVec 6) (s : State), AtControl s → s.awaitsInval s.th.tid = false →
    let src := s.th.sr a
    let dst := s.th.sr d
    let x := s.th.sr b
    s.mayShare (shareX x) = true → s.shareCheck src (some dst) x = .ok () →
    (sharePages x = 0 → exec (.pgshare d a b) s = .next { s with th := s.th.advance })
    ∧ ∀ (leaf : Dword) (at_ slot : Nat) (big : Bool), sharePages x ≠ 0 →
      let u := s.settle
      let count := shareAddr u.regs.fstbase (pteFRAME leaf)
      let c := u.shareCount (pteFRAME leaf)
      u.th.sr a = src → u.th.sr d = dst → u.th.sr b = x →
      walk u.mem (u.rootFor u.th.ctx src).1 src 4 = .ok (leaf, at_, big) →
      (big = true → src.toNat % 2 ^ 29 = 0 ∧ dst.toNat % 2 ^ 29 = 0 ∧ 8192 ≤ sharePages x) →
      isHbm ((pteFRAME leaf).toNat * 65536) = true →
      slotOf u.mem (if shareX x then u.regs.altroot else (u.rootFor u.th.ctx dst).1) dst big = .free slot →
      0 < c → c < 65535 → (slot + 8 ≤ at_ ∨ at_ + 8 ≤ slot) → (count + 2 ≤ at_ ∨ at_ + 8 ≤ count) →
      (count + 2 ≤ slot ∨ slot + 8 ≤ count) →
      Gives (exec (.pgshare d a b) s) fun t =>
        memDword t.mem slot = (leaf ||| 0x10) &&& ~~~ (0xF00000000000E061 : Dword) ∧ memDword t.mem at_ = leaf ||| 0x10
        ∧ t.shareCount (pteFRAME leaf) = c + 1
        ∧ (∀ p, (p < slot ∨ slot + 8 ≤ p) → (p < at_ ∨ at_ + 8 ≤ p) → (p < count ∨ count + 2 ≤ p) →
            memByte t.mem p = memByte u.mem p)
        ∧ t.inval = (u.inval.map fun i => { i with work := i.work.moved (pteFRAME leaf) (· + 1) })
            ++ [⟨u.th.tid, some (u.rootFor u.th.ctx src).2, src.extractLsb' 16 40,
              if big then 8192 else 1, .share slot leaf big (c + 1), d, a, b⟩]
        ∧ t.th = { u.th with event := t.th.event, sleep := t.th.sleep }

/-- PGDROP of a mapped page clears its leaf and begins the invalidation; over an entry that is not valid it skips what the entry
covers; a length of 0 ends it. TLBINV commits, performs, and begins its invalidation; the PC waits for the end. -/
def DropResults : Prop :=
  ∀ (a b : BitVec 6) (s : State), AtControl s → s.awaitsInval s.th.tid = false →
    let va := s.th.sr a
    let x := s.th.sr b
    let u := s.settle
    (s.mayShare false = true → s.shareCheck va none x = .ok () →
      (sharePages x = 0 → exec (.pgdrop a b) s = .next { s with th := s.th.advance })
      ∧ (sharePages x ≠ 0 → u.th.sr a = va → u.th.sr b = x →
        (∀ (leaf : Dword) (at_ : Nat) (big : Bool),
          walk u.mem (u.rootFor u.th.ctx va).1 va 4 = .ok (leaf, at_, big) →
          (big = true → va.toNat % 2 ^ 29 = 0 ∧ sharePages x % 8192 = 0) →
          (isHbm ((pteFRAME leaf).toNat * 65536) = true → u.shareCount (pteFRAME leaf) = 1 → u.regs.poolFull = false) →
          Gives (exec (.pgdrop a b) s) fun t => memDword t.mem at_ = 0
            ∧ (∀ p, p < at_ ∨ at_ + 8 ≤ p → memByte t.mem p = memByte u.mem p)
            ∧ t.inval = u.inval ++ [⟨u.th.tid, some (u.rootFor u.th.ctx va).2, va.extractLsb' 16 40,
                if big then 8192 else 1,
                .drop at_ leaf big (if isHbm ((pteFRAME leaf).toNat * 65536) = true then u.shareCount (pteFRAME leaf) else 0), 0, a, b⟩]
            ∧ t.th = { u.th with event := t.th.event, sleep := t.th.sleep })
        ∧ (∀ f, walk u.mem (u.rootFor u.th.ctx va).1 va 4 = .error f → f.code = cPGMISS →
          (u.rootFor u.th.ctx va).1.getLsbD 0 = true →
          let unit := if f.level = 3 then 1 else if f.level = 2 then 8192 else 2 ^ 26
          let k := min (sharePages x) (unit - va.toNat / 65536 % unit)
          exec (.pgdrop a b) s = .next { u with th := u.th.shareAdvance false 0 a b k })))
    ∧ ((s.th.priv = true ∨ x.extractLsb' 32 17 = 0) → x.extractLsb' 49 15 = 0 →
      Gives (exec (.tlbinv a b) s) fun t => t.th = u.th ∧ t.mem = u.mem ∧ t.tlb = u.tlb ∧
        ∃ i, t.inval = u.inval ++ [i] ∧ i.tid = s.th.tid ∧ i.page = va.extractLsb' 16 40 ∧ i.count = sharePages x ∧
          i.tag = if s.th.priv = false then some (s.rootFor s.th.ctx 0).2
            else if x.getLsbD 48 then none
            else if x.extractLsb' 32 16 = 0 then some 0xFFFF else some (x.extractLsb' 32 16))

/-! ### Blocks, plies, mode, length, fields, taints and fences: 06, 09 R196, 10 R216, 01 R28, 04 R100, R102 -/

/-- A ply with a block at the end of its queue that holds the copies of R134: MODE, VL, control taint and nf registers. -/
def queued (s : State) (k : Fin 16) (ws : List IWord) (addr : Dword) (one : Bool) : Ply :=
  let b : Block :=
    { seq := s.th.nextSeq, words := ws, addr := addr, one := one, mode := s.th.mode, vl := s.th.vl,
      ctl := s.th.taints.ctl, nf := s.th.nf }
  { s.th.plies[k] with queue := s.th.plies[k].queue ++ [b] }

end Sys2Proof

/-- VFETCH with an aligned address, a well-formed block and room in every queue: each owned ply's queue gets the block, with the
control thread's MODE, VL, control taint and nf registers captured, the words ending in PEND; the PC moves on. (Of the rest of the
thread the fetch can only set the event flag, where a replicated line that it reads had an update under way, R72, R212.) -/
def Obligations.VfetchResults : Prop :=
  ∀ (a : BitVec 6) (i : BitVec 14) (s u : State) (ws : List IWord), AtControl s →
    let addr := (if a = 0 then s.th.pc else s.th.sr a) + 4 * i.signExtend 64
    addr.toNat % 4 = 0 → s.fetchBlock s.th.priv addr = .ok (u, ws) →
    (∀ j < s.th.n, (s.th.plyAt j).queue.length + (if (s.th.plyAt j).run.isSome then 1 else 0) < 4) →
    Gives (exec (.vfetch a i) s) fun t =>
      ws.getLast? = some pendWord ∧ t = { u with th := t.th } ∧ t.rows = s.rows ∧ t.tags = s.tags ∧ t.arr = s.arr ∧
      t.th = { s.th with
        pc := s.th.pc + 4, nextSeq := s.th.nextSeq + 1, plies := t.th.plies, event := t.th.event, sleep := t.th.sleep } ∧
      ∀ k : Fin 16, t.th.plies[k] = if k.val < s.th.n then queued s k ws addr false else s.th.plies[k]

/-- R137: a vector or matrix word in the control stream is dispatched to every owned ply as a block of that one word, and the PC
moves on. What the plies then do is stated of each word by itself. -/
def Obligations.OneWordBlocks : Prop :=
  ∀ (i : Instr) (s : State), AtControl s → (uses i).block = true →
    (∀ k c o, i ≠ .pbr k c o) → (∀ o, i ≠ .pfetch o) → i ≠ .pend → i ≠ .pwait →
    Gives (exec i s) fun t => SameOutside s t ∧ SameMemory s t ∧
      t.th = { s.th with pc := s.th.pc + 4, nextSeq := s.th.nextSeq + 1, plies := t.th.plies } ∧
      ∀ k : Fin 16, t.th.plies[k] = if k.val < s.th.n then queued s k [wordOf i] s.th.pc true else s.th.plies[k]

namespace Sys2Proof

/-- The vector length of Table 6.1 and R131: the request, at most 256n and the ceiling. -/
def lengthFor (s : State) (request : Dword) : Nat := min request.toNat (min (256 * s.th.n) s.th.ceiling.toNat)

end Sys2Proof

/-- SETVL, once its blocks have ended, commits the strip, sets VL and s[d], adds the taint of its register to the control taint,
and opens a strip whose checkpoint holds the PC of the next word, VL, MODE, the s-registers with SCM, which names those it restores, and
EFR0 to EFR31 (R216, R341). MODE replaces MODE, or in a block the ply's copy. FMAP maps or unmaps an
entry; a mapped entry takes the taints of the mapped entries that share its columns. -/
def Obligations.ModeLengthResults : Prop :=
  (∀ (d a : BitVec 6) (n : BitVec 13) (s : State), AtControl s → s.th.blocksEnded = true →
    let effect (i : Instr) (req : Dword) (tn : Taint) := Gives (exec i s) fun t =>
      let vl := BitVec.ofNat 13 (lengthFor s req)
      SameMemory s t ∧ t = { s with th := t.th, drain := s.drain ++ s.th.strip.buf.map fun b => (s.th.tid, b) } ∧
      t.th = { s.th.setS d (vl.setWidth 64) tn with
        pc := s.th.pc + 4, vl := vl, strip := t.th.strip, taints := { (s.th.setS d (vl.setWidth 64) tn).taints with
          ctl := s.th.taints.ctl ||| tn } } ∧
      t.th.strip.buf = [] ∧ t.th.strip.rewindable = true ∧ t.th.strip.pins = [] ∧ t.th.strip.error = none ∧
      t.th.strip.ckpt = { pc := s.th.pc + 4, vl := vl, mode := s.th.mode, scm := s.th.scm, s := t.th.s, efr := s.th.efr,
                          plies := s.th.plies, long := none }
    effect (.setvlImm d n) (n.setWidth 64) 0 ∧ effect (.setvlReg d a) (s.th.sr a) (s.th.sTaint a))
  ∧ (∀ (m : BitVec 22) (s : State), AtControl s →
    exec (.mode m) s = .next { s with th := { s.th with pc := s.th.pc + 4, mode := m.setWidth 26 } })
  ∧ (∀ (m : BitVec 22) (s : State) (j : BitVec 4) (r : Running), AtPly s j r → r.blk.one = false →
    Gives (exec (.mode m) s) fun t => SameOutside s t ∧ SameMemory s t ∧
      t.th = { s.th with plies := t.th.plies } ∧ (∀ k, k ≠ j → t.th.plies[k.toFin] = s.th.plies[k.toFin]) ∧
      t.th.running j = some { r with mode := m.setWidth 26, pc := r.pc + 4, wait := .running })
  ∧ (∀ (v : BitVec 6) (b : BitVec 10) (w : BitVec 7) (tr : Bool) (s : State), AtControl s →
    (s.th.checked = true → w = 0 ∨ b.toNat + w.toNat + (if tr then 6 else 0) ≤ 832) →
    Gives (exec (.fmap v b w tr) s) fun t => SameOutside s t ∧ SameMemory s t ∧
      t.th = { s.th with
        pc := s.th.pc + 4, fmap := t.th.fmap, taints := { s.th.taints with v := t.th.taints.v } } ∧
      (∀ x, t.th.fent x = if x = v then (if w = 0 then none else some ⟨b, w, tr⟩) else s.th.fent x) ∧
      (∀ x, x ≠ v → t.th.vTaint x = s.th.vTaint x) ∧
      (w = 0 → t.th.vTaint v = 0) ∧
      (w ≠ 0 → ∀ q, (t.th.vTaint v).getLsbD q = true ↔ (s.th.vTaint v).getLsbD q = true ∨
        ∃ x g, s.th.fent x = some g ∧ g.meets ⟨b, w, tr⟩ = true ∧ (s.th.vTaint x).getLsbD q = true))

namespace Sys2Proof

/-- Whether a name is no accumulator above the thread's grant (R157). -/
def Granted (s : State) (x : TaintName) : Prop := ∀ n, x = .acc n → n.toNat < s.th.tiles.toNat

/-- An unperformed write of a thread once a stream is ordered after it. -/
def seenBy (vec : Bool) (b : Buffered) : Buffered := if b.vec = vec then b else { b with seen := true }

/-- What a fence leaves: the stream that it names is ordered after every unperformed write of the thread (R102), and the PC moves on;
nothing else changes. -/
def fenced (s : State) (vec : Bool) : State :=
  { s with
    drain := s.drain.map fun x => if x.1 = s.th.tid then (x.1, seenBy vec x.2) else x,
    th := { s.th with pc := s.th.pc + 4, strip := { s.th.strip with buf := s.th.strip.buf.map (seenBy vec) } } }

end Sys2Proof

/-- TCLR x empties the set of x; TDEP x, y makes it the union of both; other sets stay; an accumulator above the grant raises ACCOWN
(R157). TWAIT goes on once every block has ended and no identifier is outstanding; FENCE.SV goes on at once, the vector stream
ordered after every store of the thread; FENCE.VS goes on once every vector access has been performed and no update of R82 waits,
the scalar stream ordered after every store. -/
def Obligations.TaintFenceResults : Prop :=
  (∀ (x y z : TaintName) (s : State), AtControl s →
    let fixed := x = .s 0 ∨ x = .k 0 ∨ ∃ v, x = .v v ∧ s.th.fent v = none
    (Granted s x → Gives (exec (.tclr x) s) (fun t => SameOutside s t ∧ SameMemory s t ∧
      t.th = { s.th with pc := s.th.pc + 4, taints := t.th.taints } ∧
      t.nameTaint x = 0 ∧ (z ≠ x → t.nameTaint z = s.nameTaint z)))
    ∧ (¬ Granted s x → ∃ i, i.code = cACCOWN ∧ exec (.tclr x) s = .next (s.fault i))
    ∧ (Granted s x → Granted s y → Gives (exec (.tdep x y) s) (fun t => SameOutside s t ∧ SameMemory s t ∧
      t.th = { s.th with pc := s.th.pc + 4, taints := t.th.taints } ∧
      (¬ fixed → t.nameTaint x = s.nameTaint x ||| s.nameTaint y) ∧ (fixed → t.nameTaint x = 0) ∧
      (z ≠ x → t.nameTaint z = s.nameTaint z)))
    ∧ (¬ (Granted s x ∧ Granted s y) → ∃ i, i.code = cACCOWN ∧ exec (.tdep x y) s = .next (s.fault i)))
  ∧ (∀ (x y z : TaintName) (s : State) (j : BitVec 4) (r : Running), AtPly s j r → r.blk.one = false →
    TaintName.inBlock x = true →
    let goes (t : State) : Prop := SameOutside s t ∧ SameMemory s t ∧
      t.th = { s.th with taints := t.th.taints, plies := t.th.plies } ∧
      (∀ k, k ≠ j → t.th.plies[k.toFin] = s.th.plies[k.toFin]) ∧
      (∃ c, t.th.running j = some { r with pc := r.pc + 4, wait := .running, ctl := c }) ∧
      (z ≠ x → t.nameTaint z = s.nameTaint z)
    Gives (exec (.tclr x) s) (fun t => goes t ∧ t.nameTaint x = 0)
    ∧ (TaintName.inBlock y = true → (∀ v, x = .v v → s.th.fent v ≠ none) → x ≠ .k 0 →
      Gives (exec (.tdep x y) s) fun t => goes t ∧ t.nameTaint x = s.nameTaint x ||| s.nameTaint y))
  ∧ (∀ (s : State), AtControl s →
    exec .fenceSv s = .next (fenced s true)
    ∧ (s.th.blocksEnded = true → s.th.out = [] → exec .twait s = .next { s with th := s.th.advance })
    ∧ (s.th.blocksEnded = true → (∀ o ∈ s.th.out, o.vec = false) → (∀ b ∈ s.own s.th, b.isAdd = false) →
        (∀ r ∈ s.sliceQ, r.tid ≠ s.th.tid) → exec .fenceVs s = .next (fenced s false)))

/-- R145: VJOIN is the word 0x0400_0008; in a block it raises ILLOP; in the control stream it stalls until every block has ended on
every owned ply, then adds the control taints brought to PEND, and waits for no access. -/
def Obligations.VjoinWord : Prop :=
  decode 0x04000008 = some .vjoin ∧ encode .vjoin = some 0x04000008 ∧
  (∀ d a b : BitVec 6, (d ≠ 0 ∨ a ≠ 0 ∨ b ≠ 0) → decode (1#6 ++ (d ++ (a ++ (b ++ 8#8)))) = none) ∧
  ∀ s : State,
    (∀ j r, AtPly s j r → exec .vjoin s = .next (s.fault (illop 0x04000008)))
    ∧ (AtControl s →
      ((∃ j < s.th.n, (s.th.plyAt j).run.isSome = true ∨ (s.th.plyAt j).queue ≠ []) → exec .vjoin s = .next s)
      ∧ ((∀ j < s.th.n, (s.th.plyAt j).run = none ∧ (s.th.plyAt j).queue = []) →
        Gives (exec .vjoin s) fun t => SameOutside s t ∧ SameMemory s t ∧
          t.th = { s.th with pc := s.th.pc + 4, taints := t.th.taints } ∧
          t.th.taints = { s.th.taints with ctl := s.th.taints.ctl ||| s.th.taints.ended, ended := 0 }))

namespace Sys2Proof

/-- Whether a ply runs a dispatched block, and whether it has it queued. -/
def Runs (s : State) (k : BitVec 4) (o : Nat) : Prop := ∃ x, s.th.running k = some x ∧ x.origin = o

def HasQueued (s : State) (k : BitVec 4) (o : Nat) : Prop := ∃ b ∈ s.th.plies[k.toFin].queue, b.seq = o

end Sys2Proof

/-- R142: PEND ends the block on its ply and its control taint is dropped from the ply; the block has ended, held by no ply, when
the last ply that holds it executes its PEND. -/
def Obligations.PendEnds : Prop :=
  ∀ (s : State) (j : BitVec 4) (r : Running), AtPly s j r →
    Gives (exec .pend s) fun t => SameOutside s t ∧ SameMemory s t ∧ t.th.running j = none ∧
      (∀ k, k ≠ j → ∀ o, Runs t k o ↔ Runs s k o) ∧ (∀ k o, HasQueued t k o ↔ HasQueued s k o) ∧
      t.th.taints = { s.th.taints with ended := s.th.taints.ended ||| r.ctl } ∧
      t.th = { s.th with plies := t.th.plies, taints := t.th.taints, segs := t.th.segs } ∧
      ((∀ k, (k ≠ j → ¬ Runs s k r.origin) ∧ ¬ HasQueued s k r.origin) →
        ∀ k, ¬ Runs t k r.origin ∧ ¬ HasQueued t k r.origin)

namespace Sys2Proof

/-- The rows a ply counts: those of its logical rows that lie below VL. -/
def counts (s : State) (j : BitVec 4) (vl : Nat) (e : Nat) : Prop := e < vl ∧ plyOf s.th.n e = j.toNat

end Sys2Proof

/-- PBR goes to its target when its condition holds over the ply's counted rows and adds the tag's taints unless the condition is
"always"; PFETCH goes on with the block it names; a ply at PWAIT waits until no ply is still on its way to the splice, and then all
waiting plies go on with the union of their control taints; a mix of waiting points is PLYDIV with every PC left. -/
def Obligations.PlyControlResults : Prop :=
  ∀ (s : State) (j : BitVec 4) (r : Running), AtPly s j r →
    (∀ (k : BitVec 4) (c : BitVec 2) (o : BitVec 16) (taken : Bool),
      (taken = true ↔
        c = 0 ∨ (c = 1 ∧ ∃ e, counts s j r.vl.toNat e ∧ s.tagBit e k = true)
        ∨ (c = 2 ∧ ¬ ∃ e, counts s j r.vl.toNat e ∧ s.tagBit e k = true)
        ∨ (c = 3 ∧ ∀ e, counts s j r.vl.toNat e → s.tagBit e k = true)) →
      Gives (exec (.pbr k c o) s) fun t => SameOutside s t ∧ SameMemory s t ∧ t.th = { s.th with plies := t.th.plies } ∧
        (∀ i, i ≠ j → t.th.plies[i.toFin] = s.th.plies[i.toFin]) ∧
        t.th.running j = some { r with
          pc := if taken then r.pc + 4 * o.signExtend 64 else r.pc + 4, wait := .running,
          ctl := if c = 0 then r.ctl else r.ctl ||| s.th.kTaint k })
    ∧ (∀ (o : BitVec 16) (u : State) (ws : List IWord),
      let addr := r.pc + 4 * o.signExtend 64
      s.fetchBlock s.th.priv addr = .ok (u, ws) →
      Gives (exec (.pfetch o) s) fun t => t = { u with th := t.th } ∧
        t.th = { s.th with plies := t.th.plies, event := t.th.event, sleep := t.th.sleep } ∧
        (∀ i, i ≠ j → t.th.plies[i.toFin] = s.th.plies[i.toFin]) ∧
        t.th.running j = some
          { r with blk := { r.blk with words := ws, addr := addr, one := false }, pc := addr, wait := .running })
    ∧ (let w := s.th.await j.toNat r .splice
      (w.arrived r.origin = none → exec .pwait s = .next { s with th := w })
      ∧ ∀ ws, w.arrived r.origin = some ws → (∀ x ∈ ws, x.2.wait = .splice) → (∀ x ∈ ws, x.2.blk.one = false) →
        Gives (exec .pwait s) fun t => SameOutside s t ∧ SameMemory s t ∧
          t.th = { s.th with plies := t.th.plies, segs := s.th.segs.filter fun p => p.block != r.origin } ∧
          ∀ x ∈ ws, (t.th.plyAt x.1).run = some { x.2 with
            pc := x.2.pc + 4, wait := .running, ctl := ws.foldl (fun c y => c ||| y.2.ctl) 0 })
    ∧ (∀ ws, (s.th.await j.toNat r .splice).arrived r.origin = some ws → (∃ x ∈ ws, x.2.wait ≠ .splice) →
      ∃ k, exec .pwait s = .next { s with th := (s.th.await j.toNat r .splice).stopPly k (TrapInfo.mk0 cPLYDIV 0) s.cycles })

/-! ### System instructions, traps and system registers: 10 R209 to R215, R226, 06 R146, 16 R335, R337, R339, 07 R164 -/

/-- NOP, YIELD, WFE, SYNCI, BOOST and UNBOOST. WFE goes on at once, clearing the flag, when the event flag is set, and sleeps at its
own address when it is not. SYNCI, once its blocks have ended, performs every earlier store, writes the core's dirty lines back and
empties the core's instruction path. BOOST with a lease running, or with no band named, answers at once; else it waits for its answer. -/
def Obligations.SystemResults : Prop :=
  ∀ (d a b : BitVec 6) (s : State), AtControl s →
    let bands := (s.th.sr b).setWidth 4
    let us := min 500 ((s.th.sr a).toNat % 1024)
    let still := { s.th.strip with rewindable := false }
    exec .nop s = .next { s with th := { s.th with pc := s.th.pc + 4 } }
    ∧ exec .yield s = .next { s with th := { s.th with pc := s.th.pc + 4, sleep := .yield, aged := false } }
    ∧ (s.th.event = true →
        exec .wfe s = .next { s with th := { s.th with pc := s.th.pc + 4, event := false, sleep := .awake } })
    ∧ (s.th.event = false → exec .wfe s = .next { s with th := { s.th with sleep := .wfe } })
    ∧ (s.th.blocksEnded = true → s.linesFree s.th = true →
        exec .synci s = .next { s.release none with
          th := (s.release none).th.advance,
          ipath := (s.release none).ipath.filter fun x => x.1 / 2 ^ 41 ≠ s.th.tid.core.toNat })
    ∧ (s.th.lease = none → bands = 0 →
        Gives (exec (.boost d a b) s) fun t => WritesS s { t with th := { t.th with strip := s.th.strip } } d 0 0 0
          ∧ t.th.strip = still)
    ∧ (∀ m e, s.th.lease = some (m, e) →
        Gives (exec (.boost d a b) s) fun t =>
          WritesS s { t with th := { t.th with strip := s.th.strip } } d
            (BitVec.ofNat 64 ((e.toNat - s.cycles.toNat) / 700)) 0 0 ∧ t.th.strip = still)
    ∧ (s.th.lease = none → bands ≠ 0 →
        exec (.boost d a b) s =
          .next { s with th := { s.th with strip := still, sleep := .boost d bands (BitVec.ofNat 10 us) } })
    ∧ (s.th.lease = none → (∀ x ∈ s.parked, x.tid ≠ s.th.tid) → Gives (exec .unboost s) fun t => SameOutside s t ∧
        SameMemory s t ∧ t.th = { s.th with pc := s.th.pc + 4, strip := still })
    ∧ (∀ m e, s.th.lease = some (m, e) → Gives (exec .unboost s) fun t => SameMemory s t ∧
        t.th = { s.th with pc := s.th.pc + 4, strip := still, lease := none } ∧
        t.thermal.leases = s.thermal.leases.filter (· ≠ s.th.tid) ∧
        look 0 t.thermal.boosted s.th.tid.core.toNat = look 0 s.thermal.boosted s.th.tid.core.toNat &&& ~~~ m)

namespace Sys2Proof

/-- R146: HALT, once its blocks and vector accesses have ended, makes its release with package scope and its arrival, and frees the
slot: no thread lives there and no operation of it is queued. Its registers and the rows of its plies stand as they are until they are
granted again (R25). -/
def HaltResults : Prop :=
  ∀ s : State, AtControl s → s.th.blocksEnded = true → (∀ o ∈ s.th.out, o.vec = false) → s.linesFree s.th = true →
    let u := (s.release none).completionArrival
    u.th.live = true →
    Gives (exec .halt s) fun t =>
      t.th = { u.th with live := false, ended := true, plies := .replicate 16 .idle, lease := none, strip := .fresh } ∧
      (∀ x ∈ t.parked, x.tid ≠ u.th.tid) ∧ (∀ x ∈ t.mq, x.tid ≠ u.th.tid) ∧
      t.rows = u.rows ∧ t.tags = u.tags ∧ SameMemory u t

/-- What taking a trap leaves (R335): the trap registers hold where the thread stands (TEPC its bits [55:2], Table 16.2) and what it was, the handler begins as supervisor
at TVBASE + 16 × code with every taint set empty and no ply with a block; every other register, and memory, is as it was. -/
structure TrapTakenAt (s t : State) (code : BitVec 8) (stamp epc val : Dword) : Prop where
  memory : SameMemory s t
  thread : t.th = { s.th with
    pc := s.th.trap.vbase + 16 * code.setWidth 64, priv := true, trap := t.th.trap, taints := .empty, pend := none,
    sleep := .awake, plies := t.th.plies, segs := [], strip := t.th.strip }
  saved : t.th.trap = { s.th.trap with
    cause := t.th.trap.cause, epc := epc &&& 0x00FFFFFFFFFFFFFC, val := val, info := t.th.trap.info, ppriv := s.th.priv, svc := true,
    inh := true, stamp := stamp, tbqa := t.th.trap.tbqa, tbqm := t.th.trap.tbqm, tppc := t.th.trap.tppc,
    tpbs := t.th.trap.tpbs, tpmd := t.th.trap.tpmd }
  cause : t.th.trap.cause.extractLsb' 0 8 = code
  plies : ∀ j, t.th.running j = none ∧ t.th.plies[j.toFin].queue = []
  drained : t.drain = s.drain ++ s.th.strip.buf.map fun b => (s.th.tid, b)
  rest : t.rows = s.rows ∧ t.tags = s.tags ∧ t.arr = s.arr ∧ t.regs = s.regs ∧ t.parked = s.parked

/-- The same of a trap whose event is detected in this step. -/
def TrapTaken (s t : State) (code : BitVec 8) (epc val : Dword) : Prop := TrapTakenAt s t code s.cycles epc val

end Sys2Proof

/-- TRAP takes SWTRAP with the PC after it and BKPT takes BREAK with the PC on it, when nothing has to be awaited and traps are not
inhibited; when something has to be awaited the trap stays pending; a trap of either while INH = 1 is a double trap and kills the
context (R337). -/
def Obligations.TrapEntry : Prop :=
  ∀ (a : BitVec 6) (s : State), AtControl s →
    (s.th.quiet = true → s.th.trap.inh = false →
      Gives (exec (.trap a) s) (fun t => TrapTaken s t cSWTRAP (s.th.pc + 4) (s.th.sr a))
      ∧ Gives (exec .bkpt s) (fun t => TrapTaken s t cBREAK s.th.pc 0))
    ∧ (s.th.quiet = false →
      (Gives (exec (.trap a) s) fun t => SameMemory s t ∧ t.th.pc = s.th.pc + 4 ∧
        ∃ i, t.th.pend = some (i, s.cycles) ∧ i.code = cSWTRAP ∧ i.val = s.th.sr a)
      ∧ Gives (exec .bkpt s) fun t => SameMemory s t ∧ t.th.pc = s.th.pc ∧
        ∃ i, t.th.pend = some (i, s.cycles) ∧ i.code = cBREAK)
    ∧ (s.th.quiet = true → s.th.trap.inh = true →
      Gives (exec (.trap a) s) (fun t => t.th.live = false ∧ (t.ctxAt s.th.ctx).valid = false)
      ∧ Gives (exec .bkpt s) fun t => t.th.live = false ∧ (t.ctxAt s.th.ctx).valid = false)

namespace Sys2Proof

/-- ERET in a trap, its blocks ended and its taints retired, resumes at TEPC with the saved privilege, SVC and INH clear and every taint
set empty; plies and blocks that the trap registers hold are taken up again, and with none held the plies stay as they are. In task
code it is PRIVOP, and with no trap in service ILLOP. -/
def EretResults : Prop :=
  ∀ s : State, AtControl s →
    (s.th.priv = true → s.th.trap.svc = true → s.th.blocksEnded = true → s.th.out = [] →
      ∀ u, s.commit.resumeBlocks s.th.trap.ppriv = .ok u →
      Gives (exec .eret s) fun t => t = { u with th := t.th } ∧
        t.th = { u.th with
          pc := s.th.trap.epc, priv := s.th.trap.ppriv, taints := .empty,
          trap := { u.th.trap with svc := false, inh := false }, strip := t.th.strip } ∧
        t.th.s = s.th.s ∧ t.th.f = s.th.f ∧ t.th.mode = s.th.mode ∧ t.th.vl = s.th.vl ∧ t.th.flags = s.th.flags ∧
        t.rows = s.rows ∧ t.tags = s.tags ∧
        ((∀ j < s.th.n, (s.th.trap.tppc.toList.getD j 0).getLsbD 0 = false) →
          (∀ i < 4, (s.th.trap.tbqa.toList.getD i 0).getLsbD 63 = false) → SameMemory s t ∧ t.th.plies = s.th.plies))
    ∧ (s.th.priv = false → exec .eret s = .next (s.raise (privop 0x04000002)))
    ∧ (s.th.priv = true → s.th.trap.svc = false → exec .eret s = .next (s.raise (illop 0x04000002)))

/-- What a register reads after an image that it takes was written: a 1 clears its flag in FLAGS (R162); THRCTL keeps PRIV; SPFOOT holds at
most 256 n; TASKROOT stores CTXID 0xFFFF as 0xFFFE (R36); every other register whose fields are all RW holds the image. -/
def Written (u : State) (i : BitVec 12) (v after : Dword) : Prop :=
  if i = 0x002 then after = (u.th.flags &&& ~~~ v.setWidth 8).setWidth 64
  else if i = 0x004 then after.getLsbD 0 = v.getLsbD 0 ∧ after.getLsbD 1 = u.th.priv
  else if i = 0x005 then after.toNat = min v.toNat (256 * u.th.n)
  else if i = 0x100 then after = (if v.extractLsb' 48 16 = 0xFFFF then (0xFFFE : BitVec 16) ++ v.extractLsb' 0 48 else v)
  else if i = 0x205 then after.getLsbD 0 = v.getLsbD 0 ∧ after.getLsbD 2 = v.getLsbD 2 ∧ after.getLsbD 3 = u.th.trap.svc
  else if i = 0x280 then after.getLsbD 0 = v.getLsbD 0
  else if i = 0x101 ∨ i = 0x102 then after.getLsbD 0 = v.getLsbD 0 ∧ after.extractLsb' 17 31 = v.extractLsb' 17 31
  else after = v

/-- What an SRW that completes leaves: memory, rows, tags, arrival words, s and f as they were, the PC on the next word, and every other
system register as it was; CTXSEL chooses the context that 0x0109 and 0x010A show, and DBGSEL the entry that 0x0282 to 0x0284 show. -/
structure WritesReg (u t : State) (i : BitVec 12) (v : Dword) : Prop where
  outside : SameMemory u t ∧ t.rows = u.rows ∧ t.tags = u.tags ∧ t.arr = u.arr
  thread : t.th.pc = u.th.pc + 4 ∧ t.th.s = u.th.s ∧ t.th.f = u.th.f ∧ t.th.taints = u.th.taints
  value : Written u i v (t.sysRead i.toNat)
  others : ∀ j, sysIndexOk j = true → j ≠ i → ¬ (i = 0x108 ∧ (j = 0x109 ∨ j = 0x10A)) → ¬ (i = 0x281 ∧ 0x282 ≤ j.toNat) →
    t.sysRead j.toNat = u.sysRead j.toNat

/-- SRR of a register that the thread may read, once its blocks have ended where Table 7.4 asks for it, writes the register's image with
an empty taint set. SRW of an image the register takes writes it; of a read-only register it changes nothing; of an image with a
reserved bit set, of an illegal MODE image (R159) and of an FPHEAD at L or above (R52) it is ILLOP with nothing written; of CTXCTL it has CTXCTL's effect or raises its fault (R166). An access of FLAGS first
has the thread's updates acknowledged (R82). -/
def SystemRegisterResults : Prop :=
  ∀ (d a : BitVec 6) (i : BitVec 12) (s : State), AtControl s → sysIndexOk i = true →
    (sysPrivileged i.toNat = true → s.th.priv = true) →
    let u := if i = 2 then s.ackAdds else s
    let v := u.th.sr a
    u.th.live = true →
    (s.th.blocksEnded = true ∨ sysWaits i.toNat false = false →
      Gives (exec (.srr d i) s) fun t => WritesS u t d (u.sysRead i.toNat) 0 0)
    ∧ (s.th.blocksEnded = true ∨ sysWaits i.toNat true = false →
      (sysReadOnly i.toNat = true →
        Gives (exec (.srw a i) s) fun t => SameOutside s t ∧ SameMemory s t ∧
          t.th = { s.th with pc := s.th.pc + 4, strip := t.th.strip })
      ∧ (sysReadOnly i.toNat = false →
        v &&& sysReserved i.toNat ≠ 0 ∨ (i = 0 ∧ modeImageOk (v.setWidth 22) = false) ∨ (i = 0x106 ∧ poolLen s.regs.fpbase ≤ v.toNat) →
        exec (.srw a i) s = .next (u.raise (illop (wordOf (.srw a i)))))
      ∧ (sysReadOnly i.toNat = false → v &&& sysReserved i.toNat = 0 → i ≠ 0x10A → (i = 0 → modeImageOk (v.setWidth 22) = true) →
        (i = 0x106 → v.toNat < poolLen s.regs.fpbase) →
        Gives (exec (.srw a i) s) fun t => WritesReg u t i v)
      ∧ (i = 0x10A → v &&& sysReserved i.toNat = 0 → ∀ w, s.ctxctl v = .ok w →
        Gives (exec (.srw a i) s) fun t => t = { w with th := t.th } ∧
          t.th = (if w.th.live = true then { w.th with pc := w.th.pc + 4, strip := t.th.strip } else w.th))
      ∧ (i = 0x10A → v &&& sysReserved i.toNat = 0 → ∀ f, s.ctxctl v = .error f →
        exec (.srw a i) s = .next (s.raise f)))

/-- R164: a register of 0x0100 to 0x027F is beyond task code. SRR and SRW of one are PRIVOP there, and nothing is read or written. -/
def SystemRegisterPrivilege : Prop :=
  ∀ (d a : BitVec 6) (i : BitVec 12) (s : State), AtControl s → s.th.priv = false → 0x100 ≤ i.toNat → i.toNat < 0x280 →
    exec (.srr d i) s = .next (s.raise (privop (wordOf (.srr d i))))
    ∧ exec (.srw a i) s = .next (s.raise (privop (wordOf (.srw a i))))

end Sys2Proof

/-- R79: SPSET writes the image in s[a], its reserved bits and the TAG bits below log2 B as 0, into the entry that the low byte of s[b] names,
returns the entry's previous image, and makes the entry the most recently used; where the tag stands in another valid entry it is SPDUP, and
neither the table nor s[d] changes. -/
def Obligations.SpsetRule : Prop :=
  ∀ (d a b : BitVec 6) (s : State), AtControl s →
    let t0 := s.th
    let image := t0.spImage (t0.sr a)
    let e := (t0.sr b).toNat % 256
    let twice := spV image = true ∧ ∃ j < 256, j ≠ e ∧ spV (t0.spAt j) = true ∧ spTag (t0.spAt j) = spTag image
    (∀ k < 64, image.getLsbD k = ((t0.sr a).getLsbD k && (decide (k < 3) || (decide (7 + t0.log2n.toNat ≤ k) && decide (k < 56)))))
    ∧ (¬ twice → Gives (exec (.spset d a b) s) fun t => SameMemory s t ∧ t.th.spAt e = image ∧
        (∀ j < 256, j ≠ e → t.th.spAt j = t0.spAt j) ∧ t.th.sporder.head? = some (BitVec.ofNat 8 e) ∧
        WritesS s { t with th := { t.th with
            sptab := t0.sptab, sporder := t0.sporder, strip := t0.strip } } d (t0.spAt e) (t0.sTaint a ||| t0.sTaint b) 0)
    ∧ (twice → (t0.quiet = true → t0.trap.inh = false →
          Gives (exec (.spset d a b) s) fun t => TrapTaken s t cSPDUP t0.pc (t0.sr a))
        ∧ (t0.quiet = false → Gives (exec (.spset d a b) s) fun t => SameMemory s t ∧ SameOutside s t ∧
          t.th = { t0 with pend := t.th.pend } ∧ ∃ i, t.th.pend = some (i, s.cycles) ∧ i.code = cSPDUP ∧ i.val = t0.sr a))

/-! ### Words of a block on one ply: 06 R135, 11 R235 to R254 -/

namespace Sys2Proof

/-- What ply j's word runs under. -/
def under (r : Running) (j : BitVec 4) : VCtx := r.vctx [j.toNat] r.ctl

/-- Ply j has performed its word: it stands at the next one, or has ended its block of one word (R137). Of the thread only what a
vector word may write differs, and of the machine only the store. -/
structure PlyDone (s t : State) (j : BitVec 4) (r : Running) : Prop where
  next : t.th.running j = if r.blk.one then none else some { r with pc := r.pc + 4, wait := .running }
  stopped : t.th.plies[j.toFin].stopped = s.th.plies[j.toFin].stopped
  memory : SameMemory s t
  outside : t = { s with th := t.th, rows := t.rows, tags := t.tags, badCols := t.badCols, drain := t.drain }
  thread : t.th = { s.th with
    plies := t.th.plies, flags := t.th.flags, taints := t.th.taints, dbg := t.th.dbg, strip := t.th.strip,
    segs := t.th.segs, pidx := t.th.pidx }
  pidx : t.th.pidx = s.th.pidx ∨ t.th.pidx = s.th.pidx &&& 0x7FFFFFFFFFFFFFFF
  /-- s-registers, f-registers and accumulators keep their taints -/
  taints : t.th.taints = { s.th.taints with v := t.th.taints.v, k := t.th.taints.k, ended := t.th.taints.ended }

/-- A column lies in a field's footprint. -/
def inCols (f : FieldEnt) (c : Nat) : Prop := f.cols.1 ≤ c ∧ c < f.cols.2

/-- The trust count stored beside a field. -/
def trustBits (r : Row) (f : FieldEnt) : Nat := (r.toNat >>> (f.base.toNat + f.width.toNat)) % 64

/-- Of the rows es only field d and, where it is used, the work field may differ; every other row and all tags stand. -/
structure FieldKept (s t : State) (es : List Nat) (d : BitVec 6) (work : Bool) : Prop where
  columns : ∀ e ∈ es, ∀ c, ¬ inCols (s.th.ent d) c → (work = true → ¬ inCols (s.th.ent workField) c) →
    (t.rowAt (s.th.rowKey e)).getLsbD c = (s.rowAt (s.th.rowKey e)).getLsbD c
  rows : ∀ k, (∀ e ∈ es, k ≠ s.th.rowKey e) → t.rowAt k = s.rowAt k
  tags : t.tags = s.tags

/-- Field d of the rows es holds the elements `out` gives, with their counts where it keeps trust; every other column outside the work
field, every other row, and all tags stand. -/
structure FieldWritten (s t : State) (es : List Nat) (d : BitVec 6) (work : Bool) (out : Nat → EOut) : Prop
    extends FieldKept s t es d work where
  value : ∀ e ∈ es, fieldBits (t.rowAt (s.th.rowKey e)) (s.th.ent d) = (out e).bits % 2 ^ (s.th.ent d).width.toNat
  trust : ∀ e ∈ es, ∀ q, (out e).t = some q → (s.th.ent d).trust = true →
    trustBits (t.rowAt (s.th.rowKey e)) (s.th.ent d) = q % 64

/-- A field whose footprint lies within a row. -/
def Fits (s : State) (v : BitVec 6) : Prop := (s.th.ent v).cols.2 ≤ 1024

/-- An element-wise instruction performed by one ply: the statement every word of that kind satisfies when no operand or type fault
applies, no count fails the trust trap, and the step does not stop the word at one of its restart points (R238). `out` gives each
element from the state and the prepared b operand; `quiet` says that the conversion of that operand sets no flag (R250). A `long`
word is one of those with restart points (R238): begun with PIDX.VALID 0 it gives these results; begun with PIDX.VALID 1 and none of its
operands known to stand as a stop left them, it completes with results that the specification does not state (the model's choice, log 53),
writes nothing but its destination and its work field, and clears PIDX.VALID. -/
def Elementwise (i : Instr) (s : State) (j : BitVec 4) (r : Running) (d : BitVec 6) (reads : List (BitVec 6))
    (b : Option BOp) (ops : List Opnd) (nfs : List (BitVec 3)) (all work check : Bool)
    (out : State → BVal → Nat → EOut) (quiet : Bool := false) (long : Bool := false) : Prop :=
  let c := under r j
  let bo := b.getD (.sreg 0)
  let q := s.segFor c bo
  let es := if all then s.counted c else s.active c
  let o := out q.1 (q.1.bval c bo q.2).1
  AtPly s j r → s.stopAt = none → s.th.plies[j.toFin].stopped = none → s.th.checked = false → c.vl ≤ 256 * s.th.n →
  s.th.operandFault c.nf nfs ops = none → Fits s d → Fits s workField →
  let marked (t : State) := ∀ v, (work = true → v ≠ workField) → t.th.vTaint v =
    if v = d ∧ es ≠ [] then s.inTaint c reads [] b.toList ||| s.th.vTaint d else s.th.vTaint v
  ((long = true → s.th.pidx.getLsbD 63 = false) →
    (check = true → modeTtrap r.mode = true → ∀ e ∈ es, ∀ q, (o e).t = some q → (modeTmin r.mode).toNat ≤ q) →
    Gives (exec i s) fun t => PlyDone s t j r ∧ FieldWritten s t es d work o ∧
      t.th.flags = (if es = [] then s.th.flags
        else s.th.flags ||| es.foldl (fun f e => f ||| (o e).flags) (if quiet then 0 else (q.1.bval c bo q.2).2)) ∧
      marked t)
  ∧ (long = true → s.th.pidx.getLsbD 63 = true → s.points = [] → (check = true → modeTtrap r.mode = false) →
    Gives (exec i s) fun t => PlyDone s t j r ∧ FieldKept s t es d work ∧ marked t ∧
      t.th.pidx = s.th.pidx &&& 0x7FFFFFFFFFFFFFFF)

/-- The value of w bits in the integer class of the mode. -/
def classInt (c : VCtx) (w n : Nat) : Int := if c.ty = .sint then (BitVec.ofNat w n).toInt else (n % 2 ^ w : Nat)

/-- Half i of a pair, as a signed integer (R172). -/
def halfInt (h i n : Nat) : Int := (BitVec.ofNat h (n >>> (h * i))).toInt

/-- An integer result: halves of a pair each by itself, else values at their own widths, fitted to the destination (R170). -/
def intOut (d a vb : BitVec 6) (sat : VCtx → Bool) (g : Int → Int → Int → Int) (c : VCtx) (s : State) (bv : BVal)
    (e : Nat) : EOut :=
  let z := (s.elt d 0 e).bits
  let x := (s.elt a 0 e).bits
  let y := s.bElt c bv vb e
  if c.ty.isPair then
    let h := c.ty.half
    let part (i : Nat) := fit h true (sat c) (g (halfInt h i z) (halfInt h i x) (halfInt h i y.1.bits))
    ⟨(part 0).1 + (part 1).1 * 2 ^ h, none, (part 0).2 ||| (part 1).2⟩
  else
    let wd := (s.th.ent d).width.toNat
    let o := fit wd c.ty.signed (sat c)
      (g (classInt c wd z) (classInt c (s.th.ent a).width.toNat x) (classInt c y.2 y.1.bits))
    ⟨o.1, none, o.2⟩

/-- The binary integer instructions of Table 11.4: accepted types, whether they have restart points, the exact result from vd, a and b. -/
def intTable : List ((BitVec 6 → BitVec 6 → BOp → Instr) × (EType → Bool) × Bool × (Int → Int → Int → Int)) :=
  [(.vadd, intOrPair, false, fun _ x y => x + y), (.vsub, intOrPair, true, fun _ x y => x - y),
   (.vrsub, intOrPair, true, fun _ x y => y - x), (.vmac, EType.isInt, true, fun z x y => z + x * y),
   (.vmin, intOrPair, false, fun _ x y => min x y), (.vmax, intOrPair, false, fun _ x y => max x y)]

/-- The shifts of R244: b is an unsigned amount, in the same half for pairs. -/
def shiftTable : List ((BitVec 6 → BitVec 6 → BOp → Instr) × (VCtx → Int → Nat → Int)) :=
  [(.vshl, fun _ x n => x * 2 ^ n), (.vshr, fun _ x n => x / 2 ^ n), (.vrshr, fun c x n => roundShift c.rnd x n)]

/-- A shift's element; amounts of 128 and more act as 128. -/
def shiftOut (d a vb : BitVec 6) (g : VCtx → Int → Nat → Int) (c : VCtx) (s : State) (bv : BVal) (e : Nat) : EOut :=
  let x := (s.elt a 0 e).bits
  let y := s.bElt c bv vb e
  if c.ty.isPair then
    let h := c.ty.half
    let part (i : Nat) := fit h true c.sat (g c (halfInt h i x) (min 128 ((y.1.bits >>> (h * i)) % 2 ^ h)))
    ⟨(part 0).1 + (part 1).1 * 2 ^ h, none, (part 0).2 ||| (part 1).2⟩
  else
    let o := fit (s.th.ent d).width.toNat c.ty.signed c.sat
      (g c (classInt c (s.th.ent a).width.toNat x) (min 128 (y.1.bits % 2 ^ y.2)))
    ⟨o.1, none, o.2⟩

/-- Division by elements (R243): by zero all ones or the dividend with DZ, the one overflow with OV, else the fitted result. -/
def divOut (d a vb : BitVec 6) (rem : Bool) (c : VCtx) (s : State) (bv : BVal) (e : Nat) : EOut :=
  let wd := (s.th.ent d).width.toNat
  let x := classInt c (s.th.ent a).width.toNat (s.elt a 0 e).bits
  let b := s.bElt c bv vb e
  let y := classInt c b.2 b.1.bits
  if y = 0 then ⟨lowBits wd (if rem then x else -1), none, fDZ⟩
  else if c.ty.signed = true ∧ x = intMin wd true ∧ y = -1 then ⟨lowBits wd (if rem then 0 else x), none, fOV⟩
  else
    let o := fit wd c.ty.signed c.sat (if rem then x.tmod y else x.tdiv y)
    ⟨o.1, none, o.2⟩

/-- The operands of a word of two sources, with the work field as the last where the word uses it. -/
def operands (d a : BitVec 6) (b : Option BOp) (c : VCtx) (work : Option Nat) : List Opnd :=
  (match b with | none => vops1 d a c | some b => vops2 d a b c) ++ (match work with | none => [] | some w => [workOp w])

/-- Integer field arithmetic of two sources (R241 to R244). -/
def VectorIntegerResults : Prop :=
  ∀ (d a : BitVec 6) (b : BOp) (s : State) (j : BitVec 4) (r : Running),
    let c := under r j
    let reads := a :: b.vfield
    let wd := (s.th.ent d).width.toNat
    let at_ (i : Instr) (work : Option Nat) (out : VCtx → State → BVal → Nat → EOut) (long : Bool := true) :=
      Elementwise i s j r d reads (some b) (operands d a (some b) c work) [] false work.isSome false (out c) false long
    (∀ p ∈ intTable, p.2.1 c.ty = true → at_ (p.1 d a b) none (intOut d a b.num VCtx.sat p.2.2.2) p.2.2.1)
    ∧ (intOrPair c.ty = true → at_ (.vmul d a b) (if oneField s d a b then some wd else none)
        (intOut d a b.num VCtx.sat fun _ x y => x * y))
    ∧ (c.ty.isInt = true → at_ (.vmulh d a b) (some wd) (intOut d a b.num VCtx.sat fun _ x y => x * y / (2 ^ wd : Nat)))
    ∧ (∀ p ∈ shiftTable, intOrPair c.ty = true → at_ (p.1 d a b) none (shiftOut d a b.num p.2))
    ∧ (c.ty.isInt = true → at_ (.vdiv d a b) (some wd) (divOut d a b.num false))
    ∧ (c.ty.isInt = true → at_ (.vrem d a b) (some wd) (divOut d a b.num true))
    ∧ (c.ty.isPair = true →
        let h := c.ty.half
        Elementwise (.vmacp d a b) s j r d reads (some b)
          ([⟨0, d, .range (2 * h) 64, .dst⟩, ⟨1, a, c.wreq, .src⟩] ++ b.vfield.map fun v => ⟨2, v, c.wreq, .src⟩) []
          false false false (fun u bv e =>
            let x := (u.elt a 0 e).bits
            let y := (u.bElt c bv b.num e).1.bits
            let o := fit wd true c.sat ((BitVec.ofNat wd (u.elt d 0 e).bits).toInt
              + halfInt h 0 x * halfInt h 0 y + halfInt h 1 x * halfInt h 1 y)
            ⟨o.1, none, o.2⟩) false true)

/-- Integer field arithmetic of one source (R241): VCVT fits the value to the other class, VSAT always saturates, VCLZ and VPOPC count
within a's own width. -/
def VectorUnaryResults : Prop :=
  ∀ (d a : BitVec 6) (s : State) (j : BitVec 4) (r : Running),
    let c := under r j
    let wd := (s.th.ent d).width.toNat
    let wa := (s.th.ent a).width.toNat
    let at_ (i : Instr) (out : State → BVal → Nat → EOut) (long : Bool := false) :=
      Elementwise i s j r d [a] none (vops1 d a c) [] false false false out false long
    let one (sat : VCtx → Bool) (g : Int → Int) : State → BVal → Nat → EOut := intOut d a 0 sat (fun _ x _ => g x) c
    let fitted (signed : Bool) (g : Nat → Int) : State → BVal → Nat → EOut := fun u _ e =>
      let o := fit wd signed c.sat (g (u.elt a 0 e).bits)
      ⟨o.1, none, o.2⟩
    (intOrPair c.ty = true → at_ (.vneg d a) (one VCtx.sat fun x => -x))
    ∧ (intOrPair c.ty = true → at_ (.vabs d a) (one VCtx.sat fun x => max x (-x)))
    ∧ (intOrPair c.ty = true → at_ (.vmov d a) (one VCtx.sat fun x => x))
    ∧ (c.ty.isInt = true → at_ (.vsat d a) (one (fun _ => true) fun x => x))
    ∧ (c.ty.isInt = true → at_ (.vcvt d a) (fitted (!c.ty.signed) fun n => classInt c wa n))
    ∧ (intOrRaw c.ty = true → at_ (.vclz d a) (fitted c.ty.signed fun n => (leadW n wa : Int)))
    ∧ (intOrRaw c.ty = true → at_ (.vpopc d a) (fitted c.ty.signed fun n => (onesBelow (BitVec.ofNat 64 (n % 2 ^ wa)) 64 : Nat)) true)

/-- Float elements of two sources (R245) and whether they need the work field. -/
def floatVecTable : List ((BitVec 6 → BitVec 6 → BOp → Instr) × Bool × (Fmt → BitVec 3 → FOpd → FOpd → FOut)) :=
  [(.vfadd, true, opAdd), (.vfsub, true, opSub), (.vfmul, true, opMul), (.vfdiv, true, opDiv),
   (.vfmin, false, fun f _ x y => opMinMax f true x y), (.vfmax, false, fun f _ x y => opMinMax f false x y)]

/-- Float elements of one source (R245, R247). -/
def floatVecTable1 : List ((BitVec 6 → BitVec 6 → Instr) × Bool × (Fmt → BitVec 3 → FOpd → FOut)) :=
  [(.vfsqrt, true, opSqrt), (.vfabs, false, fun f _ x => opSign f false x), (.vfneg, false, fun f _ x => opSign f (!x.val.neg) x),
   (.vfexp2, true, fun f rm x => opSpecial f rm fExp2 x), (.vflog2, true, fun f rm x => opSpecial f rm fLog2 x),
   (.vfrcp, true, fun f rm x => opSpecial f rm fRcp x), (.vfrsq, true, fun f rm x => opSpecial f rm fRsq x)]

/-- The fused elements (R249). -/
def fusedVecTable : List ((BitVec 6 → BitVec 6 → BitVec 6 → BitVec 6 → Instr) × Bool × Bool) :=
  [(.vfma, false, false), (.vfms, false, true), (.vfnma, true, false), (.vfnms, true, true)]

end Sys2Proof

/-- Float field arithmetic (R245 to R249): the rounded result of each element with its count. VFCVT converts to or from an integer type
too; VTRUST writes the count itself; VTRSET sets it to min(b, P), b taken in the type's width, and never fails the trust trap. -/
def Obligations.VectorFloatResults : Prop :=
  ∀ (d a x y : BitVec 6) (b : BOp) (ty : EType) (s : State) (j : BitVec 4) (r : Running),
    let c := under r j
    let f := c.fmt
    let wide (w : Bool) : Option Nat := if w then some 64 else none
    (c.ty.isFloat = true →
      (∀ p ∈ floatVecTable, Elementwise (p.1 d a b) s j r d (a :: b.vfield) (some b)
        (operands d a (some b) c (wide p.2.1)) c.ty.nfs false p.2.1 true (fun u bv e =>
          .ofF (p.2.2 f c.rnd (u.fopd c a e) (u.fbopd c bv b.num e))) false p.2.1)
      ∧ (∀ p ∈ floatVecTable1, Elementwise (p.1 d a) s j r d [a] none (operands d a none c (wide p.2.1)) c.ty.nfs false
          p.2.1 true (fun u _ e => .ofF (p.2.2 f c.rnd (u.fopd c a e))) false p.2.1)
      ∧ (∀ p ∈ fusedVecTable, Elementwise (p.1 d a x y) s j r d [a, x, y] none
          (vops1 d a c ++ [⟨2, x, c.wreq, .src⟩, ⟨3, y, c.wreq, .src⟩, workOp 64]) c.ty.nfs false true true (fun u _ e =>
            .ofF (opFma f c.rnd p.2.1 p.2.2 (u.fopd c a e) (u.fopd c x e) (u.fopd c y e))) false true)
      ∧ Elementwise (.vtrust d a) s j r d [a] none [⟨0, d, .any, .dst⟩, ⟨1, a, c.wreq, .src⟩] c.ty.nfs false false false
          (fun u _ e => ⟨min (u.elt a f.prec e).t (2 ^ (s.th.ent d).width.toNat - 1), none, 0⟩)
      ∧ Elementwise (.vtrset d a b) s j r d (a :: b.vfield) (some b) (operands d a (some b) c none) c.ty.nfs false false
          false fun u bv e => ⟨(u.elt a f.prec e).bits, some (min ((u.bElt c bv b.num e).1.bits % 2 ^ f.width) f.prec), 0⟩)
    ∧ (cvtOk c.ty ty = true →
      Elementwise (.vfcvt d a ty) s j r d [a] none
        [⟨0, d, (match ty.width c.nf with | none => .any | some w => .exact w), .dst⟩, ⟨1, a, c.wreq, .src⟩, workOp 64]
        (c.ty.nfs ++ ty.nfs) false true true (fun u _ e =>
          if c.ty.isFloat = false then
            .ofF (opOfInt (ty.fmt c.nf) c.rnd (classInt c (s.th.ent a).width.toNat (u.elt a 0 e).bits))
          else if ty.isFloat then .ofF (opConv (ty.fmt c.nf) c.rnd (u.fopd c a e))
          else
            let o := opToInt (s.th.ent d).width.toNat ty.signed c.rnd (u.fopd c a e).val
            ⟨o.1, none, o.2⟩) false true)

namespace Sys2Proof

/-- The bitwise functions of R250. -/
def bitTable : List ((BitVec 6 → BitVec 6 → BOp → Instr) × (Nat → Nat → Nat)) :=
  [(.vand, fun x y => x &&& y), (.vor, fun x y => x ||| y), (.vxor, fun x y => x ^^^ y),
   (.vandn, fun x y => x &&& (x ^^^ y))]

/-- The count of bits that an instruction moves (R185): 0 of a NaN or an infinity; of a zero the format's P where every operand has it
and 0 else; of any other value the lowest count. -/
def movedCount (f : Fmt) (bits : Nat) (ts : List Nat) : Nat :=
  match f.read bits with
  | .nan _ => 0
  | .inf _ => 0
  | .fin _ m _ => if m = 0 then (if ∀ t ∈ ts, t = f.prec then f.prec else 0) else ts.foldl min f.prec

/-- Bitwise instructions: sources brought to vd's width, sign-extended for class 0; for float types the lower count; no flag. VSEL writes every
row below VL, choosing by the guard. -/
def VectorBitResults : Prop :=
  ∀ (d a : BitVec 6) (b : BOp) (s : State) (j : BitVec 4) (r : Running),
    let c := under r j
    let wd := (s.th.ent d).width.toNat
    let moved (bits : Nat) (ts : List Nat) : EOut := ⟨bits, if c.ty.isFloat then some (movedCount c.fmt bits ts) else none, 0⟩
    let cut (w n : Nat) : Nat := toWidth c.ty.signed wd w n
    let wa := (s.th.ent a).width.toNat
    (c.ty.isFloat = true ∨ ∀ q, b ≠ .freg q) →
    (∀ p ∈ bitTable, Elementwise (p.1 d a b) s j r d (a :: b.vfield) (some b) (operands d a (some b) c none) c.ty.nfs false
      false true (fun u bv e =>
        let x := u.elt a c.fmt.prec e
        let y := u.bElt c bv b.num e
        moved (p.2 (cut wa x.bits) (cut y.2 y.1.bits) % 2 ^ wd) [x.t, y.1.t]) true)
    ∧ Elementwise (.vnot d a) s j r d [a] none (operands d a none c none) c.ty.nfs false false true (fun u _ e =>
        let x := u.elt a c.fmt.prec e
        moved ((2 ^ wd - 1 - cut wa x.bits) % 2 ^ wd) [x.t]) true
    ∧ Elementwise (.vsel d a b) s j r d (a :: b.vfield) (some b) (operands d a (some b) c none) c.ty.nfs true false true
        (fun u bv e =>
          let y := if s.guardHolds r.mode e then (u.elt a c.fmt.prec e, wa) else u.bElt c bv b.num e
          moved (cut y.2 y.1.bits) [y.1.t]) true

/-- Tag k of the rows es holds `out`, k0 excepted, which reads 1 (R23); every other tag, and every row, stands. -/
structure TagWritten (s t : State) (es : List Nat) (k : BitVec 4) (out : Nat → Bool) : Prop where
  value : ∀ e ∈ es, k ≠ 0 → (t.tagsAt (s.th.rowKey e)).getLsbD k.toNat = out e
  others : ∀ key i, i < 16 → i ≠ k.toNat → (t.tagsAt key).getLsbD i = (s.tagsAt key).getLsbD i
  rows : ∀ key, (∀ e ∈ es, key ≠ s.th.rowKey e) → t.tagsAt key = s.tagsAt key
  columns : t.rows = s.rows

/-- The taint set of tag k after a write in the rows es, the old one kept in it where old bits take part; others stand. -/
def TagTaint (s t : State) (es : List Nat) (k : BitVec 4) (tn : Taint) (keep : Bool) : Prop :=
  ∀ i, t.th.kTaint i = if i = k ∧ k ≠ 0 ∧ es ≠ [] then (if keep then tn ||| s.th.kTaint k else tn) else s.th.kTaint i

/-- The compares of R252 and R253 by their conditions; EQ and NE take every type. -/
def cmpTable : List ((BitVec 4 → BitVec 2 → BitVec 6 → BOp → Instr) × FCond) :=
  [(.vcmpEq, .eq), (.vcmpNe, .ne), (.vcmpLt, .lt), (.vcmpLe, .le), (.vcmpGt, .gt), (.vcmpGe, .ge)]

end Sys2Proof

/-- VCMP: the outcome of each active row merged into the tag; integers compare as exact values, floats with NaN unordered. TRLT, NAN and
INF test one operand. -/
def Obligations.CompareResults : Prop :=
  ∀ (k : BitVec 4) (m : BitVec 2) (a : BitVec 6) (b : BOp) (s : State) (j : BitVec 4) (r : Running), AtPly s j r →
    s.th.checked = false → (under r j).vl ≤ 256 * s.th.n →
    let c := under r j
    let es := s.active c
    let merge (old new : Bool) : Bool := if m = 0 then new else if m = 1 then old && new else if m = 2 then old || new else old != new
    let at_ (i : Instr) (bo : Option BOp) (out : State → BVal → Nat → Bool × Flags) : Prop :=
      let q := s.segFor c (bo.getD (.sreg 0))
      let bv := q.1.bval c (bo.getD (.sreg 0)) q.2
      let fields := a :: (match bo with | none => [] | some x => x.vfield)
      s.th.operandFault c.nf c.ty.nfs (⟨1, a, c.wreq, .src⟩ :: (match bo with
        | none => [] | some x => x.vfield.map fun v => ⟨2, v, c.wreq, .src⟩)) = none →
      Gives (exec i s) fun t => PlyDone s t j r ∧
        TagWritten s t es k (fun e => merge (s.tagBit e k) (out q.1 bv.1 e).1) ∧
        TagTaint s t es k (s.inTaint c fields [] bo.toList) (m ≠ 0) ∧
        t.th.flags = if es = [] then s.th.flags
          else s.th.flags ||| es.foldl (fun f e => f ||| (out q.1 bv.1 e).2) bv.2
    (∀ p ∈ cmpTable, (c.ty.isFloat = true ∨ ((∀ q, b ≠ .freg q) ∧ (c.ty.isInt = true ∨ p.2 = .eq ∨ p.2 = .ne))) →
      at_ (p.1 k m a b) (some b) fun u bv e =>
        if c.ty.isFloat then opCompare p.2 (u.fopd c a e).val (u.fbopd c bv b.num e).val
        else
          let v := cmpInts c u a b.num bv e
          (match p.2 with
            | .eq => decide (v.1 = v.2)
            | .ne => decide (v.1 ≠ v.2)
            | .lt => decide (v.1 < v.2)
            | .le => decide (v.1 ≤ v.2)
            | .gt => decide (v.1 > v.2)
            | .ge => decide (v.1 ≥ v.2), 0))
    ∧ (c.ty.isFloat = true →
      at_ (.vcmpTrlt k m a) none (fun u _ e => let x := u.fopd c a e
        (decide (x.t < (modeTmin r.mode).toNat), snanFlag [x.val]))
      ∧ at_ (.vcmpNan k m a) none (fun u _ e => let x := u.fopd c a e; (x.val.isNan, snanFlag [x.val]))
      ∧ at_ (.vcmpInf k m a) none fun u _ e => let x := u.fopd c a e; (x.val.isInf, snanFlag [x.val]))

/-- R239 and the tag words of R254 that move a column: VSRCH matches key bits under a mask; VWRT writes key bits under a mask where the
tag is 1; KFROM takes the base column of a field; KTO writes ones or zeros over a field. -/
def Obligations.SearchWriteResults : Prop :=
  ∀ (k : BitVec 4) (m : BitVec 2) (a y z : BitVec 6) (s : State) (j : BitVec 4) (r : Running), AtPly s j r →
    s.th.checked = false → (under r j).vl ≤ 256 * s.th.n → Fits s a →
    let c := under r j
    let es := s.active c
    let w := (s.th.ent a).width.toNat
    let key := (s.th.sr y).toNat % 2 ^ w
    let mask := (s.th.sr z).toNat % 2 ^ w
    let bits (e : Nat) := (s.elt a 0 e).bits
    let merge (old new : Bool) : Bool := if m = 0 then new else if m = 1 then old && new else if m = 2 then old || new else old != new
    let none_ (p : Nat) (role : Role) := s.th.operandFault c.nf [] [⟨p, a, .any, role⟩] = none
    let typed (role : Role) := s.th.operandFault c.nf c.ty.nfs [⟨4, a, c.wreq, role⟩] = none
    (none_ 1 .src → Gives (exec (.vsrch k m a y z) s) fun t => PlyDone s t j r ∧ t.th.flags = s.th.flags ∧
      TagWritten s t es k (fun e => merge (s.tagBit e k) (decide ((bits e ^^^ key) &&& mask = 0))) ∧
      TagTaint s t es k (s.inTaint c [a] [] [.sreg y, .sreg z]) (m ≠ 0))
    ∧ (none_ 1 .dst → Gives (exec (.vwrt k a y z) s) fun t => PlyDone s t j r ∧ t.th.flags = s.th.flags ∧
      FieldWritten s t (es.filter fun e => s.tagBit e k) a false
        (fun e => ⟨(bits e &&& (2 ^ w - 1 - mask)) ||| (key &&& mask), none, 0⟩))
    ∧ (typed .src → Gives (exec (.kfrom k a) s) fun t => PlyDone s t j r ∧ t.th.flags = s.th.flags ∧
      TagWritten s t es k (fun e => (bits e).testBit 0) ∧ TagTaint s t es k (s.inTaint c [a] [] []) false)
    ∧ (typed .dst → Gives (exec (.kto k a) s) fun t => PlyDone s t j r ∧ t.th.flags = s.th.flags ∧
      FieldWritten s t es a false fun e => ⟨if s.tagBit e k then 2 ^ w - 1 else 0, none, 0⟩)

namespace Sys2Proof

/-- The element-wise tag words of R254. -/
def TagResults : Prop :=
  ∀ (d a b : BitVec 4) (x : BitVec 6) (s : State) (j : BitVec 4) (r : Running), AtPly s j r →
    s.th.checked = false → (under r j).vl ≤ 256 * s.th.n →
    let c := under r j
    let es := s.active c
    let at_ (i : Instr) (ks : List (BitVec 4)) (rs : List BOp) (g : Nat → Bool) :=
      Gives (exec i s) fun t => PlyDone s t j r ∧ t.th.flags = s.th.flags ∧ TagWritten s t es d g ∧
        TagTaint s t es d (s.inTaint c [] ks rs) false
    at_ (.kand d a b) [a, b] [] (fun e => s.tagBit e a && s.tagBit e b)
    ∧ at_ (.kor d a b) [a, b] [] (fun e => s.tagBit e a || s.tagBit e b)
    ∧ at_ (.kxor d a b) [a, b] [] (fun e => s.tagBit e a ^^ s.tagBit e b)
    ∧ at_ (.kandn d a b) [a, b] [] (fun e => s.tagBit e a && !s.tagBit e b)
    ∧ at_ (.knot d a) [a] [] (fun e => !s.tagBit e a)
    ∧ at_ (.kmov d a) [a] [] (fun e => s.tagBit e a)
    ∧ at_ (.kset d) [] [] (fun _ => true)
    ∧ at_ (.kclr d) [] [] (fun _ => false)
    ∧ at_ (.kone d x) [] [.sreg x] (fun e => decide (e = (s.th.sr x).toNat))

/-! ### Words that all plies execute together: 06 R143, 11 R254 to R261, 12 R275 to R281 -/

/-- Ply j reaches a row-crossing word at which every ply of the thread that has not ended the block already waits, with equal MODE
copies, in a step that does not stop the word at one of its restart points; `ws` are the plies that take part. -/
def Meet (s : State) (j : BitVec 4) (r : Running) (ws : List (Nat × Running)) : Prop :=
  AtPly s j r ∧ s.stopAt = none ∧ (s.th.await j.toNat r .crossing).arrived r.origin = some ws ∧
  (∀ x ∈ ws, x.2.wait = .crossing ∧ x.2.pc = r.pc ∧ x.2.mode = r.mode) ∧
  s.th.checked = false ∧ r.vl.toNat ≤ 256 * s.th.n

/-- What the word runs under: the copies of one ply, the control taints of all. -/
def together (r : Running) (ws : List (Nat × Running)) : VCtx :=
  r.vctx (ws.map (·.1)) (ws.foldl (fun a x => a ||| x.2.ctl) 0)

/-- Every ply that took part stands awake (R353) at its next word, or has ended its block of one word; of the thread only what such a word
may write differs, and of the machine only the store. -/
structure CrossDone (s t : State) (ws : List (Nat × Running)) : Prop where
  woken : ∀ x ∈ ws, (t.th.plyAt x.1).drowsy = false
  next : ∀ x ∈ ws, (t.th.plyAt x.1).run = if x.2.blk.one then none else some { x.2 with pc := x.2.pc + 4, wait := .running }
  memory : SameMemory s t
  outside : t = { s with th := t.th, rows := t.rows, tags := t.tags, badCols := t.badCols, drain := t.drain }
  thread : t.th = { s.th with
    plies := t.th.plies, flags := t.th.flags, taints := t.th.taints, dbg := t.th.dbg, strip := t.th.strip,
    segs := t.th.segs, pidx := t.th.pidx, s := t.th.s, f := t.th.f }

/-- s-register d holds a value with its old taint kept beside the new one (Table 4.3); all others, and the f-registers, stand. -/
def CrossS (s t : State) (d : BitVec 6) (v : Dword) (tn : Taint) : Prop :=
  t.th.f = s.th.f ∧ (∀ q, t.th.sr q = if q = 0 then 0 else if q = d then v else s.th.sr q) ∧
  ∀ q, t.th.sTaint q = if q = 0 then 0 else if q = d then tn ||| s.th.sTaint d else s.th.sTaint q

/-- The same of f-register d. -/
def CrossF (s t : State) (d : BitVec 5) (v : FReg) (tn : Taint) : Prop :=
  t.th.s = s.th.s ∧ (∀ q, t.th.fr q = if q = d then v else s.th.fr q) ∧
  ∀ q, t.th.fTaint q = if q = d then tn ||| s.th.fTaint d else s.th.fTaint q

/-- Rows and tags stand. -/
def SameStore (s t : State) : Prop := t.rows = s.rows ∧ t.tags = s.tags

/-- The bits of va's element, and its value in the integer class of the mode. -/
def bitsOf (s : State) (a : BitVec 6) (e : Nat) : Nat := (s.elt a 0 e).bits

def valueOf (s : State) (c : VCtx) (a : BitVec 6) (e : Nat) : Int := classInt c (s.th.ent a).width.toNat (bitsOf s a e)

/-- Integer reductions (R255, R256) with no restart point valid and VEXTR of an integer: s[d] from the active rows. -/
def ReductionResults : Prop :=
  ∀ (d a b : BitVec 6) (s : State) (j : BitVec 4) (r : Running) (ws : List (Nat × Running)), Meet s j r ws →
    let c := together r ws
    let es := s.active c
    let val := valueOf s c a
    let done (i : Instr) (bs : List BOp) (good : Bool) (p : Dword → Prop) (fl : Flags) : Prop :=
      good = true → s.th.operandFault c.nf c.ty.nfs [⟨1, a, c.wreq, .src⟩] = none →
      Gives (exec i s) fun t => CrossDone s t ws ∧ SameStore s t ∧ t.th.flags = s.th.flags ||| fl ∧
        ∃ v, p v ∧ CrossS s t d v (s.inTaint c [a] [] bs)
    let sum := fit 64 c.ty.signed c.sat (es.foldl (fun x e => x + val e) 0)
    let least (p : Int → Int → Prop) (bound : Int) (v : Dword) : Prop :=
      if es = [] then v = BitVec.ofInt 64 bound
      else ∃ e ∈ es, (∀ q ∈ es, p (val e) (val q)) ∧ v = BitVec.ofInt 64 (val e)
    let place (p : Int → Int → Prop) (v : Dword) : Prop :=
      if es = [] then v = BitVec.allOnes 64
      else ∃ e ∈ es, (∀ q ∈ es, p (val e) (val q) ∧ (val q = val e → e ≤ q)) ∧ v = BitVec.ofNat 64 e
    let bits (f : Nat → Nat → Nat) (unit : Nat) (v : Dword) : Prop :=
      v = BitVec.ofNat 64 (es.foldl (fun x e => f x (bitsOf s a e)) unit)
    (s.th.pidx.getLsbD 63 = false → (s.th.ent a).width.toNat ≤ 64 →
      done (.vrsum d a) [] c.ty.isInt (fun v => v = BitVec.ofNat 64 sum.1) sum.2
      ∧ done (.vrand d a) [] (intOrRaw c.ty) (bits (· &&& ·) (2 ^ (s.th.ent a).width.toNat - 1)) 0
      ∧ done (.vror d a) [] (intOrRaw c.ty) (bits (· ||| ·) 0) 0
      ∧ done (.vrxor d a) [] (intOrRaw c.ty) (bits (· ^^^ ·) 0) 0)
    ∧ done (.vrmin d a) [] c.ty.isInt (least (· ≤ ·) (intMax 64 c.ty.signed)) 0
    ∧ done (.vrmax d a) [] c.ty.isInt (least (· ≥ ·) (intMin 64 c.ty.signed)) 0
    ∧ done (.vrargmax d a) [] c.ty.isInt (place (· ≥ ·)) 0
    ∧ done (.vrargmin d a) [] c.ty.isInt (place (· ≤ ·)) 0
    ∧ done (.vextr d a b) [.sreg b] (!c.ty.isFloat)
        (fun v => v = if (s.th.sr b).toNat < c.vl then BitVec.ofInt 64 (val (s.th.sr b).toNat) else 0) 0

/-- Float reductions (R181, R255, R261) and VEXTR of a float, whose count does not fail the trust trap, which checks only words with an
active row (R201): f[d] from the active rows. VRFSUM, with no restart point valid, rounds the exact sum once and may leave any bits in the work field. -/
def FloatReductionResults : Prop :=
  ∀ (d : BitVec 5) (a b : BitVec 6) (s : State) (j : BitVec 4) (r : Running) (ws : List (Nat × Running)), Meet s j r ws →
    let c := together r ws
    let es := s.active c
    let xs := es.map fun e => s.fopd c a e
    let single := decide (c.ty = .f32)
    let trusted (v : FReg) : Prop := modeTtrap r.mode = true → es ≠ [] → (modeTmin r.mode).toNat ≤ v.trust.toNat
    c.ty.isFloat = true →
    (let o := opSum c.fmt c.rnd xs
      let v := FReg.ofElt c.fmt single o.bits (if es = [] then c.fmt.prec else o.t)
      s.th.operandFault c.nf c.ty.nfs [⟨1, a, c.wreq, .src⟩, ⟨4, workField, .exact 64, .work⟩] = none → trusted v →
      s.th.pidx.getLsbD 63 = false →
      (if es = [] then c.fmt.prec else o.t) < 64 →
      Gives (exec (.vrfsum d a) s) fun t => CrossDone s t ws ∧ t.th.flags = s.th.flags ||| o.flags ∧
        CrossF s t d v (s.inTaint c [a] [] []) ∧ t.tags = s.tags ∧
        ∀ k i, ¬ inCols (s.th.ent workField) i → (t.rowAt k).getLsbD i = (s.rowAt k).getLsbD i)
    ∧ (s.th.operandFault c.nf c.ty.nfs [⟨1, a, c.wreq, .src⟩] = none →
      (∀ low : Bool,
        let o := fchoose c.fmt low xs
        let f := if single then Fmt.b32 else Fmt.b64
        let v := if es = [] then FReg.ofElt f single (f.writeInf (!low) 0).bits 0 else FReg.ofElt c.fmt single o.bits o.t
        trusted v → Gives (exec (if low then .vrfmin d a else .vrfmax d a) s) fun t => CrossDone s t ws ∧ SameStore s t ∧
          t.th.flags = s.th.flags ||| (if es = [] then 0 else o.flags) ∧ CrossF s t d v (s.inTaint c [a] [] []))
      ∧ (let e := (s.th.sr b).toNat
        let x := if e < c.vl then s.elt a c.fmt.prec e else ⟨0, 0⟩
        let n := if e < c.vl then movedCount c.fmt x.bits [x.t] else 0
        let v := FReg.ofElt c.fmt single x.bits n
        (modeTtrap r.mode = true → es ≠ [] → (modeTmin r.mode).toNat ≤ n) →
        Gives (exec (.vextr (d.setWidth 6) a b) s) fun t => CrossDone s t ws ∧ SameStore s t ∧ t.th.flags = s.th.flags ∧
          CrossF s t d v (s.inTaint c [a] [] [.sreg b])))

/-- Tag words that cross rows (R254): KPOP counts, KFIRST keeps the lowest, KSHIFT moves by s[x] rows with 0 shifted in. -/
def TagCrossResults : Prop :=
  ∀ (d a : BitVec 4) (x : BitVec 6) (s : State) (j : BitVec 4) (r : Running) (ws : List (Nat × Running)), Meet s j r ws →
    let c := together r ws
    let es := s.active c
    let set := es.filter fun e => s.tagBit e a
    let tn := s.inTaint c [] [a] []
    Gives (exec (.kpop a x) s) (fun t => CrossDone s t ws ∧ SameStore s t ∧ t.th.flags = s.th.flags ∧
      CrossS s t x (BitVec.ofNat 64 set.length) tn)
    ∧ Gives (exec (.kfirst d a x) s) (fun t => CrossDone s t ws ∧ t.th.flags = s.th.flags ∧
      TagWritten s t es d (fun e => set.head? == some e) ∧ TagTaint s t es d tn false ∧
      CrossS s t x (match set.head? with | none => BitVec.allOnes 64 | some e => BitVec.ofNat 64 e) tn)
    ∧ Gives (exec (.kshift d a x) s) (fun t => CrossDone s t ws ∧ t.th.flags = s.th.flags ∧
      TagWritten s t es d (fun e =>
        let i : Int := e - (s.th.sr x).toInt
        decide (0 ≤ i) && decide (i < c.vl) && s.tagBit i.toNat a) ∧
      TagTaint s t es d (s.inTaint c [] [a] [.sreg x]) false ∧ t.th.s = s.th.s ∧ t.th.f = s.th.f)

/-- The search family (R257 to R260): the tag set in exactly the active rows named. VTOPK and VBOTK take the k best, ties to lower rows,
NaNs out; VMAXT and VMINT every row that holds the extreme; VCONF every row whose bits an earlier active row holds; VNEARK the k rows of
least Hamming distance. The words with restart points (R238), VTOPK, VBOTK and VNEARK, give this when PIDX.VALID is 0; with it 1, and none
of their operands known to stand as a stop left them, they complete with tags of active rows that the specification does not state (the
model's choice, log 53). -/
def SearchResults : Prop :=
  ∀ (k : BitVec 4) (a b : BitVec 6) (s : State) (j : BitVec 4) (r : Running) (ws : List (Nat × Running)), Meet s j r ws →
    let c := together r ws
    let es := s.active c
    let l := s.ranked c a es
    let done (i : Instr) (bs : List BOp) (fl : Flags) (p : Nat → Bool) : Prop :=
      Gives (exec i s) fun t => CrossDone s t ws ∧ TagWritten s t es k p ∧ t.th.s = s.th.s ∧ t.th.f = s.th.f ∧
        t.th.flags = s.th.flags ||| fl ∧ TagTaint s t es k (s.inTaint c [a] [] bs) true
    let best (high : Bool) (e : Nat) : Bool :=
      l.any fun x => x.1 == e && decide ((l.filter fun y => before high y x).length < (s.th.sr b).toNat)
    let extreme (q : Ordering) (e : Nat) : Bool := l.any fun x => x.1 == e && l.all fun y => y.2.cmp x.2 != q
    let w := (s.th.ent a).width.toNat
    let dist (e : Nat) : Nat := onesBelow (BitVec.ofNat 64 (bitsOf s a e ^^^ ((s.th.sr b).toNat % 2 ^ w))) 64
    let fresh := s.th.pidx.getLsbD 63 = false
    let lost := s.th.pidx.getLsbD 63 = true ∧ s.points = []
    let some_ (i : Instr) (fl : Flags) (p : State → Prop) : Prop :=
      Gives (exec i s) fun t => CrossDone s t ws ∧ t.th.s = s.th.s ∧ t.th.f = s.th.f ∧ t.th.flags = s.th.flags ||| fl ∧
        (∀ key i, (∀ e ∈ es, key ≠ s.th.rowKey e) ∨ (i < 16 ∧ i ≠ k.toNat) ∨ k = 0 →
          (t.tagsAt key).getLsbD i = (s.tagsAt key).getLsbD i) ∧
        t.th.pidx = s.th.pidx &&& 0x7FFFFFFFFFFFFFFF ∧ p t
    let workOnly (t : State) : Prop :=
      ∀ key i, ¬ inCols (s.th.ent workField) i → (t.rowAt key).getLsbD i = (s.rowAt key).getLsbD i
    (rankable c.ty = true → s.th.operandFault c.nf c.ty.nfs [⟨1, a, c.wreq, .src⟩] = none →
      (fresh → done (.vtopk k a b) [.sreg b] (s.searchFlags c a es) (best true))
      ∧ (fresh → done (.vbotk k a b) [.sreg b] (s.searchFlags c a es) (best false))
      ∧ (lost → some_ (.vtopk k a b) (s.searchFlags c a es) fun t => t.rows = s.rows)
      ∧ (lost → some_ (.vbotk k a b) (s.searchFlags c a es) fun t => t.rows = s.rows)
      ∧ done (.vmaxt k a) [] (s.searchFlags c a es) (extreme .gt)
      ∧ done (.vmint k a) [] (s.searchFlags c a es) (extreme .lt))
    ∧ (s.th.pidx.getLsbD 63 = false → s.th.operandFault c.nf [] [⟨1, a, .any, .src⟩] = none →
      done (.vconf k a) [] 0 fun e => es.any fun q => decide (q < e) && bitsOf s a q == bitsOf s a e)
    ∧ (s.th.operandFault c.nf [] [⟨1, a, .any, .src⟩, ⟨4, workField, .range 7 64, .work⟩] = none →
      (lost → some_ (.vneark k a b) 0 workOnly)
      ∧ (fresh → Gives (exec (.vneark k a b) s) fun t => CrossDone s t ws ∧ t.th.s = s.th.s ∧ t.th.f = s.th.f ∧
        t.th.flags = s.th.flags ∧
        (∀ e ∈ es, k ≠ 0 → (t.tagsAt (s.th.rowKey e)).getLsbD k.toNat =
          decide ((es.filter fun q => decide (dist q < dist e) || (decide (dist q = dist e) && decide (q < e))).length
            < (s.th.sr (b + 1)).toNat)) ∧
        (∀ key i, (∀ e ∈ es, key ≠ s.th.rowKey e) ∨ (i < 16 ∧ i ≠ k.toNat) →
          (t.tagsAt key).getLsbD i = (s.tagsAt key).getLsbD i) ∧
        workOnly t))

/-- Field d of the rows es holds `out`; outside it and outside the work field every column of every row stands, and all tags. -/
structure MovedWork (s t : State) (es : List Nat) (d : BitVec 6) (out : Nat → EOut) : Prop where
  value : ∀ e ∈ es, fieldBits (t.rowAt (s.th.rowKey e)) (s.th.ent d) = (out e).bits % 2 ^ (s.th.ent d).width.toNat
  trust : ∀ e ∈ es, ∀ q, (out e).t = some q → (s.th.ent d).trust = true →
    trustBits (t.rowAt (s.th.rowKey e)) (s.th.ent d) = q % 64
  columns : ∀ k i, ¬ inCols (s.th.ent workField) i → (∀ e ∈ es, k = s.th.rowKey e → ¬ inCols (s.th.ent d) i) →
    (t.rowAt k).getLsbD i = (s.rowAt k).getLsbD i
  tags : t.tags = s.tags

/-- An element moved into vd (R275): fitted for integers, bits with their count under R185 for floats, bits for the rest. -/
def movedElt (s : State) (c : VCtx) (d a : BitVec 6) (e : Nat) : EOut :=
  let wd := (s.th.ent d).width.toNat
  if c.ty.isInt then
    let o := fit wd c.ty.signed c.sat (valueOf s c a e)
    ⟨o.1, none, o.2⟩
  else if c.ty.isFloat then
    let x := s.elt a c.fmt.prec e
    ⟨x.bits, some (movedCount c.fmt x.bits [x.t]), 0⟩
  else ⟨bitsOf s a e % 2 ^ wd, none, 0⟩

/-- Movement between rows (R275 to R277): slides, permutations, broadcasts, compaction ranks and indices. Rows with no source keep their
element in VSLIDEUP and VSLIDEDN; a source at or above VL gives zero in VPERM and VBCAST and the fill of Table 12.5 in VSLIDEIN. -/
def MoveResults : Prop :=
  ∀ (d a b v : BitVec 6) (s : State) (j : BitVec 4) (r : Running) (ws : List (Nat × Running)), Meet s j r ws → Fits s d →
    let c := together r ws
    let es := s.active c
    let n := (s.th.sr b).toNat
    let wd := (s.th.ent d).width.toNat
    let moved := movedElt s c d a
    let zero : EOut := ⟨0, if c.ty.isFloat then some c.fmt.prec else none, 0⟩
    let done (i : Instr) (ops : List Opnd) (rows : List Nat) (out : Nat → EOut) : Prop :=
      s.th.operandFault c.nf c.ty.nfs ops = none →
      (modeTtrap r.mode = true → ∀ e ∈ rows, ∀ q, (out e).t = some q → (modeTmin r.mode).toNat ≤ q) →
      Gives (exec i s) fun t => CrossDone s t ws ∧ FieldWritten s t rows d false out ∧ t.th.s = s.th.s ∧ t.th.f = s.th.f ∧
        t.th.flags = s.th.flags ||| rows.foldl (fun f e => f ||| (out e).flags) 0
    let k := n % 2 ^ 13
    let q := n / 2 ^ 13 % 4
    done (.vslideup d a b) (vops1 d a c) (es.filter fun e => decide (n ≤ e)) (fun e => moved (e - n))
    ∧ done (.vslidedn d a b) (vops1 d a c) (es.filter fun e => decide (e + n < c.vl)) (fun e => moved (e + n))
    ∧ done (.vslidein d a b) (vops1 d a c) es (fun e =>
        if e + k < c.vl then moved (e + k)
        else if q = 0 then (if e + k < 256 * s.th.n then moved (e + k) else zero)
        else if q = 1 then
          let x := (s.th.sr (b + 1)).toNat % 2 ^ wd
          ⟨x, if c.ty.isFloat then some (movedCount c.fmt x [c.fmt.prec]) else none, 0⟩
        else if q = 2 then moved (c.vl - 1) else moved ((e + k) % c.vl))
    ∧ done (.vperm d a (.field v)) (vops1 d a c ++ [⟨2, v, .any, .src⟩]) es (fun e =>
        if bitsOf s v e < c.vl then moved (bitsOf s v e) else zero)
    ∧ (s.th.segs = [] → ∀ g : BitVec 2, done (.vperm d a (.rep v g)) (vops1 d a c ++ [⟨2, v, .any, .src⟩]) es (fun e =>
        if bitsOf s v (e % 4 ^ g.toNat) < c.vl then moved (bitsOf s v (e % 4 ^ g.toNat)) else zero))
    ∧ done (.vbcast d a b) (vops1 d a c) es (fun _ => if n < c.vl then moved n else zero)
    ∧ (c.ty.isInt = true → done (.viota d) [⟨0, d, c.wreq, .dst⟩] es (fun e =>
        let o := fit wd c.ty.signed c.sat e
        ⟨o.1, none, o.2⟩))
    ∧ ((c.ty = .uint ∨ c.ty = .raw) → (c.sat = true ∨ es.length < 2 ^ wd) →
      done (.vcompact d) [⟨0, d, c.wreq, .dst⟩] es fun e =>
        let o := fit wd false c.sat ((es.filter fun q => decide (q ≤ e)).length : Nat)
        ⟨o.1, none, o.2⟩)

/-- VSCAN, VCOLLAPSE and VSOFT (R278 to R280), which may leave any bits in the work field: inclusive sums; a result for each group whose
row is active; one strip of a softmax, with its maximum, sum and factor in f[b], f[b + 1] and f[b + 2]. These are the results when PIDX.VALID
is 0 (R238); with it 1, and no operand known to stand as a stop left it, the words complete with results that the specification does not
state (the model's choice, log 53). -/
def ScanResults : Prop :=
  ∀ (d a b : BitVec 6) (f : BitVec 5) (s : State) (j : BitVec 4) (r : Running) (ws : List (Nat × Running)), Meet s j r ws →
    Fits s d → Fits s workField →
    let c := together r ws
    let es := s.active c
    let sh := s.th.sr b
    let fld (lo n : Nat) : Nat := sh.toNat / 2 ^ lo % 2 ^ n
    let trusted (rows : List Nat) (out : Nat → EOut) : Prop :=
      modeTtrap r.mode = true → ∀ e ∈ rows, ∀ q, (out e).t = some q → (modeTmin r.mode).toNat ≤ q
    let lost (i : Instr) (rows : List Nat) (p : State → Prop) : Prop :=
      s.th.pidx.getLsbD 63 = true → s.points = [] → modeTtrap r.mode = false → Gives (exec i s) fun t => CrossDone s t ws ∧
        (∀ k i, ¬ inCols (s.th.ent workField) i → (∀ e ∈ rows, k = s.th.rowKey e → ¬ inCols (s.th.ent d) i) →
          (t.rowAt k).getLsbD i = (s.rowAt k).getLsbD i) ∧
        t.tags = s.tags ∧ t.th.s = s.th.s ∧ p t ∧ t.th.pidx = s.th.pidx &&& 0x7FFFFFFFFFFFFFFF
    let below := es.filter fun e => decide (e < fld 39 13)
    s.th.operandFault c.nf c.ty.nfs (vops1 d a c ++ [⟨4, workField, .exact 64, .work⟩]) = none →
    (intOrFloat c.ty = true → lost (.vscan d a) es (fun t => t.th.f = s.th.f) ∧
      lost (.vcollapse d a b) below fun t => t.th.f = s.th.f)
    ∧ (c.ty.isFloat = true → lost (.vsoft d a f) es fun t => ∀ q, q ≠ f → q ≠ f + 1 → q ≠ f + 2 → t.th.fr q = s.th.fr q)
    ∧ (s.th.pidx.getLsbD 63 = false →
    (intOrFloat c.ty = true →
      (let out (e : Nat) := s.sumOver c d a (es.filter fun q => decide (q ≤ e));
        trusted es out → Gives (exec (.vscan d a) s) fun t => CrossDone s t ws ∧ MovedWork s t es d out ∧
          t.th.s = s.th.s ∧ t.th.f = s.th.f ∧ t.th.flags = s.th.flags ||| es.foldl (fun g e => g ||| (out e).flags) 0)
      ∧ (let rows := below
        let named (e : Nat) := ((List.range (fld 0 13)).map fun i => e * fld 13 13 + i * fld 26 13).filter fun x => es.contains x
        let out (e : Nat) :=
          if fld 52 2 = 0 then s.sumOver c d a (named e)
          else if fld 52 2 = 1 then s.bestOver c d a false (named e)
          else if fld 52 2 = 2 then s.bestOver c d a true (named e)
          else s.countOf c d (named e).length;
        trusted rows out → Gives (exec (.vcollapse d a b) s) fun t => CrossDone s t ws ∧ MovedWork s t rows d out ∧
          t.th.s = s.th.s ∧ t.th.f = s.th.f ∧ t.th.flags = s.th.flags ||| rows.foldl (fun g e => g ||| (out e).flags) 0))
    ∧ (c.ty.isFloat = true →
      let xs := es.map fun e => s.fopd c a e
      let mold := (s.th.fr f).opd true c.rnd
      let lold := (s.th.fr (f + 1)).opd true c.rnd
      let mnew := softMax mold.1 xs
      let factor := softFactor c.rnd mold.1 mnew es.isEmpty
      let out (e : Nat) := softOut c.fmt c.rnd (s.fopd c a e) mnew
      let sum := softSum c.rnd lold.1 (Fmt.b64.opd factor.bits factor.t) (es.map fun e => c.fmt.opd (out e).bits (out e).t)
      trusted es (fun e => .ofF (out e)) →
      Gives (exec (.vsoft d a f) s) fun t => CrossDone s t ws ∧ MovedWork s t es d (fun e => .ofF (out e)) ∧ t.th.s = s.th.s ∧
        t.th.fr f = .ofVal mnew.val mnew.t ∧ t.th.fr (f + 1) = .ofOut sum true ∧ t.th.fr (f + 2) = .ofOut factor true ∧
        (∀ q, q ≠ f → q ≠ f + 1 → q ≠ f + 2 → t.th.fr q = s.th.fr q)))

/-! ### Field memory words: 12 R267 to R274, 03 R80, R82 -/

/-- Every ply that took part stands at its next word, or has ended its block of one word. -/
def NextAll (t : State) (ws : List (Nat × Running)) : Prop :=
  ∀ x ∈ ws, (t.th.plyAt x.1).run = if x.2.blk.one then none else some { x.2 with pc := x.2.pc + 4, wait := .running }

/-- The machine as the word finds it once the plies have met and its b operand has been read, with that operand's segment. -/
def Ready (s : State) (j : BitVec 4) (r : Running) (c : VCtx) (b : BOp) : State × List Elt :=
  (s.upd fun t => (t.await j.toNat r .crossing).meeting r.origin c.plies).segFor c b

/-- A fault-capable word that starts afresh: no retry mask is armed and no restart point is valid (R269). -/
def Fresh (s : State) : Prop := s.th.armed = false ∧ s.th.pidx.getLsbD 63 = false

/-- What a fault-capable word that succeeds leaves in the progress registers: nothing armed, no element marked. -/
def Unarmed (t : State) : Prop := t.th.armed = false ∧ (∀ e, t.th.fmaskBit e = false) ∧ t.th.pidx.getLsbD 63 = false

/-- A field load of the active elements whose addresses all resolve, to no device and to no byte with an update under way: each element
is read in ascending order and written to vd, whose taint set becomes the identifier taken. Registers and tags stand. -/
def FieldLoad (i : Instr) (d : BitVec 6) (b : BOp) (addr : State → List Elt → Nat → Nat → Dword) : Prop :=
  ∀ (s : State) (j : BitVec 4) (r : Running) (ws : List (Nat × Running)) (id : BitVec 4) (ps : Nat → List Piece),
    Meet s j r ws → s.th.freeId = some id → Fresh s → Fits s d →
    let c := together r ws
    let g := Ready s j r c b
    let es := s.active c
    let wd := (s.th.ent d).width.toNat
    let m := elemSize c.ty wd
    let all := es.flatMap ps
    s.th.operandFault c.nf c.ty.nfs (⟨0, d, c.wreq, .dst⟩ :: b.vfield.map fun v => ⟨2, v, .any, .fixed⟩) = none →
    (∀ e ∈ es, g.1.elemPieces .read m (addr g.1 g.2 m e) = .ok (ps e)) →
    anyDevice all = false → (∀ p ∈ all, s.addHeld p = false ∧ s.addOut p = false) → es ≠ [] →
    let u := (g.1.pinRows (g.1.th.viewRows all)).readRows b.rowField (if b.rowField.isEmpty then [] else es)
    let q := u.readElts c wd m (es.map fun e => (e, addr g.1 g.2 m e, ps e))
    let out (e : Nat) : EOut := ((q.2.find? fun x => x.1 == e).map (·.2)).getD ⟨0, none, 0⟩
    Gives (exec i s) fun t => NextAll t ws ∧ FieldWritten q.1 t es d false out ∧ t.mem = q.1.mem ∧ Unarmed t ∧
      t.th.s = q.1.th.s ∧ t.th.f = q.1.th.f ∧ t.th.vTaint d = idSet id ∧ (∀ v, v ≠ d → t.th.vTaint v = q.1.th.vTaint v) ∧
      t.th.out = q.1.th.out ++ [⟨id, true, none⟩] ∧
      t.th.flags = q.1.th.flags ||| q.2.foldl (fun f x => f ||| x.2.flags) 0

end Sys2Proof

/-- VLDU, VLDS and VLDX (R268): unit stride, stride s[b], and s[a] + m × index; VLDL (R274): m bytes of the element's own row, from an
offset modulo 128. -/
def Obligations.FieldLoadResults : Prop :=
  ∀ (d a b : BitVec 6) (x : BOp),
    FieldLoad (.vldu d a) d (.sreg 0) (fun s _ m e => s.th.sr a + BitVec.ofNat 64 (m * e))
    ∧ FieldLoad (.vlds d a b) d (.sreg b) (fun s _ _ e => s.th.sr a + s.th.sr b * BitVec.ofNat 64 e)
    ∧ FieldLoad (.vldx d a x) d x (fun s segs m e => s.th.sr a + BitVec.ofInt 64 ((m : Int) * s.indexOf x segs e))
    ∧ ∀ (s : State) (j : BitVec 4) (r : Running) (ws : List (Nat × Running)) (id : BitVec 4), Meet s j r ws →
        s.th.freeId = some id → Fits s d →
        let c := together r ws
        let g := Ready s j r c x
        let es := s.active c
        let wd := (s.th.ent d).width.toNat
        let m := elemSize c.ty wd
        s.th.operandFault c.nf c.ty.nfs (⟨0, d, c.wreq, .dst⟩ :: x.vfield.map fun v => ⟨2, v, .any, .src⟩) = none →
        let bytes (e : Nat) : List Byte := (List.range m).map fun i =>
          (s.seen e).extractLsb' (8 * ((g.1.rowOffset a x g.2 e + i) % 128)) 8
        Gives (exec (.vldl d a x) s) fun t => NextAll t ws ∧ SameMemory s t ∧
          FieldWritten s t es d false (fun e => fitLoad c wd m (leVal (bytes e))) ∧ t.th.s = s.th.s ∧ t.th.f = s.th.f ∧
          (es ≠ [] → t.th.vTaint d = idSet id ∧ t.th.out = s.th.out ++ [⟨id, true, none⟩]) ∧ (es = [] → t.th.out = s.th.out)

namespace Sys2Proof

/-- The entries a field store puts into the buffer: element after element, each by its pieces. -/
def fieldEntries (es : List Nat) (ps : Nat → List Piece) (bs : Nat → List Byte) : List Buffered :=
  (entries (es.flatMap ps) (es.flatMap bs)).map fun b => { b with vec := true }

/-- What a field store leaves: the entries are the thread's youngest unperformed stores; memory changes only in translation entries, and
rows, tags, registers and field taints not at all. -/
structure FieldStored (s t : State) (ws : List (Nat × Running)) (es : List Nat) (ps : Nat → List Piece)
    (new : List Buffered) : Prop where
  next : NextAll t ws
  own : t.own t.th = s.own s.th ++ new
  memory : ∀ a, (∀ e ∈ es, ¬ LeafByte (ps e) a) → t.homeByte a = s.homeByte a
  stores : t.rows = s.rows ∧ t.tags = s.tags ∧ t.arr = s.arr
  registers : t.th.s = s.th.s ∧ t.th.f = s.th.f ∧ t.th.fmap = s.th.fmap ∧ t.th.taints.v = s.th.taints.v ∧ t.th.out = s.th.out

/-- A field store of the active elements whose addresses all resolve. -/
def FieldStore (i : Instr) (d : BitVec 6) (b : BOp) (addr : State → List Elt → Nat → Nat → Dword) : Prop :=
  ∀ (s : State) (j : BitVec 4) (r : Running) (ws : List (Nat × Running)) (ps : Nat → List Piece),
    Meet s j r ws → Fresh s →
    let c := together r ws
    let g := Ready s j r c b
    let es := s.active c
    let wd := (s.th.ent d).width.toNat
    let m := elemSize c.ty wd
    s.th.operandFault c.nf c.ty.nfs (⟨0, d, c.wreq, .src⟩ :: b.vfield.map fun v => ⟨2, v, .any, .src⟩) = none →
    (∀ e ∈ es, g.1.elemPieces .write m (addr g.1 g.2 m e) = .ok (ps e)) →
    Gives (exec i s) fun t => Unarmed t ∧ t.th.flags = s.th.flags ∧
      FieldStored s t ws es ps (fieldEntries es ps fun e => storeBytes c wd m (bitsOf s d e))

/-- VSTU, VSTS and VSTX (R268), VSTL (R274), and VSTADD (R272) with every element at an address of its own: one update for each distinct
line, with the values of its elements in ascending order, waits in the strip store buffer (R80, R82); elements whose page was
translated differently have updates of their own. -/
def FieldStoreResults : Prop :=
  ∀ (d a b : BitVec 6) (x : BOp),
    FieldStore (.vstu d a) d (.sreg 0) (fun s _ m e => s.th.sr a + BitVec.ofNat 64 (m * e))
    ∧ FieldStore (.vsts d a b) d (.sreg b) (fun s _ _ e => s.th.sr a + s.th.sr b * BitVec.ofNat 64 e)
    ∧ FieldStore (.vstx d a x) d x (fun s segs m e => s.th.sr a + BitVec.ofInt 64 ((m : Int) * s.indexOf x segs e))
    ∧ ∀ (s : State) (j : BitVec 4) (r : Running) (ws : List (Nat × Running)), Meet s j r ws →
        let c := together r ws
        let g := Ready s j r c x
        let es := s.active c
        let wd := (s.th.ent d).width.toNat
        let m := elemSize c.ty wd
        s.th.operandFault c.nf c.ty.nfs (⟨0, d, c.wreq, .src⟩ :: x.vfield.map fun v => ⟨2, v, .any, .src⟩) = none →
        (let ps (e : Nat) := s.rowPieces e (g.1.rowOffset a x g.2 e) m;
          Gives (exec (.vstl d a x) s) fun t => t.th.flags = s.th.flags ∧
            FieldStored s t ws es ps (fieldEntries es ps fun e => storeBytes c wd m (bitsOf s d e)))
        ∧ (addable c.ty = true → Fresh s → ∀ p : Nat → Piece,
          let at_ (e : Nat) := s.th.sr a + BitVec.ofInt 64 ((m : Int) * g.1.indexOf x g.2 e)
          (∀ e ∈ es, g.1.addPieces m (at_ e) = .ok [p e]) → (∀ e ∈ es, ∀ q ∈ es, at_ e = at_ q → e = q) →
          Gives (exec (.vstadd d a x) s) fun t => Unarmed t ∧ t.th.flags = s.th.flags ∧
            let line (e : Nat) : Nat × Option TlbKey := ((p e).pa / 128, (p e).xl.map (·.key))
            let firsts := es.filter fun e => es.all fun q => !decide (line q = line e) || decide (e ≤ q)
            let value (e : Nat) : Dword := BitVec.ofNat 64 (leVal (storeBytes c wd m (bitsOf s d e)))
            FieldStored s t ws es (fun e => [p e]) (firsts.map fun e => ⟨true, false, (p e).xl.map (·.key), (p e).place,
              .add ⟨c.ty, BitVec.ofNat 4 m, c.sat, c.rnd⟩
                ((es.filter fun q => decide (line q = line e)).map fun q => ((p q).pa, value q))⟩))

/-- VSTEF (R179, R180, R272): without EFB each element converted by the mode's rounding; with EFB the residual chain over the active
elements in ascending order, which leaves its last residual in the register of the field's number. -/
def ErrorFeedbackStore : Prop :=
  ∀ (d a : BitVec 6) (ty : EType) (s : State) (j : BitVec 4) (r : Running) (ws : List (Nat × Running)) (ps : Nat → List Piece),
    Meet s j r ws → Fresh s →
    let c := together r ws
    let es := s.active c
    let f := ty.fmt c.nf
    let m := elemSize ty f.width
    let g := Ready s j r c (.sreg 0)
    c.ty.isFloat = true → ty.isFloat = true → s.th.operandFault c.nf (c.ty.nfs ++ ty.nfs) [⟨0, d, c.wreq, .src⟩] = none →
    (∀ e ∈ es, g.1.elemPieces .write m (s.th.sr a + BitVec.ofNat 64 (m * e)) = .ok (ps e)) →
    let slot : Fin 32 := (d.extractLsb' 0 5).toFin
    let q := chain f s.th.efr[slot] (es.map fun e => (e, (s.fopd c d e).val))
    let one (e : Nat) := opConv f c.rnd (s.fopd c d e)
    (modeRound r.mode ≠ 5 →
      Gives (exec (.vstef d a ty) s) fun t => Unarmed t ∧ t.th.efr = s.th.efr ∧
        t.th.flags = s.th.flags ||| es.foldl (fun g e => g ||| (one e).flags) 0 ∧
        FieldStored s t ws es ps (fieldEntries es ps fun e => leBytes m (one e).bits))
    ∧ (modeRound r.mode = 5 →
      Gives (exec (.vstef d a ty) s) fun t => Unarmed t ∧ t.th.efr = s.th.efr.set slot q.2.2 ∧
        t.th.flags = s.th.flags ||| q.2.1 ∧
        FieldStored s t ws es ps (fieldEntries es ps fun e =>
          leBytes m (((q.1.find? fun x => x.1 == e).map (·.2)).getD 0)))

/-! ### Matrix words: 13 R282 to R299, 15 R328 -/

/-- The word at which a ply stands: its block's number in program order, and its address. -/
def wordAt (r : Running) : Nat × Dword := (r.origin, r.pc)

/-- The plies meet at a matrix word that the engine has started for the thread (R143, R328). -/
def MeetEngine (s : State) (j : BitVec 4) (r : Running) (ws : List (Nat × Running)) : Prop :=
  Meet s j r ws ∧ ∃ m, ((s.matOf s.th.tid).find? fun m => m.word = wordAt r) = some m ∧ m.started = true

/-- The queue of matrix operations without the word's own. -/
def Left (s : State) (r : Running) : List MatOp := s.mq.filter fun m => !(m.tid = s.th.tid && m.word = wordAt r)

/-- The plies that wait at a word on which all of them meet, awake. -/
def Together (s : State) (j : BitVec 4) (r : Running) (ws : List (Nat × Running)) : State :=
  s.upd fun t => (t.await j.toNat r .crossing).meeting r.origin (ws.map (·.1))

/-- The machine as the engine finds it: the plies wait at the word, and the word's operation has left the queue. -/
def Served (s : State) (j : BitVec 4) (r : Running) (ws : List (Nat × Running)) : State :=
  { Together s j r ws with mq := Left s r }

/-- A matrix word that reads and writes no memory has been performed: the plies stand at the next word; of the thread only what the
word's own clause names differs beside the debug ring, and every other accumulator stands. -/
structure EngineDone (s t : State) (r : Running) (ws : List (Nat × Running)) (n : BitVec 2) : Prop where
  next : NextAll t ws
  outside : t = { s with th := t.th, mq := Left s r }
  thread : t.th = { s.th with
    plies := t.th.plies, dbg := t.th.dbg, segs := t.th.segs, acc := t.th.acc, s := t.th.s, taints := t.th.taints,
    strip := t.th.strip }
  taints : t.th.taints.v = s.th.taints.v ∧ t.th.taints.k = s.th.taints.k ∧ t.th.taints.plane = s.th.taints.plane ∧
    t.th.taints.ctl = s.th.taints.ctl
  others : ∀ k, k ≠ n → t.th.tile k = s.th.tile k ∧ t.th.accTaint k = s.th.accTaint k

/-- The engine's words (R283), and which of them is MCHK. -/
def engineTable (a b v : BitVec 6) (n : BitVec 2) : List (Instr × Bool) :=
  [(.mcfg a n, false), (.mwld a b n, false), (.mwlds a b v n, false), (.mstr a b n, false), (.mdrn a b n, false),
   (.mdrnv v b n, false), (.mzero n, false), (.mchk a n, true)]

/-- An operation that a thread issues ahead of its plies: one of the matrix words that stand in the same block after the word at which the
plies wait. -/
def IssuedAhead (s : State) (x : Running) (m : MatOp) : Prop :=
  m.tid = s.th.tid ∧ m.prio = s.th.prio ∧ m.seq = s.tick ∧ m.started = false ∧
    ∃ k, (x.pc - x.blk.addr).toNat / 4 < k ∧ m.word = (x.origin, x.blk.addr + BitVec.ofNat 64 (4 * k)) ∧
      ∃ w, x.blk.words[k]? = some w ∧ engineOp (blockDecode w) = some (m.acc, m.mchk)

/-- MCFG, MZERO, MCHK (R284, R293, R296). A word without an entry in the queue joins it, with room there, and waits; the model lets words
that follow it join with it, as far as there is room (log 41); with 16 entries in the core's queue nothing joins (R328). MCFG takes a good
shape image and refuses a bad one as MSHAPE, cause 1; MZERO gives every element zero with T = P; MCHK, which starts once the accumulator's
checks have ended, recomputes the checksum column and returns the count of checked rows, and where the column differs from the latched
one it is an error of the strip, the plane is damaged and the count returned is 0. -/
def AccumulatorResults : Prop :=
  ∀ (a b v : BitVec 6) (n : BitVec 2) (s : State) (j : BitVec 4) (r : Running) (ws : List (Nat × Running)),
    let queued := (s.matOps s.th.tid.core).length
    (∀ p ∈ engineTable a b v n, ∀ x, Meet s j r ws → ws.head? = some x → x.2.origin = r.origin → s.th.freeId ≠ none →
      (∀ m ∈ s.mq, m.tid = s.th.tid → m.word ≠ wordAt r) →
      (queued < 16 → ∃ more, exec p.1 s = .next { Together s j r ws with
          mq := s.mq ++ ⟨s.th.tid, wordAt r, s.th.prio, s.tick, n, p.2, false⟩ :: more } ∧
        queued + more.length < 16 ∧ ∀ m ∈ more, IssuedAhead s x.2 m)
      ∧ (16 ≤ queued → exec p.1 s = .next (Together s j r ws)))
    ∧ (MeetEngine s j r ws → n.toNat < s.th.tiles.toNat →
      let x := s.th.sr a
      let old := s.th.tile n
      let type := x.extractLsb' 4 2
      (x.toNat < 64 → type ≠ 3 → x.setWidth 4 ≠ (0 : BitVec 4) →
        Gives (exec (.mcfg a n) s) fun t => EngineDone s t r ws n ∧ t.th.s = s.th.s ∧ t.th.accTaint n = s.th.accTaint n ∧
          (t.th.tile n).plane =
            { old.plane with valid := false, damaged := false, atype := type, bands := x.setWidth 4 } ∧
          ∀ i, i < 8192 →
            look 0 (t.th.tile n).el i = (if type = old.plane.atype then look 0 old.el i else 0) ∧
            look 0 (t.th.tile n).tr i = if type = old.plane.atype then look 0 old.tr i else 0)
      ∧ ((64 ≤ x.toNat ∨ type = 3 ∨ x.setWidth 4 = (0 : BitVec 4)) →
        Gives (exec (.mcfg a n) s) fun t => SameMemory s t ∧ t.th.acc = s.th.acc ∧
          t.mq = (s.mq.filter fun m => m.tid ≠ s.th.tid) ∧
          ∃ k c, (ws.map (·.1)).head? = some k ∧ (t.th.plyAt k).stopped = some (mshape 1 1 a.toNat, c))
      ∧ (Gives (exec (.mzero n) s) fun t => EngineDone s t r ws n ∧ t.th.s = s.th.s ∧ (t.th.tile n).plane = old.plane ∧
          t.th.accTaint n = 0 ∧ ∀ i, i < 8192 → look 0 (t.th.tile n).el i = 0 ∧
            look 0 (t.th.tile n).tr i = if old.plane.atype = 0 then 0 else if old.plane.atype = 2 then 53 else 24)
      ∧ (let bad := old.plane.corrupt
        Gives (exec (.mchk a n) s) fun t => EngineDone s t r ws n ∧
          t.th.tile n = { old with plane := { (if bad then old.plane.damage else old.plane) with count := 0 } } ∧
          (∀ q, t.th.sr q = if q = 0 then 0 else if q = a then
            (if old.plane.valid = true ∧ bad = false then old.plane.count.setWidth 64 else 0) else s.th.sr q) ∧
          (∀ q, t.th.sTaint q = if q = 0 then 0 else if q = a then 0 else s.th.sTaint q) ∧
          t.th.strip = if bad then { s.th.strip with error := s.th.strip.error <|> some (3, 0) } else s.th.strip))

/-- The elements that a load of the engine reads, by position. -/
def loaded (s : State) (m k : Nat) (ps : List Piece) (i : Nat) : Nat := ((s.operandRead m k ps).2)[i]?.getD 0

/-- What MWLD and MWLDS leave beside the plane: the elements of the tile and every other accumulator stand, the plane's taint set becomes
the identifier taken, and memory is what the reads left of it. -/
structure Latched (s q t : State) (ws : List (Nat × Running)) (n : BitVec 2) (id : BitVec 4) : Prop where
  next : NextAll t ws
  memory : t.mem = q.mem ∧ t.rows = q.rows
  registers : t.th.s = s.th.s ∧ t.th.f = s.th.f ∧ t.th.flags = s.th.flags ∧ t.th.taints.v = s.th.taints.v
  elements : (t.th.tile n).el = (s.th.tile n).el ∧ (t.th.tile n).tr = (s.th.tile n).tr
  others : ∀ k, k ≠ n → t.th.tile k = s.th.tile k
  taint : t.th.taints.plane = s.th.taints.plane.set n.toFin (idSet id) ∧ t.th.taints.acc = s.th.taints.acc
  out : t.th.out = q.th.out ++ [⟨id, true, none⟩]

/-- The plane after a load of a K × N tile: its descriptor's fields with VALID, and everything else of it as before. -/
def planeOf (old : Plane) (x : Dword) (img : Dword) (sparse : Bool) (w : List (Nat × Dword)) : Plane :=
  { old with
    valid := true, damaged := false, weights := w, k := x.extractLsb' 32 7, n := x.extractLsb' 39 7,
    fmt := x.extractLsb' 46 4, nf := img, sparse := sparse }

/-- A checksum column: c[k] is the exact sum over n of W[k][n], where every weight of the row is finite (R286). -/
def ColumnOf (code : BitVec 4) (img : Dword) (rows cols : Nat) (w : List (Nat × Dword)) (sums : List (Nat × Option Int)) : Prop :=
  ∀ k, k < rows → look none sums k = sumUnits ((List.range cols).map fun l => matUnits code img (look 0 w (64 * k + l)).toNat)

/-- MWLD and MWLDS (R286, R287) with a descriptor, metadata and addresses that pass every check: weight [k][n] is element n of row k, or
for a sparse tile value i of column n at the position that the metadata of its group gives; every other weight is zero; the checksum
column is formed of them. -/
def WeightLoadResults : Prop :=
  ∀ (a b v : BitVec 6) (n : BitVec 2) (s : State) (j : BitVec 4) (r : Running) (ws : List (Nat × Running)) (id : BitVec 4)
    (ps : List Piece) (f : MFmt), MeetEngine s j r ws → s.th.freeId = some id → n.toNat < s.th.tiles.toNat →
    let c := together r ws
    let x := s.th.sr b
    let code := x.extractLsb' 46 4
    let rows := (x.extractLsb' 32 7).toNat
    let cols := (x.extractLsb' 39 7).toNat
    let old := (s.th.tile n).plane
    let u := Served s j r ws
    let at_ (stride k : Nat) : List Dword := (List.range k).flatMap fun g =>
      (List.range stride).map fun i => s.th.sr a + (x.extractLsb' 0 32).signExtend 64 * BitVec.ofNat 64 g
        + BitVec.ofNat 64 (f.m * i)
    MFmt.ofCode code = some f → f.g ≠ 0 → matFmtBad code c.nf = none →
    (s.th.sr a).toNat % f.m = 0 → (x.extractLsb' 0 32).toNat % f.m = 0 →
    (weightShape old b x false = none → u.eltsPieces .read f.m (at_ cols rows) = .ok ps →
      let q := (u.operandRead f.m (rows * cols) ps).1
      Gives (exec (.mwld a b n) s) fun t => Latched s q t ws n id ∧
        ∃ w y, (t.th.tile n).plane = { planeOf old x (matImage code c.nf) false w with sums := y } ∧
          ColumnOf code (matImage code c.nf) rows cols w y ∧ ∀ k l, k < 64 → l < 64 → look 0 w (64 * k + l) =
            if k < rows ∧ l < cols then BitVec.ofNat 64 (loaded u f.m (rows * cols) ps (k * cols + l)) else 0)
    ∧ (let g := rows / 8
      let data (e : Nat) : Nat := bitsOf s v e
      let pos (e i : Nat) : Nat := data e / 8 ^ i % 8
      weightShape old b x true = none → s.th.operandFault c.nf [] [⟨3, v, .range 12 64, .src⟩] = none →
      g * cols ≤ 256 * s.th.n → (∀ e, e < g * cols → pos e 0 < pos e 1 ∧ pos e 1 < pos e 2 ∧ pos e 2 < pos e 3) →
      let u := u.readRows [v] (List.range (g * cols))
      u.eltsPieces .read f.m (at_ (4 * cols) g) = .ok ps →
      let q := (u.operandRead f.m (g * (4 * cols)) ps).1
      Gives (exec (.mwlds a b v n) s) fun t => Latched s q t ws n id ∧
        ∃ w y, (t.th.tile n).plane = { planeOf old x (matImage code c.nf) true w with sums := y } ∧
          ColumnOf code (matImage code c.nf) rows cols w y ∧
          (∀ h l i, h < g → l < cols → i < 4 → look 0 w (64 * (8 * h + pos (h * cols + l) i) + l) =
            BitVec.ofNat 64 (loaded u f.m (g * (4 * cols)) ps (h * (4 * cols) + (4 * l + i))))
          ∧ (∀ h l p, h < 8 → l < 64 → p < 8 →
            ((∀ i, i < 4 → pos (h * cols + l) i ≠ p) ∨ g ≤ h ∨ cols ≤ l) → look 0 w (64 * (8 * h + p) + l) = 0))

/-- accumulate(acc, a, w) of R290: an exact integer sum fitted once to 32 bits; floats of 16 bits or fewer, one rounding of the exact sum;
binary32 and binary64, one fused step for each k. -/
def accumulated (tl : Tile) (code : BitVec 4) (sf : Fmt) (c : VCtx) (row l : Nat) (as : List Nat) : FOut :=
  let ws := (List.range tl.plane.k.toNat).map fun k => (look 0 tl.plane.weights (64 * k + l)).toNat
  let f := if tl.plane.atype = 2 then Fmt.b64 else Fmt.b32
  if tl.plane.atype = 0 then
    let eight (q : BitVec 4) (x : Nat) : Int := if q = 0 then (BitVec.ofNat 8 x).toInt else (x % 256 : Nat)
    let o := fit 32 true c.sat ((as.zip ws).foldl (fun x p => x + eight code p.1 * eight tl.plane.fmt p.2)
      (BitVec.ofNat 32 (tl.get row l)).toInt)
    ⟨o.1, 0, o.2⟩
  else if code = 4 ∨ code = 5 then
    (as.zip ws).foldl (fun o p =>
      let q := opFma f c.rnd false false (sf.opd p.1 sf.prec) ((matFmt tl.plane.fmt tl.plane.nf).opd p.2
        (matFmt tl.plane.fmt tl.plane.nf).prec) (f.opd o.bits o.t)
      { q with flags := q.flags ||| o.flags }) ⟨tl.get row l, tl.trust row l, 0⟩
  else accNarrow f sf (matFmt tl.plane.fmt tl.plane.nf) c.rnd (f.opd (tl.get row l) (tl.trust row l)) as ws

/-- One row of a stream: its elements are read, every column below N of its accumulator row is accumulated, flags are raised, and the
row's check begins (R294). -/
def StreamsRow (n : BitVec 2) (c : VCtx) (x va : Dword) (m : Nat) (s t : State) (i : Nat) : Prop :=
  let code := x.extractLsb' 47 4
  let tl := s.th.tile n
  let row := (x.extractLsb' 40 7).toNat + i
  let k := tl.plane.k.toNat
  let cols := List.range tl.plane.n.toNat
  let at_ := va + (x.extractLsb' 0 32).signExtend 64 * BitVec.ofNat 64 i
  ∃ ps, s.eltsPieces .read m ((List.range k).map fun e => at_ + BitVec.ofNat 64 (m * e)) = .ok ps ∧
    let q := s.operandRead m k ps
    let new (l : Nat) : FOut := accumulated tl code (matFmt code (matImage code c.nf)) c row l q.2
    t = q.1.upd fun th => { th.setTile n (cols.foldl (fun y l => Tile.put y row l (new l).bits (new l).t) tl) with
      flags := th.flags ||| cols.foldl (fun g l => g ||| (new l).flags) 0,
      strip := { th.strip with
        mchecks := th.strip.mchecks ++ [⟨n, at_, tl.plane.rowDiffers code (matImage code c.nf) q.2⟩] } }

/-- Rows streamed one after another. -/
def StreamsRows (n : BitVec 2) (c : VCtx) (x va : Dword) (m : Nat) : State → List Nat → State → Prop
  | s, [], t => t = s
  | s, i :: is, t => ∃ u, StreamsRow n c x va m s u i ∧ StreamsRows n c x va m u is t

/-- MSTR (R289, R290) whose rows from its start on can all be read: those rows are accumulated in order, MROW.VALID is cleared, the rows
are counted and their checks outstanding, and the accumulator's taint set gains the weights' and the identifier. An element put into a
tile is the one read there, with its count, and no other element of the tile differs; and a plane whose checksum column is that of its
weights passes the check of every row (R294). -/
def StreamResults : Prop :=
  (∀ (tl : Tile) (e l q k x y : Nat), l < tl.plane.columns → k < tl.plane.columns →
    (tl.put e l x y).get q k = (if q = e ∧ k = l then x % 2 ^ (if tl.plane.atype = 2 then 64 else 32) else tl.get q k) ∧
    (tl.put e l x y).trust q k = if q = e ∧ k = l then y % 64 else tl.trust q k)
  ∧ (∀ (p : Plane) (code : BitVec 4) (img : Dword) (as : List Nat), p.summed.rowDiffers code img as = false)
  ∧ ∀ (a b : BitVec 6) (n : BitVec 2) (s v : State) (j : BitVec 4) (r : Running) (ws : List (Nat × Running)) (id : BitVec 4)
    (f : MFmt), MeetEngine s j r ws → s.th.freeId = some id → n.toNat < s.th.tiles.toNat →
    let c := together r ws
    let x := s.th.sr b
    let code := x.extractLsb' 47 4
    let rows := (x.extractLsb' 32 8).toNat
    let mrow := s.th.mrow
    let start := if mrow.getLsbD 7 = true ∧ mrow.extractLsb' 8 2 = n then (mrow.extractLsb' 0 7).toNat else 0
    let u := Served s j r ws
    MFmt.ofCode code = some f → matFmtBad code c.nf = none → (s.th.tile n).plane.damaged = false →
    (s.th.tile n).plane.n.toNat ≤ (s.th.tile n).plane.columns → streamShape (s.th.tile n).plane n b x = none → (s.th.sr a).toNat % f.m = 0 → (x.extractLsb' 0 32).toNat % f.m = 0 →
    modeTtrap r.mode = false → start ≤ rows → StreamsRows n c x (s.th.sr a) f.m u (List.range' start (rows - start)) v →
    Gives (exec (.mstr a b n) s) fun t => NextAll t ws ∧ t.mem = v.mem ∧ t.rows = v.rows ∧ t.th.s = s.th.s ∧
      t.th.f = s.th.f ∧ t.th.flags = v.th.flags ∧ t.th.mrow.getLsbD 7 = false ∧
      (∀ h, h ≠ n → t.th.tile h = s.th.tile h) ∧ (t.th.tile n).el = (v.th.tile n).el ∧ (t.th.tile n).tr = (v.th.tile n).tr ∧
      (t.th.tile n).plane = { (s.th.tile n).plane with
        count := BitVec.ofNat 32 (min ((s.th.tile n).plane.count.toNat + (rows - start)) (2 ^ 32 - 1)) } ∧
      t.th.accTaint n = s.th.accTaint n ||| s.th.taints.plane[n.toFin] ||| idSet id ∧
      t.th.out = v.th.out ++ [⟨id, true, none⟩] ∧
      t.th.strip.mchecks = v.th.strip.mchecks

/-- An accumulator element converted to a memory format or to the MODE type by the rules of R291 and R292, without its count. -/
def drained (tl : Tile) (rnd : BitVec 3) (sat : Bool) (row l w : Nat) (signed : Bool) (dst : Option Fmt) : Nat × Flags :=
  let i := (BitVec.ofNat 32 (tl.get row l)).toInt
  let v := (if tl.plane.atype = 2 then Fmt.b64 else Fmt.b32).read (tl.get row l)
  match dst with
  | some f =>
    if tl.plane.atype = 0 then ((opOfInt f rnd i).bits, (opOfInt f rnd i).flags)
    else ((f.finish rnd (Exact.ofVal v)).bits, (f.finish rnd (Exact.ofVal v)).flags)
  | none => if tl.plane.atype = 0 then fit w signed sat i else opToInt w signed rnd v

end Sys2Proof

/-- MDRN and MDRNV (R291, R292) with no fault and no retry under way. MDRN's stores wait in the strip store buffer, row after row, and CLR
makes the drained elements zero with T = P; MDRNV writes one column to a field, whose taint set gains the accumulator's. -/
def Obligations.DrainResults : Prop :=
  ∀ (a b v : BitVec 6) (n : BitVec 2) (s : State) (j : BitVec 4) (r : Running) (ws : List (Nat × Running)),
    MeetEngine s j r ws → n.toNat < s.th.tiles.toNat → r.vl.toNat ≤ 128 →
    let c := together r ws
    let x := s.th.sr b
    let tl := s.th.tile n
    let es := s.active c
    (∀ (f : MFmt) (ps : Nat → List Piece),
      let code := x.extractLsb' 45 4
      let first := (x.extractLsb' 32 6).toNat
      let count := (x.extractLsb' 38 7).toNat
      MFmt.ofCode code = some f → matFmtBad code c.nf = none → drainShape tl.plane b x = none → Fresh s →
      (∀ e ∈ es, (Served s j r ws).eltsPieces .write f.m ((List.range count).map fun i =>
        s.th.sr a + (x.extractLsb' 0 32).signExtend 64 * BitVec.ofNat 64 e + BitVec.ofNat 64 (f.m * i)) = .ok (ps e)) →
      let one (e i : Nat) := drained tl c.rnd c.sat e (first + i) (8 * f.m) (code ≠ 1)
        (if f.float then some (matFmt code (matImage code c.nf)) else none)
      Gives (exec (.mdrn a b n) s) fun t => Unarmed t ∧
        FieldStored s t ws es ps (fieldEntries es ps fun e => (List.range count).flatMap fun i => leBytes f.m (one e i).1) ∧
        t.th.flags = s.th.flags ||| es.foldl (fun g e => g ||| (List.range count).foldl (fun g i => g ||| (one e i).2) 0) 0 ∧
        (∀ h, h ≠ n → t.th.tile h = s.th.tile h) ∧ (t.th.tile n).plane = tl.plane ∧
        ∀ e l, e < 128 → l < tl.plane.columns →
          let cleared := x.getLsbD 49 = true ∧ e ∈ es ∧ first ≤ l ∧ l < first + count
          (cleared → (t.th.tile n).get e l = 0 ∧ (t.th.tile n).trust e l = tl.plane.prec) ∧
          (¬ cleared → (t.th.tile n).get e l = tl.get e l ∧ (t.th.tile n).trust e l = tl.trust e l))
    ∧ (let l := (s.th.sr b).toNat % 64
      let wd := (s.th.ent v).width.toNat
      let f := tl.plane.fmtOf
      let out (e : Nat) : EOut :=
        if c.ty.isFloat then
          (if tl.plane.atype = 0 then let o := opOfInt c.fmt c.rnd (BitVec.ofNat 32 (tl.get e l)).toInt; ⟨o.bits, some o.t, o.flags⟩
          else let o := opConv c.fmt c.rnd (f.opd (tl.get e l) (tl.trust e l)); ⟨o.bits, some o.t, o.flags⟩)
        else let o := drained tl c.rnd c.sat e l wd c.ty.signed none; ⟨o.1, none, o.2⟩
      (c.ty.isInt = true ∨ c.ty.isFloat = true) → s.th.operandFault c.nf c.ty.nfs [⟨1, v, c.wreq, .dst⟩] = none → Fits s v →
      l < tl.plane.columns →
      (modeTtrap r.mode = true → ∀ e ∈ es, ∀ q, (out e).t = some q → (modeTmin r.mode).toNat ≤ q) →
      Gives (exec (.mdrnv v b n) s) fun t => NextAll t ws ∧ SameMemory s t ∧ FieldWritten s t es v false out ∧
        t.th.acc = s.th.acc ∧ t.th.s = s.th.s ∧ t.th.f = s.th.f ∧
        t.th.flags = s.th.flags ||| es.foldl (fun g e => g ||| (out e).flags) 0 ∧
        ∀ q, t.th.vTaint q = if q = v ∧ es ≠ [] then s.th.accTaint n ||| s.th.vTaint v else s.th.vTaint q)

namespace Sys2Proof

/-- SPCOMP (R288): of each group of eight elements the four that fewer than four others rank before, in order of position, with those
positions as the metadata element. Elements at VL and above are zero. -/
def CompressResults : Prop :=
  ∀ (v m x : BitVec 6) (s : State) (j : BitVec 4) (r : Running) (ws : List (Nat × Running)), Meet s j r ws → Fits s v → Fits s m →
    let c := together r ws
    let groups := (c.vl + 7) / 8
    let bits (e : Nat) : Nat := if e < c.vl then bitsOf s x e else 0
    let key (e : Nat) : Key := spKey c (s.th.ent x).width.toNat (bits e)
    let ahead (q i k : Nat) : Bool := spAbove c (key (8 * q + i)) (key (8 * q + k)) ||
      (!spAbove c (key (8 * q + k)) (key (8 * q + i)) && decide (i < k))
    let picks (q : Nat) : List Nat := (List.range 8).filter fun k =>
      decide (((List.range 8).filter fun i => ahead q i k).length < 4)
    let out (e : Nat) : EOut :=
      let src := 8 * (e / 4) + (picks (e / 4)).getD (e % 4) 0
      if src < c.vl then movedElt s c v x src else ⟨0, if c.ty.isFloat then some c.fmt.prec else none, 0⟩
    (c.ty.isInt = true ∨ c.ty.isFloat = true) →
    s.th.operandFault c.nf c.ty.nfs [⟨1, v, c.wreq, .dst⟩, ⟨2, m, .range 12 64, .dst⟩, ⟨3, x, c.wreq, .src⟩] = none →
    Gives (exec (.spcomp v m x) s) fun t => CrossDone s t ws ∧ t.th.s = s.th.s ∧ t.th.f = s.th.f ∧ t.tags = s.tags ∧
      (∀ q, q < groups → (picks q).length = 4) ∧
      (∀ e, e < 4 * groups → fieldBits (t.rowAt (s.th.rowKey e)) (s.th.ent v) = (out e).bits % 2 ^ (s.th.ent v).width.toNat ∧
        ∀ y, (out e).t = some y → (s.th.ent v).trust = true → trustBits (t.rowAt (s.th.rowKey e)) (s.th.ent v) = y % 64) ∧
      (∀ q, q < groups → fieldBits (t.rowAt (s.th.rowKey q)) (s.th.ent m) =
        (picks q).getD 0 0 + 8 * (picks q).getD 1 0 + 64 * (picks q).getD 2 0 + 512 * (picks q).getD 3 0) ∧
      (∀ k i, (∀ e, e < 4 * groups → k = s.th.rowKey e → ¬ inCols (s.th.ent v) i) →
        (∀ q, q < groups → k = s.th.rowKey q → ¬ inCols (s.th.ent m) i) → (t.rowAt k).getLsbD i = (s.rowAt k).getLsbD i) ∧
      t.th.flags = s.th.flags ||| (List.range (4 * groups)).foldl (fun g e => g ||| (out e).flags) 0

/-! ### Copies and collectives: 14 R301 to R318 -/

/-- One side of a copy: a fabric address, or the places that a range of virtual addresses reaches (R303). -/
def sideOf (s : State) (k : Kind) (fab : Bool) (v : Dword) (n : Nat) : CopySide :=
  if fab then .fabric v else .runs (s.rangeRuns k v n).2

/-- A range of n bytes that passes R10 to R15 and whose pages all translate (R303, steps 2 and 5). -/
def RangePasses (s : State) (k : Kind) (v : Dword) (n : Nat) : Prop :=
  n ≠ 0 → s.rangeFault v n = none ∧ (s.rangeRuns k v n).1 = []

/-- A range in the scratchpad view or in the cluster windows (Table 1.2). -/
def NearRange (v : Dword) (n : Nat) : Prop :=
  nearBase ≤ v.toNat ∧ (v.toNat + n ≤ nearBase + 0x100000 ∨ nearBase + 0x100000 ≤ v.toNat ∧ v.toNat + n ≤ nearBase + 0x300000)

/-- The checks of R303 on a copy whose destination and source are near-window operands or not, in the words of the rule. -/
structure CopyPasses (s : State) (nearDst nearSrc : Bool) (d a b : BitVec 6) : Prop where
  reserved : (s.th.sr b).extractLsb' 36 28 = 0
  fields : ((s.th.sr b).getLsbD 34 = true → nearDst = false) ∧ ((s.th.sr b).getLsbD 33 = true → nearSrc = false) ∧
    ((s.th.sr b).extractLsb' 28 4 ≠ 0 → nearDst = true) ∧ ((s.th.sr b).getLsbD 35 = true → b ≠ 63)
  nearRanges : (nearDst = true → NearRange (s.th.sr d) ((s.th.sr b).extractLsb' 0 28).toNat) ∧
    (nearSrc = true → NearRange (s.th.sr a) ((s.th.sr b).extractLsb' 0 28).toNat)
  farRanges : (nearDst = false → (s.th.sr b).getLsbD 34 = false → inNear (s.th.sr d) ((s.th.sr b).extractLsb' 0 28).toNat = false) ∧
    (nearSrc = false → (s.th.sr b).getLsbD 33 = false → inNear (s.th.sr a) ((s.th.sr b).extractLsb' 0 28).toNat = false)
  multicast : (s.th.sr b).extractLsb' 28 4 ≠ 0 → nearBase + 0x100000 ≤ (s.th.sr d).toNat ∧
    (s.th.sr d).toNat + ((s.th.sr b).extractLsb' 0 28).toNat ≤ nearBase + 0x180000
  ranges : ((s.th.sr b).getLsbD 34 = false →
      ∀ v ∈ copyDests (s.th.sr b) (s.th.sr d), RangePasses s .write v ((s.th.sr b).extractLsb' 0 28).toNat) ∧
    ((s.th.sr b).getLsbD 33 = false → RangePasses s .read (s.th.sr a) ((s.th.sr b).extractLsb' 0 28).toNat)
  word : (s.th.sr b).getLsbD 35 = true → (s.th.sr (b + 1)).extractLsb' 0 3 = 0 ∧
    if (s.th.sr b).getLsbD 34 then (s.th.sr (b + 1)).extractLsb' 48 16 = (s.th.sr d).extractLsb' 48 16
    else ∃ r, s.arrPlace s.th .amo (s.th.sr (b + 1)) = .ok r
  routed : ((s.th.sr b).getLsbD 34 = true → s.routed ((s.th.sr d).extractLsb' 48 16) = true) ∧
    ((s.th.sr b).getLsbD 33 = true → s.routed ((s.th.sr a).extractLsb' 48 16) = true)
  apart : (s.th.sr b).getLsbD 34 = false → (s.th.sr b).getLsbD 33 = false →
    ∀ v ∈ copyDests (s.th.sr b) (s.th.sr d), rangesMeet v (s.th.sr a) ((s.th.sr b).extractLsb' 0 28).toNat
      ((s.th.sr b).extractLsb' 0 28).toNat = false

/-- A chunk of the copy that the thread in focus of s issues in w (R304): bytes of one 4 KiB block of one destination, with their
source and destination parts, under the route registers as they stand at the issue (R308). -/
structure ChunkOf (s w : State) (d a b : BitVec 6) (c : Chunk) : Prop where
  copy : c.copy = w.nextCopy ∧ c.sync = !(s.th.sr b).getLsbD 32
  issuer : c.tid = s.th.tid ∧ c.group = s.th.group ∧ c.rank = s.th.rank ∧ c.ctx = s.th.ctx
  fresh : c.data = none ∧ c.phase = .ready ∧ c.pkrank = w.regs.pkrank ∧ c.frtbase = w.regs.frtbase
  arrival : if (s.th.sr b).getLsbD 35 then
      if (s.th.sr b).getLsbD 34 then c.arr = some (.fabric (s.th.sr (b + 1)), s.th.sr (b + 1)) ∧ c.arrVia = none
      else ∃ r, s.arrPlace s.th .amo (s.th.sr (b + 1)) = .ok r ∧ c.arr = some (r.1, s.th.sr (b + 1)) ∧ c.arrVia = r.2.map (·.key)
    else c.arr = none ∧ c.arrVia = none
  block : 0 < c.len ∧ c.dstVa.toNat / 4096 = (c.dstVa.toNat + c.len - 1) / 4096
  bytes : ∃ v ∈ copyDests (s.th.sr b) (s.th.sr d), ∃ o, o + c.len ≤ ((s.th.sr b).extractLsb' 0 28).toNat ∧
    c.dstVa = v + BitVec.ofNat 64 o ∧
    c.src = (sideOf s .read ((s.th.sr b).getLsbD 33) (s.th.sr a) ((s.th.sr b).extractLsb' 0 28).toNat).part o c.len ∧
    c.dst = (sideOf s .write ((s.th.sr b).getLsbD 34) v ((s.th.sr b).extractLsb' 0 28).toNat).part o c.len

/-- A byte of a translation entry that the pages of a range use (R44, R45). -/
def RangeLeafByte (s : State) (k : Kind) (v : Dword) (n a : Nat) : Prop :=
  ∃ p ∈ s.pageParts s.th k v n, ∃ x, p.2.2 = .ok x ∧ x.leafAt ≤ a ∧ a < x.leafAt + 8

/-- Every byte reads at its home as it did, apart from some bytes of translation entries, the dirty bytes that the core's L1 puts back to
their homes, and what is queued at a line's coordinator before them (R71). -/
def HomesStand (s t : State) (leaf : Nat → Prop) : Prop :=
  ∀ a, ¬ leaf a → ¬ DirtyByte s s.th.tid.core a → ¬ QueuedByte s a → t.homeByte a = s.homeByte a

/-- What an arrival word's address uses of translation, where it has one. -/
def wordXl (s : State) (b : BitVec 6) : Option Xl :=
  if (s.th.sr b).getLsbD 35 ∧ ¬ (s.th.sr b).getLsbD 34 then
    (match s.arrPlace s.th .amo (s.th.sr (b + 1)) with
      | .ok r => r.2
      | .error _ => none)
  else none

/-- The machine as a copy's chunks find it (R303): the strip committed and performed, the pages of both ranges and of the arrival word
used, the bytes of both put back from the core's L1, and the destination's dropped from it. -/
def copyHome (s : State) (d a b : BitVec 6) : State :=
  let x := s.th.sr b
  let n := (x.extractLsb' 0 28).toNat
  let u := if x.getLsbD 33 then s.settle else s.settle.installRange .read (s.settle.th.sr a) n
  let u := if x.getLsbD 34 then u else u.installRange .write (u.th.sr d) n
  (u.installArr .amo (u.th.sr (b + 1)) (wordXl s b)).flushFor (sideOf s .read (x.getLsbD 33) (s.th.sr a) n).local
    ((copyDests x (s.th.sr d)).flatMap fun v => (sideOf s .write (x.getLsbD 34) v n).local)

/-- The bytes of translation entries that a copy uses. -/
def CopyLeafByte (s : State) (d a b : BitVec 6) (at_ : Nat) : Prop :=
  let x := s.th.sr b
  let n := (x.extractLsb' 0 28).toNat
  let u := if x.getLsbD 33 then s.settle else s.settle.installRange .read (s.settle.th.sr a) n
  (x.getLsbD 33 = false ∧ RangeLeafByte s.settle .read (s.th.sr a) n at_) ∨
    (x.getLsbD 34 = false ∧ RangeLeafByte u .write (s.th.sr d) n at_) ∨
    ∃ y, wordXl s b = some y ∧ y.leafAt ≤ at_ ∧ at_ < y.leafAt + 8

/-- What a copy instruction i does when it passes the checks of R303: it completes, the strip committed and performed as by a release,
no byte moved at the issue but from the core's L1 to its home; chunks that together hold LEN bytes for each destination join the engine,
unless the core's share of the engine is full, which it waits for. A reserved bit of the control word is CPYBAD. -/
def CopyDone (i : Instr) (nearDst nearSrc : Bool) (d a b : BitVec 6) (s : State) : Prop :=
  (CopyPasses s nearDst nearSrc d a b →
    (s.copyFull = true → exec i s = .next s) ∧
    (s.copyFull = false → Gives (exec i s) fun t =>
      t.th = { s.settle.th with pc := s.settle.th.pc + 4, event := t.th.event, sleep := t.th.sleep } ∧
      t.rows = s.settle.rows ∧ t.tags = s.settle.tags ∧ t.regs = s.settle.regs ∧ t.nextCopy = s.settle.nextCopy + 1 ∧
      HomesStand s.settle t (CopyLeafByte s d a b) ∧
      t = { copyHome s d a b with chunks := t.chunks, nextCopy := t.nextCopy, th := t.th } ∧
      ∃ new, t.chunks = s.settle.chunks ++ new ∧ (∀ c ∈ new, ChunkOf s s.settle d a b c) ∧
        (new.map (·.len)).sum =
          ((s.th.sr b).extractLsb' 0 28).toNat * (copyDests (s.th.sr b) (s.th.sr d)).length)) ∧
  ((s.th.sr b).extractLsb' 36 28 ≠ 0 → ∃ v, exec i s = .next (s.raise (TrapInfo.mk0 cCPYBAD v)))

end Sys2Proof

/-- CPYG2L, CPYL2G, CPYL2L and CPYG2G complete (`CopyDone`), with the near-window operands that Table 14.1 gives each; a multicast names
the destination of each core of its mask. CPYWAIT, no chunk of the thread left, returns the failures counted and clears them; until then
it waits. -/
def Obligations.CopyResults : Prop :=
  (∀ (d a b : BitVec 6) (s : State), AtControl s →
    CopyDone (.cpyg2l d a b) true false d a b s ∧ CopyDone (.cpyl2g d a b) false true d a b s ∧
    CopyDone (.cpyl2l d a b) true true d a b s ∧ CopyDone (.cpyg2g d a b) false false d a b s)
  ∧ (∀ x dv : Dword, copyDests x dv = if x.extractLsb' 28 4 = 0 then [dv]
      else ((List.range 4).filter fun c => x.getLsbD (28 + c)).map fun c => dv + BitVec.ofNat 64 (c * 0x80000))
  ∧ (∀ (d : BitVec 6) (s : State), AtControl s →
    (∀ c ∈ s.chunks, ¬(c.group = s.th.group ∧ c.rank = s.th.rank ∧ c.ctx = s.th.ctx)) → s.th.freeId ≠ none →
    Gives (exec (.cpywait d) s) fun t => t.th.copyFails = 0 ∧ t.th.copyCode = 0 ∧
      WritesS s { t with th := { t.th with copyFails := s.th.copyFails, copyCode := s.th.copyCode } } d
        (s.th.copyFails.setWidth 64 ||| s.th.copyCode.setWidth 64 <<< 32) 0 0)
  ∧ (∀ (d : BitVec 6) (s : State), AtControl s →
    (∃ c ∈ s.chunks, c.group = s.th.group ∧ c.rank = s.th.rank ∧ c.ctx = s.th.ctx) → exec (.cpywait d) s = .next s)

namespace Sys2Proof

/-- The group that a collective's control word names, and the bytes of an element, of the source and of the destination
(R312, R314). -/
def colOf (s : State) (x : Dword) : Group := s.groupAt (x.setWidth 6)

def colElem (kind : BitVec 2) (x : Dword) : Nat := if kind = 3 then 1 else if x.getLsbD 6 then 4 else 2

def colSrcLen (kind : BitVec 2) (s : State) (x : Dword) : Nat :=
  let e := (x.extractLsb' 8 28).toNat
  if kind = 3 then e else if kind = 1 then (segAt e (colOf s x).n (colElem kind x) (colOf s x).me).2 else colElem kind x * e

def colDstLen (kind : BitVec 2) (s : State) (x : Dword) : Nat :=
  let e := (x.extractLsb' 8 28).toNat
  if kind = 3 then 0 else if kind = 0 then (segAt e (colOf s x).n (colElem kind x) (colOf s x).me).2 else colElem kind x * e

/-- The checks of R311 on a collective, in the words of the rule. -/
structure ColPasses (s : State) (kind : BitVec 2) (d a b : BitVec 6) : Prop where
  reserved : (s.th.sr b).extractLsb' 36 28 = 0 ∧ (s.th.sr b).getLsbD 7 = false ∧ (kind = 3 → (s.th.sr b).getLsbD 6 = false)
  group : (colOf s (s.th.sr b)).valid = true ∧ (colOf s (s.th.sr b)).failed = false ∧ (colOf s (s.th.sr b)).routed = true
  count : if kind = 3 then ((s.th.sr b).extractLsb' 8 28).toNat ≤ (colOf s (s.th.sr b)).slotSize
    else (s.th.sr b).extractLsb' 8 28 ≠ 0
  source : (s.th.sr a).toNat % colElem kind (s.th.sr b) = 0 ∧ (s.th.sr a).toNat < 2 ^ 56 ∧
    inNear (s.th.sr a) (Nat.max (colSrcLen kind s (s.th.sr b)) 1) = false ∧
    RangePasses s .read (s.th.sr a) (colSrcLen kind s (s.th.sr b))
  dest : kind ≠ 3 → (s.th.sr d).toNat % colElem kind (s.th.sr b) = 0 ∧ (s.th.sr d).toNat < 2 ^ 56 ∧
    inNear (s.th.sr d) (Nat.max (colDstLen kind s (s.th.sr b)) 1) = false ∧
    RangePasses s .write (s.th.sr d) (colDstLen kind s (s.th.sr b))
  apart : colSrcLen kind s (s.th.sr b) ≠ 0 → colDstLen kind s (s.th.sr b) ≠ 0 →
    rangesMeet (s.th.sr d) (s.th.sr a) (colDstLen kind s (s.th.sr b)) (colSrcLen kind s (s.th.sr b)) = false

/-- The machine as a collective's engine finds it (R311): the strip committed and performed, the pages of both ranges used, the bytes of
both put back from the core's L1, and the destination's dropped from it. -/
def colHome (kind : BitVec 2) (s : State) (d a b : BitVec 6) : State :=
  let x := s.th.sr b
  let u := s.settle
  let sr := (s.rangeRuns .read (s.th.sr a) (colSrcLen kind s x)).2
  let dr := (s.rangeRuns .write (s.th.sr d) (colDstLen kind s x)).2
  let u := u.installRange .read (u.th.sr a) (colSrcLen kind u x)
  (u.installRange .write (u.th.sr d) (colDstLen kind s.settle x)).flushFor sr dr

/-- The bytes of translation entries that a collective uses. -/
def ColLeafByte (kind : BitVec 2) (s : State) (d a b : BitVec 6) (at_ : Nat) : Prop :=
  let x := s.th.sr b
  let n := colSrcLen kind s.settle x
  RangeLeafByte s.settle .read (s.th.sr a) n at_ ∨
    RangeLeafByte (s.settle.installRange .read (s.settle.th.sr a) n) .write (s.th.sr d) (colDstLen kind s.settle x) at_

/-- The number of a group's next slot step, those that its operations have still to send counted (R312). -/
def stepsIssued (g : Group) : Nat :=
  g.step + g.ops.foldl (fun n o => n + ((o.sendSizes g).foldl (fun n b => n + slotSteps g.slotSize b) 0) - o.sent) 0

/-- What a collective instruction of a kind does when it passes the checks of R311: it completes, the strip committed and performed and
no byte of memory moved before the engine works, but from the core's L1 to its home; its operation joins the group's, on which the
engine then goes as far as it can; COLROT writes its step number. A step of COLROT received before it ends the group's work for another
kind. A group not in service is COLBAD. -/
def ColDone (i : Instr) (kind : BitVec 2) (d a b : BitVec 6) (s : State) : Prop :=
  (ColPasses s kind d a b → Gives (exec i s) fun t =>
    let w := colHome kind s d a b
    w.groups = s.settle.groups ∧ w.rows = s.settle.rows ∧ w.tags = s.settle.tags ∧ w.arr = s.settle.arr ∧
    w.chunks = s.settle.chunks ∧ w.regs = s.settle.regs ∧ w.fabric = s.settle.fabric ∧ w.drain = s.settle.drain ∧
    w.th = { s.settle.th with event := w.th.event, sleep := w.th.sleep } ∧
    HomesStand s.settle w (ColLeafByte kind s d a b) ∧
    let x := s.th.sr b
    let n : BitVec 6 := x.setWidth 6
    let g := w.groupAt n
    let o : ColOp :=
      { group := w.th.group, rank := w.th.rank, ctx := w.th.ctx, tid := w.th.tid, kind := kind, begun := false,
        src := (s.rangeRuns .read (s.th.sr a) (colSrcLen kind s x)).2,
        dst := (s.rangeRuns .write (s.th.sr d) (colDstLen kind s x)).2,
        count := x.extractLsb' 8 28, fmt := x.getLsbD 6, step := stepsIssued g, sent := 0, owed := kind == 3 && g.early == 0,
        holds := [], acc := [] }
    let u := w.groupPut n { g with ops := g.ops ++ [o], early := if kind = 3 then g.early - 1 else g.early }
    let u := if kind = 3 ∧ 2 ≤ o.step ∧ o.step ≤ g.step then u.slotReceipts n (o.step - 1) else u
    let u := if kind ≠ 3 ∧ g.early ≠ 0 then u.failGroup n 3 3 0 g.prevPk g.received else u
    t = { u.colGo n with th := t.th } ∧
    t.th = { if kind = 3 then (u.colGo n).th.setS d (BitVec.ofNat 64 o.step) 0 else (u.colGo n).th with
      pc := (u.colGo n).th.pc + 4 }) ∧
  ((colOf s (s.th.sr b)).valid = false → ∃ y, exec i s = .next (s.raise (TrapInfo.mk0 cCOLBAD y)))

end Sys2Proof

/-- COLRS, COLAG, COLAR and COLROT complete (`ColDone`). COLSTAT returns the failure record. COLWAIT first sends the receipts of the steps
received, once; then, nothing of the thread's operations left or the group failed, it returns 0 or the record, and else it waits. -/
def Obligations.CollectiveResults : Prop :=
  (∀ (d a b : BitVec 6) (s : State), AtControl s →
    ColDone (.colrs d a b) 0 d a b s ∧ ColDone (.colag d a b) 1 d a b s ∧
    ColDone (.colar d a b) 2 d a b s ∧ ColDone (.colrot d a b) 3 d a b s)
  ∧ (∀ (d a : BitVec 6) (s : State), AtControl s →
    Gives (exec (.colstat d a) s) fun t => WritesS s t d (colOf s (s.th.sr a)).failure 0 0)
  ∧ ∀ (d a : BitVec 6) (s : State), AtControl s →
    let i : BitVec 6 := (s.th.sr a).setWidth 6
    let u := if s.th.sleep ≠ .colwait i ∧ (s.groupAt i).valid = true ∧ (s.groupAt i).failed = false
      then (s.slotReceipts i (s.groupAt i).received).colGo i else s
    let g := u.groupAt i
    ((g.failed = true ∨ u.colBusy u.th i = false) → u.th.freeId ≠ none →
      Gives (exec (.colwait d a) s) fun t => t.th.sleep = .awake ∧
        WritesS u { t with th := { t.th with sleep := u.th.sleep } } d (if g.failed then g.failure else 0) 0 0)
    ∧ (g.failed = false → u.colBusy u.th i = true →
      exec (.colwait d a) s = .next { u with th := { u.th with sleep := .colwait i } })

/-! ### Steps of other agents on one thread: 04 R92, R95, 05 R124, 06 R135, 10 R212, R213, 15 R327, R328, 16 R335, R347, R348, R353 -/

namespace Sys2Proof

/-- The live threads that `sel` selects are as `p` says; every other thread is as before. -/
def ThreadsChange (s u : State) (sel : Thread → Prop) (p : Thread → Thread → Prop) : Prop :=
  u.parked.length = s.parked.length ∧
    (s.th.live = true ∧ sel s.th → p s.th u.th) ∧ (¬ (s.th.live = true ∧ sel s.th) → u.th = s.th) ∧
    ∀ (i : Nat) (x y : Thread), s.parked[i]? = some x → u.parked[i]? = some y →
      (x.live = true ∧ sel x → p x y) ∧ (¬ (x.live = true ∧ sel x) → y = x)

/-- An outcome in which only threads have changed, those that `sel` selects as `p` says. -/
def OnThreads (o : Out) (s : State) (sel : Thread → Prop) (p : Thread → Thread → Prop) : Prop :=
  Gives o fun u => u = { s with th := u.th, parked := u.parked } ∧ ThreadsChange s u sel p

/-- The same of the thread of one slot. -/
def OnThread (o : Out) (s : State) (t : Tid) (p : Thread → Thread → Prop) : Prop := OnThreads o s (fun x => x.tid = t) p

/-- An identifier has left every taint set of a thread and is no longer outstanding (R95). -/
structure Retired (x y : Thread) (id : BitVec 4) : Prop where
  out : y.out = x.out.filter fun o => o.id ≠ id
  registers : (∀ r, y.sTaint r = x.sTaint r &&& ~~~ idSet id) ∧ (∀ r, y.fTaint r = x.fTaint r &&& ~~~ idSet id) ∧
    (∀ n, y.accTaint n = x.accTaint n &&& ~~~ idSet id)
  fields : (∀ v, y.vTaint v = x.vTaint v &&& ~~~ idSet id) ∧ (∀ k, y.kTaint k = x.kTaint k &&& ~~~ idSet id)
  control : y.taints.ctl = x.taints.ctl &&& ~~~ idSet id
  rest : y = { x with out := y.out, taints := y.taints, plies := y.plies }

/-- A ply of a thread that a core's ply number names. -/
def OwnsPly (x : Thread) (core : BitVec 12) (ply : BitVec 4) (j : Nat) : Prop :=
  x.tid.core = core ∧ ply.toNat = x.base.toNat + j ∧ j < x.n

/-- A change of one ply of a thread. -/
def PlyChanged (x y : Thread) (j : Nat) (q : Ply) : Prop :=
  y = { x with plies := y.plies } ∧ y.plyAt j = q ∧ ∀ k, k ≠ j → y.plyAt k = x.plyAt k

end Sys2Proof

/-- Wakes, ages, arrivals of data, ends of checks, starts and sleep of plies: each changes its own thread alone. A check that fails puts the
strip in error with its source of R347, unless it is in error already; a matrix check that fails leaves the plane whole or damaged. -/
def Obligations.ThreadEvents : Prop :=
  ∀ (t : Tid) (id : BitVec 4) (j : BitVec 4) (core : BitVec 12) (fail : Bool) (s : State),
    OnThread (exec (.threadAged t) s) s t (fun x y => y = { x with aged := true })
    ∧ OnThread (exec (.yieldExpiry t) s) s t (fun x y => y = { x with sleep := if x.sleep = .yield then .awake else x.sleep })
    ∧ OnThread (exec (.wfeWake t) s) s t (fun x y => y = { x with
        event := true, sleep := if x.sleep = .wfe then .awake else x.sleep })
    ∧ OnThread (exec (.wfeTimeout t) s) s t (fun x y => y = if x.sleep = .wfe then { x with event := true, sleep := .awake } else x)
    ∧ OnThread (exec (.arrwaitWake t) s) s t (fun x y => y = { x with sleep := if x.sleep = .arrwait then .arrread else x.sleep })
    ∧ OnThread (exec (.arrwaitReread t) s) s t (fun x y => y = { x with sleep := if x.sleep = .arrwait then .arrread else x.sleep })
    ∧ OnThread (exec (.loadDataArrival t id) s) s t (fun x y =>
        ((∃ o ∈ x.out, o.id = id ∧ o.acquire = none) → Retired x y id) ∧
        ((∀ o ∈ x.out, o.id = id → o.acquire ≠ none) → y = x))
    ∧ OnThread (exec (.checkedModeCheckResult t fail) s) s t (fun x y =>
        (x.strip.checks = 0 → y = x) ∧
        (x.strip.checks ≠ 0 → fail = false → y = { x with strip := { x.strip with checks := x.strip.checks - 1 } }) ∧
        (x.strip.checks ≠ 0 → fail = true → 0 < x.n → ∃ row, 256 * x.base.toNat ≤ row ∧ row < 256 * (x.base.toNat + x.n) ∧
          y = { x with strip := { x.strip with
            checks := x.strip.checks - 1, error := x.strip.error <|> some (4, BitVec.ofNat 64 row) } }))
    ∧ OnThread (exec (.matrixCheckResult t fail) s) s t (fun x y =>
        (x.strip.mchecks = [] → y = x) ∧ ∀ c cs, x.strip.mchecks = c :: cs →
          (fail = false → c.differs = false → y = { x with strip := { x.strip with mchecks := cs } }) ∧
          (fail = true ∨ c.differs = true →
            y.strip = { x.strip with mchecks := cs, error := x.strip.error <|> some (3, c.addr) } ∧
            y = { x with strip := y.strip, acc := y.acc } ∧ (∀ k, k ≠ c.acc → y.tile k = x.tile k) ∧
            (fail = false → y.tile c.acc = if (x.tile c.acc).plane.corrupt
              then { x.tile c.acc with plane := { (x.tile c.acc).plane with valid := false, damaged := true } } else x.tile c.acc) ∧
            (y.tile c.acc = x.tile c.acc ∨
              y.tile c.acc = { x.tile c.acc with plane := { (x.tile c.acc).plane with valid := false, damaged := true } })))
    ∧ OnThread (exec (.plyBlockStart t j) s) s t (fun x y =>
        let q := x.plyAt j.toNat
        (q.run ≠ none ∨ q.queue = [] ∨ q.stopped ≠ none → y = x) ∧
        ∀ b bs, q.run = none → q.queue = b :: bs → q.stopped = none → PlyChanged x y j.toNat { q with
          queue := bs, drowsy := false,
          run := some { origin := b.seq, blk := b, pc := b.addr, mode := b.mode, vl := b.vl, ctl := b.ctl, wait := .running } })
    ∧ OnThreads (exec (.plyDrowsy core j) s) s (fun x => ∃ k, OwnsPly x core j k) (fun x y =>
        ∀ k, OwnsPly x core j k → PlyChanged x y k { x.plyAt k with drowsy := true })
    ∧ OnThreads (exec (.plyWake core j) s) s (fun x => ∃ k, OwnsPly x core j k) (fun x y =>
        ∀ k, OwnsPly x core j k → PlyChanged x y k { x.plyAt k with drowsy := false })

namespace Sys2Proof

/-- Whether no ply of a thread stands stopped by a fault, and what the lowest stopped one met. -/
def NoPlyFault (x : Thread) : Prop := ∀ j < x.n, (x.plyAt j).stopped = none

def LowestFault (x : Thread) (j : Nat) (i : TrapInfo) (c : Dword) : Prop :=
  j < x.n ∧ (x.plyAt j).stopped = some (i, c) ∧ ∀ k < j, (x.plyAt k).stopped = none

end Sys2Proof

/-- TRAP_DELIVERY (R335 to R337, R144): a thread that has stopped takes its own trap first, then that of its lowest stopped ply, then the
event in the pending slot; INH = 1 holds that event back, and makes the other two a double trap, which kills the context. A thread
that is in the middle of a word, or that is to be saved or moved, waits. A word that is no instruction
is ILLOP, and a fetch that faults its own trap, in the control stream and in a block. -/
def Obligations.TrapDelivery : Prop :=
  (∀ (t : Tid) (s : State) (x : Thread), s.threadAt t = some x →
    let f := s.focus t
    (s.quiet x = false ∨ s.awaitsInval t = true ∨ s.awaitsCopy x = true → exec (.trapDelivery t) s = .next s)
    ∧ ((x.saveReq = true ∨ x.migrate ≠ none) → exec (.trapDelivery t) s = .next s)
    ∧ (s.quiet x = true → s.awaitsInval t = false → s.awaitsCopy x = false → x.saveReq = false → x.migrate = none →
      (∀ i c, x.pend = some (i, c) → x.trap.inh = false →
        Gives (exec (.trapDelivery t) s) fun u => TrapTakenAt f u i.code c x.pc i.val)
      ∧ (∀ j i c, x.pend = none → LowestFault x j i c → x.trap.inh = false →
        Gives (exec (.trapDelivery t) s) fun u => TrapTakenAt f u i.code c x.pc i.val ∧
          u.th.trap.cause.getLsbD 24 = true ∧ (u.th.trap.cause.extractLsb' 8 4).toNat = j % 16)
      ∧ (x.pend = none → NoPlyFault x → x.trap.inh = false → x.trap.pcause.extractLsb' 0 8 ≠ 0 →
        Gives (exec (.trapDelivery t) s) fun u => u.th.trap.pcause = 0 ∧
          TrapTakenAt { f with th := { x with trap := { x.trap with pcause := 0, pval := 0, pinfo := 0, pstamp := 0 } } } u
            (x.trap.pcause.extractLsb' 0 8) x.trap.pstamp x.pc x.trap.pval)
      ∧ (x.pend = none → NoPlyFault x → (x.trap.inh = true ∨ x.trap.pcause.extractLsb' 0 8 = 0) →
        exec (.trapDelivery t) s = .next s)
      ∧ (x.trap.inh = true → (x.pend ≠ none ∨ ¬ NoPlyFault x) →
        Gives (exec (.trapDelivery t) s) fun u => (u.ctxAt x.ctx).valid = false ∧ ∀ y ∈ u.threads, y.ctx ≠ x.ctx)))
  ∧ (∀ (w : IWord) (s : State), AtControl s → s.th.quiet = true → s.th.trap.inh = false →
    Gives (exec (.wordNotAnInstruction w) s) fun t => TrapTaken s t cILLOP s.th.pc (w.setWidth 64))
  ∧ (∀ (w : IWord) (s : State) (j : BitVec 4) (r : Running), AtPly s j r →
    Gives (exec (.wordNotAnInstruction w) s) fun t => SameOutside s t ∧
      t.th.plies = s.th.plies.set j.toFin { s.th.plies[j.toFin] with stopped := some (illop w, s.cycles) })
  ∧ (∀ (va : Dword) (s : State), AtControl s →
    (∀ f, s.fetchWord s.th.priv va = .error f → s.th.quiet = true → s.th.trap.inh = false →
      Gives (exec (.instructionFetchFault va) s) fun t => TrapTaken (s.record s.th.ctx [f] false) t f.code s.th.pc f.va)
    ∧ (∀ r, s.fetchWord s.th.priv va = .ok r → exec (.instructionFetchFault va) s = .next s))

/-- Errors and ends of strips (R342, R345, R347, R24), retired acquires (R92), and the committed stores of a thread performed one by one: in
program order within a stream, and in the order of both where the second has seen the first (R102, R345) or where both are device class
(R18, R63). A store to a row of a ply that no thread of its context owns any more is not performed (R14; log 76). -/
def Obligations.StripEvents : Prop :=
  ∀ (t : Tid) (s : State),
    (∀ (src : BitVec 3) (addr : Dword),
      (src = 0 ∨ 4 < src.toNat ∨ s.threadAt t = none → exec (.stripErrorDetected t src addr) s = .next s)
      ∧ (1 ≤ src.toNat → src.toNat ≤ 4 → s.threadAt t ≠ none →
        Gives (exec (.stripErrorDetected t src addr) s) fun u =>
          OnThread (.next { u with badCols := s.badCols }) s t (fun x y =>
            y = { x with strip := { x.strip with error := x.strip.error <|> some (src, addr) } }) ∧
          ∀ k, if src = 2 ∧ k = rowKey t.core (addr.toNat % 4096)
            then ∃ g < 16, look 0 u.badCols k = look 0 s.badCols k ||| 1 <<< g else look 0 u.badCols k = look 0 s.badCols k))
    ∧ (∀ (core row : BitVec 12),
      (look 0 s.badCols (rowKey core row.toNat) = 0 → exec (.backgroundScrub core row) s = .next s)
      ∧ (look 0 s.badCols (rowKey core row.toNat) ≠ 0 →
        OnThreads (exec (.backgroundScrub core row) s) s (fun x => x.tid.core = core) fun x y =>
          ((∀ e ∈ x.strip.pins, physRow x.base x.n e ≠ row.toNat) → y = x) ∧
          ((∃ e ∈ x.strip.pins, physRow x.base x.n e = row.toNat) →
            y = { x with strip := { x.strip with error := x.strip.error <|> some (2, row.setWidth 64) } })))
    ∧ (∀ (x : Thread) (src : BitVec 3) (addr : Dword), s.threadAt t = some x → x.strip.error = some (src, addr) →
      let f := s.focus t
      (x.strip.rewindable = true → x.strip.rewinds < 3 → s.stopped x = true →
        Gives (exec (.stripSettle t) s) fun u => SameMemory s u ∧ u.drain = s.drain ∧ u.rows = s.rows ∧ u.tags = s.tags ∧
          u.th.pc = x.strip.ckpt.pc ∧ u.th.vl = x.strip.ckpt.vl ∧ u.th.mode = x.strip.ckpt.mode ∧ u.th.f = x.f ∧
          u.th.flags = x.flags ∧ u.th.acc = x.acc ∧ u.th.taints = .empty ∧ u.th.pend = none ∧ u.th.strip.buf = [] ∧
          u.th.strip.error = none ∧ u.th.strip.rewinds = x.strip.rewinds + 1 ∧ u.th.strip.ckpt = x.strip.ckpt ∧
          ∀ i : Fin 64, u.th.s[i] = if x.strip.ckpt.scm.getLsbD i.val then x.strip.ckpt.s[i] else x.s[i])
      ∧ (x.strip.rewindable = true → x.strip.rewinds < 3 → s.stopped x = false → exec (.stripSettle t) s = .next s)
      ∧ ((x.strip.rewindable = false ∨ 3 ≤ x.strip.rewinds) → x.trap.pcause.extractLsb' 0 8 = 0 →
        Gives (exec (.stripSettle t) s) fun u => SameMemory s u ∧ u.drain = s.drain ∧
          u = { f with th := u.th, parked := u.parked } ∧
          u.th = { x with strip := { x.strip with buf := [], error := none }, trap := u.th.trap } ∧
          u.th.trap.pcause.extractLsb' 0 8 = cSTRIPERR ∧
          u.th.trap.pcause.extractLsb' 16 8 = (if x.strip.rewindable then 5 else src.setWidth 8) ∧
          u.th.trap.pval = addr ∧ u.th.trap.pinfo.extractLsb' 32 32 = BitVec.ofNat 32 x.strip.held))
    ∧ (∀ (id : BitVec 4) (x : Thread) (o : Outstanding) (b : Option Binding), s.threadAt t = some x →
      x.out.find? (fun o => o.id = id) = some o → o.acquire = some b →
      Gives (exec (.acquireRetire t id) s) fun u => u.rows = s.rows ∧ u.tags = s.tags ∧
        (∃ y, Retired x y id ∧ u.th = { y with event := u.th.event, sleep := u.th.sleep }) ∧
        (∀ a, ¬ DirtyByte s t.core a → ¬ QueuedByte s a → u.homeByte a = s.homeByte a))
    ∧ ((∀ d ∈ s.drain, d.1 ≠ t) → exec (.committedStorePerform t) s = .next s)
    ∧ ((∃ d ∈ s.drain, d.1 = t) → ∃ k b, s.drainNext t = some (k, b))
    ∧ (∀ (k : Nat) (b : Buffered), s.drainNext t = some (k, b) →
      s.drain[k]? = some (t, b)
      ∧ (∀ j c, j < k → s.drain[j]? = some (t, c) →
        c.vec ≠ b.vec ∧ c.seen = false ∧ b.seen = false ∧ ¬ (c.device = true ∧ b.device = true))
      ∧ (s.turnHeld t b.place = true → exec (.committedStorePerform t) s = .next s)
      ∧ (s.turnHeld t b.place = false →
        let v := { s with drain := s.drain.eraseIdx k }
        let w (pa n : Nat) := v.sliceSome t fun r => decide (pa / 128 ≤ r.line) && decide (r.line ≤ (pa + n - 1) / 128)
        Gives (exec (.committedStorePerform t) s) fun u =>
          match b.op, b.place with
          | .write bs, .mem pa true repl => u = (w pa bs.length).l1Write t.core t.slot pa repl bs
          | .write bs, .mem pa false repl =>
            if repl = 0 then PlaceHolds (w pa bs.length) u b.place bs ∧ u.drain = v.drain
            else u = { w pa bs.length with repQ := (w pa bs.length).repQ ++ [⟨some t, b.via, pa, repl, bs, false⟩] }
          | .write bs, .row core p _ =>
            if s.rowOpen t core p.toNat then PlaceHolds v u b.place bs ∧ u.drain = v.drain else u = v
          | .write bs, .dev pa =>
            if isMmio pa then u = v.mmioWrite pa (bs.length == 8) (BitVec.ofNat 64 (leVal bs))
            else u.mem = memWrite s.mem pa bs ∧ u = { v with mem := u.mem, th := u.th, parked := u.parked }
          | .add op parts, .mem _ _ repl => u.sliceQ = s.sliceQ ++ [⟨t, repl, b.via, op, parts⟩] ∧ u.drain = v.drain
          | _, _ => u = v))

/-! ### Agents of memory and the copy engine: 02 R56, R57, 03 R62, R71, R81, 05 R107, 14 R304, R305 -/

namespace Sys2Proof

/-- A thread's operands after n pages of PGSHARE or PGDROP (R50): the addresses advance, the count falls. -/
def OperandsAdvanced (x y : Thread) (pgs : Bool) (d a b : BitVec 6) (n : Nat) : Prop :=
  y = { x with s := y.s, taints := { x.taints with s := y.taints.s } } ∧
  (a ≠ 0 → a ≠ b → (pgs = false ∨ a ≠ d) → y.sr a = x.sr a + BitVec.ofNat 64 (65536 * n)) ∧
  (pgs = true → d ≠ 0 → d ≠ a → d ≠ b → y.sr d = x.sr d + BitVec.ofNat 64 (65536 * n)) ∧
  (b ≠ 0 → b ≠ a → (pgs = false ∨ b ≠ d) → (y.sr b).toNat % 2 ^ 32 = (x.sr b).toNat % 2 ^ 32 - n) ∧
  ∀ r, r ≠ a → r ≠ b → (pgs = false ∨ r ≠ d) → y.sr r = x.sr r

end Sys2Proof

/-- The home slice of a physical address (R61): of HBM the slice on its stack group's die that the hash of its line names, of host memory a
slice of die 0; the 512 lines of a 64 KiB frame of HBM fall on all 64 slices of the frame's stack group. -/
def Obligations.HomeSlices : Prop :=
  (∀ pa : BitVec 48, isHbm pa.toNat = true →
    let s := (pa.extractLsb' 36 4).toNat
    let h : BitVec 6 := pa.extractLsb' 7 6 ^^^ pa.extractLsb' 13 6 ^^^ pa.extractLsb' 19 6 ^^^ pa.extractLsb' 25 6 ^^^
      (pa.extractLsb' 31 5).setWidth 6
    sliceOf pa.toNat = 128 * (s / 2) + (64 * (s % 2) + h.toNat))
  ∧ (∀ pa : BitVec 48, isHost pa.toNat = true →
    let h : BitVec 7 := pa.extractLsb' 7 7 ^^^ pa.extractLsb' 14 7 ^^^ pa.extractLsb' 21 7 ^^^ pa.extractLsb' 28 7 ^^^
      pa.extractLsb' 35 7 ^^^ (pa.extractLsb' 42 5).setWidth 7
    sliceOf pa.toNat = h.toNat)
  ∧ ∀ (frame h : Nat), frame < 2 ^ 24 → h < 64 →
    ∃ i < 512, sliceOf (65536 * frame + 128 * i) = 64 * (frame / 2 ^ 20) + h

namespace Sys2Proof

/-- The requests of slices, the writes of coordinators, turns on lines and fills. A scatter-add request is performed, all its elements in
one step of its line, once no earlier one of its thread to its line waits (R80, R81), after the issuing core's copy of the line has been
put back and dropped (Table 3.1); where the host fails the read of the line nothing is added (R17; that the thread is told so, and that the
update is given up, is the model's choice, log 76). A replicated line is locked and then written in every replica (R71); a line filled
stands in its slice with the same bytes (R62). -/
def SliceEvents : Prop :=
  ∀ (k : Nat) (line : BitVec 41) (s : State),
    (∀ r : SliceReq, s.sliceQ[k]? = some r →
      let held := ∃ x ∈ s.sliceQ.take k, x.tid = r.tid ∧ x.line = r.line
      let n := r.op.bytes.toNat
      let v := s.l1Drop r.tid.core (replicaFor r.tid.core (128 * r.line) r.repl)
      let old (pa : Nat) := leVal (v.homeBytes pa n)
      let new (p : Nat × Dword) := r.op.apply (old p.1) p.2.toNat
      (held → exec (.sliceOperation k) s = .next s)
      ∧ (∀ va, ¬ held → v.addFails r = some va → Gives (exec (.sliceOperation k) s) fun u => u.sliceQ = s.sliceQ.eraseIdx k ∧
          u.rows = s.rows ∧ u.arr = s.arr ∧ (∀ a, u.homeByte a = v.homeByte a) ∧
          ∀ x, v.threadAt r.tid = some x → x.trap.pcause.extractLsb' 0 8 = 0 →
            ∃ y, u.threadAt r.tid = some y ∧ y.trap.pcause.extractLsb' 0 8 = cPHYSHOLE ∧ y.trap.pval = va)
      ∧ (¬ held → v.addFails r = none → r.repl = 0 → (∀ p ∈ r.parts, p.1 / 128 = r.line ∧ p.1 % 128 + n ≤ 128) →
        r.parts.Pairwise (fun p q => p.1 + n ≤ q.1 ∨ q.1 + n ≤ p.1) →
        Gives (exec (.sliceOperation k) s) fun u => u.sliceQ = s.sliceQ.eraseIdx k ∧
          u.rows = s.rows ∧ u.arr = s.arr ∧ u.regs = s.regs ∧
          (∀ p ∈ r.parts, u.homeBytes p.1 n = leBytes n (new p).1) ∧
          (∀ a, (∀ p ∈ r.parts, a < p.1 ∨ p.1 + n ≤ a) → u.homeByte a = v.homeByte a) ∧
          ((∃ p ∈ r.parts, (new p).2 &&& fSAT ≠ 0) → ∀ y ∈ u.threads, y.tid = r.tid → y.flags &&& fSAT ≠ 0))
      ∧ (¬ held → v.addFails r = none → r.repl ≠ 0 → (∀ x ∈ v.repQ, x.pa % 128 + x.bytes.length ≤ 128 ∧ x.pa / 128 ≠ r.line) → ∀ p, r.parts = [p] →
        p.1 % 128 + n ≤ 128 → Gives (exec (.sliceOperation k) s) fun u => u.sliceQ = s.sliceQ.eraseIdx k ∧ u.repQ = v.repQ ∧
          ∀ i < 2 ^ r.repl.toNat, u.homeBytes (replicaAddr p.1 r.repl i) n = leBytes n (new p).1)
      ∧ (r.op.ty.isFloat = false → ∀ p, (new p).1 = (fit (8 * n) r.op.ty.signed r.op.sat
          (intOf (8 * n) r.op.ty.signed (old p.1) + intOf (8 * n) r.op.ty.signed p.2.toNat)).1))
    ∧ (s.sliceQ.length ≤ k → exec (.sliceOperation k) s = .next s)
    ∧ (∀ r : RepReq, s.repQ[k]? = some r →
      let first := ∀ x ∈ s.repQ.take k, x.pa / 128 ≠ r.pa / 128
      (first → Gives (exec (.replicaLock k) s) fun u => u = { s with repQ := u.repQ } ∧
        u.repQ = s.repQ.set k { r with locked := true })
      ∧ (¬ first → exec (.replicaLock k) s = .next s)
      ∧ (first → r.locked = true → Gives (exec (.replicaUpdate k) s) fun u => u.repQ = s.repQ.eraseIdx k ∧
          u.rows = s.rows ∧ u.arr = s.arr ∧
          ∀ i, i < 2 ^ r.repl.toNat → r.repl ≠ 0 → r.pa % 128 + r.bytes.length ≤ 128 →
            memBytes u.mem (replicaAddr r.pa r.repl i) r.bytes.length = r.bytes)
      ∧ ((¬ first ∨ r.locked = false) → exec (.replicaUpdate k) s = .next s))
    ∧ (s.repQ.length ≤ k → exec (.replicaLock k) s = .next s ∧ exec (.replicaUpdate k) s = .next s)
    ∧ (Gives (exec (.casTurnExpiry line) s) fun u => u = { s with turns := u.turns } ∧
        u.turns = s.turns.eraseP fun x => x.1 == line.toNat)
    ∧ (isHbm (128 * line.toNat) = false → ∀ err, exec (.hbmFill ⟨line, err⟩) s = .next s)
    ∧ (isHbm (128 * line.toNat) = true → ∀ err, Gives (exec (.hbmFill ⟨line, err⟩) s) fun u =>
        u = { s with l2 := u.l2, eccBad := u.eccBad } ∧ (∀ a, u.homeByte a = s.homeByte a) ∧
        (∀ l, look false u.eccBad l = if l = line.toNat then err else look false s.eccBad l) ∧
        (∀ l, l ≠ line.toNat → u.l2At l = s.l2At l) ∧
        (u.l2At line.toNat).held = true)

/-- PAGE_WALK installs a translation that no TLB of the core holds and that the walk finds, for the core of its thread, and marks the entry
used; a walk that faults, and an address of the near window, change nothing. INVALIDATION_COMPLETE, once no store, update, copy or
collective translated through a named entry and no wait for the pool holds it up, takes every named translation out of the package, and
ends TLBINV, a page of PGSHARE or a page of PGDROP; a leaf that a supervisor has stored to since ends with that value or with the
instruction's (R39), and so does a count (R47). -/
def TranslationEvents : Prop :=
  (∀ (t : Tid) (va : Dword) (s : State),
    (s.threadAt t = none → exec (.pageWalk t va) s = .next s)
    ∧ (2 ^ 56 ≤ va.toNat ∨ regionOf va.toNat = .near → exec (.pageWalk t va) s = .next s)
    ∧ ∀ x, s.threadAt t = some x → va.toNat < 2 ^ 56 → regionOf va.toNat ≠ .near →
      let root := s.rootFor x.ctx va
      ((s.tlbHit t.core root.2 va).isSome = true → exec (.pageWalk t va) s = .next s)
      ∧ (s.tlbHit t.core root.2 va = none →
        (∀ f, s.missWalk t.core root.2 root.1 va 0 = .error f → exec (.pageWalk t va) s = .next s)
        ∧ ∀ (leaf : Dword) (at_ : Nat) (big : Bool), s.missWalk t.core root.2 root.1 va 0 = .ok (leaf, at_, big) →
          Gives (exec (.pageWalk t va) s) fun u =>
            u = { s with mem := u.mem, tlb := u.tlb, ctlb := u.ctlb, wcache := u.wcache, th := u.th, parked := u.parked } ∧
            (∃ y, y = { s.th with event := y.event, sleep := y.sleep } ∧ u.th = y) ∧
            (∃ g : Thread → Thread, u.parked = s.parked.map g ∧ ∀ y, ∃ e w, g y = { y with event := e, sleep := w }) ∧
            (∃ e, u.tlbFind t.core root.2 va = some e ∧ e.leaf = (leaf ||| 0x20) &&& 0xF00FFFFFFFFFFFFF ∧ e.key.big = big) ∧
            memDword u.mem at_ = memDword s.mem at_ ||| 0x20 ∧
            ∀ a, a < at_ ∨ at_ + 8 ≤ a → memByte u.mem a = memByte s.mem a))
  ∧ ∀ (k : Nat) (s : State),
    (s.inval.length ≤ k → exec (.invalidationComplete k) s = .next s)
    ∧ ∀ x : Inval, s.inval[k]? = some x →
      let held := s.invalPending x = true ∨ s.poolWaits x = true
      let v := { s with
        inval := s.inval.eraseIdx k, tlb := s.tlb.filter fun e => !x.names e.key, ctlb := s.ctlb.filter fun e => !x.names e.key,
        wcache := s.wcache.filter fun w => !x.leads w }
      (held → exec (.invalidationComplete k) s = .next s)
      ∧ (¬ held → ∃ u, exec (.invalidationComplete k) s = .next u ∧
          (x.work = .tlbinv → OnThread (.next u) v x.tid fun y z => z = { y with pc := y.pc + 4 })
          ∧ (∀ dst leaf big n, x.work = .share dst leaf big n → isHbm dst = true →
            let w := v.flushPage leaf big false
            let mine := sharedLeaf leaf
            let frame := pteFRAME leaf
            let c := shareAddr s.regs.fstbase frame
            isHbm c = true → (c + 2 ≤ dst ∨ dst + 8 ≤ c) →
            (w.shareCount frame = n → u.shareCount frame = n) ∧
            (u.shareCount frame = w.shareCount frame ∨ u.shareCount frame = n % 65536) ∧
            u.inval = v.inval ∧ u.tlb = v.tlb ∧ u.ctlb = v.ctlb ∧ u.rows = s.rows ∧
            (memDword w.mem dst = mine → memDword u.mem dst = mine ||| 1) ∧
            (memDword u.mem dst = memDword w.mem dst ∨ memDword u.mem dst = mine ||| 1) ∧
            (∀ a, (a < dst ∨ dst + 8 ≤ a) → (a < c ∨ c + 2 ≤ a) → u.homeByte a = w.homeByte a) ∧
            (w.th.live = true → w.th.tid = x.tid → ∃ y, y = { w.th with event := y.event, sleep := y.sleep } ∧
              OperandsAdvanced y u.th true x.d x.a x.b (if big then 8192 else 1)))
          ∧ (∀ at_ leaf big n, x.work = .drop at_ leaf big n →
            let w := v.flushPage leaf big true
            let frame := pteFRAME leaf
            isHbm (frame.toNat * 65536) = true → n ≠ 0 → isHbm (shareAddr s.regs.fstbase frame) = true →
            u.inval = v.inval.map (fun y => { y with work := y.work.moved frame (· - 1) }) ∧ u.tlb = v.tlb ∧ u.ctlb = v.ctlb ∧ u.rows = s.rows ∧
            (1 < n → u.regs = s.regs ∧ (w.shareCount frame = n → u.shareCount frame = n - 1) ∧
              (u.shareCount frame = w.shareCount frame ∨ u.shareCount frame = (n - 1) % 65536)) ∧
            (n = 1 → u.regs = { s.regs with
              fptail := BitVec.ofNat 32 ((s.regs.fptail.toNat + 1) % poolLen s.regs.fpbase) }) ∧
            (w.th.live = true → w.th.tid = x.tid → ∃ y, y = { w.th with event := y.event, sleep := y.sleep } ∧
              OperandsAdvanced y u.th false x.d x.a x.b (if big then 8192 else 1))))

/-- What the end of a chunk leaves: it has left the engine; the last chunk of a copy sets its issuer's event flag. -/
def ChunkLeft (s u : State) (k : Nat) (c : Chunk) : Prop :=
  u.chunks = s.chunks.eraseIdx k ∧
  ((∀ x ∈ u.chunks, x.copy ≠ c.copy) → ∀ y ∈ u.threads, y.group = c.group → y.rank = c.rank → y.ctx = c.ctx → y.event = true)

/-- COPY_CHUNK (R304) and COPY_CHUNK_FAIL (R305). A chunk that waits for another package, or of whose bytes all lie in pinned rows, stays as
it is. A chunk without an arrival between two plain runs of memory moves its bytes and leaves; one whose source holds an uncorrectable error,
or is read from the host with an error (R17), moves none and leaves. A failed chunk makes no arrival, is counted for CPYWAIT, and each byte of its destination holds its old value or the one the copy would have written. -/
def ChunkEvents : Prop :=
  ∀ (k : Nat) (s : State),
    (s.chunks.length ≤ k → exec (.copyChunk k) s = .next s ∧ ∀ code, exec (.copyChunkFail k code) s = .next s)
    ∧ ∀ c : Chunk, s.chunks[k]? = some c →
      (s.chunkReady c = false → exec (.copyChunk k) s = .next s)
      ∧ (∀ (qa pa : Nat) (via via' : Option TlbKey) (owner owner' : Option Nat) (x y : Bool), c.phase = .ready → c.data = none →
        c.arr = none → c.src = .runs [⟨via, .mem qa x 0, c.len, 0, owner⟩] → c.dst = .runs [⟨via', .mem pa y 0, c.len, 0, owner'⟩] →
        0 < c.len → s.poisoned qa = false →
        (s.readFails qa c.len = false → Gives (exec (.copyChunk k) s) fun u => ChunkLeft s u k c ∧
          PlaceHolds s u (.mem pa false 0) (s.homeBytes qa c.len))
        ∧ ∀ code, ∃ w : State, exec (.copyChunkFail k code) s = .next (w.failChunk k code) ∧
          w = { s with mem := w.mem, l2 := w.l2, eccBad := w.eccBad, th := w.th, parked := w.parked } ∧
          (∀ i, i < c.len → w.homeByte (pa + i) = s.homeByte (pa + i) ∨ some (w.homeByte (pa + i)) = (s.homeBytes qa c.len)[i]?) ∧
          ∀ a, a < pa ∨ pa + c.len ≤ a → w.homeByte a = s.homeByte a)
      ∧ (∀ (qa : Nat) (via : Option TlbKey) (owner : Option Nat) (x : Bool), c.phase = .ready → c.data = none →
        c.src = .runs [⟨via, .mem qa x 0, c.len, 0, owner⟩] → s.chunkReady c = true →
        (s.poisoned qa = true ∨ s.readFails qa c.len = true) →
        Gives (exec (.copyChunk k) s) fun u => ChunkLeft s u k c ∧ u.rows = s.rows ∧ ∀ a, u.homeByte a = s.homeByte a)
      ∧ (∀ code, Gives (exec (.copyChunkFail k code) s) fun u => ChunkLeft s u k c ∧
          ∀ y ∈ s.threads, y.group = c.group → y.rank = c.rank → y.ctx = c.ctx → ∃ z ∈ u.threads, z.tid = y.tid ∧
            z.copyFails = (if y.copyFails = 0xFFFFFFFF then y.copyFails else y.copyFails + 1) ∧
            z.copyCode = if y.copyCode = 0 then code else y.copyCode)

/-! ### Registers and the host: 01 R6, R17, R18, 02 R52, R59, 07 R162, R166, 16 R348, R355, R356, 18 R369 to R371 -/

/-- A vector of MSI-X whose event occurs (R371): sent, or pending while something masks it. -/
def VectorRaised (h g : HostPort) (v : BitVec 8) : Prop :=
  if h.msixEnable = true ∧ h.functionMask = false ∧ h.unmasked.getLsbD v.toNat = true then g = { h with sent := h.sent ++ [v] }
  else g = { h with pending := h.pending ||| (1 <<< v.toNat) }

/-- Package and postmaster registers that software reads as it wrote them, with the bits they keep. -/
def keptRegisters : List (Nat × Dword) :=
  [(packageBlock + 0x30000, 0xFFFF), (packageBlock + 0x30008, 0x0000FFFFFFF80000), (packageBlock + 0x42000, 0x0000FFFFFFFFF0FF),
   (packageBlock + 0x42008, 0xFFFFFFFF), (postBlock + 0x200, 0x77)]
    ++ (List.range 8).map fun p => (packageBlock + 0x30010 + 8 * p, 0xBF)

/-- The register at a physical address that a BAR0 offset reaches, where it reaches one (Table 18.1). -/
def BarReaches (h : HostPort) (o pa : Nat) : Prop :=
  (o < 0x1000000 ∧ pa = 0xF00080000000 + o) ∨ (0x1000000 ≤ o ∧ o < 0x1F00000 ∧ pa = 0xF00090000000 + (o - 0x1000000)) ∨
    (0x2000000 ≤ o ∧ pa = 0xF00000000000 + (h.diesel.extractLsb' 0 3).toNat * 0x10000000
      + (h.diesel.extractLsb' 4 3).toNat * 0x2000000 + (o - 0x2000000))

/-- Register accesses from outside a program. Those of the host through BAR0 (R369): one that is misaligned is unsupported and changes
nothing; another reaches the register that Table 18.1 gives, and a kept register reads back what was written; the MSI-X table holds
addresses, data and masks, and its pending bits are read only (R371). FLAGS clears what is written as 1; FPHEAD, THRCTL, DBGSEL and ROWSEL
take their values. -/
def RegisterEvents : Prop :=
  ∀ (s : State),
    (∀ (o : BitVec 26) (wide : Bool) (v : Dword) (pa : Nat),
      let size := if wide then 8 else 4
      (∀ x : BarAccess, o.toNat % size ≠ 0 →
        exec (.registerWrite o wide x) s = .next { s with host := { s.host with unsupported := true } })
      ∧ (o.toNat % size = 0 → BarReaches s.host o.toNat pa →
        (let w := s.mmioWrite pa wide v;
          exec (.registerWrite o wide (.write v)) s = .next { w with host := { w.host with unsupported := false } })
        ∧ exec (.registerWrite o wide .read) s = .next { s with host := { s.host with
            unsupported := false, readData := ((leBytes 8 (s.regRead (pa / 8 * 8)).toNat).drop (pa % 8)).take size } })
      ∧ (∀ p ∈ keptRegisters, pa = p.1 → o.toNat % 8 = 0 → BarReaches s.host o.toNat pa →
        Gives (exec (.registerWrite o true (.write v)) s) fun u =>
          u = { s with regs := u.regs, host := u.host, th := u.th, parked := u.parked } ∧
          u.host.unsupported = false ∧ u.regRead p.1 = v &&& p.2)
      ∧ (∀ j < 1024, o.toNat = 0x1F00000 + 4 * j →
        (Gives (exec (.registerWrite o false (.write v)) s) fun u => u = { s with host := u.host } ∧ u.host.unsupported = false ∧
          u.host.msixWord j = (if j % 4 = 3 then v.setWidth 32 &&& 1 else v.setWidth 32) ∧
          (∀ k < 1024, k ≠ j → u.host.msixWord k = s.host.msixWord k) ∧
          u.host.msixEnable = s.host.msixEnable ∧ u.host.functionMask = s.host.functionMask)
        ∧ exec (.registerWrite o false .read) s = .next { s with host := { s.host with
            unsupported := false, readData := leBytes 4 (s.host.msixWord j).toNat } })
      ∧ (∀ j < 8, o.toNat = 0x1F01000 + 4 * j →
        exec (.registerWrite o false .read) s = .next { s with host := { s.host with
          unsupported := false, readData := leBytes 4 (s.host.pending.extractLsb' (32 * j) 32).toNat } })
      ∧ (∀ j, 0x1F01000 ≤ j → j + 4 ≤ 0x2000000 → j % 4 = 0 → o.toNat = j →
        Gives (exec (.registerWrite o false (.write v)) s) fun u => u = { s with host := u.host } ∧
          (∀ k, u.host.msixWord k = s.host.msixWord k ∨ 1024 ≤ k ∧ k < 1032)))
    ∧ (∀ v : Dword,
      let w := s.ackAdds
      (s.th.live = true → s.th.blocksEnded = true → v &&& 0xFFFFFFFFFFFFFF00 = 0 →
        exec (.flagsWrite v) s = .next { w with th := { w.th with flags := w.th.flags &&& ~~~ v.setWidth 8 } })
      ∧ ((s.th.live = false ∨ s.th.blocksEnded = false) → exec (.flagsWrite v) s = .next s)
      ∧ (v.toNat < poolLen s.regs.fpbase → v.toNat < 2 ^ 32 →
        exec (.fpheadWrite v) s = .next { s with regs := { s.regs with fphead := v.setWidth 32 } })
      ∧ (s.th.live = true → v.toNat < 256 →
        Gives (exec (.dbgselWrite v) s) fun u =>
          let e := look ⟨0, 0, 0⟩ s.th.dbg.ring v.toNat
          u = { s with th := { s.th with dbg := { s.th.dbg with sel := v.setWidth 8, e0 := e.e0, e1 := e.e1, e2 := e.e2 } } })
      ∧ (s.th.live = false → exec (.dbgselWrite v) s = .next s))
    ∧ (∀ on : Bool,
      (s.th.live = true → s.th.blocksEnded = true →
        exec (.checkedModeSet on) s = .next { s with th := { s.th with checked := on } })
      ∧ ((s.th.live = false ∨ s.th.blocksEnded = false) → exec (.checkedModeSet on) s = .next s))
    ∧ ∀ (t : Tid) (v : Dword),
      let row := v.toNat % 4096
      let owned := s.plyTaken t.core (row / 256) = true
      OnThreads (exec (.rowselWrite t v) s) s (fun x => x.tid.core = t.core) fun x y =>
        (x.tid ≠ t → y = { x with plies := y.plies }) ∧
        (x.tid = t → y = { x with plies := y.plies, dbg := y.dbg } ∧ y.dbg.rowsel = v.setWidth 12 ∧
          (owned → y.dbg.row = s.rowAt (rowKey t.core row) ∧ y.dbg.rowtags = s.tagsAt (rowKey t.core row) ∧
            y.dbg.rowstat = if look 0 s.badCols (rowKey t.core row) = 0 then 0 else 2) ∧
          (¬ owned → y.dbg.row = 0 ∧ y.dbg.rowtags = 0 ∧ y.dbg.rowstat = 1))

/-- CTXCTL on the context that CTXSEL names (R59, R166): made valid with its save list read, made not valid when nothing of it is left, or
killed with its threads and saved images; what the rule forbids is CTXBAD. -/
def ContextEvents : Prop :=
  ∀ s : State,
    let c := s.regs.ctxsel
    let x := s.ctxAt c
    let list := saveList s.mem x.savePtr.toNat 16
    let bad := (∃ e ∈ list, 0x1000000 < e.1.toNat + e.2.toNat + 1) ∨ saveBytes list < 753664 ∨
      1024 ≤ (s.ctxs.filter fun y => y.2.valid).length
    let busy := (∃ t ∈ s.threads, t.ctx = c) ∨ (∃ y ∈ s.saved, y.ctx = c) ∨ ∃ r ∈ s.reserved, recCtx r.record = c
    let refused := if s.th.live then s.raise (TrapInfo.mk0 cCTXBAD (c.setWidth 64)) else s
    (x.valid = true → exec .ctxctlMakeValid s = .next s)
    ∧ (x.valid = false → ¬ bad → Gives (exec .ctxctlMakeValid s) fun u => u = { s with ctxs := u.ctxs } ∧
        u.ctxAt c = { x with valid := true, svfail := false, save := list } ∧ ∀ d, d ≠ c → u.ctxAt d = s.ctxAt d)
    ∧ (x.valid = false → bad → exec .ctxctlMakeValid s = .next refused)
    ∧ (¬ busy → Gives (exec .ctxctlClearValid s) fun u => u = { s with ctxs := u.ctxs } ∧
        u.ctxAt c = { x with valid := false, save := [] } ∧ ∀ d, d ≠ c → u.ctxAt d = s.ctxAt d)
    ∧ (busy → exec .ctxctlClearValid s = .next refused)
    ∧ Gives (exec .ctxctlKill s) fun u => SameMemory s u ∧ (u.ctxAt c).valid = false ∧ (u.ctxAt c).save = [] ∧
        (u.ctxAt c).svfail = x.svfail ∧ (∀ t ∈ u.threads, t.ctx ≠ c) ∧ (∀ y ∈ u.saved, y.ctx ≠ c) ∧
        ∀ t ∈ s.threads, t.ctx = c → ∀ k ∈ t.rowKeys, u.rowAt k = 0 ∧ u.tagsAt k = 1

end Sys2Proof

/-- The host's own steps (R17, R369 to R371): accesses of BAR2 in and beyond its range, a read after the locked updates of its lines (R72), what the host answers at an address, MSIRQ, the masks
of MSI-X, whose pending vectors are sent as nothing masks them any more, and the size of BAR2. -/
def Obligations.HostEvents : Prop :=
  ∀ s : State,
    (∀ (o : BitVec 48) (bytes : List Byte) (n : BitVec 13),
      let at_ := s.host.bar2base.toNat * 2 ^ 30 + o.toNat
      let fits (k : Nat) := o.toNat + k ≤ 2 ^ (30 + s.host.bar2log.toNat) ∧ at_ + k ≤ 2 ^ 40
      (fits bytes.length → Gives (exec (.hostBar2Write o bytes) s) fun u => u.host = { s.host with unsupported := false } ∧
        u.rows = s.rows ∧ u.regs = s.regs ∧ memBytes u.mem at_ bytes.length = bytes ∧
        ∀ a, a < at_ ∨ at_ + bytes.length ≤ a → memByte u.mem a = memByte s.mem a)
      ∧ (¬ fits bytes.length → exec (.hostBar2Write o bytes) s = .next { s with host := { s.host with unsupported := true } })
      ∧ (fits n.toNat → Gives (exec (.hostBar2Read o n) s) fun u =>
          let reached (r : RepReq) := ∃ i < 2 ^ r.repl.toNat, at_ / 128 ≤ replicaAddr r.pa r.repl i / 128 ∧
            replicaAddr r.pa r.repl i / 128 ≤ (at_ + n.toNat - 1) / 128
          u.host = { s.host with unsupported := false, readData := memBytes u.mem at_ n.toNat } ∧ u.rows = s.rows ∧ u.regs = s.regs ∧
          ((∀ r ∈ s.repQ, r.locked = true → ¬ reached r) → u.mem = s.mem ∧ u.repQ = s.repQ) ∧
          (0 < n.toNat → ∀ r ∈ u.repQ, r.locked = true → ¬ reached r) ∧
          (∀ r ∈ u.repQ, r ∈ s.repQ) ∧ ∀ a, ¬ QueuedByte s a → u.homeByte a = s.homeByte a)
      ∧ (¬ fits n.toNat → exec (.hostBar2Read o n) s = .next { s with host := { s.host with unsupported := true } }))
    ∧ (∀ (pa : BitVec 48) (bytes : List Byte) (err : Bool),
      ((isHost pa.toNat = false ∨ isHost (pa.toNat + bytes.length) = false) → exec (.hostCompletion pa bytes err) s = .next s)
      ∧ (isHost pa.toNat = true → isHost (pa.toNat + bytes.length) = true →
        Gives (exec (.hostCompletion pa bytes err) s) fun u => u = { s with mem := u.mem, host := u.host } ∧
          (∀ a, look false u.host.errors a = if pa.toNat / 8 ≤ a ∧ a ≤ (pa.toNat + Nat.max 1 bytes.length - 1) / 8 then err else look false s.host.errors a) ∧
          (err = true → u.mem = s.mem) ∧
          (err = false → memBytes u.mem pa.toNat bytes.length = bytes ∧
            ∀ a, a < pa.toNat ∨ pa.toNat + bytes.length ≤ a → memByte u.mem a = memByte s.mem a)))
    ∧ (∀ v : Dword,
      (v.toNat % 256 < 68 → exec (.msirqWrite v) s = .next s)
      ∧ (68 ≤ v.toNat % 256 → Gives (exec (.msirqWrite v) s) fun u => u = { s with host := u.host } ∧
          VectorRaised s.host u.host (v.setWidth 8)))
    ∧ (∀ c : MsixCtl, Gives (exec (.msixUnmask c) s) fun u => u = { s with host := u.host } ∧
        u.host.msixEnable = (match c with | .enable on => on | _ => s.host.msixEnable) ∧
        u.host.functionMask = (match c with | .functionMask on => on | _ => s.host.functionMask) ∧
        (∀ v : BitVec 8, u.host.unmasked.getLsbD v.toNat =
          (match c with | .vectorMask x on => if x = v then !on else s.host.unmasked.getLsbD v.toNat
                        | _ => s.host.unmasked.getLsbD v.toNat)) ∧
        (∃ l, u.host.sent = s.host.sent ++ l ∧ ∀ v : BitVec 8, v ∈ l ↔ (u.host.msixEnable = true ∧ u.host.functionMask = false ∧
          s.host.pending.getLsbD v.toNat = true ∧ u.host.unmasked.getLsbD v.toNat = true)) ∧
        ∀ v : BitVec 8, u.host.pending.getLsbD v.toNat = (s.host.pending.getLsbD v.toNat &&
          !(u.host.msixEnable && !u.host.functionMask && u.host.unmasked.getLsbD v.toNat)))
    ∧ ∀ l : BitVec 4,
      (10 < l.toNat → exec (.resizableBarWrite l) s = .next s)
      ∧ (l.toNat ≤ 10 → exec (.resizableBarWrite l) s = .next { s with host := { s.host with
          bar2log := l, bar2base := BitVec.ofNat 10 (s.host.bar2base.toNat / 2 ^ l.toNat * 2 ^ l.toNat) } })

/-! ### Launch, pre-emption, save, restore and migration: 15 R321 to R332, 16 R349 to R352, 06 R130 to R132, R151 to R153 -/

namespace Sys2Proof

/-- A queue that has stopped with a cause and an index, its vector raised (R324); the head it has read stays read only where no record
is refused (cause 6, R322); other queues and all memory stand. -/
def QueueStopped (s u : State) (q : BitVec 6) (cause : BitVec 8) (index : BitVec 32) : Prop :=
  u.queueAt q = { s.queueAt q with
    halted := true, cause := cause, index := index, since := (u.queueAt q).since,
    waiting := if cause = 6 then (s.queueAt q).waiting else none, part := if cause = 6 then (s.queueAt q).part else [] } ∧
  (∀ p, p ≠ q → u.queueAt p = s.queueAt p) ∧ VectorRaised s.host u.host (q.setWidth 8) ∧
  u = { s with queues := u.queues, host := u.host, held := u.held, packageQ := u.packageQ }

/-- A head placed: its group is reserved, nothing of it is started yet, and the queue keeps its HEAD (R322, R325). -/
def HeadPlaced (s u : State) (q : BitVec 6) (l : List Reserved) : Prop :=
  u.reserved = s.reserved ++ l ∧ u.nextGroup = s.nextGroup + 1 ∧
  u.queueAt q = { s.queueAt q with waiting := none, part := [], since := (u.queueAt q).since } ∧
  u = { s with
    queues := u.queues, reserved := u.reserved, nextGroup := u.nextGroup, held := u.held, packageQ := u.packageQ }

/-- A step of a die's launch engine that takes the head h of queue q alone (R324, R325): refused with the lowest cause of Table 15.3,
placed whole, or kept as it was read. -/
def HeadServed (o : Out) (s : State) (die : BitVec 3) (q : BitVec 6) (h : Option Record) : Prop :=
  let x := s.queueAt q
  let done := { s with lastQueue := s.lastQueue.set die.toFin q }
  (h = none → Gives o fun u => QueueStopped done u q 7 x.head)
  ∧ ∀ r, h = some r → (recTier r).toNat < 4 →
    (∀ c, s.recordCause die r = some c → Gives o fun u => QueueStopped done u q c x.head)
    ∧ (s.recordCause die r = none → (s.latch q r).placement q r = none → o = .next (s.latch q r))
    ∧ (∀ l, s.recordCause die r = none → (s.latch q r).placement q r = some l →
      l.length = recSize r ∧ Gives o fun u => HeadPlaced done u q l)

/-- Queue registers and heads (R322 to R326). A doorbell moves TAIL; more records than entries stop the queue with cause 6. A die's engine
serves no head while a more urgent one, or one of equal urgency whose turn comes before, could be served; a head that it takes alone is
refused, placed or kept (`HeadServed`); outside ACTIVE none is taken. A die's foremost waiting head becomes its held start. -/
def LaunchEvents : Prop :=
  ∀ (q : BitVec 6) (s : State),
    let x := s.queueAt q
    let full (y : Queue) : Prop := 2 ^ y.log2n.toNat < (y.tail - y.head).toNat
    let settled (o : Out) (y : Queue) (w : State) : Prop :=
      (full y → Gives o fun u => QueueStopped w u q 6 (y.head + BitVec.ofNat 32 (2 ^ y.log2n.toNat)))
      ∧ (¬ full y → o = .next w)
    let with_ (y : Queue) : State := s.queuePut q y
    (∀ v : BitVec 32, settled (exec (.qtailDoorbell q v) s) { x with tail := v } (with_ { x with tail := v }))
    ∧ (x.halted = false → exec (.qstatHaltedClear q) s = .next s)
    ∧ (x.halted = true →
        let y := { x with halted := false, head := if x.cause = 6 then x.head else x.head + 1 }
        settled (exec (.qstatHaltedClear q) s) y (with_ y))
    ∧ (¬ full x → x.log2n.toNat ≤ 16 → Gives (exec (.queueDisable q) s) fun u =>
        u.queueAt q = { x with en := false, waiting := none, part := [] } ∧ (∀ p, p ≠ q → u.queueAt p = s.queueAt p) ∧
        (∀ h ∈ u.held, h.queue ≠ q) ∧ q ∉ u.packageQ ∧ u.reserved = s.reserved ∧ SameMemory s u)
    ∧ (s.thermal.state ≠ .active → exec (.launchRetry q) s = .next s ∧ exec (.heldStart q) s = .next s ∧
        ∀ die, exec (.launchHeadService die) s = .next s)
    ∧ ((x.waiting = none ∨ s.foremost q = false ∨ ∃ h ∈ s.held, (s.queueAt h.queue).die = x.die) → exec (.heldStart q) s = .next s)
    ∧ (∀ r : Record, x.waiting = some r → s.thermal.state = .active → s.hasHead q = true → s.foremost q = true →
        (∀ h ∈ s.held, (s.queueAt h.queue).die ≠ x.die) →
        Gives (exec (.heldStart q) s) fun u => SameMemory s u ∧ u.reserved = s.reserved ∧
          (∃ i, u.held = s.held ++ [⟨q, recTier r, i, [], [], [], []⟩] ∧ (recPin r = true → i = recInst r)) ∧
          (recPreempt r = false → u = { s with held := u.held }) ∧
          (recPreempt r = true → ∃ gs : List Nat, u.resumes = s.resumes ++ gs.map (fun g => (g, x.die)) ∧
            (∀ t ∈ s.threads, t.group ∈ gs → ∃ y ∈ u.threads, y.tid = t.tid ∧ y.saveReq = true) ∧
            ((s.placement q r).isSome = true → gs = []) ∧
            (∀ g ∈ gs, ∃ t ∈ s.threads, t.group = g ∧ t.prio.toNat < (recPrio r).toNat)))
    ∧ ∀ die : BitVec 3, s.resumeGroup die = none →
        let last := s.lastQueue[die.toFin]
        (∀ (p : BitVec 6) (n : Nat) (u : State), s.launchNext die = some (p, n, u) →
          exec (.launchHeadService die) s = .next u ∧ ((s.queueAt p).die = die → exec (.launchRetry p) s = .next u) ∧
          ∀ y ∈ s.heads die, (n < headPrio y ∨ (headPrio y = n ∧ turnOf last y.1 < turnOf last p)) →
            (s.latchAll (inOrder last (s.heads die))).serveHead y.1 y.2 = none)
        ∧ ∀ h : Option Record, s.thermal.state = .active → s.heads die = [(q, h)] → ¬ full x → x.die = die →
          HeadServed (exec (.launchHeadService die) s) s die q h ∧ HeadServed (exec (.launchRetry q) s) s die q h

/-- The start of a reserved thread (R132, Table 6.1), in rank order within its group and once its slot has drained: its registers, its rows
and tags cleared, one strip open; with the last of the group HEAD moves on. Outside ACTIVE and QUIESCE none starts, and in QUIESCE it is to
be saved (R361, R363; log 78). The engine of a core takes the next operation, of each thread the first (R297, R328). -/
def ThreadStart : Prop :=
  ∀ s : State,
    (∀ (t : Tid), (∀ r ∈ s.reserved, r.tid ≠ t) → exec (.threadStart t) s = .next s)
    ∧ (∀ (r : Reserved) (t : Tid), s.reserved.find? (fun r => r.tid = t) = some r →
      let early := ∃ y ∈ s.reserved, y.group = r.group ∧ y.rank.toNat < r.rank.toNat
      let n := 2 ^ r.log2n.toNat
      let on := s.thermal.state = .active ∨ s.thermal.state = .quiesce
      ((early ∨ s.slotDrained t = false ∨ ¬ on) → exec (.threadStart t) s = .next s)
      ∧ (¬ early → s.slotDrained t = true → on → Gives (exec (.threadStart t) s) fun u => SameMemory s u ∧
        u.th = (if s.th.ended = true ∧ s.th.tid = t then .blank else s.th) ∧
        u.reserved = s.reserved.filter (fun y => y.tid ≠ t) ∧
        (u.queueAt r.queue).head = (s.queueAt r.queue).head +
          (if ∃ y ∈ u.reserved, y.group = r.group then 0 else 1) ∧
        ∃ y ∈ u.parked, y.live = true ∧ y.tid = t ∧ y.saveReq = decide (s.thermal.state ≠ .active) ∧ y.ctx = recCtx r.record ∧ y.prio = recPrio r.record ∧ y.group = r.group ∧
          y.rank = r.rank ∧ y.grant = s.nextGrant ∧ y.base = r.base ∧ y.log2n = r.log2n ∧ y.tiles = recAcc r.record ∧ y.pc = recEntry r.record ∧
          y.priv = false ∧ y.ceiling = (if recVlmax r.record = 0 then 4096 else recVlmax r.record) ∧
          (∀ i, y.sr i = if i = 1 then recArg r.record else if i = 2 then r.rank.setWidth 64
            else if i = 3 then BitVec.ofNat 64 (recSize r.record) else if i = 4 then t.core.setWidth 64
            else if i = 5 then BitVec.ofNat 64 n else 0) ∧
          (∀ i, y.fr i = ⟨0, 0, false⟩) ∧ y.mode = 0 ∧ y.vl = 0 ∧ y.flags = 0 ∧ y.out = [] ∧ y.taints = .empty ∧
          (∀ k ∈ y.rowKeys, u.rowAt k = 0 ∧ u.tagsAt k = 1)))
    ∧ ∀ core : BitVec 12,
      (s.matNext core = none → exec (.matrixOperationStart core) s = .next s)
      ∧ ∀ x, s.matNext core = some x → Gives (exec (.matrixOperationStart core) s) fun u => u = { s with mq := u.mq } ∧
        u.mq.length = s.mq.length ∧ (∀ m ∈ s.mq, m ≠ x → m ∈ u.mq) ∧ { x with started := true } ∈ u.mq ∧
        x ∈ s.mq ∧ x.started = false ∧ x.tid.core = core ∧ s.matFirst x = true ∧
        ∀ m ∈ s.mq, m.tid.core = core → m.started = false ∧ (s.matFirst m = true → s.matReady m = true → m.prio.toNat ≤ x.prio.toNat ∧
          (m.prio = x.prio → x.seq ≤ m.seq))

/-! ### Pre-emption, save, restore, migration, leases: 15 R330, R331, 16 R349 to R352, 06 R151 to R154, 10 R215, 17 R365 -/

/-- One event more stands in the supervisor event ring, or one more is counted as lost, its count saturating (R338). -/
def EventRung (s u : State) : Prop :=
  let next := (s.regs.sevtail.toNat + 1) % ringLen s.regs.sevbase
  if next = s.regs.sevhead.toNat then u.regs.sevtail = s.regs.sevtail ∧
    u.regs.sevlost.toNat = Nat.min (s.regs.sevlost.toNat + 1) 0xFFFFFFFF
  else u.regs.sevtail.toNat = next ∧ u.regs.sevlost = s.regs.sevlost

/-- PRECTL and RESCTL written with GO (R330, R351): the threads named are asked to stop, with their event flags set (R212), or the saved
threads named are to be restored; a job that names none ends at once. One job runs at a time. A context marked SAVE-FAILED is not restored. -/
def RequestEvents : Prop :=
  ∀ (v : Dword) (s : State),
    let img : BitVec 33 := v.setWidth 33
    let named (t : Thread) : Prop := jobNames img t.ctx t.tid = true
    let marked (x : Saved) : Prop := jobNames img x.ctx x.tid = true ∨
      (x.tier.toNat ≤ 2 ∧ ∃ y ∈ s.saved, jobNames img y.ctx y.tid = true ∧ y.tier.toNat ≤ 2 ∧ y.group = x.group)
    (s.regs.preJob ≠ none → exec (.preemptRequest v) s = .next { s with regs := { s.regs with prectl := img } })
    ∧ (s.regs.preJob = none → Gives (exec (.preemptRequest v) s) fun u =>
        u = { s with th := u.th, parked := u.parked, regs := u.regs, host := u.host } ∧
        u.regs = { s.regs with prectl := img, preJob := u.regs.preJob, resJob := u.regs.resJob } ∧
        ThreadsChange s u named (fun x y => y = { x with
          saveReq := true, event := true, sleep := if x.sleep = .wfe then .awake else x.sleep }) ∧
        ((∃ t ∈ s.threads, named t) → u.regs.preJob = some img) ∧ ((∀ t ∈ s.threads, ¬ named t) → u.regs.preJob = none) ∧
        (s.regs.resJob = none → (∃ t ∈ s.threads, named t) → u.host = s.host) ∧
        (s.regs.resJob = none → (∀ t ∈ s.threads, ¬ named t) → VectorRaised s.host u.host 64))
    ∧ (s.regs.resJob ≠ none → exec (.restoreRequest v) s = .next { s with regs := { s.regs with resctl := img } })
    ∧ (s.regs.resJob = none → (s.ctxAt (v.setWidth 16)).svfail = true → Gives (exec (.restoreRequest v) s) fun u =>
        u.saved = s.saved ∧ u.regs.resctl = img ∧ u.queues = s.queues ∧ u.rows = s.rows ∧
        EventRung s u)
    ∧ (s.regs.resJob = none → (s.ctxAt (v.setWidth 16)).svfail = false → Gives (exec (.restoreRequest v) s) fun u =>
        u = { s with saved := u.saved, regs := u.regs, host := u.host } ∧
        u.regs = { s.regs with resctl := img, preJob := u.regs.preJob, resJob := u.regs.resJob } ∧
        u.saved.length = s.saved.length ∧
        (∀ (i : Nat) (x y : Saved), s.saved[i]? = some x → u.saved[i]? = some y →
          (marked x → y = { x with restore := true }) ∧ (¬ marked x → y = x)) ∧
        ((∃ x ∈ s.saved, jobNames img x.ctx x.tid = true) → u.regs.resJob = some img) ∧
        ((∀ x ∈ s.saved, jobNames img x.ctx x.tid = false) → u.regs.resJob = none))

/-- No two offsets of a save area are one byte of memory. -/
def SaveApart (l : List (BitVec 32 × BitVec 8)) : Prop :=
  ∀ i j, i < saveBytes l → j < saveBytes l → saveAddr l i = saveAddr l j → i = j

/-- No store of a thread to a device is still to be performed. -/
def NoDeviceStores (s : State) (x : Thread) : Prop :=
  (∀ b ∈ x.strip.buf, ∀ pa, b.place ≠ .dev pa) ∧ ∀ d ∈ s.drain, d.1 = x.tid → ∀ pa, d.2.place ≠ .dev pa

/-- A thread as an image at offset o of its save area gives it (R350, R351): its place, its s-registers, its footprint's rows and its tags;
rows above the footprint are cleared (R25). -/
def ThreadRestored (s u : State) (x : Saved) (o : Nat) (base : BitVec 4) : Prop :=
  let l := (s.ctxAt x.ctx).save
  let n := 2 ^ x.log2n.toNat
  ∃ y ∈ u.threads, y.tid = x.tid ∧ y.ctx = x.ctx ∧ y.prio = x.prio ∧ y.tier = x.tier ∧ y.group = x.group ∧ y.rank = x.rank ∧
    y.gsize = x.gsize ∧ y.done = x.done ∧ y.base = base ∧ y.log2n = x.log2n ∧ y.tiles = x.tiles ∧ y.ceiling = x.ceiling ∧
    y.copyFails = x.copyFails ∧ y.copyCode = x.copyCode ∧ (∀ i : Fin 64, y.s[i] = s.saveDword l (o + 128 + 8 * i.val)) ∧
    (y.spfoot.toNat ≤ 256 * n → ∀ e < 256 * n, u.tagsAt (y.rowKey e) = BitVec.ofNat 16 (leVal (s.saveRead l (o + 6656 + 2 * e) 2)) ||| 1 ∧
      rowBytes (u.rowAt (y.rowKey e)) 0 128 =
        if e < y.spfoot.toNat then s.saveRead l (o + 6656 + 512 * n + 128 * e) 128 else List.replicate 128 0)

/-- Whether it is a thread's turn to be saved: any order, but in CRITICAL those of higher PRIO first, among equals those of lower core (R363). -/
def SavesNow (s : State) (t : Thread) : Prop :=
  s.thermal.state = .critical → ∀ x ∈ s.threads, x.saveReq = true → s.saveable x = true →
    x.prio.toNat < t.prio.toNat ∨ (x.prio = t.prio ∧ t.tid.core.toNat ≤ x.tid.core.toNat)

/-- CONTEXT_SAVE of a thread that was asked to stop and has stopped, in its turn (in CRITICAL by descending PRIO, then by core, R363): its image stands in the save area, the thread has left its slot, its rows
are cleared; the context's last running thread stores the header. Without room it runs on, or its context is killed where the package must end its work (R349, R350). A saved thread that a request
names comes back alone or, for core and cluster tier, with all of its group, when its slot, as many plies and its tiles are free and kept for no
held start (R351, R326); a group on a die's resume list likewise, ahead of starts of equal priority and behind those of higher (R331). An
uncorrectable error in the frames that a save writes ends the context as SAVE-FAILED (R60). -/
def SaveEvents : Prop :=
  (∀ (t : Tid) (s : State),
    ((∀ x, s.threadAt t = some x → x.saveReq = false ∨ s.saveable x = false ∨ ¬ SavesNow s x) → exec (.contextSave t) s = .next s)
    ∧ ∀ x, s.threadAt t = some x → x.saveReq = true → s.saveable x = true → SavesNow s x → NoDeviceStores s x →
      let f := s.focus t
      let w := f.settleThread true
      let l := (s.ctxAt x.ctx).save
      let room := f.imageRoom x.ctx (imageSize x.n x.spfoot.toNat x.tiles.toNat)
      (∀ e o, f.freeEntry x.ctx = some e → room = some o → w.saveBad x e o = none → Gives (exec (.contextSave t) s) fun u =>
        (∀ y ∈ u.threads, y.tid ≠ t) ∧ (∀ k ∈ x.rowKeys, u.rowAt k = 0 ∧ u.tagsAt k = 1) ∧
        (u.ctxAt x.ctx).lastCore = some t.core ∧
        ((∀ z ∈ s.threads, z.ctx = x.ctx → z.tid = t) → (u.ctxAt x.ctx).stored = true) ∧
        (∃ y, u.saved = s.saved ++ [y] ∧ y.ctx = x.ctx ∧ y.entry = BitVec.ofNat 8 e ∧ y.tid = t ∧ y.group = x.group ∧
          y.rank = x.rank ∧ y.log2n = x.log2n ∧ y.tiles = x.tiles ∧ y.restore = false ∧ y.pend = x.pend) ∧
        (SaveApart l → 0x4000 ≤ o →
          (∀ i : Fin 64, u.saveDword l (o + 128 + 8 * i.val) = x.s[i]) ∧ (u.saveDword l (o + 16)).getLsbD 0 = x.priv ∧
          wordAddr (u.saveDword l (o + 16)) = wordAddr x.pc ∧ (u.saveDword l (dirAt e)).getLsbD 63 = true ∧
          (u.saveDword l (dirAt e)).setWidth 32 = BitVec.ofNat 32 o))
      ∧ (∀ e o frame, f.freeEntry x.ctx = some e → room = some o → w.saveBad x e o = some frame →
        Gives (exec (.contextSave t) s) fun u => (u.ctxAt x.ctx).svfail = true ∧ (u.ctxAt x.ctx).valid = false ∧
          (∀ y ∈ u.threads, y.ctx ≠ x.ctx) ∧ ∀ y ∈ u.saved, y.ctx ≠ x.ctx)
      ∧ ((f.freeEntry x.ctx = none ∨ room = none) → Gives (exec (.contextSave t) s) fun u => u.saved =
          (if s.thermal.state = .quiesce ∨ s.thermal.state = .critical then s.saved.filter (fun y => y.ctx ≠ x.ctx) else s.saved) ∧
        (if s.thermal.state = .quiesce ∨ s.thermal.state = .critical then
          (u.ctxAt x.ctx).valid = false ∧ ∀ y ∈ u.threads, y.ctx ≠ x.ctx
         else (∃ y ∈ u.threads, y.tid = t ∧ y.saveReq = false ∧ y.s = x.s ∧ y.pc = x.pc) ∧
          ((∀ y ∈ s.saved, y.group ≠ x.group) → (∀ z ∈ s.threads, z.group = x.group → z.tid = t) →
            ∀ g ∈ u.resumes, g.1 ≠ x.group))))
  ∧ ∀ (s : State),
    (∀ (ctx : BitVec 16) (entry : BitVec 8),
      ((∀ x ∈ s.saved, ¬ (x.ctx = ctx ∧ x.entry = entry ∧ x.restore = true)) ∨ s.thermal.state ≠ .active →
        exec (.contextRestore ctx entry) s = .next s)
      ∧ ∀ x, s.saved.find? (fun x => x.ctx = ctx && x.entry = entry && x.restore) = some x → s.thermal.state = .active →
        let o := ((s.saveDword (s.ctxAt ctx).save (dirAt entry.toNat)).setWidth 32).toNat
        (s.restoreAll (s.restoreSet x) = none → exec (.contextRestore ctx entry) s = .next s)
        ∧ (∀ y ∈ s.restoreSet x, y = x ∨ ((x.tier = 1 ∨ x.tier = 2) ∧ y ∈ s.saved ∧ y.group = x.group))
        ∧ (∀ b, x.tier ≠ 1 → x.tier ≠ 2 → s.slotFree none x.tid.core x.tid.slot = true → s.slotDrained x.tid = true →
          s.tilesBarred none x.tid.core + x.tiles.toNat ≤ 4 → s.regrant x.tid.core x.log2n.toNat = some b →
          s.saveBad (s.threadFrom x o (BitVec.ofNat 4 b)) x.entry.toNat o = none →
          Gives (exec (.contextRestore ctx entry) s) fun u => ThreadRestored s u x o (BitVec.ofNat 4 b) ∧
            u.saved = s.saved.filter fun y => ¬ (y.ctx = ctx ∧ y.entry = entry)))
    ∧ ∀ die : BitVec 3,
      ((s.thermal.state ≠ .active ∨ ∀ g ∈ s.resumes, g.2 ≠ die) → exec (.resumeListRestore die) s = .next s)
      ∧ ∀ (g : Nat) (x : Saved) (b : Nat), s.thermal.state = .active → s.resumes = [(g, die)] →
        s.saved.filter (fun y => y.group = g) = [x] → (∀ t ∈ s.threads, t.group = g → t.saveReq = false) →
        let o := ((s.saveDword (s.ctxAt x.ctx).save (dirAt x.entry.toNat)).setWidth 32).toNat
        s.slotFree none x.tid.core x.tid.slot = true → s.slotDrained x.tid = true →
        s.tilesBarred none x.tid.core + x.tiles.toNat ≤ 4 → s.regrant x.tid.core x.log2n.toNat = some b →
        s.saveBad (s.threadFrom x o (BitVec.ofNat 4 b)) x.entry.toNat o = none →
        (∀ q n w, s.launchNext die = some (q, n, w) → n ≤ x.prio.toNat) →
        Gives (exec (.resumeListRestore die) s) fun u => u.resumes = [] ∧ ThreadRestored s u x o (BitVec.ofNat 4 b)
      ∧ ∀ (n p : Nat) (q : BitVec 6) (u w : State), s.launchNext die = some (q, p, u) → s.resumeGroup die = some (n, w) →
        (p ≤ n → exec (.resumeListRestore die) s = .next w ∧ exec (.launchHeadService die) s = .next (s.launchRead die)) ∧
        (n < p → exec (.resumeListRestore die) s = .next s ∧ exec (.launchHeadService die) s = .next u)

end Sys2Proof

/-- A thread asked to migrate takes its whole group with it, for core and cluster tier; once all that go have stopped, each begins again in
a free slot of its new core with as many plies, its registers, its footprint's rows and its tags (R151 to R153); a group waits for members that
are still to start, and its saved members are to be restored on the new cluster (R153). A slot's oldest forwarding entry ends.
A lease ends when its time has passed, not before (R365); BOOST returns what is granted on the terms of R365, at most what it asked for (R215),
and 0 while the postmaster restarts (R374). -/
def Obligations.MigrationAndLeaseEvents : Prop :=
  ∀ (t : Tid) (s : State),
    (∀ dst : BitVec 12,
      (s.threadAt t = none → exec (.migrationRequest t dst) s = .next s)
      ∧ ∀ x, s.threadAt t = some x → OnThreads (exec (.migrationRequest t dst) s) s
          (fun y => y.tid = t ∨ ((x.tier = 1 ∨ x.tier = 2) ∧ y.group = x.group))
          fun y z => z = { y with migrate := some (if x.tier = 2 then
            BitVec.ofNat 12 (dst.toNat / 4 * 4 + y.tid.core.toNat % 4) else dst) })
    ∧ (∀ x, s.threadAt t = some x →
      let w := (s.focus t).settle
      let grouped := (x.tier = 1 ∨ x.tier = 2) ∧ x.migrate ≠ some x.tid.core
      ((∃ y ∈ s.moveSet x, y.migrate = none ∨ s.saveable y = false) ∨ (grouped ∧ ∃ r ∈ s.reserved, r.group = x.group) → exec (.streamComplete t) s = .next s)
      ∧ (∀ dst v, grouped → x.migrate = some dst → (∀ y ∈ s.moveSet x, y.migrate ≠ none ∧ s.saveable y = true) →
        (∀ r ∈ s.reserved, r.group ≠ x.group) → s.moveAll ((s.moveSet x).map (·.tid)) = some v →
        (v.saved.map fun y => (y.ctx, y.entry)).Nodup →
        Gives (exec (.streamComplete t) s) fun u => u.saved.length = v.saved.length ∧
          ∀ (i : Nat) (y z : Saved), v.saved[i]? = some y → u.saved[i]? = some z →
            (y.group ≠ x.group → z = y) ∧ (y.group = x.group → z = { y with tid := z.tid } ∧
              z.tid.core = if x.tier = 2 then BitVec.ofNat 12 (dst.toNat / 4 * 4 + y.tid.core.toNat % 4) else dst))
      ∧ ∀ dst new b, x.tier ≠ 1 → x.tier ≠ 2 → x.migrate = some dst → s.saveable x = true → NoDeviceStores s x →
        x.spfoot.toNat ≤ 256 * x.n → x.base.toNat + x.n ≤ 16 →
        ((s.focus t).movePlace x dst = none → exec (.streamComplete t) s = .next s)
        ∧ ((s.focus t).movePlace x dst = some (new, b) → Gives (exec (.streamComplete t) s) fun u =>
          ∃ y, u.th = y ∧ y.live = true ∧ y.tid = new ∧ y.base = b ∧ y.s = x.s ∧ y.f = x.f ∧ y.fmap = x.fmap ∧ y.nf = x.nf ∧
            y.vl = x.vl ∧ y.mode = x.mode ∧ y.flags = w.th.flags ∧ y.acc = x.acc ∧ y.migrate = none ∧ y.lease = none ∧
            (new ≠ t → (∀ z ∈ u.threads, z.tid ≠ t) ∧ u.forwards = ⟨t, x.base, x.grant, new, b, y.grant, x.log2n, true⟩ :: s.forwards ∧ y.grant = s.nextGrant) ∧
            ∀ e < 256 * x.n, u.tagsAt (y.rowKey e) = w.tagsAt (x.rowKey e) ∧
              u.rowAt (y.rowKey e) = if e < x.spfoot.toNat then w.rowAt (x.rowKey e) else 0))
    ∧ ((∀ f ∈ s.forwards, f.old = t → f.live = false) → exec (.forwardingEntryExpiry t) s = .next s)
    ∧ (∀ f later older, s.forwards = later ++ f :: older → f.old = t → f.live = true → (∀ g ∈ older, g.old = t → g.live = false) →
      exec (.forwardingEntryExpiry t) s = .next { s with forwards := later ++ { f with live := false } :: older })
    ∧ ((∀ x, s.threadAt t = some x → ∃ bands fin, x.lease = some (bands, fin) ∧ s.cycles.toNat < fin.toNat) →
      exec (.leaseExpiry t) s = .next s)
    ∧ (∀ x bands fin, s.threadAt t = some x → x.lease = some (bands, fin) → fin.toNat ≤ s.cycles.toNat →
      Gives (exec (.leaseExpiry t) s) fun u => u = { s with th := u.th, parked := u.parked, thermal := u.thermal } ∧
        ThreadsChange s u (fun y => y.tid = t) (fun y z => z = { y with lease := none }) ∧
        u.thermal = { s.thermal with
          pool := s.thermal.pool + 33 * bandCount bands, leases := s.thermal.leases.filter (fun y => y ≠ t),
          boosted := put 0 s.thermal.boosted t.core.toNat (look 0 s.thermal.boosted t.core.toNat &&& ~~~ bands) })
    ∧ ∀ granted : BitVec 10,
      ((∀ x, s.threadAt t = some x → ∀ d m us, x.sleep ≠ .boost d m us) → exec (.boostAnswer t granted) s = .next s)
      ∧ ∀ x d bands us, s.threadAt t = some x → x.sleep = .boost d bands us →
        let terms := bands ≠ 0 ∧ (s.thermal.band[dieOf t.core]?.getD 0).toNat ≤ 1 ∧
          bands &&& look 0 s.thermal.bandOff t.core.toNat = 0 ∧ 33 * bandCount bands ≤ s.thermal.pool ∧
          ¬ (s.pm.busy = true ∧ s.pm.op = 4)
        let g := Nat.min granted.toNat us.toNat
        ((¬ terms ∨ g = 0) → OnThread (exec (.boostAnswer t granted) s) s t fun y z =>
          z = { y.setS d 0 0 with pc := y.pc + 4, sleep := .awake })
        ∧ (terms → g ≠ 0 → Gives (exec (.boostAnswer t granted) s) fun u =>
          u = { s with th := u.th, parked := u.parked, thermal := u.thermal } ∧
          u.thermal = { s.thermal with
            pool := s.thermal.pool - 33 * bandCount bands, leases := s.thermal.leases ++ [t],
            boosted := put 0 s.thermal.boosted t.core.toNat (look 0 s.thermal.boosted t.core.toNat ||| bands) } ∧
          ThreadsChange s u (fun y => y.tid = t) fun y z => z = { y.setS d (BitVec.ofNat 64 g) 0 with
            pc := y.pc + 4, sleep := .awake, lease := some (bands, s.cycles + BitVec.ofNat 64 (700 * g)) })

/-! ### Temperature, power and the package state: 17 R357 to R366, 16 R354 -/

namespace Sys2Proof

/-- The package in another state of Table 17.3, with its vector 66 (R359), and nothing else changed but what `w` has changed already. -/
def PackageTurns (w u : State) (p : PkState) : Prop :=
  u = { w with thermal := { w.thermal with state := p }, host := u.host } ∧ VectorRaised w.host u.host 66

/-- Every byte outside HBM reads as before (R361: HBM is lost). -/
def OnlyHbmLost (s u : State) : Prop := ∀ a, isHbm a = false → memByte u.mem a = memByte s.mem a

end Sys2Proof

/-- COOL_DOWN, GO and WARM_UP in and out of the states that take them (R361), the ends of PURGE and SOAK (R359), the critical sequence
(R363) and refresh (R362). In postmaster recovery the package stays in WARM-SERVICE (R374). The critical mark ends a mailbox command other than
OP 1 and OP 2 with ERR 4, OP 5 with the number of plies still to load (R372, R376). -/
def Obligations.PackageStateEvents : Prop :=
  ∀ (s : State),
    let x := s.thermal
    let refused : Out := .next { s with thermal := { x with cmderr := true } }
    let asked (y z : Thread) : Prop := z = { y with
      saveReq := true, event := true, sleep := if y.sleep = .wfe then .awake else y.sleep }
    (x.state = .warmService → s.pm.recovery = false → Gives (exec .coolDown s) fun u => PackageTurns s u .purge)
    ∧ ((x.state ≠ .warmService ∨ s.pm.recovery = true) → exec .coolDown s = refused)
    ∧ (x.state = .coldReady → (∀ d : Fin 8, x.band[d] = 0) → Gives (exec .go s) fun u => PackageTurns s u .active)
    ∧ ((x.state ≠ .coldReady ∨ ∃ d : Fin 8, x.band[d] ≠ 0) → exec .go s = refused)
    ∧ (x.state = .active → (s.threads ≠ [] ∨ s.reserved ≠ []) → Gives (exec .warmUp s) fun u =>
        PackageTurns { s with th := u.th, parked := u.parked } u .quiesce ∧ ThreadsChange s u (fun _ => True) asked)
    ∧ (x.state = .active → s.threads = [] → s.reserved = [] → Gives (exec .warmUp s) fun u => u.thermal.state = .ascend)
    ∧ (x.state ≠ .active → exec .warmUp s = refused)
    ∧ (x.state = .purge → 800 ≤ x.flow.toNat → Gives (exec .purgeComplete s) fun u => PackageTurns s u .descend)
    ∧ ((x.state ≠ .purge ∨ x.flow.toNat < 800) → exec .purgeComplete s = .next s)
    ∧ (x.state = .soak → x.tmax ≤ 95 → x.tmax - x.tmin ≤ 5 → Gives (exec .soakComplete s) fun u =>
        PackageTurns { s with thermal := { x with refresh := false, bursts := 0 } } u .coldReady)
    ∧ ((x.state ≠ .soak ∨ 95 < x.tmax ∨ 5 < x.tmax - x.tmin) → exec .soakComplete s = .next s)
    ∧ (∀ c : BitVec 2,
      (x.state = .coldReady ∨ x.state = .active ∨ x.state = .quiesce → Gives (exec (.criticalMark c) s) fun u =>
        u.thermal.state = .critical ∧ u.thermal.crit = c ∧ u.thermal.chainp = .replicate 8 0 ∧ u.thermal.bandWaking = [] ∧
        SameMemory s u ∧ u.rows = s.rows ∧ u.tags = s.tags ∧
        ThreadsChange s u (fun _ => True) (fun y z => asked { y with lease := none } z) ∧
        u.thermal.steps = (x.bandWaking.map fun e => PowerStep.bands (BitVec.ofNat 12 e.1) e.2) ++ x.steps ∧
        (s.pm.busy = true → s.pm.op ≠ 1 → s.pm.op ≠ 2 → u.pm.busy = false ∧ u.pm.err = (if s.pm.late = true then 1 else 4) ∧
          (s.pm.op = 5 → u.pm.result = BitVec.ofNat 32 s.pm.toLoad) ∧ (s.pm.op = 4 → u.pm.starting = false)) ∧
        (s.pm.busy = false ∨ s.pm.op = 1 ∨ s.pm.op = 2 → u.pm = s.pm))
      ∧ (x.state = .critical → exec (.criticalMark c) s = .next { s with thermal := { x with crit := x.crit ||| c } })
      ∧ (x.state = .purge ∨ x.state = .descend ∨ x.state = .soak →
        (c.getLsbD 0 = false → exec (.criticalMark c) s = .next s) ∧
        (c.getLsbD 0 = true → Gives (exec (.criticalMark c) s) fun u => OnlyHbmLost s u ∧
          PackageTurns { s with mem := u.mem, thermal := { x with crit := 1 } } u .warmService))
      ∧ (x.state = .warmService ∨ x.state = .ascend → exec (.criticalMark c) s = .next s))
    ∧ (x.state ≠ .critical → exec .criticalSaveDeadline s = .next s ∧ exec .criticalRailsOff s = .next s)
    ∧ (x.state = .critical → Gives (exec .criticalSaveDeadline s) fun u => u.threads = [] ∧
        ∀ t ∈ s.threads, (∀ y ∈ s.threads, y.tid = t.tid → y.ctx = t.ctx) →
          (u.ctxAt t.ctx).svfail = true ∧ (u.ctxAt t.ctx).valid = false ∧ ∀ y ∈ u.saved, y.ctx ≠ t.ctx)
    ∧ (x.state = .critical → s.threads = [] → Gives (exec .criticalRailsOff s) fun u => PackageTurns s u .ascend)
    ∧ (x.state = .critical → s.threads ≠ [] → exec .criticalRailsOff s = .next s)
    ∧ (x.smax ≤ 95 → exec .refreshOff s = .next { s with thermal := { x with refresh := false, bursts := 0 } })
    ∧ (95 < x.smax → exec .refreshOff s = .next s)
    ∧ ∀ k : BitVec 4, Gives (exec (.refreshBurstComplete k) s) fun u =>
        u = { s with thermal := { x with bursts := u.thermal.bursts } } ∧
        ∀ i : Fin 16, u.thermal.bursts.getLsbD i.val = (x.bursts.getLsbD i.val && !(i.val == k.toNat))

namespace Sys2Proof

/-- The lower bounds of the bands COLD, COOL, WARM and HOT (Table 17.1), in K. -/
def bandLow (b : Nat) : Nat := [0, 100, 140, 230].getD b 0

/-- The band after a temperature (R357, R358): the highest whose lower bound the temperature passes, when that is warmer; else as far down as
the temperature is at least 5 K below the lower bound of each band left. -/
def BandAfter (old new : BitVec 2) (t : Nat) : Prop :=
  let high (b : Nat) : Prop := (b = 0 ∨ bandLow b < t) ∧ ∀ c, b < c → c < 4 → t ≤ bandLow c
  ∃ r < 4, high r ∧
    ((old.toNat < r ∧ new.toNat = r) ∨
     (r ≤ old.toNat ∧ new.toNat ≤ old.toNat ∧ (∀ b, new.toNat < b → b ≤ old.toNat → t + 5 ≤ bandLow b) ∧
      (new = 0 ∨ bandLow new.toNat < t + 5)))

/-- The hottest of a die's sensors (R357), as in a thermal state. -/
def DieTemp (x : Thermal) (die : BitVec 3) (t : Nat) : Prop :=
  let k := die.toNat
  let l := [(x.temp[k]?.getD 0).toNat, (x.stack[2 * k]?.getD 0).toNat, (x.stack[2 * k + 1]?.getD 0).toNat]
  t ∈ l ∧ ∀ y ∈ l, y ≤ t

/-- A sensor sample (R357 to R362): the readings stand, the die takes its band; in WARM or above its leases end, its clock is 350 MHz and the
cap is 900 W while any die is there; below, its clock is what the capping steps leave; a stack above 100 K starts refresh with a burst; 95 K
ends DESCEND, 230 K ends ASCEND with HBM lost, and 160 K in service or in CRITICAL is the critical mark of TEMP. A measurement above the cap
takes one step of R364's order: the oldest lease, idle bands, the clock of the hottest die; the same means are applied to a matrix band above
85 mW; below 90 % of the cap, and of the bands' limit, the steps are undone in the reverse order. The model's choices: 900 W is kept while a die
is HOT, and a band's lease, switch and die clock are its means in that order (log 78). -/
def SensorAndPowerEvents : Prop :=
  ∀ s : State,
    let x := s.thermal
    (∀ (die : BitVec 3) (temp st0 st1 : BitVec 10) (flow : BitVec 16) (ratex : Bool),
      let k := die.toNat
      ∃ w : State, w = { s with th := w.th, parked := w.parked, thermal := w.thermal } ∧
        w.thermal = { x with
          temp := w.thermal.temp, stack := w.thermal.stack, flow := w.thermal.flow, ratex := w.thermal.ratex, band := w.thermal.band,
          clock := w.thermal.clock, settling := w.thermal.settling, cap := w.thermal.cap, refresh := w.thermal.refresh,
          bursts := w.thermal.bursts, leases := w.thermal.leases, boosted := w.thermal.boosted, pool := w.thermal.pool } ∧
        (∃ b : BitVec 2, w.thermal.band = x.band.set die.toFin b ∧
          (∀ t, DieTemp w.thermal die t → BandAfter x.band[die.toFin] b t) ∧
          (2 ≤ b.toNat → w.thermal.clock[die.toFin] = 350 ∧
            ThreadsChange s w (fun y => y.lease ≠ none ∧ dieOf y.tid.core = k) (fun y z => z = { y with lease := none })) ∧
          (b.toNat < 2 → w.th = s.th ∧ w.parked = s.parked ∧ w.thermal.leases = x.leases ∧
            w.thermal.clock[die.toFin] = x.capClock[die.toFin])) ∧
        w.thermal.temp = x.temp.set die.toFin temp ∧ w.thermal.stack = (x.stack.set! (2 * k) st0).set! (2 * k + 1) st1 ∧
        w.thermal.flow = flow ∧ w.thermal.ratex = (x.ratex || ratex) ∧
        (∀ e : Fin 8, e ≠ die.toFin → w.thermal.clock[e] = x.clock[e]) ∧
        w.thermal.cap = (if ∃ d : Fin 8, 2 ≤ (w.thermal.band[d]).toNat then 900000 else 2000000) ∧
        (100 < w.thermal.smax → x.refresh = false → w.thermal.refresh = true ∧ w.thermal.bursts = 0xFFFF) ∧
        (w.thermal.smax ≤ 100 ∨ x.refresh = true → w.thermal.refresh = x.refresh ∧ w.thermal.bursts = x.bursts) ∧
        let o := exec (.sensorSample die temp st0 st1 flow ratex) s
        let t := w.thermal.tmax
        ((x.state = .coldReady ∨ x.state = .active ∨ x.state = .quiesce ∨ x.state = .critical) → o = if 160 ≤ t then exec (.criticalMark 2) w else .next w) ∧
        (x.state = .descend → (95 < t → o = .next w) ∧ (t ≤ 95 → Gives o fun u => PackageTurns w u .soak)) ∧
        (x.state = .ascend → (t ≤ 230 → o = .next w) ∧ (230 < t → Gives o fun u => OnlyHbmLost s u ∧
          PackageTurns { w with mem := u.mem } u .warmService)) ∧
        ((x.state = .warmService ∨ x.state = .purge ∨ x.state = .soak) → o = .next w))
    ∧ (∀ p : PowerReading,
      let cap := if ∃ d : Fin 8, 2 ≤ (x.band[d]).toNat then 900000 else 2000000
      let read := { x with power := p.mw, bandPower := p.bands.foldl (fun l e => put 0 l e.1 e.2) x.bandPower }
      let o := exec (.powerMeasurement p) s
      let lowered (d : BitVec 3) (u : State) : Prop :=
        let f := x.capClock[d.toFin]
        let g : BitVec 10 := BitVec.ofNat 10 (Nat.max 350 (f.toNat - 100))
        u = { s with thermal := { read with
          capClock := x.capClock.set d.toFin g, clock := x.clock.set d.toFin (if 2 ≤ (x.band[d.toFin]).toNat then 350 else g),
          steps := .clock d f :: x.steps, settling := u.thermal.settling } } ∧
        (u.thermal.clock[d.toFin] ≠ x.clock[d.toFin] → ∀ i < 128, BitVec.ofNat 10 (d.toNat * 128 + i) ∈ u.thermal.settling)
      let slow (d : BitVec 3) : Prop := (x.clock[d.toFin]).toNat ≤ 350 ∨ (x.capClock[d.toFin]).toNat ≤ 350
      let offNow (c : BitVec 12) (m : BitVec 4) (u : State) : Prop :=
        u = { s with thermal := { read with bandOff := u.thermal.bandOff, steps := .bands c m :: x.steps } } ∧
        ∀ k, look 0 u.thermal.bandOff k = if k = c.toNat then look 0 x.bandOff k ||| m else look 0 x.bandOff k
      let ended (t : Tid) (u : State) : Prop :=
        u.thermal.steps = .lease :: x.steps ∧ u.thermal.clock = x.clock ∧ u.thermal.bandOff = x.bandOff ∧ SameMemory s u ∧
        ∀ y ∈ u.threads, y.tid = t → y.lease = none
      ((∀ e ∈ read.bandPower, e.2 ≤ 85) →
        (p.mw ≤ cap → o = .next { s with thermal := read })
        ∧ (cap < p.mw →
          (∀ t ts, x.leases = t :: ts → Gives o (ended t))
          ∧ (∀ c : BitVec 12, x.leases = [] → s.idleBands c ≠ 0 →
              (∀ k : BitVec 12, k.toNat < c.toNat → s.idleBands k = 0) → Gives o (offNow c (s.idleBands c)))
          ∧ (∀ d : BitVec 3, x.leases = [] → (∀ c : BitVec 12, s.idleBands c = 0) →
              (∀ e : BitVec 3, x.dieTemp e < x.dieTemp d ∨ (x.dieTemp e = x.dieTemp d ∧ d.toNat ≤ e.toNat)) →
            (slow d → o = .next { s with thermal := read }) ∧ (¬ slow d → Gives o (lowered d)))))
      ∧ (∀ (c : BitVec 12) (b : BitVec 2) (mw : Nat), p.mw ≤ cap →
          read.bandPower.filter (fun e => 85 < e.2) = [(4 * c.toNat + b.toNat, mw)] →
        let m : BitVec 4 := 1 <<< b.toNat
        let holder (t : Thread) : Prop := t.tid.core = c ∧ ∃ l fin, t.lease = some (l, fin) ∧ l &&& m ≠ 0
        ((∃ t ∈ s.threads, holder t) → ∃ t ∈ s.threads, holder t ∧ Gives o (ended t.tid))
        ∧ ((∀ t ∈ s.threads, ¬ holder t) →
          (s.idleBands c &&& m ≠ 0 → Gives o (offNow c m))
          ∧ (s.idleBands c &&& m = 0 →
            let d := BitVec.ofNat 3 (dieOf c)
            (slow d → o = .next { s with thermal := read }) ∧ (¬ slow d → Gives o (lowered d))))))
    ∧ (let cap := if ∃ d : Fin 8, 2 ≤ (x.band[d]).toNat then 900000 else 2000000
      let below : Prop := 10 * x.power < 9 * cap ∧ ∀ e ∈ x.bandPower, 10 * e.2 < 765
      ((¬ below ∨ x.steps = []) → exec .powerStepUndo s = .next s)
      ∧ (∀ ys, below → x.steps = .lease :: ys → exec .powerStepUndo s = .next { s with thermal := { x with steps := ys } })
      ∧ (∀ c m ys, below → x.steps = .bands c m :: ys →
        (x.state = .critical → exec .powerStepUndo s = .next s) ∧
        (x.state ≠ .critical → Gives (exec .powerStepUndo s) fun u =>
          u = { s with thermal := { x with steps := ys, bandWaking := u.thermal.bandWaking } } ∧
          ∀ k, look 0 u.thermal.bandWaking k = if k = c.toNat then look 0 x.bandWaking k ||| m else look 0 x.bandWaking k))
      ∧ (∀ d f ys, below → x.steps = .clock d f :: ys → Gives (exec .powerStepUndo s) fun u => u.thermal.steps = ys ∧
        u.thermal.capClock = x.capClock.set d.toFin f ∧
        u.thermal.clock = x.clock.set d.toFin (if 2 ≤ (x.band[d.toFin]).toNat then 350 else f)))

/-- A band that has been switched on becomes usable (R365); headroom low and regained clears and sets the bits of CHAINP in the order of
Table 17.5 (R366), none set while the package is CRITICAL (R363); a frequency transition ends (R354). -/
def BandAndChainEvents : Prop :=
  ∀ s : State,
    let x := s.thermal
    let order := [5, 2, 4, 3, 0, 1]
    (∀ (core : BitVec 12) (band : BitVec 2),
      let k := core.toNat
      ((look 0 x.bandWaking k).getLsbD band.toNat = false → exec (.bandReady core band) s = .next s)
      ∧ ((look 0 x.bandWaking k).getLsbD band.toNat = true → Gives (exec (.bandReady core band) s) fun u =>
        u = { s with thermal := { x with bandWaking := u.thermal.bandWaking, bandOff := u.thermal.bandOff } } ∧
        ∀ (j : Nat) (i : Fin 4),
          (look 0 u.thermal.bandWaking j).getLsbD i.val = ((look 0 x.bandWaking j).getLsbD i.val && !(j == k && i.val == band.toNat)) ∧
          (look 0 u.thermal.bandOff j).getLsbD i.val = ((look 0 x.bandOff j).getLsbD i.val && !(j == k && i.val == band.toNat))))
    ∧ (∀ die : BitVec 3,
      let c := x.chainp[die.toFin]
      let changed (i : Nat) (on : Bool) (u : State) : Prop :=
        u = { s with thermal := { x with chainp := u.thermal.chainp } } ∧
        (∀ d : Fin 8, d ≠ die.toFin → u.thermal.chainp[d] = x.chainp[d]) ∧
        ∀ j < 6, (u.thermal.chainp[die.toFin]).getLsbD j = if j = i then on else c.getLsbD j
      (c = 0 → exec (.regulatorHeadroomLow die) s = .next s)
      ∧ (∀ k < 6, (∀ j < k, c.getLsbD (order.getD j 0) = false) → c.getLsbD (order.getD k 0) = true →
        Gives (exec (.regulatorHeadroomLow die) s) (changed (order.getD k 0) false))
      ∧ ((c = 63 ∨ x.state = .critical) → exec (.chainpRestore die) s = .next s)
      ∧ (∀ k < 6, x.state ≠ .critical → c.getLsbD (order.getD k 0) = false →
        (∀ j, k < j → j < 6 → c.getLsbD (order.getD j 0) = true) →
        Gives (exec (.chainpRestore die) s) (changed (order.getD k 0) true)))
    ∧ ∀ cl : BitVec 10, exec (.frequencyTransitionSettle cl) s =
        .next { s with thermal := { x with settling := x.settling.filter fun c => c ≠ cl } }

/-! ### The mailbox, firmware and resets: 18 R367, R368, R372 to R379, 07 R167 -/

/-- The command in `w` ends with an error code and vector 67 (R372): ERR 1 where another write of MBCMD came together with the command's. Its
RESULT is said apart where the manual gives it; log 25 leaves it free elsewhere. -/
def MailboxEnds (w u : State) (err : BitVec 8) : Prop :=
  u = { w with pm := { w.pm with
    busy := false, err := if w.pm.late = true then 1 else err, late := false, result := u.pm.result }, host := u.host } ∧ VectorRaised w.host u.host 67

/-- A command begun (R372). -/
def begunCommand (s : State) (op : BitVec 8) (arg : BitVec 32) : State :=
  { s with pm := { s.pm with 
    busy := true, op := op, arg := arg, starting := false, second := false, since := s.cycles, late := false } }

/-- Whether the package state takes a command (Table 18.4); postmaster recovery takes OP 1 to 4 alone (R374). -/
def MailboxAllows (s : State) (op : BitVec 8) : Prop :=
  let p := s.thermal.state
  (op.toNat ≤ 3 ∨ (op = 4 ∧ p ≠ .critical) ∨ (op = 8 ∧ p = .active) ∨
    (5 ≤ op.toNat ∧ op.toNat ≤ 7 ∧ (p = .coldReady ∨ p = .active))) ∧
  (s.pm.recovery = true → op.toNat ≤ 4)

/-- Why an image is not taken as one of a kind (R373): 2 where key, signature, digest or kind is wrong, else 3 where its SVN is too low. -/
def ImageError (p : Postmaster) (i : List Byte) (kind : Nat) (e : BitVec 8) : Prop :=
  let bad := imgGood i = false ∨ imgKind i ≠ kind
  let old := imgSvn i < (if kind = 1 then p.rollbackPm else p.rollbackMc).toNat
  (bad → e = 2) ∧ (¬ bad → old → e = 3) ∧ (¬ bad → ¬ old → e = 0)

/-- A write of MBCMD while a command is in progress (R372). -/
def secondWrite (s : State) : Postmaster :=
  if s.cycles = s.pm.since then { s.pm with late := true } else { s.pm with err := 1 }

/-- A command of the mailbox is turned away (R372): while one is in progress with ERR 1 and nothing else changed, or, where it comes in the same
cycle as that one, with ERR 1 once that one ends; in a package state that does
not allow it with ERR 4, with an argument out of range with ERR 5. -/
def TurnedAway (i : Instr) (op : BitVec 8) (bad : Prop) (s : State) : Prop :=
  (s.pm.busy = true → exec i s = .next { s with pm := secondWrite s })
  ∧ (s.pm.busy = false → ¬ MailboxAllows s op → Gives (exec i s) fun u => MailboxEnds s u 4)
  ∧ (s.pm.busy = false → MailboxAllows s op → bad → Gives (exec i s) fun u => MailboxEnds s u 5)

/-- No command is in progress and the package state allows this one. -/
def MayBegin (s : State) (op : BitVec 8) : Prop := s.pm.busy = false ∧ MailboxAllows s op

/-- The mailbox (R372 to R379): each command of Table 18.4 begins, and what it does at once is done, when none is in progress, the state allows
it and its argument is in range; else it is turned away. An OP not listed is ERR 5. -/
def MailboxEvents : Prop :=
  ∀ (arg : BitVec 32) (s : State),
    (TurnedAway .attest 1 False s ∧ TurnedAway (.readCertificateChain arg) 2 False s ∧ TurnedAway (.stageImagePart arg) 3 False s ∧
      TurnedAway .activateStagedImage 4 False s ∧ TurnedAway (.loadMicrocodeTable arg) 5 False s ∧
      TurnedAway (.retrainPeerPort arg) 6 (8 ≤ arg.toNat) s ∧ TurnedAway (.recalibrateHbmChannel arg) 7 (512 ≤ arg.toNat) s ∧
      TurnedAway (.substituteSpareCore arg) 8 (4096 ≤ arg.toNat) s)
    ∧ (MayBegin s 1 → exec .attest s = .next (begunCommand s 1 0))
    ∧ (MayBegin s 2 → exec (.readCertificateChain arg) s = .next (begunCommand s 2 arg))
    ∧ (MayBegin s 3 → exec (.stageImagePart arg) s = .next (begunCommand s 3 arg))
    ∧ (MayBegin s 4 → ∀ e, ImageError s.pm s.pm.staged 1 e →
        let w := begunCommand s 4 0
        (e ≠ 0 → Gives (exec .activateStagedImage s) fun u => MailboxEnds w u e) ∧
        (e = 0 → exec .activateStagedImage s = .next { w with pm := { w.pm with starting := true } }))
    ∧ (MayBegin s 5 → ∀ e, ImageError s.pm s.pm.staged 2 e →
        let w := begunCommand s 5 arg
        (e ≠ 0 → Gives (exec (.loadMicrocodeTable arg) s) fun u => MailboxEnds w u e) ∧
        let body := (s.pm.staged.take (imgLen s.pm.staged)).drop 512
        (e = 0 → Gives (exec (.loadMicrocodeTable arg) s) fun u =>
          u = { w with pm := { w.pm with tables := u.pm.tables, target := u.pm.target } } ∧ u.pm.tables[u.pm.target]? = some body ∧
          u.pm.tables = (if body ∈ s.pm.tables then s.pm.tables else s.pm.tables ++ [body])))
    ∧ (MayBegin s 6 → arg.toNat < 8 → Gives (exec (.retrainPeerPort arg) s) fun u =>
        u = { begunCommand s 6 arg with fabric := { s.fabric with alive := u.fabric.alive } } ∧
        ∀ i < 8, u.fabric.alive.getLsbD i = (s.fabric.alive.getLsbD i && !(i == arg.toNat)))
    ∧ (MayBegin s 7 → arg.toNat < 512 → exec (.recalibrateHbmChannel arg) s = .next (begunCommand s 7 arg))
    ∧ (MayBegin s 8 → arg.toNat < 4096 →
        let d := arg.toNat / 512
        let w := begunCommand s 8 arg
        ((s.pm.spares[d]?.getD 0) = 0 → Gives (exec (.substituteSpareCore arg) s) fun u => MailboxEnds w u 6) ∧
        ((s.pm.spares[d]?.getD 0) ≠ 0 → Gives (exec (.substituteSpareCore arg) s) fun u =>
          u = { w with th := u.th, parked := u.parked, pm := u.pm } ∧
          u.pm = { w.pm with spares := s.pm.spares.set! d ((s.pm.spares[d]?.getD 0) - 1) } ∧
          ThreadsChange s u (fun x => x.tid.core = arg.setWidth 12) fun x y => y = { x with migrate := some (arg.setWidth 12) }))
    ∧ ∀ op : BitVec 8,
      (1 ≤ op.toNat → op.toNat ≤ 8 → exec (.mailboxUnknownOp op) s = .next s)
      ∧ (op = 0 ∨ 8 < op.toNat → s.pm.busy = true → exec (.mailboxUnknownOp op) s = .next { s with pm := secondWrite s })
      ∧ (op = 0 ∨ 8 < op.toNat → s.pm.busy = false → Gives (exec (.mailboxUnknownOp op) s) fun u => MailboxEnds s u 5)

/-- The ends of commands (R373 to R379): the report or the certificates stand in the buffer, a part is laid into the staged image, a started
image runs with its SVN as the least from now on, every ply holds the new table, the port is alive again once no frame it kept waits for its hop
receipt (R319), the core's threads have moved. Time
limits end OP 4 with ERR 2 and OP 5 with ERR 7. That parts are of 4 KiB and come in order is log 26. -/
def MailboxCompletions : Prop :=
  ∀ s : State,
    let op := s.pm.op
    let o := exec .mailboxCommandDone s
    let loading := s.pm.busy = true ∧ op = 5
    let kept : Prop := s.fabric.alive.getLsbD (s.pm.arg.toNat % 8) = false ∧
      ∃ x ∈ s.fabric.sent, x.port.toNat = s.pm.arg.toNat % 8 ∧ x.hop = true
    (s.pm.busy = false → o = .next s)
    ∧ (s.pm.busy = true →
      (op = 1 → Gives o fun u => MailboxEnds { s with pm := { s.pm with buffer := u.pm.buffer } } u 0 ∧
        let r := s.report.take 4096
        u.pm.bufBytes 0 r.length = r)
      ∧ (op = 2 → Gives o fun u => MailboxEnds { s with pm := { s.pm with buffer := u.pm.buffer } } u 0 ∧
        let c := (Config.certificateChain.drop (4096 * s.pm.arg.toNat)).take 4096
        u.pm.bufBytes 0 c.length = c ∧ u.pm.result = BitVec.ofNat 32 c.length ∧
        (Config.certificateChain.length ≤ 4096 * s.pm.arg.toNat → u.pm.result = 0))
      ∧ (op = 3 →
        let at_ := 4096 * s.pm.arg.toNat
        let i := s.pm.staged.take at_ ++ s.pm.bufBytes 0 4096
        (s.pm.staged.length < at_ → Gives o fun u => MailboxEnds s u 5)
        ∧ (at_ ≤ s.pm.staged.length → imgWhole i = false → Gives o fun u =>
          MailboxEnds { s with pm := { s.pm with staged := i } } u 0)
        ∧ (∀ e, at_ ≤ s.pm.staged.length → imgWhole i = true → ImageError s.pm i (if imgKind i = 2 then 2 else 1) e →
          Gives o fun u => MailboxEnds { s with pm := { s.pm with
            staged := i,
            slotA := if e = 0 ∧ imgKind i = 1 ∧ s.pm.runsB = true then i else s.pm.slotA,
            slotB := if e = 0 ∧ imgKind i = 1 ∧ s.pm.runsB = false then i else s.pm.slotB } } u e))
      ∧ (op = 4 → Gives o fun u => MailboxEnds { s with pm := { s.pm with
          starting := false, recovery := false, runsB := !s.pm.runsB,
          slotA := if s.pm.runsB then s.pm.staged else s.pm.slotA, slotB := if s.pm.runsB then s.pm.slotB else s.pm.staged,
          rollbackPm := BitVec.ofNat 16 (Nat.max s.pm.rollbackPm.toNat (imgSvn s.pm.staged % 65536)) } } u 0)
      ∧ (op = 5 → (s.pm.toLoad ≠ 0 → o = .next s) ∧ (s.pm.toLoad = 0 → Gives o fun u =>
          MailboxEnds { s with pm := { s.pm with
            tables := [s.pm.tables.getD s.pm.target []], plyTable := [], target := 0 } } u 0 ∧ u.pm.result = 0))
      ∧ (op = 6 → kept → o = .next s)
      ∧ (op = 6 → ¬ kept → Gives o fun u => MailboxEnds { s with fabric := { s.fabric with alive := u.fabric.alive } } u 0 ∧
          ∀ i < 8, u.fabric.alive.getLsbD i = (s.fabric.alive.getLsbD i || i == s.pm.arg.toNat % 8))
      ∧ (op = 8 → ((∃ t ∈ s.threads, t.tid.core.toNat = s.pm.arg.toNat ∧ t.migrate ≠ none) → o = .next s) ∧
          ((∀ t ∈ s.threads, t.tid.core.toNat = s.pm.arg.toNat → t.migrate = none) → Gives o fun u => MailboxEnds s u 0))
      ∧ ((op = 0 ∨ op = 7 ∨ 8 < op.toNat) → Gives o fun u => MailboxEnds s u 0))
    ∧ (s.pm.busy = true → op = 4 → Gives (exec .imageStartTimeout s) fun u =>
        MailboxEnds { s with pm := { s.pm with starting := false } } u 2)
    ∧ ((s.pm.busy = false ∨ op ≠ 4) → exec .imageStartTimeout s = .next s)
    ∧ (loading → s.pm.arg ≠ 0 → s.pm.toLoad ≠ 0 → Gives (exec .microcodeLoadTimeLimit s) fun u =>
        MailboxEnds s u 7 ∧ u.pm.result = BitVec.ofNat 32 s.pm.toLoad)
    ∧ ((¬ loading ∨ s.pm.arg = 0 ∨ s.pm.toLoad = 0) → exec .microcodeLoadTimeLimit s = .next s)
    ∧ ∀ (core : BitVec 12) (ply : BitVec 4),
      let k := core.toNat * 16 + ply.toNat
      let n := s.pm.target
      ((¬ loading ∨ s.plyTaken core ply.toNat = true ∨ look 0 s.pm.plyTable k = n) → exec (.microcodePlyLoaded core ply) s = .next s)
      ∧ (loading → s.plyTaken core ply.toNat = false → look 0 s.pm.plyTable k ≠ n →
        Gives (exec (.microcodePlyLoaded core ply) s) fun u =>
          u = { s with pm := { s.pm with plyTable := u.pm.plyTable } } ∧
          ∀ j, look 0 u.pm.plyTable j = if j = k then n else look 0 s.pm.plyTable j)

/-- The slot the boot ROM takes (R374): the newer of those that are good and have not just failed; without one, recovery. -/
def Boots (p q : Postmaster) (failed : Option Bool) : Prop :=
  let a := p.bootable p.slotA = true ∧ failed ≠ some false
  let b := p.bootable p.slotB = true ∧ failed ≠ some true
  (¬ a → ¬ b → q = { p with recovery := true, starting := false })
  ∧ (a → ¬ b → q = { p with recovery := false, runsB := false, starting := true })
  ∧ (¬ a → b → q = { p with recovery := false, runsB := true, starting := true })
  ∧ (a → b → q = { p with recovery := false, runsB := decide (imgVersion p.slotA < imgVersion p.slotB), starting := true })

/-- The band in which a die begins after a reset (R357): that whose rising bounds hold its temperature. -/
def FirstBand (b : BitVec 2) (t : Nat) : Prop :=
  (b = 0 ∨ bandLow b.toNat < t) ∧ ∀ c, b.toNat < c → c < 4 → t ≤ bandLow c

end Sys2Proof

/-- Power-on, package reset and Function Level Reset (R167, R368, R374): every register of the package at its reset value, no thread, no context;
COLD-READY at 95 K or below, else, and in postmaster recovery, WARM-SERVICE with HBM lost; each die in the band and at the clock of its first
sample; a change of the package state raises vector 66. The postmaster's images, its counts and host memory outlive a reset; a Function Level
Reset leaves the postmaster, the package state and HBM, and ends QUIESCE. A slot that has not started in time gives way to the other; recovery
follows where that one has not started either (the model's choice, log 79). -/
def Obligations.ResetEvents : Prop :=
  ∀ s : State,
    let fresh (u : State) : Prop :=
      u = { State.reset with tick := s.tick, inputs := s.inputs, mem := u.mem, thermal := u.thermal, pm := u.pm, host := u.host } ∧
      OnlyHbmLost s u ∧ (u.thermal.state = s.thermal.state → u.host = HostPort.reset) ∧
      (u.thermal.state ≠ s.thermal.state → VectorRaised HostPort.reset u.host 66)
    let kept : Postmaster := { Postmaster.reset with
      slotA := s.pm.slotA, slotB := s.pm.slotB, runsB := s.pm.runsB, recovery := s.pm.recovery, rollbackPm := s.pm.rollbackPm,
      rollbackMc := s.pm.rollbackMc, tables := s.pm.tables, plyTable := s.pm.plyTable, target := s.pm.target, spares := s.pm.spares }
    let sampled (x : Thermal) (p : PkState) : Prop :=
      x = { Thermal.reset with
        temp := s.thermal.temp, stack := s.thermal.stack, flow := s.thermal.flow, band := x.band, clock := x.clock, state := p,
        cap := if ∃ d : Fin 8, 2 ≤ (x.band[d]).toNat then 900000 else 2000000 } ∧
      (∀ d : Fin 8, x.clock[d] = if 2 ≤ (x.band[d]).toNat then 350 else 700) ∧
      ∀ (d : BitVec 3) (t : Nat), DieTemp s.thermal d t → FirstBand x.band[d.toFin] t
    let first (recovery : Bool) : PkState := if s.thermal.tmax ≤ 95 ∧ recovery = false then .coldReady else .warmService
    Gives (exec .packageReset s) (fun u => fresh u ∧ u.pm = kept ∧ sampled u.thermal (first s.pm.recovery) ∧
      (first s.pm.recovery = .coldReady → u.mem = s.mem))
    ∧ (let x := s.thermal
      let calm : Thermal := { x with leases := [], boosted := [], pool := 100000 }
      let held := x.state = .critical
      let cleared : Thermal := if held then calm else { calm with
        chainp := .replicate 8 0b111111, bandOff := [], bandWaking := [], steps := x.steps.filter fun e => match e with
          | .clock _ _ => true
          | .lease => false
          | .bands _ _ => false }
      let retrains := s.pm.busy = true ∧ s.pm.op = 6
      let w (f : Fabric) : State := { State.reset with
        tick := s.tick, inputs := s.inputs, mem := s.mem, thermal := cleared, pm := s.pm, fabric := f }
      Gives (exec .functionLevelReset s) fun u =>
        (u.fabric = { Fabric.reset with alive := u.fabric.alive } ∧
          ∀ i < 8, u.fabric.alive.getLsbD i = true ↔ ¬ (retrains ∧ i = s.pm.arg.toNat % 8)) ∧
        (x.state ≠ .quiesce → u = w u.fabric) ∧ (x.state = .quiesce → PackageTurns (w u.fabric) u .ascend))
    ∧ Gives (exec .powerOn s) (fun u => fresh u ∧
      (∃ q, Boots kept q none ∧ u.pm = { q with tables := [[]], plyTable := [], target := 0 }) ∧
      sampled u.thermal (first u.pm.recovery))
    ∧ ((s.pm.starting = false ∨ s.pm.busy = true) → exec .bootSlotTimeout s = .next s)
    ∧ (s.pm.starting = true → s.pm.busy = false → Gives (exec .bootSlotTimeout s) fun u =>
      (s.pm.second = true → u.pm = { s.pm with recovery := true, starting := false, second := false }) ∧
      (s.pm.second = false → ∃ q, Boots s.pm q (some s.pm.runsB) ∧ u.pm = { q with second := true }) ∧
      (u.pm.recovery = true → s.thermal.state ≠ .warmService → PackageTurns { s with pm := u.pm } u .warmService) ∧
      ((u.pm.recovery = false ∨ s.thermal.state = .warmService) → u = { s with pm := u.pm }))

/-! ### Frames, receipts, links and groups: 14 R308 to R320, 01 R20, R21 -/

namespace Sys2Proof

/-- A frame received: its hop receipt is returned on the port it came by (R320). -/
def hopped (s : State) (p : BitVec 3) : State :=
  { s with fabric := { s.fabric with messages := s.fabric.messages ++ [.hop p] } }

/-- A delivery receipt sent. -/
def told (w : State) (origin : BitVec 16) (seq : Nat) (ovr : Option Overrun) : State :=
  { w with fabric := { w.fabric with messages := w.fabric.messages ++ [.delivery origin seq ovr] } }

/-- The answer to a frame: a delivery receipt with the overrun its arrival made, or a refusal with a code, to an origin that has a route
(R21, R119, R320). A frame that has been applied before is receipted as it was. -/
def receipted (w : State) (origin : BitVec 16) (seq : Nat) (ovr : Option Overrun) : State :=
  let known := (w.applied origin seq).isSome
  { w with fabric := { w.fabric with
    applied := if known then w.fabric.applied else w.fabric.applied ++ [(origin, seq, ovr)]
    messages := if w.routed origin then w.fabric.messages ++ [.delivery origin seq ((w.applied origin seq).getD ovr)]
      else w.fabric.messages } }

def refusedTo (w : State) (origin : BitVec 16) (seq : Nat) (code : BitVec 8) : State :=
  { w with fabric := { w.fabric with
    messages := if w.routed origin then w.fabric.messages ++ [.refusal origin seq code] else w.fabric.messages } }

/-- A frame that names further ports goes out by the first of them, or by that port's detour when its link is dead (R308, R309); without
one, and where that hop is a detour's own, it fails at link level and its origin is told so (R317). -/
def PassedOn (w : State) (o : Out) (f : Frame) (seq : Nat) : Prop :=
  ∀ q qs, f.ports = q :: qs →
    let d := w.regs.detour[q.toNat]?.getD 0
    let e := d.setWidth 3
    let out (q : BitVec 3) (qs : List (BitVec 3)) (det : Bool) : Out := .next { w with fabric := { w.fabric with
      sent := w.fabric.sent ++ [⟨q, f.route qs det, false, seq, none, none, true, false, det || f.second⟩] } }
    (w.fabric.alive.getLsbD q.toNat = true → o = out q qs false)
    ∧ (w.fabric.alive.getLsbD q.toNat = false → f.second = false → d.getLsbD 7 = true → w.fabric.alive.getLsbD e.toNat = true →
      o = out e (d.extractLsb' 3 3 :: qs) true)
    ∧ (w.fabric.alive.getLsbD q.toNat = false → (f.second = true ∨ d.getLsbD 7 = false ∨ w.fabric.alive.getLsbD e.toNat = false) →
      o = .next (refusedTo w f.origin seq 4))

/-- Frames from other packages (R20, R21, R315, R320): passed on while they name ports; applied once through an export window that is valid, has
the permission and holds their bytes, and receipted, again when they come again; refused otherwise. A read is receipted and answered with
its bytes, or refused where they hold an uncorrectable error; the answer is receipted. A collective's frame joins its group, whose engine
goes as far as it can; one of a COLROT is receipted once its bytes are in the slot, with the overrun of its arrival there (R119, R312). -/
def FrameEvents : Prop :=
  ∀ (p : BitVec 3) (s : State),
    let w := hopped s p
    (∀ f : CopyFrame,
      let o := exec (.copyDataFrameRx p f) s
      PassedOn w o (.copy f) f.seq
      ∧ (f.ports = [] → (s.applied f.origin f.seq).isSome = true → o = .next (receipted w f.origin f.seq none))
      ∧ (f.ports = [] → s.applied f.origin f.seq = none →
        (∀ e, s.window f.window f.offset f.data.length true = .error e → o = .next (refusedTo w f.origin f.seq 2))
        ∧ ((∃ a, f.arr = some a ∧ s.windowWord a = none) → o = .next (refusedTo w f.origin f.seq 2))
        ∧ (∀ pa, s.window f.window f.offset f.data.length true = .ok pa → f.arr = none → Gives o fun u =>
          (∀ a, memByte u.mem a = if pa ≤ a ∧ a < pa + f.data.length then f.data.getD (a - pa) 0 else memByte s.mem a) ∧
          u.fabric = (receipted { w with mem := u.mem } f.origin f.seq none).fabric ∧ u.rows = s.rows ∧ u.regs = s.regs ∧ u.queues = s.queues)
        ∧ (∀ pa q, s.window f.window f.offset f.data.length true = .ok pa → f.arr.map s.windowWord = some (some (.mem q)) →
          (q + 8 ≤ pa ∨ pa + f.data.length ≤ q) → Gives o fun u =>
          memBytes u.mem pa f.data.length = f.data ∧ u.arrImage (.mem q) = (arrive (s.arrImage (.mem q)) f.data.length).1 ∧
          (∀ a, (a < pa ∨ pa + f.data.length ≤ a) → (a < q ∨ q + 8 ≤ a) → memByte u.mem a = memByte s.mem a) ∧
          u.fabric = (receipted { w with mem := u.mem } f.origin f.seq
            ((arrive (s.arrImage (.mem q)) f.data.length).2.map fun (c, i, n) => ⟨c, i, n⟩)).fabric)))
    ∧ (∀ f : ReadFrame,
      let o := exec (.remoteReadRequestRx p f) s
      PassedOn w o (.readReq f) f.seq
      ∧ (f.ports = [] → (s.applied f.origin f.seq).isSome = true → o = .next (receipted w f.origin f.seq none))
      ∧ (f.ports = [] → s.applied f.origin f.seq = none →
        (∀ perm, s.window f.window f.offset f.len.toNat false = .error perm →
          o = .next (refusedTo w f.origin f.seq (if perm then 7 else 2)))
        ∧ ∀ pa, s.window f.window f.offset f.len.toNat false = .ok pa →
          (s.linesBad pa f.len.toNat = true → o = .next (refusedTo w f.origin f.seq 1))
          ∧ (s.linesBad pa f.len.toNat = false → slipValid (s.slipTo f.origin) = false → o = .next w)
          ∧ ∀ q qs, s.linesBad pa f.len.toNat = false → slipValid (s.slipTo f.origin) = true → slipPorts (s.slipTo f.origin) = q :: qs →
            s.fabric.alive.getLsbD q.toNat = true →
            let v := receipted w f.origin f.seq none
            o = .next { v with fabric := { v.fabric with
              sent := s.fabric.sent ++ [⟨q, .readData ⟨f.origin, memBytes s.mem pa f.len.toNat, f.origin, f.seq, qs, false⟩, false, f.seq,
                none, none, true, true, false⟩] } }))
    ∧ (∀ f : ReadDataFrame,
      let o := exec (.remoteReadDataRx p f) s
      PassedOn w o (.readData f) f.seq
      ∧ (f.ports = [] → (∀ c ∈ s.chunks, c.phase ≠ .reading f.seq) → o = .next (told w f.origin f.seq none))
      ∧ ∀ k c, f.ports = [] → s.chunks[k]? = some c → c.phase = .reading f.seq →
        (∀ j x, j < k → s.chunks[j]? = some x → x.phase ≠ .reading f.seq) →
        Gives o fun u => u.chunks = s.chunks.set k { c with phase := .ready, data := some f.data } ∧ SameMemory s u ∧
          u.fabric.messages = (told w f.origin f.seq none).fabric.messages ∧
          (∀ x ∈ u.fabric.sent, x.frame.origin = f.origin → x.seq = f.seq → x.due = false) ∧ u.th = s.th ∧ u.parked = s.parked)
    ∧ ∀ f : ColFrame,
      let o := exec (.collectiveDataFrameRx p f) s
      let g := s.groupAt f.group
      PassedOn w o (.col f) f.seq
      ∧ (f.ports = [] → (s.applied f.origin f.seq).isSome = true → o = .next (receipted w f.origin f.seq none))
      ∧ (f.ports = [] → s.applied f.origin f.seq = none →
        (g.valid = false → o = .next (refusedTo w f.origin f.seq 2))
        ∧ (g.valid = true → g.failed = true → o = .next (receipted w f.origin f.seq none))
        ∧ (g.valid = true → g.failed = false →
          let known := ∃ x ∈ g.pendingFrames, x.origin = f.origin ∧ x.seq = f.seq
          let taken (v : State) : Out := .next ((v.groupPut f.group { g with pendingFrames := g.pendingFrames ++ [f] }).colGo f.group)
          (known → o = .next w)
          ∧ (¬ known → f.kind ≠ 3 → o = taken (receipted w f.origin f.seq none))
          ∧ (¬ known → f.kind = 3 → o = taken w)))
    ∧ ∀ (i : BitVec 6) (f : ColFrame) (v : State) (got : Nat), s.applied f.origin f.seq = none →
      v = s.rotFrame i f got → v.routed f.origin = true → ∃ ovr, v.fabric.messages = s.fabric.messages ++ [.delivery f.origin f.seq ovr] ∧
        (got = f.count.toNat → ovr = overrunOf (s.rotReceived i got).2) ∧ (got ≠ f.count.toNat → ovr = none)

/-- What was sent is kept while a receipt of it is missing (R320). -/
def stillSent (l : List Sent) : List Sent := l.filter fun x => x.hop || x.due

/-- A chunk of a copy that has failed (R305): it is gone, its issuer counts one failure more and has the first code. -/
def ChunkFailed (s u : State) (k : Nat) (c : Chunk) (code : BitVec 8) : Prop :=
  u.chunks = s.chunks.eraseIdx k ∧
  ∀ x ∈ s.threads, x.group = c.group → x.rank = c.rank → x.ctx = c.ctx → ∃ y ∈ u.threads, y.tid = x.tid ∧
    y.copyFails.toNat = Nat.min (x.copyFails.toNat + 1) 0xFFFFFFFF ∧ y.copyCode = (if x.copyCode = 0 then code else x.copyCode)

/-- A group that has failed (R317, Table 14.6): its first failure record stands, its operations and frames are dropped. -/
def GroupFails (s u : State) (i : BitVec 6) (level cause : Nat) (port : BitVec 3) (rank : BitVec 16) : Prop :=
  let g := s.groupAt i
  (g.failed = true → (u.groupAt i).failure = g.failure)
  ∧ (g.failed = false → (u.groupAt i).failure = failRecord level cause port (g.failure.getLsbD 54) rank g.step ∧
    (u.groupAt i).ops = [] ∧ (u.groupAt i).pendingFrames = [] ∧ ∀ f ∈ u.fabric.sent, f.own = true → f.group ≠ some i)
  ∧ ∀ j, j ≠ i → u.groupAt j = s.groupAt j

/-- A frame that is given up (R305, R317): its chunk fails with a code, or its group at a level with a cause; a frame of another package is
refused to it. -/
def FrameGivenUp (s : State) (o : Out) (x : Sent) (code : BitVec 8) (level cause : Nat) (port : BitVec 3) : Prop :=
  (x.own = false → o = .next (refusedTo { s with fabric := { s.fabric with sent := s.fabric.sent.filter fun y => y ≠ x } }
    x.frame.origin x.seq code))
  ∧ (∀ i, x.own = true → x.group = some i → Gives o fun u => GroupFails s u i level cause port (s.groupAt i).nextPk)
  ∧ ∀ k c, x.own = true → x.group = none → s.chunks[k]? = some c → s.chunkOf x.seq = some k → Gives o fun u => ChunkFailed s u k c code

/-- Receipts, refusals, timeouts, links and the registers of groups (R310, R313, R316, R317, R319, R320). A hop receipt clears the oldest frame
of its port; a delivery receipt ends the chunk of its copy, whose thread takes the overrun that it carries, as a COLROT's thread does (R119); a
refusal and a path timeout end it as failed, or fail the group; a link that is
lost is dead until it is trained; a group waits no longer than its timeout. -/
def LinkAndGroupEvents : Prop :=
  ∀ s : State,
    (∀ (i : BitVec 6) (step : Nat),
      let g := s.groupAt i
      exec (.slotReceiptRx i step) s =
        .next ((s.groupPut i { g with receiptsGot := Nat.max g.receiptsGot (step + 1) }).colGo i))
    ∧ (∀ (p : BitVec 3) (d1 d2 : List Sent) (x : Sent), s.fabric.sent = d1 ++ x :: d2 → x.port = p → x.hop = true →
      (∀ y ∈ d1, y.port ≠ p ∨ y.hop = false) →
      exec (.hopReceiptRx p) s = .next { s with fabric := { s.fabric with sent := stillSent (d1 ++ { x with hop := false } :: d2) } })
    ∧ (∀ p : BitVec 3, (∀ y ∈ s.fabric.sent, y.port ≠ p ∨ y.hop = false) → exec (.hopReceiptRx p) s = .next s)
    ∧ (∀ (origin : BitVec 16) (seq : Nat) (ovr : Option Overrun),
      let got : State := { s with fabric := { s.fabric with
        sent := stillSent (s.fabric.sent.map fun x => if x.due && x.frame.origin = origin && x.seq = seq then { x with due := false } else x) } }
      let o := exec (.deliveryReceiptRx origin ⟨seq, ovr⟩) s
      (s.awaited origin seq = none → o = .next (if origin ≠ s.regs.pkrank ∧ s.routed origin = true then told s origin seq ovr else s))
      ∧ ∀ x, s.awaited origin seq = some x →
        ((x.own = false ∨ ((∀ c ∈ s.chunks, c.phase ≠ .sent seq) ∧ (ovr = none ∨ x.group = none ∨ x.issuer = none))) → o = .next got)
        ∧ (∀ i g r c a v, x.own = true → (∀ c ∈ s.chunks, c.phase ≠ .sent seq) → x.group = some i → x.issuer = some (g, r, c, a) →
            ovr = some v → Gives o fun u => u.chunks = s.chunks ∧ SameMemory s u ∧
            ∀ t, s.threads.find? (fun t => t.group == g && t.rank == r && t.ctx == c) = some t →
              s.threadAt t.tid = some t → t.trap.pcause.extractLsb' 0 8 = 0 →
              ∃ y ∈ u.threads, y.tid = t.tid ∧ y.trap.pcause.extractLsb' 0 8 = cARROVR ∧ y.trap.pcause.extractLsb' 16 8 = v.sub)
        ∧ ∀ k c, x.own = true → x.group = none → s.chunks[k]? = some c → c.phase = .sent seq →
            (∀ j y, j < k → s.chunks[j]? = some y → y.phase ≠ .sent seq) →
          (ovr = none → Gives o fun u => u.chunks = s.chunks.eraseIdx k ∧
            u = { got with chunks := u.chunks, th := u.th, parked := u.parked } ∧
            ThreadsChange s u (fun t => t.group = c.group ∧ t.rank = c.rank ∧ t.ctx = c.ctx) fun t y =>
              y = if ∃ z ∈ u.chunks, z.copy = c.copy then t else
                { t with event := true, sleep := if t.sleep = .wfe then .awake else t.sleep })
          ∧ ∀ v, ovr = some v → Gives o fun u => u.chunks = s.chunks.eraseIdx k ∧
            ∀ t, s.threads.find? (fun t => t.group == c.group && t.rank == c.rank && t.ctx == c.ctx) = some t →
              s.threadAt t.tid = some t → t.trap.pcause.extractLsb' 0 8 = 0 →
              ∃ y ∈ u.threads, y.tid = t.tid ∧ y.trap.pcause.extractLsb' 0 8 = cARROVR ∧ y.trap.pcause.extractLsb' 16 8 = v.sub)
    ∧ (∀ (origin : BitVec 16) (seq : Nat) (code : BitVec 8),
      let o := exec (.refusalRx origin seq code) s
      (s.awaited origin seq = none →
        (origin ≠ s.regs.pkrank → o = .next (refusedTo s origin seq code))
        ∧ (origin = s.regs.pkrank → (∀ c ∈ s.chunks, c.phase ≠ .reading seq) → o = .next s)
        ∧ ∀ k c, origin = s.regs.pkrank → s.chunks[k]? = some c → c.phase = .reading seq →
            (∀ j y, j < k → s.chunks[j]? = some y → y.phase ≠ .reading seq) → Gives o fun u => ChunkFailed s u k c code)
      ∧ ∀ x, s.awaited origin seq = some x → FrameGivenUp s o x code (if code = 4 then 1 else 3) (if code = 4 then 4 else 2) x.port)
    ∧ (∀ seq : Nat,
      let waits := s.fabric.sent.find? fun x => x.due && x.seq = seq && s.onWire x
      (waits = none → exec (.pathTimeout seq) s = .next s)
      ∧ ∀ x, waits = some x → FrameGivenUp s (exec (.pathTimeout seq) s) x 5 2 1 x.port)
    ∧ (∀ p : BitVec 3,
      let dead (o : Out) : Prop := Gives o fun u =>
        ((∀ x ∈ s.fabric.sent, x.port ≠ p ∨ x.hop = false) → u = { s with fabric := { s.fabric with alive := u.fabric.alive } }) ∧
        (∀ i < 8, u.fabric.alive.getLsbD i = (s.fabric.alive.getLsbD i && !(i == p.toNat))) ∧
        (∀ x, s.fabric.sent = [x] → x.port = p → x.hop = true →
          let d := s.regs.detour[p.toNat]?.getD 0
          let e := d.setWidth 3
          (x.detoured = false → d.getLsbD 7 = true → e ≠ p → s.fabric.alive.getLsbD e.toNat = true →
            u.fabric.sent = [{ x with
              port := e, frame := x.frame.route (d.extractLsb' 3 3 :: x.frame.ports) true, detoured := true }] ∧
            ∀ i, x.group = some i → ((u.groupAt i).failure).getLsbD 54 = true) ∧
          ((d.getLsbD 7 = false ∨ x.detoured = true) → u.fabric.sent = [] ∧
            (∀ i, x.own = true → x.group = some i → GroupFails s u i 1 4 p (s.groupAt i).nextPk) ∧
            (∀ k c, x.own = true → x.group = none → s.chunks[k]? = some c → s.chunkOf x.seq = some k → ChunkFailed s u k c 4) ∧
            (x.own = false → u.fabric.messages = (refusedTo s x.frame.origin x.seq 4).fabric.messages)))
      dead (exec (.linkTimeout p) s) ∧ dead (exec (.linkDown p) s)
      ∧ Gives (exec (.linkTrained p) s) fun u => u = { s with fabric := { s.fabric with alive := u.fabric.alive } } ∧
        ∀ i < 8, u.fabric.alive.getLsbD i = (s.fabric.alive.getLsbD i || i == p.toNat))
    ∧ ∀ (i : BitVec 6),
      let g := s.groupAt i
      ((g.gto = false ∨ g.waiting = false ∨ g.valid = false) → exec (.groupTimeout i) s = .next s)
      ∧ (g.gto = true → g.waiting = true → g.valid = true → Gives (exec (.groupTimeout i) s) fun u =>
        (∀ k o, g.receiver = some (k, o) → o.kind ≠ 3 → GroupFails s u i 3 1 0 g.prevPk) ∧
        (g.receiver = none → GroupFails s u i 3 1 0 g.nextPk) ∧
        (∀ k o, g.receiver = some (k, o) → o.kind = 3 → GroupFails s u i 3 1 0 g.nextPk))
      ∧ ∀ v : Dword,
        let d := v &&& 0x4000FFFF0000FFFF
        let on : Dword := d ||| 0x8000000000000000
        exec (.groupEnable i v) s = .next ((s.groupPut i
          (if g.valid = false ∨ g.failed = true then { Group.blank with dw := g.dw.set 0 on } else { g with dw := g.dw.set 0 on })).colGo i)
        ∧ ((g.ops = [] ∧ ∀ f ∈ s.fabric.sent, ¬ (f.group = some i ∧ f.due = true)) →
          exec (.groupWithdraw i v) s = .next (s.groupPut i { g with dw := g.dw.set 0 d }))
        ∧ ((g.ops ≠ [] ∨ ∃ f ∈ s.fabric.sent, f.group = some i ∧ f.due = true) →
          Gives (exec (.groupWithdraw i v) s) fun u => GroupFails s u i 3 6 0 s.regs.pkrank ∧ (u.groupAt i).dw = g.dw.set 0 d ∧
            (u.groupAt i).valid = false)

/-! ### The encoding, the step, reset, invariants: 09 R188 to R197, 07 R167 -/

/-- A word from its major opcode and the four fields of the R form (R189, Table 9.1); the other forms cut the same columns otherwise. -/
def wordR (major d a b fn : Nat) : IWord := BitVec.ofNat 32 (major * 0x04000000 + d * 2 ^ 20 + a * 2 ^ 14 + b * 2 ^ 8 + fn)

end Sys2Proof

/-- Words written out from Tables 9.1 to 9.6, at least one of each family, with the instructions they stand for, and words that are none. -/
def Obligations.EncodingSamples : Prop :=
  [decode (wordR 0x01 0 0 0 0x08), decode (wordR 0x03 3 0 1 0x00), decode (wordR 0x04 3 1 2 0x00), decode (wordR 0x05 5 6 0x3F 0xFF),
   decode (wordR 0x09 7 8 0x20 0x09), decode (wordR 0x10 4 9 0 16), decode (wordR 0x14 10 11 0x3F 0xF8), decode (wordR 0x19 1 2 0 4)] =
  [some .vjoin, some (.setvlImm 3 256), some (.add 3 1 2), some (.addi 5 6 0x3FFF), some (.srai 7 8 9), some (.ldd 4 9 16),
   some (.stb 10 11 0x3FF8), some (.beq 1 2 4)]
  ∧ [decode (0x30000000 + 2 * 0x100000 + 0x12345), decode (0x7C000000 + 63 * 0x100000 + 0xFFFFF), decode (wordR 0x21 1 2 3 0x80),
     decode (wordR 0x22 4 5 6 (7 * 8 + 1)), decode (wordR 0x27 0 0 0 1), decode (wordR 0x28 (3 * 4 + 1) 0 0 2),
     decode (wordR 0x2A 1 2 3 0), decode (wordR 0x2A 1 2 5 9), decode (wordR 0x2B 4 5 6 2)] =
    [some (.lim 2 0x12345), some (.jal 63 0xFFFFF), some (.fadd 1 2 3 true), some (.fms 4 5 6 7 false), some (.vfetch 0 1),
     some (.pbr 3 1 2), some (.vadd 1 2 (.field 3)), some (.vsub 1 2 (.sreg 5)), some (.vfadd 4 5 (.freg 6))]
  ∧ [decode (wordR 0x2C 1 2 3 (9 * 4 + 3)), decode (wordR 0x2D 1 2 3 0x18), decode (wordR 0x2E (2 * 4 + 1) 7 8 0x10),
     decode (wordR 0x2F 4 3 4 20), decode (0xC0000000 + 1 * 2 ^ 22 + 2 * 2 ^ 18 + 3 * 2 ^ 14), decode (wordR 0x31 2 3 0 0),
     decode (wordR 0x34 1 2 3 9), decode (0xDC000000 + 3 * 2 ^ 20 + 100 * 2 ^ 10 + 16 * 2 ^ 3 + 1)] =
    [some (.vfnms 1 2 3 9), some (.vandn 1 2 (.field 3)), some (.vcmpLt 2 1 7 (.field 8)), some (.vsrch 1 0 3 4 5),
     some (.kand 1 2 3), some (.vrsum 2 3), some (.vlds 1 2 3), some (.fmap 3 100 16 true)]
  ∧ [decode (wordR 0x38 1 2 0 (3 * 64 + 3)), decode (wordR 0x39 1 2 3 0), decode (wordR 0x3A 1 2 3 2), decode (wordR 0x3B 5 0 0x02 0x10),
     decode 0, decode (wordR 0x01 0 1 0 0x08), decode (wordR 0x29 0 0 0 0), decode (wordR 0x04 3 1 2 0x1D),
     decode (wordR 0x28 (3 * 4) 0 0 2)] =
    [some (.mstr 1 2 3), some (.cpyg2l 1 2 3), some (.colar 1 2 3), some (.srr 5 0x210), none, none, none, none, none]

/-- Every well-formed instruction that has a word is read back from it, whatever its operands are. -/
def Obligations.EncodeThenDecode : Prop :=
  ∀ (i : Instr) (w : IWord), i.wellFormed = true → encode i = some w → decode w = some i

namespace Sys2Proof

/-- A step of agent a from s to u would write a line whose turn a thread for which a does not move holds, and holds still after it
(R107). -/
def BreaksTurn (s u : State) (a : Agent) : Prop :=
  ∃ (l : Nat) (t : Tid), s.turns.find? (fun x => x.1 = l) = some (l, t) ∧ s.actor a ≠ some t ∧ (l, t) ∈ u.turns ∧
    s.homeBytes (128 * l) 128 ≠ u.homeBytes (128 * l) 128

/-- The end of every step: a write to a line under another thread's turn waits, and with it the step that makes it (R107); the step is
counted, and CYCLES goes on by what Config gives it (log 4). -/
def Ends (s : State) (a : Option Agent) (u t : State) : Prop :=
  let after (v : State) : State := { v with tick := v.tick + 1, cycles := v.cycles + BitVec.ofNat 64 (Config.elapsed v.tick) }
  ((∃ b, a = some b ∧ BreaksTurn s u b) → t = after s) ∧ ((∀ b, a = some b → ¬ BreaksTurn s u b) → t = after u)

/-- The word that a thread fetches at its PC (R188, R221): the four bytes at the address the PC translates to, as they stand at their home or,
for a word that has been written since, as the instruction path of the core still holds them (R214). -/
def FetchedWord (f u : State) (w : IWord) : Prop :=
  ∃ x, f.translate f.th.tid.core f.th.ctx .fetch f.th.pc = .ok x ∧
    (x.device = true → w = BitVec.ofNat 32 (leVal (memBytes u.mem x.pa 4))) ∧
    (x.device = false → f.th.pc.toNat % 4 = 0 →
      let at_ := replicaFor f.th.tid.core x.pa x.repl
      w = BitVec.ofNat 32 (leVal (u.homeBytes at_ 4)) ∨
        ∃ row, (pathKey f.th.tid.core at_, row) ∈ f.ipath ∧ w = row.extractLsb' (8 * (x.pa % 128)) 32)

end Sys2Proof

/-- A step is that of the agent that moves. A control thread runs the instruction that the four bytes at its PC decode to (R188, R221), once its
turn has come and what the word reads and writes has been marked (R344); a word that decodes to none is ILLOP and a fetch that faults its
fault; a ply runs the word of its block at which it stands, as a whole or, where something asks it to stop, as far as one of the word's
restart points (R340); an agent of the package, the boot ROM (R374) and the outside world do
their own step. -/
def Obligations.StepRunsDecodedWord : Prop :=
  ∀ (s : State),
    let ends (a : Option Agent) (o : Out) : Prop := ∀ u, o = .next u → Gives (step s) (Ends s a u)
    (∀ t : Tid, s.mover = some (.word t .control) →
      let f := s.focus t
      let a := some (Agent.word t .control)
      (∀ (u : State) (w : IWord), f.fetchWord f.th.priv f.th.pc = .ok (u, w) →
        FetchedWord f u w ∧
        (∀ i, decode w = some i → ends a (exec i (u.begins i))) ∧
        (decode w = none → ends a (exec (.wordNotAnInstruction w) u)))
      ∧ ∀ e, f.fetchWord f.th.priv f.th.pc = .error e → ends a (exec (.instructionFetchFault f.th.pc) f))
    ∧ (∀ (t : Tid) (j : BitVec 4) (r : Running) (w : IWord), (s.focus t).th.running j = some r →
      r.blk.words[(r.pc - r.blk.addr).toNat / 4]? = some w →
      let f : State := { s.focus t with who := .ply j }
      (s.mover = some (.word t (.ply j)) →
        (∀ i, blockDecode w = some i → ends (some (.word t (.ply j))) (exec i (f.plyBegins r i))) ∧
        (blockDecode w = none → ends (some (.word t (.ply j))) (.next (f.fault (illop w)))))
      ∧ (s.mover = some (.stop t j) → ∃ k, ∀ i u, blockDecode w = some i →
        exec i (State.plyBegins { f with stopAt := some k } r i) = .next u →
        ends (some (.stop t j)) (.next (if (∃ q, (u.th.plyAt j.toNat).run = some q ∧ q.wait = .held) ∨ f.engineWorks = true
          then { u with stopAt := none } else s))))
    ∧ (∀ i, s.mover = some (.event i) → ends (some (.event i)) (exec i s))
    ∧ (∀ a, s.mover = some a → step s = endStep (s.act a))
    ∧ (∀ q k, Gives (endStep (s.act (.readDword q k))) (Ends s (some (.readDword q k)) (s.readDword q k)))
    ∧ (∀ line, s.mover = some (.evict line) → ends (some (.evict line)) (.next (s.l2Evict line)))
    ∧ Gives (endStep (s.act .started)) (Ends s (some .started) (if s.pm.starting = true ∧ s.pm.busy = false then
        { s with pm := { s.pm with starting := false, second := false } } else s))
    ∧ (∀ i l, s.mover = some .input → s.inputs = i :: l →
      ends (some .input) (if fromOutside i = true then exec i { s with inputs := l } else .next { s with inputs := l }))
    ∧ (s.mover = none → ends none (.next s))

/-- No step of the machine stops: an undefined case is an exception, a free value or a wait, never a fault or a refusal. -/
def Obligations.StepNeverStops : Prop := ∀ s : State, Completes (step s)

/-- Memory stays in its canonical form whatever the agents of the package do. -/
def Obligations.MemoryKeepsItsForm : Prop := ∀ s t : State, MemoryWf s → step s = .next t → MemoryWf t

/-- After reset (R167) no thread runs and no context is valid, every queue is empty and disabled, every register of the package reads its Reset
column, and memory, rows, tags and arrival words list nothing. The package stands in COLD-READY with every sensor at 80 K: the first samples
are the model's choice (log 20). -/
def Obligations.ResetState : Prop :=
  let s := State.reset
  MemoryWf s ∧ StoresWf s ∧ s.threads = [] ∧ s.saved = [] ∧ s.reserved = [] ∧ s.drain = [] ∧ s.cycles = 0
  ∧ (∀ a, memByte s.mem a = 0) ∧ (∀ k, s.rowAt k = 0 ∧ s.tagsAt k = 1) ∧ (∀ c, (s.ctxAt c).valid = false)
  ∧ (∀ q, s.queueAt q = Queue.blank) ∧ (∀ g, (s.groupAt g).dw = .replicate 8 0 ∧ (s.groupAt g).failure = 0)
  ∧ s.thermal.state = .coldReady ∧ (∀ d : Fin 8, s.thermal.chainp[d] = 0b111111 ∧ s.thermal.band[d] = 0)
  ∧ s.regRead (packageBlock + 0x30000) = 0 ∧ s.regRead (packageBlock + 0x41000) = 0 ∧ s.regRead (packageBlock + 0x42000) = 0
  ∧ Thread.blank.trap.vbase = 0x0080000000000000 ∧ Thread.blank.trap.inh = false ∧ Thread.blank.dbg.en = true

/-! ### Statements of several groups -/

/-- Scalar integer instructions of two registers and of a register and an immediate (Tables 10.3 and 10.4). -/
def Obligations.IntegerResults : Prop := AluResults ∧ ImmediateResults

/-- Scalar divisions and remainders with their corners, and the counts of one register. -/
def Obligations.DivideAndCountResults : Prop := DivisionResults ∧ CountResults

/-- Branches and jumps, with their targets, links and control taints (R220 and the rules after it). -/
def Obligations.ControlTransferResults : Prop := BranchResults ∧ JumpResults

/-- Scalar float instructions of one operand, comparisons, conversions and moves between the register files. -/
def Obligations.FloatUnaryAndMoveResults : Prop := FloatUnaryResults ∧ FloatMoveResults

/-- Scalar loads and what the places they read hold. -/
def Obligations.ScalarLoadResults : Prop := LoadResults ∧ ReadPlaces

/-- PGSHARE, PGDROP and TLBINV (R49 to R51, R57). -/
def Obligations.ShareAndDropResults : Prop := ShareResults ∧ DropResults

/-- LDACQ and STREL, BIND and UNBIND. -/
def Obligations.AcquireReleaseBindResults : Prop := AcquireReleaseResults ∧ BindResults

/-- Vector integer instructions of two operands and of one. -/
def Obligations.VectorIntegerRules : Prop := VectorIntegerResults ∧ VectorUnaryResults

/-- Vector bit instructions, and the tag instructions that stay within a ply. -/
def Obligations.VectorBitAndTagResults : Prop := VectorBitResults ∧ TagResults

/-- Reductions over rows, integer and float. -/
def Obligations.ReductionRules : Prop := ReductionResults ∧ FloatReductionResults

/-- Tag instructions and searches that cross plies. -/
def Obligations.TagCrossAndSearchResults : Prop := TagCrossResults ∧ SearchResults

/-- Moves of elements among rows, scans and special instructions. -/
def Obligations.MoveAndScanResults : Prop := MoveResults ∧ ScanResults

/-- Field stores, with the store that keeps its rounding error (R272, R179). -/
def Obligations.FieldStoreRules : Prop := FieldStoreResults ∧ ErrorFeedbackStore

/-- SRR and SRW. -/
def Obligations.SystemRegisterRules : Prop := SystemRegisterResults ∧ SystemRegisterPrivilege

/-- MCFG, MZERO, MCHK and SPCOMP. -/
def Obligations.AccumulatorAndCompressResults : Prop := AccumulatorResults ∧ CompressResults

/-- MWLD, MWLDS and MSTR. -/
def Obligations.WeightAndStreamResults : Prop := WeightLoadResults ∧ StreamResults

/-- Steps of slices, coordinators, page walkers, invalidations and the copy engines. -/
def Obligations.MemoryEvents : Prop := SliceEvents ∧ TranslationEvents ∧ ChunkEvents

/-- Register writes that come from outside the words of a program, and what CTXCTL does. -/
def Obligations.RegisterAndContextEvents : Prop := RegisterEvents ∧ ContextEvents

/-- Queues, launch engines, the start of a thread and of an operation of the matrix engine. -/
def Obligations.LaunchRules : Prop := LaunchEvents ∧ ThreadStart

/-- PRECTL, RESCTL, the save and the restore of a thread. -/
def Obligations.SaveRules : Prop := RequestEvents ∧ SaveEvents

/-- Sensors, power steps, bands and chaining pairs. -/
def Obligations.SensorPowerAndBandEvents : Prop := SensorAndPowerEvents ∧ BandAndChainEvents

/-- The mailbox and what its commands leave. -/
def Obligations.MailboxRules : Prop := MailboxEvents ∧ MailboxCompletions

/-- Frames, receipts, links and groups. -/
def Obligations.FabricRules : Prop := FrameEvents ∧ LinkAndGroupEvents

/-- The end of a thread and the return from a trap. -/
def Obligations.HaltAndEretResults : Prop := HaltResults ∧ EretResults
end

