-- ==== Sys2Proof/Laws/State.lean ====
section
/-! SUPPORT. What each update of a thread or of the state leaves in every field. -/
namespace Sys2Proof.Machine
open Sys2Proof

/-! ### The thread in focus changed -/

@[simp] theorem State.upd_who (s : State) (f : Thread → Thread) : (s.upd f).who = s.who := rfl
@[simp] theorem State.upd_th (s : State) (f : Thread → Thread) : (s.upd f).th = f s.th := rfl
@[simp] theorem State.upd_parked (s : State) (f : Thread → Thread) : (s.upd f).parked = s.parked := rfl
@[simp] theorem State.upd_stopAt (s : State) (f : Thread → Thread) : (s.upd f).stopAt = s.stopAt := rfl
@[simp] theorem State.upd_lastIssue (s : State) (f : Thread → Thread) : (s.upd f).lastIssue = s.lastIssue := rfl
@[simp] theorem State.upd_tick (s : State) (f : Thread → Thread) : (s.upd f).tick = s.tick := rfl
@[simp] theorem State.upd_inputs (s : State) (f : Thread → Thread) : (s.upd f).inputs = s.inputs := rfl
@[simp] theorem State.upd_cycles (s : State) (f : Thread → Thread) : (s.upd f).cycles = s.cycles := rfl
@[simp] theorem State.upd_mem (s : State) (f : Thread → Thread) : (s.upd f).mem = s.mem := rfl
@[simp] theorem State.upd_rows (s : State) (f : Thread → Thread) : (s.upd f).rows = s.rows := rfl
@[simp] theorem State.upd_tags (s : State) (f : Thread → Thread) : (s.upd f).tags = s.tags := rfl
@[simp] theorem State.upd_badCols (s : State) (f : Thread → Thread) : (s.upd f).badCols = s.badCols := rfl
@[simp] theorem State.upd_l1 (s : State) (f : Thread → Thread) : (s.upd f).l1 = s.l1 := rfl
@[simp] theorem State.upd_l1lru (s : State) (f : Thread → Thread) : (s.upd f).l1lru = s.l1lru := rfl
@[simp] theorem State.upd_eccBad (s : State) (f : Thread → Thread) : (s.upd f).eccBad = s.eccBad := rfl
@[simp] theorem State.upd_l2 (s : State) (f : Thread → Thread) : (s.upd f).l2 = s.l2 := rfl
@[simp] theorem State.upd_ipath (s : State) (f : Thread → Thread) : (s.upd f).ipath = s.ipath := rfl
@[simp] theorem State.upd_tlb (s : State) (f : Thread → Thread) : (s.upd f).tlb = s.tlb := rfl
@[simp] theorem State.upd_ctlb (s : State) (f : Thread → Thread) : (s.upd f).ctlb = s.ctlb := rfl
@[simp] theorem State.upd_wcache (s : State) (f : Thread → Thread) : (s.upd f).wcache = s.wcache := rfl
@[simp] theorem State.upd_ctxs (s : State) (f : Thread → Thread) : (s.upd f).ctxs = s.ctxs := rfl
@[simp] theorem State.upd_saved (s : State) (f : Thread → Thread) : (s.upd f).saved = s.saved := rfl
@[simp] theorem State.upd_arr (s : State) (f : Thread → Thread) : (s.upd f).arr = s.arr := rfl
@[simp] theorem State.upd_drain (s : State) (f : Thread → Thread) : (s.upd f).drain = s.drain := rfl
@[simp] theorem State.upd_sliceQ (s : State) (f : Thread → Thread) : (s.upd f).sliceQ = s.sliceQ := rfl
@[simp] theorem State.upd_repQ (s : State) (f : Thread → Thread) : (s.upd f).repQ = s.repQ := rfl
@[simp] theorem State.upd_ages (s : State) (f : Thread → Thread) : (s.upd f).ages = s.ages := rfl
@[simp] theorem State.upd_turns (s : State) (f : Thread → Thread) : (s.upd f).turns = s.turns := rfl
@[simp] theorem State.upd_inval (s : State) (f : Thread → Thread) : (s.upd f).inval = s.inval := rfl
@[simp] theorem State.upd_chunks (s : State) (f : Thread → Thread) : (s.upd f).chunks = s.chunks := rfl
@[simp] theorem State.upd_nextCopy (s : State) (f : Thread → Thread) : (s.upd f).nextCopy = s.nextCopy := rfl
@[simp] theorem State.upd_forwards (s : State) (f : Thread → Thread) : (s.upd f).forwards = s.forwards := rfl
@[simp] theorem State.upd_groups (s : State) (f : Thread → Thread) : (s.upd f).groups = s.groups := rfl
@[simp] theorem State.upd_mq (s : State) (f : Thread → Thread) : (s.upd f).mq = s.mq := rfl
@[simp] theorem State.upd_points (s : State) (f : Thread → Thread) : (s.upd f).points = s.points := rfl
@[simp] theorem State.upd_fabric (s : State) (f : Thread → Thread) : (s.upd f).fabric = s.fabric := rfl
@[simp] theorem State.upd_queues (s : State) (f : Thread → Thread) : (s.upd f).queues = s.queues := rfl
@[simp] theorem State.upd_reserved (s : State) (f : Thread → Thread) : (s.upd f).reserved = s.reserved := rfl
@[simp] theorem State.upd_held (s : State) (f : Thread → Thread) : (s.upd f).held = s.held := rfl
@[simp] theorem State.upd_resumes (s : State) (f : Thread → Thread) : (s.upd f).resumes = s.resumes := rfl
@[simp] theorem State.upd_nextGroup (s : State) (f : Thread → Thread) : (s.upd f).nextGroup = s.nextGroup := rfl
@[simp] theorem State.upd_nextGrant (s : State) (f : Thread → Thread) : (s.upd f).nextGrant = s.nextGrant := rfl
@[simp] theorem State.upd_lastQueue (s : State) (f : Thread → Thread) : (s.upd f).lastQueue = s.lastQueue := rfl
@[simp] theorem State.upd_packageQ (s : State) (f : Thread → Thread) : (s.upd f).packageQ = s.packageQ := rfl
@[simp] theorem State.upd_regs (s : State) (f : Thread → Thread) : (s.upd f).regs = s.regs := rfl
@[simp] theorem State.upd_thermal (s : State) (f : Thread → Thread) : (s.upd f).thermal = s.thermal := rfl
@[simp] theorem State.upd_host (s : State) (f : Thread → Thread) : (s.upd f).host = s.host := rfl
@[simp] theorem State.upd_pm (s : State) (f : Thread → Thread) : (s.upd f).pm = s.pm := rfl

/-! ### A commit -/

@[simp] theorem State.commit_who (s : State) : s.commit.who = s.who := rfl
@[simp] theorem State.commit_parked (s : State) : s.commit.parked = s.parked := rfl
@[simp] theorem State.commit_stopAt (s : State) : s.commit.stopAt = s.stopAt := rfl
@[simp] theorem State.commit_lastIssue (s : State) : s.commit.lastIssue = s.lastIssue := rfl
@[simp] theorem State.commit_tick (s : State) : s.commit.tick = s.tick := rfl
@[simp] theorem State.commit_inputs (s : State) : s.commit.inputs = s.inputs := rfl
@[simp] theorem State.commit_cycles (s : State) : s.commit.cycles = s.cycles := rfl
@[simp] theorem State.commit_mem (s : State) : s.commit.mem = s.mem := rfl
@[simp] theorem State.commit_rows (s : State) : s.commit.rows = s.rows := rfl
@[simp] theorem State.commit_tags (s : State) : s.commit.tags = s.tags := rfl
@[simp] theorem State.commit_badCols (s : State) : s.commit.badCols = s.badCols := rfl
@[simp] theorem State.commit_l1 (s : State) : s.commit.l1 = s.l1 := rfl
@[simp] theorem State.commit_l1lru (s : State) : s.commit.l1lru = s.l1lru := rfl
@[simp] theorem State.commit_eccBad (s : State) : s.commit.eccBad = s.eccBad := rfl
@[simp] theorem State.commit_l2 (s : State) : s.commit.l2 = s.l2 := rfl
@[simp] theorem State.commit_ipath (s : State) : s.commit.ipath = s.ipath := rfl
@[simp] theorem State.commit_tlb (s : State) : s.commit.tlb = s.tlb := rfl
@[simp] theorem State.commit_ctlb (s : State) : s.commit.ctlb = s.ctlb := rfl
@[simp] theorem State.commit_wcache (s : State) : s.commit.wcache = s.wcache := rfl
@[simp] theorem State.commit_ctxs (s : State) : s.commit.ctxs = s.ctxs := rfl
@[simp] theorem State.commit_saved (s : State) : s.commit.saved = s.saved := rfl
@[simp] theorem State.commit_arr (s : State) : s.commit.arr = s.arr := rfl
@[simp] theorem State.commit_sliceQ (s : State) : s.commit.sliceQ = s.sliceQ := rfl
@[simp] theorem State.commit_repQ (s : State) : s.commit.repQ = s.repQ := rfl
@[simp] theorem State.commit_ages (s : State) : s.commit.ages = s.ages := rfl
@[simp] theorem State.commit_turns (s : State) : s.commit.turns = s.turns := rfl
@[simp] theorem State.commit_inval (s : State) : s.commit.inval = s.inval := rfl
@[simp] theorem State.commit_chunks (s : State) : s.commit.chunks = s.chunks := rfl
@[simp] theorem State.commit_nextCopy (s : State) : s.commit.nextCopy = s.nextCopy := rfl
@[simp] theorem State.commit_forwards (s : State) : s.commit.forwards = s.forwards := rfl
@[simp] theorem State.commit_groups (s : State) : s.commit.groups = s.groups := rfl
@[simp] theorem State.commit_mq (s : State) : s.commit.mq = s.mq := rfl
@[simp] theorem State.commit_points (s : State) : s.commit.points = s.points := rfl
@[simp] theorem State.commit_fabric (s : State) : s.commit.fabric = s.fabric := rfl
@[simp] theorem State.commit_queues (s : State) : s.commit.queues = s.queues := rfl
@[simp] theorem State.commit_reserved (s : State) : s.commit.reserved = s.reserved := rfl
@[simp] theorem State.commit_held (s : State) : s.commit.held = s.held := rfl
@[simp] theorem State.commit_resumes (s : State) : s.commit.resumes = s.resumes := rfl
@[simp] theorem State.commit_nextGroup (s : State) : s.commit.nextGroup = s.nextGroup := rfl
@[simp] theorem State.commit_nextGrant (s : State) : s.commit.nextGrant = s.nextGrant := rfl
@[simp] theorem State.commit_lastQueue (s : State) : s.commit.lastQueue = s.lastQueue := rfl
@[simp] theorem State.commit_packageQ (s : State) : s.commit.packageQ = s.packageQ := rfl
@[simp] theorem State.commit_regs (s : State) : s.commit.regs = s.regs := rfl
@[simp] theorem State.commit_thermal (s : State) : s.commit.thermal = s.thermal := rfl
@[simp] theorem State.commit_host (s : State) : s.commit.host = s.host := rfl
@[simp] theorem State.commit_pm (s : State) : s.commit.pm = s.pm := rfl
@[simp] theorem State.commit_th_live (s : State) : s.commit.th.live = s.th.live := rfl
@[simp] theorem State.commit_th_ended (s : State) : s.commit.th.ended = s.th.ended := rfl
@[simp] theorem State.commit_th_tid (s : State) : s.commit.th.tid = s.th.tid := rfl
@[simp] theorem State.commit_th_ctx (s : State) : s.commit.th.ctx = s.th.ctx := rfl
@[simp] theorem State.commit_th_prio (s : State) : s.commit.th.prio = s.th.prio := rfl
@[simp] theorem State.commit_th_tier (s : State) : s.commit.th.tier = s.th.tier := rfl
@[simp] theorem State.commit_th_group (s : State) : s.commit.th.group = s.th.group := rfl
@[simp] theorem State.commit_th_rank (s : State) : s.commit.th.rank = s.th.rank := rfl
@[simp] theorem State.commit_th_gsize (s : State) : s.commit.th.gsize = s.th.gsize := rfl
@[simp] theorem State.commit_th_done (s : State) : s.commit.th.done = s.th.done := rfl
@[simp] theorem State.commit_th_base (s : State) : s.commit.th.base = s.th.base := rfl
@[simp] theorem State.commit_th_log2n (s : State) : s.commit.th.log2n = s.th.log2n := rfl
@[simp] theorem State.commit_th_grant (s : State) : s.commit.th.grant = s.th.grant := rfl
@[simp] theorem State.commit_th_tiles (s : State) : s.commit.th.tiles = s.th.tiles := rfl
@[simp] theorem State.commit_th_ceiling (s : State) : s.commit.th.ceiling = s.th.ceiling := rfl
@[simp] theorem State.commit_th_pc (s : State) : s.commit.th.pc = s.th.pc := rfl
@[simp] theorem State.commit_th_s (s : State) : s.commit.th.s = s.th.s := rfl
@[simp] theorem State.commit_th_f (s : State) : s.commit.th.f = s.th.f := rfl
@[simp] theorem State.commit_th_fmap (s : State) : s.commit.th.fmap = s.th.fmap := rfl
@[simp] theorem State.commit_th_nf (s : State) : s.commit.th.nf = s.th.nf := rfl
@[simp] theorem State.commit_th_mode (s : State) : s.commit.th.mode = s.th.mode := rfl
@[simp] theorem State.commit_th_vl (s : State) : s.commit.th.vl = s.th.vl := rfl
@[simp] theorem State.commit_th_flags (s : State) : s.commit.th.flags = s.th.flags := rfl
@[simp] theorem State.commit_th_scm (s : State) : s.commit.th.scm = s.th.scm := rfl
@[simp] theorem State.commit_th_priv (s : State) : s.commit.th.priv = s.th.priv := rfl
@[simp] theorem State.commit_th_checked (s : State) : s.commit.th.checked = s.th.checked := rfl
@[simp] theorem State.commit_th_spfoot (s : State) : s.commit.th.spfoot = s.th.spfoot := rfl
@[simp] theorem State.commit_th_mrow (s : State) : s.commit.th.mrow = s.th.mrow := rfl
@[simp] theorem State.commit_th_pidx (s : State) : s.commit.th.pidx = s.th.pidx := rfl
@[simp] theorem State.commit_th_redlo (s : State) : s.commit.th.redlo = s.th.redlo := rfl
@[simp] theorem State.commit_th_redhi (s : State) : s.commit.th.redhi = s.th.redhi := rfl
@[simp] theorem State.commit_th_armed (s : State) : s.commit.th.armed = s.th.armed := rfl
@[simp] theorem State.commit_th_fmask (s : State) : s.commit.th.fmask = s.th.fmask := rfl
@[simp] theorem State.commit_th_efr (s : State) : s.commit.th.efr = s.th.efr := rfl
@[simp] theorem State.commit_th_sptab (s : State) : s.commit.th.sptab = s.th.sptab := rfl
@[simp] theorem State.commit_th_sporder (s : State) : s.commit.th.sporder = s.th.sporder := rfl
@[simp] theorem State.commit_th_acc (s : State) : s.commit.th.acc = s.th.acc := rfl
@[simp] theorem State.commit_th_taints (s : State) : s.commit.th.taints = s.th.taints := rfl
@[simp] theorem State.commit_th_out (s : State) : s.commit.th.out = s.th.out := rfl
@[simp] theorem State.commit_th_trap (s : State) : s.commit.th.trap = s.th.trap := rfl
@[simp] theorem State.commit_th_pend (s : State) : s.commit.th.pend = s.th.pend := rfl
@[simp] theorem State.commit_th_dbg (s : State) : s.commit.th.dbg = s.th.dbg := rfl
@[simp] theorem State.commit_th_plies (s : State) : s.commit.th.plies = s.th.plies := rfl
@[simp] theorem State.commit_th_nextSeq (s : State) : s.commit.th.nextSeq = s.th.nextSeq := rfl
@[simp] theorem State.commit_th_segs (s : State) : s.commit.th.segs = s.th.segs := rfl
@[simp] theorem State.commit_th_sleep (s : State) : s.commit.th.sleep = s.th.sleep := rfl
@[simp] theorem State.commit_th_event (s : State) : s.commit.th.event = s.th.event := rfl
@[simp] theorem State.commit_th_line (s : State) : s.commit.th.line = s.th.line := rfl
@[simp] theorem State.commit_th_copyFails (s : State) : s.commit.th.copyFails = s.th.copyFails := rfl
@[simp] theorem State.commit_th_copyCode (s : State) : s.commit.th.copyCode = s.th.copyCode := rfl
@[simp] theorem State.commit_th_lease (s : State) : s.commit.th.lease = s.th.lease := rfl
@[simp] theorem State.commit_th_aged (s : State) : s.commit.th.aged = s.th.aged := rfl
@[simp] theorem State.commit_th_saveReq (s : State) : s.commit.th.saveReq = s.th.saveReq := rfl
@[simp] theorem State.commit_th_migrate (s : State) : s.commit.th.migrate = s.th.migrate := rfl

/-! ### Thread.advance -/

@[simp] theorem Thread.advance_live (t : Thread) : t.advance.live = t.live := rfl
@[simp] theorem Thread.advance_ended (t : Thread) : t.advance.ended = t.ended := rfl
@[simp] theorem Thread.advance_tid (t : Thread) : t.advance.tid = t.tid := rfl
@[simp] theorem Thread.advance_ctx (t : Thread) : t.advance.ctx = t.ctx := rfl
@[simp] theorem Thread.advance_prio (t : Thread) : t.advance.prio = t.prio := rfl
@[simp] theorem Thread.advance_tier (t : Thread) : t.advance.tier = t.tier := rfl
@[simp] theorem Thread.advance_group (t : Thread) : t.advance.group = t.group := rfl
@[simp] theorem Thread.advance_rank (t : Thread) : t.advance.rank = t.rank := rfl
@[simp] theorem Thread.advance_gsize (t : Thread) : t.advance.gsize = t.gsize := rfl
@[simp] theorem Thread.advance_done (t : Thread) : t.advance.done = t.done := rfl
@[simp] theorem Thread.advance_base (t : Thread) : t.advance.base = t.base := rfl
@[simp] theorem Thread.advance_log2n (t : Thread) : t.advance.log2n = t.log2n := rfl
@[simp] theorem Thread.advance_grant (t : Thread) : t.advance.grant = t.grant := rfl
@[simp] theorem Thread.advance_tiles (t : Thread) : t.advance.tiles = t.tiles := rfl
@[simp] theorem Thread.advance_ceiling (t : Thread) : t.advance.ceiling = t.ceiling := rfl
@[simp] theorem Thread.advance_pc (t : Thread) : t.advance.pc = t.pc + 4 := rfl
@[simp] theorem Thread.advance_s (t : Thread) : t.advance.s = t.s := rfl
@[simp] theorem Thread.advance_f (t : Thread) : t.advance.f = t.f := rfl
@[simp] theorem Thread.advance_fmap (t : Thread) : t.advance.fmap = t.fmap := rfl
@[simp] theorem Thread.advance_nf (t : Thread) : t.advance.nf = t.nf := rfl
@[simp] theorem Thread.advance_mode (t : Thread) : t.advance.mode = t.mode := rfl
@[simp] theorem Thread.advance_vl (t : Thread) : t.advance.vl = t.vl := rfl
@[simp] theorem Thread.advance_flags (t : Thread) : t.advance.flags = t.flags := rfl
@[simp] theorem Thread.advance_scm (t : Thread) : t.advance.scm = t.scm := rfl
@[simp] theorem Thread.advance_priv (t : Thread) : t.advance.priv = t.priv := rfl
@[simp] theorem Thread.advance_checked (t : Thread) : t.advance.checked = t.checked := rfl
@[simp] theorem Thread.advance_spfoot (t : Thread) : t.advance.spfoot = t.spfoot := rfl
@[simp] theorem Thread.advance_mrow (t : Thread) : t.advance.mrow = t.mrow := rfl
@[simp] theorem Thread.advance_pidx (t : Thread) : t.advance.pidx = t.pidx := rfl
@[simp] theorem Thread.advance_redlo (t : Thread) : t.advance.redlo = t.redlo := rfl
@[simp] theorem Thread.advance_redhi (t : Thread) : t.advance.redhi = t.redhi := rfl
@[simp] theorem Thread.advance_armed (t : Thread) : t.advance.armed = t.armed := rfl
@[simp] theorem Thread.advance_fmask (t : Thread) : t.advance.fmask = t.fmask := rfl
@[simp] theorem Thread.advance_efr (t : Thread) : t.advance.efr = t.efr := rfl
@[simp] theorem Thread.advance_sptab (t : Thread) : t.advance.sptab = t.sptab := rfl
@[simp] theorem Thread.advance_sporder (t : Thread) : t.advance.sporder = t.sporder := rfl
@[simp] theorem Thread.advance_acc (t : Thread) : t.advance.acc = t.acc := rfl
@[simp] theorem Thread.advance_taints (t : Thread) : t.advance.taints = t.taints := rfl
@[simp] theorem Thread.advance_out (t : Thread) : t.advance.out = t.out := rfl
@[simp] theorem Thread.advance_trap (t : Thread) : t.advance.trap = t.trap := rfl
@[simp] theorem Thread.advance_pend (t : Thread) : t.advance.pend = t.pend := rfl
@[simp] theorem Thread.advance_dbg (t : Thread) : t.advance.dbg = t.dbg := rfl
@[simp] theorem Thread.advance_plies (t : Thread) : t.advance.plies = t.plies := rfl
@[simp] theorem Thread.advance_nextSeq (t : Thread) : t.advance.nextSeq = t.nextSeq := rfl
@[simp] theorem Thread.advance_segs (t : Thread) : t.advance.segs = t.segs := rfl
@[simp] theorem Thread.advance_strip (t : Thread) : t.advance.strip = t.strip := rfl
@[simp] theorem Thread.advance_sleep (t : Thread) : t.advance.sleep = t.sleep := rfl
@[simp] theorem Thread.advance_event (t : Thread) : t.advance.event = t.event := rfl
@[simp] theorem Thread.advance_line (t : Thread) : t.advance.line = t.line := rfl
@[simp] theorem Thread.advance_copyFails (t : Thread) : t.advance.copyFails = t.copyFails := rfl
@[simp] theorem Thread.advance_copyCode (t : Thread) : t.advance.copyCode = t.copyCode := rfl
@[simp] theorem Thread.advance_lease (t : Thread) : t.advance.lease = t.lease := rfl
@[simp] theorem Thread.advance_aged (t : Thread) : t.advance.aged = t.aged := rfl
@[simp] theorem Thread.advance_saveReq (t : Thread) : t.advance.saveReq = t.saveReq := rfl
@[simp] theorem Thread.advance_migrate (t : Thread) : t.advance.migrate = t.migrate := rfl

/-! ### Thread.raiseFlags -/

@[simp] theorem Thread.raiseFlags_live (t : Thread) (fl : Flags) : (t.raiseFlags fl).live = t.live := rfl
@[simp] theorem Thread.raiseFlags_ended (t : Thread) (fl : Flags) : (t.raiseFlags fl).ended = t.ended := rfl
@[simp] theorem Thread.raiseFlags_tid (t : Thread) (fl : Flags) : (t.raiseFlags fl).tid = t.tid := rfl
@[simp] theorem Thread.raiseFlags_ctx (t : Thread) (fl : Flags) : (t.raiseFlags fl).ctx = t.ctx := rfl
@[simp] theorem Thread.raiseFlags_prio (t : Thread) (fl : Flags) : (t.raiseFlags fl).prio = t.prio := rfl
@[simp] theorem Thread.raiseFlags_tier (t : Thread) (fl : Flags) : (t.raiseFlags fl).tier = t.tier := rfl
@[simp] theorem Thread.raiseFlags_group (t : Thread) (fl : Flags) : (t.raiseFlags fl).group = t.group := rfl
@[simp] theorem Thread.raiseFlags_rank (t : Thread) (fl : Flags) : (t.raiseFlags fl).rank = t.rank := rfl
@[simp] theorem Thread.raiseFlags_gsize (t : Thread) (fl : Flags) : (t.raiseFlags fl).gsize = t.gsize := rfl
@[simp] theorem Thread.raiseFlags_done (t : Thread) (fl : Flags) : (t.raiseFlags fl).done = t.done := rfl
@[simp] theorem Thread.raiseFlags_base (t : Thread) (fl : Flags) : (t.raiseFlags fl).base = t.base := rfl
@[simp] theorem Thread.raiseFlags_log2n (t : Thread) (fl : Flags) : (t.raiseFlags fl).log2n = t.log2n := rfl
@[simp] theorem Thread.raiseFlags_grant (t : Thread) (fl : Flags) : (t.raiseFlags fl).grant = t.grant := rfl
@[simp] theorem Thread.raiseFlags_tiles (t : Thread) (fl : Flags) : (t.raiseFlags fl).tiles = t.tiles := rfl
@[simp] theorem Thread.raiseFlags_ceiling (t : Thread) (fl : Flags) : (t.raiseFlags fl).ceiling = t.ceiling := rfl
@[simp] theorem Thread.raiseFlags_pc (t : Thread) (fl : Flags) : (t.raiseFlags fl).pc = t.pc := rfl
@[simp] theorem Thread.raiseFlags_s (t : Thread) (fl : Flags) : (t.raiseFlags fl).s = t.s := rfl
@[simp] theorem Thread.raiseFlags_f (t : Thread) (fl : Flags) : (t.raiseFlags fl).f = t.f := rfl
@[simp] theorem Thread.raiseFlags_fmap (t : Thread) (fl : Flags) : (t.raiseFlags fl).fmap = t.fmap := rfl
@[simp] theorem Thread.raiseFlags_nf (t : Thread) (fl : Flags) : (t.raiseFlags fl).nf = t.nf := rfl
@[simp] theorem Thread.raiseFlags_mode (t : Thread) (fl : Flags) : (t.raiseFlags fl).mode = t.mode := rfl
@[simp] theorem Thread.raiseFlags_vl (t : Thread) (fl : Flags) : (t.raiseFlags fl).vl = t.vl := rfl
@[simp] theorem Thread.raiseFlags_flags (t : Thread) (fl : Flags) : (t.raiseFlags fl).flags = t.flags ||| fl := rfl
@[simp] theorem Thread.raiseFlags_scm (t : Thread) (fl : Flags) : (t.raiseFlags fl).scm = t.scm := rfl
@[simp] theorem Thread.raiseFlags_priv (t : Thread) (fl : Flags) : (t.raiseFlags fl).priv = t.priv := rfl
@[simp] theorem Thread.raiseFlags_checked (t : Thread) (fl : Flags) : (t.raiseFlags fl).checked = t.checked := rfl
@[simp] theorem Thread.raiseFlags_spfoot (t : Thread) (fl : Flags) : (t.raiseFlags fl).spfoot = t.spfoot := rfl
@[simp] theorem Thread.raiseFlags_mrow (t : Thread) (fl : Flags) : (t.raiseFlags fl).mrow = t.mrow := rfl
@[simp] theorem Thread.raiseFlags_pidx (t : Thread) (fl : Flags) : (t.raiseFlags fl).pidx = t.pidx := rfl
@[simp] theorem Thread.raiseFlags_redlo (t : Thread) (fl : Flags) : (t.raiseFlags fl).redlo = t.redlo := rfl
@[simp] theorem Thread.raiseFlags_redhi (t : Thread) (fl : Flags) : (t.raiseFlags fl).redhi = t.redhi := rfl
@[simp] theorem Thread.raiseFlags_armed (t : Thread) (fl : Flags) : (t.raiseFlags fl).armed = t.armed := rfl
@[simp] theorem Thread.raiseFlags_fmask (t : Thread) (fl : Flags) : (t.raiseFlags fl).fmask = t.fmask := rfl
@[simp] theorem Thread.raiseFlags_efr (t : Thread) (fl : Flags) : (t.raiseFlags fl).efr = t.efr := rfl
@[simp] theorem Thread.raiseFlags_sptab (t : Thread) (fl : Flags) : (t.raiseFlags fl).sptab = t.sptab := rfl
@[simp] theorem Thread.raiseFlags_sporder (t : Thread) (fl : Flags) : (t.raiseFlags fl).sporder = t.sporder := rfl
@[simp] theorem Thread.raiseFlags_acc (t : Thread) (fl : Flags) : (t.raiseFlags fl).acc = t.acc := rfl
@[simp] theorem Thread.raiseFlags_taints (t : Thread) (fl : Flags) : (t.raiseFlags fl).taints = t.taints := rfl
@[simp] theorem Thread.raiseFlags_out (t : Thread) (fl : Flags) : (t.raiseFlags fl).out = t.out := rfl
@[simp] theorem Thread.raiseFlags_trap (t : Thread) (fl : Flags) : (t.raiseFlags fl).trap = t.trap := rfl
@[simp] theorem Thread.raiseFlags_pend (t : Thread) (fl : Flags) : (t.raiseFlags fl).pend = t.pend := rfl
@[simp] theorem Thread.raiseFlags_dbg (t : Thread) (fl : Flags) : (t.raiseFlags fl).dbg = t.dbg := rfl
@[simp] theorem Thread.raiseFlags_plies (t : Thread) (fl : Flags) : (t.raiseFlags fl).plies = t.plies := rfl
@[simp] theorem Thread.raiseFlags_nextSeq (t : Thread) (fl : Flags) : (t.raiseFlags fl).nextSeq = t.nextSeq := rfl
@[simp] theorem Thread.raiseFlags_segs (t : Thread) (fl : Flags) : (t.raiseFlags fl).segs = t.segs := rfl
@[simp] theorem Thread.raiseFlags_strip (t : Thread) (fl : Flags) : (t.raiseFlags fl).strip = t.strip := rfl
@[simp] theorem Thread.raiseFlags_sleep (t : Thread) (fl : Flags) : (t.raiseFlags fl).sleep = t.sleep := rfl
@[simp] theorem Thread.raiseFlags_event (t : Thread) (fl : Flags) : (t.raiseFlags fl).event = t.event := rfl
@[simp] theorem Thread.raiseFlags_line (t : Thread) (fl : Flags) : (t.raiseFlags fl).line = t.line := rfl
@[simp] theorem Thread.raiseFlags_copyFails (t : Thread) (fl : Flags) : (t.raiseFlags fl).copyFails = t.copyFails := rfl
@[simp] theorem Thread.raiseFlags_copyCode (t : Thread) (fl : Flags) : (t.raiseFlags fl).copyCode = t.copyCode := rfl
@[simp] theorem Thread.raiseFlags_lease (t : Thread) (fl : Flags) : (t.raiseFlags fl).lease = t.lease := rfl
@[simp] theorem Thread.raiseFlags_aged (t : Thread) (fl : Flags) : (t.raiseFlags fl).aged = t.aged := rfl
@[simp] theorem Thread.raiseFlags_saveReq (t : Thread) (fl : Flags) : (t.raiseFlags fl).saveReq = t.saveReq := rfl
@[simp] theorem Thread.raiseFlags_migrate (t : Thread) (fl : Flags) : (t.raiseFlags fl).migrate = t.migrate := rfl

/-! ### Thread.addCtl -/

@[simp] theorem Thread.addCtl_live (t : Thread) (tn : Taint) : (t.addCtl tn).live = t.live := rfl
@[simp] theorem Thread.addCtl_ended (t : Thread) (tn : Taint) : (t.addCtl tn).ended = t.ended := rfl
@[simp] theorem Thread.addCtl_tid (t : Thread) (tn : Taint) : (t.addCtl tn).tid = t.tid := rfl
@[simp] theorem Thread.addCtl_ctx (t : Thread) (tn : Taint) : (t.addCtl tn).ctx = t.ctx := rfl
@[simp] theorem Thread.addCtl_prio (t : Thread) (tn : Taint) : (t.addCtl tn).prio = t.prio := rfl
@[simp] theorem Thread.addCtl_tier (t : Thread) (tn : Taint) : (t.addCtl tn).tier = t.tier := rfl
@[simp] theorem Thread.addCtl_group (t : Thread) (tn : Taint) : (t.addCtl tn).group = t.group := rfl
@[simp] theorem Thread.addCtl_rank (t : Thread) (tn : Taint) : (t.addCtl tn).rank = t.rank := rfl
@[simp] theorem Thread.addCtl_gsize (t : Thread) (tn : Taint) : (t.addCtl tn).gsize = t.gsize := rfl
@[simp] theorem Thread.addCtl_done (t : Thread) (tn : Taint) : (t.addCtl tn).done = t.done := rfl
@[simp] theorem Thread.addCtl_base (t : Thread) (tn : Taint) : (t.addCtl tn).base = t.base := rfl
@[simp] theorem Thread.addCtl_log2n (t : Thread) (tn : Taint) : (t.addCtl tn).log2n = t.log2n := rfl
@[simp] theorem Thread.addCtl_grant (t : Thread) (tn : Taint) : (t.addCtl tn).grant = t.grant := rfl
@[simp] theorem Thread.addCtl_tiles (t : Thread) (tn : Taint) : (t.addCtl tn).tiles = t.tiles := rfl
@[simp] theorem Thread.addCtl_ceiling (t : Thread) (tn : Taint) : (t.addCtl tn).ceiling = t.ceiling := rfl
@[simp] theorem Thread.addCtl_pc (t : Thread) (tn : Taint) : (t.addCtl tn).pc = t.pc := rfl
@[simp] theorem Thread.addCtl_s (t : Thread) (tn : Taint) : (t.addCtl tn).s = t.s := rfl
@[simp] theorem Thread.addCtl_f (t : Thread) (tn : Taint) : (t.addCtl tn).f = t.f := rfl
@[simp] theorem Thread.addCtl_fmap (t : Thread) (tn : Taint) : (t.addCtl tn).fmap = t.fmap := rfl
@[simp] theorem Thread.addCtl_nf (t : Thread) (tn : Taint) : (t.addCtl tn).nf = t.nf := rfl
@[simp] theorem Thread.addCtl_mode (t : Thread) (tn : Taint) : (t.addCtl tn).mode = t.mode := rfl
@[simp] theorem Thread.addCtl_vl (t : Thread) (tn : Taint) : (t.addCtl tn).vl = t.vl := rfl
@[simp] theorem Thread.addCtl_flags (t : Thread) (tn : Taint) : (t.addCtl tn).flags = t.flags := rfl
@[simp] theorem Thread.addCtl_scm (t : Thread) (tn : Taint) : (t.addCtl tn).scm = t.scm := rfl
@[simp] theorem Thread.addCtl_priv (t : Thread) (tn : Taint) : (t.addCtl tn).priv = t.priv := rfl
@[simp] theorem Thread.addCtl_checked (t : Thread) (tn : Taint) : (t.addCtl tn).checked = t.checked := rfl
@[simp] theorem Thread.addCtl_spfoot (t : Thread) (tn : Taint) : (t.addCtl tn).spfoot = t.spfoot := rfl
@[simp] theorem Thread.addCtl_mrow (t : Thread) (tn : Taint) : (t.addCtl tn).mrow = t.mrow := rfl
@[simp] theorem Thread.addCtl_pidx (t : Thread) (tn : Taint) : (t.addCtl tn).pidx = t.pidx := rfl
@[simp] theorem Thread.addCtl_redlo (t : Thread) (tn : Taint) : (t.addCtl tn).redlo = t.redlo := rfl
@[simp] theorem Thread.addCtl_redhi (t : Thread) (tn : Taint) : (t.addCtl tn).redhi = t.redhi := rfl
@[simp] theorem Thread.addCtl_armed (t : Thread) (tn : Taint) : (t.addCtl tn).armed = t.armed := rfl
@[simp] theorem Thread.addCtl_fmask (t : Thread) (tn : Taint) : (t.addCtl tn).fmask = t.fmask := rfl
@[simp] theorem Thread.addCtl_efr (t : Thread) (tn : Taint) : (t.addCtl tn).efr = t.efr := rfl
@[simp] theorem Thread.addCtl_sptab (t : Thread) (tn : Taint) : (t.addCtl tn).sptab = t.sptab := rfl
@[simp] theorem Thread.addCtl_sporder (t : Thread) (tn : Taint) : (t.addCtl tn).sporder = t.sporder := rfl
@[simp] theorem Thread.addCtl_acc (t : Thread) (tn : Taint) : (t.addCtl tn).acc = t.acc := rfl
@[simp] theorem Thread.addCtl_out (t : Thread) (tn : Taint) : (t.addCtl tn).out = t.out := rfl
@[simp] theorem Thread.addCtl_trap (t : Thread) (tn : Taint) : (t.addCtl tn).trap = t.trap := rfl
@[simp] theorem Thread.addCtl_pend (t : Thread) (tn : Taint) : (t.addCtl tn).pend = t.pend := rfl
@[simp] theorem Thread.addCtl_dbg (t : Thread) (tn : Taint) : (t.addCtl tn).dbg = t.dbg := rfl
@[simp] theorem Thread.addCtl_plies (t : Thread) (tn : Taint) : (t.addCtl tn).plies = t.plies := rfl
@[simp] theorem Thread.addCtl_nextSeq (t : Thread) (tn : Taint) : (t.addCtl tn).nextSeq = t.nextSeq := rfl
@[simp] theorem Thread.addCtl_segs (t : Thread) (tn : Taint) : (t.addCtl tn).segs = t.segs := rfl
@[simp] theorem Thread.addCtl_strip (t : Thread) (tn : Taint) : (t.addCtl tn).strip = t.strip := rfl
@[simp] theorem Thread.addCtl_sleep (t : Thread) (tn : Taint) : (t.addCtl tn).sleep = t.sleep := rfl
@[simp] theorem Thread.addCtl_event (t : Thread) (tn : Taint) : (t.addCtl tn).event = t.event := rfl
@[simp] theorem Thread.addCtl_line (t : Thread) (tn : Taint) : (t.addCtl tn).line = t.line := rfl
@[simp] theorem Thread.addCtl_copyFails (t : Thread) (tn : Taint) : (t.addCtl tn).copyFails = t.copyFails := rfl
@[simp] theorem Thread.addCtl_copyCode (t : Thread) (tn : Taint) : (t.addCtl tn).copyCode = t.copyCode := rfl
@[simp] theorem Thread.addCtl_lease (t : Thread) (tn : Taint) : (t.addCtl tn).lease = t.lease := rfl
@[simp] theorem Thread.addCtl_aged (t : Thread) (tn : Taint) : (t.addCtl tn).aged = t.aged := rfl
@[simp] theorem Thread.addCtl_saveReq (t : Thread) (tn : Taint) : (t.addCtl tn).saveReq = t.saveReq := rfl
@[simp] theorem Thread.addCtl_migrate (t : Thread) (tn : Taint) : (t.addCtl tn).migrate = t.migrate := rfl

/-! ### Thread.setS -/

@[simp] theorem Thread.setS_live (t : Thread) (r : BitVec 6) (v : Dword) (tn : Taint) : (t.setS r v tn).live = t.live := by unfold Thread.setS; split <;> rfl
@[simp] theorem Thread.setS_ended (t : Thread) (r : BitVec 6) (v : Dword) (tn : Taint) : (t.setS r v tn).ended = t.ended := by unfold Thread.setS; split <;> rfl
@[simp] theorem Thread.setS_tid (t : Thread) (r : BitVec 6) (v : Dword) (tn : Taint) : (t.setS r v tn).tid = t.tid := by unfold Thread.setS; split <;> rfl
@[simp] theorem Thread.setS_ctx (t : Thread) (r : BitVec 6) (v : Dword) (tn : Taint) : (t.setS r v tn).ctx = t.ctx := by unfold Thread.setS; split <;> rfl
@[simp] theorem Thread.setS_prio (t : Thread) (r : BitVec 6) (v : Dword) (tn : Taint) : (t.setS r v tn).prio = t.prio := by unfold Thread.setS; split <;> rfl
@[simp] theorem Thread.setS_tier (t : Thread) (r : BitVec 6) (v : Dword) (tn : Taint) : (t.setS r v tn).tier = t.tier := by unfold Thread.setS; split <;> rfl
@[simp] theorem Thread.setS_group (t : Thread) (r : BitVec 6) (v : Dword) (tn : Taint) : (t.setS r v tn).group = t.group := by unfold Thread.setS; split <;> rfl
@[simp] theorem Thread.setS_rank (t : Thread) (r : BitVec 6) (v : Dword) (tn : Taint) : (t.setS r v tn).rank = t.rank := by unfold Thread.setS; split <;> rfl
@[simp] theorem Thread.setS_gsize (t : Thread) (r : BitVec 6) (v : Dword) (tn : Taint) : (t.setS r v tn).gsize = t.gsize := by unfold Thread.setS; split <;> rfl
@[simp] theorem Thread.setS_done (t : Thread) (r : BitVec 6) (v : Dword) (tn : Taint) : (t.setS r v tn).done = t.done := by unfold Thread.setS; split <;> rfl
@[simp] theorem Thread.setS_base (t : Thread) (r : BitVec 6) (v : Dword) (tn : Taint) : (t.setS r v tn).base = t.base := by unfold Thread.setS; split <;> rfl
@[simp] theorem Thread.setS_log2n (t : Thread) (r : BitVec 6) (v : Dword) (tn : Taint) : (t.setS r v tn).log2n = t.log2n := by unfold Thread.setS; split <;> rfl
@[simp] theorem Thread.setS_grant (t : Thread) (r : BitVec 6) (v : Dword) (tn : Taint) : (t.setS r v tn).grant = t.grant := by unfold Thread.setS; split <;> rfl
@[simp] theorem Thread.setS_tiles (t : Thread) (r : BitVec 6) (v : Dword) (tn : Taint) : (t.setS r v tn).tiles = t.tiles := by unfold Thread.setS; split <;> rfl
@[simp] theorem Thread.setS_ceiling (t : Thread) (r : BitVec 6) (v : Dword) (tn : Taint) : (t.setS r v tn).ceiling = t.ceiling := by unfold Thread.setS; split <;> rfl
@[simp] theorem Thread.setS_pc (t : Thread) (r : BitVec 6) (v : Dword) (tn : Taint) : (t.setS r v tn).pc = t.pc := by unfold Thread.setS; split <;> rfl
@[simp] theorem Thread.setS_f (t : Thread) (r : BitVec 6) (v : Dword) (tn : Taint) : (t.setS r v tn).f = t.f := by unfold Thread.setS; split <;> rfl
@[simp] theorem Thread.setS_fmap (t : Thread) (r : BitVec 6) (v : Dword) (tn : Taint) : (t.setS r v tn).fmap = t.fmap := by unfold Thread.setS; split <;> rfl
@[simp] theorem Thread.setS_nf (t : Thread) (r : BitVec 6) (v : Dword) (tn : Taint) : (t.setS r v tn).nf = t.nf := by unfold Thread.setS; split <;> rfl
@[simp] theorem Thread.setS_mode (t : Thread) (r : BitVec 6) (v : Dword) (tn : Taint) : (t.setS r v tn).mode = t.mode := by unfold Thread.setS; split <;> rfl
@[simp] theorem Thread.setS_vl (t : Thread) (r : BitVec 6) (v : Dword) (tn : Taint) : (t.setS r v tn).vl = t.vl := by unfold Thread.setS; split <;> rfl
@[simp] theorem Thread.setS_flags (t : Thread) (r : BitVec 6) (v : Dword) (tn : Taint) : (t.setS r v tn).flags = t.flags := by unfold Thread.setS; split <;> rfl
@[simp] theorem Thread.setS_scm (t : Thread) (r : BitVec 6) (v : Dword) (tn : Taint) : (t.setS r v tn).scm = t.scm := by unfold Thread.setS; split <;> rfl
@[simp] theorem Thread.setS_priv (t : Thread) (r : BitVec 6) (v : Dword) (tn : Taint) : (t.setS r v tn).priv = t.priv := by unfold Thread.setS; split <;> rfl
@[simp] theorem Thread.setS_checked (t : Thread) (r : BitVec 6) (v : Dword) (tn : Taint) : (t.setS r v tn).checked = t.checked := by unfold Thread.setS; split <;> rfl
@[simp] theorem Thread.setS_spfoot (t : Thread) (r : BitVec 6) (v : Dword) (tn : Taint) : (t.setS r v tn).spfoot = t.spfoot := by unfold Thread.setS; split <;> rfl
@[simp] theorem Thread.setS_mrow (t : Thread) (r : BitVec 6) (v : Dword) (tn : Taint) : (t.setS r v tn).mrow = t.mrow := by unfold Thread.setS; split <;> rfl
@[simp] theorem Thread.setS_pidx (t : Thread) (r : BitVec 6) (v : Dword) (tn : Taint) : (t.setS r v tn).pidx = t.pidx := by unfold Thread.setS; split <;> rfl
@[simp] theorem Thread.setS_redlo (t : Thread) (r : BitVec 6) (v : Dword) (tn : Taint) : (t.setS r v tn).redlo = t.redlo := by unfold Thread.setS; split <;> rfl
@[simp] theorem Thread.setS_redhi (t : Thread) (r : BitVec 6) (v : Dword) (tn : Taint) : (t.setS r v tn).redhi = t.redhi := by unfold Thread.setS; split <;> rfl
@[simp] theorem Thread.setS_armed (t : Thread) (r : BitVec 6) (v : Dword) (tn : Taint) : (t.setS r v tn).armed = t.armed := by unfold Thread.setS; split <;> rfl
@[simp] theorem Thread.setS_fmask (t : Thread) (r : BitVec 6) (v : Dword) (tn : Taint) : (t.setS r v tn).fmask = t.fmask := by unfold Thread.setS; split <;> rfl
@[simp] theorem Thread.setS_efr (t : Thread) (r : BitVec 6) (v : Dword) (tn : Taint) : (t.setS r v tn).efr = t.efr := by unfold Thread.setS; split <;> rfl
@[simp] theorem Thread.setS_sptab (t : Thread) (r : BitVec 6) (v : Dword) (tn : Taint) : (t.setS r v tn).sptab = t.sptab := by unfold Thread.setS; split <;> rfl
@[simp] theorem Thread.setS_sporder (t : Thread) (r : BitVec 6) (v : Dword) (tn : Taint) : (t.setS r v tn).sporder = t.sporder := by unfold Thread.setS; split <;> rfl
@[simp] theorem Thread.setS_acc (t : Thread) (r : BitVec 6) (v : Dword) (tn : Taint) : (t.setS r v tn).acc = t.acc := by unfold Thread.setS; split <;> rfl
@[simp] theorem Thread.setS_out (t : Thread) (r : BitVec 6) (v : Dword) (tn : Taint) : (t.setS r v tn).out = t.out := by unfold Thread.setS; split <;> rfl
@[simp] theorem Thread.setS_trap (t : Thread) (r : BitVec 6) (v : Dword) (tn : Taint) : (t.setS r v tn).trap = t.trap := by unfold Thread.setS; split <;> rfl
@[simp] theorem Thread.setS_pend (t : Thread) (r : BitVec 6) (v : Dword) (tn : Taint) : (t.setS r v tn).pend = t.pend := by unfold Thread.setS; split <;> rfl
@[simp] theorem Thread.setS_dbg (t : Thread) (r : BitVec 6) (v : Dword) (tn : Taint) : (t.setS r v tn).dbg = t.dbg := by unfold Thread.setS; split <;> rfl
@[simp] theorem Thread.setS_plies (t : Thread) (r : BitVec 6) (v : Dword) (tn : Taint) : (t.setS r v tn).plies = t.plies := by unfold Thread.setS; split <;> rfl
@[simp] theorem Thread.setS_nextSeq (t : Thread) (r : BitVec 6) (v : Dword) (tn : Taint) : (t.setS r v tn).nextSeq = t.nextSeq := by unfold Thread.setS; split <;> rfl
@[simp] theorem Thread.setS_segs (t : Thread) (r : BitVec 6) (v : Dword) (tn : Taint) : (t.setS r v tn).segs = t.segs := by unfold Thread.setS; split <;> rfl
@[simp] theorem Thread.setS_strip (t : Thread) (r : BitVec 6) (v : Dword) (tn : Taint) : (t.setS r v tn).strip = t.strip := by unfold Thread.setS; split <;> rfl
@[simp] theorem Thread.setS_sleep (t : Thread) (r : BitVec 6) (v : Dword) (tn : Taint) : (t.setS r v tn).sleep = t.sleep := by unfold Thread.setS; split <;> rfl
@[simp] theorem Thread.setS_event (t : Thread) (r : BitVec 6) (v : Dword) (tn : Taint) : (t.setS r v tn).event = t.event := by unfold Thread.setS; split <;> rfl
@[simp] theorem Thread.setS_line (t : Thread) (r : BitVec 6) (v : Dword) (tn : Taint) : (t.setS r v tn).line = t.line := by unfold Thread.setS; split <;> rfl
@[simp] theorem Thread.setS_copyFails (t : Thread) (r : BitVec 6) (v : Dword) (tn : Taint) : (t.setS r v tn).copyFails = t.copyFails := by unfold Thread.setS; split <;> rfl
@[simp] theorem Thread.setS_copyCode (t : Thread) (r : BitVec 6) (v : Dword) (tn : Taint) : (t.setS r v tn).copyCode = t.copyCode := by unfold Thread.setS; split <;> rfl
@[simp] theorem Thread.setS_lease (t : Thread) (r : BitVec 6) (v : Dword) (tn : Taint) : (t.setS r v tn).lease = t.lease := by unfold Thread.setS; split <;> rfl
@[simp] theorem Thread.setS_aged (t : Thread) (r : BitVec 6) (v : Dword) (tn : Taint) : (t.setS r v tn).aged = t.aged := by unfold Thread.setS; split <;> rfl
@[simp] theorem Thread.setS_saveReq (t : Thread) (r : BitVec 6) (v : Dword) (tn : Taint) : (t.setS r v tn).saveReq = t.saveReq := by unfold Thread.setS; split <;> rfl
@[simp] theorem Thread.setS_migrate (t : Thread) (r : BitVec 6) (v : Dword) (tn : Taint) : (t.setS r v tn).migrate = t.migrate := by unfold Thread.setS; split <;> rfl

/-! ### Thread.setF -/

@[simp] theorem Thread.setF_live (t : Thread) (r : BitVec 5) (v : FReg) (tn : Taint) : (t.setF r v tn).live = t.live := rfl
@[simp] theorem Thread.setF_ended (t : Thread) (r : BitVec 5) (v : FReg) (tn : Taint) : (t.setF r v tn).ended = t.ended := rfl
@[simp] theorem Thread.setF_tid (t : Thread) (r : BitVec 5) (v : FReg) (tn : Taint) : (t.setF r v tn).tid = t.tid := rfl
@[simp] theorem Thread.setF_ctx (t : Thread) (r : BitVec 5) (v : FReg) (tn : Taint) : (t.setF r v tn).ctx = t.ctx := rfl
@[simp] theorem Thread.setF_prio (t : Thread) (r : BitVec 5) (v : FReg) (tn : Taint) : (t.setF r v tn).prio = t.prio := rfl
@[simp] theorem Thread.setF_tier (t : Thread) (r : BitVec 5) (v : FReg) (tn : Taint) : (t.setF r v tn).tier = t.tier := rfl
@[simp] theorem Thread.setF_group (t : Thread) (r : BitVec 5) (v : FReg) (tn : Taint) : (t.setF r v tn).group = t.group := rfl
@[simp] theorem Thread.setF_rank (t : Thread) (r : BitVec 5) (v : FReg) (tn : Taint) : (t.setF r v tn).rank = t.rank := rfl
@[simp] theorem Thread.setF_gsize (t : Thread) (r : BitVec 5) (v : FReg) (tn : Taint) : (t.setF r v tn).gsize = t.gsize := rfl
@[simp] theorem Thread.setF_done (t : Thread) (r : BitVec 5) (v : FReg) (tn : Taint) : (t.setF r v tn).done = t.done := rfl
@[simp] theorem Thread.setF_base (t : Thread) (r : BitVec 5) (v : FReg) (tn : Taint) : (t.setF r v tn).base = t.base := rfl
@[simp] theorem Thread.setF_log2n (t : Thread) (r : BitVec 5) (v : FReg) (tn : Taint) : (t.setF r v tn).log2n = t.log2n := rfl
@[simp] theorem Thread.setF_grant (t : Thread) (r : BitVec 5) (v : FReg) (tn : Taint) : (t.setF r v tn).grant = t.grant := rfl
@[simp] theorem Thread.setF_tiles (t : Thread) (r : BitVec 5) (v : FReg) (tn : Taint) : (t.setF r v tn).tiles = t.tiles := rfl
@[simp] theorem Thread.setF_ceiling (t : Thread) (r : BitVec 5) (v : FReg) (tn : Taint) : (t.setF r v tn).ceiling = t.ceiling := rfl
@[simp] theorem Thread.setF_pc (t : Thread) (r : BitVec 5) (v : FReg) (tn : Taint) : (t.setF r v tn).pc = t.pc := rfl
@[simp] theorem Thread.setF_s (t : Thread) (r : BitVec 5) (v : FReg) (tn : Taint) : (t.setF r v tn).s = t.s := rfl
@[simp] theorem Thread.setF_f (t : Thread) (r : BitVec 5) (v : FReg) (tn : Taint) : (t.setF r v tn).f = t.f.set r.toFin v := rfl
@[simp] theorem Thread.setF_fmap (t : Thread) (r : BitVec 5) (v : FReg) (tn : Taint) : (t.setF r v tn).fmap = t.fmap := rfl
@[simp] theorem Thread.setF_nf (t : Thread) (r : BitVec 5) (v : FReg) (tn : Taint) : (t.setF r v tn).nf = t.nf := rfl
@[simp] theorem Thread.setF_mode (t : Thread) (r : BitVec 5) (v : FReg) (tn : Taint) : (t.setF r v tn).mode = t.mode := rfl
@[simp] theorem Thread.setF_vl (t : Thread) (r : BitVec 5) (v : FReg) (tn : Taint) : (t.setF r v tn).vl = t.vl := rfl
@[simp] theorem Thread.setF_flags (t : Thread) (r : BitVec 5) (v : FReg) (tn : Taint) : (t.setF r v tn).flags = t.flags := rfl
@[simp] theorem Thread.setF_scm (t : Thread) (r : BitVec 5) (v : FReg) (tn : Taint) : (t.setF r v tn).scm = t.scm := rfl
@[simp] theorem Thread.setF_priv (t : Thread) (r : BitVec 5) (v : FReg) (tn : Taint) : (t.setF r v tn).priv = t.priv := rfl
@[simp] theorem Thread.setF_checked (t : Thread) (r : BitVec 5) (v : FReg) (tn : Taint) : (t.setF r v tn).checked = t.checked := rfl
@[simp] theorem Thread.setF_spfoot (t : Thread) (r : BitVec 5) (v : FReg) (tn : Taint) : (t.setF r v tn).spfoot = t.spfoot := rfl
@[simp] theorem Thread.setF_mrow (t : Thread) (r : BitVec 5) (v : FReg) (tn : Taint) : (t.setF r v tn).mrow = t.mrow := rfl
@[simp] theorem Thread.setF_pidx (t : Thread) (r : BitVec 5) (v : FReg) (tn : Taint) : (t.setF r v tn).pidx = t.pidx := rfl
@[simp] theorem Thread.setF_redlo (t : Thread) (r : BitVec 5) (v : FReg) (tn : Taint) : (t.setF r v tn).redlo = t.redlo := rfl
@[simp] theorem Thread.setF_redhi (t : Thread) (r : BitVec 5) (v : FReg) (tn : Taint) : (t.setF r v tn).redhi = t.redhi := rfl
@[simp] theorem Thread.setF_armed (t : Thread) (r : BitVec 5) (v : FReg) (tn : Taint) : (t.setF r v tn).armed = t.armed := rfl
@[simp] theorem Thread.setF_fmask (t : Thread) (r : BitVec 5) (v : FReg) (tn : Taint) : (t.setF r v tn).fmask = t.fmask := rfl
@[simp] theorem Thread.setF_efr (t : Thread) (r : BitVec 5) (v : FReg) (tn : Taint) : (t.setF r v tn).efr = t.efr := rfl
@[simp] theorem Thread.setF_sptab (t : Thread) (r : BitVec 5) (v : FReg) (tn : Taint) : (t.setF r v tn).sptab = t.sptab := rfl
@[simp] theorem Thread.setF_sporder (t : Thread) (r : BitVec 5) (v : FReg) (tn : Taint) : (t.setF r v tn).sporder = t.sporder := rfl
@[simp] theorem Thread.setF_acc (t : Thread) (r : BitVec 5) (v : FReg) (tn : Taint) : (t.setF r v tn).acc = t.acc := rfl
@[simp] theorem Thread.setF_out (t : Thread) (r : BitVec 5) (v : FReg) (tn : Taint) : (t.setF r v tn).out = t.out := rfl
@[simp] theorem Thread.setF_trap (t : Thread) (r : BitVec 5) (v : FReg) (tn : Taint) : (t.setF r v tn).trap = t.trap := rfl
@[simp] theorem Thread.setF_pend (t : Thread) (r : BitVec 5) (v : FReg) (tn : Taint) : (t.setF r v tn).pend = t.pend := rfl
@[simp] theorem Thread.setF_dbg (t : Thread) (r : BitVec 5) (v : FReg) (tn : Taint) : (t.setF r v tn).dbg = t.dbg := rfl
@[simp] theorem Thread.setF_plies (t : Thread) (r : BitVec 5) (v : FReg) (tn : Taint) : (t.setF r v tn).plies = t.plies := rfl
@[simp] theorem Thread.setF_nextSeq (t : Thread) (r : BitVec 5) (v : FReg) (tn : Taint) : (t.setF r v tn).nextSeq = t.nextSeq := rfl
@[simp] theorem Thread.setF_segs (t : Thread) (r : BitVec 5) (v : FReg) (tn : Taint) : (t.setF r v tn).segs = t.segs := rfl
@[simp] theorem Thread.setF_strip (t : Thread) (r : BitVec 5) (v : FReg) (tn : Taint) : (t.setF r v tn).strip = t.strip := rfl
@[simp] theorem Thread.setF_sleep (t : Thread) (r : BitVec 5) (v : FReg) (tn : Taint) : (t.setF r v tn).sleep = t.sleep := rfl
@[simp] theorem Thread.setF_event (t : Thread) (r : BitVec 5) (v : FReg) (tn : Taint) : (t.setF r v tn).event = t.event := rfl
@[simp] theorem Thread.setF_line (t : Thread) (r : BitVec 5) (v : FReg) (tn : Taint) : (t.setF r v tn).line = t.line := rfl
@[simp] theorem Thread.setF_copyFails (t : Thread) (r : BitVec 5) (v : FReg) (tn : Taint) : (t.setF r v tn).copyFails = t.copyFails := rfl
@[simp] theorem Thread.setF_copyCode (t : Thread) (r : BitVec 5) (v : FReg) (tn : Taint) : (t.setF r v tn).copyCode = t.copyCode := rfl
@[simp] theorem Thread.setF_lease (t : Thread) (r : BitVec 5) (v : FReg) (tn : Taint) : (t.setF r v tn).lease = t.lease := rfl
@[simp] theorem Thread.setF_aged (t : Thread) (r : BitVec 5) (v : FReg) (tn : Taint) : (t.setF r v tn).aged = t.aged := rfl
@[simp] theorem Thread.setF_saveReq (t : Thread) (r : BitVec 5) (v : FReg) (tn : Taint) : (t.setF r v tn).saveReq = t.saveReq := rfl
@[simp] theorem Thread.setF_migrate (t : Thread) (r : BitVec 5) (v : FReg) (tn : Taint) : (t.setF r v tn).migrate = t.migrate := rfl

/-! ### Thread.setVTaint -/

@[simp] theorem Thread.setVTaint_live (t : Thread) (v : BitVec 6) (tn : Taint) : (t.setVTaint v tn).live = t.live := rfl
@[simp] theorem Thread.setVTaint_ended (t : Thread) (v : BitVec 6) (tn : Taint) : (t.setVTaint v tn).ended = t.ended := rfl
@[simp] theorem Thread.setVTaint_tid (t : Thread) (v : BitVec 6) (tn : Taint) : (t.setVTaint v tn).tid = t.tid := rfl
@[simp] theorem Thread.setVTaint_ctx (t : Thread) (v : BitVec 6) (tn : Taint) : (t.setVTaint v tn).ctx = t.ctx := rfl
@[simp] theorem Thread.setVTaint_prio (t : Thread) (v : BitVec 6) (tn : Taint) : (t.setVTaint v tn).prio = t.prio := rfl
@[simp] theorem Thread.setVTaint_tier (t : Thread) (v : BitVec 6) (tn : Taint) : (t.setVTaint v tn).tier = t.tier := rfl
@[simp] theorem Thread.setVTaint_group (t : Thread) (v : BitVec 6) (tn : Taint) : (t.setVTaint v tn).group = t.group := rfl
@[simp] theorem Thread.setVTaint_rank (t : Thread) (v : BitVec 6) (tn : Taint) : (t.setVTaint v tn).rank = t.rank := rfl
@[simp] theorem Thread.setVTaint_gsize (t : Thread) (v : BitVec 6) (tn : Taint) : (t.setVTaint v tn).gsize = t.gsize := rfl
@[simp] theorem Thread.setVTaint_done (t : Thread) (v : BitVec 6) (tn : Taint) : (t.setVTaint v tn).done = t.done := rfl
@[simp] theorem Thread.setVTaint_base (t : Thread) (v : BitVec 6) (tn : Taint) : (t.setVTaint v tn).base = t.base := rfl
@[simp] theorem Thread.setVTaint_log2n (t : Thread) (v : BitVec 6) (tn : Taint) : (t.setVTaint v tn).log2n = t.log2n := rfl
@[simp] theorem Thread.setVTaint_grant (t : Thread) (v : BitVec 6) (tn : Taint) : (t.setVTaint v tn).grant = t.grant := rfl
@[simp] theorem Thread.setVTaint_tiles (t : Thread) (v : BitVec 6) (tn : Taint) : (t.setVTaint v tn).tiles = t.tiles := rfl
@[simp] theorem Thread.setVTaint_ceiling (t : Thread) (v : BitVec 6) (tn : Taint) : (t.setVTaint v tn).ceiling = t.ceiling := rfl
@[simp] theorem Thread.setVTaint_pc (t : Thread) (v : BitVec 6) (tn : Taint) : (t.setVTaint v tn).pc = t.pc := rfl
@[simp] theorem Thread.setVTaint_s (t : Thread) (v : BitVec 6) (tn : Taint) : (t.setVTaint v tn).s = t.s := rfl
@[simp] theorem Thread.setVTaint_f (t : Thread) (v : BitVec 6) (tn : Taint) : (t.setVTaint v tn).f = t.f := rfl
@[simp] theorem Thread.setVTaint_fmap (t : Thread) (v : BitVec 6) (tn : Taint) : (t.setVTaint v tn).fmap = t.fmap := rfl
@[simp] theorem Thread.setVTaint_nf (t : Thread) (v : BitVec 6) (tn : Taint) : (t.setVTaint v tn).nf = t.nf := rfl
@[simp] theorem Thread.setVTaint_mode (t : Thread) (v : BitVec 6) (tn : Taint) : (t.setVTaint v tn).mode = t.mode := rfl
@[simp] theorem Thread.setVTaint_vl (t : Thread) (v : BitVec 6) (tn : Taint) : (t.setVTaint v tn).vl = t.vl := rfl
@[simp] theorem Thread.setVTaint_flags (t : Thread) (v : BitVec 6) (tn : Taint) : (t.setVTaint v tn).flags = t.flags := rfl
@[simp] theorem Thread.setVTaint_scm (t : Thread) (v : BitVec 6) (tn : Taint) : (t.setVTaint v tn).scm = t.scm := rfl
@[simp] theorem Thread.setVTaint_priv (t : Thread) (v : BitVec 6) (tn : Taint) : (t.setVTaint v tn).priv = t.priv := rfl
@[simp] theorem Thread.setVTaint_checked (t : Thread) (v : BitVec 6) (tn : Taint) : (t.setVTaint v tn).checked = t.checked := rfl
@[simp] theorem Thread.setVTaint_spfoot (t : Thread) (v : BitVec 6) (tn : Taint) : (t.setVTaint v tn).spfoot = t.spfoot := rfl
@[simp] theorem Thread.setVTaint_mrow (t : Thread) (v : BitVec 6) (tn : Taint) : (t.setVTaint v tn).mrow = t.mrow := rfl
@[simp] theorem Thread.setVTaint_pidx (t : Thread) (v : BitVec 6) (tn : Taint) : (t.setVTaint v tn).pidx = t.pidx := rfl
@[simp] theorem Thread.setVTaint_redlo (t : Thread) (v : BitVec 6) (tn : Taint) : (t.setVTaint v tn).redlo = t.redlo := rfl
@[simp] theorem Thread.setVTaint_redhi (t : Thread) (v : BitVec 6) (tn : Taint) : (t.setVTaint v tn).redhi = t.redhi := rfl
@[simp] theorem Thread.setVTaint_armed (t : Thread) (v : BitVec 6) (tn : Taint) : (t.setVTaint v tn).armed = t.armed := rfl
@[simp] theorem Thread.setVTaint_fmask (t : Thread) (v : BitVec 6) (tn : Taint) : (t.setVTaint v tn).fmask = t.fmask := rfl
@[simp] theorem Thread.setVTaint_efr (t : Thread) (v : BitVec 6) (tn : Taint) : (t.setVTaint v tn).efr = t.efr := rfl
@[simp] theorem Thread.setVTaint_sptab (t : Thread) (v : BitVec 6) (tn : Taint) : (t.setVTaint v tn).sptab = t.sptab := rfl
@[simp] theorem Thread.setVTaint_sporder (t : Thread) (v : BitVec 6) (tn : Taint) : (t.setVTaint v tn).sporder = t.sporder := rfl
@[simp] theorem Thread.setVTaint_acc (t : Thread) (v : BitVec 6) (tn : Taint) : (t.setVTaint v tn).acc = t.acc := rfl
@[simp] theorem Thread.setVTaint_out (t : Thread) (v : BitVec 6) (tn : Taint) : (t.setVTaint v tn).out = t.out := rfl
@[simp] theorem Thread.setVTaint_trap (t : Thread) (v : BitVec 6) (tn : Taint) : (t.setVTaint v tn).trap = t.trap := rfl
@[simp] theorem Thread.setVTaint_pend (t : Thread) (v : BitVec 6) (tn : Taint) : (t.setVTaint v tn).pend = t.pend := rfl
@[simp] theorem Thread.setVTaint_dbg (t : Thread) (v : BitVec 6) (tn : Taint) : (t.setVTaint v tn).dbg = t.dbg := rfl
@[simp] theorem Thread.setVTaint_plies (t : Thread) (v : BitVec 6) (tn : Taint) : (t.setVTaint v tn).plies = t.plies := rfl
@[simp] theorem Thread.setVTaint_nextSeq (t : Thread) (v : BitVec 6) (tn : Taint) : (t.setVTaint v tn).nextSeq = t.nextSeq := rfl
@[simp] theorem Thread.setVTaint_segs (t : Thread) (v : BitVec 6) (tn : Taint) : (t.setVTaint v tn).segs = t.segs := rfl
@[simp] theorem Thread.setVTaint_strip (t : Thread) (v : BitVec 6) (tn : Taint) : (t.setVTaint v tn).strip = t.strip := rfl
@[simp] theorem Thread.setVTaint_sleep (t : Thread) (v : BitVec 6) (tn : Taint) : (t.setVTaint v tn).sleep = t.sleep := rfl
@[simp] theorem Thread.setVTaint_event (t : Thread) (v : BitVec 6) (tn : Taint) : (t.setVTaint v tn).event = t.event := rfl
@[simp] theorem Thread.setVTaint_line (t : Thread) (v : BitVec 6) (tn : Taint) : (t.setVTaint v tn).line = t.line := rfl
@[simp] theorem Thread.setVTaint_copyFails (t : Thread) (v : BitVec 6) (tn : Taint) : (t.setVTaint v tn).copyFails = t.copyFails := rfl
@[simp] theorem Thread.setVTaint_copyCode (t : Thread) (v : BitVec 6) (tn : Taint) : (t.setVTaint v tn).copyCode = t.copyCode := rfl
@[simp] theorem Thread.setVTaint_lease (t : Thread) (v : BitVec 6) (tn : Taint) : (t.setVTaint v tn).lease = t.lease := rfl
@[simp] theorem Thread.setVTaint_aged (t : Thread) (v : BitVec 6) (tn : Taint) : (t.setVTaint v tn).aged = t.aged := rfl
@[simp] theorem Thread.setVTaint_saveReq (t : Thread) (v : BitVec 6) (tn : Taint) : (t.setVTaint v tn).saveReq = t.saveReq := rfl
@[simp] theorem Thread.setVTaint_migrate (t : Thread) (v : BitVec 6) (tn : Taint) : (t.setVTaint v tn).migrate = t.migrate := rfl

/-! ### Thread.setKTaint -/

@[simp] theorem Thread.setKTaint_live (t : Thread) (k : BitVec 4) (tn : Taint) : (t.setKTaint k tn).live = t.live := by unfold Thread.setKTaint; split <;> rfl
@[simp] theorem Thread.setKTaint_ended (t : Thread) (k : BitVec 4) (tn : Taint) : (t.setKTaint k tn).ended = t.ended := by unfold Thread.setKTaint; split <;> rfl
@[simp] theorem Thread.setKTaint_tid (t : Thread) (k : BitVec 4) (tn : Taint) : (t.setKTaint k tn).tid = t.tid := by unfold Thread.setKTaint; split <;> rfl
@[simp] theorem Thread.setKTaint_ctx (t : Thread) (k : BitVec 4) (tn : Taint) : (t.setKTaint k tn).ctx = t.ctx := by unfold Thread.setKTaint; split <;> rfl
@[simp] theorem Thread.setKTaint_prio (t : Thread) (k : BitVec 4) (tn : Taint) : (t.setKTaint k tn).prio = t.prio := by unfold Thread.setKTaint; split <;> rfl
@[simp] theorem Thread.setKTaint_tier (t : Thread) (k : BitVec 4) (tn : Taint) : (t.setKTaint k tn).tier = t.tier := by unfold Thread.setKTaint; split <;> rfl
@[simp] theorem Thread.setKTaint_group (t : Thread) (k : BitVec 4) (tn : Taint) : (t.setKTaint k tn).group = t.group := by unfold Thread.setKTaint; split <;> rfl
@[simp] theorem Thread.setKTaint_rank (t : Thread) (k : BitVec 4) (tn : Taint) : (t.setKTaint k tn).rank = t.rank := by unfold Thread.setKTaint; split <;> rfl
@[simp] theorem Thread.setKTaint_gsize (t : Thread) (k : BitVec 4) (tn : Taint) : (t.setKTaint k tn).gsize = t.gsize := by unfold Thread.setKTaint; split <;> rfl
@[simp] theorem Thread.setKTaint_done (t : Thread) (k : BitVec 4) (tn : Taint) : (t.setKTaint k tn).done = t.done := by unfold Thread.setKTaint; split <;> rfl
@[simp] theorem Thread.setKTaint_base (t : Thread) (k : BitVec 4) (tn : Taint) : (t.setKTaint k tn).base = t.base := by unfold Thread.setKTaint; split <;> rfl
@[simp] theorem Thread.setKTaint_log2n (t : Thread) (k : BitVec 4) (tn : Taint) : (t.setKTaint k tn).log2n = t.log2n := by unfold Thread.setKTaint; split <;> rfl
@[simp] theorem Thread.setKTaint_grant (t : Thread) (k : BitVec 4) (tn : Taint) : (t.setKTaint k tn).grant = t.grant := by unfold Thread.setKTaint; split <;> rfl
@[simp] theorem Thread.setKTaint_tiles (t : Thread) (k : BitVec 4) (tn : Taint) : (t.setKTaint k tn).tiles = t.tiles := by unfold Thread.setKTaint; split <;> rfl
@[simp] theorem Thread.setKTaint_ceiling (t : Thread) (k : BitVec 4) (tn : Taint) : (t.setKTaint k tn).ceiling = t.ceiling := by unfold Thread.setKTaint; split <;> rfl
@[simp] theorem Thread.setKTaint_pc (t : Thread) (k : BitVec 4) (tn : Taint) : (t.setKTaint k tn).pc = t.pc := by unfold Thread.setKTaint; split <;> rfl
@[simp] theorem Thread.setKTaint_s (t : Thread) (k : BitVec 4) (tn : Taint) : (t.setKTaint k tn).s = t.s := by unfold Thread.setKTaint; split <;> rfl
@[simp] theorem Thread.setKTaint_f (t : Thread) (k : BitVec 4) (tn : Taint) : (t.setKTaint k tn).f = t.f := by unfold Thread.setKTaint; split <;> rfl
@[simp] theorem Thread.setKTaint_fmap (t : Thread) (k : BitVec 4) (tn : Taint) : (t.setKTaint k tn).fmap = t.fmap := by unfold Thread.setKTaint; split <;> rfl
@[simp] theorem Thread.setKTaint_nf (t : Thread) (k : BitVec 4) (tn : Taint) : (t.setKTaint k tn).nf = t.nf := by unfold Thread.setKTaint; split <;> rfl
@[simp] theorem Thread.setKTaint_mode (t : Thread) (k : BitVec 4) (tn : Taint) : (t.setKTaint k tn).mode = t.mode := by unfold Thread.setKTaint; split <;> rfl
@[simp] theorem Thread.setKTaint_vl (t : Thread) (k : BitVec 4) (tn : Taint) : (t.setKTaint k tn).vl = t.vl := by unfold Thread.setKTaint; split <;> rfl
@[simp] theorem Thread.setKTaint_flags (t : Thread) (k : BitVec 4) (tn : Taint) : (t.setKTaint k tn).flags = t.flags := by unfold Thread.setKTaint; split <;> rfl
@[simp] theorem Thread.setKTaint_scm (t : Thread) (k : BitVec 4) (tn : Taint) : (t.setKTaint k tn).scm = t.scm := by unfold Thread.setKTaint; split <;> rfl
@[simp] theorem Thread.setKTaint_priv (t : Thread) (k : BitVec 4) (tn : Taint) : (t.setKTaint k tn).priv = t.priv := by unfold Thread.setKTaint; split <;> rfl
@[simp] theorem Thread.setKTaint_checked (t : Thread) (k : BitVec 4) (tn : Taint) : (t.setKTaint k tn).checked = t.checked := by unfold Thread.setKTaint; split <;> rfl
@[simp] theorem Thread.setKTaint_spfoot (t : Thread) (k : BitVec 4) (tn : Taint) : (t.setKTaint k tn).spfoot = t.spfoot := by unfold Thread.setKTaint; split <;> rfl
@[simp] theorem Thread.setKTaint_mrow (t : Thread) (k : BitVec 4) (tn : Taint) : (t.setKTaint k tn).mrow = t.mrow := by unfold Thread.setKTaint; split <;> rfl
@[simp] theorem Thread.setKTaint_pidx (t : Thread) (k : BitVec 4) (tn : Taint) : (t.setKTaint k tn).pidx = t.pidx := by unfold Thread.setKTaint; split <;> rfl
@[simp] theorem Thread.setKTaint_redlo (t : Thread) (k : BitVec 4) (tn : Taint) : (t.setKTaint k tn).redlo = t.redlo := by unfold Thread.setKTaint; split <;> rfl
@[simp] theorem Thread.setKTaint_redhi (t : Thread) (k : BitVec 4) (tn : Taint) : (t.setKTaint k tn).redhi = t.redhi := by unfold Thread.setKTaint; split <;> rfl
@[simp] theorem Thread.setKTaint_armed (t : Thread) (k : BitVec 4) (tn : Taint) : (t.setKTaint k tn).armed = t.armed := by unfold Thread.setKTaint; split <;> rfl
@[simp] theorem Thread.setKTaint_fmask (t : Thread) (k : BitVec 4) (tn : Taint) : (t.setKTaint k tn).fmask = t.fmask := by unfold Thread.setKTaint; split <;> rfl
@[simp] theorem Thread.setKTaint_efr (t : Thread) (k : BitVec 4) (tn : Taint) : (t.setKTaint k tn).efr = t.efr := by unfold Thread.setKTaint; split <;> rfl
@[simp] theorem Thread.setKTaint_sptab (t : Thread) (k : BitVec 4) (tn : Taint) : (t.setKTaint k tn).sptab = t.sptab := by unfold Thread.setKTaint; split <;> rfl
@[simp] theorem Thread.setKTaint_sporder (t : Thread) (k : BitVec 4) (tn : Taint) : (t.setKTaint k tn).sporder = t.sporder := by unfold Thread.setKTaint; split <;> rfl
@[simp] theorem Thread.setKTaint_acc (t : Thread) (k : BitVec 4) (tn : Taint) : (t.setKTaint k tn).acc = t.acc := by unfold Thread.setKTaint; split <;> rfl
@[simp] theorem Thread.setKTaint_out (t : Thread) (k : BitVec 4) (tn : Taint) : (t.setKTaint k tn).out = t.out := by unfold Thread.setKTaint; split <;> rfl
@[simp] theorem Thread.setKTaint_trap (t : Thread) (k : BitVec 4) (tn : Taint) : (t.setKTaint k tn).trap = t.trap := by unfold Thread.setKTaint; split <;> rfl
@[simp] theorem Thread.setKTaint_pend (t : Thread) (k : BitVec 4) (tn : Taint) : (t.setKTaint k tn).pend = t.pend := by unfold Thread.setKTaint; split <;> rfl
@[simp] theorem Thread.setKTaint_dbg (t : Thread) (k : BitVec 4) (tn : Taint) : (t.setKTaint k tn).dbg = t.dbg := by unfold Thread.setKTaint; split <;> rfl
@[simp] theorem Thread.setKTaint_plies (t : Thread) (k : BitVec 4) (tn : Taint) : (t.setKTaint k tn).plies = t.plies := by unfold Thread.setKTaint; split <;> rfl
@[simp] theorem Thread.setKTaint_nextSeq (t : Thread) (k : BitVec 4) (tn : Taint) : (t.setKTaint k tn).nextSeq = t.nextSeq := by unfold Thread.setKTaint; split <;> rfl
@[simp] theorem Thread.setKTaint_segs (t : Thread) (k : BitVec 4) (tn : Taint) : (t.setKTaint k tn).segs = t.segs := by unfold Thread.setKTaint; split <;> rfl
@[simp] theorem Thread.setKTaint_strip (t : Thread) (k : BitVec 4) (tn : Taint) : (t.setKTaint k tn).strip = t.strip := by unfold Thread.setKTaint; split <;> rfl
@[simp] theorem Thread.setKTaint_sleep (t : Thread) (k : BitVec 4) (tn : Taint) : (t.setKTaint k tn).sleep = t.sleep := by unfold Thread.setKTaint; split <;> rfl
@[simp] theorem Thread.setKTaint_event (t : Thread) (k : BitVec 4) (tn : Taint) : (t.setKTaint k tn).event = t.event := by unfold Thread.setKTaint; split <;> rfl
@[simp] theorem Thread.setKTaint_line (t : Thread) (k : BitVec 4) (tn : Taint) : (t.setKTaint k tn).line = t.line := by unfold Thread.setKTaint; split <;> rfl
@[simp] theorem Thread.setKTaint_copyFails (t : Thread) (k : BitVec 4) (tn : Taint) : (t.setKTaint k tn).copyFails = t.copyFails := by unfold Thread.setKTaint; split <;> rfl
@[simp] theorem Thread.setKTaint_copyCode (t : Thread) (k : BitVec 4) (tn : Taint) : (t.setKTaint k tn).copyCode = t.copyCode := by unfold Thread.setKTaint; split <;> rfl
@[simp] theorem Thread.setKTaint_lease (t : Thread) (k : BitVec 4) (tn : Taint) : (t.setKTaint k tn).lease = t.lease := by unfold Thread.setKTaint; split <;> rfl
@[simp] theorem Thread.setKTaint_aged (t : Thread) (k : BitVec 4) (tn : Taint) : (t.setKTaint k tn).aged = t.aged := by unfold Thread.setKTaint; split <;> rfl
@[simp] theorem Thread.setKTaint_saveReq (t : Thread) (k : BitVec 4) (tn : Taint) : (t.setKTaint k tn).saveReq = t.saveReq := by unfold Thread.setKTaint; split <;> rfl
@[simp] theorem Thread.setKTaint_migrate (t : Thread) (k : BitVec 4) (tn : Taint) : (t.setKTaint k tn).migrate = t.migrate := by unfold Thread.setKTaint; split <;> rfl

/-! ### Thread.setAccTaint -/

@[simp] theorem Thread.setAccTaint_live (t : Thread) (n : BitVec 2) (tn : Taint) : (t.setAccTaint n tn).live = t.live := rfl
@[simp] theorem Thread.setAccTaint_ended (t : Thread) (n : BitVec 2) (tn : Taint) : (t.setAccTaint n tn).ended = t.ended := rfl
@[simp] theorem Thread.setAccTaint_tid (t : Thread) (n : BitVec 2) (tn : Taint) : (t.setAccTaint n tn).tid = t.tid := rfl
@[simp] theorem Thread.setAccTaint_ctx (t : Thread) (n : BitVec 2) (tn : Taint) : (t.setAccTaint n tn).ctx = t.ctx := rfl
@[simp] theorem Thread.setAccTaint_prio (t : Thread) (n : BitVec 2) (tn : Taint) : (t.setAccTaint n tn).prio = t.prio := rfl
@[simp] theorem Thread.setAccTaint_tier (t : Thread) (n : BitVec 2) (tn : Taint) : (t.setAccTaint n tn).tier = t.tier := rfl
@[simp] theorem Thread.setAccTaint_group (t : Thread) (n : BitVec 2) (tn : Taint) : (t.setAccTaint n tn).group = t.group := rfl
@[simp] theorem Thread.setAccTaint_rank (t : Thread) (n : BitVec 2) (tn : Taint) : (t.setAccTaint n tn).rank = t.rank := rfl
@[simp] theorem Thread.setAccTaint_gsize (t : Thread) (n : BitVec 2) (tn : Taint) : (t.setAccTaint n tn).gsize = t.gsize := rfl
@[simp] theorem Thread.setAccTaint_done (t : Thread) (n : BitVec 2) (tn : Taint) : (t.setAccTaint n tn).done = t.done := rfl
@[simp] theorem Thread.setAccTaint_base (t : Thread) (n : BitVec 2) (tn : Taint) : (t.setAccTaint n tn).base = t.base := rfl
@[simp] theorem Thread.setAccTaint_log2n (t : Thread) (n : BitVec 2) (tn : Taint) : (t.setAccTaint n tn).log2n = t.log2n := rfl
@[simp] theorem Thread.setAccTaint_grant (t : Thread) (n : BitVec 2) (tn : Taint) : (t.setAccTaint n tn).grant = t.grant := rfl
@[simp] theorem Thread.setAccTaint_tiles (t : Thread) (n : BitVec 2) (tn : Taint) : (t.setAccTaint n tn).tiles = t.tiles := rfl
@[simp] theorem Thread.setAccTaint_ceiling (t : Thread) (n : BitVec 2) (tn : Taint) : (t.setAccTaint n tn).ceiling = t.ceiling := rfl
@[simp] theorem Thread.setAccTaint_pc (t : Thread) (n : BitVec 2) (tn : Taint) : (t.setAccTaint n tn).pc = t.pc := rfl
@[simp] theorem Thread.setAccTaint_s (t : Thread) (n : BitVec 2) (tn : Taint) : (t.setAccTaint n tn).s = t.s := rfl
@[simp] theorem Thread.setAccTaint_f (t : Thread) (n : BitVec 2) (tn : Taint) : (t.setAccTaint n tn).f = t.f := rfl
@[simp] theorem Thread.setAccTaint_fmap (t : Thread) (n : BitVec 2) (tn : Taint) : (t.setAccTaint n tn).fmap = t.fmap := rfl
@[simp] theorem Thread.setAccTaint_nf (t : Thread) (n : BitVec 2) (tn : Taint) : (t.setAccTaint n tn).nf = t.nf := rfl
@[simp] theorem Thread.setAccTaint_mode (t : Thread) (n : BitVec 2) (tn : Taint) : (t.setAccTaint n tn).mode = t.mode := rfl
@[simp] theorem Thread.setAccTaint_vl (t : Thread) (n : BitVec 2) (tn : Taint) : (t.setAccTaint n tn).vl = t.vl := rfl
@[simp] theorem Thread.setAccTaint_flags (t : Thread) (n : BitVec 2) (tn : Taint) : (t.setAccTaint n tn).flags = t.flags := rfl
@[simp] theorem Thread.setAccTaint_scm (t : Thread) (n : BitVec 2) (tn : Taint) : (t.setAccTaint n tn).scm = t.scm := rfl
@[simp] theorem Thread.setAccTaint_priv (t : Thread) (n : BitVec 2) (tn : Taint) : (t.setAccTaint n tn).priv = t.priv := rfl
@[simp] theorem Thread.setAccTaint_checked (t : Thread) (n : BitVec 2) (tn : Taint) : (t.setAccTaint n tn).checked = t.checked := rfl
@[simp] theorem Thread.setAccTaint_spfoot (t : Thread) (n : BitVec 2) (tn : Taint) : (t.setAccTaint n tn).spfoot = t.spfoot := rfl
@[simp] theorem Thread.setAccTaint_mrow (t : Thread) (n : BitVec 2) (tn : Taint) : (t.setAccTaint n tn).mrow = t.mrow := rfl
@[simp] theorem Thread.setAccTaint_pidx (t : Thread) (n : BitVec 2) (tn : Taint) : (t.setAccTaint n tn).pidx = t.pidx := rfl
@[simp] theorem Thread.setAccTaint_redlo (t : Thread) (n : BitVec 2) (tn : Taint) : (t.setAccTaint n tn).redlo = t.redlo := rfl
@[simp] theorem Thread.setAccTaint_redhi (t : Thread) (n : BitVec 2) (tn : Taint) : (t.setAccTaint n tn).redhi = t.redhi := rfl
@[simp] theorem Thread.setAccTaint_armed (t : Thread) (n : BitVec 2) (tn : Taint) : (t.setAccTaint n tn).armed = t.armed := rfl
@[simp] theorem Thread.setAccTaint_fmask (t : Thread) (n : BitVec 2) (tn : Taint) : (t.setAccTaint n tn).fmask = t.fmask := rfl
@[simp] theorem Thread.setAccTaint_efr (t : Thread) (n : BitVec 2) (tn : Taint) : (t.setAccTaint n tn).efr = t.efr := rfl
@[simp] theorem Thread.setAccTaint_sptab (t : Thread) (n : BitVec 2) (tn : Taint) : (t.setAccTaint n tn).sptab = t.sptab := rfl
@[simp] theorem Thread.setAccTaint_sporder (t : Thread) (n : BitVec 2) (tn : Taint) : (t.setAccTaint n tn).sporder = t.sporder := rfl
@[simp] theorem Thread.setAccTaint_acc (t : Thread) (n : BitVec 2) (tn : Taint) : (t.setAccTaint n tn).acc = t.acc := rfl
@[simp] theorem Thread.setAccTaint_out (t : Thread) (n : BitVec 2) (tn : Taint) : (t.setAccTaint n tn).out = t.out := rfl
@[simp] theorem Thread.setAccTaint_trap (t : Thread) (n : BitVec 2) (tn : Taint) : (t.setAccTaint n tn).trap = t.trap := rfl
@[simp] theorem Thread.setAccTaint_pend (t : Thread) (n : BitVec 2) (tn : Taint) : (t.setAccTaint n tn).pend = t.pend := rfl
@[simp] theorem Thread.setAccTaint_dbg (t : Thread) (n : BitVec 2) (tn : Taint) : (t.setAccTaint n tn).dbg = t.dbg := rfl
@[simp] theorem Thread.setAccTaint_plies (t : Thread) (n : BitVec 2) (tn : Taint) : (t.setAccTaint n tn).plies = t.plies := rfl
@[simp] theorem Thread.setAccTaint_nextSeq (t : Thread) (n : BitVec 2) (tn : Taint) : (t.setAccTaint n tn).nextSeq = t.nextSeq := rfl
@[simp] theorem Thread.setAccTaint_segs (t : Thread) (n : BitVec 2) (tn : Taint) : (t.setAccTaint n tn).segs = t.segs := rfl
@[simp] theorem Thread.setAccTaint_strip (t : Thread) (n : BitVec 2) (tn : Taint) : (t.setAccTaint n tn).strip = t.strip := rfl
@[simp] theorem Thread.setAccTaint_sleep (t : Thread) (n : BitVec 2) (tn : Taint) : (t.setAccTaint n tn).sleep = t.sleep := rfl
@[simp] theorem Thread.setAccTaint_event (t : Thread) (n : BitVec 2) (tn : Taint) : (t.setAccTaint n tn).event = t.event := rfl
@[simp] theorem Thread.setAccTaint_line (t : Thread) (n : BitVec 2) (tn : Taint) : (t.setAccTaint n tn).line = t.line := rfl
@[simp] theorem Thread.setAccTaint_copyFails (t : Thread) (n : BitVec 2) (tn : Taint) : (t.setAccTaint n tn).copyFails = t.copyFails := rfl
@[simp] theorem Thread.setAccTaint_copyCode (t : Thread) (n : BitVec 2) (tn : Taint) : (t.setAccTaint n tn).copyCode = t.copyCode := rfl
@[simp] theorem Thread.setAccTaint_lease (t : Thread) (n : BitVec 2) (tn : Taint) : (t.setAccTaint n tn).lease = t.lease := rfl
@[simp] theorem Thread.setAccTaint_aged (t : Thread) (n : BitVec 2) (tn : Taint) : (t.setAccTaint n tn).aged = t.aged := rfl
@[simp] theorem Thread.setAccTaint_saveReq (t : Thread) (n : BitVec 2) (tn : Taint) : (t.setAccTaint n tn).saveReq = t.saveReq := rfl
@[simp] theorem Thread.setAccTaint_migrate (t : Thread) (n : BitVec 2) (tn : Taint) : (t.setAccTaint n tn).migrate = t.migrate := rfl

/-! ### Thread.setPly -/

@[simp] theorem Thread.setPly_live (t : Thread) (j : Nat) (p : Ply) : (t.setPly j p).live = t.live := rfl
@[simp] theorem Thread.setPly_ended (t : Thread) (j : Nat) (p : Ply) : (t.setPly j p).ended = t.ended := rfl
@[simp] theorem Thread.setPly_tid (t : Thread) (j : Nat) (p : Ply) : (t.setPly j p).tid = t.tid := rfl
@[simp] theorem Thread.setPly_ctx (t : Thread) (j : Nat) (p : Ply) : (t.setPly j p).ctx = t.ctx := rfl
@[simp] theorem Thread.setPly_prio (t : Thread) (j : Nat) (p : Ply) : (t.setPly j p).prio = t.prio := rfl
@[simp] theorem Thread.setPly_tier (t : Thread) (j : Nat) (p : Ply) : (t.setPly j p).tier = t.tier := rfl
@[simp] theorem Thread.setPly_group (t : Thread) (j : Nat) (p : Ply) : (t.setPly j p).group = t.group := rfl
@[simp] theorem Thread.setPly_rank (t : Thread) (j : Nat) (p : Ply) : (t.setPly j p).rank = t.rank := rfl
@[simp] theorem Thread.setPly_gsize (t : Thread) (j : Nat) (p : Ply) : (t.setPly j p).gsize = t.gsize := rfl
@[simp] theorem Thread.setPly_done (t : Thread) (j : Nat) (p : Ply) : (t.setPly j p).done = t.done := rfl
@[simp] theorem Thread.setPly_base (t : Thread) (j : Nat) (p : Ply) : (t.setPly j p).base = t.base := rfl
@[simp] theorem Thread.setPly_log2n (t : Thread) (j : Nat) (p : Ply) : (t.setPly j p).log2n = t.log2n := rfl
@[simp] theorem Thread.setPly_grant (t : Thread) (j : Nat) (p : Ply) : (t.setPly j p).grant = t.grant := rfl
@[simp] theorem Thread.setPly_tiles (t : Thread) (j : Nat) (p : Ply) : (t.setPly j p).tiles = t.tiles := rfl
@[simp] theorem Thread.setPly_ceiling (t : Thread) (j : Nat) (p : Ply) : (t.setPly j p).ceiling = t.ceiling := rfl
@[simp] theorem Thread.setPly_pc (t : Thread) (j : Nat) (p : Ply) : (t.setPly j p).pc = t.pc := rfl
@[simp] theorem Thread.setPly_s (t : Thread) (j : Nat) (p : Ply) : (t.setPly j p).s = t.s := rfl
@[simp] theorem Thread.setPly_f (t : Thread) (j : Nat) (p : Ply) : (t.setPly j p).f = t.f := rfl
@[simp] theorem Thread.setPly_fmap (t : Thread) (j : Nat) (p : Ply) : (t.setPly j p).fmap = t.fmap := rfl
@[simp] theorem Thread.setPly_nf (t : Thread) (j : Nat) (p : Ply) : (t.setPly j p).nf = t.nf := rfl
@[simp] theorem Thread.setPly_mode (t : Thread) (j : Nat) (p : Ply) : (t.setPly j p).mode = t.mode := rfl
@[simp] theorem Thread.setPly_vl (t : Thread) (j : Nat) (p : Ply) : (t.setPly j p).vl = t.vl := rfl
@[simp] theorem Thread.setPly_flags (t : Thread) (j : Nat) (p : Ply) : (t.setPly j p).flags = t.flags := rfl
@[simp] theorem Thread.setPly_scm (t : Thread) (j : Nat) (p : Ply) : (t.setPly j p).scm = t.scm := rfl
@[simp] theorem Thread.setPly_priv (t : Thread) (j : Nat) (p : Ply) : (t.setPly j p).priv = t.priv := rfl
@[simp] theorem Thread.setPly_checked (t : Thread) (j : Nat) (p : Ply) : (t.setPly j p).checked = t.checked := rfl
@[simp] theorem Thread.setPly_spfoot (t : Thread) (j : Nat) (p : Ply) : (t.setPly j p).spfoot = t.spfoot := rfl
@[simp] theorem Thread.setPly_mrow (t : Thread) (j : Nat) (p : Ply) : (t.setPly j p).mrow = t.mrow := rfl
@[simp] theorem Thread.setPly_pidx (t : Thread) (j : Nat) (p : Ply) : (t.setPly j p).pidx = t.pidx := rfl
@[simp] theorem Thread.setPly_redlo (t : Thread) (j : Nat) (p : Ply) : (t.setPly j p).redlo = t.redlo := rfl
@[simp] theorem Thread.setPly_redhi (t : Thread) (j : Nat) (p : Ply) : (t.setPly j p).redhi = t.redhi := rfl
@[simp] theorem Thread.setPly_armed (t : Thread) (j : Nat) (p : Ply) : (t.setPly j p).armed = t.armed := rfl
@[simp] theorem Thread.setPly_fmask (t : Thread) (j : Nat) (p : Ply) : (t.setPly j p).fmask = t.fmask := rfl
@[simp] theorem Thread.setPly_efr (t : Thread) (j : Nat) (p : Ply) : (t.setPly j p).efr = t.efr := rfl
@[simp] theorem Thread.setPly_sptab (t : Thread) (j : Nat) (p : Ply) : (t.setPly j p).sptab = t.sptab := rfl
@[simp] theorem Thread.setPly_sporder (t : Thread) (j : Nat) (p : Ply) : (t.setPly j p).sporder = t.sporder := rfl
@[simp] theorem Thread.setPly_acc (t : Thread) (j : Nat) (p : Ply) : (t.setPly j p).acc = t.acc := rfl
@[simp] theorem Thread.setPly_taints (t : Thread) (j : Nat) (p : Ply) : (t.setPly j p).taints = t.taints := rfl
@[simp] theorem Thread.setPly_out (t : Thread) (j : Nat) (p : Ply) : (t.setPly j p).out = t.out := rfl
@[simp] theorem Thread.setPly_trap (t : Thread) (j : Nat) (p : Ply) : (t.setPly j p).trap = t.trap := rfl
@[simp] theorem Thread.setPly_pend (t : Thread) (j : Nat) (p : Ply) : (t.setPly j p).pend = t.pend := rfl
@[simp] theorem Thread.setPly_dbg (t : Thread) (j : Nat) (p : Ply) : (t.setPly j p).dbg = t.dbg := rfl
@[simp] theorem Thread.setPly_plies (t : Thread) (j : Nat) (p : Ply) : (t.setPly j p).plies = t.plies.set! j p := rfl
@[simp] theorem Thread.setPly_nextSeq (t : Thread) (j : Nat) (p : Ply) : (t.setPly j p).nextSeq = t.nextSeq := rfl
@[simp] theorem Thread.setPly_segs (t : Thread) (j : Nat) (p : Ply) : (t.setPly j p).segs = t.segs := rfl
@[simp] theorem Thread.setPly_strip (t : Thread) (j : Nat) (p : Ply) : (t.setPly j p).strip = t.strip := rfl
@[simp] theorem Thread.setPly_sleep (t : Thread) (j : Nat) (p : Ply) : (t.setPly j p).sleep = t.sleep := rfl
@[simp] theorem Thread.setPly_event (t : Thread) (j : Nat) (p : Ply) : (t.setPly j p).event = t.event := rfl
@[simp] theorem Thread.setPly_line (t : Thread) (j : Nat) (p : Ply) : (t.setPly j p).line = t.line := rfl
@[simp] theorem Thread.setPly_copyFails (t : Thread) (j : Nat) (p : Ply) : (t.setPly j p).copyFails = t.copyFails := rfl
@[simp] theorem Thread.setPly_copyCode (t : Thread) (j : Nat) (p : Ply) : (t.setPly j p).copyCode = t.copyCode := rfl
@[simp] theorem Thread.setPly_lease (t : Thread) (j : Nat) (p : Ply) : (t.setPly j p).lease = t.lease := rfl
@[simp] theorem Thread.setPly_aged (t : Thread) (j : Nat) (p : Ply) : (t.setPly j p).aged = t.aged := rfl
@[simp] theorem Thread.setPly_saveReq (t : Thread) (j : Nat) (p : Ply) : (t.setPly j p).saveReq = t.saveReq := rfl
@[simp] theorem Thread.setPly_migrate (t : Thread) (j : Nat) (p : Ply) : (t.setPly j p).migrate = t.migrate := rfl

/-! ### Thread.noRewind -/

@[simp] theorem Thread.noRewind_live (t : Thread) : t.noRewind.live = t.live := rfl
@[simp] theorem Thread.noRewind_ended (t : Thread) : t.noRewind.ended = t.ended := rfl
@[simp] theorem Thread.noRewind_tid (t : Thread) : t.noRewind.tid = t.tid := rfl
@[simp] theorem Thread.noRewind_ctx (t : Thread) : t.noRewind.ctx = t.ctx := rfl
@[simp] theorem Thread.noRewind_prio (t : Thread) : t.noRewind.prio = t.prio := rfl
@[simp] theorem Thread.noRewind_tier (t : Thread) : t.noRewind.tier = t.tier := rfl
@[simp] theorem Thread.noRewind_group (t : Thread) : t.noRewind.group = t.group := rfl
@[simp] theorem Thread.noRewind_rank (t : Thread) : t.noRewind.rank = t.rank := rfl
@[simp] theorem Thread.noRewind_gsize (t : Thread) : t.noRewind.gsize = t.gsize := rfl
@[simp] theorem Thread.noRewind_done (t : Thread) : t.noRewind.done = t.done := rfl
@[simp] theorem Thread.noRewind_base (t : Thread) : t.noRewind.base = t.base := rfl
@[simp] theorem Thread.noRewind_log2n (t : Thread) : t.noRewind.log2n = t.log2n := rfl
@[simp] theorem Thread.noRewind_grant (t : Thread) : t.noRewind.grant = t.grant := rfl
@[simp] theorem Thread.noRewind_tiles (t : Thread) : t.noRewind.tiles = t.tiles := rfl
@[simp] theorem Thread.noRewind_ceiling (t : Thread) : t.noRewind.ceiling = t.ceiling := rfl
@[simp] theorem Thread.noRewind_pc (t : Thread) : t.noRewind.pc = t.pc := rfl
@[simp] theorem Thread.noRewind_s (t : Thread) : t.noRewind.s = t.s := rfl
@[simp] theorem Thread.noRewind_f (t : Thread) : t.noRewind.f = t.f := rfl
@[simp] theorem Thread.noRewind_fmap (t : Thread) : t.noRewind.fmap = t.fmap := rfl
@[simp] theorem Thread.noRewind_nf (t : Thread) : t.noRewind.nf = t.nf := rfl
@[simp] theorem Thread.noRewind_mode (t : Thread) : t.noRewind.mode = t.mode := rfl
@[simp] theorem Thread.noRewind_vl (t : Thread) : t.noRewind.vl = t.vl := rfl
@[simp] theorem Thread.noRewind_flags (t : Thread) : t.noRewind.flags = t.flags := rfl
@[simp] theorem Thread.noRewind_scm (t : Thread) : t.noRewind.scm = t.scm := rfl
@[simp] theorem Thread.noRewind_priv (t : Thread) : t.noRewind.priv = t.priv := rfl
@[simp] theorem Thread.noRewind_checked (t : Thread) : t.noRewind.checked = t.checked := rfl
@[simp] theorem Thread.noRewind_spfoot (t : Thread) : t.noRewind.spfoot = t.spfoot := rfl
@[simp] theorem Thread.noRewind_mrow (t : Thread) : t.noRewind.mrow = t.mrow := rfl
@[simp] theorem Thread.noRewind_pidx (t : Thread) : t.noRewind.pidx = t.pidx := rfl
@[simp] theorem Thread.noRewind_redlo (t : Thread) : t.noRewind.redlo = t.redlo := rfl
@[simp] theorem Thread.noRewind_redhi (t : Thread) : t.noRewind.redhi = t.redhi := rfl
@[simp] theorem Thread.noRewind_armed (t : Thread) : t.noRewind.armed = t.armed := rfl
@[simp] theorem Thread.noRewind_fmask (t : Thread) : t.noRewind.fmask = t.fmask := rfl
@[simp] theorem Thread.noRewind_efr (t : Thread) : t.noRewind.efr = t.efr := rfl
@[simp] theorem Thread.noRewind_sptab (t : Thread) : t.noRewind.sptab = t.sptab := rfl
@[simp] theorem Thread.noRewind_sporder (t : Thread) : t.noRewind.sporder = t.sporder := rfl
@[simp] theorem Thread.noRewind_acc (t : Thread) : t.noRewind.acc = t.acc := rfl
@[simp] theorem Thread.noRewind_taints (t : Thread) : t.noRewind.taints = t.taints := rfl
@[simp] theorem Thread.noRewind_out (t : Thread) : t.noRewind.out = t.out := rfl
@[simp] theorem Thread.noRewind_trap (t : Thread) : t.noRewind.trap = t.trap := rfl
@[simp] theorem Thread.noRewind_pend (t : Thread) : t.noRewind.pend = t.pend := rfl
@[simp] theorem Thread.noRewind_dbg (t : Thread) : t.noRewind.dbg = t.dbg := rfl
@[simp] theorem Thread.noRewind_plies (t : Thread) : t.noRewind.plies = t.plies := rfl
@[simp] theorem Thread.noRewind_nextSeq (t : Thread) : t.noRewind.nextSeq = t.nextSeq := rfl
@[simp] theorem Thread.noRewind_segs (t : Thread) : t.noRewind.segs = t.segs := rfl
@[simp] theorem Thread.noRewind_sleep (t : Thread) : t.noRewind.sleep = t.sleep := rfl
@[simp] theorem Thread.noRewind_event (t : Thread) : t.noRewind.event = t.event := rfl
@[simp] theorem Thread.noRewind_line (t : Thread) : t.noRewind.line = t.line := rfl
@[simp] theorem Thread.noRewind_copyFails (t : Thread) : t.noRewind.copyFails = t.copyFails := rfl
@[simp] theorem Thread.noRewind_copyCode (t : Thread) : t.noRewind.copyCode = t.copyCode := rfl
@[simp] theorem Thread.noRewind_lease (t : Thread) : t.noRewind.lease = t.lease := rfl
@[simp] theorem Thread.noRewind_aged (t : Thread) : t.noRewind.aged = t.aged := rfl
@[simp] theorem Thread.noRewind_saveReq (t : Thread) : t.noRewind.saveReq = t.saveReq := rfl
@[simp] theorem Thread.noRewind_migrate (t : Thread) : t.noRewind.migrate = t.migrate := rfl

/-! ### Thread.take -/

@[simp] theorem Thread.take_live (t : Thread) (i : BitVec 4) (v : Bool) (x : Option (Option Binding)) : (t.take i v x).live = t.live := rfl
@[simp] theorem Thread.take_ended (t : Thread) (i : BitVec 4) (v : Bool) (x : Option (Option Binding)) : (t.take i v x).ended = t.ended := rfl
@[simp] theorem Thread.take_tid (t : Thread) (i : BitVec 4) (v : Bool) (x : Option (Option Binding)) : (t.take i v x).tid = t.tid := rfl
@[simp] theorem Thread.take_ctx (t : Thread) (i : BitVec 4) (v : Bool) (x : Option (Option Binding)) : (t.take i v x).ctx = t.ctx := rfl
@[simp] theorem Thread.take_prio (t : Thread) (i : BitVec 4) (v : Bool) (x : Option (Option Binding)) : (t.take i v x).prio = t.prio := rfl
@[simp] theorem Thread.take_tier (t : Thread) (i : BitVec 4) (v : Bool) (x : Option (Option Binding)) : (t.take i v x).tier = t.tier := rfl
@[simp] theorem Thread.take_group (t : Thread) (i : BitVec 4) (v : Bool) (x : Option (Option Binding)) : (t.take i v x).group = t.group := rfl
@[simp] theorem Thread.take_rank (t : Thread) (i : BitVec 4) (v : Bool) (x : Option (Option Binding)) : (t.take i v x).rank = t.rank := rfl
@[simp] theorem Thread.take_gsize (t : Thread) (i : BitVec 4) (v : Bool) (x : Option (Option Binding)) : (t.take i v x).gsize = t.gsize := rfl
@[simp] theorem Thread.take_done (t : Thread) (i : BitVec 4) (v : Bool) (x : Option (Option Binding)) : (t.take i v x).done = t.done := rfl
@[simp] theorem Thread.take_base (t : Thread) (i : BitVec 4) (v : Bool) (x : Option (Option Binding)) : (t.take i v x).base = t.base := rfl
@[simp] theorem Thread.take_log2n (t : Thread) (i : BitVec 4) (v : Bool) (x : Option (Option Binding)) : (t.take i v x).log2n = t.log2n := rfl
@[simp] theorem Thread.take_grant (t : Thread) (i : BitVec 4) (v : Bool) (x : Option (Option Binding)) : (t.take i v x).grant = t.grant := rfl
@[simp] theorem Thread.take_tiles (t : Thread) (i : BitVec 4) (v : Bool) (x : Option (Option Binding)) : (t.take i v x).tiles = t.tiles := rfl
@[simp] theorem Thread.take_ceiling (t : Thread) (i : BitVec 4) (v : Bool) (x : Option (Option Binding)) : (t.take i v x).ceiling = t.ceiling := rfl
@[simp] theorem Thread.take_pc (t : Thread) (i : BitVec 4) (v : Bool) (x : Option (Option Binding)) : (t.take i v x).pc = t.pc := rfl
@[simp] theorem Thread.take_s (t : Thread) (i : BitVec 4) (v : Bool) (x : Option (Option Binding)) : (t.take i v x).s = t.s := rfl
@[simp] theorem Thread.take_f (t : Thread) (i : BitVec 4) (v : Bool) (x : Option (Option Binding)) : (t.take i v x).f = t.f := rfl
@[simp] theorem Thread.take_fmap (t : Thread) (i : BitVec 4) (v : Bool) (x : Option (Option Binding)) : (t.take i v x).fmap = t.fmap := rfl
@[simp] theorem Thread.take_nf (t : Thread) (i : BitVec 4) (v : Bool) (x : Option (Option Binding)) : (t.take i v x).nf = t.nf := rfl
@[simp] theorem Thread.take_mode (t : Thread) (i : BitVec 4) (v : Bool) (x : Option (Option Binding)) : (t.take i v x).mode = t.mode := rfl
@[simp] theorem Thread.take_vl (t : Thread) (i : BitVec 4) (v : Bool) (x : Option (Option Binding)) : (t.take i v x).vl = t.vl := rfl
@[simp] theorem Thread.take_flags (t : Thread) (i : BitVec 4) (v : Bool) (x : Option (Option Binding)) : (t.take i v x).flags = t.flags := rfl
@[simp] theorem Thread.take_scm (t : Thread) (i : BitVec 4) (v : Bool) (x : Option (Option Binding)) : (t.take i v x).scm = t.scm := rfl
@[simp] theorem Thread.take_priv (t : Thread) (i : BitVec 4) (v : Bool) (x : Option (Option Binding)) : (t.take i v x).priv = t.priv := rfl
@[simp] theorem Thread.take_checked (t : Thread) (i : BitVec 4) (v : Bool) (x : Option (Option Binding)) : (t.take i v x).checked = t.checked := rfl
@[simp] theorem Thread.take_spfoot (t : Thread) (i : BitVec 4) (v : Bool) (x : Option (Option Binding)) : (t.take i v x).spfoot = t.spfoot := rfl
@[simp] theorem Thread.take_mrow (t : Thread) (i : BitVec 4) (v : Bool) (x : Option (Option Binding)) : (t.take i v x).mrow = t.mrow := rfl
@[simp] theorem Thread.take_pidx (t : Thread) (i : BitVec 4) (v : Bool) (x : Option (Option Binding)) : (t.take i v x).pidx = t.pidx := rfl
@[simp] theorem Thread.take_redlo (t : Thread) (i : BitVec 4) (v : Bool) (x : Option (Option Binding)) : (t.take i v x).redlo = t.redlo := rfl
@[simp] theorem Thread.take_redhi (t : Thread) (i : BitVec 4) (v : Bool) (x : Option (Option Binding)) : (t.take i v x).redhi = t.redhi := rfl
@[simp] theorem Thread.take_armed (t : Thread) (i : BitVec 4) (v : Bool) (x : Option (Option Binding)) : (t.take i v x).armed = t.armed := rfl
@[simp] theorem Thread.take_fmask (t : Thread) (i : BitVec 4) (v : Bool) (x : Option (Option Binding)) : (t.take i v x).fmask = t.fmask := rfl
@[simp] theorem Thread.take_efr (t : Thread) (i : BitVec 4) (v : Bool) (x : Option (Option Binding)) : (t.take i v x).efr = t.efr := rfl
@[simp] theorem Thread.take_sptab (t : Thread) (i : BitVec 4) (v : Bool) (x : Option (Option Binding)) : (t.take i v x).sptab = t.sptab := rfl
@[simp] theorem Thread.take_sporder (t : Thread) (i : BitVec 4) (v : Bool) (x : Option (Option Binding)) : (t.take i v x).sporder = t.sporder := rfl
@[simp] theorem Thread.take_acc (t : Thread) (i : BitVec 4) (v : Bool) (x : Option (Option Binding)) : (t.take i v x).acc = t.acc := rfl
@[simp] theorem Thread.take_taints (t : Thread) (i : BitVec 4) (v : Bool) (x : Option (Option Binding)) : (t.take i v x).taints = t.taints := rfl
@[simp] theorem Thread.take_out (t : Thread) (i : BitVec 4) (v : Bool) (x : Option (Option Binding)) : (t.take i v x).out = t.out ++ [⟨i, v, x⟩] := rfl
@[simp] theorem Thread.take_trap (t : Thread) (i : BitVec 4) (v : Bool) (x : Option (Option Binding)) : (t.take i v x).trap = t.trap := rfl
@[simp] theorem Thread.take_pend (t : Thread) (i : BitVec 4) (v : Bool) (x : Option (Option Binding)) : (t.take i v x).pend = t.pend := rfl
@[simp] theorem Thread.take_dbg (t : Thread) (i : BitVec 4) (v : Bool) (x : Option (Option Binding)) : (t.take i v x).dbg = t.dbg := rfl
@[simp] theorem Thread.take_plies (t : Thread) (i : BitVec 4) (v : Bool) (x : Option (Option Binding)) : (t.take i v x).plies = t.plies := rfl
@[simp] theorem Thread.take_nextSeq (t : Thread) (i : BitVec 4) (v : Bool) (x : Option (Option Binding)) : (t.take i v x).nextSeq = t.nextSeq := rfl
@[simp] theorem Thread.take_segs (t : Thread) (i : BitVec 4) (v : Bool) (x : Option (Option Binding)) : (t.take i v x).segs = t.segs := rfl
@[simp] theorem Thread.take_strip (t : Thread) (i : BitVec 4) (v : Bool) (x : Option (Option Binding)) : (t.take i v x).strip = t.strip := rfl
@[simp] theorem Thread.take_sleep (t : Thread) (i : BitVec 4) (v : Bool) (x : Option (Option Binding)) : (t.take i v x).sleep = t.sleep := rfl
@[simp] theorem Thread.take_event (t : Thread) (i : BitVec 4) (v : Bool) (x : Option (Option Binding)) : (t.take i v x).event = t.event := rfl
@[simp] theorem Thread.take_line (t : Thread) (i : BitVec 4) (v : Bool) (x : Option (Option Binding)) : (t.take i v x).line = t.line := rfl
@[simp] theorem Thread.take_copyFails (t : Thread) (i : BitVec 4) (v : Bool) (x : Option (Option Binding)) : (t.take i v x).copyFails = t.copyFails := rfl
@[simp] theorem Thread.take_copyCode (t : Thread) (i : BitVec 4) (v : Bool) (x : Option (Option Binding)) : (t.take i v x).copyCode = t.copyCode := rfl
@[simp] theorem Thread.take_lease (t : Thread) (i : BitVec 4) (v : Bool) (x : Option (Option Binding)) : (t.take i v x).lease = t.lease := rfl
@[simp] theorem Thread.take_aged (t : Thread) (i : BitVec 4) (v : Bool) (x : Option (Option Binding)) : (t.take i v x).aged = t.aged := rfl
@[simp] theorem Thread.take_saveReq (t : Thread) (i : BitVec 4) (v : Bool) (x : Option (Option Binding)) : (t.take i v x).saveReq = t.saveReq := rfl
@[simp] theorem Thread.take_migrate (t : Thread) (i : BitVec 4) (v : Bool) (x : Option (Option Binding)) : (t.take i v x).migrate = t.migrate := rfl

/-! ### Thread.openStrip -/

@[simp] theorem Thread.openStrip_live (t : Thread) (l : Bool) : (t.openStrip l).live = t.live := rfl
@[simp] theorem Thread.openStrip_ended (t : Thread) (l : Bool) : (t.openStrip l).ended = t.ended := rfl
@[simp] theorem Thread.openStrip_tid (t : Thread) (l : Bool) : (t.openStrip l).tid = t.tid := rfl
@[simp] theorem Thread.openStrip_ctx (t : Thread) (l : Bool) : (t.openStrip l).ctx = t.ctx := rfl
@[simp] theorem Thread.openStrip_prio (t : Thread) (l : Bool) : (t.openStrip l).prio = t.prio := rfl
@[simp] theorem Thread.openStrip_tier (t : Thread) (l : Bool) : (t.openStrip l).tier = t.tier := rfl
@[simp] theorem Thread.openStrip_group (t : Thread) (l : Bool) : (t.openStrip l).group = t.group := rfl
@[simp] theorem Thread.openStrip_rank (t : Thread) (l : Bool) : (t.openStrip l).rank = t.rank := rfl
@[simp] theorem Thread.openStrip_gsize (t : Thread) (l : Bool) : (t.openStrip l).gsize = t.gsize := rfl
@[simp] theorem Thread.openStrip_done (t : Thread) (l : Bool) : (t.openStrip l).done = t.done := rfl
@[simp] theorem Thread.openStrip_base (t : Thread) (l : Bool) : (t.openStrip l).base = t.base := rfl
@[simp] theorem Thread.openStrip_log2n (t : Thread) (l : Bool) : (t.openStrip l).log2n = t.log2n := rfl
@[simp] theorem Thread.openStrip_grant (t : Thread) (l : Bool) : (t.openStrip l).grant = t.grant := rfl
@[simp] theorem Thread.openStrip_tiles (t : Thread) (l : Bool) : (t.openStrip l).tiles = t.tiles := rfl
@[simp] theorem Thread.openStrip_ceiling (t : Thread) (l : Bool) : (t.openStrip l).ceiling = t.ceiling := rfl
@[simp] theorem Thread.openStrip_pc (t : Thread) (l : Bool) : (t.openStrip l).pc = t.pc := rfl
@[simp] theorem Thread.openStrip_s (t : Thread) (l : Bool) : (t.openStrip l).s = t.s := rfl
@[simp] theorem Thread.openStrip_f (t : Thread) (l : Bool) : (t.openStrip l).f = t.f := rfl
@[simp] theorem Thread.openStrip_fmap (t : Thread) (l : Bool) : (t.openStrip l).fmap = t.fmap := rfl
@[simp] theorem Thread.openStrip_nf (t : Thread) (l : Bool) : (t.openStrip l).nf = t.nf := rfl
@[simp] theorem Thread.openStrip_mode (t : Thread) (l : Bool) : (t.openStrip l).mode = t.mode := rfl
@[simp] theorem Thread.openStrip_vl (t : Thread) (l : Bool) : (t.openStrip l).vl = t.vl := rfl
@[simp] theorem Thread.openStrip_flags (t : Thread) (l : Bool) : (t.openStrip l).flags = t.flags := rfl
@[simp] theorem Thread.openStrip_scm (t : Thread) (l : Bool) : (t.openStrip l).scm = t.scm := rfl
@[simp] theorem Thread.openStrip_priv (t : Thread) (l : Bool) : (t.openStrip l).priv = t.priv := rfl
@[simp] theorem Thread.openStrip_checked (t : Thread) (l : Bool) : (t.openStrip l).checked = t.checked := rfl
@[simp] theorem Thread.openStrip_spfoot (t : Thread) (l : Bool) : (t.openStrip l).spfoot = t.spfoot := rfl
@[simp] theorem Thread.openStrip_mrow (t : Thread) (l : Bool) : (t.openStrip l).mrow = t.mrow := rfl
@[simp] theorem Thread.openStrip_pidx (t : Thread) (l : Bool) : (t.openStrip l).pidx = t.pidx := rfl
@[simp] theorem Thread.openStrip_redlo (t : Thread) (l : Bool) : (t.openStrip l).redlo = t.redlo := rfl
@[simp] theorem Thread.openStrip_redhi (t : Thread) (l : Bool) : (t.openStrip l).redhi = t.redhi := rfl
@[simp] theorem Thread.openStrip_armed (t : Thread) (l : Bool) : (t.openStrip l).armed = t.armed := rfl
@[simp] theorem Thread.openStrip_fmask (t : Thread) (l : Bool) : (t.openStrip l).fmask = t.fmask := rfl
@[simp] theorem Thread.openStrip_efr (t : Thread) (l : Bool) : (t.openStrip l).efr = t.efr := rfl
@[simp] theorem Thread.openStrip_sptab (t : Thread) (l : Bool) : (t.openStrip l).sptab = t.sptab := rfl
@[simp] theorem Thread.openStrip_sporder (t : Thread) (l : Bool) : (t.openStrip l).sporder = t.sporder := rfl
@[simp] theorem Thread.openStrip_acc (t : Thread) (l : Bool) : (t.openStrip l).acc = t.acc := rfl
@[simp] theorem Thread.openStrip_taints (t : Thread) (l : Bool) : (t.openStrip l).taints = t.taints := rfl
@[simp] theorem Thread.openStrip_out (t : Thread) (l : Bool) : (t.openStrip l).out = t.out := rfl
@[simp] theorem Thread.openStrip_trap (t : Thread) (l : Bool) : (t.openStrip l).trap = t.trap := rfl
@[simp] theorem Thread.openStrip_pend (t : Thread) (l : Bool) : (t.openStrip l).pend = t.pend := rfl
@[simp] theorem Thread.openStrip_dbg (t : Thread) (l : Bool) : (t.openStrip l).dbg = t.dbg := rfl
@[simp] theorem Thread.openStrip_plies (t : Thread) (l : Bool) : (t.openStrip l).plies = t.plies := rfl
@[simp] theorem Thread.openStrip_nextSeq (t : Thread) (l : Bool) : (t.openStrip l).nextSeq = t.nextSeq := rfl
@[simp] theorem Thread.openStrip_segs (t : Thread) (l : Bool) : (t.openStrip l).segs = t.segs := rfl
@[simp] theorem Thread.openStrip_sleep (t : Thread) (l : Bool) : (t.openStrip l).sleep = t.sleep := rfl
@[simp] theorem Thread.openStrip_event (t : Thread) (l : Bool) : (t.openStrip l).event = t.event := rfl
@[simp] theorem Thread.openStrip_line (t : Thread) (l : Bool) : (t.openStrip l).line = t.line := rfl
@[simp] theorem Thread.openStrip_copyFails (t : Thread) (l : Bool) : (t.openStrip l).copyFails = t.copyFails := rfl
@[simp] theorem Thread.openStrip_copyCode (t : Thread) (l : Bool) : (t.openStrip l).copyCode = t.copyCode := rfl
@[simp] theorem Thread.openStrip_lease (t : Thread) (l : Bool) : (t.openStrip l).lease = t.lease := rfl
@[simp] theorem Thread.openStrip_aged (t : Thread) (l : Bool) : (t.openStrip l).aged = t.aged := rfl
@[simp] theorem Thread.openStrip_saveReq (t : Thread) (l : Bool) : (t.openStrip l).saveReq = t.saveReq := rfl
@[simp] theorem Thread.openStrip_migrate (t : Thread) (l : Bool) : (t.openStrip l).migrate = t.migrate := rfl

/-! ### Registers read after a write -/

@[simp] theorem Thread.sr_zero (t : Thread) : t.sr 0 = 0 := rfl

/-- The written register reads the value; s0 still reads 0; every other register is as before. -/
theorem Thread.sr_setS (t : Thread) (d r : BitVec 6) (v : Dword) (tn : Taint) :
    (t.setS d v tn).sr r = if r = 0 then 0 else if r = d then v else t.sr r := by
  unfold Thread.sr Thread.setS
  by_cases h0 : r = 0
  · rw [if_pos h0, if_pos h0]
  · rw [if_neg h0, if_neg h0]
    by_cases hd : d = 0
    · rw [if_pos hd, if_neg (by rw [hd]; exact h0), if_neg h0]
    · rw [if_neg hd, if_neg h0]
      by_cases hr : r = d
      · subst hr; rw [if_pos rfl]; exact Vector.getElem_set_self _
      · rw [if_neg hr]
        exact Vector.getElem_set_ne d.toFin.isLt _ fun h => hr (BitVec.eq_of_toNat_eq h.symm)

/-- The written f-register holds the value, every other one what it held. -/
theorem Thread.fr_setF (t : Thread) (d r : BitVec 5) (v : FReg) (tn : Taint) :
    (t.setF d v tn).fr r = if r = d then v else t.fr r := by
  unfold Thread.fr Thread.setF
  by_cases hr : r = d
  · subst hr; rw [if_pos rfl]; exact Vector.getElem_set_self _
  · rw [if_neg hr]
    exact Vector.getElem_set_ne d.toFin.isLt _ fun h => hr (BitVec.eq_of_toNat_eq h.symm)

@[simp] theorem Thread.sr_advance (t : Thread) (q : BitVec 6) : t.advance.sr q = t.sr q := rfl
@[simp] theorem Thread.sr_raiseFlags (t : Thread) (fl : Flags) (q : BitVec 6) : (t.raiseFlags fl).sr q = t.sr q := rfl
@[simp] theorem Thread.sr_addCtl (t : Thread) (tn : Taint) (q : BitVec 6) : (t.addCtl tn).sr q = t.sr q := rfl
@[simp] theorem Thread.sr_setF (t : Thread) (r : BitVec 5) (v : FReg) (tn : Taint) (q : BitVec 6) : (t.setF r v tn).sr q = t.sr q := rfl
@[simp] theorem Thread.sr_setVTaint (t : Thread) (v : BitVec 6) (tn : Taint) (q : BitVec 6) : (t.setVTaint v tn).sr q = t.sr q := rfl
@[simp] theorem Thread.sr_setKTaint (t : Thread) (k : BitVec 4) (tn : Taint) (q : BitVec 6) : (t.setKTaint k tn).sr q = t.sr q := by unfold Thread.setKTaint; split <;> rfl
@[simp] theorem Thread.sr_setAccTaint (t : Thread) (n : BitVec 2) (tn : Taint) (q : BitVec 6) : (t.setAccTaint n tn).sr q = t.sr q := rfl
@[simp] theorem Thread.sr_setPly (t : Thread) (j : Nat) (p : Ply) (q : BitVec 6) : (t.setPly j p).sr q = t.sr q := rfl
@[simp] theorem Thread.sr_noRewind (t : Thread) (q : BitVec 6) : t.noRewind.sr q = t.sr q := rfl
@[simp] theorem Thread.sr_take (t : Thread) (i : BitVec 4) (v : Bool) (x : Option (Option Binding)) (q : BitVec 6) : (t.take i v x).sr q = t.sr q := rfl
@[simp] theorem Thread.sr_openStrip (t : Thread) (l : Bool) (q : BitVec 6) : (t.openStrip l).sr q = t.sr q := rfl
@[simp] theorem Thread.fr_advance (t : Thread) (q : BitVec 5) : t.advance.fr q = t.fr q := rfl
@[simp] theorem Thread.fr_raiseFlags (t : Thread) (fl : Flags) (q : BitVec 5) : (t.raiseFlags fl).fr q = t.fr q := rfl
@[simp] theorem Thread.fr_addCtl (t : Thread) (tn : Taint) (q : BitVec 5) : (t.addCtl tn).fr q = t.fr q := rfl
@[simp] theorem Thread.fr_setS (t : Thread) (r : BitVec 6) (v : Dword) (tn : Taint) (q : BitVec 5) : (t.setS r v tn).fr q = t.fr q := by unfold Thread.setS; split <;> rfl
@[simp] theorem Thread.fr_setVTaint (t : Thread) (v : BitVec 6) (tn : Taint) (q : BitVec 5) : (t.setVTaint v tn).fr q = t.fr q := rfl
@[simp] theorem Thread.fr_setKTaint (t : Thread) (k : BitVec 4) (tn : Taint) (q : BitVec 5) : (t.setKTaint k tn).fr q = t.fr q := by unfold Thread.setKTaint; split <;> rfl
@[simp] theorem Thread.fr_setAccTaint (t : Thread) (n : BitVec 2) (tn : Taint) (q : BitVec 5) : (t.setAccTaint n tn).fr q = t.fr q := rfl
@[simp] theorem Thread.fr_setPly (t : Thread) (j : Nat) (p : Ply) (q : BitVec 5) : (t.setPly j p).fr q = t.fr q := rfl
@[simp] theorem Thread.fr_noRewind (t : Thread) (q : BitVec 5) : t.noRewind.fr q = t.fr q := rfl
@[simp] theorem Thread.fr_take (t : Thread) (i : BitVec 4) (v : Bool) (x : Option (Option Binding)) (q : BitVec 5) : (t.take i v x).fr q = t.fr q := rfl
@[simp] theorem Thread.fr_openStrip (t : Thread) (l : Bool) (q : BitVec 5) : (t.openStrip l).fr q = t.fr q := rfl

end Sys2Proof.Machine
end

