-- ==== Sys2Proof/Laws/Ops.lean ====
section
/-! SUPPORT. What the shared operations of Machine/Ops.lean, Vec.lean and Launch.lean do, said once. -/
namespace Sys2Proof.Machine
open Sys2Proof

/-! ### An instruction in its place -/

/-- A control-stream instruction in the control thread in focus. -/
theorem ctl_control (w : IWord) (s : State) (f : State → State) (hl : s.th.live = true) (hw : s.who = .control) :
    ctl w s f = .next (f s) := by simp [ctl, hl, hw]

/-- A control-stream instruction in a block is ILLOP. -/
theorem ctl_ply (w : IWord) (s : State) (f : State → State) (j : BitVec 4) (hl : s.th.live = true) (hw : s.who = .ply j) :
    ctl w s f = .next (s.fault (illop w)) := by simp [ctl, hl, hw]

/-- With a thread in focus a control-stream word completes. -/
theorem ctl_completes (w : IWord) (s : State) (f : State → State) (hl : s.th.live = true) : ∃ t, ctl w s f = .next t := by
  cases hw : s.who with
  | control => exact ⟨_, ctl_control w s f hl hw⟩
  | ply j => exact ⟨_, ctl_ply w s f j hl hw⟩

/-- Everything that a control-stream word can answer. -/
theorem ctl_cases (w : IWord) (s : State) (f : State → State) (o : Out) (h : ctl w s f = o) :
    (s.th.live = false ∧ o = .fault .noThread) ∨ (s.th.live = true ∧ s.who = .control ∧ o = .next (f s)) ∨
    (∃ j, s.th.live = true ∧ s.who = .ply j ∧ o = .next (s.fault (illop w))) := by
  subst h
  cases hl : s.th.live with
  | false => exact .inl ⟨rfl, by simp [ctl, hl]⟩
  | true => cases hw : s.who with
    | control => exact .inr (.inl ⟨rfl, rfl, ctl_control w s f hl hw⟩)
    | ply j => exact .inr (.inr ⟨j, rfl, rfl, ctl_ply w s f j hl hw⟩)

/-- A vector word in the control stream is dispatched as a block of one word. -/
theorem vecWord_control (w : IWord) (s : State) (f : VFun) (hl : s.th.live = true) (hw : s.who = .control) :
    vecWord w s f = .next (s.upd fun t => (t.dispatch [w] t.pc true).advance) := by simp [vecWord, hl, hw]

/-- A vector word of a running block that faults: the ply stops, or the control thread traps. -/
theorem vecWord_error (w : IWord) (s : State) (f : VFun) (j : BitVec 4) (r : Running) (i : TrapInfo) (hl : s.th.live = true)
    (hw : s.who = .ply j) (hr : s.th.running j = some r) (hf : f (r.vctx [j.toNat] r.ctl) s = .error i) :
    vecWord w s f = .next (s.fault i) := by simp [vecWord, hl, hw, hr, hf]

/-- A vector word of a running block that completes. -/
theorem vecWord_ok (w : IWord) (s : State) (f : VFun) (j : BitVec 4) (r : Running) (hl : s.th.live = true) (hw : s.who = .ply j)
    (hr : s.th.running j = some r) {o : _} (hf : f (r.vctx [j.toNat] r.ctl) s = .ok o) :
    vecWord w s f = .next (o.retire w (r.vctx [j.toNat] r.ctl) (s.active (r.vctx [j.toNat] r.ctl)).length) := by
  simp [vecWord, hl, hw, hr, hf]

/-! ### Registers -/

/-- The taint sets of the s-registers after a write (R96). -/
theorem sTaint_setS (t : Thread) (d r : BitVec 6) (v : Dword) (tn : Taint) :
    (t.setS d v tn).sTaint r = if r = 0 then 0 else if r = d then tn else t.sTaint r := by
  unfold Thread.sTaint Thread.setS
  by_cases h0 : r = 0
  · rw [if_pos h0, if_pos h0]
  · rw [if_neg h0, if_neg h0]
    by_cases hd : d = 0
    · rw [if_pos hd, if_neg (by rw [hd]; exact h0), if_neg h0]
    · rw [if_neg hd, if_neg h0]
      by_cases hr : r = d
      · subst hr; rw [if_pos rfl]; exact Vector.getElem_set_self _
      · rw [if_neg hr]
        exact Vector.getElem_set_ne d.toFin.isLt _ fun h => hr (BitVec.eq_of_toNat_eq h.symm)

/-- The taint sets of the f-registers after a write. -/
theorem fTaint_setF (t : Thread) (d r : BitVec 5) (v : FReg) (tn : Taint) :
    (t.setF d v tn).fTaint r = if r = d then tn else t.fTaint r := by
  unfold Thread.fTaint Thread.setF
  by_cases hr : r = d
  · subst hr; rw [if_pos rfl]; exact Vector.getElem_set_self _
  · rw [if_neg hr]
    exact Vector.getElem_set_ne d.toFin.isLt _ fun h => hr (BitVec.eq_of_toNat_eq h.symm)

/-- Flags are only ever added. -/
theorem raiseFlags_zero (t : Thread) : t.raiseFlags 0 = t := by simp [Thread.raiseFlags]

/-! ### Taking a trap -/

/-- A trap asked for by a quiet thread is delivered at once. -/
theorem raise_quiet (s : State) (i : TrapInfo) (h : s.th.quiet = true) : s.raise i = s.deliver i none s.cycles := by
  simp [State.raise, h]

/-- A trap asked for by a thread that has to wait is held. -/
theorem raise_waits (s : State) (i : TrapInfo) (h : s.th.quiet = false) :
    s.raise i = { s with th := { s.th with pend := some (i, s.cycles) } } := by simp [State.raise, h]

/-- The trap registers, the PC and the privilege after a delivery (R335). -/
theorem deliver_th (s : State) (i : TrapInfo) (p : Option Nat) (c : Dword) (h : s.th.trap.inh = false) :
    (s.deliver i p c).th.pc = s.th.trap.vbase + 16 * i.code.setWidth 64 ∧ (s.deliver i p c).th.priv = true ∧
    (s.deliver i p c).th.trap.epc = wordAddr s.th.pc ∧ (s.deliver i p c).th.trap.val = i.val ∧
    (s.deliver i p c).th.trap.cause = causeImage i p ∧ (s.deliver i p c).th.trap.ppriv = s.th.priv ∧
    (s.deliver i p c).th.trap.svc = true ∧ (s.deliver i p c).th.trap.inh = true ∧ (s.deliver i p c).th.taints = .empty ∧
    (s.deliver i p c).th.s = s.th.s ∧ (s.deliver i p c).th.f = s.th.f := by
  simp [State.deliver, State.commit, h, Thread.saveBlocks, Thread.openStrip]

/-- What a delivery leaves alone besides the thread. -/
theorem deliver_frame (s : State) (i : TrapInfo) (p : Option Nat) (c : Dword) (h : s.th.trap.inh = false) :
    (s.deliver i p c).mem = s.mem ∧ (s.deliver i p c).rows = s.rows ∧ (s.deliver i p c).tags = s.tags ∧
    (s.deliver i p c).arr = s.arr ∧ (s.deliver i p c).regs = s.regs ∧ (s.deliver i p c).parked = s.parked := by
  simp [State.deliver, State.commit, h]

/-- A fault of a ply stops that ply alone. -/
theorem fault_ply (s : State) (i : TrapInfo) (j : BitVec 4) (h : s.who = .ply j) :
    s.fault i = { s with th := s.th.stopPly j i s.cycles } := by simp [State.fault, h]

/-- A fault of the control thread is a trap. -/
theorem fault_control (s : State) (i : TrapInfo) (h : s.who = .control) : s.fault i = s.raise i := by simp [State.fault, h]

/-! ### Threads -/

/-- The thread of a slot brought into focus: it is one that was live there, or nothing has changed. -/
theorem focus_th (s : State) (t : Tid) (x : Thread) (h : s.threadAt t = some x) : (s.focus t).th = x ∧ x.live = true ∧ x.tid = t := by
  simp only [State.threadAt, State.threads] at h
  have hx := List.find?_some h
  have hm := List.mem_of_find?_eq_some h
  simp only [List.mem_filter] at hm
  refine ⟨?_, hm.2, by simpa using hx⟩
  unfold State.focus
  by_cases hc : (s.th.live && decide (s.th.tid = t)) = true
  · rw [if_pos hc]
    simp only [Bool.and_eq_true, decide_eq_true_eq] at hc
    simp only [List.filter_cons, hc.1, if_true, List.find?_cons, hc.2, decide_true] at h
    exact Option.some.inj h
  · rw [if_neg hc]
    have h' : s.parked.find? (fun x => x.live && decide (x.tid = t)) = some x := by
      rw [← h]
      by_cases hl : s.th.live = true
      · have ht : ¬ s.th.tid = t := fun e => hc (by simp [hl, e])
        simp only [List.filter_cons, hl, if_true, List.find?_cons, ht, decide_false, List.find?_filter]
        congr 1; funext a; simp
      · simp only [List.filter_cons, hl, if_false, List.find?_filter, Bool.false_eq_true]
        congr 1; funext a; simp
    rw [h']

/-- Requests to be saved reach exactly the live threads that `p` selects (R330, R212). -/
theorem askSave_threads (s : State) (p : Thread → Bool) :
    (s.askSave p).th = (if s.th.live && p s.th then { s.th.signal with saveReq := true } else s.th) ∧
    (s.askSave p).parked = s.parked.map (fun t => if t.live && p t then { t.signal with saveReq := true } else t) := ⟨rfl, rfl⟩

/-! ### Vectors and rows -/

/-- A vector of MSI-X is sent or is pending; nothing but the host port changes (R371). -/
theorem raiseVector_frame (s : State) (v : BitVec 8) : s.raiseVector v = { s with host := (s.raiseVector v).host } := by
  unfold State.raiseVector; split <;> rfl

/-- A change of the package state changes nothing but the state and the host port (R359). -/
theorem setPk_frame (s : State) (p : PkState) :
    s.setPk p = { s with thermal := { s.thermal with state := p }, host := (s.setPk p).host } := by
  unfold State.setPk State.raiseVector; split <;> rfl

/-- Cleared rows and tags change no other part of the state (R25). -/
theorem clearRows_frame (s : State) (ks : List Nat) :
    s.clearRows ks = { s with rows := (s.clearRows ks).rows, tags := (s.clearRows ks).tags, badCols := (s.clearRows ks).badCols } := rfl

end Sys2Proof.Machine
end

