-- ==== Sys2Proof/Laws/Meaning.lean ====
section
/-! SUPPORT. The shapes in which the statements say what a scalar word writes, shown once of the operations that write them. -/
namespace Sys2Proof
open Sys2Proof.Machine

/-- A control-stream word where the statements place it. -/
theorem ctl_at {w : IWord} {s : State} {f : State → State} (h : AtControl s) : ctl w s f = .next (f s) := ctl_control w s f h.1 h.2

/-- A write of an s-register with flags and the step to the next word. -/
theorem writesS_of (s : State) (d : BitVec 6) (v : Dword) (tn : Taint) (fl : Flags) :
    WritesS s (s.upd fun t => ((t.setS d v tn).raiseFlags fl).advance) d v tn fl where
  outside := rfl
  memory := fun _ => rfl
  thread := by simp only [State.upd, Thread.setS]; split <;> rfl
  value := by intro r; simp [Thread.sr_setS]
  taint := fun r => sTaint_setS _ _ _ _ _

/-- The same of a word that sets no flag. -/
theorem writesS_of_quiet (s : State) (d : BitVec 6) (v : Dword) (tn : Taint) :
    WritesS s (s.upd fun t => (t.setS d v tn).advance) d v tn 0 := by
  simpa only [raiseFlags_zero] using writesS_of s d v tn 0

/-- A write of an f-register with flags and the step to the next word. -/
theorem writesF_of (s : State) (d : BitVec 5) (v : FReg) (tn : Taint) (fl : Flags) :
    WritesF s (s.upd fun t => ((t.setF d v tn).raiseFlags fl).advance) d v tn fl where
  outside := rfl
  memory := fun _ => rfl
  thread := by simp only [State.upd, Thread.setF]; rfl
  value := fun r => Thread.fr_setF s.th d r v tn
  taint := fun r => fTaint_setF s.th d r v tn

/-- A word that changes the control thread alone gives what the change gives. -/
theorem gives_ctl {w : IWord} {s : State} {f : State → State} {p : State → Prop} (h : AtControl s) (hp : p (f s)) :
    Gives (ctl w s f) p := by rw [ctl_at h]; exact ⟨_, rfl, hp⟩

/-- A float result written under the trust of the mode, with SIGLOSS where it falls short (R187). -/
theorem floatResult_of {w : IWord} {s : State} (h : AtControl s) (f : State → State) (d : BitVec 5) (v : FReg) (tn : Taint) (fl : Flags)
    (hf : f s = s.putF d v tn fl true) : FloatResult s (ctl w s f) d v tn fl := by
  rw [ctl_at h, hf]
  unfold FloatResult
  by_cases h1 : modeTtrap s.th.mode = true ∧ v.trust.toNat < (modeTmin s.th.mode).toNat
  · rw [if_pos h1]
    refine ⟨_, writesF_of s d v tn fl, ?_⟩
    simp [State.putF, trustFails, State.upd, Thread.setF, Thread.raiseFlags, Thread.advance, h1.1, h1.2, sigloss]; rfl
  · rw [if_neg h1]
    have e : trustFails s.th.mode v.trust.toNat = false := by simpa [trustFails] using h1
    refine ⟨_, rfl, ?_⟩
    have k : s.putF d v tn fl true = s.upd fun t => ((t.setF d v tn).raiseFlags fl).advance := by
      have e' : trustFails (s.upd fun t => ((t.setF d v tn).raiseFlags fl).advance).th.mode v.trust.toNat = false := e
      simp only [State.putF, e', Bool.and_false, Bool.false_eq_true, if_false, sigloss]
    rw [k]
    exact writesF_of s d v tn fl

end Sys2Proof
end

