-- ==== Sys2Proof/Laws/Sparse.lean ====
section
/-! SUPPORT. What reading, writing and the canonical form of sparse collections do to one another. -/
namespace Sys2Proof.Machine

theorem look_skip {α : Type} (d : α) (m : List (Nat × α)) (k x : Nat) :
    look d (skip k m) x = if x ≤ k then look d (skip k m) x else look d m x := by
  induction m with
  | nil => simp [skip]
  | cons p m ih =>
    obtain ⟨k', v'⟩ := p
    by_cases h : x ≤ k
    · simp [h]
    · simp only [h, if_false] at ih ⊢
      simp only [skip]
      split
      · rw [ih, look, if_neg (by omega), if_neg (by omega)]
      · rfl

theorem look_skip_le {α : Type} (d : α) (m : List (Nat × α)) (k x : Nat) (h : x ≤ k) : look d (skip k m) x = d := by
  induction m with
  | nil => rfl
  | cons p m ih =>
    obtain ⟨k', v'⟩ := p
    simp only [skip]
    split
    · exact ih
    · rw [look, if_neg (by omega), if_pos (by omega)]

/-- Reading after a write: the written key gives the value, every other key what it gave before. -/
theorem look_put {α : Type} [DecidableEq α] (d : α) (m : List (Nat × α)) (k : Nat) (v : α) (x : Nat) :
    look d (put d m k v) x = if x = k then v else look d m x := by
  induction m with
  | nil =>
    by_cases hv : v = d
    · subst hv; simp [put, look]
    · simp [put, look, hv]
  | cons p m ih =>
    obtain ⟨k', v'⟩ := p
    simp only [put]
    by_cases h1 : k < k'
    · rw [if_pos h1]
      by_cases hv : v = d
      · subst hv
        by_cases hx : x = k
        · subst hx; rw [if_pos rfl, if_pos rfl, look, if_neg (by omega), if_pos h1]
        · simp [hx]
      · rw [if_neg hv, look]
        by_cases hx : x = k
        · simp [hx]
        · rw [if_neg hx, if_neg hx]
          by_cases hlt : x < k
          · rw [if_pos hlt, look, if_neg (by omega), if_pos (by omega)]
          · rw [if_neg hlt]
    · rw [if_neg h1]
      by_cases h2 : k = k'
      · subst h2
        rw [if_pos rfl]
        by_cases hx : x = k
        · subst hx
          by_cases hv : v = d
          · subst hv; simp [look_skip_le]
          · simp [hv, look]
        · rw [if_neg hx]
          have hs : ¬ x < k → look d (skip k m) x = look d m x := by
            intro hlt
            have := look_skip d m k x
            rwa [if_neg (by omega)] at this
          by_cases hv : v = d
          · rw [if_pos hv]
            by_cases hlt : x < k
            · rw [look_skip_le d m k x (by omega), look, if_neg hx, if_pos hlt]
            · rw [hs hlt, look, if_neg hx, if_neg hlt]
          · rw [if_neg hv, look, look, if_neg hx, if_neg hx]
            by_cases hlt : x < k
            · simp [hlt]
            · rw [if_neg hlt, if_neg hlt, hs hlt]
      · rw [if_neg h2, look, look, ih]
        by_cases hx : x = k'
        · subst hx; rw [if_pos rfl, if_pos rfl, if_neg (by omega)]
        · rw [if_neg hx, if_neg hx]
          by_cases hlt : x < k'
          · rw [if_pos hlt, if_pos hlt, if_neg (by omega)]
          · rw [if_neg hlt, if_neg hlt]

@[simp] theorem look_put_self {α : Type} [DecidableEq α] (d : α) (m : List (Nat × α)) (k : Nat) (v : α) :
    look d (put d m k v) k = v := by simp [look_put]

theorem look_put_ne {α : Type} [DecidableEq α] (d : α) (m : List (Nat × α)) (k : Nat) (v : α) (x : Nat) (h : x ≠ k) :
    look d (put d m k v) x = look d m x := by simp [look_put, h]

theorem canonFrom_mono {α : Type} [DecidableEq α] (d : α) (m : List (Nat × α)) (a b : Nat) (h : a ≤ b)
    (hm : canonFrom d (some b) m = true) : canonFrom d (some a) m = true := by
  cases m with
  | nil => rfl
  | cons p m =>
    obtain ⟨k, v⟩ := p
    simp only [canonFrom, Bool.and_eq_true, decide_eq_true_eq] at hm ⊢
    exact ⟨⟨by omega, hm.1.2⟩, hm.2⟩

theorem skip_canon {α : Type} [DecidableEq α] (d : α) (m : List (Nat × α)) (k : Nat) (lo : Option Nat)
    (hm : canonFrom d lo m = true) : canonFrom d (some k) (skip k m) = true := by
  induction m generalizing lo with
  | nil => rfl
  | cons p m ih =>
    obtain ⟨k', v'⟩ := p
    simp only [canonFrom, Bool.and_eq_true, decide_eq_true_eq] at hm
    simp only [skip]
    split
    · exact ih _ hm.2
    · simp only [canonFrom, Bool.and_eq_true, decide_eq_true_eq]
      exact ⟨⟨by omega, hm.1.2⟩, hm.2⟩

theorem put_canonFrom {α : Type} [DecidableEq α] (d : α) (m : List (Nat × α)) (k : Nat) (v : α) (lo : Option Nat)
    (hlo : ∀ l, lo = some l → l < k) (hm : canonFrom d lo m = true) : canonFrom d lo (put d m k v) = true := by
  induction m generalizing lo with
  | nil =>
    simp only [put]
    split
    · rfl
    · cases lo with
      | none => simp [canonFrom, *]
      | some l => simp [canonFrom, hlo l rfl, *]
  | cons p m ih =>
    obtain ⟨k', v'⟩ := p
    simp only [canonFrom, Bool.and_eq_true, decide_eq_true_eq] at hm
    simp only [put]
    split
    · split
      · simp only [canonFrom, Bool.and_eq_true, decide_eq_true_eq]; exact hm
      · cases lo with
        | none => simp_all [canonFrom]
        | some l => have := hlo l rfl; simp_all [canonFrom]
    · split
      · have hsk := skip_canon d m k _ hm.2
        split
        · cases lo with
          | none =>
            revert hsk
            cases skip k m with
            | nil => intro _; rfl
            | cons q r => obtain ⟨a, b⟩ := q; simp only [canonFrom, Bool.and_eq_true, decide_eq_true_eq]; exact fun h => ⟨⟨trivial, h.1.2⟩, h.2⟩
          | some l => exact canonFrom_mono d _ _ _ (by have := hlo l rfl; omega) hsk
        · cases lo with
          | none => simp_all [canonFrom]
          | some l => have := hlo l rfl; simp_all [canonFrom]
      · simp only [canonFrom, Bool.and_eq_true, decide_eq_true_eq]
        exact ⟨hm.1, ih (some k') (by intro l hl; cases hl; omega) hm.2⟩

/-- Every write keeps the canonical form. -/
theorem put_canon {α : Type} [DecidableEq α] (d : α) (m : List (Nat × α)) (k : Nat) (v : α) (hm : canon d m = true) :
    canon d (put d m k v) = true :=
  put_canonFrom d m k v none (by simp) hm

end Sys2Proof.Machine
end

