-- ==== Sys2Proof/Laws/Memory.lean ====
section
/-! SUPPORT. Memory operations: a read after a write, every other place left alone, and the canonical form kept. -/
namespace Sys2Proof.Machine
open Sys2Proof

/-- What both branches have, the choice has. -/
theorem ite_keeps {c : Prop} [Decidable c] {α : Type} {p : α → Prop} {a b : α} (ha : p a) (hb : p b) :
    p (if c then a else b) := by
  split
  · exact ha
  · exact hb

/-! ### Bytes of memory -/

/-- A byte after bytes are written: one of them, or what it was. -/
theorem memByte_memWrite (m : List Host.Cell) (pa : Nat) (bs : List Byte) (x : Nat) :
    memByte (memWrite m pa bs) x = if pa ≤ x ∧ x < pa + bs.length then bs.getD (x - pa) 0 else memByte m x := by
  induction bs generalizing m pa with
  | nil => rw [memWrite, if_neg (by simp only [List.length_nil]; omega)]
  | cons b bs ih =>
    rw [memWrite, ih, List.length_cons]
    by_cases hx : x = pa
    · subst hx
      rw [if_neg (by omega), if_pos (by omega), Nat.sub_self, List.getD_cons_zero]
      exact look_put_self _ _ _ _
    · by_cases h : pa + 1 ≤ x ∧ x < pa + 1 + bs.length
      · rw [if_pos h, if_pos (by omega), show x - pa = (x - (pa + 1)) + 1 by omega, List.getD_cons_succ]
      · rw [if_neg h, if_neg (by omega)]
        exact look_put_ne _ _ _ _ _ hx

/-- A byte outside the written ones. -/
theorem memByte_memWrite_outside (m : List Host.Cell) (pa : Nat) (bs : List Byte) (x : Nat)
    (h : x < pa ∨ pa + bs.length ≤ x) : memByte (memWrite m pa bs) x = memByte m x := by
  rw [memByte_memWrite, if_neg (by omega)]

/-- A write of bytes keeps the canonical form. -/
theorem memWrite_wf (m : List Host.Cell) (pa : Nat) (bs : List Byte) (h : Memory.wf m = true) :
    Memory.wf (memWrite m pa bs) = true := by
  induction bs generalizing m pa with
  | nil => exact h
  | cons b bs ih => exact ih _ _ (put_canon 0 m pa b h)

/-- The bytes just written are read back. -/
theorem memBytes_memWrite (m : List Host.Cell) (pa : Nat) (bs : List Byte) :
    memBytes (memWrite m pa bs) pa bs.length = bs := by
  have h : ∀ (n k : Nat), k + n = bs.length → memBytes (memWrite m pa bs) (pa + k) n = bs.drop k := by
    intro n
    induction n with
    | zero => intro k hk; rw [memBytes, List.drop_eq_nil_of_le (by omega : bs.length ≤ k)]
    | succ n ih =>
      intro k hk
      rw [memBytes, show pa + k + 1 = pa + (k + 1) by omega, ih (k + 1) (by omega), memByte_memWrite,
        if_pos (by omega), show pa + k - pa = k by omega, List.drop_eq_getElem_cons (by omega : k < bs.length)]
      simp [List.getD_eq_getElem?_getD, List.getElem?_eq_getElem (by omega : k < bs.length)]
  simpa using h bs.length 0 (by omega)

/-- The number of bytes of a value. -/
@[simp] theorem length_leBytes (n v : Nat) : (leBytes n v).length = n := by
  induction n generalizing v with
  | zero => rfl
  | succ n ih => simp [leBytes, ih]

/-- The value of the bytes of a value. -/
theorem leVal_leBytes (n v : Nat) : leVal (leBytes n v) = v % 2 ^ (8 * n) := by
  induction n generalizing v with
  | zero => simp [leBytes, leVal, Nat.mod_one]
  | succ n ih =>
    rw [leBytes, leVal, ih, BitVec.toNat_ofNat, show 8 * (n + 1) = 8 + 8 * n by omega, Nat.pow_add,
      Nat.mod_mul]

/-- A dword just written is read back. -/
theorem memDword_memPutDword (m : List Host.Cell) (pa : Nat) (v : Dword) : memDword (memPutDword m pa v) pa = v := by
  have h := memBytes_memWrite m pa (leBytes 8 v.toNat)
  rw [length_leBytes] at h
  rw [memDword, memPutDword, h, leVal_leBytes]
  apply BitVec.eq_of_toNat_eq
  have hv := v.isLt
  simp only [BitVec.toNat_ofNat]; omega

theorem memPutDword_wf (m : List Host.Cell) (pa : Nat) (v : Dword) (h : Memory.wf m = true) :
    Memory.wf (memPutDword m pa v) = true := memWrite_wf _ _ _ h

/-! ### Home slices -/

/-- Writes repeated over a list keep the canonical form. -/
theorem foldl_wf {α : Type} (f : List Host.Cell → α → List Host.Cell) (l : List α)
    (hf : ∀ m a, Memory.wf m = true → Memory.wf (f m a) = true) (m : List Host.Cell) (h : Memory.wf m = true) :
    Memory.wf (l.foldl f m) = true := by
  induction l generalizing m with
  | nil => exact h
  | cons a l ih => exact ih _ (hf _ _ h)

@[simp] theorem mapThreads_mem (s : State) (f : Thread → Thread) : (s.mapThreads f).mem = s.mem := rfl
@[simp] theorem mapThreads_rows (s : State) (f : Thread → Thread) : (s.mapThreads f).rows = s.rows := rfl
@[simp] theorem mapThreads_tags (s : State) (f : Thread → Thread) : (s.mapThreads f).tags = s.tags := rfl
@[simp] theorem mapThreads_arr (s : State) (f : Thread → Thread) : (s.mapThreads f).arr = s.arr := rfl

/-- A change of state repeated over a list keeps what each change keeps. -/
theorem foldl_keeps {α : Type} {p : State → Prop} (f : State → α → State) (l : List α)
    (hf : ∀ s a, p s → p (f s a)) (s : State) (h : p s) : p (l.foldl f s) := by
  induction l generalizing s with
  | nil => exact h
  | cons a l ih => exact ih _ (hf _ _ h)

/-- Notifying a line changes threads alone. -/
@[simp] theorem notifyMem_mem (s : State) (pa n : Nat) : (s.notifyMem pa n).mem = s.mem := rfl

@[simp] theorem l2Touch_mem (s : State) (pa : Nat) : (s.l2Touch pa).mem = s.mem := by
  unfold State.l2Touch; dsimp only; split <;> rfl

/-- A bit of a list of bytes read as one value. -/
theorem testBit_leVal (m : List Host.Cell) (n k a i : Nat) (hk : k < n) (hi : i < 8) :
    (leVal (memBytes m a n)).testBit (8 * k + i) = (memByte m (a + k)).getLsbD i := by
  induction n generalizing k a with
  | zero => omega
  | succ n ih =>
    rw [memBytes, leVal, Nat.add_comm, show 256 = 2 ^ 8 from rfl, Nat.testBit_two_pow_mul_add _ (memByte m a).isLt]
    cases k with
    | zero => rw [if_pos (by omega)]; simp [BitVec.getLsbD]
    | succ k =>
      rw [if_neg (by omega), show 8 * (k + 1) + i - 8 = 8 * k + i by omega, ih k (a + 1) (by omega),
        show a + 1 + k = a + (k + 1) by omega]

/-- A byte of a line that a slice has taken. -/
theorem line_byte (m : List Host.Cell) (a k : Nat) (hk : k < 128) :
    (BitVec.ofNat 1024 (leVal (memBytes m a 128))).extractLsb' (8 * k) 8 = memByte m (a + k) := by
  apply BitVec.eq_of_getLsbD_eq
  intro i hi
  rw [BitVec.getLsbD_extractLsb', BitVec.getLsbD_ofNat, testBit_leVal m 128 k a i hk hi]
  simp [hi]; omega

/-- A slice that takes a line gives every byte as before. -/
@[simp] theorem homeByte_l2Touch (s : State) (pa x : Nat) : (s.l2Touch pa).homeByte x = s.homeByte x := by
  unfold State.l2Touch
  dsimp only
  split
  · rfl
  · rename_i h
    have h1 : (look L2Line.absent s.l2 (pa / 128)).held = false := by simpa [State.l2At] using h
    simp only [State.homeByte, State.l2At, look_put]
    by_cases hx : x / 128 = pa / 128
    · by_cases hh : isHost x = true
      · have hp : isHost pa = true := by simp only [isHost, Bool.and_eq_true, decide_eq_true_eq] at hh ⊢; omega
        simp only [hx, if_true, hh, hp, h1, Bool.and_true, Bool.and_false, Bool.false_eq_true, if_false,
          line_byte _ _ _ (Nat.mod_lt x (by omega : 0 < 128))]
        congr 1; omega
      · simp only [hh, Bool.false_and, Bool.false_eq_true, if_false]
    · simp only [hx, if_false]; rfl

/-- A state whose memory is in canonical form. -/
def State.MemWf (s : State) : Prop := Memory.wf s.mem = true

theorem l2Touch_wf (s : State) (pa : Nat) (h : s.MemWf) : (s.l2Touch pa).MemWf := by rw [State.MemWf, l2Touch_mem]; exact h

theorem notifyMem_wf (s : State) (pa n : Nat) (h : s.MemWf) : (s.notifyMem pa n).MemWf := h

theorem hostByteWrite_wf (s : State) (pa : Nat) (b : Byte) (h : s.MemWf) : (s.hostByteWrite pa b).MemWf := by
  unfold State.hostByteWrite; exact l2Touch_wf s pa h

@[simp] theorem cleanse_mem (s : State) (pa n : Nat) : (s.cleanse pa n).mem = s.mem := by unfold State.cleanse; split <;> rfl

/-- Marks of errors say nothing of the bytes. -/
@[simp] theorem homeByte_cleanse (s : State) (pa n x : Nat) : (s.cleanse pa n).homeByte x = s.homeByte x := by
  unfold State.cleanse; split <;> rfl

theorem cleanse_wf (s : State) (pa n : Nat) (h : s.MemWf) : (s.cleanse pa n).MemWf := by rw [State.MemWf, cleanse_mem]; exact h

theorem sliceWrite_wf (s : State) (pa : Nat) (bs : List Byte) (h : s.MemWf) : (s.sliceWrite pa bs).MemWf := by
  have hc := cleanse_wf s pa bs.length h
  unfold State.sliceWrite
  dsimp only
  generalize s.cleanse pa bs.length = u at hc ⊢
  split
  · exact foldl_keeps (p := State.MemWf) _ _ (fun s _ hs => hostByteWrite_wf s _ _ hs) u hc
  · have h' : State.MemWf { u with mem := memWrite u.mem pa bs } := memWrite_wf u.mem pa bs hc
    exact foldl_keeps (p := State.MemWf) _ _ (fun s _ hs => l2Touch_wf s _ hs) _ h'

theorem replicaWrite_wf (s : State) (pa : Nat) (repl : BitVec 2) (bs : List Byte) (h : s.MemWf) :
    (s.replicaWrite pa repl bs).MemWf := by
  unfold State.replicaWrite
  exact notifyMem_wf _ _ _ (foldl_keeps (p := State.MemWf) _ _ (fun s _ hs => sliceWrite_wf s _ _ hs) s h)

theorem repFlush_wf (s : State) (pa n : Nat) (h : s.MemWf) : (s.repFlush pa n).MemWf := by
  unfold State.repFlush
  exact foldl_keeps (p := State.MemWf) _ _ (fun s _ hs => replicaWrite_wf s _ _ _ hs) _ h

theorem settleLocked_wf (s : State) (pa n : Nat) (h : s.MemWf) : (s.settleLocked pa n).MemWf := by
  unfold State.settleLocked
  exact foldl_keeps (p := State.MemWf) _ _ (fun s _ hs => replicaWrite_wf s _ _ _ hs) _ h

theorem homeWrite_wf (s : State) (pa : Nat) (repl : BitVec 2) (bs : List Byte) (h : s.MemWf) : (s.homeWrite pa repl bs).MemWf := by
  unfold State.homeWrite
  split
  · exact notifyMem_wf _ _ _ (sliceWrite_wf s pa bs h)
  · exact replicaWrite_wf _ _ _ _ (repFlush_wf s _ _ h)

/-- Bytes performed at a home slice outside host memory that is not replicated: exactly those bytes of memory change. -/
theorem homeWrite_mem (s : State) (pa : Nat) (bs : List Byte) (h : isHost pa = false) :
    (s.homeWrite pa 0 bs).mem = memWrite s.mem pa bs := by
  unfold State.homeWrite State.sliceWrite
  rw [if_pos rfl, h, if_neg Bool.false_ne_true]
  have hc := cleanse_mem s pa bs.length
  generalize s.cleanse pa bs.length = u at hc ⊢
  exact foldl_keeps (p := fun t : State => t.mem = memWrite s.mem pa bs) _ _ (fun _ _ hs => (l2Touch_mem ..).trans hs)
    { u with mem := memWrite u.mem pa bs } (by rw [← hc])

theorem homeRead_wf (s : State) (c : BitVec 12) (pa : Nat) (repl : BitVec 2) (n : Nat) (h : s.MemWf) :
    (s.homeRead c pa repl n).1.MemWf := by
  unfold State.homeRead
  dsimp only
  split
  · exact l2Touch_wf s _ h
  · exact l2Touch_wf _ _ (settleLocked_wf s _ _ h)

/-- What a home write, or a change that only home writes make, leaves alone. -/
def SameStores (s t : State) : Prop :=
  t.rows = s.rows ∧ t.tags = s.tags ∧ t.arr = s.arr ∧ t.l1 = s.l1 ∧ t.regs = s.regs ∧ t.drain = s.drain

theorem l2Touch_same {s t : State} (pa : Nat) (h : SameStores s t) : SameStores s (t.l2Touch pa) := by
  unfold State.l2Touch; dsimp only; split <;> exact h

theorem hostByteWrite_same {s t : State} (pa : Nat) (b : Byte) (h : SameStores s t) : SameStores s (t.hostByteWrite pa b) := by
  unfold State.hostByteWrite; exact l2Touch_same (s := s) pa h

theorem cleanse_same {s t : State} (pa n : Nat) (h : SameStores s t) : SameStores s (t.cleanse pa n) := by
  unfold State.cleanse; split <;> exact h

theorem sliceWrite_same {s t : State} (pa : Nat) (bs : List Byte) (h : SameStores s t) : SameStores s (t.sliceWrite pa bs) := by
  have hc := cleanse_same pa bs.length h
  unfold State.sliceWrite
  dsimp only
  generalize t.cleanse pa bs.length = v at hc ⊢
  split
  · exact foldl_keeps (p := SameStores s) _ _ (fun u _ hu => hostByteWrite_same _ _ hu) v hc
  · exact foldl_keeps (p := SameStores s) _ _ (fun u _ hu => l2Touch_same _ hu) { v with mem := memWrite v.mem pa bs } hc

theorem replicaWrite_same {s t : State} (pa : Nat) (repl : BitVec 2) (bs : List Byte) (h : SameStores s t) :
    SameStores s (t.replicaWrite pa repl bs) := by
  unfold State.replicaWrite State.notifyMem
  exact foldl_keeps (p := SameStores s) _ _ (fun u _ hu => sliceWrite_same _ _ hu) t h

theorem repFlush_same {s t : State} (pa n : Nat) (h : SameStores s t) : SameStores s (t.repFlush pa n) := by
  unfold State.repFlush
  exact foldl_keeps (p := SameStores s) _ _ (fun u _ hu => replicaWrite_same _ _ _ hu) { t with repQ := _ } h

/-- A home write changes memory, the lines that the slices hold and what watching threads know of it, nothing else. -/
theorem homeWrite_frame (s : State) (pa : Nat) (repl : BitVec 2) (bs : List Byte) : SameStores s (s.homeWrite pa repl bs) := by
  have h : SameStores s s := ⟨rfl, rfl, rfl, rfl, rfl, rfl⟩
  unfold State.homeWrite
  split
  · exact sliceWrite_same pa bs h
  · exact replicaWrite_same _ _ _ (repFlush_same _ _ h)

/-! ### The L1 -/

theorem writeDirty_wf (s : State) (a : Nat) (w : L1Way) (h : s.MemWf) : (s.writeDirty a w).MemWf := by
  unfold State.writeDirty
  refine foldl_keeps (p := State.MemWf) _ _ (fun s i hs => ?_) _ (ite_keeps (p := State.MemWf) (cleanse_wf s a 128 h) h)
  split
  · exact sliceWrite_wf s _ _ hs
  · exact hs

@[simp] theorem l1Put_mem (s : State) (c : BitVec 12) (set way : Nat) (w : L1Way) : (s.l1Put c set way w).mem = s.mem := rfl
@[simp] theorem l1Touch_mem (s : State) (c : BitVec 12) (set way : Nat) : (s.l1Touch c set way).mem = s.mem := rfl

theorem l1Put_wf (s : State) (c : BitVec 12) (set way : Nat) (w : L1Way) (h : s.MemWf) : (s.l1Put c set way w).MemWf := h

theorem l1WriteBack_wf (s : State) (c : BitVec 12) (set way : Nat) (inval : Bool) (h : s.MemWf) :
    (s.l1WriteBack c set way inval).MemWf := by
  unfold State.l1WriteBack
  dsimp only
  split
  · exact h
  · refine l1Put_wf _ _ _ _ _ ?_
    split
    · exact h
    · refine notifyMem_wf _ _ _ ?_
      split
      · exact writeDirty_wf s _ _ h
      · have hf := repFlush_wf s (s.l1At c set way).home 128 h
        generalize s.repFlush (s.l1At c set way).home 128 = u at hf ⊢
        exact foldl_keeps (p := State.MemWf) _ _ (fun s _ hs => writeDirty_wf s _ _ hs) u hf

theorem l1Walk_wf (s : State) (c : BitVec 12) (p : Nat → L1Way → Bool) (inval : Bool) (h : s.MemWf) :
    (s.l1Walk c p inval).MemWf := by
  unfold State.l1Walk
  refine foldl_keeps (p := State.MemWf) _ _ (fun s kw hs => ?_) s h
  dsimp only
  split
  · exact l1WriteBack_wf s _ _ _ _ hs
  · exact hs

theorem l1Drop_wf (s : State) (c : BitVec 12) (pa : Nat) (h : s.MemWf) : (s.l1Drop c pa).MemWf := l1Walk_wf s _ _ _ h

theorem l1Alloc_wf (s : State) (c : BitVec 12) (pa : Nat) (h : s.MemWf) : (s.l1Alloc c pa).1.MemWf := by
  unfold State.l1Alloc
  dsimp only
  split
  · exact h
  · split
    · exact h
    · exact l1WriteBack_wf s _ _ _ _ h

theorem l1Read_wf (s : State) (c : BitVec 12) (pa : Nat) (repl : BitVec 2) (n : Nat) (h : s.MemWf) :
    (s.l1Read c pa repl n).1.MemWf := by
  have ha := l1Alloc_wf s c (replicaFor c pa repl) h
  unfold State.l1Read
  dsimp only
  have hr := homeRead_wf (s.l1Alloc c (replicaFor c pa repl)).1 c (pa / 128 * 128) repl 128 ha
  exact ite_keeps (p := fun r : State × List Byte => r.1.MemWf) ha (ite_keeps (p := fun r : State × List Byte => r.1.MemWf) hr hr)

theorem l1Write_wf (s : State) (c : BitVec 12) (slot : BitVec 3) (pa : Nat) (repl : BitVec 2) (bs : List Byte)
    (h : s.MemWf) : (s.l1Write c slot pa repl bs).MemWf := by
  have ha := l1Alloc_wf s c (replicaFor c pa repl) h
  unfold State.l1Write
  dsimp only
  generalize s.l1Alloc c (replicaFor c pa repl) = r at ha ⊢
  exact ha

/-! ### Translation -/

@[simp] theorem tlbFill_mem (s : State) (c : BitVec 12) (k : TlbKey) (l : Dword) (a : Nat) : (s.tlbFill c k l a).mem = s.mem := rfl
@[simp] theorem ctlbFill_mem (s : State) (c : BitVec 12) (k : TlbKey) (l : Dword) (a : Nat) : (s.ctlbFill c k l a).mem = s.mem := rfl

/-- A translation or a table pointer that a cache takes changes the caches of translations alone. -/
def OnlyCaches (s t : State) : Prop := ∃ a b c, t = { s with tlb := a, ctlb := b, wcache := c }

theorem OnlyCaches.refl (s : State) : OnlyCaches s s := ⟨_, _, _, rfl⟩

theorem OnlyCaches.trans {s t u : State} (h : OnlyCaches s t) (g : OnlyCaches t u) : OnlyCaches s u := by
  obtain ⟨_, _, _, rfl⟩ := h
  obtain ⟨_, _, _, rfl⟩ := g
  exact ⟨_, _, _, rfl⟩

theorem walkFill_frame (s : State) (c : BitVec 12) (tag : BitVec 16) (va : Dword) (lv : BitVec 2) (e : Dword) :
    OnlyCaches s (s.walkFill c tag va lv e) := by
  unfold State.walkFill
  split
  · exact .refl s
  · exact ⟨_, _, _, rfl⟩

theorem tlbFill_frame (s : State) (c : BitVec 12) (k : TlbKey) (l : Dword) (a : Nat) : OnlyCaches s (s.tlbFill c k l a) := ⟨_, _, _, rfl⟩
theorem ctlbFill_frame (s : State) (c : BitVec 12) (k : TlbKey) (l : Dword) (a : Nat) : OnlyCaches s (s.ctlbFill c k l a) := ⟨_, _, _, rfl⟩

theorem walkCached_frame (s : State) (c : BitVec 12) (tag : BitVec 16) (root va : Dword) (big : Bool) :
    OnlyCaches s (s.walkCached c tag root va big) := by
  unfold State.walkCached
  dsimp only
  split
  · exact .refl s
  · split
    · exact walkFill_frame ..
    · exact (walkFill_frame ..).trans (walkFill_frame ..)

theorem ctlbFill_if (b : Bool) {s t : State} (c : BitVec 12) (k : TlbKey) (l : Dword) (a : Nat) (h : OnlyCaches s t) :
    OnlyCaches s (if b = true then t.ctlbFill c k l a else t) := by
  split
  · exact h.trans (ctlbFill_frame ..)
  · exact h

theorem walkCached_if (b : Bool) (s : State) (c : BitVec 12) (g : BitVec 16) (r va : Dword) (big : Bool) :
    OnlyCaches s (if b = true then s.walkCached c g r va big else s) := by
  split
  · exact walkCached_frame ..
  · exact .refl s

theorem markLeaf_frame {s t : State} (w : Bool) (k : Kind) (x : Xl) (h : OnlyCaches s t) :
    OnlyCaches s (t.markLeaf w k x)
      ∨ ∃ v, OnlyCaches (State.notifyMem { s with mem := memPutDword s.mem x.leafAt v } x.leafAt 8) (t.markLeaf w k x) := by
  obtain ⟨_, _, _, rfl⟩ := h
  unfold State.markLeaf
  split
  · exact .inl ⟨_, _, _, rfl⟩
  · exact .inr ⟨_, _, _, _, rfl⟩

/-- Installing a translation changes the caches of translations, and memory in the dword of the leaf alone, of which who watches it is
told. -/
theorem install_frame (s : State) (c : BitVec 12) (ctx : BitVec 16) (k : Kind) (va : Dword) (x : Xl) :
    OnlyCaches s (s.install c ctx k va x)
      ∨ ∃ v, OnlyCaches (State.notifyMem { s with mem := memPutDword s.mem x.leafAt v } x.leafAt 8) (s.install c ctx k va x) := by
  unfold State.install
  dsimp only
  refine ite_keeps (p := fun t => OnlyCaches s t
    ∨ ∃ v, OnlyCaches (State.notifyMem { s with mem := memPutDword s.mem x.leafAt v } x.leafAt 8) t) (.inl (.refl s)) ?_
  rcases markLeaf_frame _ k x (walkCached_if _ s c _ _ va x.big) with h | ⟨v, h⟩
  · exact .inl ((ctlbFill_if _ c _ _ _ h).trans (tlbFill_frame ..))
  · exact .inr ⟨v, (ctlbFill_if _ c _ _ _ h).trans (tlbFill_frame ..)⟩

/-- Installing a translation changes memory in the dword of the leaf alone. -/
theorem install_mem (s : State) (c : BitVec 12) (ctx : BitVec 16) (k : Kind) (va : Dword) (x : Xl) :
    (s.install c ctx k va x).mem = s.mem ∨ ∃ v, (s.install c ctx k va x).mem = memPutDword s.mem x.leafAt v := by
  rcases install_frame s c ctx k va x with ⟨_, _, _, h⟩ | ⟨v, _, _, _, h⟩ <;> rw [h]
  · exact .inl rfl
  · exact .inr ⟨v, rfl⟩

theorem install_wf (s : State) (c : BitVec 12) (ctx : BitVec 16) (k : Kind) (va : Dword) (x : Xl)
    (h : s.MemWf) : (s.install c ctx k va x).MemWf := by
  rcases install_mem s c ctx k va x with e | ⟨v, e⟩ <;> rw [State.MemWf, e]
  · exact h
  · exact memPutDword_wf _ _ _ h

theorem installPiece_wf (s : State) (k : Kind) (p : Piece) (h : s.MemWf) : (s.installPiece k p).MemWf := by
  unfold State.installPiece
  split
  · exact h
  · exact install_wf _ _ _ _ _ _ h

theorem record_wf (s : State) (ctx : BitVec 16) (fs : List XFault) (vec : Bool) (h : s.MemWf) : (s.record ctx fs vec).MemWf := by
  unfold State.record
  dsimp only
  split
  · exact h
  · exact homeWrite_wf _ _ _ _ h

/-! ### Stores of rows, tags and arrival words -/

/-- A row just written reads what was written; every other row reads what it read before. -/
theorem rowAt_putRow (s : State) (k c w x : Nat) (r : Row) : (s.putRow k c w r).rowAt x = if x = k then r else s.rowAt x :=
  look_put _ _ _ _ _

theorem putRow_canon (s : State) (k c w : Nat) (r : Row) (h : canon 0 s.rows = true) : canon 0 (s.putRow k c w r).rows = true :=
  put_canon _ _ _ _ h

theorem arrPut_canon (s : State) (k : Nat) (v : Dword) (h : canon 0 s.arr = true) : canon 0 (s.arrPut k v).arr = true :=
  put_canon _ _ _ _ h

theorem setTag_canon (s : State) (e : Nat) (k : BitVec 4) (b : Bool) (h : canon 0 s.tags = true) :
    canon 0 (s.setTag e k b).tags = true :=
  ite_keeps (p := fun t : State => canon 0 t.tags = true) h (put_canon _ _ _ _ h)

/-- What a filter leaves of a canonical collection is canonical: an arrival-word page given back. -/
theorem canonFrom_filter {α : Type} [DecidableEq α] (d : α) (p : Nat × α → Bool) (m : List (Nat × α)) (lo : Option Nat)
    (h : canonFrom d lo m = true) : canonFrom d lo (m.filter p) = true := by
  induction m generalizing lo with
  | nil => exact h
  | cons q m ih =>
    obtain ⟨k, v⟩ := q
    have h' := h
    simp only [canonFrom, Bool.and_eq_true, decide_eq_true_eq] at h'
    rw [List.filter_cons]
    split
    · simp only [canonFrom, Bool.and_eq_true, decide_eq_true_eq]
      exact ⟨h'.1, ih _ h'.2⟩
    · cases lo with
      | some l =>
        have hk : l < k := of_decide_eq_true h'.1.1
        exact canonFrom_mono d _ _ _ (by omega) (ih _ h'.2)
      | none =>
        have := ih _ h'.2
        revert this
        cases List.filter p m with
        | nil => intro _; rfl
        | cons q r =>
          obtain ⟨a, b⟩ := q
          simp only [canonFrom, Bool.and_eq_true, decide_eq_true_eq]
          exact fun h => ⟨⟨trivial, h.1.2⟩, h.2⟩

end Sys2Proof.Machine
end

