-- ==== Sys2Proof/Laws/Word.lean ====
section
/-! SUPPORT. Bit fields of words: parts of a concatenation, a value put together from its parts, and the fields of a word. -/
namespace Sys2Proof.Laws
open Sys2Proof

/-- The low part of a concatenation. -/
@[simp] theorem low_append {m n : Nat} (x : BitVec m) (y : BitVec n) : (x ++ y).extractLsb' 0 n = y := by
  apply BitVec.eq_of_getLsbD_eq; intro i hi
  simp [BitVec.getLsbD_append, hi]

/-- A part that begins at or above the low operand of a concatenation. -/
theorem high_append {m n : Nat} (k l : Nat) (x : BitVec m) (y : BitVec n) :
    (x ++ y).extractLsb' (n + k) l = x.extractLsb' k l := by
  apply BitVec.eq_of_getLsbD_eq; intro i hi
  simp [BitVec.getLsbD_append, hi]
  rw [if_neg (by omega)]; congr 1; omega

/-- The high part of a concatenation. -/
@[simp] theorem top_append {m n : Nat} (x : BitVec m) (y : BitVec n) : (x ++ y).extractLsb' n m = x := by
  have h := high_append 0 m x y
  simpa using h

/-- Two parts that meet are one part. -/
theorem part_append {w : Nat} (k l m : Nat) (x : BitVec w) :
    x.extractLsb' (k + l) m ++ x.extractLsb' k l = x.extractLsb' k (m + l) :=
  BitVec.extractLsb'_append_extractLsb'_eq_extractLsb' rfl

@[simp] theorem join_4 (x : BitVec 4) : x.extractLsb' 2 2 ++ x.extractLsb' 0 2 = x := by
  rw [part_append 0 2 2]; simp
@[simp] theorem join_7 (x : BitVec 7) : x.extractLsb' 5 2 ++ x.extractLsb' 0 5 = x := by
  rw [part_append 0 5 2]; simp
@[simp] theorem join_10 (x : BitVec 10) : x.extractLsb' 4 6 ++ x.extractLsb' 0 4 = x := by
  rw [part_append 0 4 6]; simp
@[simp] theorem join_12 (x : BitVec 12) : x.extractLsb' 8 4 ++ x.extractLsb' 0 8 = x := by
  rw [part_append 0 8 4]; simp
@[simp] theorem join_13 (x : BitVec 13) : x.extractLsb' 8 5 ++ x.extractLsb' 0 8 = x := by
  rw [part_append 0 8 5]; simp
@[simp] theorem join_14 (x : BitVec 14) : x.extractLsb' 8 6 ++ x.extractLsb' 0 8 = x := by
  rw [part_append 0 8 6]; simp
@[simp] theorem join_16 (x : BitVec 16) : x.extractLsb' 14 2 ++ x.extractLsb' 8 6 ++ x.extractLsb' 0 8 = x := by
  rw [part_append 8 6 2, part_append 0 8 8]; simp
@[simp] theorem join_20 (x : BitVec 20) : x.extractLsb' 14 6 ++ x.extractLsb' 8 6 ++ x.extractLsb' 0 8 = x := by
  rw [part_append 8 6 6, part_append 0 8 12]; simp
@[simp] theorem join_22 (x : BitVec 22) :
    x.extractLsb' 20 2 ++ x.extractLsb' 14 6 ++ x.extractLsb' 8 6 ++ x.extractLsb' 0 8 = x := by
  rw [part_append 14 6 2, part_append 8 6 8, part_append 0 8 14]; simp

/-- The fields of the word that fields make are those fields. -/
@[simp] theorem fields_of_word (x : Fields) : Fields.ofWord x.toWord = x := by
  obtain ⟨m, d, a, b, f⟩ := x
  simp only [Fields.ofWord, Fields.toWord]
  congr 1
  · exact (high_append 18 6 _ f).trans ((high_append 12 6 _ b).trans ((high_append 6 6 _ a).trans (top_append m d)))
  · exact (high_append 12 6 _ f).trans ((high_append 6 6 _ b).trans ((high_append 0 6 _ a).trans (low_append _ d)))
  · exact (high_append 6 6 _ f).trans ((high_append 0 6 _ b).trans (low_append _ a))
  · exact (high_append 0 6 _ f).trans (low_append _ b)
  · exact low_append _ f

/-- The word of the fields of a word is that word. -/
@[simp] theorem word_of_fields (w : IWord) : (Fields.ofWord w).toWord = w := by
  simp only [Fields.ofWord, Fields.toWord]
  rw [part_append 20 6 6, part_append 14 6 12, part_append 8 6 18, part_append 0 8 24]; simp

/-- Every word is the word of some fields. -/
theorem exists_fields (w : IWord) : ∃ x : Fields, w = x.toWord := ⟨.ofWord w, (word_of_fields w).symm⟩

/-- The b operand named by its own code. -/
@[simp] theorem bop_rep3_num (b : BOp) : bop b.rep3 b.num = some b := by
  cases b with
  | field v => rfl
  | sreg r => rfl
  | freg r =>
    revert r; decide
  | rep v s =>
    have h : bop (1#1 ++ s) v = some (.rep v s) := by
      revert s; decide +revert
    exact h

/-- A taint operand named by its class code and number. -/
@[simp] theorem taintName_cls_num (x : TaintName) : taintName x.cls x.num = some x := by
  cases x with
  | s r => rfl
  | f r =>
    revert r; decide
  | v v => rfl
  | k k => revert k; decide
  | acc n => revert n; decide
  | ctl => rfl

/-- The type of its own code. -/
@[simp] theorem ofCode_code (t : EType) : EType.ofCode t.code = some t := by
  cases t with
  | narrow i => revert i; decide
  | pair i => revert i; decide
  | _ => decide

/-- Fields that decode to a well-formed instruction: so does their word. -/
theorem decode_toWord {x : Fields} {i : Instr} (hw : i.wellFormed = true) (h : decodeFields x = some i) :
    decode x.toWord = some i := by
  simp [decode, h, hw]

end Sys2Proof.Laws
end

