-- ==== Sys2Proof/Laws/PerInstr.lean ====
section
/-! SUPPORT. One lemma for each instruction of the family Encoding: its word decodes to it, with every operand at every value the
encoding admits. -/
namespace Sys2Proof.Laws.Encoding
open Sys2Proof

/-- The word of an instruction decodes to that instruction. -/
def Statement (i : Instr) : Prop := ∀ w, i.wellFormed = true → encode i = some w → decode w = some i

theorem of_fields {i : Instr} (x : Fields) (he : encodeFields i = some x) (hd : decodeFields x = some i) : Statement i := by
  intro w hw h
  simp only [encode, he, Option.map_some, Option.some.injEq] at h
  subst h; exact decode_toWord hw hd

/-- A step that has no word. -/
theorem of_none {i : Instr} (he : encodeFields i = none) : Statement i := by
  intro w _ h; simp [encode, he] at h

theorem append_eq {m n : Nat} (x : BitVec m) (y : BitVec n) (z : BitVec (m + n)) :
    x ++ y = z ↔ x = z.extractLsb' n m ∧ y = z.extractLsb' 0 n := by
  constructor
  · rintro rfl; simp
  · rintro ⟨rfl, rfl⟩; simp

@[simp] theorem low_1_5 (x : BitVec 1) (y : BitVec 5) : (x ++ y : BitVec 6).extractLsb' 0 5 = y := low_append x y
@[simp] theorem top_1_5 (x : BitVec 1) (y : BitVec 5) : (x ++ y : BitVec 6).extractLsb' 5 1 = x := top_append x y
@[simp] theorem eq_1_5 (x : BitVec 1) (y : BitVec 5) (z : BitVec 6) :
    (x ++ y : BitVec 6) = z ↔ x = z.extractLsb' 5 1 ∧ y = z.extractLsb' 0 5 := append_eq x y z
@[simp] theorem low_2_4 (x : BitVec 2) (y : BitVec 4) : (x ++ y : BitVec 6).extractLsb' 0 4 = y := low_append x y
@[simp] theorem top_2_4 (x : BitVec 2) (y : BitVec 4) : (x ++ y : BitVec 6).extractLsb' 4 2 = x := top_append x y
@[simp] theorem eq_2_4 (x : BitVec 2) (y : BitVec 4) (z : BitVec 6) :
    (x ++ y : BitVec 6) = z ↔ x = z.extractLsb' 4 2 ∧ y = z.extractLsb' 0 4 := append_eq x y z
@[simp] theorem low_4_2 (x : BitVec 4) (y : BitVec 2) : (x ++ y : BitVec 6).extractLsb' 0 2 = y := low_append x y
@[simp] theorem top_4_2 (x : BitVec 4) (y : BitVec 2) : (x ++ y : BitVec 6).extractLsb' 2 4 = x := top_append x y
@[simp] theorem eq_4_2 (x : BitVec 4) (y : BitVec 2) (z : BitVec 6) :
    (x ++ y : BitVec 6) = z ↔ x = z.extractLsb' 2 4 ∧ y = z.extractLsb' 0 2 := append_eq x y z
@[simp] theorem low_3_1 (x : BitVec 3) (y : BitVec 1) : (x ++ y : BitVec 4).extractLsb' 0 1 = y := low_append x y
@[simp] theorem top_3_1 (x : BitVec 3) (y : BitVec 1) : (x ++ y : BitVec 4).extractLsb' 1 3 = x := top_append x y
@[simp] theorem eq_3_1 (x : BitVec 3) (y : BitVec 1) (z : BitVec 4) :
    (x ++ y : BitVec 4) = z ↔ x = z.extractLsb' 1 3 ∧ y = z.extractLsb' 0 1 := append_eq x y z
@[simp] theorem low_3_3 (x : BitVec 3) (y : BitVec 3) : (x ++ y : BitVec 6).extractLsb' 0 3 = y := low_append x y
@[simp] theorem top_3_3 (x : BitVec 3) (y : BitVec 3) : (x ++ y : BitVec 6).extractLsb' 3 3 = x := top_append x y
@[simp] theorem eq_3_3 (x : BitVec 3) (y : BitVec 3) (z : BitVec 6) :
    (x ++ y : BitVec 6) = z ↔ x = z.extractLsb' 3 3 ∧ y = z.extractLsb' 0 3 := append_eq x y z
@[simp] theorem low_5_3 (x : BitVec 5) (y : BitVec 3) : (x ++ y : BitVec 8).extractLsb' 0 3 = y := low_append x y
@[simp] theorem top_5_3 (x : BitVec 5) (y : BitVec 3) : (x ++ y : BitVec 8).extractLsb' 3 5 = x := top_append x y
@[simp] theorem eq_5_3 (x : BitVec 5) (y : BitVec 3) (z : BitVec 8) :
    (x ++ y : BitVec 8) = z ↔ x = z.extractLsb' 3 5 ∧ y = z.extractLsb' 0 3 := append_eq x y z
@[simp] theorem low_1_7 (x : BitVec 1) (y : BitVec 7) : (x ++ y : BitVec 8).extractLsb' 0 7 = y := low_append x y
@[simp] theorem top_1_7 (x : BitVec 1) (y : BitVec 7) : (x ++ y : BitVec 8).extractLsb' 7 1 = x := top_append x y
@[simp] theorem eq_1_7 (x : BitVec 1) (y : BitVec 7) (z : BitVec 8) :
    (x ++ y : BitVec 8) = z ↔ x = z.extractLsb' 7 1 ∧ y = z.extractLsb' 0 7 := append_eq x y z
@[simp] theorem low_2_6 (x : BitVec 2) (y : BitVec 6) : (x ++ y : BitVec 8).extractLsb' 0 6 = y := low_append x y
@[simp] theorem top_2_6 (x : BitVec 2) (y : BitVec 6) : (x ++ y : BitVec 8).extractLsb' 6 2 = x := top_append x y
@[simp] theorem eq_2_6 (x : BitVec 2) (y : BitVec 6) (z : BitVec 8) :
    (x ++ y : BitVec 8) = z ↔ x = z.extractLsb' 6 2 ∧ y = z.extractLsb' 0 6 := append_eq x y z
@[simp] theorem low_3_5 (x : BitVec 3) (y : BitVec 5) : (x ++ y : BitVec 8).extractLsb' 0 5 = y := low_append x y
@[simp] theorem top_3_5 (x : BitVec 3) (y : BitVec 5) : (x ++ y : BitVec 8).extractLsb' 5 3 = x := top_append x y
@[simp] theorem eq_3_5 (x : BitVec 3) (y : BitVec 5) (z : BitVec 8) :
    (x ++ y : BitVec 8) = z ↔ x = z.extractLsb' 5 3 ∧ y = z.extractLsb' 0 5 := append_eq x y z
@[simp] theorem low_6_2 (x : BitVec 6) (y : BitVec 2) : (x ++ y : BitVec 8).extractLsb' 0 2 = y := low_append x y
@[simp] theorem top_6_2 (x : BitVec 6) (y : BitVec 2) : (x ++ y : BitVec 8).extractLsb' 2 6 = x := top_append x y
@[simp] theorem eq_6_2 (x : BitVec 6) (y : BitVec 2) (z : BitVec 8) :
    (x ++ y : BitVec 8) = z ↔ x = z.extractLsb' 2 6 ∧ y = z.extractLsb' 0 2 := append_eq x y z
@[simp] theorem low_5_2 (x : BitVec 5) (y : BitVec 2) : (x ++ y : BitVec 7).extractLsb' 0 2 = y := low_append x y
@[simp] theorem top_5_2 (x : BitVec 5) (y : BitVec 2) : (x ++ y : BitVec 7).extractLsb' 2 5 = x := top_append x y
@[simp] theorem eq_5_2 (x : BitVec 5) (y : BitVec 2) (z : BitVec 7) :
    (x ++ y : BitVec 7) = z ↔ x = z.extractLsb' 2 5 ∧ y = z.extractLsb' 0 2 := append_eq x y z
@[simp] theorem low_7_1 (x : BitVec 7) (y : BitVec 1) : (x ++ y : BitVec 8).extractLsb' 0 1 = y := low_append x y
@[simp] theorem top_7_1 (x : BitVec 7) (y : BitVec 1) : (x ++ y : BitVec 8).extractLsb' 1 7 = x := top_append x y
@[simp] theorem eq_7_1 (x : BitVec 7) (y : BitVec 1) (z : BitVec 8) :
    (x ++ y : BitVec 8) = z ↔ x = z.extractLsb' 1 7 ∧ y = z.extractLsb' 0 1 := append_eq x y z
@[simp] theorem top_5_1_2 (x : BitVec 5) (y : BitVec 1) (z : BitVec 2) :
    (x ++ y ++ z : BitVec 8).extractLsb' 3 5 = x :=
  (high_append 1 5 (x ++ y) z).trans (top_append x y)
@[simp] theorem mid_5_1_2 (x : BitVec 5) (y : BitVec 1) (z : BitVec 2) :
    (x ++ y ++ z : BitVec 8).extractLsb' 2 1 = y :=
  (high_append 0 1 (x ++ y) z).trans (low_append x y)
@[simp] theorem top_5_2_1 (x : BitVec 5) (y : BitVec 2) (z : BitVec 1) :
    (x ++ y ++ z : BitVec 8).extractLsb' 3 5 = x :=
  (high_append 2 5 (x ++ y) z).trans (top_append x y)
@[simp] theorem mid_5_2_1 (x : BitVec 5) (y : BitVec 2) (z : BitVec 1) :
    (x ++ y ++ z : BitVec 8).extractLsb' 1 2 = y :=
  (high_append 0 2 (x ++ y) z).trans (low_append x y)

theorem trap (a : BitVec 6) : Statement (.trap a) := of_fields _ rfl (by simp [decodeFields, decodeSys])
theorem boost (d : BitVec 6) (a : BitVec 6) (b : BitVec 6) : Statement (.boost d a b) := of_fields _ rfl (by simp [decodeFields, decodeSys])
theorem tlbinv (a : BitVec 6) (b : BitVec 6) : Statement (.tlbinv a b) := of_fields _ rfl (by simp [decodeFields, decodeSys])
theorem mode (m : BitVec 22) : Statement (.mode m) := by
  exact of_fields _ rfl (by simp [decodeFields])
theorem setvlImm (d : BitVec 6) (i : BitVec 13) : Statement (.setvlImm d i) := by
  exact of_fields _ rfl (by simp [decodeFields, decodeSetvl])
theorem setvlReg (d : BitVec 6) (a : BitVec 6) : Statement (.setvlReg d a) := by
  intro w hw h
  have ha : a ≠ 0#6 := by simpa [Instr.wellFormed] using hw
  exact of_fields _ rfl (by simp [decodeFields, decodeSetvl, ha]) w hw h
theorem add (d : BitVec 6) (a : BitVec 6) (b : BitVec 6) : Statement (.add d a b) := of_fields _ rfl rfl
theorem sub (d : BitVec 6) (a : BitVec 6) (b : BitVec 6) : Statement (.sub d a b) := of_fields _ rfl rfl
theorem and (d : BitVec 6) (a : BitVec 6) (b : BitVec 6) : Statement (.and d a b) := of_fields _ rfl rfl
theorem or (d : BitVec 6) (a : BitVec 6) (b : BitVec 6) : Statement (.or d a b) := of_fields _ rfl rfl
theorem xor (d : BitVec 6) (a : BitVec 6) (b : BitVec 6) : Statement (.xor d a b) := of_fields _ rfl rfl
theorem andn (d : BitVec 6) (a : BitVec 6) (b : BitVec 6) : Statement (.andn d a b) := of_fields _ rfl rfl
theorem sll (d : BitVec 6) (a : BitVec 6) (b : BitVec 6) : Statement (.sll d a b) := of_fields _ rfl rfl
theorem srl (d : BitVec 6) (a : BitVec 6) (b : BitVec 6) : Statement (.srl d a b) := of_fields _ rfl rfl
theorem sra (d : BitVec 6) (a : BitVec 6) (b : BitVec 6) : Statement (.sra d a b) := of_fields _ rfl rfl
theorem ror (d : BitVec 6) (a : BitVec 6) (b : BitVec 6) : Statement (.ror d a b) := of_fields _ rfl rfl
theorem mul (d : BitVec 6) (a : BitVec 6) (b : BitVec 6) : Statement (.mul d a b) := of_fields _ rfl rfl
theorem mulh (d : BitVec 6) (a : BitVec 6) (b : BitVec 6) : Statement (.mulh d a b) := of_fields _ rfl rfl
theorem mulhn (d : BitVec 6) (a : BitVec 6) (b : BitVec 6) : Statement (.mulhn d a b) := of_fields _ rfl rfl
theorem div (d : BitVec 6) (a : BitVec 6) (b : BitVec 6) : Statement (.div d a b) := of_fields _ rfl rfl
theorem divn (d : BitVec 6) (a : BitVec 6) (b : BitVec 6) : Statement (.divn d a b) := of_fields _ rfl rfl
theorem rem (d : BitVec 6) (a : BitVec 6) (b : BitVec 6) : Statement (.rem d a b) := of_fields _ rfl rfl
theorem remn (d : BitVec 6) (a : BitVec 6) (b : BitVec 6) : Statement (.remn d a b) := of_fields _ rfl rfl
theorem min (d : BitVec 6) (a : BitVec 6) (b : BitVec 6) : Statement (.min d a b) := of_fields _ rfl rfl
theorem max (d : BitVec 6) (a : BitVec 6) (b : BitVec 6) : Statement (.max d a b) := of_fields _ rfl rfl
theorem minn (d : BitVec 6) (a : BitVec 6) (b : BitVec 6) : Statement (.minn d a b) := of_fields _ rfl rfl
theorem maxn (d : BitVec 6) (a : BitVec 6) (b : BitVec 6) : Statement (.maxn d a b) := of_fields _ rfl rfl
theorem slt (d : BitVec 6) (a : BitVec 6) (b : BitVec 6) : Statement (.slt d a b) := of_fields _ rfl rfl
theorem sltn (d : BitVec 6) (a : BitVec 6) (b : BitVec 6) : Statement (.sltn d a b) := of_fields _ rfl rfl
theorem seq (d : BitVec 6) (a : BitVec 6) (b : BitVec 6) : Statement (.seq d a b) := of_fields _ rfl rfl
theorem clz (d : BitVec 6) (a : BitVec 6) : Statement (.clz d a) := of_fields _ rfl rfl
theorem ctz (d : BitVec 6) (a : BitVec 6) : Statement (.ctz d a) := of_fields _ rfl rfl
theorem popc (d : BitVec 6) (a : BitVec 6) : Statement (.popc d a) := of_fields _ rfl rfl
theorem sext (d : BitVec 6) (a : BitVec 6) (b : BitVec 6) : Statement (.sext d a b) := of_fields _ rfl (by simp [decodeFields, decodeAlu])
theorem zext (d : BitVec 6) (a : BitVec 6) (b : BitVec 6) : Statement (.zext d a b) := of_fields _ rfl (by simp [decodeFields, decodeAlu])
theorem addi (d : BitVec 6) (a : BitVec 6) (i : BitVec 14) : Statement (.addi d a i) := by
  exact of_fields _ rfl (by simp [decodeFields])
theorem andi (d : BitVec 6) (a : BitVec 6) (i : BitVec 14) : Statement (.andi d a i) := by
  exact of_fields _ rfl (by simp [decodeFields])
theorem ori (d : BitVec 6) (a : BitVec 6) (i : BitVec 14) : Statement (.ori d a i) := by
  exact of_fields _ rfl (by simp [decodeFields])
theorem xori (d : BitVec 6) (a : BitVec 6) (i : BitVec 14) : Statement (.xori d a i) := by
  exact of_fields _ rfl (by simp [decodeFields])
theorem slli (d : BitVec 6) (a : BitVec 6) (s : BitVec 6) : Statement (.slli d a s) := by
  exact of_fields _ rfl (by simp [decodeFields, decodeShi])
theorem srli (d : BitVec 6) (a : BitVec 6) (s : BitVec 6) : Statement (.srli d a s) := by
  exact of_fields _ rfl (by simp [decodeFields, decodeShi])
theorem srai (d : BitVec 6) (a : BitVec 6) (s : BitVec 6) : Statement (.srai d a s) := by
  exact of_fields _ rfl (by simp [decodeFields, decodeShi])
theorem rori (d : BitVec 6) (a : BitVec 6) (s : BitVec 6) : Statement (.rori d a s) := by
  exact of_fields _ rfl (by simp [decodeFields, decodeShi])
theorem slti (d : BitVec 6) (a : BitVec 6) (i : BitVec 14) : Statement (.slti d a i) := by
  exact of_fields _ rfl (by simp [decodeFields])
theorem li (d : BitVec 6) (i : BitVec 20) : Statement (.li d i) := by
  exact of_fields _ rfl (by simp [decodeFields])
theorem lim (d : BitVec 6) (i : BitVec 20) : Statement (.lim d i) := by
  exact of_fields _ rfl (by simp [decodeFields])
theorem ldb (d : BitVec 6) (a : BitVec 6) (i : BitVec 14) : Statement (.ldb d a i) := by
  exact of_fields _ rfl (by simp [decodeFields])
theorem ldh (d : BitVec 6) (a : BitVec 6) (i : BitVec 14) : Statement (.ldh d a i) := by
  exact of_fields _ rfl (by simp [decodeFields])
theorem ldw (d : BitVec 6) (a : BitVec 6) (i : BitVec 14) : Statement (.ldw d a i) := by
  exact of_fields _ rfl (by simp [decodeFields])
theorem ldd (d : BitVec 6) (a : BitVec 6) (i : BitVec 14) : Statement (.ldd d a i) := by
  exact of_fields _ rfl (by simp [decodeFields])
theorem ldbn (d : BitVec 6) (a : BitVec 6) (i : BitVec 14) : Statement (.ldbn d a i) := by
  exact of_fields _ rfl (by simp [decodeFields])
theorem ldhn (d : BitVec 6) (a : BitVec 6) (i : BitVec 14) : Statement (.ldhn d a i) := by
  exact of_fields _ rfl (by simp [decodeFields])
theorem ldwn (d : BitVec 6) (a : BitVec 6) (i : BitVec 14) : Statement (.ldwn d a i) := by
  exact of_fields _ rfl (by simp [decodeFields])
theorem stb (d : BitVec 6) (a : BitVec 6) (i : BitVec 14) : Statement (.stb d a i) := by
  exact of_fields _ rfl (by simp [decodeFields])
theorem sth (d : BitVec 6) (a : BitVec 6) (i : BitVec 14) : Statement (.sth d a i) := by
  exact of_fields _ rfl (by simp [decodeFields])
theorem stw (d : BitVec 6) (a : BitVec 6) (i : BitVec 14) : Statement (.stw d a i) := by
  exact of_fields _ rfl (by simp [decodeFields])
theorem std (d : BitVec 6) (a : BitVec 6) (i : BitVec 14) : Statement (.std d a i) := by
  exact of_fields _ rfl (by simp [decodeFields])
theorem ldacq (d : BitVec 6) (a : BitVec 6) : Statement (.ldacq d a) := of_fields _ rfl (by simp [decodeFields, decodeMemx])
theorem strel (a : BitVec 6) (b : BitVec 6) : Statement (.strel a b) := of_fields _ rfl (by simp [decodeFields, decodeMemx])
theorem amoadd (d : BitVec 6) (a : BitVec 6) (b : BitVec 6) (w : Bool) : Statement (.amoadd d a b w) := by
  cases w <;> exact of_fields _ rfl (by simp [decodeFields, decodeMemx])
theorem amoswap (d : BitVec 6) (a : BitVec 6) (b : BitVec 6) (w : Bool) : Statement (.amoswap d a b w) := by
  cases w <;> exact of_fields _ rfl (by simp [decodeFields, decodeMemx])
theorem amocas (d : BitVec 6) (a : BitVec 6) (b : BitVec 6) (w : Bool) : Statement (.amocas d a b w) := by
  cases w <;> exact of_fields _ rfl (by simp [decodeFields, decodeMemx])
theorem amomin (d : BitVec 6) (a : BitVec 6) (b : BitVec 6) (w : Bool) : Statement (.amomin d a b w) := by
  cases w <;> exact of_fields _ rfl (by simp [decodeFields, decodeMemx])
theorem amomax (d : BitVec 6) (a : BitVec 6) (b : BitVec 6) (w : Bool) : Statement (.amomax d a b w) := by
  cases w <;> exact of_fields _ rfl (by simp [decodeFields, decodeMemx])
theorem amominn (d : BitVec 6) (a : BitVec 6) (b : BitVec 6) (w : Bool) : Statement (.amominn d a b w) := by
  cases w <;> exact of_fields _ rfl (by simp [decodeFields, decodeMemx])
theorem amomaxn (d : BitVec 6) (a : BitVec 6) (b : BitVec 6) (w : Bool) : Statement (.amomaxn d a b w) := by
  cases w <;> exact of_fields _ rfl (by simp [decodeFields, decodeMemx])
theorem amoand (d : BitVec 6) (a : BitVec 6) (b : BitVec 6) (w : Bool) : Statement (.amoand d a b w) := by
  cases w <;> exact of_fields _ rfl (by simp [decodeFields, decodeMemx])
theorem amoor (d : BitVec 6) (a : BitVec 6) (b : BitVec 6) (w : Bool) : Statement (.amoor d a b w) := by
  cases w <;> exact of_fields _ rfl (by simp [decodeFields, decodeMemx])
theorem amoxor (d : BitVec 6) (a : BitVec 6) (b : BitVec 6) (w : Bool) : Statement (.amoxor d a b w) := by
  cases w <;> exact of_fields _ rfl (by simp [decodeFields, decodeMemx])
theorem tclr (x : TaintName) : Statement (.tclr x) := by
  exact of_fields _ rfl (by simp [decodeFields, decodeMemx])
theorem tdep (x : TaintName) (y : TaintName) : Statement (.tdep x y) := by
  exact of_fields _ rfl (by simp [decodeFields, decodeMemx])
theorem bind (d : BitVec 6) (a : BitVec 6) (b : BitVec 6) : Statement (.bind d a b) := of_fields _ rfl (by simp [decodeFields, decodeMemx])
theorem unbind (a : BitVec 6) : Statement (.unbind a) := of_fields _ rfl (by simp [decodeFields, decodeMemx])
theorem pgshare (d : BitVec 6) (a : BitVec 6) (b : BitVec 6) : Statement (.pgshare d a b) := of_fields _ rfl (by simp [decodeFields, decodeMemx])
theorem pgdrop (a : BitVec 6) (b : BitVec 6) : Statement (.pgdrop a b) := of_fields _ rfl (by simp [decodeFields, decodeMemx])
theorem splook (d : BitVec 6) (a : BitVec 6) : Statement (.splook d a) := of_fields _ rfl (by simp [decodeFields, decodeMemx])
theorem spset (d : BitVec 6) (a : BitVec 6) (b : BitVec 6) : Statement (.spset d a b) := of_fields _ rfl (by simp [decodeFields, decodeMemx])
theorem prefetch (a : BitVec 6) : Statement (.prefetch a) := of_fields _ rfl (by simp [decodeFields, decodeMemx])
theorem beq (a : BitVec 6) (b : BitVec 6) (o : BitVec 14) : Statement (.beq a b o) := by
  exact of_fields _ rfl (by simp [decodeFields])
theorem bne (a : BitVec 6) (b : BitVec 6) (o : BitVec 14) : Statement (.bne a b o) := by
  exact of_fields _ rfl (by simp [decodeFields])
theorem blt (a : BitVec 6) (b : BitVec 6) (o : BitVec 14) : Statement (.blt a b o) := by
  exact of_fields _ rfl (by simp [decodeFields])
theorem bge (a : BitVec 6) (b : BitVec 6) (o : BitVec 14) : Statement (.bge a b o) := by
  exact of_fields _ rfl (by simp [decodeFields])
theorem bltn (a : BitVec 6) (b : BitVec 6) (o : BitVec 14) : Statement (.bltn a b o) := by
  exact of_fields _ rfl (by simp [decodeFields])
theorem bgen (a : BitVec 6) (b : BitVec 6) (o : BitVec 14) : Statement (.bgen a b o) := by
  exact of_fields _ rfl (by simp [decodeFields])
theorem jal (d : BitVec 6) (o : BitVec 20) : Statement (.jal d o) := by
  exact of_fields _ rfl (by simp [decodeFields])
theorem jalr (d : BitVec 6) (a : BitVec 6) (i : BitVec 14) : Statement (.jalr d a i) := by
  exact of_fields _ rfl (by simp [decodeFields])
theorem fadd (d : BitVec 5) (a : BitVec 5) (b : BitVec 5) (w : Bool) : Statement (.fadd d a b w) := by
  cases w <;> exact of_fields _ rfl (by simp [decodeFields, decodeFop])
theorem fsub (d : BitVec 5) (a : BitVec 5) (b : BitVec 5) (w : Bool) : Statement (.fsub d a b w) := by
  cases w <;> exact of_fields _ rfl (by simp [decodeFields, decodeFop])
theorem fmul (d : BitVec 5) (a : BitVec 5) (b : BitVec 5) (w : Bool) : Statement (.fmul d a b w) := by
  cases w <;> exact of_fields _ rfl (by simp [decodeFields, decodeFop])
theorem fdiv (d : BitVec 5) (a : BitVec 5) (b : BitVec 5) (w : Bool) : Statement (.fdiv d a b w) := by
  cases w <;> exact of_fields _ rfl (by simp [decodeFields, decodeFop])
theorem fsqrt (d : BitVec 5) (a : BitVec 5) (w : Bool) : Statement (.fsqrt d a w) := by
  cases w <;> exact of_fields _ rfl (by simp [decodeFields, decodeFop])
theorem fmin (d : BitVec 5) (a : BitVec 5) (b : BitVec 5) (w : Bool) : Statement (.fmin d a b w) := by
  cases w <;> exact of_fields _ rfl (by simp [decodeFields, decodeFop])
theorem fmax (d : BitVec 5) (a : BitVec 5) (b : BitVec 5) (w : Bool) : Statement (.fmax d a b w) := by
  cases w <;> exact of_fields _ rfl (by simp [decodeFields, decodeFop])
theorem fabs (d : BitVec 5) (a : BitVec 5) (w : Bool) : Statement (.fabs d a w) := by
  cases w <;> exact of_fields _ rfl (by simp [decodeFields, decodeFop])
theorem fneg (d : BitVec 5) (a : BitVec 5) (w : Bool) : Statement (.fneg d a w) := by
  cases w <;> exact of_fields _ rfl (by simp [decodeFields, decodeFop])
theorem fsignof (d : BitVec 5) (a : BitVec 5) (b : BitVec 5) (w : Bool) : Statement (.fsignof d a b w) := by
  cases w <;> exact of_fields _ rfl (by simp [decodeFields, decodeFop])
theorem feq (d : BitVec 6) (a : BitVec 5) (b : BitVec 5) (w : Bool) : Statement (.feq d a b w) := by
  cases w <;> exact of_fields _ rfl (by simp [decodeFields, decodeFop])
theorem flt (d : BitVec 6) (a : BitVec 5) (b : BitVec 5) (w : Bool) : Statement (.flt d a b w) := by
  cases w <;> exact of_fields _ rfl (by simp [decodeFields, decodeFop])
theorem fle (d : BitVec 6) (a : BitVec 5) (b : BitVec 5) (w : Bool) : Statement (.fle d a b w) := by
  cases w <;> exact of_fields _ rfl (by simp [decodeFields, decodeFop])
theorem fcvti (d : BitVec 6) (a : BitVec 5) (w : Bool) : Statement (.fcvti d a w) := by
  cases w <;> exact of_fields _ rfl (by simp [decodeFields, decodeFop])
theorem fcvtf (d : BitVec 5) (a : BitVec 6) (w : Bool) : Statement (.fcvtf d a w) := by
  cases w <;> exact of_fields _ rfl (by simp [decodeFields, decodeFop])
theorem fmvsf (d : BitVec 6) (a : BitVec 5) (w : Bool) : Statement (.fmvsf d a w) := by
  cases w <;> exact of_fields _ rfl (by simp [decodeFields, decodeFop])
theorem fmvfs (d : BitVec 5) (a : BitVec 6) (w : Bool) : Statement (.fmvfs d a w) := by
  cases w <;> exact of_fields _ rfl (by simp [decodeFields, decodeFop])
theorem ftrust (d : BitVec 6) (a : BitVec 5) (w : Bool) : Statement (.ftrust d a w) := by
  cases w <;> exact of_fields _ rfl (by simp [decodeFields, decodeFop])
theorem ftrset (d : BitVec 5) (a : BitVec 5) (b : BitVec 6) (w : Bool) : Statement (.ftrset d a b w) := by
  cases w <;> exact of_fields _ rfl (by simp [decodeFields, decodeFop])
theorem fwiden (d : BitVec 5) (a : BitVec 5) : Statement (.fwiden d a) := by
  exact of_fields _ rfl (by simp [decodeFields, decodeFop])
theorem fnarrow (d : BitVec 5) (a : BitVec 5) : Statement (.fnarrow d a) := by
  exact of_fields _ rfl (by simp [decodeFields, decodeFop])
theorem fma (d : BitVec 5) (a : BitVec 5) (b : BitVec 5) (c : BitVec 5) (w : Bool) : Statement (.fma d a b c w) := by
  cases w <;> exact of_fields _ rfl (by simp [decodeFields, decodeFfma])
theorem fms (d : BitVec 5) (a : BitVec 5) (b : BitVec 5) (c : BitVec 5) (w : Bool) : Statement (.fms d a b c w) := by
  cases w <;> exact of_fields _ rfl (by simp [decodeFields, decodeFfma])
theorem fnma (d : BitVec 5) (a : BitVec 5) (b : BitVec 5) (c : BitVec 5) (w : Bool) : Statement (.fnma d a b c w) := by
  cases w <;> exact of_fields _ rfl (by simp [decodeFields, decodeFfma])
theorem fnms (d : BitVec 5) (a : BitVec 5) (b : BitVec 5) (c : BitVec 5) (w : Bool) : Statement (.fnms d a b c w) := by
  cases w <;> exact of_fields _ rfl (by simp [decodeFields, decodeFfma])
theorem fldd (d : BitVec 5) (a : BitVec 6) (i : BitVec 14) : Statement (.fldd d a i) := by
  exact of_fields _ rfl (by simp [decodeFields])
theorem fldw (d : BitVec 5) (a : BitVec 6) (i : BitVec 14) : Statement (.fldw d a i) := by
  exact of_fields _ rfl (by simp [decodeFields])
theorem fstd (d : BitVec 5) (a : BitVec 6) (i : BitVec 14) : Statement (.fstd d a i) := by
  exact of_fields _ rfl (by simp [decodeFields])
theorem fstw (d : BitVec 5) (a : BitVec 6) (i : BitVec 14) : Statement (.fstw d a i) := by
  exact of_fields _ rfl (by simp [decodeFields])
theorem vfetch (a : BitVec 6) (i : BitVec 14) : Statement (.vfetch a i) := by
  exact of_fields _ rfl (by simp [decodeFields])
theorem pbr (k : BitVec 4) (c : BitVec 2) (o : BitVec 16) : Statement (.pbr k c o) := by
  exact of_fields _ rfl (by simp [decodeFields, decodePctl])
theorem pfetch (o : BitVec 16) : Statement (.pfetch o) := by
  exact of_fields _ rfl (by simp [decodeFields, decodePctl])
theorem vadd (d : BitVec 6) (a : BitVec 6) (b : BOp) : Statement (.vadd d a b) := by
  exact of_fields _ rfl (by simp [decodeFields, decodeVint])
theorem vsub (d : BitVec 6) (a : BitVec 6) (b : BOp) : Statement (.vsub d a b) := by
  exact of_fields _ rfl (by simp [decodeFields, decodeVint])
theorem vrsub (d : BitVec 6) (a : BitVec 6) (b : BOp) : Statement (.vrsub d a b) := by
  exact of_fields _ rfl (by simp [decodeFields, decodeVint])
theorem vneg (d : BitVec 6) (a : BitVec 6) : Statement (.vneg d a) := of_fields _ rfl (by simp [decodeFields, decodeVint])
theorem vabs (d : BitVec 6) (a : BitVec 6) : Statement (.vabs d a) := of_fields _ rfl (by simp [decodeFields, decodeVint])
theorem vmul (d : BitVec 6) (a : BitVec 6) (b : BOp) : Statement (.vmul d a b) := by
  exact of_fields _ rfl (by simp [decodeFields, decodeVint])
theorem vmulh (d : BitVec 6) (a : BitVec 6) (b : BOp) : Statement (.vmulh d a b) := by
  exact of_fields _ rfl (by simp [decodeFields, decodeVint])
theorem vmac (d : BitVec 6) (a : BitVec 6) (b : BOp) : Statement (.vmac d a b) := by
  exact of_fields _ rfl (by simp [decodeFields, decodeVint])
theorem vmacp (d : BitVec 6) (a : BitVec 6) (b : BOp) : Statement (.vmacp d a b) := by
  exact of_fields _ rfl (by simp [decodeFields, decodeVint])
theorem vdiv (d : BitVec 6) (a : BitVec 6) (b : BOp) : Statement (.vdiv d a b) := by
  exact of_fields _ rfl (by simp [decodeFields, decodeVint])
theorem vrem (d : BitVec 6) (a : BitVec 6) (b : BOp) : Statement (.vrem d a b) := by
  exact of_fields _ rfl (by simp [decodeFields, decodeVint])
theorem vmin (d : BitVec 6) (a : BitVec 6) (b : BOp) : Statement (.vmin d a b) := by
  exact of_fields _ rfl (by simp [decodeFields, decodeVint])
theorem vmax (d : BitVec 6) (a : BitVec 6) (b : BOp) : Statement (.vmax d a b) := by
  exact of_fields _ rfl (by simp [decodeFields, decodeVint])
theorem vshl (d : BitVec 6) (a : BitVec 6) (b : BOp) : Statement (.vshl d a b) := by
  exact of_fields _ rfl (by simp [decodeFields, decodeVint])
theorem vshr (d : BitVec 6) (a : BitVec 6) (b : BOp) : Statement (.vshr d a b) := by
  exact of_fields _ rfl (by simp [decodeFields, decodeVint])
theorem vrshr (d : BitVec 6) (a : BitVec 6) (b : BOp) : Statement (.vrshr d a b) := by
  exact of_fields _ rfl (by simp [decodeFields, decodeVint])
theorem vsat (d : BitVec 6) (a : BitVec 6) : Statement (.vsat d a) := of_fields _ rfl (by simp [decodeFields, decodeVint])
theorem vmov (d : BitVec 6) (a : BitVec 6) : Statement (.vmov d a) := of_fields _ rfl (by simp [decodeFields, decodeVint])
theorem vcvt (d : BitVec 6) (a : BitVec 6) : Statement (.vcvt d a) := of_fields _ rfl (by simp [decodeFields, decodeVint])
theorem vclz (d : BitVec 6) (a : BitVec 6) : Statement (.vclz d a) := of_fields _ rfl (by simp [decodeFields, decodeVint])
theorem vpopc (d : BitVec 6) (a : BitVec 6) : Statement (.vpopc d a) := of_fields _ rfl (by simp [decodeFields, decodeVint])
theorem vfadd (d : BitVec 6) (a : BitVec 6) (b : BOp) : Statement (.vfadd d a b) := by
  exact of_fields _ rfl (by simp [decodeFields, decodeVflt])
theorem vfsub (d : BitVec 6) (a : BitVec 6) (b : BOp) : Statement (.vfsub d a b) := by
  exact of_fields _ rfl (by simp [decodeFields, decodeVflt])
theorem vfmul (d : BitVec 6) (a : BitVec 6) (b : BOp) : Statement (.vfmul d a b) := by
  exact of_fields _ rfl (by simp [decodeFields, decodeVflt])
theorem vfdiv (d : BitVec 6) (a : BitVec 6) (b : BOp) : Statement (.vfdiv d a b) := by
  exact of_fields _ rfl (by simp [decodeFields, decodeVflt])
theorem vfsqrt (d : BitVec 6) (a : BitVec 6) : Statement (.vfsqrt d a) := of_fields _ rfl (by simp [decodeFields, decodeVflt])
theorem vfmin (d : BitVec 6) (a : BitVec 6) (b : BOp) : Statement (.vfmin d a b) := by
  exact of_fields _ rfl (by simp [decodeFields, decodeVflt])
theorem vfmax (d : BitVec 6) (a : BitVec 6) (b : BOp) : Statement (.vfmax d a b) := by
  exact of_fields _ rfl (by simp [decodeFields, decodeVflt])
theorem vfabs (d : BitVec 6) (a : BitVec 6) : Statement (.vfabs d a) := of_fields _ rfl (by simp [decodeFields, decodeVflt])
theorem vfneg (d : BitVec 6) (a : BitVec 6) : Statement (.vfneg d a) := of_fields _ rfl (by simp [decodeFields, decodeVflt])
theorem vfcvt (d : BitVec 6) (a : BitVec 6) (t : EType) : Statement (.vfcvt d a t) := by
  exact of_fields _ rfl (by simp [decodeFields, decodeVflt])
theorem vtrust (d : BitVec 6) (a : BitVec 6) : Statement (.vtrust d a) := of_fields _ rfl (by simp [decodeFields, decodeVflt])
theorem vtrset (d : BitVec 6) (a : BitVec 6) (b : BOp) : Statement (.vtrset d a b) := by
  exact of_fields _ rfl (by simp [decodeFields, decodeVflt])
theorem vfexp2 (d : BitVec 6) (a : BitVec 6) : Statement (.vfexp2 d a) := of_fields _ rfl (by simp [decodeFields, decodeVflt])
theorem vflog2 (d : BitVec 6) (a : BitVec 6) : Statement (.vflog2 d a) := of_fields _ rfl (by simp [decodeFields, decodeVflt])
theorem vfrcp (d : BitVec 6) (a : BitVec 6) : Statement (.vfrcp d a) := of_fields _ rfl (by simp [decodeFields, decodeVflt])
theorem vfrsq (d : BitVec 6) (a : BitVec 6) : Statement (.vfrsq d a) := of_fields _ rfl (by simp [decodeFields, decodeVflt])
theorem vfma (d : BitVec 6) (a : BitVec 6) (b : BitVec 6) (c : BitVec 6) : Statement (.vfma d a b c) := by
  exact of_fields _ rfl (by simp [decodeFields, decodeVfma])
theorem vfms (d : BitVec 6) (a : BitVec 6) (b : BitVec 6) (c : BitVec 6) : Statement (.vfms d a b c) := by
  exact of_fields _ rfl (by simp [decodeFields, decodeVfma])
theorem vfnma (d : BitVec 6) (a : BitVec 6) (b : BitVec 6) (c : BitVec 6) : Statement (.vfnma d a b c) := by
  exact of_fields _ rfl (by simp [decodeFields, decodeVfma])
theorem vfnms (d : BitVec 6) (a : BitVec 6) (b : BitVec 6) (c : BitVec 6) : Statement (.vfnms d a b c) := by
  exact of_fields _ rfl (by simp [decodeFields, decodeVfma])
theorem vand (d : BitVec 6) (a : BitVec 6) (b : BOp) : Statement (.vand d a b) := by
  exact of_fields _ rfl (by simp [decodeFields, decodeVbit])
theorem vor (d : BitVec 6) (a : BitVec 6) (b : BOp) : Statement (.vor d a b) := by
  exact of_fields _ rfl (by simp [decodeFields, decodeVbit])
theorem vxor (d : BitVec 6) (a : BitVec 6) (b : BOp) : Statement (.vxor d a b) := by
  exact of_fields _ rfl (by simp [decodeFields, decodeVbit])
theorem vandn (d : BitVec 6) (a : BitVec 6) (b : BOp) : Statement (.vandn d a b) := by
  exact of_fields _ rfl (by simp [decodeFields, decodeVbit])
theorem vnot (d : BitVec 6) (a : BitVec 6) : Statement (.vnot d a) := of_fields _ rfl (by simp [decodeFields, decodeVbit])
theorem vsel (d : BitVec 6) (a : BitVec 6) (b : BOp) : Statement (.vsel d a b) := by
  exact of_fields _ rfl (by simp [decodeFields, decodeVbit])
theorem vcmpEq (k : BitVec 4) (m : BitVec 2) (a : BitVec 6) (b : BOp) : Statement (.vcmpEq k m a b) := by
  exact of_fields _ rfl (by simp [decodeFields, decodeVcmp])
theorem vcmpNe (k : BitVec 4) (m : BitVec 2) (a : BitVec 6) (b : BOp) : Statement (.vcmpNe k m a b) := by
  exact of_fields _ rfl (by simp [decodeFields, decodeVcmp])
theorem vcmpLt (k : BitVec 4) (m : BitVec 2) (a : BitVec 6) (b : BOp) : Statement (.vcmpLt k m a b) := by
  exact of_fields _ rfl (by simp [decodeFields, decodeVcmp])
theorem vcmpLe (k : BitVec 4) (m : BitVec 2) (a : BitVec 6) (b : BOp) : Statement (.vcmpLe k m a b) := by
  exact of_fields _ rfl (by simp [decodeFields, decodeVcmp])
theorem vcmpGt (k : BitVec 4) (m : BitVec 2) (a : BitVec 6) (b : BOp) : Statement (.vcmpGt k m a b) := by
  exact of_fields _ rfl (by simp [decodeFields, decodeVcmp])
theorem vcmpGe (k : BitVec 4) (m : BitVec 2) (a : BitVec 6) (b : BOp) : Statement (.vcmpGe k m a b) := by
  exact of_fields _ rfl (by simp [decodeFields, decodeVcmp])
theorem vcmpTrlt (k : BitVec 4) (m : BitVec 2) (a : BitVec 6) : Statement (.vcmpTrlt k m a) := by
  exact of_fields _ rfl (by simp [decodeFields, decodeVcmp])
theorem vcmpNan (k : BitVec 4) (m : BitVec 2) (a : BitVec 6) : Statement (.vcmpNan k m a) := by
  exact of_fields _ rfl (by simp [decodeFields, decodeVcmp])
theorem vcmpInf (k : BitVec 4) (m : BitVec 2) (a : BitVec 6) : Statement (.vcmpInf k m a) := by
  exact of_fields _ rfl (by simp [decodeFields, decodeVcmp])
theorem vsrch (k : BitVec 4) (m : BitVec 2) (a : BitVec 6) (y : BitVec 6) (z : BitVec 6) : Statement (.vsrch k m a y z) := by
  exact of_fields _ rfl (by simp [decodeFields, decodeVsrch])
theorem vwrt (k : BitVec 4) (a : BitVec 6) (y : BitVec 6) (z : BitVec 6) : Statement (.vwrt k a y z) := by
  exact of_fields _ rfl (by simp [decodeFields, decodeVsrch])
theorem kand (d : BitVec 4) (a : BitVec 4) (b : BitVec 4) : Statement (.kand d a b) := by
  exact of_fields _ rfl (by simp [decodeFields, decodeKop])
theorem kor (d : BitVec 4) (a : BitVec 4) (b : BitVec 4) : Statement (.kor d a b) := by
  exact of_fields _ rfl (by simp [decodeFields, decodeKop])
theorem kxor (d : BitVec 4) (a : BitVec 4) (b : BitVec 4) : Statement (.kxor d a b) := by
  exact of_fields _ rfl (by simp [decodeFields, decodeKop])
theorem kandn (d : BitVec 4) (a : BitVec 4) (b : BitVec 4) : Statement (.kandn d a b) := by
  exact of_fields _ rfl (by simp [decodeFields, decodeKop])
theorem knot (d : BitVec 4) (a : BitVec 4) : Statement (.knot d a) := by
  exact of_fields _ rfl (by simp [decodeFields, decodeKop])
theorem kmov (d : BitVec 4) (a : BitVec 4) : Statement (.kmov d a) := by
  exact of_fields _ rfl (by simp [decodeFields, decodeKop])
theorem kset (d : BitVec 4) : Statement (.kset d) := by
  exact of_fields _ rfl (by simp [decodeFields, decodeKop])
theorem kclr (d : BitVec 4) : Statement (.kclr d) := by
  exact of_fields _ rfl (by simp [decodeFields, decodeKop])
theorem kpop (a : BitVec 4) (x : BitVec 6) : Statement (.kpop a x) := by
  exact of_fields _ rfl (by simp [decodeFields, decodeKop])
theorem kfirst (d : BitVec 4) (a : BitVec 4) (x : BitVec 6) : Statement (.kfirst d a x) := by
  exact of_fields _ rfl (by simp [decodeFields, decodeKop])
theorem kone (d : BitVec 4) (x : BitVec 6) : Statement (.kone d x) := by
  exact of_fields _ rfl (by simp [decodeFields, decodeKop])
theorem kshift (d : BitVec 4) (a : BitVec 4) (x : BitVec 6) : Statement (.kshift d a x) := by
  exact of_fields _ rfl (by simp [decodeFields, decodeKop])
theorem kfrom (d : BitVec 4) (x : BitVec 6) : Statement (.kfrom d x) := by
  exact of_fields _ rfl (by simp [decodeFields, decodeKop])
theorem kto (a : BitVec 4) (x : BitVec 6) : Statement (.kto a x) := by
  exact of_fields _ rfl (by simp [decodeFields, decodeKop])
theorem vrsum (d : BitVec 6) (a : BitVec 6) : Statement (.vrsum d a) := of_fields _ rfl (by simp [decodeFields, decodeVred])
theorem vrmin (d : BitVec 6) (a : BitVec 6) : Statement (.vrmin d a) := of_fields _ rfl (by simp [decodeFields, decodeVred])
theorem vrmax (d : BitVec 6) (a : BitVec 6) : Statement (.vrmax d a) := of_fields _ rfl (by simp [decodeFields, decodeVred])
theorem vrand (d : BitVec 6) (a : BitVec 6) : Statement (.vrand d a) := of_fields _ rfl (by simp [decodeFields, decodeVred])
theorem vror (d : BitVec 6) (a : BitVec 6) : Statement (.vror d a) := of_fields _ rfl (by simp [decodeFields, decodeVred])
theorem vrxor (d : BitVec 6) (a : BitVec 6) : Statement (.vrxor d a) := of_fields _ rfl (by simp [decodeFields, decodeVred])
theorem vrfsum (d : BitVec 5) (a : BitVec 6) : Statement (.vrfsum d a) := by
  exact of_fields _ rfl (by simp [decodeFields, decodeVred])
theorem vrfmax (d : BitVec 5) (a : BitVec 6) : Statement (.vrfmax d a) := by
  exact of_fields _ rfl (by simp [decodeFields, decodeVred])
theorem vrfmin (d : BitVec 5) (a : BitVec 6) : Statement (.vrfmin d a) := by
  exact of_fields _ rfl (by simp [decodeFields, decodeVred])
theorem vrargmax (d : BitVec 6) (a : BitVec 6) : Statement (.vrargmax d a) := of_fields _ rfl (by simp [decodeFields, decodeVred])
theorem vrargmin (d : BitVec 6) (a : BitVec 6) : Statement (.vrargmin d a) := of_fields _ rfl (by simp [decodeFields, decodeVred])
theorem vextr (d : BitVec 6) (a : BitVec 6) (b : BitVec 6) : Statement (.vextr d a b) := of_fields _ rfl (by simp [decodeFields, decodeVred])
theorem vtopk (k : BitVec 4) (a : BitVec 6) (b : BitVec 6) : Statement (.vtopk k a b) := by
  exact of_fields _ rfl (by simp [decodeFields, decodeSearch])
theorem vbotk (k : BitVec 4) (a : BitVec 6) (b : BitVec 6) : Statement (.vbotk k a b) := by
  exact of_fields _ rfl (by simp [decodeFields, decodeSearch])
theorem vmaxt (k : BitVec 4) (a : BitVec 6) : Statement (.vmaxt k a) := by
  exact of_fields _ rfl (by simp [decodeFields, decodeSearch])
theorem vmint (k : BitVec 4) (a : BitVec 6) : Statement (.vmint k a) := by
  exact of_fields _ rfl (by simp [decodeFields, decodeSearch])
theorem vconf (k : BitVec 4) (a : BitVec 6) : Statement (.vconf k a) := by
  exact of_fields _ rfl (by simp [decodeFields, decodeSearch])
theorem vneark (k : BitVec 4) (a : BitVec 6) (b : BitVec 6) : Statement (.vneark k a b) := by
  exact of_fields _ rfl (by simp [decodeFields, decodeSearch])
theorem vslideup (d : BitVec 6) (a : BitVec 6) (b : BitVec 6) : Statement (.vslideup d a b) := of_fields _ rfl (by simp [decodeFields, decodeVmove])
theorem vslidedn (d : BitVec 6) (a : BitVec 6) (b : BitVec 6) : Statement (.vslidedn d a b) := of_fields _ rfl (by simp [decodeFields, decodeVmove])
theorem vslidein (d : BitVec 6) (a : BitVec 6) (b : BitVec 6) : Statement (.vslidein d a b) := of_fields _ rfl (by simp [decodeFields, decodeVmove])
theorem vperm (d : BitVec 6) (a : BitVec 6) (b : BOp) : Statement (.vperm d a b) := by
  exact of_fields _ rfl (by simp [decodeFields, decodeVmove])
theorem vcompact (d : BitVec 6) : Statement (.vcompact d) := of_fields _ rfl (by simp [decodeFields, decodeVmove])
theorem vscan (d : BitVec 6) (a : BitVec 6) : Statement (.vscan d a) := of_fields _ rfl (by simp [decodeFields, decodeVmove])
theorem viota (d : BitVec 6) : Statement (.viota d) := of_fields _ rfl (by simp [decodeFields, decodeVmove])
theorem vbcast (d : BitVec 6) (a : BitVec 6) (b : BitVec 6) : Statement (.vbcast d a b) := of_fields _ rfl (by simp [decodeFields, decodeVmove])
theorem vldu (d : BitVec 6) (a : BitVec 6) : Statement (.vldu d a) := of_fields _ rfl (by simp [decodeFields, decodeVld])
theorem vlds (d : BitVec 6) (a : BitVec 6) (b : BitVec 6) : Statement (.vlds d a b) := of_fields _ rfl (by simp [decodeFields, decodeVld])
theorem vldx (d : BitVec 6) (a : BitVec 6) (b : BOp) : Statement (.vldx d a b) := by
  exact of_fields _ rfl (by simp [decodeFields, decodeVld])
theorem vldl (d : BitVec 6) (a : BitVec 6) (b : BOp) : Statement (.vldl d a b) := by
  exact of_fields _ rfl (by simp [decodeFields, decodeVld])
theorem vstu (d : BitVec 6) (a : BitVec 6) : Statement (.vstu d a) := of_fields _ rfl (by simp [decodeFields, decodeVst])
theorem vsts (d : BitVec 6) (a : BitVec 6) (b : BitVec 6) : Statement (.vsts d a b) := of_fields _ rfl (by simp [decodeFields, decodeVst])
theorem vstx (d : BitVec 6) (a : BitVec 6) (b : BOp) : Statement (.vstx d a b) := by
  exact of_fields _ rfl (by simp [decodeFields, decodeVst])
theorem vstadd (d : BitVec 6) (a : BitVec 6) (b : BOp) : Statement (.vstadd d a b) := by
  exact of_fields _ rfl (by simp [decodeFields, decodeVst])
theorem vstef (d : BitVec 6) (a : BitVec 6) (t : EType) : Statement (.vstef d a t) := by
  exact of_fields _ rfl (by simp [decodeFields, decodeVst])
theorem vstl (d : BitVec 6) (a : BitVec 6) (b : BOp) : Statement (.vstl d a b) := by
  exact of_fields _ rfl (by simp [decodeFields, decodeVst])
theorem vsoft (d : BitVec 6) (a : BitVec 6) (b : BitVec 5) : Statement (.vsoft d a b) := by
  exact of_fields _ rfl (by simp [decodeFields, decodeVspec])
theorem vcollapse (d : BitVec 6) (a : BitVec 6) (b : BitVec 6) : Statement (.vcollapse d a b) := of_fields _ rfl (by simp [decodeFields, decodeVspec])
theorem fmap (v : BitVec 6) (b : BitVec 10) (w : BitVec 7) (t : Bool) : Statement (.fmap v b w t) := by
  cases t <;> exact of_fields _ rfl (by simp [decodeFields])
theorem mcfg (a : BitVec 6) (n : BitVec 2) : Statement (.mcfg a n) := by
  exact of_fields _ rfl (by simp [decodeFields, decodeMat])
theorem mwld (a : BitVec 6) (b : BitVec 6) (n : BitVec 2) : Statement (.mwld a b n) := by
  exact of_fields _ rfl (by simp [decodeFields, decodeMat])
theorem mwlds (a : BitVec 6) (b : BitVec 6) (c : BitVec 6) (n : BitVec 2) : Statement (.mwlds a b c n) := by
  exact of_fields _ rfl (by simp [decodeFields, decodeMat])
theorem mstr (a : BitVec 6) (b : BitVec 6) (n : BitVec 2) : Statement (.mstr a b n) := by
  exact of_fields _ rfl (by simp [decodeFields, decodeMat])
theorem mdrn (a : BitVec 6) (b : BitVec 6) (n : BitVec 2) : Statement (.mdrn a b n) := by
  exact of_fields _ rfl (by simp [decodeFields, decodeMat])
theorem mdrnv (a : BitVec 6) (b : BitVec 6) (n : BitVec 2) : Statement (.mdrnv a b n) := by
  exact of_fields _ rfl (by simp [decodeFields, decodeMat])
theorem mzero (n : BitVec 2) : Statement (.mzero n) := by
  exact of_fields _ rfl (by simp [decodeFields, decodeMat])
theorem mchk (a : BitVec 6) (n : BitVec 2) : Statement (.mchk a n) := by
  exact of_fields _ rfl (by simp [decodeFields, decodeMat])
theorem spcomp (a : BitVec 6) (b : BitVec 6) (c : BitVec 6) : Statement (.spcomp a b c) := of_fields _ rfl (by simp [decodeFields, decodeMat])
theorem arrinit (d : BitVec 6) (a : BitVec 6) (b : BitVec 6) : Statement (.arrinit d a b) := of_fields _ rfl (by simp [decodeFields, decodeCpy])
theorem arradd (d : BitVec 6) (a : BitVec 6) (b : BitVec 6) : Statement (.arradd d a b) := of_fields _ rfl (by simp [decodeFields, decodeCpy])
theorem arrwait (d : BitVec 6) (a : BitVec 6) (b : BitVec 6) : Statement (.arrwait d a b) := of_fields _ rfl (by simp [decodeFields, decodeCpy])
theorem srr (d : BitVec 6) (i : BitVec 12) : Statement (.srr d i) := by
  exact of_fields _ rfl (by simp [decodeFields])
theorem srw (a : BitVec 6) (i : BitVec 12) : Statement (.srw a i) := by
  exact of_fields _ rfl (by simp [decodeFields])
theorem nop  : Statement .nop := of_fields _ rfl (by simp [decodeFields, decodeSys])
theorem eret  : Statement .eret := of_fields _ rfl (by simp [decodeFields, decodeSys])
theorem wfe  : Statement .wfe := of_fields _ rfl (by simp [decodeFields, decodeSys])
theorem yield  : Statement .yield := of_fields _ rfl (by simp [decodeFields, decodeSys])
theorem halt  : Statement .halt := of_fields _ rfl (by simp [decodeFields, decodeSys])
theorem bkpt  : Statement .bkpt := of_fields _ rfl (by simp [decodeFields, decodeSys])
theorem synci  : Statement .synci := of_fields _ rfl (by simp [decodeFields, decodeSys])
theorem vjoin  : Statement .vjoin := of_fields _ rfl (by simp [decodeFields, decodeSys])
theorem unboost  : Statement .unboost := of_fields _ rfl (by simp [decodeFields, decodeSys])
theorem fenceSv  : Statement .fenceSv := of_fields _ rfl (by simp [decodeFields, decodeMemx])
theorem fenceVs  : Statement .fenceVs := of_fields _ rfl (by simp [decodeFields, decodeMemx])
theorem twait  : Statement .twait := of_fields _ rfl (by simp [decodeFields, decodeMemx])
theorem pend  : Statement .pend := of_fields _ rfl (by simp [decodeFields, decodePctl])
theorem pwait  : Statement .pwait := of_fields _ rfl (by simp [decodeFields, decodePctl])
theorem cpyg2l (d : BitVec 6) (a : BitVec 6) (b : BitVec 6) : Statement (.cpyg2l d a b) := of_fields _ rfl (by simp [decodeFields, decodeCpy])
theorem cpyl2g (d : BitVec 6) (a : BitVec 6) (b : BitVec 6) : Statement (.cpyl2g d a b) := of_fields _ rfl (by simp [decodeFields, decodeCpy])
theorem cpyl2l (d : BitVec 6) (a : BitVec 6) (b : BitVec 6) : Statement (.cpyl2l d a b) := of_fields _ rfl (by simp [decodeFields, decodeCpy])
theorem cpyg2g (d : BitVec 6) (a : BitVec 6) (b : BitVec 6) : Statement (.cpyg2g d a b) := of_fields _ rfl (by simp [decodeFields, decodeCpy])
theorem cpywait (d : BitVec 6) : Statement (.cpywait d) := of_fields _ rfl (by simp [decodeFields, decodeCpy])
theorem colrs (d : BitVec 6) (a : BitVec 6) (b : BitVec 6) : Statement (.colrs d a b) := of_fields _ rfl (by simp [decodeFields, decodeCol])
theorem colag (d : BitVec 6) (a : BitVec 6) (b : BitVec 6) : Statement (.colag d a b) := of_fields _ rfl (by simp [decodeFields, decodeCol])
theorem colar (d : BitVec 6) (a : BitVec 6) (b : BitVec 6) : Statement (.colar d a b) := of_fields _ rfl (by simp [decodeFields, decodeCol])
theorem colrot (d : BitVec 6) (a : BitVec 6) (b : BitVec 6) : Statement (.colrot d a b) := of_fields _ rfl (by simp [decodeFields, decodeCol])
theorem colwait (d : BitVec 6) (a : BitVec 6) : Statement (.colwait d a) := of_fields _ rfl (by simp [decodeFields, decodeCol])
theorem colstat (d : BitVec 6) (a : BitVec 6) : Statement (.colstat d a) := of_fields _ rfl (by simp [decodeFields, decodeCol])
theorem ctxctlMakeValid : Statement .ctxctlMakeValid := of_none rfl
theorem ctxctlClearValid : Statement .ctxctlClearValid := of_none rfl
theorem ctxctlKill : Statement .ctxctlKill := of_none rfl
theorem coolDown : Statement .coolDown := of_none rfl
theorem go : Statement .go := of_none rfl
theorem warmUp : Statement .warmUp := of_none rfl
theorem attest : Statement .attest := of_none rfl
theorem activateStagedImage : Statement .activateStagedImage := of_none rfl
theorem powerOn : Statement .powerOn := of_none rfl
theorem bootSlotTimeout : Statement .bootSlotTimeout := of_none rfl
theorem imageStartTimeout : Statement .imageStartTimeout := of_none rfl
theorem packageReset : Statement .packageReset := of_none rfl
theorem functionLevelReset : Statement .functionLevelReset := of_none rfl
theorem microcodeLoadTimeLimit : Statement .microcodeLoadTimeLimit := of_none rfl
theorem purgeComplete : Statement .purgeComplete := of_none rfl
theorem soakComplete : Statement .soakComplete := of_none rfl
theorem criticalSaveDeadline : Statement .criticalSaveDeadline := of_none rfl
theorem criticalRailsOff : Statement .criticalRailsOff := of_none rfl
theorem refreshOff : Statement .refreshOff := of_none rfl
theorem powerStepUndo : Statement .powerStepUndo := of_none rfl
theorem mailboxCommandDone : Statement .mailboxCommandDone := of_none rfl
theorem registerWrite (o : BitVec 26) (wide : Bool) (a : BarAccess) : Statement (.registerWrite o wide a) := of_none rfl
theorem flagsWrite (v : BitVec 64) : Statement (.flagsWrite v) := of_none rfl
theorem fpheadWrite (v : BitVec 64) : Statement (.fpheadWrite v) := of_none rfl
theorem checkedModeSet (on : Bool) : Statement (.checkedModeSet on) := of_none rfl
theorem dbgselWrite (v : BitVec 64) : Statement (.dbgselWrite v) := of_none rfl
theorem rowselWrite (t : Tid) (v : BitVec 64) : Statement (.rowselWrite t v) := of_none rfl
theorem qtailDoorbell (q : BitVec 6) (v : BitVec 32) : Statement (.qtailDoorbell q v) := of_none rfl
theorem qstatHaltedClear (q : BitVec 6) : Statement (.qstatHaltedClear q) := of_none rfl
theorem queueDisable (q : BitVec 6) : Statement (.queueDisable q) := of_none rfl
theorem preemptRequest (v : BitVec 64) : Statement (.preemptRequest v) := of_none rfl
theorem restoreRequest (v : BitVec 64) : Statement (.restoreRequest v) := of_none rfl
theorem migrationRequest (t : Tid) (dst : BitVec 12) : Statement (.migrationRequest t dst) := of_none rfl
theorem groupEnable (g : BitVec 6) (v : BitVec 64) : Statement (.groupEnable g v) := of_none rfl
theorem groupWithdraw (g : BitVec 6) (v : BitVec 64) : Statement (.groupWithdraw g v) := of_none rfl
theorem readCertificateChain (arg : BitVec 32) : Statement (.readCertificateChain arg) := of_none rfl
theorem stageImagePart (arg : BitVec 32) : Statement (.stageImagePart arg) := of_none rfl
theorem loadMicrocodeTable (arg : BitVec 32) : Statement (.loadMicrocodeTable arg) := of_none rfl
theorem retrainPeerPort (arg : BitVec 32) : Statement (.retrainPeerPort arg) := of_none rfl
theorem recalibrateHbmChannel (arg : BitVec 32) : Statement (.recalibrateHbmChannel arg) := of_none rfl
theorem substituteSpareCore (arg : BitVec 32) : Statement (.substituteSpareCore arg) := of_none rfl
theorem mailboxUnknownOp (op : BitVec 8) : Statement (.mailboxUnknownOp op) := of_none rfl
theorem msirqWrite (v : BitVec 64) : Statement (.msirqWrite v) := of_none rfl
theorem msixUnmask (c : MsixCtl) : Statement (.msixUnmask c) := of_none rfl
theorem hostBar2Write (o : BitVec 48) (bytes : List (BitVec 8)) : Statement (.hostBar2Write o bytes) := of_none rfl
theorem hostBar2Read (o : BitVec 48) (n : BitVec 13) : Statement (.hostBar2Read o n) := of_none rfl
theorem hostCompletion (pa : BitVec 48) (bytes : List (BitVec 8)) (err : Bool) : Statement (.hostCompletion pa bytes err) := of_none rfl
theorem launchHeadService (die : BitVec 3) : Statement (.launchHeadService die) := of_none rfl
theorem launchRetry (q : BitVec 6) : Statement (.launchRetry q) := of_none rfl
theorem heldStart (q : BitVec 6) : Statement (.heldStart q) := of_none rfl
theorem threadStart (t : Tid) : Statement (.threadStart t) := of_none rfl
theorem resumeListRestore (die : BitVec 3) : Statement (.resumeListRestore die) := of_none rfl
theorem threadAged (t : Tid) : Statement (.threadAged t) := of_none rfl
theorem yieldExpiry (t : Tid) : Statement (.yieldExpiry t) := of_none rfl
theorem wfeWake (t : Tid) : Statement (.wfeWake t) := of_none rfl
theorem wfeTimeout (t : Tid) : Statement (.wfeTimeout t) := of_none rfl
theorem plyBlockStart (t : Tid) (j : BitVec 4) : Statement (.plyBlockStart t j) := of_none rfl
theorem matrixOperationStart (core : BitVec 12) : Statement (.matrixOperationStart core) := of_none rfl
theorem matrixCheckResult (t : Tid) (fail : Bool) : Statement (.matrixCheckResult t fail) := of_none rfl
theorem checkedModeCheckResult (t : Tid) (fail : Bool) : Statement (.checkedModeCheckResult t fail) := of_none rfl
theorem committedStorePerform (t : Tid) : Statement (.committedStorePerform t) := of_none rfl
theorem stripErrorDetected (t : Tid) (src : BitVec 3) (addr : BitVec 64) : Statement (.stripErrorDetected t src addr) := of_none rfl
theorem stripSettle (t : Tid) : Statement (.stripSettle t) := of_none rfl
theorem trapDelivery (t : Tid) : Statement (.trapDelivery t) := of_none rfl
theorem contextSave (t : Tid) : Statement (.contextSave t) := of_none rfl
theorem contextRestore (ctx : BitVec 16) (entry : BitVec 8) : Statement (.contextRestore ctx entry) := of_none rfl
theorem streamComplete (t : Tid) : Statement (.streamComplete t) := of_none rfl
theorem forwardingEntryExpiry (t : Tid) : Statement (.forwardingEntryExpiry t) := of_none rfl
theorem loadDataArrival (t : Tid) (id : BitVec 4) : Statement (.loadDataArrival t id) := of_none rfl
theorem acquireRetire (t : Tid) (id : BitVec 4) : Statement (.acquireRetire t id) := of_none rfl
theorem sliceOperation (k : Nat) : Statement (.sliceOperation k) := of_none rfl
theorem casTurnExpiry (line : BitVec 41) : Statement (.casTurnExpiry line) := of_none rfl
theorem hbmFill (r : LineRead) : Statement (.hbmFill r) := of_none rfl
theorem replicaLock (k : Nat) : Statement (.replicaLock k) := of_none rfl
theorem replicaUpdate (k : Nat) : Statement (.replicaUpdate k) := of_none rfl
theorem pageWalk (t : Tid) (va : BitVec 64) : Statement (.pageWalk t va) := of_none rfl
theorem invalidationComplete (k : Nat) : Statement (.invalidationComplete k) := of_none rfl
theorem arrwaitWake (t : Tid) : Statement (.arrwaitWake t) := of_none rfl
theorem arrwaitReread (t : Tid) : Statement (.arrwaitReread t) := of_none rfl
theorem copyChunk (k : Nat) : Statement (.copyChunk k) := of_none rfl
theorem copyChunkFail (k : Nat) (code : BitVec 8) : Statement (.copyChunkFail k code) := of_none rfl
theorem copyDataFrameRx (port : BitVec 3) (f : CopyFrame) : Statement (.copyDataFrameRx port f) := of_none rfl
theorem remoteReadRequestRx (port : BitVec 3) (f : ReadFrame) : Statement (.remoteReadRequestRx port f) := of_none rfl
theorem remoteReadDataRx (port : BitVec 3) (f : ReadDataFrame) : Statement (.remoteReadDataRx port f) := of_none rfl
theorem collectiveDataFrameRx (port : BitVec 3) (f : ColFrame) : Statement (.collectiveDataFrameRx port f) := of_none rfl
theorem hopReceiptRx (port : BitVec 3) : Statement (.hopReceiptRx port) := of_none rfl
theorem deliveryReceiptRx (origin : BitVec 16) (r : Delivery) : Statement (.deliveryReceiptRx origin r) := of_none rfl
theorem slotReceiptRx (g : BitVec 6) (step : Nat) : Statement (.slotReceiptRx g step) := of_none rfl
theorem refusalRx (origin : BitVec 16) (seq : Nat) (code : BitVec 8) : Statement (.refusalRx origin seq code) := of_none rfl
theorem linkTimeout (port : BitVec 3) : Statement (.linkTimeout port) := of_none rfl
theorem linkDown (port : BitVec 3) : Statement (.linkDown port) := of_none rfl
theorem linkTrained (port : BitVec 3) : Statement (.linkTrained port) := of_none rfl
theorem pathTimeout (seq : Nat) : Statement (.pathTimeout seq) := of_none rfl
theorem groupTimeout (g : BitVec 6) : Statement (.groupTimeout g) := of_none rfl
theorem sensorSample (die : BitVec 3) (temp : BitVec 10) (stack0 : BitVec 10) (stack1 : BitVec 10) (flow : BitVec 16) (ratex : Bool) : Statement (.sensorSample die temp stack0 stack1 flow ratex) := of_none rfl
theorem criticalMark (cause : BitVec 2) : Statement (.criticalMark cause) := of_none rfl
theorem refreshBurstComplete (stack : BitVec 4) : Statement (.refreshBurstComplete stack) := of_none rfl
theorem powerMeasurement (p : PowerReading) : Statement (.powerMeasurement p) := of_none rfl
theorem leaseExpiry (t : Tid) : Statement (.leaseExpiry t) := of_none rfl
theorem bandReady (core : BitVec 12) (band : BitVec 2) : Statement (.bandReady core band) := of_none rfl
theorem regulatorHeadroomLow (die : BitVec 3) : Statement (.regulatorHeadroomLow die) := of_none rfl
theorem chainpRestore (die : BitVec 3) : Statement (.chainpRestore die) := of_none rfl
theorem frequencyTransitionSettle (cluster : BitVec 10) : Statement (.frequencyTransitionSettle cluster) := of_none rfl
theorem plyDrowsy (core : BitVec 12) (ply : BitVec 4) : Statement (.plyDrowsy core ply) := of_none rfl
theorem plyWake (core : BitVec 12) (ply : BitVec 4) : Statement (.plyWake core ply) := of_none rfl
theorem backgroundScrub (core : BitVec 12) (row : BitVec 12) : Statement (.backgroundScrub core row) := of_none rfl
theorem wordNotAnInstruction (w : BitVec 32) : Statement (.wordNotAnInstruction w) := of_none rfl
theorem instructionFetchFault (va : BitVec 64) : Statement (.instructionFetchFault va) := of_none rfl
theorem microcodePlyLoaded (core : BitVec 12) (ply : BitVec 4) : Statement (.microcodePlyLoaded core ply) := of_none rfl
theorem boostAnswer (t : Tid) (granted : BitVec 10) : Statement (.boostAnswer t granted) := of_none rfl
theorem resizableBarWrite (log2GiB : BitVec 4) : Statement (.resizableBarWrite log2GiB) := of_none rfl

end Sys2Proof.Laws.Encoding
end

