-- ==== Sys2Proof/Machine/Passes.lean ====
section
/-! DEFINITION. The compare-write passes of the shipped microcode table for the basic sequences: 11 R227, R232 to R234, 19 R380. The table
may be exchanged for one with other passes and no other results (R231), so what the instructions do stands in their meanings; the
carry latch and the counts of the trees hold nothing beyond the instruction (R23, R155, R228). -/
namespace Sys2Proof.Machine
open Sys2Proof

/-- A pass: the images of its key and its write, the terms it compares and what it writes in the carry latch and in one tag, and its
index range from lo up to but not including hi (R227). `fits` marks a pass that writes a saturated value (R233). -/
structure Pass where
  key : Row
  cmask : Row
  wpat : Row
  wmask : Row
  carry : Option Bool := none
  tag : Option (BitVec 4 × Bool) := none
  setCarry : Option Bool := none
  setTag : Option (BitVec 4 × Bool) := none
  lo : Nat := 0
  hi : Nat := 4096
  fits : Bool := false
  deriving DecidableEq, Repr

/-- A row of a ply as its sequencer sees it: the logical row it holds, whether that row is active, its columns, tags and carry latch. -/
structure PassRow where
  e : Nat
  active : Bool
  data : Row
  tags : BitVec 16
  carry : Bool
  deriving DecidableEq, Repr

/-- Whether a row is live for a pass. -/
def Pass.live (p : Pass) (x : PassRow) : Bool := x.active && decide (p.lo ≤ x.e) && decide (x.e < p.hi)

/-- Whether a pass hits a row. -/
def Pass.hit (p : Pass) (x : PassRow) : Bool :=
  p.live x && ((x.data ^^^ p.key) &&& p.cmask == 0) && p.carry.all (· == x.carry)
    && p.tag.all fun (k, b) => x.tags.getLsbD k.toNat == b

/-- A row after a pass. -/
def Pass.row (p : Pass) (x : PassRow) : PassRow :=
  if p.hit x then
    { x with
      data := (x.data &&& ~~~p.wmask) ||| (p.wpat &&& p.wmask)
      carry := p.setCarry.getD x.carry
      tags := match p.setTag with
        | none => x.tags
        | some (k, b) =>
          let m : BitVec 16 := 1 <<< k.toNat
          if k = 0 then x.tags else (x.tags &&& ~~~m) ||| (if b then m else 0) }
  else x

/-- What a pass reports: the rows it hit, which the popcount tree counts (R228), and the carry column after it. -/
structure PassReport where
  hits : List Nat
  carries : List Nat
  deriving DecidableEq, Repr

/-- The rows of a ply after a run of passes. -/
def runPasses (ps : List Pass) (rows : List PassRow) : List PassRow := ps.foldl (fun l p => l.map p.row) rows

/-- The reports of a run of passes, one per cycle. -/
def passReports : List Pass → List PassRow → List PassReport
  | [], _ => []
  | p :: ps, rows =>
    let after := rows.map p.row
    ⟨(rows.filter p.hit).map (·.e), (after.filter (·.carry)).map (·.e)⟩ :: passReports ps after

/-- The SAT flag of a run: the OR of the `any` reports of its saturating passes (R233). -/
def passSat (ps : List Pass) (rows : List PassRow) : Bool :=
  ((ps.zip (passReports ps rows)).filter fun (p, r) => p.fits && !r.hits.isEmpty) != []

/-! ### Add and subtract in place: R232, R233 -/

/-- Where the sequence finds bit i of A: in a column, a constant of a broadcast register, or beyond an unsigned field's width. -/
inductive ABit where
  | column (k : Nat)
  | const (b : Bool)
  | above
  deriving DecidableEq, Repr

/-- A row of Table 11.1 or 11.2: the key (C, A_i, B_i), the carry it writes, if any, and B_i. -/
structure BitPass where
  c : Bool
  a : Bool
  b : Bool
  setC : Option Bool
  write : Bool
  deriving DecidableEq, Repr

/-- Table 11.1. -/
def addTable : List BitPass :=
  [⟨false, true, true, some true, false⟩, ⟨false, true, false, none, true⟩,
   ⟨true, false, false, some false, true⟩, ⟨true, false, true, none, false⟩]

/-- Table 11.2. -/
def subTable : List BitPass :=
  [⟨false, true, false, some true, true⟩, ⟨false, true, true, none, false⟩,
   ⟨true, false, true, some false, false⟩, ⟨true, false, false, none, true⟩]

/-- The image of one column. -/
def columnBit (k : Nat) (b : Bool) : Row := if b then BitVec.twoPow _ k else 0

/-- The image of w columns from a base. -/
def columnBits (base w : Nat) (x : Nat) : Row := BitVec.ofNat _ (x % 2 ^ w * 2 ^ base)

/-- A pass of a table for one bit of B, in a column: none where the bit of A is a constant that its key excludes. -/
def BitPass.pass (p : BitPass) (a : ABit) (col : Nat) : Option Pass :=
  let x : Pass :=
    { key := columnBit col p.b, cmask := columnBit col true, wpat := columnBit col p.write, wmask := columnBit col true,
      carry := some p.c, setCarry := p.setC }
  match a with
  | .column k => some { x with key := x.key ||| columnBit k p.a, cmask := x.cmask ||| columnBit k true }
  | .const b => if p.a = b then some x else none
  | .above => some (if p.a then { x with hi := 0 } else x)

/-- The first pass: C = 0 in every live row. -/
def clearCarry : Pass := { key := 0, cmask := 0, wpat := 0, wmask := 0, setCarry := some false }

/-- How a sequence fits its result (R233). -/
inductive Fitting where
  | wrap
  | unsigned
  | signed
  deriving DecidableEq, Repr

/-- A pass that writes a saturated value over all bits of B. -/
def Pass.saturating (p : Pass) (base w x : Nat) : Pass :=
  { p with wpat := columnBits base w x, wmask := columnBits base w (2 ^ w - 1), fits := true }

/-- The sequence of an in-place add (R232, R233), or subtract: B in w columns from a base. Under a signed fit passes 1 and 3 of the top
bit write the extreme values; under an unsigned one a last pass keyed C = 1 does. -/
def inPlace (sub : Bool) (fit : Fitting) (a : Nat → ABit) (base w : Nat) : List Pass :=
  let t := if sub then subTable else addTable
  let top := 2 ^ (w - 1)
  let bit (i : Nat) : List Pass :=
    t.zipIdx.filterMap fun (p, k) => (p.pass (a i) (base + i)).map fun x =>
      if fit = .signed && i + 1 == w && k % 2 == 0 then
        x.saturating base w (if (k == 0) == sub then top - 1 else top)
      else x
  clearCarry :: (List.range w).flatMap bit
    ++ (if fit = .unsigned then
      [Pass.saturating { key := 0, cmask := 0, wpat := 0, wmask := 0, carry := some true } base w (if sub then 0 else 2 ^ w - 1)]
    else [])

/-- Where bit i of a field operand A stands for a w-bit sequence: a narrower signed field repeats its top column (R232). -/
def FieldEnt.aBit (f : FieldEnt) (signed : Bool) (i : Nat) : ABit :=
  if i < f.width.toNat then .column (f.base.toNat + i)
  else if signed then .column (f.base.toNat + f.width.toNat - 1)
  else .above

/-! ### Clear, copy and search: R234 -/

/-- The clear of w columns: 1 pass. -/
def clearField (base w : Nat) : List Pass := [{ key := 0, cmask := 0, wpat := 0, wmask := columnBits base w (2 ^ w - 1) }]

/-- The copy of A to a field that is no alias of it: the clear, then a pass for each bit. -/
def copyField (a : Nat → ABit) (base w : Nat) : List Pass :=
  clearField base w ++ (List.range w).map fun i =>
    let x : Pass := { key := 0, cmask := 0, wpat := columnBit (base + i) true, wmask := columnBit (base + i) true }
    match a i with
    | .column k => { x with key := columnBit k true, cmask := columnBit k true }
    | .const b => if b then x else { x with hi := 0 }
    | .above => { x with hi := 0 }

/-- The equality search against a value: the tag set where the columns match, after a pass that clears it where it must be cleared. -/
def searchField (base w x : Nat) (k : BitVec 4) (clear : Bool) : List Pass :=
  let p : Pass := { key := columnBits base w x, cmask := columnBits base w (2 ^ w - 1), wpat := 0, wmask := 0, setTag := some (k, true) }
  (if clear then [{ key := 0, cmask := 0, wpat := 0, wmask := 0, setTag := some (k, false) }] else []) ++ [p]

/-! ### The rows of the thread in focus -/

/-- The rows of the ply at offset j of the thread in focus, as an instruction's first pass finds them; what the carry latches hold then is
given, since no instruction uses it. -/
def State.passRows (s : State) (c : VCtx) (j : Nat) (carry : Nat → Bool) : List PassRow :=
  ((List.range 4096).filter fun e => plyOf s.th.n e = j && decide (e < 256 * s.th.n)).map fun e =>
    { e := e, active := decide (e < c.vl) && s.guardHolds c.mode e, data := s.seen e, tags := s.tagsAt (s.th.rowKey e), carry := carry e }

/-- The passes of a VADD vd, vd, va on fields of an integer class (R232, R233). -/
def State.vaddPasses (s : State) (c : VCtx) (d a : BitVec 6) : List Pass :=
  let f := s.th.ent d
  let fit : Fitting := if !c.sat then .wrap else if c.ty.signed then .signed else .unsigned
  inPlace false fit ((s.th.ent a).aBit c.ty.signed) f.base.toNat f.width.toNat

end Sys2Proof.Machine
end

