-- ==== Sys2Proof/Tests/Slice0.lean ====
section
/-! SUPPORT. Tests: every word of spec/opcode_table.json decoded from its encoding, a term for each check that refuses it, single steps with
the results the manual gives, and states that meet the hypotheses of the statements. -/
namespace Sys2Proof.Tests
open Sys2Proof Sys2Proof.Machine
set_option Elab.async false

/-! ### Decoding

Words made from the match and the fields of each row, with operands of distinct values; the instructions by hand from Tables 9.1 to 9.6. -/

theorem test_decode_major_01_03 :
    [0x04034001, 0x0547EA09, 0x0406E60B, 0x04000000, 0x04000002, 0x04000003, 0x04000004, 0x04000005, 0x04000006, 0x04000007, 0x04000008,
     0x0400000A, 0x08001221, 0x0E900034, 0x0F0EC000].map decode =
    [some (.trap 13), some (.boost 20 31 42), some (.tlbinv 27 38), some .nop, some .eret, some .wfe, some .yield, some .halt, some .bkpt,
     some .synci, some .vjoin, some .unboost, some (.mode 4641), some (.setvlImm 41 52), some (.setvlReg 48 59)] := by decide +kernel

theorem test_decode_major_04_0 :
    [0x1370CE00, 0x13E29501, 0x10645C02, 0x10D62303, 0x1147EA04, 0x11B9B105, 0x122B7806, 0x129D3F07, 0x130EC708, 0x1370CE09, 0x13E2950A,
     0x10645C0B, 0x10D6230C, 0x1147EA0D, 0x11B9B10E, 0x122B780F, 0x129D3F10, 0x130EC711, 0x1370CE12, 0x13E29513, 0x10645C14, 0x10D62315,
     0x1147EA16, 0x11B9B117].map decode =
    [some (.add 55 3 14), some (.sub 62 10 21), some (.and 6 17 28), some (.or 13 24 35), some (.xor 20 31 42), some (.andn 27 38 49),
     some (.sll 34 45 56), some (.srl 41 52 63), some (.sra 48 59 7), some (.ror 55 3 14), some (.mul 62 10 21), some (.mulh 6 17 28),
     some (.mulhn 13 24 35), some (.div 20 31 42), some (.divn 27 38 49), some (.rem 34 45 56), some (.remn 41 52 63), some (.min 48 59 7),
     some (.max 55 3 14), some (.minn 62 10 21), some (.maxn 6 17 28), some (.slt 13 24 35), some (.sltn 20 31 42), some (.seq 27 38 49)] := by decide +kernel

theorem test_decode_major_04_1 :
    [0x122B4018, 0x129D0019, 0x130EC01A, 0x1370CE1B, 0x13E2951C].map decode =
    [some (.clz 34 45), some (.ctz 41 52), some (.popc 48 59), some (.sext 55 3 14), some (.zext 62 10 21)] := by decide +kernel

theorem test_decode_major_05_17 :
    [0x14644118, 0x18D6011F, 0x1D47C126, 0x21B9812D, 0x262B4038, 0x269D103F, 0x270EE007, 0x2770F00E, 0x2BE28150, 0x2C60014C, 0x30D00153,
     0x3547C165, 0x39B9816C, 0x3E2B4173, 0x429D017A, 0x470EC181, 0x4B70C188, 0x4FE2818F, 0x50644196, 0x54D6019D, 0x5947C1A4, 0x5DB981AB].map decode =
    [some (.addi 6 17 280), some (.andi 13 24 287), some (.ori 20 31 294), some (.xori 27 38 301), some (.slli 34 45 56),
     some (.srli 41 52 63), some (.srai 48 59 7), some (.rori 55 3 14), some (.slti 62 10 336), some (.li 6 332), some (.lim 13 339),
     some (.ldb 20 31 357), some (.ldh 27 38 364), some (.ldw 34 45 371), some (.ldd 41 52 378), some (.ldbn 48 59 385),
     some (.ldhn 55 3 392), some (.ldwn 62 10 399), some (.stb 6 17 406), some (.sth 13 24 413), some (.stw 20 31 420), some (.std 27 38 427)] := by decide +kernel

theorem test_decode_major_18 :
    [0x622B4000, 0x600A7401, 0x630EC782, 0x6370CE83, 0x63E29584, 0x60645C85, 0x60D62386, 0x6147EA87, 0x61B9B188, 0x622B7889, 0x629D3F8A,
     0x630EC78B, 0x6190080E, 0x6012CB0F, 0x60645C11, 0x60034012, 0x6147EA13, 0x6006E614, 0x622B4015, 0x629D3F16, 0x600C0017, 0x6000000C,
     0x6000000D, 0x60000010].map decode =
    [some (.ldacq 34 45), some (.strel 41 52), some (.amoadd 48 59 7 true), some (.amoswap 55 3 14 true), some (.amocas 62 10 21 true),
     some (.amomin 6 17 28 true), some (.amomax 13 24 35 true), some (.amominn 20 31 42 true), some (.amomaxn 27 38 49 true),
     some (.amoand 34 45 56 true), some (.amoor 41 52 63 true), some (.amoxor 48 59 7 true), some (.tclr (.f 25)),
     some (.tdep (.f 1) (.k 11)), some (.bind 6 17 28), some (.unbind 13), some (.pgshare 20 31 42), some (.pgdrop 27 38),
     some (.splook 34 45), some (.spset 41 52 63), some (.prefetch 48), some .fenceSv, some .fenceVs, some .twait] := by decide +kernel

theorem test_decode_major_19_20 :
    [0x6770C245, 0x6BE2824C, 0x6C644253, 0x70D6025A, 0x7547C261, 0x79B98268, 0x7E200264, 0x829D0276].map decode =
    [some (.beq 55 3 581), some (.bne 62 10 588), some (.blt 6 17 595), some (.bge 13 24 602), some (.bltn 20 31 609),
     some (.bgen 27 38 616), some (.jal 34 612), some (.jalr 41 52 630)] := by decide +kernel

theorem test_decode_major_21 :
    [0x85274880, 0x85910F81, 0x8412D682, 0x84749D83, 0x84E64084, 0x85504C85, 0x85C21386, 0x8443C087, 0x84B58088, 0x85274889, 0x87710F8A,
     0x87E2D68B, 0x84649D8C, 0x84D6408D, 0x8557C08E, 0x85B2008F, 0x844B4090, 0x86958091, 0x85274792, 0x85910013, 0x8412C014].map decode =
    [some (.fadd 18 29 8 true), some (.fsub 25 4 15 true), some (.fmul 1 11 22 true), some (.fdiv 7 18 29 true), some (.fsqrt 14 25 true),
     some (.fmin 21 1 12 true), some (.fmax 28 8 19 true), some (.fabs 4 15 true), some (.fneg 11 22 true), some (.fsignof 18 29 8 true),
     some (.feq 55 4 15 true), some (.flt 62 11 22 true), some (.fle 6 18 29 true), some (.fcvti 13 25 true), some (.fcvtf 21 31 true),
     some (.fmvsf 27 8 true), some (.fmvfs 4 45 true), some (.ftrust 41 22 true), some (.ftrset 18 29 7 true), some (.fwiden 25 4),
     some (.fnarrow 1 11)] := by decide +kernel

theorem test_decode_major_22_28 :
    [0x88749DA4, 0x88E645DD, 0x89504C1E, 0x89C21357, 0x8C4B432C, 0x90BD0333, 0x952EC33A, 0x9990C341, 0x9C0F833D, 0xA3E0034F, 0xA0020340,
     0xA0010000, 0xA0030000].map decode =
    [some (.fma 7 18 29 20 true), some (.fms 14 25 5 27 true), some (.fnma 21 1 12 3 true), some (.fnms 28 8 19 10 true),
     some (.fldd 4 45 812), some (.fldw 11 52 819), some (.fstd 18 59 826), some (.fstw 25 3 833), some (.vfetch 62 829),
     some (.pbr 15 2 847), some (.pfetch 832), some .pend, some .pwait] := by decide +kernel

theorem test_decode_major_2a :
    [0xA947EA07, 0xA9B9B108, 0xAA2B7811, 0xAA9D0018, 0xAB0EC020, 0xAB70CE2F, 0xABE29530, 0xA8645C39, 0xA8D62344, 0xA947EA4D, 0xA9B9B157,
     0xAA2B7858, 0xAA9D3F61, 0xAB0EC76C, 0xAB70CE75, 0xABE2957F, 0xA8644080, 0xA8D60088, 0xA947C090, 0xA9B98098, 0xAA2B40A0].map decode =
    [some (.vadd 20 31 (.rep 42 3)), some (.vsub 27 38 (.field 49)), some (.vrsub 34 45 (.sreg 56)), some (.vneg 41 52), some (.vabs 48 59),
     some (.vmul 55 3 (.rep 14 3)), some (.vmulh 62 10 (.field 21)), some (.vmac 6 17 (.sreg 28)), some (.vmacp 13 24 (.rep 35 0)),
     some (.vdiv 20 31 (.rep 42 1)), some (.vrem 27 38 (.rep 49 3)), some (.vmin 34 45 (.field 56)), some (.vmax 41 52 (.sreg 63)),
     some (.vshl 48 59 (.rep 7 0)), some (.vshr 55 3 (.rep 14 1)), some (.vrshr 62 10 (.rep 21 3)), some (.vsat 6 17), some (.vmov 13 24),
     some (.vcvt 20 31), some (.vclz 27 38), some (.vpopc 34 45)] := by decide +kernel

theorem test_decode_major_2b_2c :
    [0xAE9D0202, 0xAF0EC80A, 0xAF70CF12, 0xAFE2961A, 0xAC644020, 0xACD6052A, 0xAD47CC32, 0xADB98038, 0xAE2B4040, 0xAE9D1248, 0xAF0EC050,
     0xAF70CE59, 0xAFE28060, 0xAC644068, 0xACD60070, 0xAD47C078, 0xB1B9B1F0, 0xB22B7811, 0xB29D3F2E, 0xB30EC74B].map decode =
    [some (.vfadd 41 52 (.freg 2)), some (.vfsub 48 59 (.freg 8)), some (.vfmul 55 3 (.freg 15)), some (.vfdiv 62 10 (.freg 22)),
     some (.vfsqrt 6 17), some (.vfmin 13 24 (.freg 5)), some (.vfmax 20 31 (.freg 12)), some (.vfabs 27 38), some (.vfneg 34 45),
     some (.vfcvt 41 52 .f64), some (.vtrust 48 59), some (.vtrset 55 3 (.sreg 14)), some (.vfexp2 62 10), some (.vflog2 6 17),
     some (.vfrcp 13 24), some (.vfrsq 20 31), some (.vfma 27 38 49 60), some (.vfms 34 45 56 4), some (.vfnma 41 52 63 11),
     some (.vfnms 48 59 7 18)] := by decide +kernel

theorem test_decode_major_2d_2f :
    [0xB770CE00, 0xB7E29509, 0xB4645C14, 0xB4D6231D, 0xB547C020, 0xB5B9B128, 0xBB7E0502, 0xB95FCC0A, 0xBB21D312, 0xB9339A1A, 0xBAD54222,
     0xB8E7092A, 0xBAB8C030, 0xB89A8038, 0xBA6C4040, 0xBC7E043C, 0xBE0D3F2D].map decode =
    [some (.vand 55 3 (.field 14)), some (.vor 62 10 (.sreg 21)), some (.vxor 6 17 (.rep 28 0)), some (.vandn 13 24 (.rep 35 1)),
     some (.vnot 20 31), some (.vsel 27 38 (.field 49)), some (.vcmpEq 13 3 56 (.freg 5)), some (.vcmpNe 5 1 63 (.freg 12)),
     some (.vcmpLt 12 2 7 (.freg 19)), some (.vcmpLe 4 3 14 (.freg 26)), some (.vcmpGt 11 1 21 (.freg 2)), some (.vcmpGe 3 2 28 (.freg 9)),
     some (.vcmpTrlt 10 3 35), some (.vcmpNan 2 1 42), some (.vcmpInf 9 2 49), some (.vsrch 1 3 56 4 15), some (.vwrt 8 52 63 11)] := by decide +kernel

theorem test_decode_major_30 :
    [0xC3EDC000, 0xC1CF8001, 0xC3A98002, 0xC18B4003, 0xC3640004, 0xC1440005, 0xC3000006, 0xC1000007, 0xC02C3408, 0xC0F80709, 0xC280030A,
     0xC0B4150B, 0xC240110C, 0xC004180D].map decode =
    [some (.kand 15 11 7), some (.kor 7 3 14), some (.kxor 14 10 6), some (.kandn 6 2 13), some (.knot 13 9), some (.kmov 5 1),
     some (.kset 12), some (.kclr 4), some (.kpop 11 52), some (.kfirst 3 14 7), some (.kone 10 3), some (.kshift 2 13 21),
     some (.kfrom 9 17), some (.kto 1 24)] := by decide +kernel

theorem test_decode_major_31_32 :
    [0xC547C000, 0xC5B98008, 0xC62B4010, 0xC69D0018, 0xC70EC020, 0xC770C028, 0xC4128030, 0xC4744038, 0xC4E60040, 0xC547C048, 0xC5B98050,
     0xC62B7859, 0xC88D3F01, 0xCA4EC709, 0xC840C010, 0xCA028018, 0xCBC44020, 0xC9C62929].map decode =
    [some (.vrsum 20 31), some (.vrmin 27 38), some (.vrmax 34 45), some (.vrand 41 52), some (.vror 48 59), some (.vrxor 55 3),
     some (.vrfsum 1 10), some (.vrfmax 7 17), some (.vrfmin 14 24), some (.vrargmax 20 31), some (.vrargmin 27 38), some (.vextr 34 45 56),
     some (.vtopk 2 52 63), some (.vbotk 9 59 7), some (.vmaxt 1 3), some (.vmint 8 10), some (.vconf 15 17), some (.vneark 7 24 41)] := by decide +kernel

theorem test_decode_major_33_37 :
    [0xCD47EA01, 0xCDB9B109, 0xCE2B6911, 0xCE9D3F1E, 0xCF000020, 0xCF70C028, 0xCFE00030, 0xCC645C39, 0xD0D60000, 0xD147EA09, 0xD1B9B110,
     0xD22B7818, 0xD69D0000, 0xD70EC709, 0xD770CE10, 0xD7E2951E, 0xD4645220, 0xD4D62329, 0xD947DD02, 0xD9B9B109, 0xDE2F05C9].map decode =
    [some (.vslideup 20 31 42), some (.vslidedn 27 38 49), some (.vslidein 34 45 41), some (.vperm 41 52 (.rep 63 2)), some (.vcompact 48),
     some (.vscan 55 3), some (.viota 62), some (.vbcast 6 17 28), some (.vldu 13 24), some (.vlds 20 31 42),
     some (.vldx 27 38 (.field 49)), some (.vldl 34 45 (.field 56)), some (.vstu 41 52), some (.vsts 48 59 7),
     some (.vstx 55 3 (.field 14)), some (.vstadd 62 10 (.rep 21 2)), some (.vstef 6 17 .f64), some (.vstl 13 24 (.sreg 35)),
     some (.vsoft 20 31 29), some (.vcollapse 27 38 49), some (.fmap 34 961 57 true)] := by decide +kernel

theorem test_decode_major_38_3c :
    [0xE2900040, 0xE30EC041, 0xE370CE42, 0xE3E280C3, 0xE0644044, 0xE0D60085, 0xE0000086, 0xE1B00087, 0xE22B7808, 0xE69D3F04, 0xE70EC705,
     0xE770CE06, 0xE70EC700, 0xE770CE01, 0xE7E29502, 0xE4645C03, 0xE4D00007, 0xEFE0024F, 0xF001810A].map decode =
    [some (.mcfg 41 1), some (.mwld 48 59 1), some (.mwlds 55 3 14 1), some (.mstr 62 10 3), some (.mdrn 6 17 1), some (.mdrnv 13 24 2),
     some (.mzero 2), some (.mchk 27 2), some (.spcomp 34 45 56), some (.arrinit 41 52 63), some (.arradd 48 59 7), some (.arrwait 55 3 14),
     some (.cpyg2l 48 59 7), some (.cpyl2g 55 3 14), some (.cpyl2l 62 10 21), some (.cpyg2g 6 17 28), some (.cpywait 13),
     some (.srr 62 591), some (.srw 6 266)] := by decide +kernel

theorem test_decode_major_3a :
    [0xE947EA00, 0xE9B9B101, 0xEA2B7802, 0xEA9D3F03, 0xEB0EC004, 0xEB70C005].map decode =
    [some (.colrs 20 31 42), some (.colag 27 38 49), some (.colar 34 45 56), some (.colrot 41 52 63), some (.colwait 48 59),
     some (.colstat 55 3)] := by decide +kernel

/-! ### Ill-formed terms: one for each check of `Instr.wellFormed` -/

/-- MODE with rounding 6, and with SENSE 1 under GUARD 0 (Table 9.12); a type code of class 5 (Table 8.1). -/
theorem test_mode_refused :
    [Instr.mode 0x3000, .mode 0x10, .mode 0x500].map Instr.wellFormed = [false, false, false] := by decide +kernel

/-- Table 7.7: the image of the worked example is one that MODE takes. -/
theorem test_mode_taken : (Instr.mode 0x2C462).wellFormed = true := by decide +kernel

/-- FMAP beyond column 1,023, wider than 64, its trust subfield beyond the row, a width of 0 with a base (R28). -/
theorem test_fmap_refused :
    [Instr.fmap 1 1000 25 false, .fmap 1 0 65 false, .fmap 1 960 64 true, .fmap 1 5 0 false].map Instr.wellFormed =
    [false, false, false, false] ∧ (Instr.fmap 1 960 64 false).wellFormed = true := by decide +kernel

/-- System-register indices at the edges of Table 7.5: 0x00D and 0x24F exist, 0x00E, 0x250 and 0x3FF do not (R163). -/
theorem test_system_index_refused :
    [Instr.srr 1 0x00E, .srr 1 0x250, .srw 1 0x3FF].map Instr.wellFormed = [false, false, false] ∧
    [Instr.srr 1 0x00D, .srw 1 0x24F].map Instr.wellFormed = [true, true] := by decide +kernel

/-- A register form of SETVL that names s0; b operands of classes their words do not take; register pairs that would pass s63
and f31. -/
theorem test_operand_classes_refused :
    [Instr.setvlReg 1 0, .vadd 1 2 (.freg 3), .vldx 1 2 (.sreg 3), .vneark 1 2 63, .vslidein 1 2 63, .vsoft 1 2 30].map
      Instr.wellFormed = [false, false, false, false, false, false] := by decide +kernel

/-- Table 9.12: words that are ILLOP at decode. -/
theorem test_words_refused :
    [(0x00000000 : IWord), 0xFFFFFFFF, 0xA80000A8, 0xA8514203, 0x10000080, 0x86804200, 0x08003000, 0x08000010, 0xA0400000].map decode =
    [none, none, none, none, none, none, none, none, none] := by decide +kernel

/-- Words of the manual's own listings: 04 (R111), 05, 10, 11 Table 11.13, 12 Table 12.1's text, 13 Table 13.9. -/
theorem test_words_of_listings :
    [(0x60528000 : IWord), 0x60028601, 0x60C0100E, 0x6070C30F, 0x6000280E, 0x60328B11, 0x60028012, 0xE4051904, 0xE5551605,
     0xE5851706, 0xEC400002, 0xF0010002, 0xA8514248, 0xC8810020, 0xC0080A08, 0xC8C14601, 0xC1940B09].map decode =
    [some (.ldacq 5 10), some (.strel 10 6), some (.tclr (.v 12)), some (.tdep (.s 7) (.k 3)), some (.tclr .ctl), some (.bind 3 10 11),
     some (.unbind 10), some (.arrinit 0 20 25), some (.arradd 21 20 22), some (.arrwait 24 20 23), some (.srr 4 2), some (.srw 4 2),
     some (.vdiv 5 5 (.field 2)), some (.vconf 2 4), some (.kpop 2 10), some (.vtopk 3 5 6), some (.kfirst 6 5 11)] := by decide +kernel

theorem test_words_of_vector_listings :
    [(0xD0328410 : IWord), 0xD4218709, 0xD4911820, 0xDC600101, 0xE0A00000, 0xE0000006, 0xE012C001, 0xE0C34003, 0xE0600005, 0xB8818030,
     0x08070220, 0x2CB000C0, 0x30B83000, 0x14C04008, 0x0C900002, 0x0802C462].map decode =
    [some (.vldx 3 10 (.field 4)), some (.vsts 2 6 7), some (.vstef 9 4 .bf16), some (.fmap 6 0 32 true), some (.mcfg 10 0), some (.mzero 0),
     some (.mwld 1 11 0), some (.mstr 12 13 0), some (.mdrnv 6 0 0), some (.vcmpTrlt 2 0 6), some (.mode 0x70220), some (.li 11 0xC0),
     some (.lim 11 0x83000), some (.addi 12 1 8), some (.setvlImm 9 2), some (.mode 0x2C462)] := by decide +kernel

/-! ### States for tests -/

/-- What an outcome that goes on leaves, as far as `f` looks. -/
def got {α : Type} (o : Host.Outcome State Fault Refusal) (f : State → α) : Option α :=
  match o with
  | .next t => some (f t)
  | .fault _ => none
  | .refused _ => none

/-- s-registers from a list of numbers and values. -/
def regsOf (l : List (Nat × Nat)) : Vector Dword 64 := l.foldl (fun v p => v.set! p.1 (BitVec.ofNat 64 p.2)) (.replicate 64 0)

/-- f-registers from a list of numbers and values. -/
def fregsOf (l : List (Nat × FReg)) : Vector FReg 32 := l.foldl (fun v p => v.set! p.1 p.2) (.replicate 32 ⟨0, 0, false⟩)

/-- A field map from a list of entries. -/
def mapOf (l : List (Nat × FieldEnt)) : Vector (Option FieldEnt) 64 := l.foldl (fun v p => v.set! p.1 (some p.2)) (.replicate 64 none)

/-- `codePage` with two pages of data: virtual 0x10000 cached at 0x70000, virtual 0x20000 L2-only at 0x80000, readable and writable. -/
def pages : List Host.Cell :=
  let e (m : List Host.Cell) (pa v : Nat) : List Host.Cell := memWrite m pa (leBytes 8 v)
  e (e (codePage .reset).mem 0x50008 0x70087) 0x50010 0x80187

/-- A thread of one ply: s1 = 7, s2 = -2, s3 and s4 in the two pages of data, s5 row 0 of its view, s6 word 0 of the arrival page,
s7 = 3; v4, v5, v7 of 8, 16 and 32 columns, v6 of 32 columns with trust, v63 of 64. -/
def thread : Thread :=
  { loadedThread with
    priv := false, pc := 0x100, vl := 8, ceiling := 256, tiles := 2,
    s := regsOf [(1, 7), (2, 2 ^ 64 - 2), (3, 0x10000), (4, 0x20000), (5, 0x007FFFFF00000000), (6, 0x007FFFFF00300000), (7, 3)],
    fmap := mapOf [(4, ⟨0, 8, false⟩), (5, ⟨16, 16, false⟩), (7, ⟨32, 32, false⟩), (6, ⟨64, 32, true⟩), (63, ⟨128, 64, false⟩)] }

/-- That thread as the agent. -/
def atControl : State := { codePage .reset with mem := pages, th := thread }

/-- A ply of it that stands in a block, under a mode. -/
def standing (mode : BitVec 26) : Running :=
  { origin := 0, pc := 0x200, mode := mode, vl := 8, ctl := 0, wait := .running,
    blk := { seq := 0, words := [pendWord], addr := 0x200, one := false, mode := mode, vl := 8, ctl := 0, nf := .replicate 8 0 } }

/-- The ply as the agent, its thread in supervisor state or not, with rows that hold `rows`. -/
def inBlock (mode : BitVec 26) (rows : List Nat) : State :=
  { atControl with
    who := .ply 0, th := { thread with nextSeq := 1, plies := thread.plies.set 0 { Ply.idle with run := some (standing mode) } },
    rows := (rows.zipIdx).map fun p => (p.2, BitVec.ofNat 1024 p.1) }

/-- The element of a field in a row. -/
def element (t : State) (v : BitVec 6) (e : Nat) : Nat := fieldBits (t.rowAt (t.th.rowKey e)) (t.th.ent v)

/-! ### Scalar words -/

/-- Signed division rounds toward zero, unsigned division sees 2^64 - 2 (R171). -/
theorem test_div_signs :
    [got (exec (.div 9 2 7) atControl) fun t => t.th.sr 9, got (exec (.divn 9 2 7) atControl) fun t => t.th.sr 9,
     got (exec (.rem 9 2 7) atControl) fun t => t.th.sr 9] =
    [some 0, some 0x5555555555555554, some 0xFFFFFFFFFFFFFFFE] := by decide +kernel

/-- Division by zero gives all ones and sets DZ, also where s0 discards the result (R171, R156). -/
theorem test_div_zero :
    got (exec (.div 0 1 0) atControl) (fun t => (t.th.sr 0, t.th.flags &&& fDZ)) = some (0, fDZ) ∧
    got (exec (.div 9 1 0) atControl) (fun t => t.th.sr 9) = some 0xFFFFFFFFFFFFFFFF := by decide +kernel

/-- A branch reads signed and unsigned (R220): -2 < 7 signed, not unsigned. -/
theorem test_branch_signs :
    got (exec (.blt 2 1 4) atControl) (fun t => t.th.pc) = some 0x110 ∧ got (exec (.bltn 2 1 4) atControl) (fun t => t.th.pc) = some 0x104 := by
  decide +kernel

/-- SRAI keeps the sign; SLTI compares with the sign-extended immediate; LIM shifts in 20 bits. -/
theorem test_immediates :
    got (exec (.srai 9 2 1) atControl) (fun t => t.th.sr 9) = some 0xFFFFFFFFFFFFFFFF ∧
    got (exec (.slti 9 2 0x3FFF) atControl) (fun t => t.th.sr 9) = some 1 ∧
    got (exec (.lim 1 0x12345) atControl) (fun t => t.th.sr 1) = some 0x712345 := by decide +kernel

/-- A thread with f1 = 1 + 2^-20, f2 = 1 - 2^-20, f3 = -1.0 in binary64 with T = 53. -/
def withFloats : State :=
  { atControl with th := { thread with
      f := fregsOf [(1, ⟨0x3FF0000100000000, 53, false⟩), (2, ⟨0x3FEFFFFE00000000, 53, false⟩),
        (3, ⟨0xBFF0000000000000, 53, false⟩)] } }

/-- 10, "a cancellation found by its trust": the product less 1 is -2^-40 with 13 trusted bits, and nothing rounds. -/
theorem test_fma_cancellation :
    got (exec (.fma 4 1 2 3 false) withFloats) (fun t => (t.th.fr 4, t.th.flags)) = some (⟨0xBD70000000000000, 13, false⟩, 0) := by
  decide +kernel

/-- Table 8.8, steps 1 and 4, in binary32: 1.5 - 1.25 keeps 22 bits; 1024.75 - 1024.5 keeps 12 of 24 and raises SIGLOSS under TMIN 16. -/
theorem test_fsub_trust :
    got (exec (.fsub 4 1 2 true) { atControl with th := { thread with
        f := fregsOf [(1, ⟨0x3FC00000, 24, true⟩), (2, ⟨0x3FA00000, 24, true⟩)] } }) (fun t => t.th.fr 4) =
      some ⟨0x3E800000, 22, true⟩ ∧
    got (exec (.fsub 4 1 2 true) { atControl with th := { thread with
        mode := 0x108000, f := fregsOf [(1, ⟨0x44801800, 24, true⟩), (2, ⟨0x44801000, 24, true⟩)] } })
      (fun t => (t.th.fr 4, t.th.trap.cause.extractLsb' 0 8)) = some (⟨0x3E800000, 12, true⟩, cSIGLOSS) := by decide +kernel

/-- Table 8.4: conversions into the format of nf3. -/
theorem test_nf3_conversions :
    let f := matFmt 8 0xFE070139
    let conv (rm : BitVec 3) (x : Nat) : Nat × Flags := let o := opConv f rm (Fmt.b32.opd x 24); (o.bits, o.flags)
    [conv 0 0x3E99999A, conv 0 0x43480000, conv 1 0x43480000] = [(0x3A, fNX), (0x7F, fOF ||| fNX), (0x7E, fOF ||| fNX)] := by
  decide +kernel

/-- Table 8.5: the residual chain of five elements of 0.2578125 stored in nf3. -/
theorem test_residual_chain :
    let f := matFmt 8 0xFE070139
    let y := (Fmt.b32.opd 0x3E840000 24).val
    let q := chain f 0 ((List.range 5).map fun e => (e, y))
    (q.1.map (·.2), q.2.1, q.2.2) = ([0x38, 0x38, 0x39, 0x38, 0x38], fNX, 0x3F80000000000000) := by decide +kernel

/-! ### Memory words -/

/-- A store of a byte waits in the buffer; the thread's own load sees it, memory does not yet (R101, R345). -/
theorem test_store_forwards :
    got (exec (.stb 1 3 0) atControl) (fun t => (memByte t.mem 0x70000, got (exec (.ldbn 9 3 0) t) fun u => u.th.sr 9)) =
    some (0, some 7) := by decide +kernel

/-- AMOADD.W returns the old word sign-extended and wraps in 32 bits; L2-only page. -/
theorem test_amoadd_wraps :
    got (exec (.amoadd 9 4 1 true) { atControl with mem := memWrite pages 0x80000 (leBytes 4 0xFFFFFFFF) })
      (fun t => (t.th.sr 9, memBytes t.mem 0x80000 5)) = some (0xFFFFFFFFFFFFFFFF, leBytes 5 6) := by decide +kernel

/-- 05, "a cluster barrier": the second and the last of four arrivals on a word armed with 4. -/
theorem test_arrivals :
    let at_ (v : Dword) : State := { atControl with arr := [(arrKey 1 0 0, v)], th := { thread with s := thread.s.set 22 1 } }
    let after (v : Dword) := got (exec (.arradd 21 6 22) (at_ v)) fun t => (t.th.sr 21, t.arrImage (.page 1 0 0))
    [after 0x40000001, after 0x40000003] = [some (0x40000001, 0x40000002), some (0x40000003, 0x0100000040000000)] := by decide +kernel

/-! ### Words of a block -/

/-- 11, "conflicts and the top three": v4 = 3, 7, 5, 1, 7, 7, 2, 1 and v5 = 40, -5, 90, 40, 90, 12, 40, 7. -/
def scores : State :=
  inBlock 0 [0x280003, 0xFFFB0007, 0x5A0005, 0x280001, 0x5A0007, 0xC0007, 0x280002, 0x70001]

def tagged (t : State) (k : BitVec 4) : List Nat := (List.range 8).filter fun e => t.tagBit e k

theorem test_vconf : got (exec (.vconf 2 4) scores) (fun t => tagged t 2) = some [4, 5, 7] := by decide +kernel

theorem test_vtopk : got (exec (.vtopk 3 5 7) scores) (fun t => tagged t 3) = some [0, 2, 4] := by decide +kernel

/-- Row 1 of v5 holds -5: the least is -5 signed, and 7 unsigned. -/
theorem test_vrmin_signs :
    got (exec (.vrmin 9 5) scores) (fun t => t.th.sr 9) = some 0xFFFFFFFFFFFFFFFB ∧
    got (exec (.vrmin 9 5) { scores with
        th := { scores.th with plies := scores.th.plies.set 0 { Ply.idle with run := some (standing 0x100) } } })
      (fun t => t.th.sr 9) = some 7 := by decide +kernel

/-- Rows with a guard tag k3 set in row 0 alone, v4 = 7 there and 0 elsewhere. -/
def guarded (tags : List (Nat × BitVec 16)) : State := { inBlock 3 [7] with tags := tags }

/-- Table 9.12: VDIV by zero under a guard that is empty changes nothing; with the guard in row 0 it sets DZ (the row then
holds free bits in the work field, so its elements are no numerals). -/
theorem test_vdiv_guard :
    let s (tags : List (Nat × BitVec 16)) : State := { guarded tags with th := { (guarded tags).th with
      fmap := ((guarded tags).th.fmap.set 2 (some ⟨256, 16, false⟩)).set 63 (some ⟨128, 8, false⟩) } }
    got (exec (.vdiv 4 4 (.field 2)) (s [])) (fun t => (element t 4 0, t.th.flags)) = some (7, 0) ∧
    got (exec (.vdiv 4 4 (.field 2)) (s [(0, 9)])) (fun t => t.th.flags) = some fDZ := by
  decide +kernel

/-- VADD wraps in 8 bits, and saturates to 127 with SAT (R170). -/
theorem test_vadd_saturates :
    got (exec (.vadd 4 4 (.sreg 1)) (inBlock 0 [125])) (fun t => (element t 4 0, t.th.flags)) = some (132, 0) ∧
    got (exec (.vadd 4 4 (.sreg 1)) (inBlock 0x4000 [125])) (fun t => (element t 4 0, t.th.flags)) = some (127, fSAT) := by decide +kernel

/-- 12, "two strips of one softmax", strip 1: outputs 0.25, 1, 0.5, 1 with T = 23, maximum 3, sum 2.75 with T = 24. The
work field, which the word may leave with any bits, shares the rows, so the outputs are taken from the operation that makes them. -/
theorem test_vsoft_strip :
    let s0 := inBlock (0x11 * 32) []
    let r : Running := { standing (0x11 * 32) with vl := 4 }
    let rows : List Nat := [0x3F800000, 0x40400000, 0x40000000, 0x40400000]
    let s : State := { s0 with
      rows := (rows.zipIdx).map fun p => (p.2, BitVec.ofNat 1024 (p.1 * 2 ^ 64 + 24 * 2 ^ 96))
      th := { s0.th with
        f := fregsOf [(5, ⟨0xFFF0000000000000, 0, false⟩), (6, ⟨0, 53, false⟩)], plies := s0.th.plies.set 0 { Ply.idle with run := some r } } }
    got (exec (.vsoft 7 6 5) s) (fun t => ((t.th.fr 5).bits, (t.th.fr 6).bits, (t.th.fr 6).trust)) =
    some (0x4008000000000000, 0x4006000000000000, 24) ∧
    rows.map (fun x => let o := softOut .b32 0 (Fmt.b32.opd x 24) (Fmt.b64.opd 0x4008000000000000 24); (o.bits, o.t)) =
    [(0x3E800000, 23), (0x3F800000, 23), (0x3F000000, 23), (0x3F800000, 23)] := by decide +kernel

/-- 13, Table 13.10: one rounding of an exact sum of bf16 products into binary32, and its count after a cancellation. -/
theorem test_one_rounding :
    let bf := matFmt 3 0
    let one (row : List Nat) : Nat × Nat :=
      let o := accNarrow .b32 bf bf 0 (Fmt.b32.opd 0 24) row [0x3F80, 0x3F80, 0x3F80]
      (o.bits, o.t)
    [one [0x4B80, 0x3F80, 0x3F80], one [0x4040, 0xC040, 0x3F00]] = [(0x4B800001, 8), (0x3F000000, 6)] := by decide +kernel

/-! ### Traps, steps and the host -/

/-- TRAP takes SWTRAP at TVBASE + 16 × its code, as supervisor, with the PC after it saved and s[a] in TVAL (R210, R335). -/
theorem test_trap_entry :
    got (exec (.trap 1) atControl) (fun t => (t.th.pc, t.th.priv, t.th.trap.epc, t.th.trap.val, t.th.trap.inh)) =
    some (0x0080000000000000 + 16 * cSWTRAP.setWidth 64, true, 0x104, 7, true) := by decide +kernel

/-- A privileged word in task code is PRIVOP. -/
theorem test_privileged_word :
    got (exec (.srr 9 0x200) atControl) (fun t => (t.th.trap.cause.extractLsb' 0 8, t.th.trap.epc)) = some (cPRIVOP, 0x100) := by decide +kernel

/-- A word placed from outside is the one the next step runs: LI s1, 5. -/
theorem test_step_runs_placed_word :
    got (step (State.reset.withFetchWord 32 0x2C100005)) (fun t => (t.th.sr 1, t.th.pc)) = some (5, 4) := by decide +kernel

/-- A word that is none is ILLOP at its own address. -/
theorem test_step_refuses_word :
    got (step (State.reset.withFetchWord 32 0)) (fun t => (t.th.trap.cause.extractLsb' 0 8, t.th.trap.epc)) = some (cILLOP, 0) := by
  decide +kernel

/-- The host writes four bytes through BAR2 and reads them back (R369). -/
theorem test_bar2 :
    got (exec (.hostBar2Write 0x1000 [1, 2, 3, 4]) .reset) (fun t =>
      (memBytes t.mem 0x1000 4, got (exec (.hostBar2Read 0x1001 2) t) fun u => u.host.readData)) =
    some ([1, 2, 3, 4], some [2, 3]) := by decide +kernel

/-! ### Passes: Tables 19.3 to 19.5 -/

/-- Rows of A in column 0 and B in column 8 up, 5 columns each, all active, the latch at 1 as an earlier word left it. -/
def passedRows (l : List (Nat × Nat)) : List PassRow :=
  l.zipIdx.map fun ((a, b), e) => ⟨e, true, columnBits 0 5 a ||| columnBits 8 5 b, 1, true⟩

/-- Table 19.3. -/
def rows19 : List (Nat × Nat) :=
  [(1, 1), (2, 3), (3, 5), (5, 10), (7, 9), (31, 1), (16, 16), (0, 0), (9, 22), (12, 19), (20, 11), (31, 31), (4, 27), (8, 8), (15, 17), (6, 25)]

/-- The VADD of program 1. -/
def vadd19 : List Pass := inPlace false .wrap ((⟨0, 5, false⟩ : FieldEnt).aBit false) 8 5

/-- Table 19.4: the rows that each pass hits. -/
theorem test_table_19_4 :
    (passReports vadd19 (passedRows rows19)).map (·.hits) =
    [List.range 16, [0, 2, 4, 5, 11, 14], [3, 8], [], [], [1], [15], [0], [], [], [3, 9, 10, 12, 15], [1], [2], [13], [8, 9], [2], [4], [6], [10],
     [4, 13], [14]] := by decide +kernel

/-- Table 19.5: the carry column after each bit; and the sums of the rows modulo 32. -/
theorem test_table_19_5 :
    ((List.range 5).map fun i => ((passReports vadd19 (passedRows rows19)).map (·.carries)).getD (4 * i + 4) []) =
      [[0, 2, 4, 5, 11, 14], [1, 2, 4, 5, 11, 14], [2, 4, 5, 11, 14], [4, 5, 11, 13, 14], [5, 6, 11, 14]] ∧
    ((runPasses vadd19 (passedRows rows19)).map fun x => x.data.toNat / 256) = rows19.map fun p => (p.1 + p.2) % 32 := by decide +kernel

/-- Every sum and difference of two 2-bit values, wrapped, unsigned and signed with their extremes (R232, R233). -/
theorem test_passes_two_bits :
    let l : List (Nat × Nat) := (List.range 16).map fun i => (i / 4, i % 4)
    let sg (x : Nat) : Int := (BitVec.ofNat 2 x).toInt
    let run (sub : Bool) (f : Fitting) : List Nat :=
      (runPasses (inPlace sub f ((⟨0, 2, false⟩ : FieldEnt).aBit true) 8 2) (passedRows l)).map fun x => x.data.toNat / 256
    run false .wrap = l.map (fun p => (p.2 + p.1) % 4) ∧ run true .wrap = l.map (fun p => (p.2 + 4 - p.1) % 4) ∧
    run false .unsigned = l.map (fun p => min (p.2 + p.1) 3) ∧ run true .unsigned = l.map (fun p => p.2 - p.1) ∧
    run false .signed = l.map (fun p => (max (-2) (min 1 (sg p.2 + sg p.1)) % 4).toNat) ∧
    run true .signed = l.map (fun p => (max (-2) (min 1 (sg p.2 - sg p.1)) % 4).toNat) := by decide +kernel

/-! ### Witnesses: states and operands that meet the hypotheses of the statements

For each statement with hypotheses, states that meet them together, with the boundary values of its clauses. -/

theorem ok_of {ε α : Type} {x : Except ε α} (h : x.toOption.isSome = true) : ∃ y, x = .ok y := by
  cases x with
  | error e => simp [Except.toOption] at h
  | ok y => exact ⟨y, rfl⟩

/-- The state an outcome goes on with. -/
def after (o : Host.Outcome State Fault Refusal) : State :=
  match o with
  | .next t => t
  | .fault _ => .reset
  | .refused _ => .reset

/-- AluResults, DivisionResults, CountResults, ImmediateResults, BranchResults, FloatResults, FloatUnaryResults, FloatMoveResults. -/
theorem meets_control : AtControl atControl := ⟨rfl, rfl⟩

/-- JumpResults: JALR targets that are word-aligned, 0x10000 + 0 and 7 + 1. -/
theorem meets_jalr :
    (atControl.th.sr 3 + (0 : BitVec 14).signExtend 64).toNat % 4 = 0 ∧ (atControl.th.sr 1 + (1 : BitVec 14).signExtend 64).toNat % 4 = 0 := by
  decide +kernel

/-- FloatResult's two branches: TTRAP with a count below TMIN, and TMIN itself. -/
theorem meets_float_trap :
    let m : BitVec 26 := 0x108000
    modeTtrap m = true ∧ (15 : BitVec 6).toNat < (modeTmin m).toNat ∧ ¬ (16 : BitVec 6).toNat < (modeTmin m).toNat := by decide +kernel

theorem nothing_waits : NothingWaits atControl := by
  unfold NothingWaits
  decide +kernel

theorem read_ready (ps : List Piece) : ReadReady atControl ps := fun _ => nothing_waits

/-- LoadResults: a byte at the last address of a cached page, a dword of the last row of the view, a word across two lines. -/
theorem meets_LoadResults :
    (∃ ps, atControl.resolve thread .read 0x1FFFF 1 false = .ok ps ∧ ReadReady atControl ps) ∧
    (∃ ps, atControl.resolve thread .read 0x007FFFFF00007FF8 8 true = .ok ps ∧ ReadReady atControl ps) ∧
    (∃ ps, atControl.resolve thread .read 0x1007E 4 false = .ok ps ∧ ReadReady atControl ps) ∧ thread.freeId = some 0 := by
  have go (va : Dword) (n : Nat) (w : Bool) (h : (atControl.resolve thread .read va n w).toOption.isSome = true) :
      ∃ ps, atControl.resolve thread .read va n w = .ok ps ∧ ReadReady atControl ps :=
    (ok_of h).imp fun ps h => ⟨h, read_ready ps⟩
  exact ⟨go _ _ _ (by decide +kernel), go _ _ _ (by decide +kernel), go _ _ _ (by decide +kernel), by decide +kernel⟩

/-- ReadPlaces: bytes that lie in HBM alone, at its end, and in host memory alone; a line the L1 holds, after a load of it. -/
theorem meets_ReadPlaces :
    (∀ i < 8, isHost (0x70000 + i) = isHost 0x70000) ∧ (∀ i < 8, isHost (0xFFFFFFFFF8 + i) = isHost 0xFFFFFFFFF8) ∧
    (∀ i < 8, isHost (0x800000000000 + i) = isHost 0x800000000000) ∧
    (let t := after (exec (.ldd 9 3 0) atControl)
     ∃ way, t.l1Find t.th.tid.core 0x70000 = some way ∧ byteMask 0 8 &&& ~~~ (t.l1At t.th.tid.core 0 way).valid = 0) :=
  ⟨by decide +kernel, by decide +kernel, by decide +kernel, ⟨0, by decide +kernel⟩⟩

/-- StoreResults: the same places, for writing, a float among them. -/
theorem meets_StoreResults :
    (∃ ps, atControl.resolve thread .write 0x1FFFF 1 false = .ok ps) ∧ (∃ ps, atControl.resolve thread .write 0x1FFF8 8 false = .ok ps) ∧
    (∃ ps, atControl.resolve thread .write 0x007FFFFF00007FFC 4 false = .ok ps) :=
  ⟨ok_of (by decide +kernel), ok_of (by decide +kernel), ok_of (by decide +kernel)⟩

/-- AmoResults, AcquireReleaseResults: an aligned word of memory, of the view and of the arrival page, no turn in the way. -/
theorem meets_AmoResults :
    (∃ ps, atControl.resolve thread .amo 0x1FFFC 4 false = .ok ps) ∧ (∃ ps, atControl.resolve thread .amo 0x007FFFFF00007FF8 8 true = .ok ps) ∧
    (∃ ps, atControl.resolve thread .amo 0x007FFFFF00300FF8 8 true = .ok ps) ∧ (∃ ps, atControl.resolve thread .read 0x20008 8 true = .ok ps) ∧
    thread.freeId = some 0 ∧ (∀ q, atControl.turnHeld thread.tid q = false) ∧ atControl.linesFree thread = true ∧
    (∀ scope : BitVec 3, atControl.releaseWaits thread scope = false) := by
  refine ⟨ok_of (by decide +kernel), ok_of (by decide +kernel), ok_of (by decide +kernel), ok_of (by decide +kernel), by decide +kernel, ?_,
    by decide +kernel, by decide +kernel⟩
  intro q
  cases q <;> rfl

/-- BindResults: a descriptor of package scope with one range of 128 bytes, and a free entry. -/
def bindable : State :=
  let m := memWrite (memWrite (memWrite pages 0x70000 (leBytes 8 4)) 0x70008 (leBytes 8 0x40000)) 0x70010 (leBytes 8 128)
  { atControl with mem := m }

theorem meets_BindResults :
    bindable.th.sr 4 = 0x20000 ∧ bindable.th.sr 3 = 0x10000 ∧
    ((bindable.readDescriptor 0x10000).toOption.map fun x => (x.2.1, x.2.2)) = some (4, [0x40000, 128]) ∧
    (4 : Dword).extractLsb' 6 58 = 0 ∧ (4 : Dword).getLsbD 3 = false ∧ ((4 : Dword).extractLsb' 0 3).toNat ≤ 4 ∧
    rangeOk 0x40000 128 = true ∧ regionOf 0x40000 ≠ .sup ∧ (bindable.ctxAt bindable.th.ctx).bindSlot 0x20000 = some 0 := by
  decide +kernel

/-- ScratchpadResults and SpsetRule: an entry that holds page 0x10000 (B = 128), a table without it, and an image that would stand twice. -/
theorem meets_ScratchpadResults :
    let hit : Thread := { thread with sptab := thread.sptab.set 2 0x10001 }
    (spV (hit.spAt 2) = true ∧ spTag (hit.spAt 2) = (hit.sr 3).toNat % 2 ^ 56 / 2 ^ hit.blockLog * 2 ^ hit.blockLog ∧
      ∀ j < 2, ¬ spV (hit.spAt j) = true) ∧
    (∀ i < 256, ¬ spV (thread.spAt i) = true) ∧
    (spV (hit.spImage 0x10001) = true ∧ spTag (hit.spAt 2) = spTag (hit.spImage 0x10001)) ∧ hit.quiet = true ∧ hit.trap.inh = false ∧
    { hit with out := [⟨0, false, none⟩] }.quiet = false := by decide +kernel

/-- ArrivalResults: the last word of the arrival page and a word of an L2-only page. -/
theorem meets_ArrivalResults :
    (atControl.arrPlace thread .amo 0x007FFFFF00300FF8).toOption = some (.page 1 0 511, none) ∧
    ((atControl.arrPlace thread .read 0x20008).toOption.map (·.1)) = some (.mem 0x80008) ∧ thread.freeId = some 0 ∧
    atControl.turnHeld thread.tid (ArrPlace.mem 0x80008).place = false ∧ atControl.linesFree thread = true ∧
    atControl.releaseWaits thread (scopeOf (atControl.bindingOf 0x20008)) = false ∧ (arrived 0x0000000040000003 1).2 = false ∧ (arrived 0x0000000040000003 2).2 = true := by decide +kernel

/-- A thread in supervisor state with the share table at 0x2000000, where frame 7 counts 1. -/
def sharing : State :=
  let t : Thread := { thread with priv := true, s := thread.s.set 8 0x30000 }
  let m := memWrite pages 0x200000E (leBytes 2 1)
  { atControl with th := t, mem := m, regs := { Regs.reset with fstbase := 0x2000001 } }

/-- ShareResults: page 0x10000 shared to 0x30000, whose entry is free. A length of 0 (s0) ends the word. -/
theorem meets_ShareResults :
    let u := sharing.settle
    let root := (u.rootFor u.th.ctx 0x10000).1
    sharing.awaitsInval sharing.th.tid = false ∧ sharing.mayShare (shareX 1) = true ∧
    (sharing.shareCheck 0x10000 (some 0x30000) 1).toOption = some () ∧ (sharing.shareCheck 0x10000 (some 0x30000) 0).toOption = some () ∧
    sharePages 0 = 0 ∧ sharePages 1 ≠ 0 ∧ u.th.sr 3 = 0x10000 ∧ u.th.sr 8 = 0x30000 ∧
    (walk u.mem root 0x10000 4).toOption = some (0x70087, 0x50008, false) ∧ isHbm 0x70000 = true ∧
    slotOf u.mem root 0x30000 false = .free 0x50018 ∧ shareAddr u.regs.fstbase 7 = 0x200000E ∧ u.shareCount 7 = 1 := by decide +kernel

/-- DropResults: the page that is mapped, an entry that is not valid, TLBINV of the thread's own tag. -/
theorem meets_DropResults :
    let u := sharing.settle
    let root := (u.rootFor u.th.ctx 0x10000).1
    sharing.mayShare false = true ∧ (sharing.shareCheck 0x10000 none 1).toOption = some () ∧ u.regs.poolFull = false ∧ u.shareCount 7 = 1 ∧
    root.getLsbD 0 = true ∧
    (match walk u.mem root 0x30000 4 with | .error f => f.code == cPGMISS && f.level == 3 | .ok _ => false) = true ∧
    (match walk u.mem root 0x40000000 4 with | .error f => f.code == cPGMISS && f.level == 2 | .ok _ => false) = true ∧
    sharing.th.priv = true ∧ (0x100000001 : Dword).extractLsb' 49 15 = 0 := by decide +kernel

/-- A page of code with VADD and PEND at 0x100. -/
def fetching : State :=
  let m := memWrite (memWrite pages 0x60100 (leBytes 4 0xA8410500)) 0x60104 (leBytes 4 0xA0010000)
  { atControl with mem := m }

/-- VfetchResults: the block at the PC itself, with room in the queue. -/
theorem meets_VfetchResults :
    ((fetching.fetchBlock false 0x100).toOption.map (·.2)) = some [0xA8410500, 0xA0010000] ∧ (0x100 : Dword).toNat % 4 = 0 ∧
    (∀ j < thread.n, (thread.plyAt j).queue.length + (if (thread.plyAt j).run.isSome then 1 else 0) < 4) := by decide +kernel

/-- OneWordBlocks: VADD is such a word. -/
theorem meets_OneWordBlocks :
    (uses (.vadd 4 4 (.field 5))).block = true ∧ (∀ k c o, Instr.vadd 4 4 (.field 5) ≠ .pbr k c o) ∧ Instr.vadd 4 4 (.field 5) ≠ .pwait := by
  refine ⟨by decide +kernel, ?_, ?_⟩
  · intro k c o h; cases h
  · intro h; cases h

/-- The ply in a block, MODE 0. -/
theorem at_ply (mode : BitVec 26) (rows : List Nat) : AtPly (inBlock mode rows) 0 (standing mode) := ⟨rfl, rfl, rfl⟩

/-- ModeLengthResults, TaintFenceResults: no block, nothing outstanding; a ply in a block; entries at the edge of the check columns. -/
theorem meets_ModeLengthResults :
    thread.blocksEnded = true ∧ thread.out = [] ∧ (standing 0).blk.one = false ∧
    (778 : BitVec 10).toNat + (48 : BitVec 7).toNat + 6 ≤ 832 ∧ ¬ ((779 : BitVec 10).toNat + (48 : BitVec 7).toNat + 6 ≤ 832) ∧
    TaintName.inBlock (.v 4) = true ∧ TaintName.inBlock (.k 15) = true ∧ thread.fent 4 ≠ none ∧ thread.fent 8 = none ∧
    (∀ b ∈ atControl.own thread, b.isAdd = false) ∧ (∀ r ∈ atControl.sliceQ, r.tid ≠ thread.tid) := by decide +kernel

/-- TaintFenceResults: accumulators of the grant and above it. -/
theorem meets_Granted : Granted atControl (.acc 1) ∧ ¬ Granted atControl (.acc 2) ∧ Granted atControl (.s 9) := by
  refine ⟨?_, fun h => absurd (h 2 rfl) (by decide +kernel), fun n h => by cases h⟩
  intro n h
  cases h
  decide +kernel

/-- VjoinWord: a thread whose ply runs a block, one whose ply has a block queued, one with neither. -/
theorem meets_VjoinWord :
    let busy : Thread := (inBlock 0 []).th
    (∃ j < busy.n, (busy.plyAt j).run.isSome = true) ∧
    (∃ j < thread.n, (({ thread with plies := thread.plies.set 0 { Ply.idle with queue := [(standing 0).blk] } } : Thread).plyAt j).queue ≠ []) ∧
    (∀ j < thread.n, (thread.plyAt j).run = none ∧ (thread.plyAt j).queue = []) := by
  refine ⟨⟨0, by decide +kernel⟩, ⟨0, by decide +kernel⟩, by decide +kernel⟩

/-- PendEnds: the one ply that holds the block, and none that has it queued. -/
theorem meets_PendEnds :
    ∀ k : BitVec 4, (k ≠ 0 → ¬ Runs (inBlock 0 []) k (standing 0).origin) ∧ ¬ HasQueued (inBlock 0 []) k (standing 0).origin := by
  have h : ∀ k : BitVec 4, (k ≠ 0 → (inBlock 0 []).th.running k = none) ∧ (inBlock 0 []).th.plies[k.toFin].queue = [] := by decide +kernel
  intro k
  constructor
  · rintro hk ⟨x, hx, _⟩
    rw [(h k).1 hk] at hx
    cases hx
  · rintro ⟨b, hb, _⟩
    rw [(h k).2] at hb
    cases hb

/-- Two plies of one block, the other running, at the splice, or at a crossing. -/
def twoPlies (w : PlyWait) : State :=
  let t := (inBlock 0 []).th
  { inBlock 0 [] with th := { t with
      log2n := 1, plies := t.plies.set 1 { Ply.idle with run := some { standing 0 with wait := w } } } }

/-- PlyControlResults: a block that PFETCH finds; a splice at which the other ply has not arrived, has arrived, or waits elsewhere. -/
theorem meets_PlyControlResults :
    (((State.fetchBlock { fetching with th := (inBlock 0 []).th } false (0x200 + 4 * (0xFFC0 : BitVec 16).signExtend 64)).toOption.map (·.2)).isSome = true) ∧
    ((twoPlies .running).th.await 0 (standing 0) .splice).arrived 0 = none ∧
    ((((twoPlies .splice).th.await 0 (standing 0) .splice).arrived 0).map fun ws => ws.map fun x => (x.1, x.2.wait, x.2.blk.one)) =
      some [(0, .splice, false), (1, .splice, false)] ∧
    ((((twoPlies .crossing).th.await 0 (standing 0) .splice).arrived 0).map fun ws => ws.map fun x => x.2.wait) =
      some [.splice, .crossing] := by decide +kernel

/-- SystemResults: no lease and one that ends at CYCLES 1400; SYNCI with every line free. -/
theorem meets_SystemResults :
    thread.lease = none ∧ thread.event = false ∧ { thread with event := true }.event = true ∧ atControl.linesFree thread = true ∧
    ({ thread with lease := some (3, 1400) } : Thread).lease = some (3, 1400) ∧ (thread.sr 0).setWidth 4 = (0 : BitVec 4) ∧
    (thread.sr 1).setWidth 4 ≠ (0 : BitVec 4) ∧ (∀ x ∈ atControl.parked, x.tid ≠ thread.tid) := by decide +kernel

/-- HaltResults: a thread with nothing under way. -/
theorem meets_HaltResults :
    thread.blocksEnded = true ∧ (∀ o ∈ thread.out, o.vec = false) ∧ atControl.linesFree thread = true ∧
    (atControl.release none).completionArrival.th.live = true := by decide +kernel

/-- TrapEntry: a thread that is quiet, one that waits for a load, one that is in its handler. -/
theorem meets_TrapEntry :
    thread.quiet = true ∧ thread.trap.inh = false ∧ { thread with out := [⟨0, false, none⟩] }.quiet = false ∧
    { thread with trap := { thread.trap with inh := true } }.quiet = true := by decide +kernel

/-- A thread in its handler, with nothing saved of plies or blocks. -/
def inHandler : State := { atControl with th := { thread with priv := true, trap := { thread.trap with svc := true, inh := true, epc := 0x300 } } }

/-- EretResults: in the handler; as task; as supervisor with no trap in service. -/
theorem meets_EretResults :
    inHandler.th.priv = true ∧ inHandler.th.trap.svc = true ∧ inHandler.th.blocksEnded = true ∧ inHandler.th.out = [] ∧
    (match inHandler.commit.resumeBlocks false with | .error _ => false | .ok _ => true) = true ∧
    (∀ j < 1, (inHandler.th.trap.tppc.toList.getD j 0).getLsbD 0 = false) ∧ (∀ i < 4, (inHandler.th.trap.tbqa.toList.getD i 0).getLsbD 63 = false) ∧
    thread.priv = false ∧ { thread with priv := true }.trap.svc = false := by decide +kernel

/-- SystemRegisterResults and SystemRegisterPrivilege: registers of task and supervisor, read-only ones, reserved bits, waits. -/
theorem meets_SystemRegisterResults :
    sysPrivileged 0x003 = false ∧ sysPrivileged 0x100 = true ∧ sysPrivileged 0x280 = false ∧ sysReadOnly 0x003 = false ∧
    sysReadOnly 0x001 = true ∧ (1 : Dword) &&& sysReserved 0x200 ≠ 0 ∧ sysReadOnly 0x200 = false ∧
    (0x0080000000000400 : Dword) &&& 0xFF000000000003FF = 0 ∧ (0xFFFF000000020001 : Dword) &&& 0x1FFFC = 0 ∧ thread.blocksEnded = true ∧
    (inBlock 0 []).th.blocksEnded = false ∧ sysWaits 0x200 true = false ∧ modeImageOk 0 = true ∧ modeImageOk 0x3000 = false ∧
    ¬ poolLen Regs.reset.fpbase ≤ 8191 ∧ poolLen Regs.reset.fpbase ≤ 8192 := by decide +kernel

/-- SystemRegisterResults: an image of CTXCTL that it takes, and one that is CTXBAD. -/
theorem meets_ctxctl :
    let s : State := { atControl with th := { thread with priv := true } }
    (s.ctxctl 0).toOption.isSome = true ∧ (s.ctxctl 1).toOption.isSome = false := by decide +kernel

/-! Words of a block. -/

/-- What `Elementwise` asks of a ply's state, apart from the operands' and types' own conditions. -/
theorem meets_Elementwise :
    (inBlock 0 []).th.plies[(0 : Fin 16)].stopped = none ∧ (inBlock 0 []).th.checked = false ∧ (under (standing 0) 0).vl ≤ 256 * (inBlock 0 []).th.n ∧
    (inBlock 0 []).th.n = 1 := by decide +kernel

/-- Elementwise, of words with restart points: a restart point valid, and none of the rows known to be as a stop left it. -/
theorem meets_restart_point :
    let s : State := { inBlock 0 [] with th := { (inBlock 0 []).th with pidx := 0x8000000000000003 } }
    s.th.pidx.getLsbD 63 = true ∧ s.points = [] ∧ (inBlock 0 []).th.pidx.getLsbD 63 = false ∧ modeTtrap 0 = false := by decide +kernel

theorem fits : ∀ v ∈ [(4 : BitVec 6), 5, 6, 7, workField], Fits (inBlock 0 []) v := by
  unfold Fits
  decide +kernel

/-- VectorIntegerResults: i16-like operands of class 0, pairs of class 6, and the work field of the words that use it (of vd's width). -/
theorem meets_VectorIntegerResults :
    let t := (inBlock 0 []).th
    let c := under (standing 0) 0
    let p := under (standing 0x600) 0
    intOrPair c.ty = true ∧ c.ty.isInt = true ∧ p.ty.isPair = true ∧ intOrPair p.ty = true ∧
    t.operandFault c.nf [] (operands 4 5 (some (.field 7)) c none) = none ∧ t.operandFault c.nf [] (operands 4 5 (some (.sreg 1)) c none) = none ∧
    { t with fmap := t.fmap.set 63 (some ⟨128, 8, false⟩) }.operandFault c.nf [] (operands 4 5 (some (.sreg 1)) c (some 8)) = none ∧
    t.operandFault c.nf [] (vops1 4 5 c) = none := by decide +kernel

/-- VectorFloatResults, VectorBitResults: binary32, its operands of 32 columns, the work field of 64; VFCVT from integers and to them. -/
theorem meets_VectorFloatResults :
    let t := (inBlock 0x220 []).th
    let c := under (standing 0x220) 0
    c.ty.isFloat = true ∧ c.ty = .f32 ∧ t.operandFault c.nf c.ty.nfs (operands 6 7 (some (.freg 1)) c (some 64)) = none ∧
    t.operandFault c.nf c.ty.nfs (operands 6 7 none c none) = none ∧ t.operandFault c.nf c.ty.nfs [⟨0, 4, .any, .dst⟩, ⟨1, 7, c.wreq, .src⟩] = none ∧
    cvtOk c.ty .sint = true ∧ cvtOk .sint .f32 = true ∧ modeTtrap (standing 0x220).mode = false ∧ modeTtrap 0x8000 = true := by decide +kernel

/-- CompareResults: integers with a field and a register, floats with a register; one operand. -/
theorem meets_CompareResults :
    let t := (inBlock 0 []).th
    let c := under (standing 0) 0
    let f := under (standing 0x220) 0
    c.ty.isInt = true ∧ f.ty.isFloat = true ∧ t.operandFault c.nf c.ty.nfs [⟨1, 4, c.wreq, .src⟩, ⟨2, 5, c.wreq, .src⟩] = none ∧
    t.operandFault f.nf f.ty.nfs [⟨1, 7, f.wreq, .src⟩] = none := by decide +kernel

/-- SearchWriteResults: the roles that its words give their one field. -/
theorem meets_SearchWriteResults :
    let t := (inBlock 0 []).th
    let c := under (standing 0) 0
    [((1 : Nat), Role.src), (1, .dst), (4, .src), (4, .dst)].all (fun p => t.operandFault c.nf [] [⟨p.1, 4, .any, p.2⟩] == none) = true := by
  decide +kernel

/-- The one ply of the thread reaches a crossing: it takes part alone. -/
def alone (mode : BitVec 26) : List (Nat × Running) := [(0, { standing mode with wait := .crossing })]

theorem meet (mode : BitVec 26) (rows : List Nat) : Meet (inBlock mode rows) 0 (standing mode) (alone mode) := by
  refine ⟨at_ply mode rows, rfl, rfl, ?_, rfl, (by decide : (8 : BitVec 13).toNat ≤ 256 * 2 ^ (0 : BitVec 3).toNat)⟩
  intro x hx
  rw [alone, List.mem_singleton] at hx
  subst hx
  exact ⟨rfl, rfl, rfl⟩

/-- Two plies that meet with equal modes, and whose modes differ (which is PLYDIV). -/
theorem meet_two :
    (((twoPlies .crossing).th.await 0 (standing 0) .crossing).arrived 0).map (fun ws => ws.map fun x => (x.1, x.2.wait, x.2.pc, x.2.mode)) =
      some [(0, .crossing, 0x200, 0), (1, .crossing, 0x200, 0)] := by decide +kernel

/-- ReductionResults, FloatReductionResults, TagCrossResults: no restart point; types and operands; the trust of VRFSUM with no element
active and with elements. -/
theorem meets_ReductionResults :
    let s := inBlock 0 []
    let c := together (standing 0) (alone 0)
    let f := together (standing 0x220) (alone 0x220)
    s.th.pidx.getLsbD 63 = false ∧ (s.th.ent 4).width.toNat ≤ 64 ∧ c.ty.isInt = true ∧ intOrRaw c.ty = true ∧ f.ty.isFloat = true ∧
    s.th.operandFault c.nf c.ty.nfs [⟨1, 4, c.wreq, .src⟩] = none ∧ s.th.operandFault f.nf f.ty.nfs [⟨1, 7, f.wreq, .src⟩] = none ∧
    s.th.operandFault f.nf f.ty.nfs [⟨1, 7, f.wreq, .src⟩, ⟨4, workField, .exact 64, .work⟩] = none ∧ f.fmt.prec < 64 ∧
    (opSum f.fmt f.rnd [Fmt.b32.opd 0x3F800000 24, Fmt.b32.opd 0xBF800000 20]).t < 64 ∧ (s.th.sr 1).toNat < c.vl ∧ ¬ (s.th.sr 2).toNat < c.vl := by
  decide +kernel

/-- SearchResults: types that rank, VCONF without a restart point, VNEARK with its work field. -/
theorem meets_SearchResults :
    let s := inBlock 0 []
    let c := together (standing 0) (alone 0)
    rankable c.ty = true ∧ s.th.operandFault c.nf [] [⟨1, 4, .any, .src⟩] = none ∧
    s.th.operandFault c.nf [] [⟨1, 4, .any, .src⟩, ⟨4, workField, .range 7 64, .work⟩] = none := by decide +kernel

/-- MoveResults and ScanResults: operands, an index field, no segment read, a vd that holds every rank; VSOFT's types. -/
theorem meets_MoveResults :
    let s := inBlock 0 []
    let c := together (standing 0) (alone 0)
    let u := together (standing 0x100) (alone 0x100)
    let f := together (standing 0x220) (alone 0x220)
    s.th.operandFault c.nf c.ty.nfs (vops1 5 4 c) = none ∧ s.th.operandFault c.nf c.ty.nfs (vops1 5 4 c ++ [⟨2, 7, .any, .src⟩]) = none ∧
    s.th.segs = [] ∧ s.th.operandFault u.nf u.ty.nfs [⟨0, 4, u.wreq, .dst⟩] = none ∧ u.ty = .uint ∧ (s.active u).length < 2 ^ 8 ∧
    s.th.operandFault c.nf c.ty.nfs (vops1 5 4 c ++ [⟨4, workField, .exact 64, .work⟩]) = none ∧ intOrFloat c.ty = true ∧
    s.th.operandFault f.nf f.ty.nfs (vops1 7 6 f ++ [⟨4, workField, .exact 64, .work⟩]) = none := by decide +kernel

/-- FieldLoadResults and FieldStoreResults: unit stride from the view, all elements at once; an identifier free; nothing armed. -/
theorem meets_FieldLoadResults :
    let s := inBlock 0 []
    let c := together (standing 0) (alone 0)
    let g := Ready s 0 (standing 0) c (.sreg 0)
    s.th.freeId = some 0 ∧ s.th.armed = false ∧ s.th.operandFault c.nf c.ty.nfs [⟨0, 5, c.wreq, .dst⟩] = none ∧ s.active c = List.range 8 ∧
    ((s.active c).all fun e => (g.1.elemPieces .read 2 (g.1.th.sr 5 + BitVec.ofNat 64 (2 * e))).toOption.any fun ps =>
      !anyDevice ps && ps.all fun p => !s.addHeld p && !s.addOut p) = true ∧
    ((s.active c).all fun e => (g.1.elemPieces .write 2 (g.1.th.sr 3 + BitVec.ofNat 64 (2 * e))).toOption.isSome) = true ∧
    addable c.ty = true ∧ ((s.active c).all fun e => (g.1.addPieces 2 (g.1.th.sr 4 + BitVec.ofNat 64 (2 * e))).toOption.any fun ps => ps.length == 1) = true := by
  decide +kernel

/-- ErrorFeedbackStore: binary32 into bf16 under RNE and under EFB. -/
theorem meets_ErrorFeedbackStore :
    let s := inBlock 0x220 []
    let c := together (standing 0x220) (alone 0x220)
    c.ty.isFloat = true ∧ EType.bf16.isFloat = true ∧ s.th.operandFault c.nf (c.ty.nfs ++ EType.bf16.nfs) [⟨0, 7, c.wreq, .src⟩] = none ∧
    modeRound 0x220 ≠ 5 ∧ modeRound 0x2A20 = 5 := by decide +kernel

/-! Matrix words, copies, collectives. -/

/-- The ply at a matrix word that the engine has started, with an accumulator shape and a plane. -/
def engaged (mode : BitVec 26) (p : Plane) : State :=
  let s := inBlock mode []
  { s with
    mq := [⟨⟨0, 0⟩, (0, 0x200), 0, 0, 0, false, true⟩]
    th := { s.th with acc := s.th.acc.set 0 { Tile.fresh with plane := p }, s := s.th.s.set 9 0x8083000000020011 } }

theorem meet_engine (p : Plane) : MeetEngine (engaged 0x220 p) 0 (standing 0x220) (alone 0x220) := by
  refine ⟨⟨⟨rfl, rfl, rfl⟩, rfl, rfl, ?_, rfl, (by decide : (8 : BitVec 13).toNat ≤ 256 * 2 ^ (0 : BitVec 3).toNat)⟩, _, rfl, rfl⟩
  intro x hx
  rw [alone, List.mem_singleton] at hx
  subst hx
  exact ⟨rfl, rfl, rfl⟩

/-- 13, the worked example: ATYPE binary32, band 0; a plane of K = 3, N = 1 in bf16. -/
def shaped : Plane := { Plane.fresh with atype := 1, bands := 1 }
def latched : Plane := { shaped with valid := true, k := 3, n := 1, fmt := 3, weights := [(0, 0x3F80), (64, 0x3F80), (128, 0x3F80)] }

/-- AccumulatorResults: shape images that are good (0x11, 0x2F), with no band, of type 3, with a bit above; a queue with room; MCHK once. -/
theorem meets_AccumulatorResults :
    (inBlock 0 []).th.freeId ≠ none ∧ (∀ m ∈ (inBlock 0 []).mq, m.tid ≠ (inBlock 0 []).th.tid) ∧
    ((inBlock 0 []).mq.filter fun m => m.tid.core = (inBlock 0 []).th.tid.core).length < 16 ∧ (0 : BitVec 2).toNat < thread.tiles.toNat ∧
    (({ inBlock 0 [] with mq := .replicate 16 ⟨⟨0, 0⟩, (1, 0), 0, 0, 0, false, false⟩ } : State).matOps 0).length = 16 ∧
    (alone 0).head?.map (·.2.origin) = some (standing 0).origin ∧
    (1 : BitVec 2).toNat < thread.tiles.toNat ∧ ((0x2F : Dword).toNat < 64 ∧ (0x2F : Dword).extractLsb' 4 2 ≠ 3 ∧ (0x2F : Dword).setWidth 4 ≠ (0 : BitVec 4)) ∧
    (0x3F : Dword).extractLsb' 4 2 = 3 ∧ 64 ≤ (0x40 : Dword).toNat ∧ (0x10 : Dword).setWidth 4 = (0 : BitVec 4) ∧ thread.strip.mchecks = [] := by
  decide +kernel

/-- WeightLoadResults: the descriptor 0x0000_C083_0000_0002 of the worked example, and one of a sparse tile of K = 8, whose metadata field has
12 columns and rising positions. -/
theorem meets_WeightLoadResults :
    let s := engaged 0x220 shaped
    let c := together (standing 0x220) (alone 0x220)
    let u := Served s 0 (standing 0x220) (alone 0x220)
    s.th.freeId = some 0 ∧ (MFmt.ofCode 3).isSome = true ∧ ((MFmt.ofCode 3).map fun f => (f.m, f.g)) = some (2, 2) ∧
    matFmtBad 3 c.nf = none ∧ (s.th.sr 3).toNat % 2 = 0 ∧ weightShape shaped 9 0x0000C08300000002 false = none ∧
    (u.eltsPieces .read 2 ((List.range 3).map fun k => s.th.sr 3 + BitVec.ofNat 64 (2 * k))).toOption.isSome = true ∧
    weightShape shaped 9 0x0000C08800000002 true = none ∧ (0x0000C08800000002 : Dword).extractLsb' 32 7 = (8 : BitVec 7) := by decide +kernel

theorem meets_sparse_metadata :
    let s0 := inBlock 0x220 [0o7310]
    let s : State := { s0 with th := { s0.th with fmap := s0.th.fmap.set 4 (some ⟨0, 12, false⟩) } }
    let pos (i : Nat) : Nat := bitsOf s 4 0 / 8 ^ i % 8
    s.th.operandFault (under (standing 0x220) 0).nf [] [⟨3, 4, .range 12 64, .src⟩] = none ∧ pos 0 < pos 1 ∧ pos 1 < pos 2 ∧ pos 2 < pos 3 := by
  decide +kernel

/-- StreamResults: the descriptor 0x0001_8002_0000_0008 of the worked example; no row to stream; the retry of MROW on this accumulator. -/
theorem meets_StreamResults :
    let c := together (standing 0x220) (alone 0x220)
    matFmtBad 3 c.nf = none ∧ latched.damaged = false ∧ latched.n.toNat ≤ latched.columns ∧
    streamShape latched 0 9 0x0001800200000008 = none ∧ modeTtrap (standing 0x220).mode = false ∧ (0 : Nat) ≤ ((0x0001800200000008 : Dword).extractLsb' 32 8).toNat := by
  decide +kernel

theorem meets_streamed_row :
    let s := engaged 0x220 latched
    (Served s 0 (standing 0x220) (alone 0x220)).eltsPieces .read 2 ((List.range 3).map fun e => s.th.sr 3 + BitVec.ofNat 64 (2 * e)) |>.toOption.isSome := by
  decide +kernel

/-- DrainResults: one column of binary32 to memory, and a column to a field with trust. -/
theorem meets_DrainResults :
    let s := engaged 0x220 latched
    let c := together (standing 0x220) (alone 0x220)
    (standing 0x220).vl.toNat ≤ 128 ∧ ((MFmt.ofCode 4).map fun f => (f.m, f.float)) = some (4, true) ∧ matFmtBad 4 c.nf = none ∧
    drainShape latched 9 (4 * 2 ^ 45 + 1 * 2 ^ 38 + 16) = none ∧ Machine.Thread.armed s.th = false ∧ s.th.pidx.getLsbD 63 = false ∧
    ((Served s 0 (standing 0x220) (alone 0x220)).eltsPieces .write 4 [s.th.sr 3]).toOption.isSome = true ∧ c.ty.isFloat = true ∧
    s.th.operandFault c.nf c.ty.nfs [⟨1, 6, c.wreq, .dst⟩] = none ∧ (0 : Nat) < latched.columns := by decide +kernel

/-- CompressResults: two fields and a metadata field of 12 columns, none meeting another. -/
theorem meets_CompressResults :
    let t := { (inBlock 0 []).th with fmap := (inBlock 0 []).th.fmap.set 8 (some ⟨200, 12, false⟩) }
    let c := together (standing 0) (alone 0)
    c.ty.isInt = true ∧ t.operandFault c.nf c.ty.nfs [⟨1, 4, c.wreq, .dst⟩, ⟨2, 8, .range 12 64, .dst⟩, ⟨3, 5, c.wreq, .src⟩] = none ∧
    (t.ent 4).cols.2 ≤ 1024 ∧ (t.ent 8).cols.2 ≤ 1024 := by decide +kernel

/-- Copies of 16 bytes: between pages, from and to the view (s10) and the window of core 0 (s11), to another package of rank 5 (s12). s9
asks for 16 bytes, s16 adds an arrival on word 0 of the arrival page (s17), s18 a mask of core 0, s20 a fabric destination, s21 nothing. -/
def copying : State :=
  { atControl with
    mem := memWrite pages 0x100028 (leBytes 8 0x9000000000000002), regs := { Regs.reset with frtbase := 0x100000 }
    th := { thread with s := regsOf [(3, 0x10000), (4, 0x20000), (9, 16), (10, 0x007FFFFF00007FF0), (11, 0x007FFFFF00100000),
      (12, 5 * 2 ^ 48), (16, 16 + 2 ^ 35), (17, 0x007FFFFF00300000), (18, 16 + 2 ^ 28), (20, 16 + 2 ^ 34)] } }

/-- Whether a range passes, as a value to compute. -/
def passesB (s : State) (k : Kind) (v : Dword) (n : Nat) : Bool := n == 0 || ((s.rangeFault v n).isNone && (s.rangeRuns k v n).1.isEmpty)

theorem passes_of {s : State} {k : Kind} {v : Dword} {n : Nat} (h : passesB s k v n = true) : RangePasses s k v n := by
  intro hn
  simpa [passesB, hn] using h

/-- Whether a range is near-window. -/
def nearB (v : Dword) (n : Nat) : Bool :=
  decide (nearBase ≤ v.toNat) && (decide (v.toNat + n ≤ nearBase + 0x100000) ||
    (decide (nearBase + 0x100000 ≤ v.toNat) && decide (v.toNat + n ≤ nearBase + 0x300000)))

theorem near_of {v : Dword} {n : Nat} (h : nearB v n = true) : NearRange v n := by simpa [nearB, NearRange] using h

/-- The checks of a copy, of its operands, its control word x and its arrival word w, to compute. -/
def copyOk (s : State) (nd ns pair : Bool) (dv av x w : Dword) : Bool :=
  let n := (x.extractLsb' 0 28).toNat
  x.extractLsb' 36 28 == 0 && (!x.getLsbD 34 || !nd) && (!x.getLsbD 33 || !ns) && (x.extractLsb' 28 4 == 0 || nd) && (!x.getLsbD 35 || pair)
  && (!nd || nearB dv n) && (!ns || nearB av n) && (nd || x.getLsbD 34 || !inNear dv n) && (ns || x.getLsbD 33 || !inNear av n)
  && (x.extractLsb' 28 4 == 0 || (decide (nearBase + 0x100000 ≤ dv.toNat) && decide (dv.toNat + n ≤ nearBase + 0x180000)))
  && (x.getLsbD 34 || (copyDests x dv).all fun v => passesB s .write v n) && (x.getLsbD 33 || passesB s .read av n)
  && (!x.getLsbD 35 || (w.extractLsb' 0 3 == 0 &&
    if x.getLsbD 34 then w.extractLsb' 48 16 == dv.extractLsb' 48 16 else (s.arrPlace s.th .amo w).toOption.isSome))
  && (!x.getLsbD 34 || s.routed (dv.extractLsb' 48 16)) && (!x.getLsbD 33 || s.routed (av.extractLsb' 48 16))
  && (x.getLsbD 34 || x.getLsbD 33 || (copyDests x dv).all fun v => !rangesMeet v av n n)

theorem copy_passes (s : State) (nd ns : Bool) (d a b : BitVec 6) (h : copyOk s nd ns (b != 63) (s.th.sr d) (s.th.sr a) (s.th.sr b) (s.th.sr (b + 1)) = true) :
    CopyPasses s nd ns d a b := by
  simp only [copyOk, Bool.and_eq_true, Bool.or_eq_true, Bool.not_eq_true', beq_iff_eq, List.all_eq_true, decide_eq_true_eq, bne_iff_ne] at h
  obtain ⟨⟨⟨⟨⟨⟨⟨⟨⟨⟨⟨⟨⟨⟨⟨h1, h2⟩, h3⟩, h4⟩, h5⟩, h6⟩, h7⟩, h8⟩, h9⟩, h10⟩, h11⟩, h12⟩, h16⟩, h13⟩, h14⟩, h15⟩ := h
  have no {p : Prop} {x : Bool} (y : x = false) (z : x = true) : p := by rw [y] at z; cases z
  exact
    { reserved := h1
      fields := ⟨fun y => h2.resolve_left (no · y), fun y => h3.resolve_left (no · y), fun y => h4.resolve_left y, fun y => h5.resolve_left (no · y)⟩
      nearRanges := ⟨fun y => near_of (h6.resolve_left (no · y)), fun y => near_of (h7.resolve_left (no · y))⟩
      farRanges := ⟨fun y z => (h8.resolve_left fun w => w.elim (no y) (no z)), fun y z => (h9.resolve_left fun w => w.elim (no y) (no z))⟩
      multicast := fun y => h10.resolve_left y
      ranges := ⟨fun y v hv => passes_of (h11.resolve_left (no y) v hv), fun y => passes_of (h12.resolve_left (no y))⟩
      word := fun y => by
        obtain ⟨z, w⟩ := h16.resolve_left (no · y)
        refine ⟨z, ?_⟩
        split at w <;> rename_i v
        · rw [if_pos v]; exact eq_of_beq w
        · rw [if_neg v]; exact ok_of w
      routed := ⟨fun y => h13.resolve_left (no · y), fun y => h14.resolve_left (no · y)⟩
      apart := fun y z v hv => (h15.resolve_left fun w => w.elim (no y) (no z)) v hv }

/-- CopyResults: each of the four copies; a multicast to core 0; a destination in another package; a length of 0; a copy with an arrival word
and its chunk; reserved control bits. CPYWAIT with a chunk left and with none. -/
theorem meets_CopyResults :
    CopyPasses copying true false 10 3 9 ∧ CopyPasses copying false true 4 10 9 ∧ CopyPasses copying true true 10 11 9 ∧
    CopyPasses copying false false 4 3 9 ∧ CopyPasses copying true false 11 3 18 ∧ CopyPasses copying false false 12 3 20 ∧
    CopyPasses copying false false 4 3 21 ∧ CopyPasses copying false false 4 3 16 := by
  refine ⟨copy_passes _ _ _ _ _ _ ?_, copy_passes _ _ _ _ _ _ ?_, copy_passes _ _ _ _ _ _ ?_, copy_passes _ _ _ _ _ _ ?_,
    copy_passes _ _ _ _ _ _ ?_, copy_passes _ _ _ _ _ _ ?_, copy_passes _ _ _ _ _ _ ?_, copy_passes _ _ _ _ _ _ ?_⟩ <;>
  decide +kernel

theorem meets_copies_left :
    copying.copyFull = false ∧ (0x1000000000 : Dword).extractLsb' 36 28 ≠ 0 ∧
    (copying.chunks.all fun c => c.group != thread.group) = true ∧ (after (exec (.cpyg2g 4 3 9) copying)).chunks.length = 1 ∧
    ((after (exec (.cpyg2g 4 3 9) copying)).chunks.all fun c => c.group == thread.group && c.len == 16) = true ∧ thread.freeId ≠ none := by
  decide +kernel

/-- NearRange: the last bytes of the view and of the cluster windows, and ranges that run past them. -/
theorem meets_NearRange :
    NearRange 0x007FFFFF000FFFF0 16 ∧ ¬ NearRange 0x007FFFFF000FFFF1 16 ∧ NearRange 0x007FFFFF002FFFF0 16 ∧ ¬ NearRange 0x007FFFFF002FFFF1 16 := by
  unfold NearRange
  decide +kernel

/-- A group of one package, of this one alone (N = 1), with slots of 64 KiB. s9 asks for four elements of 2 bytes in group 0, s10 for a step of 16 bytes,
s11 for one byte more than a slot, s12 for no bytes. -/
def grouped : State :=
  { atControl with
    groups := [(0, { Group.blank with dw := #v[0x8000000000000000, 0, 0, 0, 0, 0, 0, 0] })]
    th := { thread with s := regsOf [(3, 0x10000), (4, 0x20000), (9, 0x400), (10, 0x1000), (11, 0x1000100), (12, 0)] } }

/-- The checks of a collective, to compute. -/
def colOk (s : State) (k : BitVec 2) (dv av x : Dword) : Bool :=
  let g := colOf s x
  let m := colElem k x
  let n := colSrcLen k s x
  let l := colDstLen k s x
  x.extractLsb' 36 28 == 0 && !x.getLsbD 7 && (k != 3 || !x.getLsbD 6) && g.valid && !g.failed && g.routed
  && (if k = 3 then decide ((x.extractLsb' 8 28).toNat ≤ g.slotSize) else x.extractLsb' 8 28 != 0)
  && (av.toNat % m == 0 && decide (av.toNat < 2 ^ 56) && !inNear av (Nat.max n 1) && passesB s .read av n)
  && (k == 3 || (dv.toNat % m == 0 && decide (dv.toNat < 2 ^ 56) && !inNear dv (Nat.max l 1) && passesB s .write dv l))
  && (n == 0 || l == 0 || !rangesMeet dv av l n)

theorem col_passes (s : State) (k : BitVec 2) (d a b : BitVec 6) (h : colOk s k (s.th.sr d) (s.th.sr a) (s.th.sr b) = true) :
    ColPasses s k d a b := by
  simp only [colOk, Bool.and_eq_true, Bool.or_eq_true, Bool.not_eq_true', beq_iff_eq, decide_eq_true_eq, bne_iff_ne] at h
  obtain ⟨⟨⟨⟨⟨⟨⟨⟨⟨h1, h2⟩, h3⟩, h4⟩, h5⟩, h6⟩, h7⟩, ⟨⟨h8, h9⟩, h10⟩, h11⟩, h12⟩, h13⟩ := h
  exact
    { reserved := ⟨h1, h2, fun y => h3.resolve_left fun z => z y⟩
      group := ⟨h4, h5, h6⟩
      count := by
        split at h7 <;> rename_i y
        · rw [if_pos y]; exact of_decide_eq_true h7
        · rw [if_neg y]; simpa using h7
      source := ⟨h8, h9, h10, passes_of h11⟩
      dest := fun y => by
        obtain ⟨⟨⟨x1, x2⟩, x3⟩, x4⟩ := h12.resolve_left y
        exact ⟨x1, x2, x3, passes_of x4⟩
      apart := fun y z => h13.resolve_left fun w => w.elim y z }

/-- CollectiveResults: each of the four collectives; a step that its slot does not hold; groups in service and not, failed
and not; COLWAIT with nothing left. -/
theorem meets_CollectiveResults :
    ColPasses grouped 0 4 3 9 ∧ ColPasses grouped 1 4 3 9 ∧ ColPasses grouped 2 4 3 9 ∧ ColPasses grouped 3 4 3 10 ∧ ColPasses grouped 3 4 3 12 ∧
    ¬ ColPasses grouped 3 4 3 11 := by
  refine ⟨col_passes _ _ _ _ _ ?_, col_passes _ _ _ _ _ ?_, col_passes _ _ _ _ _ ?_, col_passes _ _ _ _ _ ?_, col_passes _ _ _ _ _ ?_,
    fun h => absurd h.count ?_⟩ <;>
  decide +kernel

theorem meets_group_states :
    (atControl.groupAt 0).valid = false ∧ (grouped.groupAt 0).n = 1 ∧ (grouped.groupAt 0).ops = [] ∧ grouped.colBusy grouped.th 0 = false ∧
    grouped.th.freeId ≠ none ∧ ((0x1000000 : Dword).extractLsb' 8 28).toNat = (grouped.groupAt 0).slotSize ∧
    (let o : ColOp := ⟨0, 0, 1, 0, [], [], 4, false, ⟨0, 0⟩, false, 0, 0, false, [], []⟩
     let s : State := { grouped with groups := [(0, { Group.blank with
       dw := #v[0x8000000100000000, 0, 0, 0, 0, 0, 0, 0], ops := [o] })] }
     s.colBusy s.th 0 = true ∧ (s.groupAt 0).failed = false) := by decide +kernel

/-! Steps of other agents. -/

/-- ThreadEvents: an ordinary load and an acquire outstanding, a check of each kind, a ply with a block queued, the ply that is owned. -/
def waiting : Thread :=
  let q : Ply := { Ply.idle with queue := [(standing 0).blk] }
  { thread with
    out := [⟨3, false, none⟩, ⟨4, true, some none⟩], strip := { Strip.fresh with checks := 1, mchecks := [⟨1, 0x10000, true⟩] }
    plies := thread.plies.set 0 q }

theorem meets_ThreadEvents :
    waiting.live = true ∧ (∃ o ∈ waiting.out, o.id = 3 ∧ o.acquire = none) ∧ (∀ o ∈ waiting.out, o.id = 4 → o.acquire ≠ none) ∧
    waiting.strip.checks ≠ 0 ∧ waiting.strip.mchecks = ⟨1, 0x10000, true⟩ :: [] ∧ thread.strip.checks = 0 ∧ thread.strip.mchecks = [] ∧
    (waiting.plyAt 0).run = none ∧ (waiting.plyAt 0).queue = (standing 0).blk :: [] ∧ (waiting.plyAt 0).stopped = none ∧
    OwnsPly waiting 0 0 0 ∧ ¬ OwnsPly waiting 0 1 1 ∧ waiting.sleep ≠ .wfe ∧ 0 < waiting.n := by
  refine ⟨rfl, ⟨⟨3, false, none⟩, by decide +kernel, rfl, rfl⟩, by decide +kernel, by decide +kernel, rfl, by decide +kernel, rfl, by decide +kernel,
    by decide +kernel, by decide +kernel, by unfold OwnsPly; decide +kernel, by unfold OwnsPly; decide +kernel, by decide +kernel, by decide +kernel⟩

/-- The thread in focus is that of slot 0 of core 0. -/
theorem at_slot : atControl.threadAt ⟨0, 0⟩ = some thread := rfl

/-- TrapDelivery: a thread that has stopped with a trap of its own, with its ply's, with an event in the pending slot, with none; with INH
set; one that has not stopped; a fetch that faults and one that does not. -/
theorem meets_TrapDelivery :
    let own : Thread := { thread with pend := some (illop 0, 5) }
    let ply : Thread := { thread with plies := thread.plies.set 0 { Ply.idle with stopped := some (illop 0, 6) } }
    let slot : Thread := { thread with trap := { thread.trap with pcause := 0x40 } }
    (∀ t ∈ [own, ply, slot, thread], t.quiet = true ∧ t.trap.inh = false ∧ t.saveReq = false ∧ t.migrate = none) ∧
    atControl.awaitsInval ⟨0, 0⟩ = false ∧ atControl.awaitsCopy thread = false ∧ ply.pend = none ∧ LowestFault ply 0 (illop 0) 6 ∧
    NoPlyFault slot ∧ slot.pend = none ∧ slot.trap.pcause.extractLsb' 0 8 ≠ 0 ∧ thread.trap.pcause.extractLsb' 0 8 = 0 ∧
    waiting.quiet = false ∧ ¬ NoPlyFault ply ∧
    (atControl.fetchWord false 0x10000).toOption.isSome = false ∧ (atControl.fetchWord false 0x100).toOption.isSome = true := by
  unfold LowestFault NoPlyFault
  decide +kernel

/-- StripEvents: a strip in error that can be replayed, once it has stopped and before; one that cannot, and one replayed three times. -/
theorem meets_StripEvents :
    let bad : Thread := { thread with strip := { Strip.fresh with error := some (1, 0x10000) } }
    bad.strip.rewindable = true ∧ bad.strip.rewinds < 3 ∧ atControl.stopped bad = true ∧ atControl.stopped waiting = false ∧
    { bad.strip with rewindable := false }.rewindable = false ∧ 3 ≤ { bad.strip with rewinds := 3 }.rewinds ∧ bad.trap.pcause.extractLsb' 0 8 = 0 ∧
    (waiting.out.find? (fun o => o.id = 4)).map (·.acquire) = some (some none) ∧
    look 0 [(rowKey 0 7, (0x8000 : BitVec 16))] (rowKey 0 7) ≠ 0 ∧ look 0 atControl.badCols (rowKey 0 7) = 0 ∧
    atControl.turnHeld ⟨0, 0⟩ (.mem 0x80000 false 0) = false ∧
    { atControl with turns := [(memLine 0x80000, ⟨1, 0⟩)] }.turnHeld ⟨0, 0⟩ (.mem 0x80000 false 0) = true := by decide +kernel

/-- StripEvents: of a thread's two committed stores the older is next, where it is of the same stream. -/
theorem meets_drainNext :
    let b (v : Bool) : Buffered := ⟨v, false, none, .mem 0x80000 false 0, .write [1]⟩
    let s : State := { atControl with drain := [(⟨1, 0⟩, b true), (⟨0, 0⟩, b false), (⟨0, 0⟩, b false)] }
    s.drainNext ⟨0, 0⟩ = some (1, b false) ∧ s.drain[1]? = some (⟨0, 0⟩, b false) ∧ s.turnHeld ⟨0, 0⟩ (b false).place = false ∧
    atControl.drainNext ⟨0, 0⟩ = none := by decide +kernel

/-- SliceEvents: an update of two elements of a line, one that an earlier one of its thread to that line holds back; a write to a line of two
replicas, at the end of the line. -/
theorem meets_SliceEvents :
    let r : SliceReq := ⟨⟨0, 0⟩, 0, none, ⟨.sint, 4, true, 0⟩, [(0x80000, 7), (0x8007C, 9)]⟩
    let q : RepReq := ⟨none, none, 0x80078, 1, leBytes 8 5, true⟩
    ([r, r][1]? = some r ∧ ∃ x ∈ [r, r].take 1, x.tid = r.tid ∧ x.line = r.line) ∧ (¬ ∃ x ∈ [r, r].take 0, x.tid = r.tid ∧ x.line = r.line) ∧
    r.repl = 0 ∧ (∀ p ∈ r.parts, p.1 / 128 = r.line ∧ p.1 % 128 + 4 ≤ 128) ∧ r.parts.Pairwise (fun p q => p.1 + 4 ≤ q.1 ∨ q.1 + 4 ≤ p.1) ∧
    r.op.ty.isFloat = false ∧ q.pa % 128 + q.bytes.length ≤ 128 ∧ q.repl ≠ 0 ∧ (∀ x ∈ [q, q].take 0, x.pa / 128 ≠ q.pa / 128) ∧
    ¬ (∀ x ∈ [q, q].take 1, x.pa / 128 ≠ q.pa / 128) ∧ isHbm (128 * (0x1000 : BitVec 41).toNat) = true ∧
    atControl.addFails r = none ∧
    (let z : SliceReq := ⟨⟨0, 0⟩, 0, some ⟨0, 2, false⟩, ⟨.sint, 4, true, 0⟩, [(0x800000000000, 7)]⟩
     (({ atControl with host := { atControl.host with errors := [(0x100000000000, true)] } } : State).addFails z).isSome = true) := by decide +kernel

/-- HomeSlices: the ends of HBM and of host memory; the last frame of HBM. -/
theorem meets_HomeSlices :
    isHbm (0 : BitVec 48).toNat = true ∧ isHbm (0xFFFFFFFFFF : BitVec 48).toNat = true ∧ isHbm (0x10000000000 : BitVec 48).toNat = false ∧
    isHost (0x800000000000 : BitVec 48).toNat = true ∧ isHost (0x7FFFFFFFFFFF : BitVec 48).toNat = false ∧ 0xFFFFFF < 2 ^ 24 ∧
    [sliceOf 0, sliceOf 0xFFFFFFFFFF, sliceOf 0x80, sliceOf 0x2080, sliceOf 0x800000000080] = [0, 128 * 7 + 64 + 31, 1, 0, 1] := by decide +kernel

/-- TranslationEvents: an address that is mapped and not held, one not mapped, one of the near window; broadcasts of each kind that can complete. -/
theorem meets_TranslationEvents :
    let root := atControl.rootFor 1 0x10000
    (atControl.tlbHit 0 root.2 0x10000).isSome = false ∧ regionOf 0x10000 ≠ .near ∧ regionOf 0x007FFFFF00000000 = .near ∧
    (atControl.missWalk 0 root.2 root.1 0x10000 0).toOption = some (0x70087, 0x50008, false) ∧
    (atControl.missWalk 0 root.2 root.1 0x30000 0).toOption = none ∧
    atControl.invalPending ⟨⟨0, 0⟩, none, 1, 1, .tlbinv, 0, 3, 1⟩ = false ∧ isHbm 0x50018 = true ∧
    sharing.poolWaits ⟨⟨0, 0⟩, none, 1, 1, .drop 0x50008 0x70087 false 1, 0, 3, 1⟩ = false ∧
    (sharing.flushPage 0x70087 false true).shareCount (pteFRAME 0x70087) = 1 ∧ isHbm ((pteFRAME 0x70087).toNat * 65536) = true ∧
    { sharing with regs := { sharing.regs with fphead := 1 } }.poolWaits ⟨⟨0, 0⟩, none, 1, 1, .drop 0x50008 0x70087 false 1, 0, 3, 1⟩ = true := by
  decide +kernel

/-- ChunkEvents: a chunk of 16 bytes between two runs of memory; its source line with an error; one that waits for its receipt. -/
theorem meets_ChunkEvents :
    let c : Chunk := ⟨0, ⟨0, 0⟩, 0, 0, 1, true, 0x20000, .runs [⟨none, .mem 0x70000 true 0, 16, 0, none⟩],
      .runs [⟨none, .mem 0x80000 false 0, 16, 0, none⟩], 16, none, 0, 0, none, .ready, none⟩
    0 < c.len ∧ c.phase = .ready ∧ atControl.chunkReady c = true ∧ atControl.chunkReady { c with phase := .sent 4 } = false ∧
    atControl.poisoned 0x70000 = false ∧
    (let s : State := { atControl with eccBad := [(memLine 0x70000, true)] }
     s.chunkReady c = true ∧ s.poisoned 0x70000 = true) := by decide +kernel

/-- RegisterEvents: BAR0 offsets of the package block, of the postmaster's, of the die that the aperture shows, of the MSI-X table and its
pending bits; one that is misaligned. -/
theorem meets_BarReaches :
    let h := { HostPort.reset with diesel := 0x13 }
    BarReaches h 0x30000 (packageBlock + 0x30000) ∧ BarReaches h 0x1000200 (postBlock + 0x200) ∧
    BarReaches h 0x2000008 (0xF00000000000 + 3 * 0x10000000 + 1 * 0x2000000 + 8) ∧ (0x30004 : BitVec 26).toNat % 8 ≠ 0 ∧
    (0x1F0000C : BitVec 26).toNat = 0x1F00000 + 4 * 3 ∧ (0x1F0101C : BitVec 26).toNat = 0x1F01000 + 4 * 7 := by
  unfold BarReaches
  decide +kernel

/-- RegisterEvents: addresses in windows and in none; a kept register; FLAGS, FPHEAD and DBGSEL images at their bounds. -/
theorem meets_RegisterEvents :
    isMmio (BitVec.ofNat 48 (packageBlock + 0x30000)).toNat = true ∧ isMmio (0x80000 : BitVec 48).toNat = false ∧
    (packageBlock + 0x30000, (0xFFFF : Dword)) ∈ keptRegisters ∧ (BitVec.ofNat 48 (packageBlock + 0x30000)).toNat = packageBlock + 0x30000 ∧
    (0xFF : Dword) &&& 0xFFFFFFFFFFFFFF00 = 0 ∧ (8191 : Dword).toNat < poolLen Regs.reset.fpbase ∧ (255 : Dword).toNat < 256 ∧
    thread.blocksEnded = true ∧ (inBlock 0 []).th.blocksEnded = false ∧ atControl.plyTaken 0 (255 / 256) = true ∧ atControl.plyTaken 0 (256 / 256) = false := by
  decide +kernel

/-- ContextEvents: a save list of 768 KiB, one too short; a context in use and one that is not. -/
theorem meets_ContextEvents :
    let m := memWrite pages 0x90000 (leBytes 8 0x1000B01)
    let list := saveList m 0x90000 16
    list = [(0x100, 11)] ∧ saveBytes list = 786432 ∧ (¬ ∃ e ∈ list, 0x1000000 < e.1.toNat + e.2.toNat + 1) ∧ saveBytes (saveList m 0xA0000 16) < 753664 ∧
    (atControl.ctxs.filter fun y => y.2.valid).length < 1024 ∧ (∃ t ∈ atControl.threads, t.ctx = 1) ∧ (¬ ∃ t ∈ atControl.threads, t.ctx = 0) := by
  decide +kernel

/-- HostEvents: the last bytes of BAR2 and one beyond; a host address; a vector that a queue owns and one that is free. -/
theorem meets_HostEvents :
    let b := State.reset.host
    ((2 ^ 30 - 4 : BitVec 48).toNat + 4 ≤ 2 ^ (30 + b.bar2log.toNat) ∧ b.bar2base.toNat * 2 ^ 30 + (2 ^ 30 - 4 : BitVec 48).toNat + 4 ≤ 2 ^ 40) ∧
    ¬ ((2 ^ 30 - 3 : BitVec 48).toNat + 4 ≤ 2 ^ (30 + b.bar2log.toNat)) ∧ isHost (0x80000 : BitVec 48).toNat = false ∧
    isHost (0x800000000000 : BitVec 48).toNat = true ∧ (67 : Dword).toNat % 256 < 68 ∧ 68 ≤ (68 : Dword).toNat % 256 ∧ (10 : BitVec 4).toNat ≤ 10 := by
  decide +kernel

/-- A start record of one thread of one ply in context 1, its queue with this one record, read and waiting. -/
def record : Record := #v[0, 0x55, 0, 1, 0, 0, 0, 0]
def queued1 : Queue := { Queue.blank with en := true, log2n := 4, tail := 1, waiting := some record }
def launching : State := { codePage .reset with queues := [(5, queued1)] }

/-- LaunchEvents: a head that can be placed, one that is refused with cause 3; queues full and not. -/
theorem meets_LaunchEvents :
    launching.queueAt 5 = queued1 ∧ launching.thermal.state = .active ∧ launching.hasHead 5 = true ∧ ¬ 2 ^ queued1.log2n.toNat < (queued1.tail - queued1.head).toNat ∧
    2 ^ queued1.log2n.toNat < ({ queued1 with tail := 17 }.tail - queued1.head).toNat ∧ ¬ 2 ^ queued1.log2n.toNat < ({ queued1 with tail := 16 }.tail - queued1.head).toNat ∧
    launching.recordCause 0 record = none ∧ launching.recordCause 0 (record.set 3 2) = some 3 ∧ launching.packageTurn 5 record = true ∧
    recPin (record.set 4 0x1000000000000) = true ∧ recPreempt (record.set 3 0x80000001) = true ∧ (recTier record).toNat < 4 := by decide +kernel

/-- A queue whose head is more urgent than that of queue 5, of a record that no instance can take; and one of equal urgency that began to wait
later. -/
def launching2 (since : Nat) (r : Record) : State :=
  { launching with queues := [(4, { queued1 with waiting := some r, since := since }), (5, queued1)] }

/-- LaunchEvents: the foremost of the waiting heads, the older of equals; the one that is served first; one head alone; no group to restore. -/
theorem meets_launch_order :
    launching.foremost 5 = true ∧ (launching2 0 (record.set 3 0x70001)).foremost 5 = false ∧ (launching2 1 record).foremost 5 = true ∧
    (launching2 0 record).foremost 5 = false ∧ (∀ h ∈ launching.held, (launching.queueAt h.queue).die ≠ queued1.die) ∧
    launching.resumeGroup 0 = none ∧ launching.heads 0 = [(5, some record)] ∧ ((launching.launchNext 0).map fun x => (x.1, x.2.1)) = some (5, 0) ∧
    (((launching2 1 record).launchNext 0).map fun x => x.1) = some 4 ∧ (State.reset.launchNext 0).isNone = true ∧
    (({ launching with queues := [(5, { queued1 with waiting := none })] } : State).heads 0).length = 1 := by decide +kernel

theorem meets_placement :
    let r := record.set 4 0x1000000000000
    ((launching.placement 5 r).map fun l => l.map fun x => (x.tid, x.base)) = some [(⟨0, 0⟩, 0)] ∧
    { launching with th := { thread with log2n := 4 } }.placement 5 r = none := by decide +kernel

/-- ThreadStart: a thread reserved whose turn it is, and one of rank 1 whose group has rank 0 still to start; an operation of the engine. -/
theorem meets_ThreadStart :
    let r : Reserved := ⟨⟨3, 1⟩, 5, record, 0, 1, 0, 0⟩
    let z : Reserved := ⟨⟨3, 0⟩, 5, record, 0, 0, 1, 0⟩
    let s : State := { launching with reserved := [z, r] }
    s.reserved.find? (fun r => r.tid = ⟨3, 1⟩) = some r ∧ (∃ y ∈ s.reserved, y.group = r.group ∧ y.rank.toNat < r.rank.toNat) ∧
    (¬ ∃ y ∈ s.reserved, y.group = z.group ∧ y.rank.toNat < z.rank.toNat) ∧ s.slotDrained ⟨3, 0⟩ = true ∧
    { s with drain := [(⟨3, 0⟩, ⟨false, false, none, .arr 0, .write []⟩)] }.slotDrained ⟨3, 0⟩ = false ∧
    ({ inBlock 0x220 [] with mq := [⟨⟨0, 0⟩, (0, 0x200), 0, 0, 0, false, false⟩] }.matNext 0) = some ⟨⟨0, 0⟩, (0, 0x200), 0, 0, 0, false, false⟩ ∧ atControl.matNext 0 = none := by
  decide +kernel

/-- A context with room for one image of 768 KiB, its thread asked to stop; a thread of it saved. -/
def saving : State :=
  let c := { Ctx.blank with valid := true, taskroot := 0x20001, save := [(0x100, 11)] }
  { atControl with ctxs := [(1, c)], th := { thread with saveReq := true } }
def asSaved : Saved :=
  { ctx := 1, entry := 0, tid := ⟨2, 0⟩, group := 9, tier := 0, prio := 0, gsize := 1, rank := 0, done := 0, ceiling := 256, log2n := 0, tiles := 2,
    resume := false, restore := true, sporder := [], copyFails := 0, copyCode := 0, events := [], flags := 0,
    pend := none, stopped := [], plies := [] }

/-- RequestEvents: jobs that name the thread by its place and by its context, and one that names none; a context marked SAVE-FAILED. -/
theorem meets_RequestEvents :
    jobNames 1 saving.th.ctx saving.th.tid = true ∧ jobNames 0x100000001 saving.th.ctx ⟨4095, 7⟩ = true ∧ jobNames 1 saving.th.ctx ⟨4095, 7⟩ = false ∧
    (∀ t ∈ saving.threads, ¬ jobNames 2 t.ctx t.tid = true) ∧ saving.regs.preJob = none ∧ saving.regs.resJob = none ∧
    (saving.ctxAt 1).svfail = false ∧ (({ saving with ctxs := [(1, { Ctx.blank with svfail := true })] } : State).ctxAt ((1 : Dword).setWidth 16)).svfail = true ∧
    jobNames 1 asSaved.ctx ⟨0, 0⟩ = true ∧ asSaved.tier.toNat ≤ 2 := by decide +kernel

/-- SaveEvents: a thread that can be saved with an entry and room, without room, and with a frame of its save area that holds an error; a saved
one whose slot, plies and tiles are free, alone on its die's resume list; heads that are more and less urgent than it. -/
theorem meets_SaveEvents :
    saving.th.saveReq = true ∧ saving.saveable saving.th = true ∧ saving.freeEntry 1 = some 0 ∧
    saving.imageRoom 1 (imageSize 1 0 2) = some 0x4000 ∧ atControl.imageRoom 1 (imageSize 1 0 2) = none ∧
    saving.saveBad saving.th 0 0x4000 = none ∧
    ({ saving with eccBad := [(memLine 0x1004000, true)] } : State).saveBad saving.th 0 0x4000 = some 0x1000000 ∧
    (let s : State := { saving with saved := [asSaved], resumes := [(9, 0)] }
     s.saved.find? (fun x => x.ctx = 1 && x.entry = 0 && x.restore) = some asSaved ∧ s.slotFree none 2 0 = true ∧ s.slotDrained ⟨2, 0⟩ = true ∧
     s.tilesBarred none 2 + asSaved.tiles.toNat ≤ 4 ∧ s.regrant 2 0 = some 0 ∧ s.saved.filter (fun y => y.group = 9) = [asSaved] ∧ s.thermal.state = .active ∧
     s.saveBad (s.threadFrom asSaved 0 0) 0 0 = none ∧ (s.launchNext 0).isNone = true ∧
     (s.resumeGroup 0).map (·.1) = some 0 ∧
     ((({ s with queues := [(5, queued1)] } : State).launchNext 0).map fun x => x.2.1) = some 0 ∧
     ((({ s with queues := [(5, { queued1 with waiting := some (record.set 3 0x70001) })] } : State).launchNext 0).map fun x => x.2.1) = some 7 ∧
     ∀ t ∈ s.threads, t.group = 9 → t.saveReq = false) := by decide +kernel

/-- A thread of core 1 of another PRIO, to be saved too, in a state of the package. -/
def rival (p : BitVec 3) : Thread := { saving.th with tid := ⟨1, 0⟩, prio := p }
def racing (k : PkState) (p : BitVec 3) : State := { saving with parked := [rival p], thermal := { saving.thermal with state := k } }

/-- SavesNow: in CRITICAL the thread of the higher PRIO first, of equals that of the lower core; else either. -/
theorem meets_SavesNow :
    SavesNow (racing .critical 0) saving.th ∧ ¬ SavesNow (racing .critical 0) (rival 0) ∧ ¬ SavesNow (racing .critical 1) saving.th ∧
    SavesNow (racing .active 1) saving.th := by
  unfold SavesNow
  refine ⟨fun _ => ?_, fun h => absurd (h rfl) ?_, fun h => absurd (h rfl) ?_, fun h => absurd h (by decide +kernel)⟩ <;> decide +kernel

/-- SaveEvents: a thread asked to stop with no room, its group on no list and in no image. -/
theorem meets_no_room :
    (∀ y ∈ saving.saved, y.group ≠ saving.th.group) ∧ (∀ z ∈ saving.threads, z.group = saving.th.group → z.tid = ⟨0, 0⟩) ∧
    (∀ z ∈ saving.threads, z.ctx = saving.th.ctx → z.tid = ⟨0, 0⟩) ∧
    (({ saving with ctxs := [(1, { (saving.ctxAt 1) with save := [] })] } : State).focus ⟨0, 0⟩).imageRoom 1 6656 = none := by decide +kernel

theorem saving_slot : saving.threadAt ⟨0, 0⟩ = some saving.th := rfl

theorem no_device_stores : NoDeviceStores saving saving.th :=
  ⟨fun b h => by exact absurd h (List.not_mem_nil), fun d h => by exact absurd h (List.not_mem_nil)⟩

theorem save_apart : SaveApart [(0x100, 11)] := by
  have run (o : Nat) : saveAddr [(0x100, 11)] o = if o < 786432 then 16777216 + o else o - 786432 := rfl
  have size : saveBytes [(0x100, 11)] = 786432 := rfl
  intro i j hi hj h
  rw [size] at hi hj
  rw [run, run, if_pos hi, if_pos hj] at h
  omega

/-- MigrationAndLeaseEvents: a thread that may move, its ply within the core. -/
theorem meets_StreamComplete :
    let x : Thread := { thread with migrate := some 9 }
    let s : State := { atControl with th := x }
    x.tier ≠ 1 ∧ x.tier ≠ 2 ∧ x.migrate = some 9 ∧ s.saveable x = true ∧ x.spfoot.toNat ≤ 256 * x.n ∧ x.base.toNat + x.n ≤ 16 ∧
    (∃ y ∈ atControl.moveSet thread, y.migrate = none) := by
  refine ⟨by decide +kernel, by decide +kernel, rfl, by decide +kernel, by decide +kernel, by decide +kernel, thread, (List.mem_cons_self : thread ∈ [thread]), rfl⟩

/-- MigrationAndLeaseEvents: a group of core tier that goes together, with a member saved; one that has a member still to start; the
older of a slot's two forwarding entries. -/
theorem meets_groups_that_move :
    let x : Thread := { thread with tier := 1, group := 9, migrate := some 9 }
    let s : State := { atControl with th := x, saved := [asSaved] }
    let e (g : Nat) : Forward := ⟨⟨0, 0⟩, 0, g, ⟨9, 0⟩, 0, 8, 0, true⟩
    x.migrate = some 9 ∧ x.migrate ≠ some x.tid.core ∧ s.moveSet x = [x] ∧ s.saveable x = true ∧ (s.moveAll [⟨0, 0⟩]).isSome = true ∧
    ((s.moveAll [⟨0, 0⟩]).map fun v => v.saved.map fun y => (y.ctx, y.entry, y.group)) = some [(1, 0, 9)] ∧
    (∃ r ∈ ({ s with reserved := [⟨⟨0, 1⟩, 5, record, 9, 1, 1, 0⟩] } : State).reserved, r.group = x.group) ∧
    [e 5, e 4] = [e 5] ++ e 4 :: [] ∧ (e 4).old = ⟨0, 0⟩ ∧ (e 4).live = true := by decide +kernel

/-- MigrationAndLeaseEvents: a place on another core; a lease that has ended and one that has not; BOOST's terms met and not. -/
theorem meets_MigrationAndLeaseEvents :
    let leased : Thread := { thread with lease := some (3, 700) }
    ((atControl.movePlace thread 9).map fun p => (p.1, p.2)) = some (⟨9, 0⟩, 0) ∧ leased.lease = some (3, 700) ∧ (700 : Dword).toNat ≤ (700 : Dword).toNat ∧
    (699 : Dword).toNat < (700 : Dword).toNat ∧ 33 * bandCount 15 ≤ atControl.thermal.pool ∧ (3 : BitVec 4) &&& look 0 atControl.thermal.bandOff 0 = 0 ∧
    (atControl.thermal.band[dieOf 0]?.getD 0).toNat ≤ 1 ∧ ¬ (atControl.pm.busy = true ∧ atControl.pm.op = 4) := by decide +kernel

/-- PackageStateEvents: the package at the edges of its states: 95 K and a spread of 5 K end SOAK, a flow of 800 ends PURGE, no thread and some. -/
theorem meets_PackageStateEvents :
    let x := State.reset.thermal
    let at_ (p : PkState) : Thermal := { x with state := p }
    x.state = .coldReady ∧ (∀ d : Fin 8, x.band[d] = 0) ∧ (∃ d : Fin 8, { x with band := x.band.set 7 1 }.band[d] ≠ 0) ∧ atControl.thermal.state = .active ∧
    atControl.threads ≠ [] ∧ (codePage .reset).threads = [] ∧ (codePage .reset).reserved = [] ∧ 800 ≤ x.flow.toNat ∧
    ({ x with flow := 799 } : Thermal).flow.toNat < 800 ∧
    (let hot : Thermal := { at_ .soak with temp := .replicate 8 95, stack := .replicate 16 90 }
     hot.state = .soak ∧ hot.tmax ≤ 95 ∧ hot.tmax - hot.tmin ≤ 5) ∧
    (let hot : Thermal := { at_ .soak with temp := .replicate 8 95, stack := .replicate 16 89 }
     5 < hot.tmax - hot.tmin) ∧ (2 : BitVec 2).getLsbD 0 = false ∧ (1 : BitVec 2).getLsbD 0 = true ∧
    (let pm : Postmaster := { Postmaster.reset with busy := true, op := 4 }
     pm.busy = true ∧ pm.op ≠ 1 ∧ pm.op ≠ 2) := by decide +kernel

/-- Power steps: the cap at 2 kW, a lease, idle bands of core 0, the hottest die; steps to undo of each kind. -/
theorem meets_SensorAndPowerEvents :
    let x := State.reset.thermal
    x.steps = [] ∧ x.leases = [] ∧ (¬ ∃ d : Fin 8, 2 ≤ (x.band[d]).toNat) ∧ (2000000 : Nat) ≤ 2000000 ∧ (2000000 : Nat) < 2000001 ∧
    State.reset.idleBands 0 ≠ 0 ∧ (∀ e : BitVec 3, x.dieTemp e < x.dieTemp 0 ∨ (x.dieTemp e = x.dieTemp 0 ∧ (0 : BitVec 3).toNat ≤ e.toNat)) ∧
    350 < (x.clock[0]).toNat ∧ ¬ 350 < ((x.clock.set 0 350)[0]).toNat ∧
    ({ x with steps := [.lease, .clock 0 700] } : Thermal).steps = .lease :: [.clock 0 700] ∧ x.state ≠ .critical := by decide +kernel

/-- Power: a band of core 0 above 85 mW, with a lease on it and without; steps undone below 90 % of the cap and of the bands' limit; a die
whose clock cannot be lowered. -/
theorem meets_power_bands :
    let x := State.reset.thermal
    let read := [(2, 86)].foldl (fun l e => put 0 l e.1 e.2) x.bandPower
    read.filter (fun e => decide (85 < e.2)) = [(4 * (0 : BitVec 12).toNat + (2 : BitVec 2).toNat, 86)] ∧
    (∀ e ∈ [(2, 85)].foldl (fun l e => put 0 l e.1 e.2) x.bandPower, e.2 ≤ 85) ∧
    (let t : Thread := { thread with lease := some (4, 7000) }
     t.tid.core = 0 ∧ ∃ l fin, t.lease = some (l, fin) ∧ l &&& (1 <<< (2 : BitVec 2).toNat) ≠ 0) ∧
    State.reset.idleBands 0 &&& (1 <<< (2 : BitVec 2).toNat) ≠ 0 ∧
    ({ State.reset with thermal := { x with bandOff := [(0, 4)] } } : State).idleBands 0 &&& (1 <<< (2 : BitVec 2).toNat) = 0 ∧
    10 * x.power < 9 * 2000000 ∧ (∀ e ∈ x.bandPower, 10 * e.2 < 765) ∧ ¬ 10 * 77 < 765 ∧
    (x.capClock.set 0 350)[0].toNat ≤ 350 := by
  refine ⟨by decide +kernel, by decide +kernel, ⟨rfl, 4, 7000, rfl, by decide⟩, by decide +kernel, by decide +kernel, by decide +kernel,
    by decide +kernel, by decide, by decide +kernel⟩

theorem meets_die_temperature : DieTemp State.reset.thermal 7 80 ∧ BandAfter 0 0 100 ∧ BandAfter 0 1 101 ∧ BandAfter 1 1 96 ∧ BandAfter 1 0 95 := by
  have up (t b : Nat) (h : ∀ c < 4, b < c → t ≤ bandLow c) (c : Nat) (h1 : b < c) (h2 : c < 4) : t ≤ bandLow c := h c h2 h1
  have down (t old new : Nat) (h : ∀ b < 4, new < b → b ≤ old → t + 5 ≤ bandLow b) (ho : old < 4) (b : Nat) (h1 : new < b) (h2 : b ≤ old) :
      t + 5 ≤ bandLow b := h b (by omega) h1 h2
  refine ⟨by unfold DieTemp; decide +kernel,
    ⟨0, by omega, ⟨.inl rfl, up _ _ (by decide)⟩, .inr ⟨by decide, by decide, down 100 0 0 (by decide) (by omega), .inl rfl⟩⟩,
    ⟨1, by omega, ⟨.inr (by decide), up _ _ (by decide)⟩, .inl ⟨by decide, by decide⟩⟩,
    ⟨0, by omega, ⟨.inl rfl, up _ _ (by decide)⟩, .inr ⟨by decide, by decide, down 96 1 1 (by decide) (by omega), .inr (by decide)⟩⟩,
    ⟨0, by omega, ⟨.inl rfl, up _ _ (by decide)⟩, .inr ⟨by decide, by decide, down 95 1 0 (by decide) (by omega), .inl rfl⟩⟩⟩

/-- BandAndChainEvents: a band that wakes; CHAINP with all pairs on, with the first of Table 17.5 off, with none. -/
theorem meets_BandAndChainEvents :
    (look 0 [(0, (4 : BitVec 4))] 0).getLsbD 2 = true ∧ (look 0 ([] : List (Nat × BitVec 4)) 0).getLsbD 2 = false ∧
    State.reset.thermal.chainp[0] = 63 ∧ (63 : BitVec 6).getLsbD 5 = true ∧ (0b011111 : BitVec 6).getLsbD 5 = false ∧ (0b011111 : BitVec 6).getLsbD 2 = true ∧
    ([5, 2, 4, 3, 0, 1].getD 0 0 = 5 ∧ [5, 2, 4, 3, 0, 1].getD 5 0 = 1) := by decide +kernel

/-- MailboxEvents: commands that the state takes and one it does not, in recovery too; arguments at their limits. -/
theorem meets_MailboxEvents :
    MailboxAllows .reset 1 ∧ MailboxAllows .reset 7 ∧ ¬ MailboxAllows .reset 8 ∧ MailboxAllows atControl 8 ∧
    ¬ MailboxAllows { State.reset with pm := { Postmaster.reset with recovery := true } } 5 ∧ State.reset.pm.busy = false ∧
    ¬ 8 ≤ (7 : BitVec 32).toNat ∧ ¬ 512 ≤ (511 : BitVec 32).toNat ∧ ¬ 4096 ≤ (4095 : BitVec 32).toNat ∧ (State.reset.pm.spares[7]?.getD 0) ≠ 0 := by
  dsimp only [MailboxAllows]
  refine ⟨?_, ?_, ?_, ?_, ?_, by decide +kernel⟩ <;> decide +kernel

/-- ResetEvents, TurnedAway: a second write of MBCMD with its command's, and later; a slot started alone and after another; a reset in QUIESCE
and while OP 6 retrains a port. -/
theorem meets_ResetEvents :
    let busy : State := { State.reset with pm := { Postmaster.reset with busy := true, op := 6, arg := 3, since := 5 } }
    { busy with cycles := 5 }.cycles = busy.pm.since ∧ busy.cycles ≠ busy.pm.since ∧ busy.pm.busy = true ∧ busy.pm.op = 6 ∧
    { Postmaster.reset with starting := true }.second = false ∧ { Postmaster.reset with starting := true, second := true }.second = true ∧
    State.reset.thermal.tmax ≤ 95 ∧ ({ State.reset.thermal with state := .quiesce } : Thermal).state = .quiesce := by decide +kernel

/-- Every image has one error code for a kind; one that is not whole has code 2, whatever its signature. -/
theorem meets_ImageError : (∀ p i k, ∃ e, ImageError p i k e) ∧ ImageError .reset [] 1 2 := by
  constructor
  · intro p i k
    unfold ImageError
    by_cases h : imgGood i = false ∨ imgKind i ≠ k
    · exact ⟨2, fun _ => rfl, fun n => absurd h n, fun n => absurd h n⟩
    · by_cases g : imgSvn i < (if k = 1 then p.rollbackPm else p.rollbackMc).toNat
      · exact ⟨3, fun n => absurd n h, fun _ _ => rfl, fun _ n => absurd g n⟩
      · exact ⟨0, fun n => absurd n h, fun _ n => absurd n g, fun _ _ => rfl⟩
  · exact ⟨fun _ => rfl, fun h => absurd (.inl rfl) h, fun h => absurd (.inl rfl) h⟩

/-- MailboxCompletions: each command under way; a load with plies left and with none; parts in order, out of order and last. -/
theorem meets_MailboxCompletions :
    let pm (op : BitVec 8) : Postmaster := { Postmaster.reset with busy := true, op := op, arg := 1 }
    (∀ op ∈ [(1 : BitVec 8), 2, 3, 4, 5, 6, 7, 8], (pm op).busy = true ∧ (pm op).op = op) ∧ (pm 3).staged.length < 4096 * (pm 3).arg.toNat ∧
    ¬ (pm 3).staged.length < 4096 * ({ pm 3 with arg := 0 }.arg.toNat) ∧ imgWhole [] = false ∧ imgWhole (.replicate 512 0) = true ∧
    (pm 5).target = 0 ∧ look 0 (pm 5).plyTable 16 = (pm 5).target ∧ (pm 5).toLoad = 0 ∧
    look 0 { pm 5 with tables := [[], []], target := 1 }.plyTable 16 ≠ { pm 5 with tables := [[], []], target := 1 }.target ∧
    { pm 5 with tables := [[], []], target := 1 }.toLoad ≠ 0 ∧
    (let f : Sent := ⟨1, .copy ⟨5, 0, 0, [1], none, 0, 4, [], false⟩, true, 4, none, none, true, true, false⟩
     let s : State := { State.reset with pm := pm 6, fabric := { Fabric.reset with alive := 0xFD, sent := [f] } }
     s.fabric.alive.getLsbD (s.pm.arg.toNat % 8) = false ∧ ∃ x ∈ s.fabric.sent, x.port.toNat = s.pm.arg.toNat % 8 ∧ x.hop = true) ∧ State.reset.plyTaken 1 0 = false ∧
    atControl.plyTaken 0 0 = true ∧ (pm 4).starting = false := by decide +kernel

/-- MailboxEvents: arguments in range and not; a die with spare cores. -/
theorem meets_MayBegin :
    (∀ op ∈ [(1 : BitVec 8), 2, 3, 4, 5, 6, 7], MayBegin .reset op) ∧ MayBegin atControl 8 ∧
    ¬ MayBegin { State.reset with pm := { Postmaster.reset with busy := true } } 1 := by
  unfold MayBegin
  dsimp only [MailboxAllows]
  refine ⟨?_, ?_, ?_⟩ <;> decide +kernel

/-- A package that others can reach: window 0 exports 64 KiB at frame 9, for reading and writing; a route to rank 5 by port 2. -/
def reachable : State :=
  let m := memWrite State.reset.mem 0x80028 (leBytes 8 0x9000000000000002)
  { State.reset with mem := m, regs := { Regs.reset with frtbase := 0x80000, exports := Regs.reset.exports.set 0 0xE000000000090000 } }

/-- FrameEvents: the last bytes of the window, bytes beyond it, a window that is not valid, an arrival word; a slip that is valid and one that
is not; frames applied and not; lines with an error and without; a read that waits for its data. -/
theorem meets_FrameEvents :
    (reachable.window 0 0xFFF0 16 true).toOption = some 0x9FFF0 ∧ (reachable.window 0 0xFFF1 16 true).toOption = none ∧
    (reachable.window 1 0 16 true).toOption = none ∧ reachable.windowWord 0x100 = some (.mem 0x90100) ∧ reachable.windowWord 0x101 = none ∧
    slipValid (reachable.slipTo 5) = true ∧ slipPorts (reachable.slipTo 5) = 2 :: [] ∧ slipValid (reachable.slipTo 6) = false ∧
    reachable.fabric.alive.getLsbD 2 = true ∧ (reachable.groupAt 0).valid = false ∧ (grouped.groupAt 0).failed = false ∧
    reachable.applied 5 7 = none ∧ { reachable with fabric := { Fabric.reset with applied := [(5, 7, none)] } }.applied 5 7 = some none ∧
    reachable.linesBad 0x9FFF0 16 = false ∧ { reachable with eccBad := [(memLine 0x9FFF0, true)] }.linesBad 0x9FFF0 16 = true ∧
    (let c : Chunk := ⟨0, ⟨0, 0⟩, 0, 0, 1, true, 0, .fabric 0, .fabric 0, 1, none, 0, 0, none, .reading 4, none⟩
     c.phase = .reading 4 ∧ ({ reachable with chunks := [c] } : State).chunks[0]? = some c) := by decide +kernel

/-- FrameEvents: a frame of a COLROT that its group has not taken, and one that it has; LinkAndGroupEvents: the receipt of one with an overrun. -/
theorem meets_rotation_frames :
    let f : ColFrame := ⟨0, 0, 0, 0, 3, 1, false, 0, [1], 5, 7, [], false⟩
    let x : Sent := ⟨2, .col f, true, 4, some 0, some (0, 0, 1, ⟨0, 0⟩), false, true, false⟩
    let s : State := { atControl with fabric := { Fabric.reset with sent := [x] } }
    f.kind = 3 ∧ f.ports = [] ∧ f.origin = 5 ∧ f.seq = 7 ∧ (grouped.groupAt 0).pendingFrames = [] ∧
    (∃ y ∈ { grouped.groupAt 0 with pendingFrames := [f] }.pendingFrames, y.origin = f.origin ∧ y.seq = f.seq) ∧
    s.awaited 5 4 = some x ∧ (∀ c ∈ s.chunks, c.phase ≠ .sent 4) ∧ x.group = some 0 ∧ x.issuer = some (0, 0, 1, ⟨0, 0⟩) := by decide +kernel

/-- PassedOn: a frame whose next link is alive; one whose link is dead with a detour, with none, and on the second hop of a detour already. -/
theorem meets_PassedOn :
    let f (second : Bool) : Frame := .copy ⟨5, 0, 0, [1], none, 0, 4, [2], second⟩
    let dead (d : BitVec 8) : State := { reachable with
      regs := { reachable.regs with detour := reachable.regs.detour.set 2 d }, fabric := { Fabric.reset with alive := 0xFB } }
    (f false).ports = 2 :: [] ∧ (f false).second = false ∧ (f true).second = true ∧ (dead 0x9B).fabric.alive.getLsbD 2 = false ∧
    ((0x9B : BitVec 8).getLsbD 7 = true ∧ (dead 0x9B).fabric.alive.getLsbD ((0x9B : BitVec 8).setWidth 3 : BitVec 3).toNat = true) ∧
    (0x1B : BitVec 8).getLsbD 7 = false := by decide +kernel

/-- LinkAndGroupEvents: a frame of this package kept on a port for a chunk; a group with a timeout and an operation that waits; an overrun told
to a thread that runs. -/
theorem meets_LinkAndGroupEvents :
    let f : Sent := ⟨2, .copy ⟨5, 0, 0, [1], none, 0, 4, [], false⟩, true, 4, none, none, true, true, false⟩
    let c : Chunk := ⟨0, ⟨0, 0⟩, 0, 0, 1, true, 0, .fabric 0, .fabric 0, 1, none, 0, 0, none, .sent 4, none⟩
    let g : Group := { Group.blank with
      dw := #v[0xC000000100000000, 0, 0, 0, 0, 0, 0, 0], ops := [⟨0, 0, 1, 0, [], [], 4, false, ⟨0, 0⟩, false, 0, 0, false, [], []⟩] }
    let s : State := { reachable with chunks := [c], fabric := { Fabric.reset with sent := [f] } }
    f.port = 2 ∧ f.hop = true ∧ f.own = true ∧ f.due = true ∧ f.detoured = false ∧ f.group = none ∧ s.chunkOf 4 = some 0 ∧ c.phase = .sent 4 ∧
    s.awaited 0 4 = some f ∧ s.awaited 0 5 = none ∧ s.onWire f = true ∧
    (0 : BitVec 16) = s.regs.pkrank ∧ (1 : BitVec 16) ≠ s.regs.pkrank ∧ g.gto = true ∧ g.waiting = true ∧ g.valid = true ∧
    (g.receiver.map fun p => p.2.kind) = some 0 ∧ Group.blank.gto = false ∧ g.ops ≠ [] ∧ thread.trap.pcause.extractLsb' 0 8 = 0 ∧
    (atControl.threads.find? fun t => t.group == 0 && t.rank == 0 && t.ctx == 1).isSome = true := by decide +kernel

/-- EncodeThenDecode: an instruction with a word. -/
theorem meets_EncodeThenDecode : (Instr.add 1 2 3).wellFormed = true ∧ encode (.add 1 2 3) = some 0x10108300 := by decide +kernel

/-- StepRunsDecodedWord: a control thread that moves alone with its word fetched, an event from outside. -/
theorem meets_StepRunsDecodedWord :
    let s := State.reset.withFetchWord 32 0x2C100005
    s.mover = some (.word ⟨0, 0⟩ .control) ∧ ((s.focus ⟨0, 0⟩).fetchWord true 0).toOption.map (·.2) = some 0x2C100005 ∧
    decode 0x2C100005 = some (.li 1 5) ∧ decode 0 = none ∧
    { State.reset with inputs := [.go] }.mover = some .input ∧ fromOutside .go = true ∧ fromOutside .nop = false := by decide +kernel

/-- FetchedWord: the word as it stands at its home, through a translation of memory. -/
theorem meets_FetchedWord :
    let s := State.reset.withFetchWord 32 0x2C100005
    (s.translate 0 s.th.ctx .fetch 0).toOption.map (fun x => (x.device, x.repl, (leVal (s.homeBytes (replicaFor 0 x.pa x.repl) 4)))) =
      some (false, 0, 0x2C100005) := by decide +kernel

/-- A ply that moves alone: PEND placed in a block. -/
theorem meets_ply_step :
    let s := State.reset.withFetchWord 32 0xA0010000
    s.mover = some (.word ⟨0, 0⟩ (.ply 0)) ∧ ((s.th.running 0).bind fun r => r.blk.words[(r.pc - r.blk.addr).toNat / 4]?) = some 0xA0010000 := by
  decide +kernel

/-- A ply whose thread is asked to stop and waits for its copy, which moves alone as far as a restart point. -/
theorem meets_stop :
    let c : Chunk := ⟨0, ⟨0, 0⟩, 0, 0, 1, true, 0, .fabric 0, .fabric 0, 1, none, 0, 0, none, .sent 4, none⟩
    let s : State := { inBlock 0 [] with chunks := [c], th := { (inBlock 0 []).th with saveReq := true } }
    s.mover = some (.stop ⟨0, 0⟩ 0) ∧ ((s.th.running 0).bind fun r => r.blk.words[(r.pc - r.blk.addr).toNat / 4]?) = some pendWord := by
  decide +kernel

/-- Agents of the package that move alone: a coordinator, a slice that drops a line; and none. -/
theorem meets_other_movers :
    { State.reset with l2 := [(0x1000, { L2Line.absent with held := true })] }.mover = some (.evict 0x1000) ∧
    { State.reset with repQ := [⟨none, none, 0x80000, 1, [1], false⟩] }.mover = some (.event (.replicaLock 0)) ∧
    (State.reset.mover).isNone = true := by decide +kernel

/-- BreaksTurn: a step that writes the line whose turn another thread holds and keeps, and one that ends that turn. -/
theorem meets_BreaksTurn :
    let s : State := { atControl with turns := [(memLine 0x80000, ⟨1, 0⟩)] }
    let u : State := { s with mem := memWrite s.mem 0x80000 [1] }
    BreaksTurn s u (.word ⟨0, 0⟩ .control) ∧ ¬ BreaksTurn s { u with turns := [] } (.word ⟨0, 0⟩ .control) ∧
    ¬ BreaksTurn s u (.word ⟨1, 0⟩ .control) := by
  refine ⟨⟨memLine 0x80000, ⟨1, 0⟩, by decide +kernel, by decide +kernel, by decide +kernel, by decide +kernel⟩, ?_, ?_⟩
  · rintro ⟨l, t, _, _, h, _⟩
    exact absurd h List.not_mem_nil
  · rintro ⟨l, t, h, n, _⟩
    have e : (l, t) = (memLine 0x80000, (⟨1, 0⟩ : Tid)) := List.mem_singleton.mp (List.mem_of_find?_eq_some h)
    cases e
    exact n rfl

/-- MemoryKeepsItsForm: reset memory has the form. -/
theorem meets_MemoryKeepsItsForm : MemoryWf State.reset := by
  unfold MemoryWf
  decide +kernel

end Sys2Proof.Tests
end

section
/-! What R61 says of home slices: the fields of an address that its hash joins, and the lines of one frame. -/
namespace Sys2Proof.Machine
open Sys2Proof

/-! ### The hash of R61 over the fields of an address -/

/-- A field of a word as a quotient and a remainder. -/
theorem toNat_field {n : Nat} (x : BitVec n) (k w : Nat) : (x.extractLsb' k w).toNat = x.toNat / 2 ^ k % 2 ^ w := by
  rw [BitVec.extractLsb'_toNat, Nat.shiftRight_eq_div_pow]

/-- The low field of a word as a remainder. -/
theorem toNat_low {n : Nat} (x : BitVec n) (w : Nat) : (x.extractLsb' 0 w).toNat = x.toNat % 2 ^ w := by
  rw [toNat_field, Nat.pow_zero, Nat.div_one]

/-- R61 for HBM: the five fields of the line number, the last of five bits. -/
theorem sliceHash_toNat (pa : BitVec 48) :
    sliceHash pa.toNat = (pa.extractLsb' 7 6 ^^^ pa.extractLsb' 13 6 ^^^ pa.extractLsb' 19 6 ^^^ pa.extractLsb' 25 6 ^^^
      (pa.extractLsb' 31 5).setWidth 6 : BitVec 6).toNat := by
  have hlast : pa.toNat / 2 ^ 31 % 2 ^ 5 % 2 ^ 6 = pa.toNat / 2 ^ 31 % 32 := by omega
  simp only [BitVec.toNat_xor, BitVec.toNat_setWidth, toNat_field, hlast]
  rfl

/-- R61 for host memory: the six fields of the line number, the last of five bits. -/
theorem hostSlice_toNat (pa : BitVec 48) :
    hostSlice pa.toNat = (pa.extractLsb' 7 7 ^^^ pa.extractLsb' 14 7 ^^^ pa.extractLsb' 21 7 ^^^ pa.extractLsb' 28 7 ^^^
      pa.extractLsb' 35 7 ^^^ (pa.extractLsb' 42 5).setWidth 7 : BitVec 7).toNat := by
  have hlast : pa.toNat / 2 ^ 42 % 2 ^ 5 % 2 ^ 7 = pa.toNat / 2 ^ 42 % 32 := by omega
  simp only [BitVec.toNat_xor, BitVec.toNat_setWidth, toNat_field, hlast]
  rfl

/-- A hash of HBM numbers one of 64 slices. -/
theorem sliceHash_lt (pa : Nat) : sliceHash pa < 64 := by
  have hmod (x : Nat) : x % 64 < 2 ^ 6 := Nat.mod_lt _ (by decide)
  have hlast : pa / 2 ^ 31 % 32 < 2 ^ 6 := by omega
  exact Nat.xor_lt_two_pow (Nat.xor_lt_two_pow (Nat.xor_lt_two_pow (Nat.xor_lt_two_pow (hmod _) (hmod _)) (hmod _)) (hmod _)) hlast

/-- The first 64 lines of a frame differ in the lowest field of the hash alone. -/
theorem sliceHash_line (frame i : Nat) (hi : i < 64) :
    sliceHash (65536 * frame + 128 * i) = i ^^^ sliceHash (65536 * frame) := by
  have h0 : (65536 * frame + 128 * i) / 2 ^ 7 % 64 = i := by omega
  have h1 : (65536 * frame + 128 * i) / 2 ^ 13 % 64 = 65536 * frame / 2 ^ 13 % 64 := by omega
  have h2 : (65536 * frame + 128 * i) / 2 ^ 19 % 64 = 65536 * frame / 2 ^ 19 % 64 := by omega
  have h3 : (65536 * frame + 128 * i) / 2 ^ 25 % 64 = 65536 * frame / 2 ^ 25 % 64 := by omega
  have h4 : (65536 * frame + 128 * i) / 2 ^ 31 % 32 = 65536 * frame / 2 ^ 31 % 32 := by omega
  have hz : 65536 * frame / 2 ^ 7 % 64 = 0 := by omega
  simp only [sliceHash, h0, h1, h2, h3, h4, hz, Nat.zero_xor, Nat.xor_assoc]

/-! ### The slice of an address of HBM -/

/-- HBM and host memory have no address in common. -/
theorem isHost_of_isHbm {pa : Nat} (h : isHbm pa = true) : isHost pa = false := by
  simp only [isHbm, isHost, decide_eq_true_eq, Bool.and_eq_false_iff, decide_eq_false_iff_not] at h ⊢
  omega

/-- The slice of an address of HBM, by its stack group and its hash. -/
theorem sliceOf_hbm {pa : Nat} (h : isHbm pa = true) :
    sliceOf pa = 128 * (pa / 2 ^ 36 / 2) + (64 * (pa / 2 ^ 36 % 2) + sliceHash pa) := by
  have hpa : pa < 0x10000000000 := of_decide_eq_true h
  rw [sliceOf, isHost_of_isHbm h, if_neg Bool.false_ne_true, dieSlice, show pa / 2 ^ 37 % 8 = pa / 2 ^ 36 / 2 by omega]

end Sys2Proof.Machine
end

section
open Sys2Proof Sys2Proof.Machine
/-- Settles O26. Among the first 64 lines of a frame the lowest field of the hash takes every value, so line `h ^^^ c` falls on slice
`h`, where `c` is what the frame's own bits give. -/
theorem homeSlices : Obligations.HomeSlices := by
  refine ⟨fun pa hbm => ?_, fun pa hhost => ?_, fun frame h hframe hh => ?_⟩
  · have hs : (pa.extractLsb' 36 4).toNat = pa.toNat / 2 ^ 36 := by
      have hpa : pa.toNat < 0x10000000000 := of_decide_eq_true hbm
      rw [toNat_field]; omega
    simp only [hs, ← sliceHash_toNat]
    exact sliceOf_hbm hbm
  · simp only [sliceOf, hhost, if_true]
    exact hostSlice_toNat pa
  · have hi : h ^^^ sliceHash (65536 * frame) < 64 := Nat.xor_lt_two_pow (n := 6) hh (sliceHash_lt _)
    refine ⟨h ^^^ sliceHash (65536 * frame), by omega, ?_⟩
    have hline := sliceHash_line frame _ hi
    rw [Nat.xor_assoc, Nat.xor_self, Nat.xor_zero] at hline
    rw [sliceOf_hbm (decide_eq_true (by omega)), hline]
    omega
end

section
/-! The scratchpad tag table (R77 to R79): images, entries, recency and the victim; and a trap that is delivered at once. -/
namespace Sys2Proof.Machine
open Sys2Proof

/-! ### Images of entries -/

/-- A tag cut to a multiple of the block size, by its bits. -/
theorem testBit_blockTag (m l k : Nat) :
    (m * 128 / 2 ^ (7 + l) * 2 ^ (7 + l) / 128).testBit k = (decide (l ≤ k) && m.testBit k) := by
  have hcut : m * 128 / 2 ^ (7 + l) * 2 ^ (7 + l) / 128 = m / 2 ^ l * 2 ^ l := by
    rw [Nat.pow_add, ← Nat.div_div_eq_div_mul, show (2 : Nat) ^ 7 = 128 from rfl, Nat.mul_div_cancel _ (by decide),
      Nat.mul_comm 128, ← Nat.mul_assoc, Nat.mul_div_cancel _ (by decide)]
  rw [hcut, Nat.testBit_mul_two_pow, Nat.testBit_div_two_pow]
  by_cases h : l ≤ k
  · simp only [h, Nat.sub_add_cancel]
  · simp only [h, decide_false, Bool.false_and]

/-- The value of an image as it is stored: the tag above the three low bits. -/
theorem spImage_eq (t : Thread) (x : Dword) :
    t.spImage x = BitVec.ofNat 64 (2 ^ 7 * ((x.extractLsb' 7 49).toNat * 128 / 2 ^ (7 + t.log2n.toNat) * 2 ^ (7 + t.log2n.toNat) / 128 % 2 ^ 49)
      + x.toNat % 2 ^ 3) := by
  simp only [Thread.spImage, packFields, List.foldl, spTag, Thread.blockLog, toNat_field]
  congr 1; omega

/-- R79: of an image bits [2:0] and TAG from log2 B on are stored. -/
theorem getLsbD_spImage (t : Thread) (x : Dword) (k : Nat) (hk : k < 64) :
    (t.spImage x).getLsbD k = (x.getLsbD k && (decide (k < 3) || (decide (7 + t.log2n.toNat ≤ k) && decide (k < 56)))) := by
  have hlow : x.toNat % 2 ^ 3 < 2 ^ 7 := by omega
  rw [spImage_eq, BitVec.getLsbD_ofNat, Nat.testBit_two_pow_mul_add _ hlow]
  by_cases h7 : k < 7
  · have htag : ¬ 7 + t.log2n.toNat ≤ k := by omega
    simp only [h7, hk, htag, if_true, Nat.testBit_mod_two_pow, decide_true, decide_false, Bool.true_and, Bool.false_and,
      Bool.or_false, BitVec.getLsbD, Bool.and_comm]
  · have h3 : ¬ k < 3 := by omega
    have htag : t.log2n.toNat ≤ k - 7 ↔ 7 + t.log2n.toNat ≤ k := by omega
    have htop : k - 7 < 49 ↔ k < 56 := by omega
    rw [if_neg h7, Nat.testBit_mod_two_pow, testBit_blockTag]
    change _ = (x.getLsbD k && _)
    have hbit : (x.extractLsb' 7 49).toNat.testBit (k - 7) = (decide (k < 56) && x.getLsbD k) := by
      change (x.extractLsb' 7 49).getLsbD (k - 7) = _
      rw [BitVec.getLsbD_extractLsb', show 7 + (k - 7) = k by omega]
      simp only [htop]
    simp only [hbit, hk, h3, htag, htop, decide_true, decide_false, Bool.true_and, Bool.false_or]
    cases x.getLsbD k <;> cases decide (k < 56) <;> simp

/-! ### Entries, recency, the victim -/

/-- An entry of the table after a write of one. -/
theorem spAt_of_set (t : Thread) (i j : Nat) (x : Dword) (hi : i < 256) :
    (t.sptab.set! i x).toList.getD j 0 = if j = i then x else t.spAt j := by
  simp only [Thread.spAt, List.getD_eq_getElem?_getD, Vector.set!_eq_setIfInBounds, Vector.toList_setIfInBounds, List.getElem?_set,
    Vector.length_toList, hi, if_true, eq_comm (a := i)]
  split <;> rfl

/-- The victim of R78 is an entry of the table. -/
theorem spVictim_lt (t : Thread) : t.spVictim.1 < 256 := by
  unfold Thread.spVictim
  split
  · next i h => exact List.mem_range.mp (List.mem_of_find?_eq_some h)
  · split
    · exact BitVec.isLt _
    · decide

/-- What SPLOOK returns of a miss: bit 63, NOV in bit 8, the victim below it. -/
theorem packFields_miss (nov : Bool) (v : Nat) (hv : v < 256) :
    packFields [(1, 1, 63), (if nov then 1 else 0, 1, 8), (v, 8, 0)]
      = 0x8000000000000000 + BitVec.ofNat 64 (256 * (if nov then 1 else 0) + v) := by
  apply BitVec.eq_of_toNat_eq
  cases nov <;> simp [packFields] <;> omega

end Sys2Proof.Machine

namespace Sys2Proof
open Sys2Proof.Machine

/-! ### A trap that is delivered -/

/-- The low byte of TCAUSE is the code (Table 16.2). -/
theorem code_causeImage (i : TrapInfo) (p : Option Nat) : (causeImage i p).extractLsb' 0 8 = i.code := by
  apply BitVec.eq_of_toNat_eq
  have hc := i.code.isLt
  simp only [toNat_field, causeImage, packFields, List.foldl, BitVec.toNat_ofNat]
  omega

/-- The delivery of a trap outside a handler leaves what R335 says. -/
theorem trapTakenAt_deliver (s : State) (i : TrapInfo) (p : Option Nat) (c : Dword) (h : s.th.trap.inh = false) :
    TrapTakenAt s (s.deliver i p c) i.code c s.th.pc i.val := by
  have hinh : s.commit.th.trap.inh = false := h
  unfold State.deliver
  simp only [hinh, Bool.false_eq_true, if_false]
  exact {
    memory := fun _ => rfl
    thread := rfl
    saved := rfl
    cause := code_causeImage i p
    plies := fun j => by simp [Thread.running, Thread.openStrip, Thread.saveBlocks, Ply.idle]
    drained := rfl
    rest := ⟨rfl, rfl, rfl, rfl, rfl⟩ }

/-- A fault of a quiet control thread outside a handler is a trap taken in this step. -/
theorem trapTaken_raise (s : State) (code : BitVec 8) (val : Dword) (hq : s.th.quiet = true) (h : s.th.trap.inh = false) :
    TrapTaken s (s.raise (.mk0 code val)) code s.th.pc val := by
  rw [raise_quiet s _ hq]
  exact trapTakenAt_deliver s (.mk0 code val) none s.cycles h

/-! ### SPSET: R79 -/

/-- An image whose tag stands in a valid entry other than e: SPDUP. -/
def SpTwice (t : Thread) (x : Dword) (e : Nat) : Prop :=
  spV x = true ∧ ∃ j < 256, j ≠ e ∧ spV (t.spAt j) = true ∧ spTag (t.spAt j) = spTag x

/-- The condition that the model tests is that one. -/
theorem any_spTag_iff (t : Thread) (x : Dword) (e : Nat) :
    (spV x && (List.range 256).any fun j => j != e && spV (t.spAt j) && spTag (t.spAt j) == spTag x) = true ↔ SpTwice t x e := by
  simp only [SpTwice, Bool.and_eq_true, List.any_eq_true, List.mem_range, bne_iff_ne, beq_iff_eq, ne_eq, and_assoc]

/-- The entry that a register names is its low byte. -/
theorem toNat_lowByte (x : Dword) : (x.extractLsb' 0 8).toNat = x.toNat % 256 := toNat_low x 8

/-- The state that SPSET leaves where it writes entry e. -/
def spWritten (s : State) (d : BitVec 6) (e : Nat) (x : Dword) (tn : Taint) : State :=
  s.upd fun t => ({ t.setS d (t.spAt e) tn with sptab := t.sptab.set! e x }.spTouch e).noRewind.advance

/-- SPSET of a tag that stands in no other valid entry. -/
theorem exec_spset_writes (d a b : BitVec 6) {s : State} (h : AtControl s)
    (hx : ¬ SpTwice s.th (s.th.spImage (s.th.sr a)) ((s.th.sr b).toNat % 256)) :
    exec (.spset d a b) s = .next (spWritten s d ((s.th.sr b).toNat % 256) (s.th.spImage (s.th.sr a)) (s.th.sTaint a ||| s.th.sTaint b)) := by
  rw [← any_spTag_iff] at hx
  change execSpset d a b s = _
  rw [execSpset, ctl_at h]
  simp only [toNat_lowByte, if_neg hx]
  rfl

/-- SPSET of a tag that stands in another valid entry. -/
theorem exec_spset_dup (d a b : BitVec 6) {s : State} (h : AtControl s)
    (hx : SpTwice s.th (s.th.spImage (s.th.sr a)) ((s.th.sr b).toNat % 256)) :
    exec (.spset d a b) s = .next (s.raise (.mk0 cSPDUP (s.th.sr a))) := by
  rw [← any_spTag_iff] at hx
  change execSpset d a b s = _
  rw [execSpset, ctl_at h]
  simp only [toNat_lowByte, if_pos hx]

/-- A write of an s-register changes the registers and their taints alone. -/
theorem setS_frame (t : Thread) (d : BitVec 6) (v : Dword) (tn : Taint) :
    ∃ x y, t.setS d v tn = { t with s := x, taints := { t.taints with s := y } } := by
  unfold Thread.setS
  split
  · exact ⟨t.s, t.taints.s, rfl⟩
  · exact ⟨_, _, rfl⟩

/-- But for the table, its recency and the strip's mark, SPSET writes s[d]. -/
theorem writesS_spWritten (s : State) (d : BitVec 6) (e : Nat) (x : Dword) (tn : Taint) :
    WritesS s { spWritten s d e x tn with th := { (spWritten s d e x tn).th with
      sptab := s.th.sptab, sporder := s.th.sporder, strip := s.th.strip } } d (s.th.spAt e) tn 0 := by
  have hrest : { spWritten s d e x tn with th := { (spWritten s d e x tn).th with
      sptab := s.th.sptab, sporder := s.th.sporder, strip := s.th.strip } }
      = s.upd fun t => (t.setS d (t.spAt e) tn).advance := by
    obtain ⟨_, _, hset⟩ := setS_frame s.th d (s.th.spAt e) tn
    simp only [spWritten, State.upd, hset]
    rfl
  rw [hrest]
  exact writesS_of_quiet s d _ tn

end Sys2Proof
end

section
open Sys2Proof Sys2Proof.Machine
/-- Settles O15: an entry written (`exec_spset_writes`), or SPDUP delivered at once or held (`exec_spset_dup`). -/
theorem spsetRule : Obligations.SpsetRule := by
  intro d a b s hs
  have he : (s.th.sr b).toNat % 256 < 256 := Nat.mod_lt _ (by decide)
  refine ⟨getLsbD_spImage s.th _, fun hfree => ?_, fun htwice => ⟨fun hquiet hinh => ?_, fun hwaits => ?_⟩⟩
  · refine ⟨_, exec_spset_writes d a b hs hfree, fun _ => rfl, ?_, fun j _ hj => ?_, rfl, writesS_spWritten ..⟩
    · exact (spAt_of_set _ _ _ _ he).trans (if_pos rfl)
    · exact (spAt_of_set _ _ _ _ he).trans (if_neg hj)
  · exact ⟨_, exec_spset_dup d a b hs htwice, trapTaken_raise s cSPDUP (s.th.sr a) hquiet hinh⟩
  · rw [exec_spset_dup d a b hs htwice, raise_waits s _ hwaits]
    exact ⟨_, rfl, fun _ => rfl, rfl, rfl, _, rfl, rfl, rfl⟩
end

section
/-! Reads through the caches: what the operations of a read leave of the homes, the stores and the thread in focus (R62, R66, R71). -/
namespace Sys2Proof.Machine
open Sys2Proof

/-! ### Bytes of rows and lines -/

/-- A bit of a row outside the columns replaced. -/
theorem getLsbD_rowSet_outside (r : Row) (c w v k : Nat) (h : k < c ∨ c + w ≤ k) : (rowSet r c w v).getLsbD k = r.getLsbD k := by
  have hmask : ((2 ^ w - 1) <<< c).testBit k = false := by
    rw [Nat.testBit_shiftLeft, Nat.testBit_two_pow_sub_one]
    rcases h with h | h
    · simp only [Nat.not_le.mpr h, decide_false, Bool.false_and]
    · simp only [show ¬ k - c < w by omega, decide_false, Bool.and_false]
  simp only [rowSet, BitVec.getLsbD_or, BitVec.getLsbD_and, BitVec.getLsbD_not, BitVec.getLsbD_ofNat, hmask, Bool.and_false,
    Bool.or_false, Bool.not_false, Bool.and_true]
  by_cases hk : k < 1024
  · simp only [hk, decide_true, Bool.and_true]
  · simp only [BitVec.getLsbD_of_ge r k (by omega), Bool.false_and]

/-- A byte of a row after another byte has been replaced. -/
theorem byte_rowSet_ne (r : Row) (i j v : Nat) (h : j ≠ i) :
    (rowSet r (8 * i) 8 v).extractLsb' (8 * j) 8 = r.extractLsb' (8 * j) 8 := by
  apply BitVec.eq_of_getLsbD_eq
  intro k hk
  rw [BitVec.getLsbD_extractLsb', BitVec.getLsbD_extractLsb', getLsbD_rowSet_outside]
  omega

/-- A slice that has taken a line holds it. -/
theorem held_l2Touch (s : State) (pa : Nat) : ((s.l2Touch pa).l2At (pa / 128)).held = true := by
  unfold State.l2Touch
  dsimp only
  split
  · assumption
  · simp only [State.l2At, look_put_self]

/-- A byte written into the copy that a slice holds of a line of host memory leaves every other byte. -/
theorem homeByte_hostByteWrite_ne (s : State) (a x : Nat) (b : Byte) (h : x ≠ a) : (s.hostByteWrite a b).homeByte x = s.homeByte x := by
  rw [← homeByte_l2Touch s a x]
  have hheld := held_l2Touch s a
  unfold State.hostByteWrite
  generalize s.l2Touch a = u at hheld ⊢
  by_cases hline : x / 128 = a / 128
  · have hbyte : x % 128 ≠ a % 128 := by omega
    simp only [State.homeByte, hline, State.l2At, look_put_self] at hheld ⊢
    rw [byte_rowSet_ne _ _ _ _ hbyte]
  · simp only [State.homeByte, State.l2At, look_put_ne _ _ _ _ _ hline]
    rfl

/-- Bytes written in memory leave every byte that is not one of them as its home gave it. -/
theorem homeByte_memWrite_outside (s : State) (pa x : Nat) (bs : List Byte) (h : x < pa ∨ pa + bs.length ≤ x) :
    State.homeByte { s with mem := memWrite s.mem pa bs } x = s.homeByte x := by
  unfold State.homeByte
  rw [memByte_memWrite_outside s.mem pa bs x h]
  rfl

/-! ### What a slice and a notification leave -/

/-- A slice that takes a line changes the lines of the slices alone. -/
theorem l2Touch_frame (s : State) (pa : Nat) : ∃ l, s.l2Touch pa = { s with l2 := l } := by
  unfold State.l2Touch
  dsimp only
  split
  · exact ⟨s.l2, rfl⟩
  · exact ⟨_, rfl⟩

/-- A byte written into a slice's copy changes the lines of the slices alone. -/
theorem hostByteWrite_frame (s : State) (a : Nat) (b : Byte) : ∃ l, s.hostByteWrite a b = { s with l2 := l } := by
  obtain ⟨l, hl⟩ := l2Touch_frame s a
  unfold State.hostByteWrite
  rw [hl]
  exact ⟨_, rfl⟩

/-- Lines that a write fills whole change the marks of errors alone. -/
theorem cleanse_frame (s : State) (pa n : Nat) : ∃ e, s.cleanse pa n = { s with eccBad := e } := by
  unfold State.cleanse
  split
  · exact ⟨s.eccBad, rfl⟩
  · exact ⟨_, rfl⟩

/-- A notification changes a thread's event flag and sleep alone. -/
theorem notify_frame (t : Thread) (l : Nat) : ∃ e w, t.notify l = { t with event := e, sleep := w } := by
  unfold Thread.notify
  split
  · exact ⟨_, _, rfl⟩
  · exact ⟨t.event, t.sleep, rfl⟩

/-- So does a notification of the lines of a write. -/
theorem notifyMem_th (s : State) (pa n : Nat) : ∃ e w, (s.notifyMem pa n).th = { s.th with event := e, sleep := w } := by
  unfold State.notifyMem State.mapThreads
  dsimp only
  split
  · exact ⟨s.th.event, s.th.sleep, rfl⟩
  · split
    · exact notify_frame ..
    · exact ⟨s.th.event, s.th.sleep, rfl⟩

/-- The way that a replacement state names, whatever its orders hold, is in the range that DirtyByte counts. -/
theorem victim_le (l : L1Lru) : l.victim ≤ 12 := by
  have hgroup (a b c : Bool) : (if a then (if b then 3 else 2) else (if c then 1 else 0)) ≤ 3 := by
    cases a <;> cases b <;> cases c <;> decide
  have hg := hgroup (l.tree.getLsbD 0) (l.tree.getLsbD 2) (l.tree.getLsbD 1)
  unfold L1Lru.victim
  dsimp only
  omega

/-! ### What a read may change -/

/-- At their homes only bytes of W change; rows, tags and arrival words stand; the thread in focus learns at most that a line it watches
has been written (R212); and no write joins those queued at coordinators. -/
structure ChangesOnly (W : Nat → Prop) (s t : State) : Prop where
  bytes : ∀ x, ¬ W x → t.homeByte x = s.homeByte x
  stores : t.rows = s.rows ∧ t.tags = s.tags ∧ t.arr = s.arr
  thread : ∃ e w, t.th = { s.th with event := e, sleep := w }
  queue : ∀ r ∈ t.repQ, r ∈ s.repQ

namespace ChangesOnly
variable {W : Nat → Prop} {s t : State}

theorem refl (W : Nat → Prop) (s : State) : ChangesOnly W s s := ⟨fun _ _ => rfl, ⟨rfl, rfl, rfl⟩, ⟨_, _, rfl⟩, fun _ h => h⟩

theorem trans {u : State} (h : ChangesOnly W s t) (g : ChangesOnly W t u) : ChangesOnly W s u where
  bytes x hx := (g.bytes x hx).trans (h.bytes x hx)
  stores := ⟨g.stores.1.trans h.stores.1, g.stores.2.1.trans h.stores.2.1, g.stores.2.2.trans h.stores.2.2⟩
  thread := by
    obtain ⟨_, _, hth⟩ := h.thread
    obtain ⟨e, w, gth⟩ := g.thread
    exact ⟨e, w, by rw [gth, hth]⟩
  queue r hr := h.queue r (g.queue r hr)

/-- A change repeated over a list, each time as its element allows. -/
theorem foldl {α : Type} (f : State → α → State) (l : List α) (h : ChangesOnly W s t)
    (hf : ∀ u, ∀ a ∈ l, ChangesOnly W s u → ChangesOnly W u (f u a)) : ChangesOnly W s (l.foldl f t) :=
  List.foldlRecOn l f h fun u hu a ha => hu.trans (hf u a ha hu)

theorem l2Touch (W : Nat → Prop) (s : State) (pa : Nat) : ChangesOnly W s (s.l2Touch pa) := by
  have hbytes := homeByte_l2Touch s pa
  obtain ⟨l, hl⟩ := l2Touch_frame s pa
  rw [hl] at hbytes ⊢
  exact ⟨fun x _ => hbytes x, ⟨rfl, rfl, rfl⟩, ⟨_, _, rfl⟩, fun _ h => h⟩

theorem hostByteWrite (s : State) (a : Nat) (b : Byte) (ha : W a) : ChangesOnly W s (s.hostByteWrite a b) := by
  have hbytes (x : Nat) (hx : ¬ W x) := homeByte_hostByteWrite_ne s a x b fun h => hx (h ▸ ha)
  obtain ⟨l, hl⟩ := hostByteWrite_frame s a b
  rw [hl] at hbytes ⊢
  exact ⟨hbytes, ⟨rfl, rfl, rfl⟩, ⟨_, _, rfl⟩, fun _ h => h⟩

theorem cleanse (W : Nat → Prop) (s : State) (pa n : Nat) : ChangesOnly W s (s.cleanse pa n) := by
  obtain ⟨e, he⟩ := cleanse_frame s pa n
  rw [he]
  exact ⟨fun _ _ => rfl, ⟨rfl, rfl, rfl⟩, ⟨_, _, rfl⟩, fun _ h => h⟩

theorem notifyMem (W : Nat → Prop) (s : State) (pa n : Nat) : ChangesOnly W s (s.notifyMem pa n) :=
  ⟨fun _ _ => rfl, ⟨rfl, rfl, rfl⟩, notifyMem_th s pa n, fun _ h => h⟩

theorem memWrite (s : State) (pa : Nat) (bs : List Byte) (hW : ∀ i < bs.length, W (pa + i)) :
    ChangesOnly W s { s with mem := memWrite s.mem pa bs } where
  bytes x hx := by
    refine homeByte_memWrite_outside s pa x bs ?_
    refine Decidable.byContradiction fun hin => ?_
    have hbyte := hW (x - pa) (by omega)
    rw [show pa + (x - pa) = x by omega] at hbyte
    exact hx hbyte
  stores := ⟨rfl, rfl, rfl⟩
  thread := ⟨_, _, rfl⟩
  queue _ h := h

theorem onlyCaches (W : Nat → Prop) (h : OnlyCaches s t) : ChangesOnly W s t := by
  obtain ⟨_, _, _, rfl⟩ := h
  exact ⟨fun _ _ => rfl, ⟨rfl, rfl, rfl⟩, ⟨_, _, rfl⟩, fun _ h => h⟩

/-! Writes at home slices (R62, R71) -/

/-- A write at home slices changes the bytes written. -/
theorem sliceWrite (s : State) (pa : Nat) (bs : List Byte) (hW : ∀ i < bs.length, W (pa + i)) :
    ChangesOnly W s (s.sliceWrite pa bs) := by
  have hclean := cleanse W s pa bs.length
  unfold State.sliceWrite
  dsimp only
  generalize s.cleanse pa bs.length = u at hclean ⊢
  split
  · refine hclean.foldl _ _ fun v p hp _ => hostByteWrite v _ _ (hW _ ?_)
    obtain ⟨_, hlt, _⟩ := List.mem_zipIdx (x := p.1) (i := p.2) hp
    omega
  · exact (hclean.trans (memWrite u pa bs hW)).foldl _ _ fun v _ _ _ => l2Touch W v _

/-- A write to a replicated line changes its bytes in every replica. -/
theorem replicaWrite (s : State) (pa : Nat) (repl : BitVec 2) (bs : List Byte)
    (hW : ∀ k < 2 ^ repl.toNat, ∀ i < bs.length, W (replicaAddr pa repl k + i)) : ChangesOnly W s (s.replicaWrite pa repl bs) := by
  unfold State.replicaWrite
  refine trans ((refl W s).foldl _ _ fun u k hk _ => sliceWrite u _ bs (hW k (List.mem_range.mp hk))) (notifyMem ..)

/-- Queued writes that are taken from their coordinators and performed change the bytes that they put into replicas. -/
theorem performQueued (s : State) (here : RepReq → Bool) (hW : ∀ x, QueuedByte s x → W x) :
    ChangesOnly W s ((s.repQ.filter here).foldl (fun s r => s.replicaWrite r.pa r.repl r.bytes)
      { s with repQ := s.repQ.filter fun r => !here r }) := by
  have htaken : ChangesOnly W s { s with repQ := s.repQ.filter fun r => !here r } :=
    ⟨fun _ _ => rfl, ⟨rfl, rfl, rfl⟩, ⟨_, _, rfl⟩, fun _ h => (List.mem_filter.mp h).1⟩
  refine htaken.foldl _ _ fun u r hr _ => replicaWrite u r.pa r.repl r.bytes fun k hk i hi => hW _ ?_
  exact ⟨r, (List.mem_filter.mp hr).1, k, hk, by omega, by omega⟩

theorem repFlush (s : State) (pa n : Nat) (hW : ∀ x, QueuedByte s x → W x) : ChangesOnly W s (s.repFlush pa n) :=
  performQueued s _ hW

theorem settleLocked (s : State) (pa n : Nat) (hW : ∀ x, QueuedByte s x → W x) : ChangesOnly W s (s.settleLocked pa n) :=
  performQueued s _ hW

/-- A read at a home slice changes what the queued writes that it waits for put into replicas (R72). -/
theorem homeRead (s : State) (c : BitVec 12) (pa : Nat) (repl : BitVec 2) (n : Nat) (hW : ∀ x, QueuedByte s x → W x) :
    ChangesOnly W s (s.homeRead c pa repl n).1 := by
  unfold State.homeRead
  dsimp only
  split
  · exact l2Touch W s _
  · exact (settleLocked s pa n hW).trans (l2Touch ..)

/-! The L1 (R65, R66) -/

/-- The queue only shrinks, so what may change of it stays within W. -/
theorem queued (h : ChangesOnly W s t) (hW : ∀ x, QueuedByte s x → W x) (x : Nat) (hx : QueuedByte t x) : W x := by
  obtain ⟨r, hr, hbyte⟩ := hx
  exact hW x ⟨r, h.queue r hr, hbyte⟩

/-- The dirty bytes of a way put back at a line change those bytes. -/
theorem writeDirty (s : State) (a : Nat) (w : L1Way) (hW : ∀ i < 128, w.dirty.getLsbD i = true → W (a + i)) :
    ChangesOnly W s (s.writeDirty a w) := by
  unfold State.writeDirty
  have hstart : ChangesOnly W s (if w.dirty = BitVec.allOnes 128 then s.cleanse a 128 else s) :=
    ite_keeps (p := ChangesOnly W s) (cleanse W s a 128) (refl W s)
  refine hstart.foldl _ _ fun u i hi _ => ?_
  split
  · next hdirty =>
    refine sliceWrite u _ _ fun k hk => ?_
    rw [List.length_singleton, Nat.lt_one_iff] at hk
    rw [hk]
    exact hW i (List.mem_range.mp hi) hdirty
  · exact refl W u

theorem l1Put (W : Nat → Prop) (s : State) (c : BitVec 12) (set way : Nat) (w : L1Way) : ChangesOnly W s (s.l1Put c set way w) :=
  ⟨fun _ _ => rfl, ⟨rfl, rfl, rfl⟩, ⟨_, _, rfl⟩, fun _ h => h⟩

theorem l1Touch (W : Nat → Prop) (s : State) (c : BitVec 12) (set way : Nat) : ChangesOnly W s (s.l1Touch c set way) :=
  ⟨fun _ _ => rfl, ⟨rfl, rfl, rfl⟩, ⟨_, _, rfl⟩, fun _ h => h⟩

/-- A way put back changes the homes of its dirty bytes and what the queued writes before them put into replicas. -/
theorem l1WriteBack (s : State) (c : BitVec 12) (set way : Nat) (inval : Bool) (hset : set < 256) (hway : way ≤ 12)
    (hW : ∀ x, QueuedByte s x → W x) (hdirty : ∀ x, DirtyByte s c x → W x) :
    ChangesOnly W s (s.l1WriteBack c set way inval) := by
  unfold State.l1WriteBack
  dsimp only
  split
  · exact refl W s
  · next hvalid =>
    refine trans ?_ (l1Put ..)
    split
    · exact refl W s
    · refine trans ?_ (notifyMem ..)
      split
      · next hrepl =>
        exact writeDirty s _ _ fun i hi hd => hdirty _ ⟨set, way, i, hset, hway, hi, hvalid, hd, by rw [if_pos hrepl]⟩
      · next hrepl =>
        refine (repFlush s _ 128 hW).foldl _ _ fun u k hk _ => writeDirty u _ _ fun i hi hd => hdirty _ ?_
        exact ⟨set, way, i, hset, hway, hi, hvalid, hd, by rw [if_neg hrepl]; exact ⟨k, List.mem_range.mp hk, rfl⟩⟩

/-- A way made ready for a line changes what its victim puts back. -/
theorem l1Alloc (s : State) (c : BitVec 12) (pa : Nat) (hW : ∀ x, QueuedByte s x → W x) (hdirty : ∀ x, DirtyByte s c x → W x) :
    ChangesOnly W s (s.l1Alloc c pa).1 := by
  unfold State.l1Alloc
  dsimp only
  split
  · exact refl W s
  · split
    · exact refl W s
    · exact l1WriteBack s c _ _ true (Nat.mod_lt _ (by decide)) (victim_le _) hW hdirty

/-- A read through the L1 changes what its victim puts back and what the queued writes that it waits for put into replicas. -/
theorem l1Read (s : State) (c : BitVec 12) (pa : Nat) (repl : BitVec 2) (n : Nat) (hW : ∀ x, QueuedByte s x → W x)
    (hdirty : ∀ x, DirtyByte s c x → W x) : ChangesOnly W s (s.l1Read c pa repl n).1 := by
  have halloc := l1Alloc s c (replicaFor c pa repl) hW hdirty
  have hread := halloc.trans (homeRead _ c (pa / 128 * 128) repl 128 (halloc.queued hW))
  unfold State.l1Read
  dsimp only
  exact ite_keeps (p := fun r : State × List Byte => ChangesOnly W s r.1) ((halloc.trans (l1Put ..)).trans (l1Touch ..))
    (ite_keeps (p := fun r : State × List Byte => ChangesOnly W s r.1) hread
      ((hread.trans (l1Put ..)).trans (l1Touch ..)))

/-! Translations (R45, R56) -/

/-- A translation installed changes its leaf. -/
theorem install (s : State) (c : BitVec 12) (ctx : BitVec 16) (k : Kind) (va : Dword) (x : Xl)
    (hW : ∀ i < 8, W (x.leafAt + i)) : ChangesOnly W s (s.install c ctx k va x) := by
  rcases install_frame s c ctx k va x with h | ⟨v, h⟩
  · exact onlyCaches W h
  · have hleaf := memWrite s x.leafAt (leBytes 8 v.toNat) (by simpa only [length_leBytes] using hW)
    exact (hleaf.trans (notifyMem ..)).trans (onlyCaches W h)

end ChangesOnly

/-- A translation installed leaves the L1s. -/
theorem install_l1 (s : State) (c : BitVec 12) (ctx : BitVec 16) (k : Kind) (va : Dword) (x : Xl) :
    (s.install c ctx k va x).l1 = s.l1 := by
  rcases install_frame s c ctx k va x with ⟨_, _, _, h⟩ | ⟨v, _, _, _, h⟩ <;> rw [h]
  rfl

/-- Whose L1s are the same, their dirty bytes are. -/
theorem dirtyByte_of_l1 {s t : State} (h : t.l1 = s.l1) (c : BitVec 12) (x : Nat) (hx : DirtyByte t c x) : DirtyByte s c x := by
  unfold DirtyByte State.l1At at hx ⊢
  rwa [h] at hx

/-! ### PREFETCH: R225 -/

/-- A byte that a PREFETCH of an address may change: of the leaf that translates it, of a dirty line, of a queued write. -/
def PrefetchByte (s : State) (va : Dword) (x : Nat) : Prop :=
  (∃ ps, s.resolve s.th .read va 1 false = .ok ps ∧ LeafByte ps x) ∨ DirtyByte s s.th.tid.core x ∨ QueuedByte s x

/-- A PREFETCH changes no more than a read of its line. -/
theorem prefetch_changesOnly (s : State) (va : Dword) : ChangesOnly (PrefetchByte s va) s (s.prefetch va) := by
  unfold State.prefetch
  split
  · exact .refl _ s
  · next pa cached repl len pva x hok =>
    have hinst : ChangesOnly (PrefetchByte s va) s (s.install s.th.tid.core s.th.ctx .read va x) :=
      .install s _ _ _ _ x fun i hi => .inl ⟨_, hok, _, List.mem_singleton_self _, x, rfl, by omega, by omega⟩
    have hqueued := hinst.queued fun _ h => .inr (.inr h)
    have hdirty (a : Nat) (ha : DirtyByte (s.install s.th.tid.core s.th.ctx .read va x) s.th.tid.core a) : PrefetchByte s va a :=
      .inr (.inl (dirtyByte_of_l1 (install_l1 ..) _ a ha))
    dsimp only
    split
    · exact hinst.trans (.l1Read _ _ _ _ _ hqueued hdirty)
    · exact hinst.trans (.homeRead _ _ _ _ _ hqueued)
  · exact .refl _ s

end Sys2Proof.Machine
end

section
/-! SPLOOK (R78). -/
namespace Sys2Proof
open Sys2Proof.Machine

/-- A valid entry that holds a block. -/
def SpHolds (t : Thread) (block i : Nat) : Prop := spV (t.spAt i) = true ∧ spTag (t.spAt i) = block

/-- The first entry that holds a block, as SPLOOK finds it. -/
theorem find_spHolds {t : Thread} {block i : Nat} (hi : i < 256) (h : SpHolds t block i) (hfirst : ∀ j < i, ¬ SpHolds t block j) :
    (List.range 256).find? (fun i => spV (t.spAt i) && spTag (t.spAt i) == block) = some i := by
  simp only [List.find?_range_eq_some, Bool.and_eq_true, beq_iff_eq, List.mem_range, Bool.not_eq_true', Bool.eq_false_iff, ne_eq]
  exact ⟨h, hi, hfirst⟩

/-- No entry that holds a block. -/
theorem find_spHolds_none {t : Thread} {block : Nat} (h : ∀ i < 256, ¬ SpHolds t block i) :
    (List.range 256).find? (fun i => spV (t.spAt i) && spTag (t.spAt i) == block) = none := by
  simp only [List.find?_range_eq_none, Bool.and_eq_true, beq_iff_eq, Bool.not_eq_true', Bool.eq_false_iff, ne_eq]
  exact h

/-- Recency does not meet the registers. -/
theorem spTouch_setS (t : Thread) (i : Nat) (d : BitVec 6) (v : Dword) (tn : Taint) :
    (t.spTouch i).setS d v tn = (t.setS d v tn).spTouch i := by
  unfold Thread.setS
  split <;> rfl

/-- SPLOOK of a block that an entry holds. -/
theorem exec_splook_hit (d a : BitVec 6) {s : State} {size va i : Nat} (h : AtControl s) (hsize : size = 2 ^ s.th.blockLog)
    (hva : va = (s.th.sr a).toNat % 2 ^ 56) (hi : i < 256) (hhit : SpHolds s.th (va / size * size) i)
    (hfirst : ∀ j < i, ¬ SpHolds s.th (va / size * size) j) :
    exec (.splook d a) s = .next (s.upd fun t =>
      ((t.setS d (BitVec.ofNat 64 (nearBase + size * i + va % size)) (t.sTaint a)).spTouch i).advance) := by
  subst hsize hva
  change execSplook d a s = _
  rw [execSplook, ctl_at h]
  simp only [State.upd, toNat_low, find_spHolds hi hhit hfirst, spTouch_setS]

/-- SPLOOK of a block that no entry holds. -/
theorem exec_splook_miss (d a : BitVec 6) {s : State} {size va : Nat} (h : AtControl s) (hsize : size = 2 ^ s.th.blockLog)
    (hva : va = (s.th.sr a).toNat % 2 ^ 56) (hmiss : ∀ i < 256, ¬ SpHolds s.th (va / size * size) i) :
    exec (.splook d a) s = .next (s.upd fun t => (t.setS d
      (0x8000000000000000 + BitVec.ofNat 64 (256 * (if t.spVictim.2 then 1 else 0) + t.spVictim.1)) (t.sTaint a)).advance) := by
  subst hsize hva
  change execSplook d a s = _
  rw [execSplook, ctl_at h]
  simp only [State.upd, toNat_low, find_spHolds_none hmiss, packFields_miss _ _ (spVictim_lt s.th)]

/-- PREFETCH in the control stream. -/
theorem exec_prefetch (a : BitVec 6) {s : State} (h : AtControl s) :
    exec (.prefetch a) s = .next ((s.prefetch (s.th.sr a)).upd Thread.advance) := by
  change execPrefetch a s = _
  rw [execPrefetch, ctl_at h]

end Sys2Proof
end

section
open Sys2Proof Sys2Proof.Machine
/-- Settles O4: the entry found (`exec_splook_hit`) or the victim (`exec_splook_miss`), and `prefetch_changesOnly` for PREFETCH. -/
theorem scratchpadResults : Obligations.ScratchpadResults := by
  intro d a s hs
  refine ⟨fun i hi hhit hfirst => ?_, fun hmiss => ?_, ?_⟩
  · exact ⟨_, exec_splook_hit d a hs rfl rfl hi hhit hfirst, fun _ => rfl, rfl⟩
  · exact ⟨_, exec_splook_miss d a hs rfl rfl hmiss, fun _ => rfl, rfl⟩
  · obtain ⟨hbytes, ⟨hrows, htags, harr⟩, ⟨e, w, hth⟩, _⟩ := prefetch_changesOnly s (s.th.sr a)
    refine ⟨_, exec_prefetch a hs, hrows, htags, harr, ?_, fun x hleaf hdirty hqueued => hbytes x ?_⟩
    · simp only [State.upd, hth]
      rfl
    · rintro (⟨ps, hok, hx⟩ | hx | hx)
      · exact hleaf ps hok hx
      · exact hdirty hx
      · exact hqueued hx
end

section
/-! Arrival words (R117 to R119): their images and places, and what the arrival instructions leave of the thread. -/
namespace Sys2Proof.Machine
open Sys2Proof

/-! ### Images: Table 5.3 -/

/-- The image of an arrival word with its three fields. -/
def arrWord (gen target count : Nat) : Dword := BitVec.ofNat 8 gen ++ BitVec.ofNat 28 target ++ BitVec.ofNat 28 count

@[simp] theorem arrGen_arrWord (g t c : Nat) : arrGen (arrWord g t c) = BitVec.ofNat 8 g :=
  (Laws.high_append 28 8 _ _).trans (Laws.top_append _ _)

@[simp] theorem arrTarget_arrWord (g t c : Nat) : arrTarget (arrWord g t c) = t % 2 ^ 28 := by
  have hfield : (arrWord g t c).extractLsb' 28 28 = BitVec.ofNat 28 t := (Laws.high_append 0 28 _ _).trans (Laws.low_append _ _)
  rw [arrTarget, hfield, BitVec.toNat_ofNat]

@[simp] theorem arrCount_arrWord (g t c : Nat) : arrCount (arrWord g t c) = c % 2 ^ 28 := by
  have hfield : (arrWord g t c).extractLsb' 0 28 = BitVec.ofNat 28 c := Laws.low_append _ _
  rw [arrCount, hfield, BitVec.toNat_ofNat]

/-- The three fields packed are that image. -/
theorem packFields_arrWord (g t c : Nat) : packFields [(g, 8, 56), (t, 28, 28), (c, 28, 0)] = arrWord g t c := by
  apply BitVec.eq_of_toNat_eq
  simp only [packFields, List.foldl, arrWord, BitVec.toNat_append, BitVec.toNat_ofNat]
  rw [← Nat.shiftLeft_add_eq_or_of_lt (Nat.mod_lt t (by decide)), ← Nat.shiftLeft_add_eq_or_of_lt (Nat.mod_lt c (by decide))]
  simp only [Nat.shiftLeft_eq]
  omega

/-- A field that is 0 need not be packed. -/
theorem packFields_append_zero (fs : List (Nat × Nat × Nat)) (w lo : Nat) : packFields (fs ++ [(0, w, lo)]) = packFields fs := by
  simp [packFields]

/-- ARRINIT packs no COUNT: it is 0 (R122). -/
theorem packFields_arrInit (g t : Nat) : packFields [(g, 8, 56), (t, 28, 28)] = arrWord g t 0 :=
  (packFields_append_zero _ 28 0).symm.trans (packFields_arrWord g t 0)

/-- The image after an arrival is the one that R118 computes. -/
theorem arrive_image (v : Dword) (n : Nat) : (arrive v n).1 = (arrived v n).1 := by
  unfold arrive arrived
  dsimp only
  split
  · rfl
  · split
    · rfl
    · exact packFields_arrWord ..

/-- An arrival has an overrun to report where R118 raises one. -/
theorem arrive_overruns (v : Dword) (n : Nat) : (arrive v n).2.isSome = (arrived v n).2 := by
  unfold arrive arrived
  dsimp only
  split
  · rfl
  · split
    · rfl
    · simp only [apply_ite Option.isSome, Option.isSome_some, Option.isSome_none, Bool.if_false_right,
        Bool.decide_or, Bool.decide_and, Bool.and_true]

/-! ### Places: R117 -/

/-- An arrival word that has storage in this package: of a page, or of HBM. -/
def ArrPlace.Stored : ArrPlace → Prop
  | .page _ _ _ => True
  | .mem pa => isHbm pa = true
  | .fabric _ => False

/-- An address that R117 allows names a word with storage. -/
theorem arrPlace_stored {s : State} {t : Thread} {k : Kind} {va : Dword} {p : ArrPlace} {x : Option Xl}
    (h : s.arrPlace t k va = .ok (p, x)) : p.Stored := by
  unfold State.arrPlace at h
  dsimp only at h
  repeat' split at h
  all_goals cases h
  · trivial
  · next hmem =>
    simp only [Bool.and_eq_true] at hmem
    exact hmem.1.1

/-- A word that stands as it was holds its image. -/
theorem wordHolds_refl (s : State) {p : ArrPlace} (hp : p.Stored) : WordHolds s s p (s.arrImage p) := by
  refine ⟨rfl, rfl, rfl, ?_⟩
  cases p with
  | page c cl w => exact ⟨rfl, fun _ _ => rfl⟩
  | mem pa => exact ⟨rfl, fun _ _ => rfl⟩
  | fabric a => exact hp.elim

/-- An image written at its place: the word holds it, and nothing else of memory and of the pages changes. -/
theorem wordHolds_arrWrite (s : State) {p : ArrPlace} (v : Dword) (hp : p.Stored) : WordHolds s (s.arrWrite p v) p v := by
  cases p with
  | page c cl w => exact ⟨look_put_self .., rfl, rfl, rfl, fun k hk => look_put_ne _ _ _ _ _ hk⟩
  | mem pa =>
    obtain ⟨hrows, _, harr, _, hregs, _⟩ := homeWrite_frame s pa 0 (leBytes 8 v.toNat)
    have hmem := homeWrite_mem s pa (leBytes 8 v.toNat) (isHost_of_isHbm hp)
    refine ⟨?_, hrows, hregs, harr, fun a ha => ?_⟩
    · simp only [State.arrImage, State.arrWrite, hmem]
      exact memDword_memPutDword ..
    · simp only [State.arrWrite, hmem]
      exact memByte_memWrite_outside _ _ _ _ (by rwa [length_leBytes])
  | fabric a => exact hp.elim

/-- Of the thread in focus, a write at an arrival word changes at most what it knows of a line that it watches (R212). -/
theorem arrWrite_th (s : State) (p : ArrPlace) (v : Dword) :
    ∃ e w, (s.arrWrite p v).th = { s.th with event := e, sleep := w } := by
  cases p with
  | page c cl w => exact notify_frame ..
  | mem pa =>
    have hslice : ChangesOnly (fun _ => True) s (s.sliceWrite pa (leBytes 8 v.toNat)) := .sliceWrite _ _ _ fun _ _ => trivial
    exact (hslice.trans (.notifyMem ..)).thread
  | fabric a => exact ⟨_, _, rfl⟩

/-- Nor does an arrival applied change more of it. -/
theorem arrApply_th (s : State) (p : ArrPlace) (n : Nat) :
    ∃ e w, (s.arrApply p n).1.th = { s.th with event := e, sleep := w } := by
  unfold State.arrApply
  dsimp only
  split
  · exact ⟨_, _, rfl⟩
  · exact arrWrite_th ..

/-- An arrival applied leaves the image of R118 at the word and nothing else (R118, R119). -/
theorem wordHolds_arrApply (s : State) {p : ArrPlace} (n : Nat) (hp : p.Stored) :
    WordHolds s (s.arrApply p n).1 p (arrived (s.arrImage p) n).1 := by
  rw [← arrive_image]
  unfold State.arrApply
  dsimp only
  split
  · next hsame =>
    rw [hsame]
    exact wordHolds_refl s hp
  · exact wordHolds_arrWrite s _ hp

/-- The end of a turn changes the turns and the ages alone. -/
theorem aged_frame (s : State) (t : Tid) (q : Place) (fail : Bool) :
    ∃ a l, s.aged t q fail = { s with ages := a, turns := l } := by
  cases q <;> exact ⟨_, _, rfl⟩

/-! ### A translation installed -/

/-- Of the thread in focus, a translation installed changes at most what it knows of a line that it watches. -/
theorem installArr_th (s : State) (k : Kind) (va : Dword) (x : Option Xl) :
    ∃ e w, (s.installArr k va x).th = { s.th with event := e, sleep := w } := by
  cases x with
  | none => exact ⟨_, _, rfl⟩
  | some x => exact (ChangesOnly.install (W := fun _ => True) s _ _ k va x fun _ _ => trivial).thread

@[simp] theorem installArr_sr (s : State) (k : Kind) (va : Dword) (x : Option Xl) (r : BitVec 6) :
    (s.installArr k va x).th.sr r = s.th.sr r := by
  obtain ⟨_, _, hth⟩ := installArr_th s k va x
  rw [hth]
  rfl

@[simp] theorem installArr_ctxs (s : State) (k : Kind) (va : Dword) (x : Option Xl) : (s.installArr k va x).ctxs = s.ctxs := by
  cases x with
  | none => rfl
  | some x =>
    rcases install_frame s s.th.tid.core s.th.ctx k va x with ⟨_, _, _, h⟩ | ⟨v, _, _, _, h⟩ <;> rw [State.installArr, h]
    rfl

@[simp] theorem bindingOf_installArr (s : State) (k : Kind) (va obj : Dword) (x : Option Xl) :
    (s.installArr k va x).bindingOf obj = s.bindingOf obj := by
  obtain ⟨_, _, hth⟩ := installArr_th s k va x
  simp only [State.bindingOf, State.ctxAt, installArr_ctxs, hth]

/-! ### The thread after an arrival instruction -/

/-- A register written does not meet the event flag, the sleep and the strip. -/
theorem setS_watch (t : Thread) (d : BitVec 6) (v : Dword) (tn : Taint) (e : Bool) (w : Sleep) (st : Strip) :
    ({ t with event := e, sleep := w, strip := st } : Thread).setS d v tn
      = { t.setS d v tn with event := e, sleep := w, strip := st } := by
  unfold Thread.setS
  split <;> rfl

/-- A thread that has received the previous image and taken its identifier, whatever it knows of its lines and of its strip. -/
theorem arrThread_of {u t : State} {d : BitVec 6} {v : Dword} {id : BitVec 4} {acq : Option (Option Binding)}
    (h : ∃ e w st l, t.th = { ((u.th.setS d v (idSet id)).take id false acq).advance with
      event := e, sleep := w, strip := st, line := l }) :
    ArrThread u t d v id acq := by
  obtain ⟨e, w, st, l, h⟩ := h
  have hs : t.th.s = (u.th.setS d v (idSet id)).s := by rw [h]; rfl
  have ht : t.th.taints = (u.th.setS d v (idSet id)).taints := by rw [h]; rfl
  refine ⟨?_, fun r => ?_, fun r => ?_⟩
  · obtain ⟨_, _, hset⟩ := setS_frame u.th d v (idSet id)
    rw [h, hset]
    rfl
  · rw [← Thread.sr_setS u.th d r v (idSet id), Thread.sr, Thread.sr, hs]
  · rw [← sTaint_setS u.th d r v (idSet id), Thread.sTaint, Thread.sTaint, ht]

/-! ### The arrival instructions: R121 to R124 -/

/-- An arrival instruction that nothing refuses and nothing holds up: its word, its translation and its identifier. -/
structure ArrReady (s : State) (va : Dword) (k : Kind) (p : ArrPlace) (x : Option Xl) (id : BitVec 4) : Prop where
  aligned : va.toNat % 8 = 0
  place : s.arrPlace s.th k va = .ok (p, x)
  free : s.th.freeId = some id
  turn : s.turnHeld s.th.tid p.place = false
  lines : s.linesFree s.th = true

/-- Such an instruction has its meaning at the word's place, once its release, if it makes one, need not wait. -/
theorem arrOp_ready {s : State} {va : Dword} {k : Kind} {p : ArrPlace} {x : Option Xl} {id : BitVec 4} (h : ArrReady s va k p x id)
    {release : Bool} (hrel : (release && s.releaseWaits s.th (scopeOf (s.bindingOf va))) = false)
    (f : ArrPlace → BitVec 4 → State → State) : s.arrOp va k release f = f p id (s.installArr k va x) := by
  have haligned : va.extractLsb' 0 3 = 0 := BitVec.eq_of_toNat_eq ((toNat_low va 3).trans h.aligned)
  simp [State.arrOp, haligned, h.place, h.free, h.turn, h.lines, hrel]

/-- The thread's earlier stores to a word of memory give way to ARRINIT's (R101, R122). -/
def State.overtakeArr (s : State) (p : ArrPlace) : State :=
  match p with
  | .page _ _ _ => s
  | .mem pa => if (s.own s.th).isEmpty then s else s.overtake pa 8
  | .fabric _ => s

/-- They stand in the drain and the strip store buffer. -/
theorem overtakeArr_frame (s : State) (p : ArrPlace) :
    ∃ dr st, s.overtakeArr p = { s with drain := dr, th := { s.th with strip := st } } := by
  cases p with
  | page c cl w => exact ⟨_, _, rfl⟩
  | mem pa =>
    unfold State.overtakeArr
    dsimp only
    split
    · exact ⟨s.drain, s.th.strip, rfl⟩
    · exact ⟨_, _, rfl⟩
  | fabric a => exact ⟨_, _, rfl⟩

@[simp] theorem overtakeArr_sr (s : State) (p : ArrPlace) (r : BitVec 6) : (s.overtakeArr p).th.sr r = s.th.sr r := by
  obtain ⟨_, _, hover⟩ := overtakeArr_frame s p
  rw [hover]
  rfl

/-- What ARRINIT leaves of the state with its translation installed. -/
def arrInited (u : State) (d : BitVec 6) (p : ArrPlace) (target : Nat) (id : BitVec 4) : State :=
  ((u.overtakeArr p).arrWrite p (arrWord (arrGen (ownImage u p)).toNat target 0)).upd fun t =>
    ((t.setS d (ownImage u p) (idSet id)).take id false none).noRewind.advance

/-- What ARRADD leaves of the state with its release made, before the trap of an overrun. -/
def arrAdded (u : State) (d : BitVec 6) (p : ArrPlace) (n : Nat) (id : BitVec 4) (obj : Option Binding) : State :=
  ((u.arrApply p n).1.aged (u.arrApply p n).1.th.tid p.place false).upd fun t =>
    { ((t.setS d (u.arrImage p) (idSet id)).take id false (some obj)).advance with line := some p.place.line }

/-- What ARRWAIT leaves of the state with its strip committed, for a thread that waits on a generation. -/
def arrWaited (u : State) (d : BitVec 6) (p : ArrPlace) (gen : BitVec 8) (id : BitVec 4) (obj : Option Binding) : State :=
  if arrGen (ownImage u p) = gen then u.upd fun t => { t with sleep := .arrwait, line := some p.place.line }
  else u.upd fun t =>
    { ((t.setS d (ownImage u p) (idSet id)).take id false (some obj)).advance with sleep := .awake, line := some p.place.line }

section
variable {s : State} {p : ArrPlace} {x : Option Xl} {id : BitVec 4} (d a b : BitVec 6)

/-- ARRINIT, ready, over the state with its translation installed. -/
theorem exec_arrinit (hs : AtControl s) (h : ArrReady s (s.th.sr a) .amo p x id) :
    exec (.arrinit d a b) s = .next (arrInited (s.installArr .amo (s.th.sr a) x) d p (s.th.sr b).toNat id) := by
  change execArrinit d a b s = _
  rw [execArrinit, ctl_at hs, arrOp_ready h (Bool.false_and _), arrInited, ← packFields_arrInit,
    ← installArr_sr s .amo (s.th.sr a) x b, ← overtakeArr_sr _ p b]
  rfl

/-- ARRADD, ready, after its release; the trap of an overrun is taken once it is complete (R119). -/
theorem exec_arradd (hs : AtControl s) (h : ArrReady s (s.th.sr a) .amo p x id)
    (hrel : s.releaseWaits s.th (scopeOf (s.bindingOf (s.th.sr a))) = false) {u : State} {n : Nat} {obj : Option Binding}
    (hobj : obj = s.bindingOf (s.th.sr a)) (hu : u = (s.installArr .amo (s.th.sr a) x).release obj)
    (hn : n = (s.th.sr b).toNat % 2 ^ 28) :
    exec (.arradd d a b) s = .next (match (arrive (u.arrImage p) n).2 with
      | none => arrAdded u d p n id obj
      | some o => (arrAdded u d p n id obj).raise (overrun (s.th.sr a) o)) := by
  subst hobj hu hn
  change execArradd d a b s = _
  rw [execArradd, ctl_at hs, arrOp_ready h ((Bool.true_and _).trans hrel)]
  simp only [installArr_sr, bindingOf_installArr, toNat_low]
  rfl

/-- ARRWAIT, ready, after its commit. -/
theorem exec_arrwait (hs : AtControl s) (h : ArrReady s (s.th.sr a) .read p x id) :
    exec (.arrwait d a b) s = .next (arrWaited (s.installArr .read (s.th.sr a) x).commit d p ((s.th.sr b).setWidth 8) id
      (s.bindingOf (s.th.sr a))) := by
  change execArrwait d a b s = _
  rw [execArrwait, ctl_at hs, arrOp_ready h (Bool.false_and _), BitVec.setWidth_eq_extractLsb' (by decide),
    ← installArr_sr s .read (s.th.sr a) x b, ← bindingOf_installArr s .read (s.th.sr a) (s.th.sr a) x]
  rfl

end

variable (u : State) (d : BitVec 6) {p : ArrPlace} (id : BitVec 4)

/-- ARRINIT writes its image at the word. -/
theorem wordHolds_arrInited (target : Nat) (hp : p.Stored) :
    WordHolds u (arrInited u d p target id) p (arrWord (arrGen (ownImage u p)).toNat target 0) := by
  obtain ⟨_, _, hover⟩ := overtakeArr_frame u p
  have h := wordHolds_arrWrite (u.overtakeArr p) (arrWord (arrGen (ownImage u p)).toNat target 0) hp
  rw [hover] at h
  unfold arrInited
  rw [hover]
  exact h

/-- ARRINIT is neither a release nor an acquire of its thread (R122). -/
theorem arrThread_arrInited (target : Nat) : ArrThread u (arrInited u d p target id) d (ownImage u p) id none := by
  obtain ⟨_, _, hover⟩ := overtakeArr_frame u p
  obtain ⟨_, _, hwrite⟩ := arrWrite_th (u.overtakeArr p) p (arrWord (arrGen (ownImage u p)).toNat target 0)
  refine arrThread_of ?_
  rw [arrInited, State.upd_th, hwrite, hover]
  dsimp only
  rw [setS_watch]
  exact ⟨_, _, _, _, rfl⟩

/-- ARRADD applies its arrival at the word. -/
theorem wordHolds_arrAdded (n : Nat) (obj : Option Binding) (hp : p.Stored) :
    WordHolds u (arrAdded u d p n id obj) p (arrived (u.arrImage p) n).1 := by
  obtain ⟨_, _, haged⟩ := aged_frame (u.arrApply p n).1 (u.arrApply p n).1.th.tid p.place false
  unfold arrAdded
  rw [haged]
  exact wordHolds_arrApply u n hp

/-- ARRADD is an acquire of the word's binding (R123). -/
theorem arrThread_arrAdded (n : Nat) (obj : Option Binding) :
    ArrThread u (arrAdded u d p n id obj) d (u.arrImage p) id (some obj) := by
  obtain ⟨_, _, haged⟩ := aged_frame (u.arrApply p n).1 (u.arrApply p n).1.th.tid p.place false
  obtain ⟨_, _, happly⟩ := arrApply_th u p n
  refine arrThread_of ?_
  rw [arrAdded, State.upd_th, haged]
  dsimp only
  rw [happly, setS_watch]
  exact ⟨_, _, _, _, rfl⟩

/-- ARRWAIT sleeps on the word where its generation is the one waited on, and else completes. -/
theorem arrWaited_spec (gen : BitVec 8) (obj : Option Binding) :
    SameOutside u (arrWaited u d p gen id obj) ∧
      if arrGen (ownImage u p) = gen then (arrWaited u d p gen id obj).th = { u.th with sleep := .arrwait, line := some p.place.line }
      else ArrThread u (arrWaited u d p gen id obj) d (ownImage u p) id (some obj) ∧ (arrWaited u d p gen id obj).th.sleep = .awake := by
  by_cases hgen : arrGen (ownImage u p) = gen
  · simp only [arrWaited, if_pos hgen]
    exact ⟨rfl, rfl⟩
  · simp only [arrWaited, if_neg hgen]
    exact ⟨rfl, arrThread_of ⟨_, _, _, _, rfl⟩, rfl⟩

end Sys2Proof.Machine
end

section
open Sys2Proof Sys2Proof.Machine
/-- Settles O5: each instruction has its meaning at its word (`exec_arrinit`, `exec_arradd`, `exec_arrwait`); ARRADD traps where its
arrival has an overrun to report (`arrive_overruns`). -/
theorem arrivalResults : Obligations.ArrivalResults := by
  intro d a b s p x id hs va n obj haligned _ hfree hturn hlines
  have ready {k : Kind} (hplace : s.arrPlace s.th k va = .ok (p, x)) : ArrReady s va k p x id :=
    ⟨haligned, hplace, hfree, hturn, hlines⟩
  refine ⟨?_, ?_, ?_⟩
  · intro hplace u v
    exact ⟨_, exec_arrinit d a b hs (ready hplace), arrWord (arrGen v).toNat (s.th.sr b).toNat 0,
      (arrGen_arrWord ..).trans ((BitVec.ofNat_toNat ..).trans (BitVec.setWidth_eq _)), arrTarget_arrWord .., arrCount_arrWord ..,
      wordHolds_arrInited u d id _ (arrPlace_stored hplace), arrThread_arrInited u d id _⟩
  · intro hplace hrel u v
    have hexec := exec_arradd d a b hs (ready hplace) hrel (u := u) (n := n) rfl rfl rfl
    refine ⟨arrAdded u d p n id obj, wordHolds_arrAdded u d id n obj (arrPlace_stored hplace), arrThread_arrAdded u d id n obj, ?_⟩
    rw [← arrive_overruns]
    cases ho : (arrive v n).2 with
    | none =>
      rw [ho] at hexec
      exact hexec
    | some o =>
      rw [ho] at hexec
      exact ⟨overrun va o, rfl, rfl, hexec⟩
  · intro hplace u v
    exact ⟨_, exec_arrwait d a b hs (ready hplace), arrWaited_spec ..⟩
end
